-- ==== Sys2Proof/Word.lean ====
section
/-!
DEFINITION. Word types of the CN-416 and the sparse table every large store is held in.
-/
namespace Sys2Proof

abbrev Byte := BitVec 8
abbrev W16 := BitVec 16
abbrev W32 := BitVec 32
abbrev W48 := BitVec 48
abbrev W64 := BitVec 64

/-- The two compute dies (Table 0.3). -/
inductive Die where
  | w | e
  deriving DecidableEq, Repr, Inhabited

/-- The die on the far side of the die-to-die link. -/
def Die.other : Die → Die
  | .w => .e
  | .e => .w

/-- The die's number in DIE fields: 0 W, 1 E. -/
def Die.num : Die → Nat
  | .w => 0
  | .e => 1

/-- The die a DIE field names. -/
def Die.ofBit (n : Nat) : Die := if n % 2 = 0 then .w else .e

/-- A sparse table: key and value pairs, keys strictly rising, no value equal to what an unlisted key
reads as.  The reading and the writing operation stand in Machine/Tab.lean. -/
abbrev Tab (α : Type) := List (Nat × α)

end Sys2Proof
end

