-- ==== Sys2Proof/Syntax.lean ====
section
/-!
DEFINITION. The commands of the block: one constructor per row of the table of operations and events,
with that row's operands.  What the environment supplies (bytes a requester sends, a temperature, a
measured power, another module's message) is an operand.
-/
namespace Sys2Proof

/-- What a command packet's header says (Table 14.3), with the function and the ring that carried it.
`fn` is 0 for the PF and n for VFn; `page` is the context whose ring page carried the packet. -/
structure Hdr where
  fn : Nat
  page : Nat
  ring : Nat
  seq : W32
  ctx : Nat
  fence : Bool
  hold : Bool
  inln : Bool
  deriving DecidableEq, Repr, Inhabited

/-- CTX_CREATE parameters (Table 14.5). -/
structure CtxCreateP where
  part : BitVec 4
  latency : Bool
  rbwFault : Bool
  seedLo : W64
  seedHi : W64
  spillHa : W64
  spillBytes : W64
  parkHa : W64
  parkBytes : W64
  deriving DecidableEq, Repr, Inhabited

/-- ORING_SET parameters. `kind` false: token records, true: event records. -/
structure OringP where
  ring : BitVec 8
  kind : Bool
  log2 : BitVec 5
  vector : BitVec 12
  ha : W64
  wb : W64
  deriving DecidableEq, Repr, Inhabited

/-- A page's attributes as MAP carries them (R94, Table 14.5). -/
structure MapAttr where
  place : BitVec 4
  salt : BitVec 4
  keysel : Bool
  pair : Bool
  ro : Bool
  pset : BitVec 12
  deriving DecidableEq, Repr, Inhabited

/-- MODEL_LOAD parameters. -/
structure ModelLoadP where
  model : W16
  pin : Bool
  srcPeer : Bool
  peer : BitVec 10
  addr : W64
  bytes : W64
  kvPages : W64
  deriving DecidableEq, Repr, Inhabited

/-- IMP_LOAD parameters. -/
structure ImpLoadP where
  handle : BitVec 4
  ha : W64
  bytes : W64
  va : W64
  deriving DecidableEq, Repr, Inhabited

/-- Which streams of a loaded image run, and when (IMP_RUN, STEP). -/
structure RunP where
  handle : BitVec 4
  wEntry : W32
  eEntry : W32
  start : W64
  deriving DecidableEq, Repr, Inhabited

/-- FILLDRAIN parameters. -/
structure FillDrainP where
  handle : BitVec 4
  m : W16
  fwd : W32
  bwd : W32
  start : W64
  step : W48
  deriving DecidableEq, Repr, Inhabited

/-- An optimiser configuration entry (Table 9.3). -/
structure Ocfg where
  valid : Bool
  wscl : BitVec 4
  wfmt : BitVec 4
  rnd : BitVec 2
  bc : Bool
  nest : Bool
  rule : BitVec 4
  wd : W32
  lr : W32
  b2 : W32
  b1 : W32
  absurd : W32
  eps : W32
  deriving DecidableEq, Repr, Inhabited

/-- GMODE_SET parameters. -/
structure GmodeP where
  nstart : Byte
  latLimit : Byte
  noPerLayer : Bool
  mib : W16
  maxNorm : W32
  normBase : W48
  deriving DecidableEq, Repr, Inhabited

/-- REPLICA_SET parameters. -/
structure ReplicaP where
  vgroup : BitVec 12
  shards : BitVec 11
  stragSteps : BitVec 4
  stragMs : W16
  deriving DecidableEq, Repr, Inhabited

/-- PROOF_ARM parameters. -/
structure ProofArmP where
  n : W16
  allArr : Bool
  destPeer : Bool
  peer : BitVec 10
  peerCtx : BitVec 10
  evRing : Byte
  addr : W64
  psetVa : W48
  psetCount : W64
  deriving DecidableEq, Repr, Inhabited

/-- CKPT_LOAD parameters. -/
structure CkptLoadP where
  srcPeer : Bool
  peer : BitVec 10
  addr : W64
  bytes : W64
  deriving DecidableEq, Repr, Inhabited

/-- CAPTURE_ARM parameters. -/
structure CaptureP where
  step : W48
  tokVa : W48
  tokCount : W64
  areaVa : W48
  areaBytes : W64
  psetVa : W48
  psetCount : W64
  deriving DecidableEq, Repr, Inhabited

/-- PROOF_RECV parameters. `destVa` false: host buffer, true: context pages. -/
structure ProofRecvP where
  destVa : Bool
  source : BitVec 10
  evRing : Byte
  addr : W64
  bytes : W64
  deriving DecidableEq, Repr, Inhabited

/-- STREAM_OPEN parameters: the fields of Table 11.1 that the command supplies. -/
structure StreamOpenP where
  fallback : W16
  model : W16
  sclass : BitVec 3
  latency : Bool
  postn : BitVec 4
  deadline : W64
  expect : BitVec 17
  maxLen : BitVec 17
  stopset : W16
  btab : W48
  tokLog : W48
  outRing : Byte
  prompt : BitVec 17
  cookie : W32
  user : BitVec 63
  switched : Bool
  stopReq : Bool
  deriving DecidableEq, Repr, Inhabited

/-- SERVE parameters, as carried: DECMAX and CHUNK hold one less than the count. -/
structure ServeP where
  count : W32
  decMax : BitVec 12
  chunk : BitVec 13
  pfMax : W16
  deriving DecidableEq, Repr, Inhabited

/-- PART_SET parameters (Table 14.18). -/
structure PartSetP where
  part : BitVec 4
  tagCnt : BitVec 7
  tagBase : BitVec 6
  semCnt : BitVec 7
  semBase : BitVec 6
  ptW : W64
  ptE : W64
  te : W64
  uu : Byte
  su : W32
  share : W16
  sliceMs : Byte
  killLimit : BitVec 4
  deriving DecidableEq, Repr, Inhabited

/-- DOMAIN_SET parameters; `src` is SRC of the Ridge source word (R391). -/
structure DomainP where
  moduleId : BitVec 10
  dx : BitVec 4
  dy : BitVec 4
  dz : BitVec 4
  epoch : Byte
  root : BitVec 10
  backup : BitVec 10
  src : BitVec 2
  deriving DecidableEq, Repr, Inhabited

/-- TELEMETRY_READ parameters. -/
structure TelemetryP where
  block : Byte
  clear : Bool
  die : Die
  first : BitVec 12
  count : BitVec 12
  ha : W64
  deriving DecidableEq, Repr, Inhabited

/-- Where a control slot stands: die, partition and the delay D of its bits 123:112 (R121). -/
structure Ctl where
  die : Die
  part : Nat
  delay : BitVec 12
  deriving DecidableEq, Repr, Inhabited

/-- A unit of a partition's stream: its slot position (Table 5.2). -/
structure UnitRef where
  die : Die
  part : Nat
  pos : Nat
  deriving DecidableEq, Repr, Inhabited

/-- A compositor thread: die, LOC (0 the die, 1 to 4 its stacks), compositor and thread context. -/
structure ThreadRef where
  die : Die
  loc : Nat
  comp : Nat
  ctx : Nat
  deriving DecidableEq, Repr, Inhabited

/-- The module of the domain a request came from and the context of this module it asks (R363). -/
structure PeerCtx where
  source : BitVec 10
  ctx : Nat
  deriving DecidableEq, Repr, Inhabited

/-- A compositor register number. -/
abbrev Reg := BitVec 4

/-- What a participant of a collective op sends to the others: its index, the group and the number its engine gives the op there
(R237), the round of an A2A (R251), what the first exchange compares, and its data as bytes of each of its buffers. -/
structure Peer where
  index : Nat
  group : BitVec 12
  op : Nat
  round : Nat
  fingerprint : W32
  epoch : Byte
  opcode : BitVec 4
  word0 : W64
  word1 : W64
  bufs : List (List Byte)
  deriving DecidableEq, Repr, Inhabited

/-- A commit vote (R259), with the PSET digests that are exchanged when digests differ. -/
structure Vote where
  index : Nat
  digest : W64
  ovfSeen : Bool
  committable : Bool
  step : W48
  time : W64
  psets : List (Nat × W64)
  deriving DecidableEq, Repr, Inhabited

/-- A self-test outcome (R394, R395): failing units as class, die and index. -/
structure SelfTestResult where
  criticalFail : Bool
  failures : List (Nat × Die × Nat)
  deriving DecidableEq, Repr, Inhabited

/-- The commands: one constructor per row. -/
inductive Instr where
  -- command packets carried out (Table 14.5)
  | capQuery (h : Hdr) (ha : W64)
  | levelSet (h : Hdr) (level : Byte)
  | nopCmd (h : Hdr)
  | ctxCreate (h : Hdr) (p : CtxCreateP)
  | ctxDestroy (h : Hdr)
  | ctxQuery (h : Hdr) (ha : W64)
  | ctxMove (h : Hdr) (part : BitVec 4) (latency : Bool)
  | vfBind (h : Hdr) (vf : BitVec 9)
  | oringSet (h : Hdr) (p : OringP)
  | mapPages (h : Hdr) (va : W64) (pages : W64) (a : MapAttr)
  | unmapPages (h : Hdr) (va : W64) (pages : W64)
  | grantModel (h : Hdr) (model : W16) (grantee : BitVec 10) (va : W64)
  | modelLoad (h : Hdr) (p : ModelLoadP) (image : List Byte)
  | modelPin (h : Hdr) (model : W16) (pin : Bool)
  | modelEvict (h : Hdr) (model : W16)
  | impLoad (h : Hdr) (p : ImpLoadP) (image : List Byte)
  | impRun (h : Hdr) (p : RunP)
  | stepCmd (h : Hdr) (p : RunP) (step : W48)
  | commitCmd (h : Hdr) (step : W48)
  | abortCmd (h : Hdr) (step : W48)
  | fillDrain (h : Hdr) (p : FillDrainP)
  | ocfgSet (h : Hdr) (entry : Byte) (e : Ocfg)
  | lsSet (h : Hdr) (e : BitVec 6) (interval : W16)
  | gmodeSet (h : Hdr) (p : GmodeP)
  | replicaSet (h : Hdr) (p : ReplicaP)
  | proofArm (h : Hdr) (p : ProofArmP)
  | checkpoint (h : Hdr) (ha : W64) (avail : W64)
  | ckptLoad (h : Hdr) (p : CkptLoadP) (image : List Byte)
  | captureArm (h : Hdr) (p : CaptureP)
  | reprint (h : Hdr) (areaVa : W64)
  | proofRecv (h : Hdr) (p : ProofRecvP)
  | streamOpen (h : Hdr) (p : StreamOpenP)
  | streamClose (h : Hdr) (stream : W16)
  | streamPark (h : Hdr) (stream : W16)
  | streamUnpark (h : Hdr) (stream : W16)
  | streamQuery (h : Hdr) (stream : W16) (ha : W64)
  | stopsetSet (h : Hdr) (index : W16) (va : W64) (data : List Byte)
  | serve (h : Hdr) (p : ServeP)
  | partSet (h : Hdr) (p : PartSetP)
  | preempt (h : Hdr)
  | lockAcquire (h : Hdr) (lock : Byte)
  | lockRelease (h : Hdr) (lock : Byte)
  | domainSet (h : Hdr) (p : DomainP)
  | overlayApply (h : Hdr) (ovl : BitVec 5) (ha : W64) (image : List Byte)
  | powerLimit (h : Hdr) (watts : W16) (sprint : Bool)
  | telemetryRead (h : Hdr) (p : TelemetryP)
  | debugUnlock (h : Hdr) (phase : Bool) (ha : W64) (resp : List Byte)
  -- rings and the firmware's queues
  | doorbell (fn ctx ring : Nat) (tail : W32) (stores : List (Nat × Byte))
  | ringEnable (fn ctx ring : Nat) (value : W32)
  | packetTake (ctx : Nat)
  | cplHeadWrite (fn ctx ring : Nat) (head : W32)
  | oringHeadWrite (fn ctx ring : Nat) (head : W32)
  | commandComplete (ctx : Nat)
  | fenceRelease (ctx ring : Nat)
  | executeQueueStart (ctx : Nat)
  -- the Imposition stream
  | beatBoundary (die : Die)
  | sheetFetch (die : Die) (part : Nat) (block : Nat)
  | ctrlNop (c : Ctl)
  | wait (c : Ctl) (sem : BitVec 12) (half : Bool) (count : W16) (timeout : BitVec 20)
  | waitTimeout (die : Die) (part : Nat)
  | waitu (c : Ctl) (classes : BitVec 7)
  | ldcnt (c : Ctl) (cnt : BitVec 3) (value : W32)
  | loop (c : Ctl) (cnt : BitVec 3) (target : BitVec 24)
  | jump (c : Ctl) (target : BitVec 24)
  | rwait (c : Ctl) (time : W64)
  | widen (c : Ctl) (tag : W16) (region : W16)
  | signal (c : Ctl) (sem : BitVec 12) (half xdie : Bool) (count : W16)
  | ctrlStep (c : Ctl) (add : Bool) (value : W48)
  | ctrlCommit (c : Ctl)
  | halt (c : Ctl)
  | ctrlTrap (c : Ctl) (code : W16)
  | slotNop (u : UnitRef)
  | platenTile (u : UnitRef)
  | rbclr (u : UnitRef)
  | thatchTile (u : UnitRef)
  | select (u : UnitRef)
  | update (u : UnitRef)
  | gutOpen (u : UnitRef)
  | gutRelease (u : UnitRef)
  | reduce (u : UnitRef) (peers : List Peer)
  | rscat (u : UnitRef) (peers : List Peer)
  | gather (u : UnitRef) (peers : List Peer)
  | a2a (u : UnitRef) (peers : List Peer)
  | smerge (u : UnitRef) (peers : List Peer)
  | bcast (u : UnitRef) (peers : List Peer)
  | norm (u : UnitRef) (peers : List Peer)
  | spawn (u : UnitRef)
  | opCompletion (u : UnitRef)
  | thatchCompletionRecord (u : UnitRef)
  | crossDieSignal (die : Die)
  | streamTrap (u : UnitRef) (cause : Byte) (code : W16)
  | trapArrival (die : Die) (part : Nat)
  | streamHalted (die : Die) (part : Nat)
  -- feeders, the weight cache, faults
  | listFetch (u : UnitRef)
  | linkTake (u : UnitRef) (desc : Nat)
  | cacheFill (die : Die) (line : Nat)
  | invalidateSnoop (line : Nat)
  | evictionNotice (die : Die) (line : Nat)
  | midStreamFault (u : UnitRef) (kind : BitVec 4) (desc : BitVec 10) (addr : BitVec 52)
  | waitGraphCheck (waits : List (Nat × Nat))
  -- compositor instructions (Table 7.2)
  | add (t : ThreadRef) (d a b : Reg)
  | sub (t : ThreadRef) (d a b : Reg)
  | mul (t : ThreadRef) (d a b : Reg)
  | divu (t : ThreadRef) (d a b : Reg)
  | and (t : ThreadRef) (d a b : Reg)
  | or (t : ThreadRef) (d a b : Reg)
  | xor (t : ThreadRef) (d a b : Reg)
  | shl (t : ThreadRef) (d a b : Reg)
  | shr (t : ThreadRef) (d a b : Reg)
  | sar (t : ThreadRef) (d a b : Reg)
  | slt (t : ThreadRef) (d a b : Reg)
  | sltu (t : ThreadRef) (d a b : Reg)
  | addi (t : ThreadRef) (d a : Reg) (imm : BitVec 13)
  | li (t : ThreadRef) (d : Reg) (imm : BitVec 13)
  | lih (t : ThreadRef) (d a : Reg) (imm : BitVec 13)
  | fadd (t : ThreadRef) (d a b : Reg)
  | fsub (t : ThreadRef) (d a b : Reg)
  | fmul (t : ThreadRef) (d a b : Reg)
  | fdiv (t : ThreadRef) (d a b : Reg)
  | fmax (t : ThreadRef) (d a b : Reg)
  | fmin (t : ThreadRef) (d a b : Reg)
  | famax2 (t : ThreadRef) (d a : Reg)
  | fexp (t : ThreadRef) (d a : Reg)
  | flog (t : ThreadRef) (d a : Reg)
  | frsq (t : ThreadRef) (d a : Reg)
  | fslt (t : ThreadRef) (d a b : Reg)
  | i2f (t : ThreadRef) (d a : Reg)
  | f2i (t : ThreadRef) (d a : Reg)
  | cvt2 (t : ThreadRef) (d a b : Reg) (fmt : BitVec 4) (rnd : BitVec 2)
  | exp2 (t : ThreadRef) (d a b : Reg) (fmt : BitVec 4)
  | tobf (t : ThreadRef) (d a : Reg) (rnd : BitVec 2)
  | frombf (t : ThreadRef) (d a : Reg)
  | ld64 (t : ThreadRef) (d a : Reg) (imm : BitVec 13)
  | st64 (t : ThreadRef) (a b : Reg) (imm : BitVec 13)
  | ld32 (t : ThreadRef) (d a : Reg) (imm : BitVec 13)
  | st32 (t : ThreadRef) (a b : Reg) (imm : BitVec 13)
  | ld8 (t : ThreadRef) (d a : Reg) (imm : BitVec 13)
  | st8 (t : ThreadRef) (a b : Reg) (imm : BitVec 13)
  | aadd (t : ThreadRef) (d a b : Reg)
  | acas (t : ThreadRef) (d a b : Reg)
  | fence (t : ThreadRef)
  | arg (t : ThreadRef) (d : Reg) (desc : BitVec 10) (word : BitVec 3)
  | spr (t : ThreadRef) (d : Reg) (index : BitVec 13)
  | ssig (t : ThreadRef) (a b : Reg) (half xdie : Bool)
  | stake (t : ThreadRef) (a b : Reg) (half xdie : Bool)
  | rseed (t : ThreadRef) (a b : Reg)
  | rnext (t : ThreadRef) (d : Reg)
  | beq (t : ThreadRef) (a b : Reg) (imm : BitVec 13)
  | bne (t : ThreadRef) (a b : Reg) (imm : BitVec 13)
  | blt (t : ThreadRef) (a b : Reg) (imm : BitVec 13)
  | jmp (t : ThreadRef) (imm : BitVec 13)
  | jr (t : ThreadRef) (a : Reg)
  | exit (t : ThreadRef)
  | compTrap (t : ThreadRef) (imm : BitVec 13)
  | threadWake (t : ThreadRef)
  | instructionFault (t : ThreadRef)
  -- selection, Gutter, training steps
  | stackSelection (stack unit : Nat)
  | gutterRecordArrival (die : Die) (source : Nat)
  | clipFactorReady (u : UnitRef)
  | commitPoint (ctx : Nat)
  | voteReceived (ctx : Nat) (votes : List Vote)
  | voteTimeout (ctx : Nat)
  | collectiveTimeout (die : Die) (part : Nat)
  | collectiveAbortReceived (die : Die) (part : Nat) (peer : BitVec 10) (status : W16)
  | a2aRoundResume (u : UnitRef)
  -- Purlin and Ridge
  | portDown (port : Nat)
  | portPlug (port : Nat) (neighbour : BitVec 10) (nport : BitVec 3) (epoch : Byte)
  | laneRetrain (port : Nat)
  | referenceLoss
  | referenceReturn (phaseErr : W16) (stepNs : Int)
  | ridgeUpstreamSwitch
  -- registers
  | ridgeNowRead (fn : Nat)
  | gutLossSumRead (fn : Nat) (die : Die)
  | registerReadClear (fn bar : Nat) (off : Nat) (size : Nat)
  | registerWrite (fn bar : Nat) (off : Nat) (size : Nat) (value : BitVec 128)
  -- stacks
  | trafficWindow (stack : Nat) (channels : List Nat) (interleaved : List Nat)
  | pageMigration (stack : Nat) (samples : List (Nat × Nat × Nat))
  | migrationSwitch (stack : Nat)
  | migrationFree (stack : Nat)
  -- power and clocks
  | frequencyControl (die : Die) (watts : W16) (hotspot : Byte) (currentLimit : Bool)
  | sprintEnd
  | gatingPeriod (stack : Nat) (temp : Byte)
  | thermalTrip
  | droopCorrection (die : Die) (platen : Nat)
  | droopRelax (die : Die) (platen : Nat)
  | emergencyHold (die : Die) (platen : Nat)
  | clipAdaptWindow (ctx : Nat) (die : Die) (tag : BitVec 12)
  -- serving
  | serveStepLaunch (ctx : Nat)
  | stopDetection (ctx : Nat) (durationNs : Nat)
  | parkComplete (die : Die)
  | unparkComplete (die : Die)
  -- proof
  | proofShipmentDone (ctx : Nat)
  | proofReceive (source : BitVec 10) (ctx : Nat) (image : List Byte)
  | proofRefused (ctx : Nat)
  -- contexts and scheduling
  | schedulerChoice (part : Nat)
  | sliceExpiry (part : Nat)
  | classKill (part : Nat)
  | kill (ctx : Nat) (status : W16)
  | killHeldRelease (ctx : Nat)
  | contextSwitch (part : Nat)
  | storeZeroing (part : Nat)
  | contextTeardown (ctx : Nat) (status : W16)
  | pageFirstWrite (ctx : Nat) (va : W48)
  | bar4Access (fn : Nat) (off : BitVec 38) (data : Option (List Byte)) (len : Nat)
  -- the host link, power input and bring-up
  | functionLevelReset (fn : Nat)
  | perstAssert
  | linkTraining
  | powerInputRise
  | inputBrownout
  | phaseTimeout
  | ident (primW primE bootSrc : Bool)
  | primaryElection (exchanged : Bool)
  | dieLinkFailure
  | baseConfigLoad
  | bootldFetch (image : List Byte)
  | selftest (r : SelfTestResult)
  | ready
  | buttonShortPress
  | locateExpiry
  | quiesce
  | quiesceEnd
  | forcedManagementReset
  -- the debug port, debug registers, sideband
  | bypass (tdi : Bool)
  | idcode
  | samplePreload (pins preload : List Bool)
  | extest
  | dbgacc (dr : BitVec 96)
  | colprog (image : List Byte)
  | dbgHalt (die : Die) (halt : Bool)
  | dbgStep (die : Die) (n : Byte)
  | compositorBreakpointHit (t : ThreadRef)
  | dbgCresume (die : Die) (bp : BitVec 6)
  | dbgMdataRd (die : Die)
  | dbgMdataWr (die : Die) (data : W64)
  | unlockChallenge
  | unlockResponse
  | challengeLapse
  | sidebandOffsetWrite (off : W16)
  | sidebandRead (len : Nat)
  | ridgeLockAcquired
  | droopSensorRecovery (die : Die) (platen : Nat)
  | neighbourEpochReport (port : Nat) (neighbour : BitVec 10) (nport : BitVec 3) (epoch : Byte)
  | peerReadRequest (ctx : PeerCtx) (va : W48) (len : Nat)
  deriving DecidableEq, Repr, Inhabited

end Sys2Proof
end

