-- ==== Sys2Proof/Decode.lean ====
section
/-!
DEFINITION. The commands that a word spells.  The table of operations and events gives no row any bits: a command
reaches the module as an access, a packet in a ring, an event, never as a bare word.  Command packets in a ring are
read in Machine/Packet.lean, compositor words in Machine/Compositor.lean, Imposition sheets in Machine/Stream.lean.
-/
namespace Sys2Proof

/-- No row of the table has bits, so no word spells a command.
DESIGN CHOICE: log entry 88. -/
def decodeTableWord (_nbits _w : Nat) : Option Instr := none

end Sys2Proof
end

