-- ==== Sys2Proof/Config.lean ====
section
/-!
DEFINITION. What the CN-416 leaves to an implementation or to chance: constants with no body.  No proof can
see their values, so a theorem holds whatever they are.
-/
namespace Sys2Proof.Config

/-- A fresh byte the manual leaves undefined (R132, R136, R156); the counter is `State.fresh`. -/
opaque freeByte : Nat → Byte
/-- A fresh word the manual leaves undefined or does not state. -/
opaque freeWord : Nat → W64
/-- The n-th 64-bit word of the hardware random source (R96, R291, R324, R403). -/
opaque random : Nat → W64
/-- The mass term of a NaN score (R174, R194) and the RTEMP of a packet whose records differ in it (R185, R186), by the records'
RTEMPs in ascending order: the manual states no value. -/
opaque nanTerm : Nat
opaque mixedRtemp : List W32 → W32
/-- The hash-key word DBG_HASHKEY gives for a key of twelve masks: the manual does not say how the masks stand in it (R402). -/
opaque hashKeyWord : List Nat → W64
/-- The 16 bytes at an offset of a sheet section that was written while a command used its handle (R361): the write's number, the
offset. -/
opaque sheetWord : Nat → Nat → BitVec 128
/-- Where the page allocator begins to look for a free place: the manual does not say which free page is taken. -/
opaque allocHint : Nat → Nat
/-- A ciphertext byte of AES-256-XTS: key serial, tweak, place in the unit and the plaintext of its 16-byte block (R324, R402). -/
opaque cipherByte : Nat → Nat → Nat → List Byte → Byte
/-- FW_MAJOR and FW_MINOR, the ROM release (Table 14.6). -/
opaque fwMajor : Byte
opaque fwMinor : Byte
/-- Silicon revision in IDCODE bits 31:28 (Table 16.6). -/
opaque siliconRev : BitVec 4
/-- IDENT: the 16-byte serial number and the manufacturer code (Table 16.3). -/
opaque serial : BitVec 128
opaque manufacturer : BitVec 11
/-- The margin register's value when a port is live: adaptation is analogue (R375). -/
opaque eyeMargin : Nat → W16
/-- The largest neighbour round trip a probe measures at a step's end (R263). -/
opaque probeRtt : Nat → W16

end Sys2Proof.Config
end

