-- ==== Sys2Proof/Machine/State.lean ====
section
/-!
DEFINITION. The state of the CN-416: every register, table, buffer, queue and mode the manual gives the module,
as plain data, with the queue of waiting commands; and the state after reset.
-/
namespace Sys2Proof.Machine

/-- Why the block stops with a fault. The manual gives every error an effect on the state, so no meaning
stops on ordinary data. -/
inductive Fault where
  /-- Raised by no meaning: a command's errors are status records, notices and traps in the state. Safe. -/
  | unused
  deriving DecidableEq, Repr

/-- Why a command is refused. -/
inductive Refusal where
  /-- Raised by the dispatch for a command that has no meaning yet. Safe. -/
  | notModelled (mnemonic : String)
  deriving DecidableEq, Repr

/-- A byte store: sparse, canonical; an unlisted address reads as 0.
DESIGN CHOICE: log entry 4. -/
abbrev Memory := Tab Byte

/-- A sticky notice with the count and the Ridge time of its first event (R99, R129, R190, ...). -/
structure Notice where
  notice : Bool := false
  count : W16 := 0
  time : W64 := 0
  deriving DecidableEq, Repr, Inhabited

/-- One layer tag's flag counters (Table 2.7). -/
structure FlagCounts where
  ovf : W32 := 0
  nan : W32 := 0
  clip : W32 := 0
  badcode : W32 := 0
  trunc : W32 := 0
  deriving DecidableEq, Repr, Inhabited

/-- The five sticky flags (Table 2.6). -/
structure Flags where
  ovf : Bool := false
  nan : Bool := false
  clip : Bool := false
  badcode : Bool := false
  trunc : Bool := false
  deriving DecidableEq, Repr, Inhabited

/-- One entry of a die's widen table (Table 3.6), its decision counts (R75) and the window of R376. -/
structure WidenEntry where
  enable : Bool := true
  thresh : BitVec 24 := 0x4189
  clip : BitVec 40 := 0
  conv : BitVec 40 := 0
  count : W32 := 0
  widened : Bool := false
  decClip : Nat := 0
  decConv : Nat := 0
  execs : Nat := 0
  taken : Nat := 0
  deriving DecidableEq, Repr, Inhabited

/-- One entry of a die's Gauge table (Table 9.8). -/
structure GaugeEntry where
  lscope : Bool := true
  gsq : W64 := 0
  wsq : W64 := 0
  usq : W64 := 0
  nonfin : W32 := 0
  ovf : W32 := 0
  clip : W32 := 0
  conv : W32 := 0
  step : W48 := 0
  deriving DecidableEq, Repr, Inhabited

/-- `CTX_FLAG_STEP` (Table 2.7). -/
structure FlagStep where
  firstTag : W16 := 0
  f : Flags := {}
  deriving DecidableEq, Repr, Inhabited

/-- Both halves of a semaphore pair (R149). -/
structure Sem where
  full : W16 := 0
  empty : W16 := 0
  deriving DecidableEq, Repr, Inhabited

/-- The stream registers of one die (Table 5.10). -/
structure Imp where
  state : BitVec 4 := 0
  waitKind : BitVec 4 := 0
  pc : W32 := 0
  trapValid : Bool := false
  trapCause : Byte := 0
  trapSlot : BitVec 7 := 0
  trapCode : W16 := 0
  trapPc : W32 := 0
  late : Notice := {}
  stall : W32 := 0
  overrun : W32 := 0
  step : W48 := 0
  deriving DecidableEq, Repr, Inhabited

/-- `CTX_FAULT`, `CTX_FAULT_ADDR`, `CTX_FAULT_LIST` (Table 6.6). -/
structure FaultRegs where
  valid : Bool := false
  kind : BitVec 4 := 0
  unit : BitVec 7 := 0
  desc : BitVec 10 := 0
  addr : BitVec 52 := 0
  list : W16 := 0
  deriving DecidableEq, Repr, Inhabited

/-- `CTX_COMP_FAULT` and its companions (Table 7.6). -/
structure CompFault where
  valid : Bool := false
  kind : BitVec 4 := 0
  spawn : BitVec 3 := 0
  loc : BitVec 3 := 0
  comp : Byte := 0
  context : BitVec 12 := 0
  prog : W16 := 0
  offset : W16 := 0
  tid : BitVec 20 := 0
  deriving DecidableEq, Repr, Inhabited

/-- What a context holds for one die: registers and tag tables that belong to the context running there
(R57, R79, R137, R222, R256). A context that is not running keeps the same record (R316, R330). -/
structure CtxDie where
  flagSel : BitVec 12 := 0
  flags : Tab FlagCounts := []
  flagStep : FlagStep := {}
  widenSel : BitVec 12 := 0
  widen : Tab WidenEntry := []
  gaugeSel : BitVec 12 := 0
  gauge : Tab GaugeEntry := []
  imp : Imp := {}
  fault : FaultRegs := {}
  semSel : BitVec 12 := 0
  semOvf : Bool := false
  semOvfPair : BitVec 12 := 0
  wgKills : W32 := 0
  wcHits : W32 := 0
  wcMisses : W32 := 0
  compFault : CompFault := {}
  semSaved : Tab Sem := []
  cntSaved : Tab W32 := []
  ptIdle : Tab W32 := []
  teIdle : Tab W32 := []
  idleSum : Tab W64 := []
  deriving DecidableEq, Repr, Inhabited

/-- A status record (Table 14.4). -/
structure Record where
  value : W32 := 0
  detail : W32 := 0
  seq : W32 := 0
  fdie : Bool := false
  first : BitVec 7 := 0
  nparts : BitVec 7 := 0
  status : W16 := 0
  deriving DecidableEq, Repr, Inhabited

/-- A command ring and its completion ring (Table 14.2); `stopped` is the halt of R337, `kept` are the records that wait
for room (R338), `fenceOn` the commands a FENCE packet at the ring's head waits for (R350). -/
structure Ring where
  base : W64 := 0
  log2 : BitVec 5 := 6
  cplBase : W64 := 0
  cplLog2 : BitVec 5 := 6
  wb : W64 := 0
  tail : W32 := 0
  head : W32 := 0
  cplHead : W32 := 0
  cplTail : W32 := 0
  badoff : Byte := 0
  vector : BitVec 12 := 0
  err : Bool := false
  intr : Bool := false
  enable : Bool := false
  fenceOn : Option (List Hdr) := none
  stopped : Bool := false
  kept : List Record := []
  deriving DecidableEq, Repr, Inhabited

/-- An output ring (R348); `delayed` are the records that wait for room. -/
structure Oring where
  set : Bool := false
  kind : Bool := false
  log2 : BitVec 5 := 0
  vector : BitVec 12 := 0
  ha : W64 := 0
  wb : W64 := 0
  head : W32 := 0
  tail : W32 := 0
  delayed : List (BitVec 128) := []
  deriving DecidableEq, Repr, Inhabited

/-- Where a page's bytes lie (R94): one 2 MiB page of a stack, or one 256 KiB slice in each of the eight stacks.
Both are counted in 256 KiB slices of the stack's local space. -/
inductive Phys where
  | pinned (stack slice : Nat)
  | inter (slices : List Nat)
  deriving DecidableEq, Repr

/-- One physical copy of a page, with its written bit (R327), its present salt (R101) and hash-key serial. -/
structure PageCopy where
  phys : Phys
  salt : BitVec 4
  hash : Nat
  written : Bool
  deriving DecidableEq, Repr

/-- A mapped 2 MiB page (R94, R201, R325): attributes, copies A and B, the key it is read under. -/
structure Page where
  attr : MapAttr
  copyA : PageCopy
  copyB : Option PageCopy
  key : Nat
  granted : Bool := false
  model : Option W16 := none
  spilled : Bool := false
  deriving DecidableEq, Repr

/-- Region bounds in units of 4 KiB (Table 3.4, Table 14.15). -/
structure Bounds where
  base : Nat := 0
  limit : Nat := 0
  deriving DecidableEq, Repr, Inhabited

/-- A program table entry (Table 14.15). -/
structure ProgEntry where
  va : W48 := 0
  len : Nat := 0
  deriving DecidableEq, Repr, Inhabited

/-- A collective group entry with its participant list as kept at load (R235). -/
structure Group where
  p : Nat := 0
  l0 : Nat := 0
  l1 : Nat := 0
  l2 : Nat := 0
  low : W64 := 0
  plist : List W16 := []
  deriving DecidableEq, Repr, Inhabited

/-- The checked tables of one die of an imposition image (R361). Of a running stream's copy, `spoiled` says that its sheet section was
written while the command runs, with the write's number, and `kept` holds the sheets fetched before that, by offset in 16-byte
units. -/
structure DieImage where
  sheetVa : W48 := 0
  sheetSize : Nat := 0
  dlists : Tab W64 := []
  progs : Tab ProgEntry := []
  platens : Tab (List Bounds) := []
  stks : Tab (List Bounds) := []
  groups : Tab Group := []
  causes : Tab (BitVec 4) := []
  spoiled : Option Nat := none
  kept : Tab (Option Nat) := []
  deriving DecidableEq, Repr, Inhabited

/-- A loaded imposition image: the dies it runs on (R360). -/
structure Image where
  w : Option DieImage := none
  e : Option DieImage := none
  hasErr : Bool := false
  deriving DecidableEq, Repr, Inhabited

/-- How a run of a command ended, for its status record. -/
structure EndStatus where
  status : W16
  detail : W32 := 0
  value : W32 := 0
  fdie : Bool := false
  first : BitVec 7 := 0
  nparts : BitVec 7 := 0
  beatAt : W64 := 0
  deriving DecidableEq, Repr, Inhabited

/-- A command of the execute queue, with its successive kills and the serve steps earlier runs finished (R346). -/
structure ExecCmd where
  cmd : Instr
  kills : Nat := 0
  stepsDone : Nat := 0
  deriving DecidableEq, Repr

/-- A Gauge partial that a collective engine formed in the step (R214, R243). -/
structure Partial where
  gsq : W64 := 0
  nonfin : W32 := 0
  deriving DecidableEq, Repr, Inhabited

/-- What the module knows of a parameter set (R200, R203, R299): parameters, the six array addresses of Table 9.2, the
rule and weight format last used, and its latest Gauge figures. -/
structure PsetInfo where
  p : Nat := 0
  addrs : List Nat := []
  rule : Nat := 0
  wfmt : Nat := 2
  wscl : Nat := 1
  gauge : GaugeEntry := {}
  deriving DecidableEq, Repr, Inhabited

/-- One row of a batch: stream, position, input token, whether it samples and whether it is a prefill row. -/
structure BatchRow where
  stream : Nat := 0
  pos : Nat := 0
  token : Nat := 0
  sampling : Bool := false
  prefill : Bool := false
  deriving DecidableEq, Repr, Inhabited

/-- Bytes an op writes: where they lie, for an UPDATE that its writes go to inactive pages, and whether they lie in a reduction
buffer (R136, R156, R201). Of a thread's store, `tid` is the thread and `released` the time, in `Chip.syncs`, of the thread's first
atomic or semaphore operation after it (R168). -/
structure Out where
  space : Nat := 0
  addr : Nat := 0
  len : Nat := 0
  inactive : Bool := false
  red : Bool := false
  tid : Option Nat := none
  released : Option Nat := none
  deriving DecidableEq, Repr, Inhabited

/-- Bytes that a completed op of a run wrote, which a mid-stream fault leaves undefined (R156): the unit's die and slot position
and what it wrote; `Run.faulted` says that such a fault has come. `id` is the op's number in the run. -/
structure Wrote where
  die : Die := .w
  pos : Nat := 0
  out : Out := {}
  id : Nat := 0
  deriving DecidableEq, Repr, Inhabited

/-- What can come after the completion of an op in the order of R132: a die's stream, a unit by its die and slot position, those that
wait for a class of units (WAITU), and those that take from a half of a pair. -/
inductive Holder where
  | stream (d : Die)
  | unit (d : Die) (pos : Nat)
  | cls (d : Die) (k : Nat)
  | half (d : Die) (pair : Nat) (empty : Bool)
  deriving DecidableEq, Repr, Inhabited

/-- The order of a run's ops (R132): how many have started, which is the last one's number, and for each holder the ops it comes
after. -/
structure Order where
  count : Nat := 0
  known : List (Holder × List Nat) := []
  deriving DecidableEq, Repr, Inhabited

/-- The run in progress of a context's command; `batches` holds the rows of a serve step by model-cache entry. -/
structure Run where
  start : W64 := 0
  began : W64 := 0
  isStep : Bool := false
  step : W48 := 0
  hold : Bool := false
  released : Bool := false
  issuedW : Bool := false
  issuedE : Bool := false
  commitW : Bool := false
  commitE : Bool := false
  timeW : W64 := 0
  timeE : W64 := 0
  pastCommit : Bool := false
  voteDone : Bool := false
  reruns : Nat := 0
  lsExp : BitVec 6 := 0
  mode : BitVec 2 := 0
  ocfg : Tab Ocfg := []
  updated : List Nat := []
  digests : Tab W64 := []
  partials : Tab (Option Partial) := []
  heldKill : Option W16 := none
  bwd : Bool := false
  index : Nat := 0
  serveSteps : Nat := 0
  serveQ : List Nat := []
  serveOpen : Bool := false
  batches : List (Nat × List BatchRow) := []
  finish : Option EndStatus := none
  pinHeld : Bool := false
  removed : Bool := false
  wrote : List Wrote := []
  reads : List Wrote := []
  order : Order := {}
  faulted : Bool := false
  deriving DecidableEq, Repr, Inhabited

/-- Step, loss-scale, gradient-mode and selector registers (Table 9.9). `since` counts the committed steps since the
last model or checkpoint load, none before one (R231); `slow` the steps of low latency that bucketed mode still asks for. -/
structure TrainRegs where
  clean : W16 := 0
  exp : BitVec 6 := 0x10
  interval : W16 := 0x07D0
  firstPset : BitVec 12 := 0
  lsFloor : Bool := false
  ovfSeen : Bool := false
  reason : BitVec 3 := 0
  committable : Bool := false
  latLimit : Byte := 0x14
  nstart : Byte := 0x10
  since : Option Nat := none
  cause : BitVec 4 := 0
  forced : Bool := false
  mode : BitVec 2 := 0
  mib : W16 := 0x0040
  maxNorm : W32 := 0
  normBase : W48 := 0
  pselSel : BitVec 12 := 0
  active : Tab Bool := []
  written : Tab Bool := []
  noPerLayer : Bool := false
  slow : Nat := 0
  lastStep : W48 := 0
  lastTime : W64 := 0
  deriving DecidableEq, Repr, Inhabited

/-- A proof shipment in flight (R295, R296): the step, the pinned PSETs, the commit points since, the image, where it
goes, and the event that waits to be posted when it has ended (0 while it runs). -/
structure Shipment where
  step : W48 := 0
  psets : List Nat := []
  flips : Nat := 0
  image : List Byte := []
  p : ProofArmP := default
  endCode : Nat := 0
  deriving DecidableEq, Repr, Inhabited

/-- The armed proof (R294). -/
structure ProofArm where
  p : ProofArmP
  psets : List Nat := []
  count : Nat := 0
  deriving DecidableEq, Repr, Inhabited

/-- An armed capture (R301) and what its area already holds. -/
structure Capture where
  p : CaptureP
  psets : List Nat := []
  seed : BitVec 128 := 0
  deriving DecidableEq, Repr, Inhabited

/-- Proof, capture and generator registers and their engines' state (Table 12.3). -/
structure ProofRegs where
  arm : Option ProofArm := none
  ship : Option Shipment := none
  shipStep : W48 := 0
  held : Bool := false
  done : W32 := 0
  holds : W32 := 0
  rngOver : Bool := false
  rngTile : BitVec 20 := 0
  rngStream : BitVec 4 := 0
  capture : Option Capture := none
  capStep : W48 := 0
  capPsets : Byte := 0
  capState : BitVec 2 := 0
  repFirst : BitVec 12 := 0
  repMiss : Byte := 0
  repResult : BitVec 4 := 0
  recv : List ProofRecvP := []
  deriving DecidableEq, Repr, Inhabited

/-- Table 13.1. -/
inductive CtxSt where
  | free | creating | idle | ready | loading | running | saving | tearing
  deriving DecidableEq, Repr, Inhabited

/-- A context (chapter 13) with its rings, pages, images and saved registers. -/
structure Ctx where
  st : CtxSt := .free
  part : Nat := 0
  latency : Bool := false
  rbwFault : Bool := false
  held : Bool := false
  rbw : W32 := 0
  killCount : W32 := 0
  seed : BitVec 128 := 0
  key : Nat := 0
  hash : Nat := 0
  spillHa : W64 := 0
  spillBytes : W64 := 0
  parkHa : W64 := 0
  parkBytes : W64 := 0
  pages : Tab (Option Page) := []
  handles : Tab (Option Image) := []
  rings : Tab Ring := []
  orings : Tab Oring := []
  bar4Base : BitVec 10 := 0
  ringLast : Nat := 7
  execQ : List ExecCmd := []
  run : Option Run := none
  stopVa : Option W48 := none
  lastRun : W64 := 0
  sliceStart : Option W64 := none
  sliceDone : Bool := false
  train : TrainRegs := {}
  ocfg : Tab Ocfg := []
  psets : Tab PsetInfo := []
  proof : ProofRegs := {}
  w : CtxDie := {}
  e : CtxDie := {}
  keptAcks : List (W48 × Bool) := []
  acked : List W48 := []
  doneSteps : List W48 := []
  halted : Bool := false
  gone : Bool := false
  streamReqs : List (Instr × W16) := []
  serveStep : Nat := 0
  deferred : List Instr := []
  deriving DecidableEq, Repr, Inhabited

/-- A partition (Table 13.2, Table 13.6). -/
structure Partition where
  sliceMs : Byte := 0x0A
  killLimit : BitVec 4 := 4
  tagBase : BitVec 6 := 0
  tagCnt : BitVec 7 := 0
  semBase : BitVec 6 := 0
  semCnt : BitVec 7 := 0
  ptW : W64 := 0
  ptE : W64 := 0
  te : W64 := 0
  uu : Byte := 0
  su : W32 := 0
  share : W16 := 0
  lastLc : Nat := 1023
  lastBe : Nat := 1023
  cur : Option Nat := none
  zeroed : Bool := false
  switchDue : Bool := false
  waitSet : Option (Hdr × PartSetP) := none
  deriving DecidableEq, Repr, Inhabited

/-- A lock and the acquirers that wait, in order of arrival, each with the beat of Die W it came in (R322). -/
structure Lock where
  held : Bool := false
  poisoned : Bool := false
  owner : Nat := 0
  waiters : List (Nat × Hdr) := []
  deriving DecidableEq, Repr, Inhabited

/-- A virtual function: its bound context and negotiated level (R333, R342). -/
structure Vf where
  bound : Option Nat := none
  level : Nat := 1
  deriving DecidableEq, Repr, Inhabited

/-- Stream states of Table 11.1. -/
inductive StreamSt where
  | free | prefill | decode | parked | moving
  deriving DecidableEq, Repr, Inhabited

/-- A Stream Table entry (Table 11.1) with the state a parked stream returns to (R280), the positions its prefill has run and
has to run, and its KV blocks by block-table index: resident ones, and parked ones with their offset and size. -/
structure StreamEntry where
  fallback : W16 := 0
  model : W16 := 0
  ctx : BitVec 10 := 0
  sclass : BitVec 3 := 0
  switched : Bool := false
  latency : Bool := false
  postn : BitVec 4 := 0
  st : StreamSt := .free
  deadline : W64 := 0
  expect : BitVec 17 := 0
  maxLen : BitVec 17 := 0
  pos : BitVec 18 := 0
  stopset : W16 := 0
  btab : W48 := 0
  gen : W16 := 0
  tokLog : W48 := 0
  outRing : Byte := 0
  prompt : BitVec 17 := 0
  cookie : W32 := 0
  lastTime : W64 := 0
  stopReq : Bool := false
  user : BitVec 63 := 0
  back : StreamSt := .free
  since : Nat := 0
  target : BitVec 18 := 0
  fill : Nat := 0
  absentPosted : Bool := false
  unparking : Bool := false
  blocks : List (Nat × BitVec 52) := []
  parked : List (Nat × Nat × Nat) := []
  deriving DecidableEq, Repr, Inhabited

/-- Model image header fields (Table 14.16). -/
structure ModelHdr where
  vocab : Nat := 0
  layers : Nat := 0
  kvHeads : Nat := 0
  kvd : Nat := 0
  kvfmt : Byte := 0
  selBase : Nat := 0
  sclasses : Nat := 0
  serveW : W32 := 0xFFFFFFFF
  serveE : W32 := 0xFFFFFFFF
  batch : W48 := 0
  decMaxArea : Nat := 0
  deriving DecidableEq, Repr, Inhabited

/-- A model-cache entry (Table 11.6) with what its image states. -/
structure ModelEntry where
  model : W16 := 0xFFFF
  st : BitVec 2 := 0
  pin : Bool := false
  teacher : Bool := false
  stepNs : W32 := 0
  last : W64 := 0
  key : Nat := 0
  hash : Nat := 0
  owner : Nat := 0
  grantees : List Nat := []
  hdr : ModelHdr := {}
  image : Option Image := none
  pages : List Nat := []
  pool : List Page := []
  freeBlocks : List (BitVec 52) := []
  experts : List Byte := []
  routers : List Byte := []
  lastBe : Nat := 65535
  selAddr : Tab Nat := []
  deriving DecidableEq, Repr, Inhabited

/-- What the stream waits on before its next sheet (R121, R128). -/
inductive Wait where
  | none
  | ridge (t : W64)
  | semLaunch (pair : BitVec 12) (half : Bool) (count : W16)
  | wait (pair : BitVec 12) (half : Bool) (count : W16) (deadline : Option W64)
  | waitu (classes : BitVec 7)
  | rwait (t : W64)
  | queueFull
  | fetch
  deriving DecidableEq, Repr, Inhabited

/-- The translation a descriptor list was fetched under: the page selectors (R202), and for each place that a migration has since
moved a page to, the copy the list still uses (R101). -/
structure View where
  sel : Tab Bool := []
  old : List (Phys × PageCopy) := []
  deriving DecidableEq, Repr, Inhabited

/-- A queue entry: a present unit slot with its sheet's REPEAT, ADV and offset, the execution it is at (R126), and the
list its feeder fetched ahead with the translation it was fetched under, the descriptors read in their wide form, the destinations
among them (R150), the bytes the op is to write, and the links it has taken before its start (R143, R78, R224); `knows` are the
ops of the run it comes after (R132). -/
structure Entry where
  slot : BitVec 128
  rep : Nat := 0
  adv : Nat := 0
  i : Nat := 0
  pc : W32 := 0
  descs : Option (List (List W64)) := none
  view : Option View := none
  wides : List Nat := []
  dests : List Nat := []
  outs : List Out := []
  links : List Nat := []
  knows : List Nat := []
  deriving DecidableEq, Repr, Inhabited

/-- What an UPDATE leaves behind when it completes (R215, R222): the PSET whose WRITTEN bit is set, and its Gauge entry. -/
structure OpEnd where
  wrote : Option Nat := none
  gauge : GaugeEntry := {}
  deriving DecidableEq, Repr, Inhabited

/-- An op in progress: its number in the run (R132), its entry, its fetched descriptors (eight words each), what is done of it; `busy` says that it did work
in the present beat (R254). Of a collective op, `num` is its number on its group (R237), `sent` says that its data went out, `paused`
that a round waits for A2A_ROUND_RESUME (R251), and `bytes` are those a held reduction counts for (R230). -/
structure Op where
  e : Entry
  id : Nat := 0
  descs : Option (List (List W64)) := none
  view : Option View := none
  wides : List Nat := []
  dests : List Nat := []
  outs : List Out := []
  links : List Nat := []
  worked : Bool := false
  busy : Bool := false
  completed : Bool := false
  recorded : Bool := false
  skip : Bool := false
  beats : Nat := 0
  cycles : Nat := 0
  left : Nat := 0
  waiting : Bool := false
  round : Nat := 0
  startNs : W64 := 0
  step : W48 := 0
  clip : W32 := 0x3F800000
  num : Nat := 0
  sent : Bool := false
  paused : Bool := false
  bytes : Nat := 0
  fin : Option OpEnd := none
  deriving DecidableEq, Repr, Inhabited

/-- A unit's queue of four beside the op it executes (R124). -/
structure UnitQ where
  queue : List Entry := []
  op : Option Op := none
  deriving DecidableEq, Repr, Inhabited

/-- One partition's Imposition stream on one die (R112, R310). `trapDue` says that a trap or fault has reached the die, which
stops the stream at its next boundary; `trapComing` is the latest time at which one of the other die reaches it (R136). `bucket`
holds the reductions that bucketed mode holds or exchanges together, and `flushed` says that their exchange has begun (R230). -/
structure Stream where
  ctx : Nat := 0
  image : DieImage := {}
  cnt : Tab W32 := []
  wait : Wait := .none
  delay : Nat := 0
  begun : Bool := false
  stopped : Bool := false
  halted : Bool := false
  trapDue : Bool := false
  trapComing : Option W64 := none
  stopSt : BitVec 4 := 3
  faultPos : Nat := 128
  commitAfter : Bool := false
  start : W64 := 0
  units : Tab UnitQ := []
  bufLo : Nat := 0
  bufHi : Nat := 0
  skipBp : Bool := false
  commitLeft : Tab Nat := []
  met : Bool := false
  seen : Bool := false
  lastPc : W32 := 0
  bucket : List Op := []
  flushed : Bool := false
  deriving DecidableEq, Repr, Inhabited

/-- Why a thread is not ready (R159, R400). -/
inductive ThreadWait where
  | ready
  | memory
  | fence
  | stake (pair : BitVec 12) (half xdie : Bool) (count : W64)
  | fetch
  | breakpoint (n : Nat)
  deriving DecidableEq, Repr, Inhabited

/-- A compositor thread context (R160), with its spawn's facts; `acquired` is the time, in `Chip.syncs`, of its last atomic or
semaphore operation (R168). -/
structure Thread where
  part : Nat := 0
  spawn : Nat := 0
  tid : Nat := 0
  bval : W64 := 0
  count : Nat := 0
  tag : W16 := 0
  step : W48 := 0
  prog : W16 := 0
  progVa : W48 := 0
  progLen : Nat := 0
  regs : Tab W64 := []
  pc : Nat := 0
  gen : Option (W64 × W64) := none
  draws : List W16 := []
  ovf : Bool := false
  nan : Bool := false
  clip : Bool := false
  badcode : Bool := false
  wait : ThreadWait := .ready
  pass : Bool := false
  acquired : Nat := 0
  deriving DecidableEq, Repr, Inhabited

/-- A selection record (Tables 8.2 and 8.3). -/
structure SelRecord where
  mass : BitVec 256 := 0
  selm : BitVec 256 := 0
  lse : W32 := 0
  token : W32 := 0
  count : W32 := 0
  cut : Bool := false
  ovf : Bool := false
  nan : Bool := false
  drawn : Bool := false
  draw : BitVec 6 := 0
  rtemp : W32 := 0
  k : BitVec 7 := 0
  part : BitVec 4 := 0
  entries : List (W32 × BitVec 20) := []
  deriving DecidableEq, Repr, Inhabited

/-- A Gutter packet (Tables 8.5 and 8.6). -/
structure Packet where
  lse : W32 := 0
  tail : W32 := 0
  sel : W32 := 0
  rtemp : W32 := 0
  token : W32 := 0
  tag : W16 := 0
  k : Nat := 0
  ovf : Bool := false
  nan : Bool := false
  shards : Byte := 0
  entries : List (BitVec 24 × BitVec 20) := []
  deriving DecidableEq, Repr, Inhabited

/-- A merge-table entry (R188): the records of one token so far, each with its source (0 to 7 a stack, 8 remote). -/
structure MergeEntry where
  records : List (Nat × SelRecord) := []
  deriving DecidableEq, Repr, Inhabited

/-- The open range of one partition (R183, R189). -/
structure OpenRange where
  first : W32 := 0
  count : Nat := 0
  k : Nat := 0
  tag : W16 := 0
  stks : Byte := 0
  remote : Nat := 0
  group : Nat := 0
  got : Tab Bool := []
  deriving DecidableEq, Repr, Inhabited

/-- A die's merge stage, Gutter buffer and Gutter registers (Table 8.8). Keys join partition and TOKEN (R189). `lanes` holds the
records on their way from the stacks, `remote` those from other modules with their collective group (R182, R183); `asking` holds
the records that found no credit, with their sources, and `turn` the source the rotation of R148 and R188 starts at. -/
structure Gutter where
  packets : Tab (Option Packet) := []
  merge : Tab (Option MergeEntry) := []
  ranges : Tab (Option OpenRange) := []
  released : Tab Bool := []
  lanes : Tab (List SelRecord) := []
  remote : List (Nat × SelRecord) := []
  asking : List (Nat × SelRecord) := []
  turn : Nat := 0
  occPrev : Nat := 0
  high : BitVec 14 := 0x1800
  low : BitVec 14 := 0x0100
  hi : Notice := {}
  lo : Notice := {}
  stored : W32 := 0
  freed : W32 := 0
  lossSum : BitVec 128 := 0
  lossLatch : W64 := 0
  deriving DecidableEq, Repr, Inhabited

/-- A weight-cache line: device line number, key, last use (R151, R152). -/
structure CacheLine where
  line : Nat
  key : Nat
  used : Nat
  deriving DecidableEq, Repr, Inhabited

/-- Data of a participant as a die's collective engine holds it: the partition whose op it is for, and the Ridge time it came at
(R246). -/
structure Arrival where
  part : Nat
  stamp : W64
  peer : Peer
  deriving DecidableEq, Repr, Inhabited

/-- A die's collective engine (Table 10.8): the number of the next op on each group of a partition (R237) and the data that came. -/
structure Ce where
  next : Tab Nat := []
  inbox : List Arrival := []
  abCause : BitVec 4 := 0
  abGroup : BitVec 12 := 0
  abPeer : BitVec 10 := 0
  ab : Notice := {}
  rtt : W16 := 0
  deriving DecidableEq, Repr, Inhabited

/-- A flow: a descriptor that streams through a galley (R146): its galley, whether it belongs to the next op, its index in the
list, the lines it holds and those it has still to read. -/
structure Flow where
  galley : Nat := 0
  ahead : Bool := false
  desc : Nat := 0
  held : Nat := 0
  left : Nat := 0
  deriving DecidableEq, Repr, Inhabited

/-- A platen's voltage adaptation (`heldBeat`: a hold occurred in the present beat) the region bounds of the last command started on it (Tables 3.4, 3.8), the flows of its
galleys (R146), and the reduction-buffer ranges whose reduction has begun (R81). -/
structure Platen where
  offset : Int := 0
  holdBeats : W16 := 0
  hold : Bool := false
  heldBeat : Bool := false
  regions : List Bounds := []
  flows : List Flow := []
  reduced : List (Nat × Nat) := []
  deriving DecidableEq, Repr, Inhabited

/-- A die's debug registers (Table 16.7). `frozen`: no beat is in progress, the press clock stands still since the last boundary (R398). -/
structure Dbg where
  halt : Bool := false
  halted : Bool := false
  frozen : Bool := false
  stepReg : Byte := 0
  stepsLeft : Byte := 0
  cause : BitVec 4 := 0
  index : BitVec 6 := 0
  mrefused : Bool := false
  hitTime : W64 := 0
  chitLoc : BitVec 3 := 0
  chitComp : Byte := 0
  chitCtx : BitVec 12 := 0
  cresume : BitVec 6 := 0
  sbp : Tab W64 := []
  cbp : Tab W64 := []
  sw : Tab W64 := []
  maddr : W64 := 0
  mdataWr : W64 := 0
  deriving DecidableEq, Repr, Inhabited

/-- A signal on its way over the die-to-die link (R133): partition, pair, half, count, and the ops that those who take it come
after (R132). -/
structure CrossSig where
  part : Nat
  pair : BitVec 12
  half : Bool
  count : Nat
  knows : List Nat := []
  deriving DecidableEq, Repr, Inhabited

/-- A wait that the wait-graph samples show (R155): the context whose command waits and the one it waits on, with the Ridge times at
which those commands began, and the number of samples in a row that showed it. -/
structure WgWait where
  src : Nat
  dst : Nat
  srcAt : W64
  dstAt : W64
  samples : Nat
  deriving DecidableEq, Repr, Inhabited

/-- A link take that found too little in its half (R148): its unit and descriptor, the pair, half and count it asks for;
`ahead` says that it is the clip link of a deferred UPDATE that waits at the head of its queue (R224). -/
structure Ask where
  u : UnitRef
  desc : Nat
  pair : Nat
  empty : Bool
  n : Nat
  ahead : Bool := false
  deriving DecidableEq, Repr, Inhabited

/-- A flag raise of the present beat (R57, R59): unit class order, context, tag and flags; and the conversion
counts of R75. -/
structure Raise where
  order : Nat
  ctx : Nat
  tag : W16
  f : Flags
  clip : Nat := 0
  conv : Nat := 0
  deriving DecidableEq, Repr, Inhabited

/-- A compute die. `uses` numbers the uses of its weight cache and `notices` are eviction notices on their way (R151, R153);
`asks` are the link takes that wait on its semaphore halves and `rot` the requester each half's rotation starts at (R148);
`issued` says that a sheet has issued in the present beat; `rota` is the context at which each compositor's rotation starts (R159) and
`icache` the lines of its instruction cache, the last used first (R162). -/
structure DieSt where
  sems : Tab Sem := []
  streams : Tab (Option Stream) := []
  lastPart : Nat := 15
  beatAt : W64 := 0
  mhz : W16 := 1800
  target : W16 := 1800
  rampFrom : W16 := 1800
  rampLeft : Nat := 0
  setMv : Nat := 800
  boost : W32 := 0
  boostRem : Nat := 0
  boosted : Bool := false
  emergency : Bool := false
  coolMs : Nat := 0
  hotspot : Byte := 0
  raises : List Raise := []
  gut : Gutter := {}
  cache : Tab (List CacheLine) := []
  fills : List (Nat × Nat) := []
  uses : Nat := 0
  notices : List Nat := []
  ce : Ce := {}
  threads : Tab (Option Thread) := []
  spawns : Tab (List Thread) := []
  rota : Tab Nat := []
  icache : Tab (List (Nat × Nat)) := []
  cross : List CrossSig := []
  asks : List Ask := []
  rot : Tab Nat := []
  issued : Bool := false
  dbg : Dbg := {}
  platens : Tab Platen := []
  idleSel : BitVec 3 := 0
  ridge : W64 := 0
  beats : Nat := 0
  deriving DecidableEq, Repr, Inhabited

/-- A page migration in flight (R101), with the host's writes to the page that wait for the switch: virtual address and bytes. -/
structure Migration where
  ctx : Nat
  page : Nat
  copyB : Bool
  fresh : Phys
  held : List (Nat × Nat × List Byte) := []
  deriving DecidableEq, Repr

/-- An entry of a stack's logits ring (R107): one row's scores, of `len` columns in all, with the slot's selection parameter block,
for a ROUTE row the address its record goes to in the shared store, and the engine whose slot wrote to it and has not completed. -/
structure LogitsEntry where
  part : Nat := 0
  ctx : Nat := 0
  route : Bool := false
  row : Nat := 0
  unit : Nat := 0
  scores : List W32 := []
  params : List W64 := []
  dest : Nat := 0
  tag : W16 := 0
  readable : Bool := false
  slot : Nat := 0
  len : Nat := 0
  writer : Option Nat := none
  deriving DecidableEq, Repr, Inhabited

/-- A Thatch stack's registers (Table 4.3) and state. -/
structure StackSt where
  hot : Notice := {}
  firstKind : Bool := false
  firstChan : BitVec 4 := 0
  ratio : BitVec 12 := 0
  chanHot : Bool := false
  stackHot : Bool := false
  badRun : Nat := 0
  goodRun : Nat := 0
  migEnable : Bool := true
  skipped : W16 := 0
  done : W16 := 0
  mig : Option Migration := none
  lastMig : Option W64 := none
  old : List Phys := []
  gate : BitVec 3 := 0
  temp : Byte := 0
  used : Nat := 0
  logits : List LogitsEntry := []
  presence : Tab (BitVec 2) := []
  deriving DecidableEq, Repr, Inhabited

/-- Ridge registers (Tables 1.4, 10.8), the timebase's source, and whether lock to a reference was gained since reset (R23). -/
structure Ridge where
  now : W64 := 0
  latch : W32 := 0
  locked : Bool := false
  holdover : Bool := false
  lossNotice : Bool := false
  lossCount : Byte := 0
  lossTime : W64 := 0
  slew : Bool := false
  srcActive : BitVec 2 := 0
  phaseErr : W16 := 0
  src : BitVec 2 := 0
  rootInUse : BitVec 10 := 0
  hops : BitVec 5 := 0
  upstream : BitVec 4 := 0xF
  root : BitVec 10 := 0
  backup : BitVec 10 := 0
  everLocked : Bool := false
  deriving DecidableEq, Repr, Inhabited

/-- `PL_DOMAIN` (Table 10.8). -/
structure Domain where
  moduleId : BitVec 10 := 0
  dx : BitVec 4 := 0
  dy : BitVec 4 := 0
  dz : BitVec 4 := 0
  epoch : Byte := 0
  set : Bool := false
  routes : Tab Nat := []
  deriving DecidableEq, Repr, Inhabited

/-- A Purlin port (Table 16.9). -/
structure Port where
  st : BitVec 4 := 0
  neighbour : BitVec 10 := 0
  nport : BitVec 3 := 0
  epoch : Byte := 0
  down : Notice := {}
  margin : W16 := 0
  deriving DecidableEq, Repr, Inhabited

/-- The module's vote registers (Table 10.8). -/
structure VoteRegs where
  shards : BitVec 11 := 1
  vgroup : BitVec 12 := 0
  stragSteps : BitVec 4 := 3
  stragMs : W16 := 0x0014
  firstPset : BitVec 12 := 0
  result : BitVec 4 := 0
  reruns : Byte := 0
  notice : Bool := false
  peer : BitVec 11 := 0
  strag : Notice := {}
  stragModule : BitVec 10 := 0
  lateRuns : Tab Nat := []
  lastDiff : Option (BitVec 12) := none
  joining : Bool := false
  deriving DecidableEq, Repr, Inhabited

/-- Serving registers (Table 11.5), the model cache and the moves in flight. -/
structure Serving where
  decMax : BitVec 12 := 0x0FF
  pfMax : W16 := 0x2000
  chunk : BitVec 13 := 0x1FF
  switches : W32 := 0
  noFallback : W32 := 0
  late : W32 := 0
  unparks : W16 := 0
  parks : W16 := 0
  kv : Notice := {}
  mcacheSel : BitVec 4 := 0
  models : Tab ModelEntry := []
  streams : Tab StreamEntry := []
  moveW : Option Nat := none
  moveE : Option Nat := none
  deriving DecidableEq, Repr, Inhabited

/-- Power registers (Table 15.6) and the loops' state. -/
structure Pwr where
  sprintEn : Bool := true
  limit : W16 := 0x05DC
  watts : W16 := 0
  peak : W16 := 0
  sprinting : Bool := false
  sprintStart : W64 := 0
  lastSprintEnd : Option W64 := none
  sprints : W16 := 0
  current : Bool := false
  overCeil : Bool := false
  throttle : Notice := {}
  firstCause : BitVec 4 := 0
  clipMax : BitVec 24 := 0x028F5C
  clipAdapt : Bool := false
  inputOn : Bool := true
  railsOn : Bool := true
  tripped : Bool := false
  deriving DecidableEq, Repr, Inhabited

/-- A Colophon generation (Table 16.3); `ok` says its CRC and its GEN are right. -/
structure ColGen where
  written : Bool := false
  ok : Bool := false
  gen : BitVec 2 := 0
  serial : BitVec 128 := 0
  manufacturer : BitVec 11 := 0
  part : Byte := 0
  limitW : W16 := 0
  sprintOff : Bool := false
  prim : BitVec 2 := 0
  boot : BitVec 2 := 0
  fullTest : Bool := false
  dbgOff : Bool := false
  quiesceS : Byte := 0
  dbgKey : BitVec 256 := 0
  deriving DecidableEq, Repr, Inhabited

/-- Bring-up, configuration and front-panel state (Table 16.2 and the registers beside it). -/
structure Boot where
  phase : BitVec 4 := 1
  holdCode : Byte := 0
  stFault : Bool := false
  prim : Die := .w
  primFault : Bool := false
  colFault : Bool := false
  prev : BitVec 4 := 0
  src : BitVec 4 := 0
  ldAddr : W64 := 0
  ldLen : BitVec 23 := 0
  strapW : Bool := true
  strapE : Bool := false
  strapBoot : Bool := false
  colW : List ColGen := []
  colE : List ColGen := []
  gov : BitVec 2 := 0
  governing : ColGen := {}
  stCount : Byte := 0
  stClass : BitVec 4 := 0
  stUnit : Byte := 0
  stDie : Bool := false
  stFull : Bool := false
  stDone : Bool := false
  pressed : Bool := false
  locate : Bool := false
  locateStart : W64 := 0
  quiesceStart : W64 := 0
  ack : Bool := false
  shorts : W16 := 0
  attention : Bool := false
  linkUp : Bool := false
  perst : Bool := false
  norA : List Byte := []
  norB : List Byte := []
  norBoostW : W32 := 0
  norBoostE : W32 := 0
  norTrip : Bool := false
  maxVfs : Nat := 0
  maxRate : Nat := 0
  portMask : Byte := 0
  overlays : Tab (List Byte) := []
  mode : Nat := 2
  ovl5 : Bool := false
  defOvl : Nat := 2
  ovlWait : List (Option Hdr × Nat × List Byte) := []
  defNstart : Byte := 0x10
  defLat : Byte := 0x14
  deriving DecidableEq, Repr, Inhabited

/-- The debug port and the unlock exchange (R396, R397, R403), and the sideband's offset (R419). -/
structure DebugPort where
  ir : Byte := 0xFF
  bypassBit : Bool := false
  dr : BitVec 96 := 0
  chain : List Bool := []
  driving : Bool := false
  challenge : List Byte := []
  chalTime : W64 := 0
  resp : Tab W64 := []
  result : BitVec 2 := 0
  cmd : BitVec 2 := 0
  fails : BitVec 2 := 0
  unlocked : Bool := false
  sideOff : W16 := 0
  deriving DecidableEq, Repr, Inhabited

/-- A message this module sends to another over Purlin: kind, destination, bytes, and the port its route leaves by (R233).
PRESUMED: log entry 87. -/
structure Msg where
  kind : Nat
  dest : Nat
  data : List Byte
  port : Option Nat := none
  deriving DecidableEq, Repr, Inhabited

/-- The module without the queue of waiting commands. `rdata` and `sent` are the model's outputs: the data a read
returned, the messages sent. `rnd` counts draws of the random source, `fresh` counts free values, `serials` keys
handed out and `syncs` atomic and semaphore operations of threads; the four are the model's own. -/
structure Chip where
  rdata : List Byte
  sent : List Msg
  rnd : Nat
  fresh : Nat
  serials : Nat
  syncs : Nat
  host : Memory
  dram : Memory
  platenMem : Memory
  engineMem : Memory
  sharedMem : Memory
  ecc : Tab Bool
  msix : Tab Bool
  ctxs : Tab Ctx
  parts : Tab Partition
  locks : Tab Lock
  vfs : Tab Vf
  ctxSel : BitVec 10
  partSel : BitVec 4
  lockSel : Byte
  w : DieSt
  e : DieSt
  stks : Tab StackSt
  ridge : Ridge
  domain : Domain
  ports : Tab Port
  vote : VoteRegs
  serving : Serving
  pwr : Pwr
  boot : Boot
  port : DebugPort
  wgWaits : List WgWait
  deriving DecidableEq, Repr, Inhabited

/-- The block: the module and the commands that wait for it, first in first out. -/
structure State where
  pending : List Instr
  chip : Chip
  deriving DecidableEq, Repr, Inhabited

/-- Generation 0 of the Colophon as manufacture leaves it on an MZ-CN416-SA (R384, Table 17.8):
settings zero, DBGKEY zero.
DESIGN CHOICE: log entry 9. -/
def ColGen.manufactured : ColGen :=
  { written := true, ok := true, serial := Config.serial, manufacturer := Config.manufacturer }

/-- Partition 0 holds every unit and all stack capacity after reset (R309, Table 13.6). -/
def Partition.whole : Partition :=
  { tagCnt := 0x40, semCnt := 0x40, ptW := BitVec.allOnes 64, ptE := BitVec.allOnes 64,
    te := BitVec.allOnes 64, uu := 0xFF, su := BitVec.allOnes 32, share := 0x8000 }

/-- The module right after reset: registers at the Reset columns of the register maps, no context, empty stores,
phase 1 of bring-up.
DESIGN CHOICE: log entry 2. -/
def Chip.reset : Chip where
  rdata := []
  sent := []
  rnd := 0
  fresh := 0
  serials := 0
  syncs := 0
  host := []
  dram := []
  platenMem := []
  engineMem := []
  sharedMem := []
  ecc := []
  msix := []
  ctxs := []
  parts := [(0, Partition.whole)]
  locks := []
  vfs := []
  ctxSel := 0
  partSel := 0
  lockSel := 0
  w := {}
  e := {}
  stks := []
  ridge := {}
  domain := {}
  ports := []
  vote := {}
  serving := {}
  pwr := {}
  boot := { colW := [ColGen.manufactured], colE := [ColGen.manufactured] }
  port := {}
  wgWaits := []

/-- The block right after reset: no command waits. -/
def State.reset : State := { pending := [], chip := Chip.reset }

end Sys2Proof.Machine
end

