-- ==== Sys2Proof/Machine/Num.lean ====
section
/-!
DEFINITION. Exact numbers, rounding, the format codes and value tables of chapter 2, and FP32, BF16 and FP64
arithmetic with the module's rules for infinities, NaN and zero (R30 to R39, R52, R53).
-/
namespace Sys2Proof.Machine

/-- The exact number m × 2^e. -/
structure Dy where
  m : Int
  e : Int
  deriving DecidableEq, Repr, Inhabited

def Dy.zero : Dy := ⟨0, 0⟩
def Dy.ofInt (i : Int) : Dy := ⟨i, 0⟩
def Dy.neg (a : Dy) : Dy := ⟨-a.m, a.e⟩
def Dy.mul (a b : Dy) : Dy := ⟨a.m * b.m, a.e + b.e⟩
def Dy.shift (a : Dy) (k : Int) : Dy := ⟨a.m, a.e + k⟩
def Dy.isZero (a : Dy) : Bool := a.m == 0

/-- The mantissa of `a` on the grid 2^e, for e at most a's own exponent. -/
def Dy.on (a : Dy) (e : Int) : Int := a.m * (2 ^ (a.e - e).toNat : Nat)

def Dy.add (a b : Dy) : Dy := let e := min a.e b.e; ⟨a.on e + b.on e, e⟩
def Dy.sub (a b : Dy) : Dy := a.add b.neg
def Dy.lt (a b : Dy) : Bool := (a.sub b).m < 0
def Dy.le (a b : Dy) : Bool := (a.sub b).m ≤ 0
def Dy.abs (a : Dy) : Dy := ⟨(a.m.natAbs : Int), a.e⟩
def Dy.max (a b : Dy) : Dy := if a.lt b then b else a

/-- The exponent of the leading one bit of a non-zero number. -/
def Dy.lead (a : Dy) : Int := (Nat.log2 a.m.natAbs : Int) + a.e

/-- Rounding modes (R52); the stochastic mode carries its 16-bit draw. -/
inductive Rnd where
  | near
  | stoch (r : W16)
  | zero
  deriving DecidableEq, Repr, Inhabited

/-- Round the quotient num / den to an integer (R52, R53). -/
def roundNat (mode : Rnd) (num den : Nat) : Nat :=
  let q := num / den
  let r := num % den
  match mode with
  | .near => if 2 * r < den then q else if 2 * r > den then q + 1 else if q % 2 = 0 then q else q + 1
  | .stoch d => if d.toNat < r * 65536 / den then q + 1 else q
  | .zero => q

/-- A non-negative exact quotient num / den × 2^e, with its sign. -/
structure Quot where
  neg : Bool
  num : Nat
  den : Nat
  e : Int
  deriving DecidableEq, Repr, Inhabited

def Dy.toQuot (a : Dy) : Quot := ⟨decide (a.m < 0), a.m.natAbs, 1, a.e⟩

/-- a / b for non-zero b. -/
def Dy.div (a b : Dy) : Quot :=
  ⟨xor (decide (a.m < 0)) (decide (b.m < 0)), a.m.natAbs, b.m.natAbs, a.e - b.e⟩

/-- floor(log2) of a positive quotient. -/
def Quot.lead (q : Quot) : Int :=
  let l : Int := (Nat.log2 q.num : Int) - (Nat.log2 q.den : Int)
  let ge := if 0 ≤ l then decide (q.den * 2 ^ l.toNat ≤ q.num) else decide (q.den ≤ q.num * 2 ^ (-l).toNat)
  (if ge then l else l - 1) + q.e

/-- The quotient's magnitude on the grid 2^g, rounded to an integer. -/
def Quot.onGrid (q : Quot) (g : Int) (mode : Rnd) : Nat :=
  let s := q.e - g
  if 0 ≤ s then roundNat mode (q.num * 2 ^ s.toNat) q.den
  else roundNat mode q.num (q.den * 2 ^ (-s).toNat)

/-- The magnitude is above m × 2^e. -/
def Quot.gt (q : Quot) (m : Nat) (e : Int) : Bool :=
  let s := q.e - e
  if 0 ≤ s then decide (m * q.den < q.num * 2 ^ s.toNat)
  else decide (m * (q.den * 2 ^ (-s).toNat) < q.num)

/-- A float layout: mantissa bits, exponent bits, and whether the top exponent is kept for infinity and NaN. -/
structure FloatFmt where
  mb : Nat
  eb : Nat
  deriving DecidableEq, Repr, Inhabited

def FloatFmt.bias (f : FloatFmt) : Int := (2 ^ (f.eb - 1) : Nat) - 1
def FloatFmt.qmin (f : FloatFmt) : Int := 1 - f.bias - f.mb
def fmt32 : FloatFmt := ⟨23, 8⟩
def fmt16 : FloatFmt := ⟨7, 8⟩
def fmt64 : FloatFmt := ⟨52, 11⟩

/-- Flag sets joined. -/
def Flags.join (a b : Flags) : Flags :=
  ⟨a.ovf || b.ovf, a.nan || b.nan, a.clip || b.clip, a.badcode || b.badcode, a.trunc || b.trunc⟩

def Flags.isNone (a : Flags) : Bool := !(a.ovf || a.nan || a.clip || a.badcode || a.trunc)
def fOvf : Flags := { ovf := true }
def fNan : Flags := { nan := true }
def fClip : Flags := { clip := true }
def fBad : Flags := { badcode := true }
def fTrunc : Flags := { trunc := true }

/-- A decoded operand: a NaN or an exact number (an infinity is already the largest finite magnitude, R36). -/
inductive Val where
  | nan
  | fin (d : Dy)
  deriving DecidableEq, Repr, Inhabited

/-- The largest finite code's mantissa and grid of a wide float. -/
def FloatFmt.maxM (f : FloatFmt) : Nat := 2 ^ (f.mb + 1) - 1
def FloatFmt.maxE (f : FloatFmt) : Int := (2 ^ f.eb - 2 : Nat) - f.bias - f.mb

/-- Read a wide float code (R36, R37, R38, R39). -/
def FloatFmt.decode (f : FloatFmt) (c : Nat) : Val × Flags :=
  let m := c % 2 ^ f.mb
  let e := (c >>> f.mb) % 2 ^ f.eb
  let s := (c >>> (f.mb + f.eb)) % 2
  let sg (n : Nat) : Int := if s = 1 then -(n : Int) else (n : Int)
  if e = 2 ^ f.eb - 1 then
    if m = 0 then (.fin ⟨sg f.maxM, f.maxE⟩, fOvf) else (.nan, fNan)
  else if e = 0 then (.fin ⟨sg m, f.qmin⟩, {})
  else (.fin ⟨sg (2 ^ f.mb + m), (e : Int) - f.bias - f.mb⟩, {})

/-- Write a quotient as a wide float: rounded with the exponent range unbounded, then saturated (R36); zero is +0 (R38). -/
def FloatFmt.encode (f : FloatFmt) (mode : Rnd) (q : Quot) : Nat × Flags :=
  if q.num = 0 then (0, {}) else
  let sgn := (if q.neg then 1 else 0) * 2 ^ (f.mb + f.eb)
  let g := max (q.lead - f.mb) f.qmin
  let k0 := q.onGrid g mode
  let (k, g) := if k0 = 2 ^ (f.mb + 1) then (2 ^ f.mb, g + 1) else (k0, g)
  if k = 0 then (0, {})
  else if g > f.maxE then (sgn + (2 ^ f.eb - 2) * 2 ^ f.mb + (2 ^ f.mb - 1), fOvf)
  else if k < 2 ^ f.mb then (sgn + k, {})
  else (sgn + (g - f.qmin + 1).toNat * 2 ^ f.mb + (k - 2 ^ f.mb), {})

def FloatFmt.nanCode (f : FloatFmt) : Nat := (2 ^ f.eb - 1) * 2 ^ f.mb + 2 ^ (f.mb - 1)

/-- A value as a wide float code. -/
def FloatFmt.ofVal (f : FloatFmt) (mode : Rnd) : Val → Nat × Flags
  | .nan => (f.nanCode, fNan)
  | .fin d => f.encode mode d.toQuot

/-- A result with the flags raised on the way. -/
abbrev FlW32 := W32 × Flags

def f32 (c : W32) : Val × Flags := fmt32.decode c.toNat
def toF32 (mode : Rnd) (v : Val) : FlW32 := let r := fmt32.ofVal mode v; (BitVec.ofNat 32 r.1, r.2)
def quotF32 (q : Quot) : FlW32 := let r := fmt32.encode .near q; (BitVec.ofNat 32 r.1, r.2)
def nan32 : W32 := 0x7FC00000
def max32 : W32 := 0x7F7FFFFF

/-- A two-operand operation on exact values, its result rounded once to FP32. -/
def lift2 (op : Dy → Dy → Dy) (a b : W32) : FlW32 :=
  let x := f32 a
  let y := f32 b
  match x.1, y.1 with
  | .fin p, .fin q => let r := toF32 .near (.fin (op p q)); (r.1, r.2.join (x.2.join y.2))
  | _, _ => (nan32, fNan.join (x.2.join y.2))

def fadd32 (a b : W32) : FlW32 := lift2 Dy.add a b
def fsub32 (a b : W32) : FlW32 := lift2 Dy.sub a b
def fmul32 (a b : W32) : FlW32 := lift2 Dy.mul a b

/-- FP32 division with the module's rules for a zero divisor (R165). -/
def fdiv32 (a b : W32) : FlW32 :=
  let x := f32 a
  let y := f32 b
  match x.1, y.1 with
  | .fin p, .fin q =>
    if q.isZero then
      if p.isZero then (nan32, fNan.join (x.2.join y.2))
      else (if p.m < 0 then max32 ||| 0x80000000 else max32, fOvf.join (x.2.join y.2))
    else let r := quotF32 (p.div q); (r.1, r.2.join (x.2.join y.2))
  | _, _ => (nan32, fNan.join (x.2.join y.2))

/-- Comparison of FP32 codes by value; false when either is a NaN. -/
def flt32 (a b : W32) : Bool × Flags :=
  let x := f32 a
  let y := f32 b
  match x.1, y.1 with
  | .fin p, .fin q => (p.lt q, x.2.join y.2)
  | _, _ => (false, fNan.join (x.2.join y.2))

/-- The larger (or smaller) of two FP32 operands; a NaN gives NaN. -/
def fpick32 (wantMax : Bool) (a b : W32) : FlW32 :=
  let x := f32 a
  let y := f32 b
  match x.1, y.1 with
  | .fin p, .fin q =>
    let r := toF32 .near (.fin (if (if wantMax then p.lt q else q.lt p) then q else p))
    (r.1, r.2.join (x.2.join y.2))
  | _, _ => (nan32, fNan.join (x.2.join y.2))

def fmax32 (a b : W32) : FlW32 := fpick32 true a b
def fmin32 (a b : W32) : FlW32 := fpick32 false a b
def fabs32 (a : W32) : W32 := a &&& 0x7FFFFFFF
def fneg32 (a : W32) : W32 := if a &&& 0x7FFFFFFF = 0 then 0 else a ^^^ 0x80000000
def fzero? (a : W32) : Bool := a &&& 0x7FFFFFFF = 0
def fnan? (a : W32) : Bool := decide ((f32 a).1 = .nan)

/-- floor of the square root by bisection on `fuel` bits. -/
def isqrtAux (n : Nat) : Nat → Nat → Nat
  | 0, r => r
  | k + 1, r => let c := r + 2 ^ k; isqrtAux n k (if c * c ≤ n then c else r)

def isqrt (n : Nat) : Nat := isqrtAux n (Nat.log2 n / 2 + 1) 0

/-- The square root of a non-negative exact number with a sticky bit, enough for one correct rounding to FP64. -/
def sqrtQuot (d : Dy) : Quot :=
  let par := (d.e % 2).toNat
  let m := d.m.natAbs * 2 ^ par * 2 ^ 160
  let s := isqrt m
  ⟨false, 2 * s + (if s * s = m then 0 else 1), 1, (d.e - par) / 2 - 80 - 1⟩

/-- Correctly rounded square root in a wide float; a negative operand gives NaN. -/
def FloatFmt.sqrt (f : FloatFmt) (c : Nat) : Nat × Flags :=
  let x := f.decode c
  match x.1 with
  | .nan => (f.nanCode, fNan.join x.2)
  | .fin d =>
    if d.m < 0 then (f.nanCode, fNan.join x.2)
    else if d.isZero then (0, x.2)
    else let r := f.encode .near (sqrtQuot d); (r.1, r.2.join x.2)

def fsqrt32 (a : W32) : FlW32 := let r := fmt32.sqrt a.toNat; (BitVec.ofNat 32 r.1, r.2)

/-- FP64 two-operand operation on exact values. -/
def lift64 (op : Dy → Dy → Dy) (a b : W64) : W64 × Flags :=
  let x := fmt64.decode a.toNat
  let y := fmt64.decode b.toNat
  match x.1, y.1 with
  | .fin p, .fin q => let r := fmt64.ofVal .near (.fin (op p q)); (BitVec.ofNat 64 r.1, r.2.join (x.2.join y.2))
  | _, _ => (0x7FF8000000000000, fNan.join (x.2.join y.2))

def dadd (a b : W64) : W64 × Flags := lift64 Dy.add a b
def dmul (a b : W64) : W64 × Flags := lift64 Dy.mul a b
def dsqrt (a : W64) : W64 × Flags := let r := fmt64.sqrt a.toNat; (BitVec.ofNat 64 r.1, r.2)

/-- FP64 division of positive operands, rounded to nearest even. -/
def ddiv (a b : W64) : W64 × Flags :=
  match (fmt64.decode a.toNat).1, (fmt64.decode b.toNat).1 with
  | .fin p, .fin q =>
    if q.isZero then (0x7FEFFFFFFFFFFFFF, fOvf)
    else let r := fmt64.encode .near (p.div q); (BitVec.ofNat 64 r.1, r.2)
  | _, _ => (0x7FF8000000000000, fNan)

/-- An FP32 code's exact value as FP64. -/
def f32to64 (a : W32) : W64 := BitVec.ofNat 64 (fmt64.ofVal .near (f32 a).1).1

/-- An FP64 value rounded once to FP32. -/
def f64to32 (a : W64) : FlW32 :=
  let r := fmt32.ofVal .near (fmt64.decode a.toNat).1
  (BitVec.ofNat 32 r.1, r.2)

/-- FP64 comparison. -/
def dgt (a b : W64) : Bool :=
  match (fmt64.decode a.toNat).1, (fmt64.decode b.toNat).1 with
  | .fin p, .fin q => q.lt p
  | _, _ => false

/-- BF16 of an FP32 code (R39, R165). -/
def toBf16 (mode : Rnd) (a : W32) : W16 × Flags :=
  let x := f32 a
  match x.1 with
  | .nan => (0x7FC0, fNan.join x.2)
  | .fin d => let r := fmt16.encode mode d.toQuot; (BitVec.ofNat 16 r.1, r.2.join x.2)

/-- The FP32 code of a BF16 operand, exactly. -/
def ofBf16 (a : W16) : FlW32 :=
  let x := fmt16.decode a.toNat
  let r := toF32 .near x.1
  (r.1, r.2.join x.2)

end Sys2Proof.Machine
end

