-- ==== Sys2Proof/Machine/Conv.lean ====
section
/-!
DEFINITION. The narrow formats, group scales and conversion into them (R31 to R42, R52 to R55).
-/
namespace Sys2Proof.Machine

/-- Element width in bits of a format code (Table 2.1); 0 for a reserved code. -/
def fmtWidth : Nat → Nat
  | 0 => 2 | 1 => 2 | 2 => 4 | 3 => 4 | 4 => 8 | 5 => 8 | 6 => 8 | 7 => 16 | 8 => 32 | _ => 0

/-- I2, T2, I4 and I8 (Table 2.1). -/
def fmtIsInt (f : Nat) : Bool := f = 0 || f = 1 || f = 2 || f = 4

/-- Formats that conversion counts and a dynamic scale may serve: all but BF16 and FP32. -/
def fmtIsNarrow (f : Nat) : Bool := f ≤ 6

/-- The implicit element exponent (Table 2.1). -/
def fmtImp (f : Nat) : Int := if f = 4 then -6 else 0

/-- A small float read as sign, exponent and mantissa with no special codes. -/
def smallFloat (mb eb : Nat) (c : Nat) : Dy :=
  let bias : Int := (2 ^ (eb - 1) : Nat) - 1
  let m := c % 2 ^ mb
  let e := (c >>> mb) % 2 ^ eb
  let s := (c >>> (mb + eb)) % 2
  let k : Int := if e = 0 then m else 2 ^ mb + m
  ⟨if s = 1 then -k else k, (if e = 0 then 1 else (e : Int)) - bias - mb⟩

/-- The value of an element code, with the flags its reading sets (R32 to R39). -/
def elemVal (f : Nat) (c : Nat) : Val × Flags :=
  match f with
  | 0 => (.fin ⟨sext 2 c, 0⟩, {})
  | 1 => if c % 4 = 2 then (.fin Dy.zero, fBad) else (.fin ⟨sext 2 c, 0⟩, {})
  | 2 => (.fin ⟨sext 4 c, 0⟩, {})
  | 3 => (.fin (smallFloat 1 2 c), {})
  | 4 => (.fin ⟨sext 8 c, -6⟩, {})
  | 5 => if c % 128 = 127 then (.nan, fNan) else (.fin (smallFloat 3 4 c), {})
  | 6 =>
    let em := c % 128
    if em = 0x7C then (.fin ⟨if c / 128 % 2 = 1 then -7 else 7, 13⟩, fOvf)
    else if em > 0x7C then (.nan, fNan)
    else (.fin (smallFloat 2 5 c), {})
  | 7 => fmt16.decode c
  | _ => fmt32.decode c

/-- The value of a scale byte; `sf` is SCL.SF: 0 E8M0, 1 E4M3 (R41, R42). -/
def scaleVal (sf : Bool) (c : Byte) : Val × Flags :=
  if sf then
    let sg := if c.toNat ≥ 128 then fBad else {}
    let m := c.toNat % 128
    if m = 127 then (.nan, fNan.join sg) else (.fin (smallFloat 3 4 m), sg)
  else if c.toNat = 255 then (.nan, fNan)
  else (.fin ⟨1, (c.toNat : Int) - 127⟩, {})

/-- An element times its group scale, exactly (R40). Under a zero scale every element reads as zero, whatever its code (R42, R54);
of the flags of such an element only BADCODE is then set, because R42 does not say which a code that no longer counts sets.
DESIGN CHOICE: log entry 94. -/
def scaled (e s : Val × Flags) : Val × Flags :=
  match s.1, e.1 with
  | .nan, _ => (.nan, fNan.join (e.2.join s.2))
  | .fin b, .fin a =>
    if b.isZero then (.fin Dy.zero, { s.2 with badcode := s.2.badcode || e.2.badcode }) else (.fin (a.mul b), e.2.join s.2)
  | .fin b, .nan =>
    if b.isZero then (.fin Dy.zero, { s.2 with badcode := s.2.badcode || e.2.badcode }) else (.nan, fNan.join (e.2.join s.2))

/-- Group size of a GS code (Table 2.5); 0 is unscaled. -/
def groupSize (gs : Nat) : Nat := match gs % 4 with | 0 => 0 | 1 => 32 | 2 => 64 | _ => 128

/-- Magnitude limit of a narrow destination by sign, as mantissa and exponent (R32, Table 2.1). -/
def maxMag (f : Nat) (neg : Bool) : Nat × Int :=
  match f with
  | 0 => (if neg then 2 else 1, 0)
  | 1 => (1, 0)
  | 2 => (7, 0)
  | 3 => (6, 0)
  | 4 => (127, -6)
  | 5 => (448, 0)
  | _ => (57344, 0)

/-- The grid on which a magnitude is rounded in a narrow format. -/
def narrowGrid (f : Nat) (q : Quot) : Int :=
  match f with
  | 3 => max (q.lead - 1) (-1)
  | 5 => max (q.lead - 3) (-9)
  | 6 => max (q.lead - 2) (-16)
  | 4 => -6
  | _ => 0

/-- Encode an exact magnitude k × 2^g that is representable in a narrow format. -/
def narrowCode (f : Nat) (neg : Bool) (k : Nat) (g : Int) : Nat :=
  let small (mb eb : Nat) : Nat :=
    let bias : Int := (2 ^ (eb - 1) : Nat) - 1
    let qmin : Int := 1 - bias - mb
    let (k, g) := if k = 2 ^ (mb + 1) then (2 ^ mb, g + 1) else (k, g)
    let mag := if k < 2 ^ mb then k else (g - qmin + 1).toNat * 2 ^ mb + (k - 2 ^ mb)
    if neg then mag + 2 ^ (mb + eb) else mag
  if k = 0 then 0 else
  match f with
  | 3 => small 1 2
  | 5 => small 3 4
  | 6 => small 2 5
  | _ => wrapInt (fmtWidth f) (if neg then -(k : Int) else k)

/-- The code of the largest finite magnitude, with its sign (R54). -/
def narrowMax (f : Nat) (neg : Bool) : Nat :=
  match f with
  | 3 => if neg then 15 else 7
  | 5 => if neg then 0xFE else 0x7E
  | 6 => if neg then 0xFB else 0x7B
  | 4 => wrapInt 8 (if neg then -127 else 127)
  | 0 => if neg then 2 else 1
  | 1 => if neg then 3 else 1
  | _ => wrapInt 4 (if neg then -7 else 7)

/-- The code a NaN is written as (R37). -/
def nanCodeOf (f : Nat) : Nat :=
  match f with
  | 5 => 0x7F | 6 => 0x7E | 7 => 0x7FC0 | 8 => 0x7FC00000 | _ => 0

/-- Write an exact quotient in a narrow format: saturation first, then one rounding (R53, R54). -/
def narrowOfQuot (f : Nat) (mode : Rnd) (q : Quot) : Nat × Flags :=
  if q.num = 0 then (0, {}) else
  let mx := maxMag f q.neg
  if q.gt mx.1 mx.2 then (narrowMax f q.neg, fClip)
  else let g := narrowGrid f q; (narrowCode f q.neg (q.onGrid g mode) g, {})

/-- Conversion of an element with a group scale (R54), with what it adds to the clipped count (R75). -/
def convert (f : Nat) (mode : Rnd) (x s : Val) : Nat × Flags :=
  match s, x with
  | .nan, _ => (0, fNan)
  | .fin _, .nan => (nanCodeOf f, fNan)
  | .fin sc, .fin d =>
    if sc.isZero then (if d.isZero then (0, {}) else (narrowMax f (d.m < 0), fClip))
    else narrowOfQuot f mode (d.div sc)

/-- Conversion to any destination format; BF16 and FP32 take no scale and overflow under R36. -/
def convertAny (f : Nat) (mode : Rnd) (x s : Val) : Nat × Flags :=
  match f with
  | 7 => fmt16.ofVal mode x
  | 8 => fmt32.ofVal mode x
  | _ => convert f mode x s

/-- emax of R55. -/
def emax : Nat → Int
  | 3 => 2 | 5 => 8 | 6 => 15 | 2 => 2 | _ => 0

/-- The largest positive finite value of a format, maxval of R55. -/
def maxval (f : Nat) : Dy := let m := maxMag f false; ⟨m.1, m.2⟩

/-- The largest magnitude of a group of values none of which is a NaN. -/
def amaxOf (xs : List Val) : Dy :=
  xs.foldl (fun a v => match v with | .fin d => a.max d.abs | .nan => a) Dy.zero

def anyNan (xs : List Val) : Bool := xs.any (fun v => decide (v = .nan))

/-- The dynamic scale byte of a group (R55): the code and the flags of finding it. -/
def findScale (f : Nat) (sf : Bool) (xs : List Val) : Byte × Flags :=
  if anyNan xs then ((if sf then 0x7F else 0xFF), fNan)
  else
    let a := amaxOf xs
    if a.isZero then ((if sf then 0x38 else 0x7F), {})
    else if sf then
      let q := a.div (maxval f)
      let g := max (q.lead - 3) (-9)
      let k := q.onGrid g .near
      if k = 0 then (0x01, {})
      else if (⟨false, k, 1, g⟩ : Quot).gt 448 0 then (0x7E, fClip)
      else (BitVec.ofNat 8 (narrowCode 5 false k g), {})
    else
      let e := a.lead - emax f
      let e := if e < -127 then -127 else if e > 127 then 127 else e
      (BitVec.ofNat 8 (e + 127).toNat, {})

/-- Conversion of a whole group with a given scale byte: codes and, element by element, the flags (R54). -/
def convertGroup (f : Nat) (sf : Bool) (sc : Byte) (modes : List Rnd) (xs : List Val) : List (Nat × Flags) :=
  let s := (scaleVal sf sc).1
  (xs.zip modes).map (fun xm => convert f xm.2 xm.1 s)

/-- A group under a dynamic scale: scale byte, codes, flags (R55). -/
def convertDyn (f : Nat) (sf : Bool) (modes : List Rnd) (xs : List Val) : Byte × List (Nat × Flags) × Flags :=
  let s := findScale f sf xs
  if anyNan xs then (s.1, xs.map (fun _ => (0, ({} : Flags))), s.2)
  else (s.1, convertGroup f sf s.1 modes xs, s.2)

/-- Read element `i` of a run of packed narrow codes (R31). -/
def packGet (w : Nat) (byteAt : Nat → Byte) (bitOff : Nat) : Nat :=
  if w < 8 then (byteAt (bitOff / 8)).toNat / 2 ^ (bitOff % 8) % 2 ^ w
  else leNat ((List.range (w / 8)).map (fun i => byteAt (bitOff / 8 + i)))

end Sys2Proof.Machine
end

