-- ==== Sys2Proof/Machine/Elem.lean ====
section
/-!
DEFINITION. The correctly rounded functions of R165 (FEXP, FLOG, FRSQ) and the masses and scaled scores of R173 and
R174.  The exponential and the logarithm are formed in fixed point with 256 fraction bits, whose error is far below
any distance an FP32 result can have from a rounding boundary (log entry 12).
-/
namespace Sys2Proof.Machine

/-- Fraction bits of the fixed-point evaluation. -/
def fixF : Nat := 256

/-- Σ z^(2i+1) / (2i+1) for a fixed-point z in [0, 1/3], `n` terms: atanh z. -/
def atanhFix (z : Nat) (n : Nat) : Nat :=
  let z2 := z * z / 2 ^ fixF
  ((List.range n).foldl (fun (acc : Nat × Nat) i => (acc.1 + acc.2 / (2 * i + 1), acc.2 * z2 / 2 ^ fixF)) (0, z)).1

/-- ln 2 in fixed point: 2 atanh(1/3). -/
def ln2Fix : Nat := 2 * atanhFix (2 ^ fixF / 3) 90

/-- Σ r^i / i! for a fixed-point r in [0, 1), 80 terms.
DEDUCED: log entry 12. -/
def expFix (r : Nat) : Nat :=
  ((List.range 80).foldl (fun (acc : Nat × Nat) i =>
    let t := acc.2 * r / 2 ^ fixF / (i + 1)
    (acc.1 + t, t)) (2 ^ fixF, 2 ^ fixF)).1

/-- e^x for a non-zero exact x of magnitude below 2^9, as a quotient with a sticky bit. -/
def expQuot (d : Dy) : Quot :=
  let x : Int := d.on (-(fixF : Int))
  let k : Int := x / (ln2Fix : Int)
  let r := (x - k * (ln2Fix : Int)).toNat
  ⟨false, 2 * expFix r + 1, 1, k - fixF - 1⟩

/-- e^a, correctly rounded (R165). -/
def fexp32 (a : W32) : FlW32 :=
  let x := f32 a
  match x.1 with
  | .nan => (nan32, fNan.join x.2)
  | .fin d =>
    if d.isZero then (0x3F800000, x.2)
    else if (Dy.ofInt 200).lt d then (max32, fOvf.join x.2)
    else if d.lt (Dy.ofInt (-200)) then (0, x.2)
    else if d.lead < -fixF / 2 then (0x3F800000, x.2)
    else let r := quotF32 (expQuot d); (r.1, r.2.join x.2)

/-- The natural logarithm of a positive exact number other than 1, as an exact fixed-point number. -/
def lnDy (d : Dy) : Dy :=
  let b := Nat.log2 d.m.natAbs
  let k : Int := (b : Int) + d.e
  let m := d.m.natAbs
  let z := (m - 2 ^ b) * 2 ^ fixF / (m + 2 ^ b)
  ⟨k * (ln2Fix : Int) + 2 * (atanhFix z 90 : Int), -(fixF : Int)⟩

/-- ln a, correctly rounded (R165). -/
def flog32 (a : W32) : FlW32 :=
  let x := f32 a
  match x.1 with
  | .nan => (nan32, fNan.join x.2)
  | .fin d =>
    if d.m < 0 then (nan32, fNan.join x.2)
    else if d.isZero then (max32 ||| 0x80000000, fOvf.join x.2)
    else if (d.sub (Dy.ofInt 1)).isZero then (0, x.2)
    else let r := toF32 .near (.fin (lnDy d)); (r.1, r.2.join x.2)

/-- 1 / √a, correctly rounded (R165). -/
def frsq32 (a : W32) : FlW32 :=
  let x := f32 a
  match x.1 with
  | .nan => (nan32, fNan.join x.2)
  | .fin d =>
    if d.m < 0 then (nan32, fNan.join x.2)
    else if d.isZero then (max32, fOvf.join x.2)
    else
      let par := (d.e % 2).toNat
      let m := d.m.natAbs * 2 ^ par
      let n := 2 ^ 160 / m
      let s := isqrt n
      let exact := decide (s * s * m = 2 ^ 160)
      let r := quotF32 ⟨false, 2 * s + (if exact then 0 else 1), 1, -80 - 1 - (d.e - par) / 2⟩
      (r.1, r.2.join x.2)

/-- The scaled score u of a score z (R173): multiplied by RTEMP, limited to [-64, 80]. -/
def scaleScore (rtemp z : W32) : FlW32 :=
  let r := fmul32 z rtemp
  if fnan? r.1 then (nan32, fNan.join r.2)
  else if (flt32 0x42A00000 r.1).1 then (0x42A00000, fOvf.join r.2)
  else if (flt32 r.1 0xC2800000).1 then (0xC2800000, r.2)
  else r

/-- The term of a scaled score: FEXP(u) truncated to the grid 2^-104 (R174); of a NaN the rule states none.
DESIGN CHOICE: log entry 96. -/
def massTerm (u : W32) : Nat :=
  match (f32 (fexp32 u).1).1 with
  | .fin d =>
    let s := d.e + 104
    if 0 ≤ s then d.m.natAbs * 2 ^ s.toNat else d.m.natAbs / 2 ^ (-s).toNat
  | .nan => Config.nanTerm

/-- fp32(M) of a mass (R174). -/
def massF32 (m : Nat) : FlW32 := quotF32 ⟨false, m, 1, -104⟩

end Sys2Proof.Machine
end

