-- ==== Sys2Proof/Machine/Ops.lean ====
section
/-!
DEFINITION. The named operations every meaning is built from: access to the module's tables, address translation and
the bytes behind it, semaphores, status records and rings, output rings and messages.
-/
namespace Sys2Proof.Machine

/-- The outcome of a command whose effect on the module is `f`; the queue is not touched. -/
def State.run (s : State) (f : Chip → Chip) : Host.Outcome State Fault Refusal :=
  .next { s with chip := f s.chip }

/-! ### Access to tables -/

def Chip.die (c : Chip) : Die → DieSt
  | .w => c.w
  | .e => c.e

def Chip.modDie (c : Chip) (d : Die) (f : DieSt → DieSt) : Chip :=
  match d with
  | .w => { c with w := f c.w }
  | .e => { c with e := f c.e }

def Chip.ctx (c : Chip) (n : Nat) : Ctx := tget {} c.ctxs n
def Chip.modCtx (c : Chip) (n : Nat) (f : Ctx → Ctx) : Chip := { c with ctxs := tmod {} c.ctxs n f }

def Ctx.side (x : Ctx) : Die → CtxDie
  | .w => x.w
  | .e => x.e

def Ctx.modSide (x : Ctx) (d : Die) (f : CtxDie → CtxDie) : Ctx :=
  match d with
  | .w => { x with w := f x.w }
  | .e => { x with e := f x.e }

def Chip.side (c : Chip) (n : Nat) (d : Die) : CtxDie := (c.ctx n).side d
def Chip.modSide (c : Chip) (n : Nat) (d : Die) (f : CtxDie → CtxDie) : Chip := c.modCtx n (fun x => x.modSide d f)

def Chip.part (c : Chip) (q : Nat) : Partition := tget {} c.parts q
def Chip.modPart (c : Chip) (q : Nat) (f : Partition → Partition) : Chip := { c with parts := tmod {} c.parts q f }

def Chip.stk (c : Chip) (n : Nat) : StackSt := tget {} c.stks n
def Chip.modStk (c : Chip) (n : Nat) (f : StackSt → StackSt) : Chip := { c with stks := tmod {} c.stks n f }

def Chip.stream (c : Chip) (d : Die) (q : Nat) : Option Stream := tget none (c.die d).streams q
def Chip.setStream (c : Chip) (d : Die) (q : Nat) (x : Option Stream) : Chip :=
  c.modDie d (fun m => { m with streams := tput none m.streams q x })
def Chip.modStream (c : Chip) (d : Die) (q : Nat) (f : Stream → Stream) : Chip :=
  c.modDie d (fun m => { m with streams := tmod none m.streams q (·.map f) })

def Stream.unit (s : Stream) (pos : Nat) : UnitQ := tget {} s.units pos
def Stream.modUnit (s : Stream) (pos : Nat) (f : UnitQ → UnitQ) : Stream := { s with units := tmod {} s.units pos f }

/-- The op in progress on a unit. -/
def Chip.op (c : Chip) (u : UnitRef) : Option Op := (c.stream u.die u.part).bind (fun s => (s.unit u.pos).op)
def Chip.modOp (c : Chip) (u : UnitRef) (f : Op → Op) : Chip :=
  c.modStream u.die u.part (fun s => s.modUnit u.pos (fun x => { x with op := x.op.map f }))

/-- The op in progress on a unit has done its work, in this many cycles of its clock. -/
def Chip.opDone (c : Chip) (u : UnitRef) (cycles : Nat) : Chip :=
  c.modOp u (fun o => { o with worked := true, busy := true, waiting := false, cycles := cycles })

/-- The op in progress on a unit waits. -/
def Chip.opWaits (c : Chip) (u : UnitRef) : Chip := c.modOp u (fun o => { o with waiting := true })

def Chip.modRun (c : Chip) (n : Nat) (f : Run → Run) : Chip := c.modCtx n (fun x => { x with run := x.run.map f })

/-- The context whose command the partition's stream on a die runs. -/
def Chip.ctxOf (c : Chip) (d : Die) (q : Nat) : Nat :=
  match c.stream d q with
  | some s => s.ctx
  | none => ((c.part q).cur).getD 0

def Chip.thread (c : Chip) (t : ThreadRef) : Option Thread :=
  tget none (c.die t.die).threads (t.loc * 2 ^ 21 + t.comp * 2 ^ 12 + t.ctx)
def Chip.setThread (c : Chip) (t : ThreadRef) (x : Option Thread) : Chip :=
  c.modDie t.die (fun m => { m with threads := tput none m.threads (t.loc * 2 ^ 21 + t.comp * 2 ^ 12 + t.ctx) x })

def Chip.platen (c : Chip) (d : Die) (n : Nat) : Platen := tget {} (c.die d).platens n
def Chip.modPlaten (c : Chip) (d : Die) (n : Nat) (f : Platen → Platen) : Chip :=
  c.modDie d (fun m => { m with platens := tmod {} m.platens n f })

def Chip.model (c : Chip) (slot : Nat) : ModelEntry := tget {} c.serving.models slot
def Chip.modServing (c : Chip) (f : Serving → Serving) : Chip := { c with serving := f c.serving }
def Chip.modModel (c : Chip) (slot : Nat) (f : ModelEntry → ModelEntry) : Chip :=
  c.modServing (fun v => { v with models := tmod {} v.models slot f })
def Chip.entry (c : Chip) (n : Nat) : StreamEntry := tget {} c.serving.streams n
def Chip.modEntry (c : Chip) (n : Nat) (f : StreamEntry → StreamEntry) : Chip :=
  c.modServing (fun v => { v with streams := tmod {} v.streams n f })

def Chip.pport (c : Chip) (n : Nat) : Port := tget {} c.ports n
def Chip.modPort (c : Chip) (n : Nat) (f : Port → Port) : Chip := { c with ports := tmod {} c.ports n f }

/-- The contexts that are not free, ascending. -/
def Chip.live (c : Chip) : List Nat := (c.ctxs.filter (fun kv => decide (kv.2.st ≠ .free))).map (·.1)

/-- Ridge time in the management domain. -/
def Chip.now (c : Chip) : W64 := c.ridge.now

/-- The next word of the random source (R96, R291, R324). -/
def Chip.draw (c : Chip) : W64 × Chip := (Config.random c.rnd, { c with rnd := c.rnd + 1 })

/-- A fresh free byte. -/
def Chip.freeByte (c : Chip) : Byte × Chip := (Config.freeByte c.fresh, { c with fresh := c.fresh + 1 })

/-- A fresh free word. -/
def Chip.freeWord (c : Chip) : W64 × Chip := (Config.freeWord c.fresh, { c with fresh := c.fresh + 1 })

/-- A serial for a new encryption key (R324). -/
def Chip.newKey (c : Chip) : Nat × Chip := (c.serials + 1, { c with serials := c.serials + 1 })

/-- A new hash key: the place in the random source from which its twelve masks are drawn (R96). -/
def Chip.newHash (c : Chip) : Nat × Chip := (c.rnd, { c with rnd := c.rnd + 12 })

/-- First port and hops of the route to a module (R233): the routing table holds the port plus 1, and 16 times the hops. -/
def Domain.route (d : Domain) (id : Nat) : Option (Nat × Nat) :=
  let v := tget 0 d.routes id
  if v = 0 then none else some (v % 16 - 1, v / 16)

/-- A message sent to another module, by the first port of its route. -/
def Chip.send (c : Chip) (kind dest : Nat) (data : List Byte) : Chip :=
  { c with sent := c.sent ++ [{ kind := kind, dest := dest, data := data, port := (c.domain.route (dest % 1024)).map (·.1) }] }

/-! ### Address translation (R6, R94, R95, R201, R325, R327) -/

/-- Bits set in a number, over `n` bits. -/
def popcount (n v : Nat) : Nat := ((List.range n).filter (fun i => v.testBit i)).length

/-- XOR of the bits of a number, over `n` bits. -/
def parity (n v : Nat) : Bool := decide (popcount n v % 2 = 1)

/-- Rotate an n-bit mask left by s places, modulo n. -/
def rotl (n m s : Nat) : Nat :=
  let k := s % n
  ((m <<< k) ||| ((m % 2 ^ n) >>> (n - k))) % 2 ^ n

/-- A drawn mask of `n` bits: at least four bits are set (R96). A draw with fewer gets bits 3:0 as well, because the rule does
not say how the draw is made to meet it.
DESIGN CHOICE: log entry 93. -/
def mask (n : Nat) (x : W64) : Nat :=
  let m := x.toNat % 2 ^ n
  if 4 ≤ popcount n m then m else m ||| 15

/-- The masks kc[j] and ks[j] of a hash key. -/
def hashKc (key j : Nat) : Nat := mask 19 (Config.random (key + j))
def hashKs (key j : Nat) : Nat := mask 10 (Config.random (key + 9 + j))

/-- The twelve masks of a hash key. -/
def hashMasks (key : Nat) : List Nat := (List.range 9).map (hashKc key) ++ (List.range 3).map (hashKs key)

/-- The stack an interleaved page's offset lies in (R95). -/
def hashStack (key salt po : Nat) : Nat :=
  let q := po >>> 8
  let hi := bits q 12 3
  let t (j : Nat) : Nat := b2n (xor (bit q j) (parity 10 (hi &&& rotl 10 (hashKs key j) salt)))
  t 0 + 2 * t 1 + 4 * t 2

/-- Channel and bank of a stack-local address (R95). -/
def hashChanBank (key salt loc : Nat) : Nat × Nat :=
  let g := loc >>> 8
  let hi := bits g 27 9
  let sel (j : Nat) : Nat := b2n (xor (bit g j) (parity 19 (hi &&& rotl 19 (hashKc key j) salt)))
  (sel 0 + 2 * sel 1 + 4 * sel 2 + 8 * sel 3, sel 4 + 2 * sel 5 + 4 * sel 6 + 8 * sel 7 + 16 * sel 8)

/-- The device address of a page offset in a physical copy (R6, R95). -/
def PageCopy.dev (p : PageCopy) (po : Nat) : Nat :=
  match p.phys with
  | .pinned stack slice => stack * 2 ^ 36 + slice * 2 ^ 18 + po
  | .inter slices =>
    let st := hashStack p.hash p.salt.toNat po
    st * 2 ^ 36 + slices.getD st 0 * 2 ^ 18 + ((bits (po >>> 8) 12 3) <<< 8) + po % 256

/-- The page selector of a PSET: true for page B (R202). -/
def Ctx.selB (x : Ctx) (ps : Nat) : Bool := tget false x.train.active ps

/-- Which physical copy of a page an access means. -/
inductive Copy where
  | active | inactive | a | b
  deriving DecidableEq, Repr

/-- The copy meant: an unpaired page has copy A alone (R201). -/
def Page.useB (p : Page) (x : Ctx) (w : Copy) : Bool :=
  match p.copyB with
  | none => false
  | some _ =>
    match w with
    | .active => x.selB p.attr.pset.toNat
    | .inactive => !x.selB p.attr.pset.toNat
    | .a => false
    | .b => true

def Page.copy (p : Page) (useB : Bool) : PageCopy := if useB then p.copyB.getD p.copyA else p.copyA
def Page.setCopy (p : Page) (useB : Bool) (k : PageCopy) : Page :=
  if useB then { p with copyB := some k } else { p with copyA := k }

def pageSize : Nat := 2 ^ 21

def Ctx.page (x : Ctx) (va : Nat) : Option Page := tget none x.pages (va / pageSize)

/-- The context holds the key a page is read under: its own, or a live model's it owns or was granted (R325). -/
def Chip.holdsKey (c : Chip) (n key : Nat) : Bool :=
  decide (key = (c.ctx n).key) ||
  c.serving.models.any (fun kv => decide (kv.2.st ≠ 0) && decide (kv.2.key = key) &&
    (decide (kv.2.owner = n) || kv.2.grantees.contains n))

/-- A failed access: the kind and the address of Table 6.6. -/
structure AccFault where
  kind : BitVec 4
  addr : BitVec 52
  deriving DecidableEq, Repr, Inhabited

def faultAddr : BitVec 4 := 1
def faultEcc : BitVec 4 := 2
def faultKey : BitVec 4 := 3
def faultRbw : BitVec 4 := 4

/-- The first 256-byte unit with an uncorrectable error among the bytes va to va + n - 1 of one page. -/
def Chip.badUnit (c : Chip) (k : PageCopy) (va n : Nat) : Option Nat :=
  let po := va % pageSize
  let units := (List.range ((po + n - 1) / 256 + 1 - po / 256)).map (fun i => k.dev ((po / 256 + i) * 256))
  units.find? (fun u => tget false c.ecc (u / 256))

/-- The page-bounded pieces of a byte range. -/
def pieces : Nat → Nat → Nat → List (Nat × Nat)
  | 0, _, _ => []
  | _ + 1, _, 0 => []
  | f + 1, va, n + 1 =>
    let m := min (n + 1) (pageSize - va % pageSize)
    (va, m) :: pieces f (va + m) (n + 1 - m)

def piecesOf (va n : Nat) : List (Nat × Nat) := pieces (n / pageSize + 2) va n

/-- What stops a read of one piece (R144, R156, R325, R327). -/
def Chip.readFault (c : Chip) (n : Nat) (w : Copy) (va len : Nat) : Option AccFault :=
  let x := c.ctx n
  if 2 ^ 48 < va + len then some ⟨faultAddr, BitVec.ofNat 52 va⟩ else
  match x.page va with
  | none => some ⟨faultAddr, BitVec.ofNat 52 va⟩
  | some p =>
    let k := p.copy (p.useB x w)
    if !c.holdsKey n p.key then some ⟨faultKey, BitVec.ofNat 52 va⟩
    else if !k.written then (if x.rbwFault then some ⟨faultRbw, BitVec.ofNat 52 va⟩ else none)
    else (c.badUnit k va len).map (fun u => ⟨faultEcc, BitVec.ofNat 52 u⟩)

/-- Who writes: an ordinary unit, an UPDATE op (the inactive page), or the loads that write both pages (R201). -/
inductive Writer where
  | unit | update | load
  deriving DecidableEq, Repr

/-- What stops a write of one piece: absent, read-only or paired pages, a lost key, a partial write over an error. -/
def Chip.writeFault (c : Chip) (n : Nat) (wr : Writer) (va len : Nat) : Option AccFault :=
  let x := c.ctx n
  let af : Option AccFault := some ⟨faultAddr, BitVec.ofNat 52 va⟩
  if 2 ^ 48 < va + len then af else
  match x.page va with
  | none => af
  | some p =>
    if p.attr.ro && decide (wr ≠ .load) then af
    else if p.attr.pair && decide (wr = .unit) then af
    else if !p.attr.pair && decide (wr = .update) then af
    else if !c.holdsKey n p.key then some ⟨faultKey, BitVec.ofNat 52 va⟩
    else
      let k := p.copy (p.useB x (match wr with | .update => .inactive | _ => .active))
      if !k.written then none else
      let first := va % 256 ≠ 0
      let last := (va + len) % 256 ≠ 0
      let head := if first then c.badUnit k va 1 else none
      let tail := if last then c.badUnit k (va + len - 1) 1 else none
      (head <|> tail).map (fun u => ⟨faultEcc, BitVec.ofNat 52 u⟩)

/-- The first fault of an access in ascending address. -/
def firstFault (f : Nat → Nat → Option AccFault) : List (Nat × Nat) → Option AccFault
  | [] => none
  | (va, n) :: t => (f va n) <|> firstFault f t

/-- One byte through a copy; zero while the page's written bit is clear (R327). -/
def Chip.peekCopy (c : Chip) (k : PageCopy) (po : Nat) : Byte :=
  if k.written then mget c.dram (k.dev po) else 0

/-- One byte of context virtual memory, with no check and no count. -/
def Chip.peek (c : Chip) (n : Nat) (w : Copy) (va : Nat) : Byte :=
  let x := c.ctx n
  match x.page va with
  | none => 0
  | some p => c.peekCopy (p.copy (p.useB x w)) (va % pageSize)

/-- Add one to CTX_RBW for every unwritten page a read touches (R327). -/
def Chip.countRbw (c : Chip) (n : Nat) (w : Copy) (va len : Nat) : Chip :=
  let x := c.ctx n
  let k := ((piecesOf va len).filter (fun p =>
    match x.page p.1 with
    | none => false
    | some g => !(g.copy (g.useB x w)).written)).length
  if k = 0 then c else c.modCtx n (fun x => { x with rbw := satAdd x.rbw k })

/-- A checked read of context virtual memory. -/
def Chip.readVaAs (c : Chip) (n : Nat) (w : Copy) (va len : Nat) : Chip × Except AccFault (List Byte) :=
  match firstFault (c.readFault n w) (piecesOf va len) with
  | some e => (c, .error e)
  | none => (c.countRbw n w va len, .ok ((List.range len).map (fun i => c.peek n w (va + i))))

/-! ### The translation of a fetched list (R101, R202) -/

/-- The copy a list uses: the one it was fetched with, where a migration has moved the page since. -/
def View.copy (v : View) (k : PageCopy) : PageCopy :=
  match v.old.find? (fun x => decide (x.1 = k.phys)) with
  | some x => { k with phys := x.2.phys, salt := x.2.salt }
  | none => k

/-- A context as a list sees it: under the selectors and the places it was fetched with. -/
def Ctx.seen (x : Ctx) (v : View) : Ctx :=
  let x := { x with train := { x.train with active := v.sel } }
  if v.old.isEmpty then x else
  { x with pages := tmap none (fun _ g => g.map (fun p => { p with copyA := v.copy p.copyA, copyB := p.copyB.map v.copy })) x.pages }

/-- The translation of the op in progress on a unit. -/
def Chip.viewOf (c : Chip) (u : UnitRef) : Option View := (c.op u).bind (·.view)

/-- The context as the op in progress on a unit sees it. -/
def Chip.seenBy (c : Chip) (u : UnitRef) (n : Nat) : Chip :=
  match c.viewOf u with
  | some v => c.modCtx n (·.seen v)
  | none => c

/-- Work done under the selectors of the op in progress on a unit; the context's own stand again after it. -/
def Chip.underSel (c : Chip) (u : UnitRef) (n : Nat) (f : Chip → Chip) : Chip :=
  match c.viewOf u with
  | none => f c
  | some v =>
    let now := (c.ctx n).train.active
    let put (t : Tab Bool) (c : Chip) : Chip := c.modCtx n (fun x => { x with train := { x.train with active := t } })
    put now (f (put v.sel c))

/-- A checked read of the active pages. -/
def Chip.readVa (c : Chip) (n va len : Nat) : Chip × Except AccFault (List Byte) := c.readVaAs n .active va len

/-- A checked read by the op in progress on a unit: of the pages its list names, counted where they are unwritten (R327). -/
def Chip.readBy (c : Chip) (u : UnitRef) (n va len : Nat) : Chip × Except AccFault (List Byte) :=
  let r := (c.seenBy u n).readVa n va len
  (c.modCtx n (fun x => { x with rbw := (r.1.ctx n).rbw }), r.2)

/-- A page of a range is being copied by a migration: writes to it wait for the switch (R101). -/
def Chip.copying (c : Chip) (n va len : Nat) : Bool :=
  let busy : List Phys := c.stks.filterMap (fun kv => kv.2.mig.bind (fun m =>
    (tget none (c.ctx m.ctx).pages m.page).map (fun p => (p.copy m.copyB).phys)))
  !busy.isEmpty && (piecesOf va len).any (fun x => match (c.ctx n).page x.1 with
    | some p => busy.contains p.copyA.phys || (match p.copyB with | some k => busy.contains k.phys | none => false)
    | none => false)

/-- A read of the active pages that the firmware makes for its own use; absent pages give none. -/
def Chip.fetchVa (c : Chip) (n va len : Nat) : Option (List Byte) :=
  match (c.readVa n va len).2 with
  | .ok b => some b
  | .error _ => none

/-- Every byte of a physical copy made zero (R327). -/
def zeroCopy (m : Memory) (k : PageCopy) : Memory :=
  match k.phys with
  | .pinned stack slice =>
    let b := stack * 2 ^ 36 + slice * 2 ^ 18
    m.filter (fun kv => !(decide (b ≤ kv.1) && decide (kv.1 < b + pageSize)))
  | .inter slices =>
    m.filter (fun kv =>
      let st := kv.1 / 2 ^ 36
      !(decide (st < 8) && decide ((kv.1 % 2 ^ 36) / 2 ^ 18 = slices.getD st 0)))

/-- Errors of a physical copy cleared, as the zeroing of a freshly allocated page does (R156). -/
def zeroEcc (e : Tab Bool) (k : PageCopy) : Tab Bool :=
  match k.phys with
  | .pinned stack slice =>
    let b := (stack * 2 ^ 36 + slice * 2 ^ 18) / 256
    e.filter (fun kv => !(decide (b ≤ kv.1) && decide (kv.1 < b + 8192)))
  | .inter slices =>
    e.filter (fun kv =>
      let st := kv.1 / 2 ^ 28
      !(decide (st < 8) && decide ((kv.1 % 2 ^ 28) / 2 ^ 10 = slices.getD st 0)))

/-- The weight-cache lines of a 256-byte unit are dropped and its presence bits cleared (R153). -/
def Chip.snoop (c : Chip) (unit : Nat) : Chip :=
  let st := unit / 2 ^ 28
  if tget 0 (c.stk st).presence unit = 0 then c else
  let drop (m : DieSt) : DieSt :=
    { m with cache := tmod [] m.cache (unit % 24576) (·.filter (fun l => decide (l.line ≠ unit))) }
  { c.modStk st (fun x => { x with presence := tput 0 x.presence unit 0 }) with w := drop c.w, e := drop c.e }

/-- A 256-byte unit belongs to a physical copy. -/
def PageCopy.owns (k : PageCopy) (unit : Nat) : Bool :=
  match k.phys with
  | .pinned stack slice => decide (stack * 2 ^ 28 + slice * 2 ^ 10 ≤ unit) && decide (unit < stack * 2 ^ 28 + slice * 2 ^ 10 + 8192)
  | .inter slices => decide (unit / 2 ^ 28 < 8) && decide (unit % 2 ^ 28 / 2 ^ 10 = slices.getD (unit / 2 ^ 28) 0)

/-- Every line of a copy that a weight cache may hold is snooped. -/
def Chip.snoopCopy (c : Chip) (k : PageCopy) : Chip :=
  (((List.range 8).flatMap (fun st => (c.stk st).presence.map (·.1))).filter k.owns).foldl (fun c u => c.snoop u) c

/-- The first write to a page: zeros over it, then its written bit (R327).
DEDUCED: log entry 74. -/
def Chip.firstWrite (c : Chip) (n va : Nat) (useB : Bool) : Chip :=
  match (c.ctx n).page va with
  | none => c
  | some p =>
    let k := p.copy useB
    if k.written then c else
    ({ c.modCtx n (fun x => { x with pages := tput none x.pages (va / pageSize) (some (p.setCopy useB { k with written := true })) })
      with dram := zeroCopy c.dram k, ecc := zeroEcc c.ecc k } : Chip).snoopCopy k

/-- Store bytes at an offset of a page's copy: memory, errors of units written whole, snoops (R153, R156). -/
def Chip.pokeCopy (c : Chip) (k : PageCopy) (po : Nat) (bs : List Byte) : Chip :=
  let dram := (List.range bs.length).foldl (fun m i => mput m (k.dev (po + i)) (bs.getD i 0)) c.dram
  let full := (List.range (bs.length / 256 + 2)).filterMap (fun i =>
    let u := (po / 256 + i) * 256
    if po ≤ u ∧ u + 256 ≤ po + bs.length then some (k.dev u / 256) else none)
  let touched := (List.range ((po + bs.length - 1) / 256 + 1 - po / 256)).map (fun i => k.dev ((po / 256 + i) * 256) / 256)
  let c := { c with dram := dram, ecc := full.foldl (fun e u => tput false e u false) c.ecc }
  touched.foldl (fun c u => c.snoop u) c

/-- Store bytes within one page through a copy. -/
def Chip.pokePiece (c : Chip) (n : Nat) (useB : Bool) (va : Nat) (bs : List Byte) : Chip :=
  let c := c.firstWrite n va useB
  match (c.ctx n).page va with
  | none => c
  | some p => c.pokeCopy (p.copy useB) (va % pageSize) bs

/-- Store bytes in context virtual memory with no check. -/
def Chip.pokeVa (c : Chip) (n : Nat) (w : Copy) (va : Nat) (bs : List Byte) : Chip :=
  ((piecesOf va bs.length).foldl (fun (acc : Chip × List Byte) p =>
    let x := acc.1.ctx n
    let b := match x.page p.1 with | none => false | some g => g.useB x w
    (acc.1.pokePiece n b p.1 (acc.2.take p.2), acc.2.drop p.2)) (c, bs)).1

/-- The bytes of a sheet section in memory, as a number of 16 bytes. -/
def Chip.sheetBytes (c : Chip) (n : Nat) (img : DieImage) (off : Nat) : Nat :=
  leNat ((List.range 16).map (fun i => c.peek n .active (img.sheetVa.toNat + off + i)))

/-- A write meets the sheet section of a running stream: the sheets in its buffer are kept, the others are undefined from now on
(R361). -/
def Chip.spoil (c : Chip) (n va len : Nat) : Chip :=
  let hit (s : Stream) : Bool :=
    !s.stopped && decide (s.ctx = n) && decide (s.image.sheetVa.toNat < va + len) && decide (va < s.image.sheetVa.toNat + s.image.sheetSize) &&
    s.image.spoiled.isNone
  let q := (c.ctx n).part
  let one (c : Chip) (d : Die) : Chip :=
    match c.stream d q with
    | none => c
    | some s =>
      if !hit s then c else
      let kept := (List.range ((s.bufHi - s.bufLo) / 16)).foldl (fun (t : Tab (Option Nat)) i =>
        tput none t (s.bufLo / 16 + i) (some (c.sheetBytes n s.image (s.bufLo / 16 * 16 + 16 * i)))) []
      { c.modStream d q (fun s => { s with image := { s.image with spoiled := some c.fresh, kept := kept } }) with fresh := c.fresh + 1 }
  one (one c .w) .e

/-- A checked write to context virtual memory. -/
def Chip.writeVaAs (c : Chip) (n : Nat) (wr : Writer) (va : Nat) (bs : List Byte) : Chip × Option AccFault :=
  match firstFault (c.writeFault n wr) (piecesOf va bs.length) with
  | some e => (c, some e)
  | none =>
    match wr with
    | .unit => ((c.spoil n va bs.length).pokeVa n .active va bs, none)
    | .update => (c.pokeVa n .inactive va bs, none)
    | .load => ((c.pokeVa n .a va bs).pokeVa n .b va bs, none)

/-- A checked write by an ordinary unit. -/
def Chip.writeVa (c : Chip) (n va : Nat) (bs : List Byte) : Chip × Option AccFault := c.writeVaAs n .unit va bs

/-! ### Local stores -/

def platenKey (d : Die) (pt off : Nat) : Nat := d.num * 2 ^ 29 + pt * 2 ^ 23 + off
def engineKey (d : Die) (te off : Nat) : Nat := (d.num * 32 + te) * 2 ^ 20 + off
def sharedKey (stack off : Nat) : Nat := stack * 2 ^ 25 + off
def platenBytes : Nat := 6 * 2 ^ 20
def engineBytes : Nat := 2 ^ 20
def sharedBytes : Nat := 24 * 2 ^ 20

/-- The stack a thatch engine of a die belongs to: eight engines a stack. -/
def stackOfTe (d : Die) (te : Nat) : Nat := d.num * 4 + te / 8

/-! ### Partition ranges -/

/-- The physical pair of a partition's semaphore index (R310). -/
def Chip.pair (c : Chip) (q i : Nat) : Nat := (c.part q).semBase.toNat * 64 + i

/-- A semaphore index lies in the partition's range (R311). -/
def Chip.semOk (c : Chip) (q i : Nat) : Bool := decide (i < (c.part q).semCnt.toNat * 64)

/-- A tag lies in the partition's range (R311). -/
def Chip.tagOk (c : Chip) (q tag : Nat) : Bool :=
  let b := (c.part q).tagBase.toNat * 64
  decide (b ≤ tag % 4096) && decide (tag % 4096 < b + (c.part q).tagCnt.toNat * 64)

/-- The partition whose range holds a physical pair.
DEDUCED: log entry 84. -/
def Chip.partOfPair (c : Chip) (pair : Nat) : Option Nat :=
  (List.range 16).find? (fun q =>
    decide ((c.part q).semBase.toNat * 64 ≤ pair) && decide (pair < ((c.part q).semBase.toNat + (c.part q).semCnt.toNat) * 64))

/-! ### The order of a run's ops (R132) -/

/-- The ops a holder comes after. -/
def Order.of (k : Order) (h : Holder) : List Nat := match k.known.find? (fun x => decide (x.1 = h)) with | some x => x.2 | none => []

/-- A holder comes after further ops. -/
def Order.learn (k : Order) (h : Holder) (ids : List Nat) : Order :=
  { k with known := (h, (k.of h ++ ids).eraseDups) :: k.known.filter (fun x => decide (x.1 ≠ h)) }

/-- The ops of a context's run that a holder comes after. -/
def Chip.knownTo (c : Chip) (n : Nat) (h : Holder) : List Nat := match (c.ctx n).run with | some r => r.order.of h | none => []

/-- A holder comes after further ops of a context's run. -/
def Chip.learn (c : Chip) (n : Nat) (h : Holder) (ids : List Nat) : Chip :=
  if ids.isEmpty then c else c.modRun n (fun r => { r with order := r.order.learn h ids })

/-- The context whose run uses a pair. -/
def Chip.pairCtx (c : Chip) (pair : Nat) : Option Nat := (c.partOfPair pair).bind (fun q => (c.part q).cur)

/-- One that takes from a half comes after what its signals came after (R132 rules 3 and 5). -/
def Chip.hears (c : Chip) (h : Holder) (d : Die) (pair : Nat) (empty : Bool) : Chip :=
  match c.pairCtx pair with
  | some n => c.learn n h (c.knownTo n (.half d pair empty))
  | none => c

/-! ### Semaphores (R149) and their watches (R401) -/

def Sem.half (s : Sem) (empty : Bool) : W16 := if empty then s.empty else s.full
def Sem.setHalf (s : Sem) (empty : Bool) (v : W16) : Sem := if empty then { s with empty := v } else { s with full := v }

def DieSt.sem (m : DieSt) (pair : Nat) : Sem := tget {} m.sems pair

/-- A die halts, recording the first cause (R398 to R401). A hit that halts sets HALT, so that the field shows the request that
holds the die and writing 0 ends it; Table 16.7 does not say what HALT reads then.
DESIGN CHOICE: log entry 59. -/
def DieSt.debugHit (m : DieSt) (cause : BitVec 4) (index : Nat) (time : W64) (halt : Bool) : DieSt :=
  let g := m.dbg
  let g := if g.cause = 0 then { g with cause := cause, index := BitVec.ofNat 6 index, hitTime := time } else g
  { m with dbg := if halt then { g with halt := true } else g }

/-- Semaphore watches after a signal or a take of a half. -/
def DieSt.watch (m : DieSt) (pair : Nat) (empty take : Bool) (time : W64) : DieSt :=
  (List.range 8).foldl (fun m n =>
    let r := (tget 0 m.dbg.sw n : W64).toNat
    let kind := bits r 14 13
    let hit := bit r 63 && decide (bits r 11 0 = pair) && (bit r 12 == empty) &&
      (if kind = 0 then !take else if kind = 1 then take
       else if kind = 2 then decide (bits r 31 16 ≤ ((m.sem pair).half empty).toNat) else false)
    if hit then m.debugHit 4 n time (bit r 32) else m) m

/-- A WAIT whose half reaches its count by its deadline is met in time (R131). -/
def Stream.arrived (s : Stream) (i : Nat) (empty : Bool) (held : Nat) (time : W64) : Stream :=
  match s.wait with
  | .wait pair half count (some deadline) =>
    if pair.toNat = i ∧ half = empty ∧ count.toNat ≤ held ∧ time ≤ deadline then { s with met := true } else s
  | _ => s

/-- Add to a half; the first saturation is recorded with the running context of the pair's partition (R149). -/
def Chip.semAdd (c : Chip) (d : Die) (pair : Nat) (empty : Bool) (n : Nat) : Chip :=
  let s := (c.die d).sem pair
  let sum := (s.half empty).toNat + n
  let c := c.modDie d (fun m => ({ m with sems := tput {} m.sems pair (s.setHalf empty (satAdd (s.half empty) n)) }).watch pair empty false m.ridge)
  let c : Chip := match c.partOfPair pair with
    | some q => c.modStream d q (fun x => x.arrived (pair - c.pair q 0) empty (min sum 65535) (c.die d).ridge)
    | none => c
  if sum < 65536 then c else
  match (c.partOfPair pair).bind (fun q => (c.part q).cur) with
  | none => c
  | some x => c.modSide x d (fun k => if k.semOvf then k else { k with semOvf := true, semOvfPair := BitVec.ofNat 12 pair })

/-- A half holds at least N. -/
def Chip.semHas (c : Chip) (d : Die) (pair : Nat) (empty : Bool) (n : Nat) : Bool :=
  decide (n ≤ (((c.die d).sem pair).half empty).toNat)

/-- Take N from a half that holds it. -/
def Chip.semTake (c : Chip) (d : Die) (pair : Nat) (empty : Bool) (n : Nat) : Chip :=
  c.modDie d (fun m =>
    let s := m.sem pair
    ({ m with sems := tput {} m.sems pair (s.setHalf empty (s.half empty - BitVec.ofNat 16 n)) }).watch pair empty true m.ridge)

/-! ### Contended halves (R148) -/

/-- One that waits on a half of a die's pairs: a link take of a unit, or a thread in STAKE by its die and place. -/
inductive Waiter where
  | link (a : Ask)
  | thread (d : Die) (key : Nat) (t : Thread)
  deriving DecidableEq, Repr

/-- The requester identifier of a unit that takes from the pairs of die `d`. -/
def unitRequester (d : Die) (u : UnitRef) : Nat := u.pos + (if u.die = d then 0 else 512)

/-- The requester identifier of a compositor: `key` is the place of its thread in the die's table. -/
def compRequester (d td : Die) (key : Nat) : Nat :=
  let loc := key / 2 ^ 21
  let comp := key / 2 ^ 12 % 512
  (if loc = 0 then 128 + comp else 384 + 16 * (loc - 1) + comp) + (if td = d then 0 else 512)

/-- Whether a thread of die `td` waits on a half of a pair of die `d`: the count it asks for. -/
def Chip.stakeOn (c : Chip) (d td : Die) (pair : Nat) (empty : Bool) (t : Thread) : Option Nat :=
  match t.wait with
  | .stake i half xdie n =>
    if (if xdie then td.other else td) = d ∧ half = empty ∧ c.pair t.part i.toNat = pair then some n.toNat else none
  | _ => none

/-- Those that wait on a half, with identifier and count. -/
def Chip.waiters (c : Chip) (d : Die) (pair : Nat) (empty : Bool) : List (Nat × Nat × Waiter) :=
  ((c.die d).asks.filter (fun a => decide (a.pair = pair) && decide (a.empty = empty))).map (fun a => (unitRequester d a.u, a.n, .link a)) ++
  [Die.w, Die.e].flatMap (fun td => (c.die td).threads.filterMap (fun kv =>
    kv.2.bind (fun t => (c.stakeOn d td pair empty t).map (fun n => (compRequester d td kv.1, n, .thread td kv.1 t)))))

/-- The place of an identifier in the rotation that starts at `first`. -/
def turnOf (first id : Nat) : Nat := (id + 1024 - first % 1024) % 1024

/-- The key of a half in the table of rotations. -/
def halfKey (pair : Nat) (empty : Bool) : Nat := 2 * pair + b2n empty

/-- The unit a thread of die `d` belongs to: its spawn slot (R171). -/
def Thread.unit (t : Thread) (d : Die) : UnitRef := { die := d, part := t.part, pos := 118 + t.spawn }

/-- An atomic or a semaphore operation of a thread: what the thread stored before is released by it (R168). -/
def Chip.synced (c : Chip) (d : Die) (t : Thread) : Chip :=
  let c := { c with syncs := c.syncs + 1 }
  c.modOp (t.unit d) (fun o => { o with outs := o.outs.map (fun x =>
    if x.tid = some t.tid ∧ x.released = none then { x with released := some c.syncs } else x) })

/-- A waiter's take succeeds: the descriptor's link is taken, the thread goes on. -/
def Chip.granted (c : Chip) (d : Die) : Waiter → Chip
  | .link a =>
    let ids := match c.pairCtx a.pair with | some n => c.knownTo n (.half d a.pair a.empty) | none => []
    let c := c.modDie d (fun m => { m with asks := m.asks.erase a })
    if a.ahead then
      c.modStream a.u.die a.u.part (fun s => s.modUnit a.u.pos (fun k => { k with queue := match k.queue with
        | e :: t => { e with links := e.links ++ [a.desc], knows := e.knows ++ ids } :: t
        | [] => [] }))
    else (c.hears (.unit a.u.die a.u.pos) d a.pair a.empty).modOp a.u (fun o => { o with links := o.links ++ [a.desc], waiting := false })
  | .thread td key t =>
    let p := match t.wait with | .stake i half _ _ => (c.pair t.part i.toNat, half) | _ => (0, false)
    let c := (c.synced td t).hears (.unit td (t.unit td).pos) d p.1 p.2
    c.modDie td (fun m =>
      { m with threads := tput none m.threads key (some { t with pc := t.pc + 1, wait := .ready, acquired := c.syncs }) })

/-- The rotation of a half starts one past the last requester granted in a contested cycle (R148). -/
def Chip.turn (c : Chip) (d : Die) (pair : Nat) (empty contested : Bool) (last : Nat) : Chip :=
  if contested then c.modDie d (fun m => { m with rot := tput 0 m.rot (halfKey pair empty) ((last + 1) % 1024) }) else c

/-- A requester that asks for `n` beside those that wait contests the half: together they ask for more than it holds (R148). -/
def Chip.contested (c : Chip) (d : Die) (pair : Nat) (empty : Bool) (n : Nat) : Bool :=
  !(c.waiters d pair empty).isEmpty &&
  decide ((((c.die d).sem pair).half empty).toNat < (c.waiters d pair empty).foldl (fun a x => a + x.2.1) n)


/-- The requester identifier of a thread's compositor at the pairs of die `d`. -/
def threadRequester (r : ThreadRef) (d : Die) : Nat := compRequester d r.die (r.loc * 2 ^ 21 + r.comp * 2 ^ 12 + r.ctx)

/-- Those that wait on a half retry, in the rotating order of R148. -/
def Chip.grant (c : Chip) (d : Die) (pair : Nat) (empty : Bool) : Chip :=
  match c.waiters d pair empty with
  | [] => c
  | ws =>
    let first := tget 0 (c.die d).rot (halfKey pair empty)
    let contested := decide ((((c.die d).sem pair).half empty).toNat < ws.foldl (fun a x => a + x.2.1) 0)
    let r := (sortBy (fun a b => decide (turnOf first a.1 < turnOf first b.1)) ws).foldl (fun (acc : Chip × Option Nat) x =>
      if acc.1.semHas d pair empty x.2.1 then ((acc.1.granted d x.2.2).semTake d pair empty x.2.1, some x.1) else acc) (c, none)
    match r.2 with
    | some last => r.1.turn d pair empty contested last
    | none => c

/-- A count is added to a half by one that comes after the ops `ids`, and those that wait on it retry. -/
def Chip.semSignal (c : Chip) (d : Die) (pair : Nat) (empty : Bool) (n : Nat) (ids : List Nat) : Chip :=
  let c := match c.pairCtx pair with | some x => c.learn x (.half d pair empty) ids | none => c
  (c.semAdd d pair empty n).grant d pair empty

/-- A signal on its way to the other die (R133), recorded there by CROSS_DIE_SIGNAL. Several on their way are recorded first in,
first out: the rule bounds the delay of each and gives no order.
DESIGN CHOICE: log entry 93. -/
def Chip.semCross (c : Chip) (dst : Die) (q : Nat) (i : Nat) (empty : Bool) (n : Nat) (ids : List Nat) : Chip :=
  c.modDie dst (fun m => { m with cross := m.cross ++ [{ part := q, pair := BitVec.ofNat 12 i, half := empty, count := n, knows := ids }] })

/-- A signal from a die, on this die or across (R121, R133), by one that comes after the ops `ids`. -/
def Chip.signal (c : Chip) (d : Die) (q i : Nat) (empty xdie : Bool) (n : Nat) (ids : List Nat) : Chip :=
  if xdie then c.semCross d.other q i empty n ids else c.semSignal d (c.pair q i) empty n ids

/-- The op in progress on a unit and the ops it comes after. -/
def Chip.opKnows (c : Chip) (u : UnitRef) : List Nat :=
  (match c.op u with | some o => [o.id] | none => []) ++ c.knownTo (c.ctxOf u.die u.part) (.unit u.die u.pos)

/-! ### Status records and completion rings (R335 to R341) -/

def Record.bytes (r : Record) : List Byte :=
  leBytes 4 (r.status.toNat + r.nparts.toNat * 2 ^ 16 + r.first.toNat * 2 ^ 23 + b2n r.fdie * 2 ^ 30) ++
  leBytes 4 r.seq.toNat ++ leBytes 4 r.detail.toNat ++ leBytes 4 r.value.toNat

/-- The function whose vectors a context's rings raise: the VF bound to it, else the PF.
DEDUCED: log entry 26. -/
def Chip.fnOf (c : Chip) (n : Nat) : Nat :=
  match c.vfs.find? (fun kv => decide (kv.2.bound = some n)) with
  | some kv => kv.1
  | none => 0

/-- Raise an MSI-X vector of a function. -/
def Chip.raise (c : Chip) (fn vector : Nat) : Chip := { c with msix := tput false c.msix (fn * 4096 + vector) true }

def Ctx.ring (x : Ctx) (r : Nat) : Ring := tget {} x.rings r
def Chip.ring (c : Chip) (n r : Nat) : Ring := (c.ctx n).ring r
def Chip.modRing (c : Chip) (n r : Nat) (f : Ring → Ring) : Chip :=
  c.modCtx n (fun x => { x with rings := tmod {} x.rings r f })

def Ring.slots (r : Ring) : Nat := 2 ^ r.log2.toNat
def Ring.cplSlots (r : Ring) : Nat := 2 ^ r.cplLog2.toNat

/-- The completion ring has no free record: its tail stands one short of its head (R338). -/
def Ring.cplFull (r : Ring) : Bool := decide ((r.cplTail.toNat + 1) % r.cplSlots = r.cplHead.toNat % r.cplSlots)

/-- Post kept records while there is room; `fuel` is their number. -/
def postKept : Nat → Memory → Ring → Memory × Ring
  | 0, m, r => (m, r)
  | f + 1, m, r =>
    match r.kept with
    | [] => (m, r)
    | x :: t =>
      if !r.enable || r.cplFull then (m, r) else
      let m := mwrite m (r.cplBase.toNat + 16 * (r.cplTail.toNat % r.cplSlots)) x.bytes
      postKept f m { r with kept := t, cplTail := BitVec.ofNat 32 ((r.cplTail.toNat + 1) % r.cplSlots) }

/-- Post what a ring keeps, then the write-back block, then the interrupt (R338). -/
def Chip.drainRing (c : Chip) (n r : Nat) : Chip :=
  let g := c.ring n r
  let p := postKept g.kept.length c.host g
  if p.2.kept.length = g.kept.length then c else
  let host := mwrite p.1 g.wb.toNat (leBytes 4 p.2.head.toNat ++ leBytes 4 p.2.cplTail.toNat)
  let c := { c.modRing n r (fun _ => p.2) with host := host }
  if g.intr then c.raise (c.fnOf n) g.vector.toNat else c

/-- Post a status record on a context's ring; one that finds no room is kept (R338).
DEDUCED: log entry 65. -/
def Chip.post (c : Chip) (n r : Nat) (x : Record) : Chip :=
  (c.modRing n r (fun g => { g with kept := g.kept ++ [x] })).drainRing n r

/-- The record of a command that ends with a status, a detail and a value. -/
def hdrRecord (h : Hdr) (status : W16) (detail value : W32) : Record :=
  { value := value, detail := detail, seq := h.seq, status := status }

/-- End a control command. A context whose function was reset posts nothing (R334). -/
def Chip.done (c : Chip) (h : Hdr) (status : W16) (detail value : W32) : Chip :=
  if (c.ctx h.page).gone then c else c.post h.page h.ring (hdrRecord h status detail value)

def Chip.ok (c : Chip) (h : Hdr) (value : W32) : Chip := c.done h 0 0 value

/-! ### Output rings (R348) -/

def Ctx.oring (x : Ctx) (r : Nat) : Oring := tget {} x.orings r
def Oring.slots (r : Oring) : Nat := 2 ^ r.log2.toNat
def Oring.full (r : Oring) : Bool := decide ((r.tail.toNat + 1) % r.slots = r.head.toNat % r.slots)

/-- Bytes of an output record: 16 for both kinds. -/
def postDelayed : Nat → Memory → Oring → Memory × Oring
  | 0, m, r => (m, r)
  | f + 1, m, r =>
    match r.delayed with
    | [] => (m, r)
    | x :: t =>
      if !r.set || r.full then (m, r) else
      let m := mwrite m (r.ha.toNat + 16 * (r.tail.toNat % r.slots)) (leBytes 16 x.toNat)
      postDelayed f m { r with delayed := t, tail := BitVec.ofNat 32 ((r.tail.toNat + 1) % r.slots) }

/-- Post what an output ring holds back, its tail to the write-back address, then its vector. -/
def Chip.drainOring (c : Chip) (n r : Nat) : Chip :=
  let g := (c.ctx n).oring r
  let p := postDelayed g.delayed.length c.host g
  if p.2.delayed.length = g.delayed.length then c else
  let host := mwrite p.1 g.wb.toNat (leBytes 4 p.2.tail.toNat)
  ({ c.modCtx n (fun x => { x with orings := tput {} x.orings r p.2 }) with host := host }).raise (c.fnOf n) g.vector.toNat

/-- Post an output record. -/
def Chip.output (c : Chip) (n r : Nat) (x : BitVec 128) : Chip :=
  if (c.ctx n).gone then c else
  (c.modCtx n (fun k => { k with orings := tmod {} k.orings r (fun g => { g with delayed := g.delayed ++ [x] }) })).drainOring n r

/-- An event record (R348). -/
def eventRecord (code step time : Nat) : BitVec 128 :=
  BitVec.ofNat 128 (code * 2 ^ 112 + step % 2 ^ 48 * 2 ^ 64 + time % 2 ^ 64)

/-- Count one event of a sticky notice (R99, R129, R190 ...). -/
def Notice.event (x : Notice) (time : W64) : Notice :=
  if x.notice then { x with count := satAdd x.count 1 } else { notice := true, count := 1, time := time }

end Sys2Proof.Machine
end

