-- ==== Sys2Proof/Machine/Flags.lean ====
section
/-!
DEFINITION. Sticky flags: how units raise them, how they roll up at the end of a beat into a tag's counters, the step's
flags, the clip and conversion counts, and the clearing of COMMITTABLE (R56 to R59, R75, R213).
-/
namespace Sys2Proof.Machine

/-- Flags a unit raises in the present beat for a tag; raises of one unit and tag in one beat join (R57). -/
def Chip.raiseFlags (c : Chip) (d : Die) (order n : Nat) (tag : Nat) (f : Flags) (clip conv : Nat) : Chip :=
  if f.isNone && clip == 0 && conv == 0 then c else
  c.modDie d (fun m =>
    let t := BitVec.ofNat 16 tag
    let same (r : Raise) : Bool := decide (r.order = order) && decide (r.ctx = n) && decide (r.tag = t)
    match m.raises.find? same with
    | some _ => { m with raises := m.raises.map (fun r =>
        if same r then { r with f := r.f.join f, clip := r.clip + clip, conv := r.conv + conv } else r) }
    | none => { m with raises := m.raises ++ [{ order := order, ctx := n, tag := t, f := f, clip := clip, conv := conv }] })

/-- The context runs a step whose commit point has not passed. -/
def Ctx.inStep (x : Ctx) : Bool :=
  match x.run with
  | some r => r.isStep && !r.pastCommit
  | none => false

/-- COMMITTABLE clears: the first reason is kept, a later one adds only OVF_SEEN (R213). -/
def Ctx.clearCommittable (x : Ctx) (reason : BitVec 3) (ovf : Bool) (pset : BitVec 12) : Ctx :=
  if !x.inStep then x else
  let t := x.train
  let t := if t.committable then { t with committable := false, reason := reason, firstPset := pset } else t
  { x with train := { t with ovfSeen := t.ovfSeen || ovf } }

def Chip.clearCommittable (c : Chip) (n : Nat) (reason : BitVec 3) (ovf : Bool) (pset : BitVec 12) : Chip :=
  c.modCtx n (fun x => x.clearCommittable reason ovf pset)

/-- One tag's counters after a rollup. -/
def FlagCounts.add (k : FlagCounts) (f : Flags) : FlagCounts :=
  { ovf := satAdd k.ovf (b2n f.ovf), nan := satAdd k.nan (b2n f.nan), clip := satAdd k.clip (b2n f.clip),
    badcode := satAdd k.badcode (b2n f.badcode), trunc := satAdd k.trunc (b2n f.trunc) }

/-- CTX_FLAG_STEP after a rollup (R59). FIRST_TAG is valid while OVF or NAN is 1, so a rollup after software has cleared both in
the middle of a step gives it that rollup's tag; the table does not say what it holds then.
DESIGN CHOICE: log entry 94. -/
def FlagStep.add (k : FlagStep) (tag : W16) (f : Flags) : FlagStep :=
  { firstTag := if (f.ovf || f.nan) && !(k.f.ovf || k.f.nan) then tag else k.firstTag, f := k.f.join f }

/-- Clip and conversion counts after a beat (R75). -/
def WidenEntry.tally (k : WidenEntry) (clip conv : Nat) : WidenEntry :=
  { k with clip := satAdd k.clip clip, conv := satAdd k.conv conv, decClip := k.decClip + clip, decConv := k.decConv + conv }

/-- Whether OVF and NAN under a tag count as overflow on a die (R213, Table 9.8). -/
def CtxDie.lscope (k : CtxDie) (tag : Nat) : Bool := (tget {} k.gauge (tag % 4096)).lscope

/-- One raise rolls up. -/
def Chip.rollupOne (c : Chip) (d : Die) (r : Raise) : Chip :=
  let i := r.tag.toNat % 4096
  let scope := (c.side r.ctx d).lscope i
  let c := c.modSide r.ctx d (fun k =>
    { k with flags := tmod {} k.flags i (·.add r.f)
             flagStep := k.flagStep.add r.tag r.f
             widen := tmod {} k.widen i (·.tally r.clip r.conv) })
  if (r.f.ovf || r.f.nan) && scope then c.clearCommittable r.ctx 1 true 0 else c

/-- Insert a raise into a list that rises in unit order. -/
def insertRaise (r : Raise) : List Raise → List Raise
  | [] => [r]
  | x :: t => if r.order < x.order then r :: x :: t else x :: insertRaise r t

/-- The raises of a beat in the order of R59. -/
def sortRaises (l : List Raise) : List Raise := l.foldl (fun acc r => insertRaise r acc) []

/-- At the end of a beat every unit's flags add to their tag's counters (R57). -/
def Chip.rollup (c : Chip) (d : Die) : Chip :=
  let rs := sortRaises (c.die d).raises
  (rs.foldl (fun c r => c.rollupOne d r) c).modDie d (fun m => { m with raises := [] })

end Sys2Proof.Machine
end

