-- ==== Sys2Proof/Machine/Operands.lean ====
section
/-!
DEFINITION. Operand forms: sheet headers and slots (chapter 5), descriptors and tile headers (chapter 6), the store
regions roles name, and the place of an element and of its scale.
-/
namespace Sys2Proof.Machine

/-! ### Sheets -/

/-- A sheet header (Table 5.1). -/
structure SheetHdr where
  lopnd : Nat
  len : Nat
  rep : Nat
  adv : Nat
  launch : Nat
  version : Nat
  level : Nat
  deriving DecidableEq, Repr, Inhabited

def sheetHdr (v : Nat) : SheetHdr :=
  { lopnd := bits v 127 64, len := bits v 63 56, rep := bits v 55 40, adv := bits v 39 24,
    launch := bits v 23 22, version := bits v 7 4, level := bits v 3 0 }

/-- The set positions of a presence mask, ascending (R114). -/
def maskPositions (m : Nat) : List Nat := (List.range 127).filter (fun i => bit m i)

/-- The classes of slot positions (Table 5.2). -/
inductive SlotClass where
  | platen | thatch | selection | update | gutter | collective | spawn | control
  deriving DecidableEq, Repr, Inhabited

def slotClass (pos : Nat) : SlotClass :=
  if pos < 64 then .platen else if pos < 96 then .thatch else if pos < 112 then .selection
  else if pos < 116 then .update else if pos = 116 then .gutter else if pos = 117 then .collective
  else if pos < 126 then .spawn else .control

/-- A kill of the context's command waits for a remote module (R319). -/
def Ctx.killHeld (x : Ctx) : Bool := match x.run with | some r => r.heldKill.isSome | none => false

/-- No beat runs for a partition's units of a die: the die's press clock stands still, and no kill that waits for a remote module has
released the halt for their command (R398).
DEDUCED: log entry 59. -/
def Chip.noBeat (c : Chip) (d : Die) (q : Nat) : Bool := (c.die d).dbg.frozen && !(c.ctx (c.ctxOf d q)).killHeld

/-- A unit's clock stands still: no beat runs for it, and it is no thatch engine, whose launched ops run on (R398). -/
def Chip.clockStopped (c : Chip) (u : UnitRef) : Bool := decide (slotClass u.pos ≠ .thatch) && c.noBeat u.die u.part

/-- The class's place in the WAITU mask and in the order of rollups (Table 5.8, R59). -/
def SlotClass.index : SlotClass → Nat
  | .platen => 0 | .thatch => 1 | .selection => 2 | .update => 3 | .gutter => 4 | .collective => 5 | .spawn => 6
  | .control => 7

/-- The order of units within a beat for FIRST_TAG (R59): platens, thatch engines, selection units of the die and then of its
stacks, update units, collective engine, Gutter merge stage. -/
def raiseOrder (pos : Nat) : Nat :=
  if pos < 112 then pos else if pos < 116 then pos + 8 else if pos = 116 then 125 else if pos = 117 then 124 else pos + 8

/-- The place of a stack's selection unit in that order. -/
def stackRaiseOrder (stack unit : Nat) : Nat := 112 + 2 * (stack % 4) + unit % 2

/-- Common slot fields (Table 5.3). -/
def slotOpc (v : Nat) : Nat := bits v 127 124
def slotBeats (v : Nat) : Nat := bits v 123 112
def slotTag (v : Nat) : Nat := bits v 111 96
def slotSig (v : Nat) : Bool := bit v 95
def slotXdie (v : Nat) : Bool := bit v 94
def slotSem (v : Nat) : Nat := bits v 93 82
def slotHalf (v : Nat) : Bool := bit v 81
def slotDlist (v : Nat) : Nat := bits v 79 64
def slotTile (v : Nat) : Nat := bits v 63 44

/-- What a TILE slot of either class asks for (Tables 5.4 and 5.5). -/
structure TileSlot where
  thatch : Bool
  tile : Nat
  maskTile : Nat
  stream : Bool
  t : Nat
  shape : Nat
  dq : Bool
  cmp : Bool
  rnd : Nat
  wide : Bool
  layerStart : Bool
  vocab : Bool
  route : Bool
  loss : Bool
  keep : Bool
  rbm : Nat
  epi : Nat
  deriving DecidableEq, Repr, Inhabited

def platenSlot (v : Nat) : TileSlot :=
  { thatch := false, tile := slotTile v, maskTile := bits v 43 24, stream := false, t := 0, shape := bits v 23 22,
    dq := bit v 21, cmp := bit v 20, rnd := bits v 19 18, wide := bit v 17, layerStart := bit v 16, vocab := false,
    route := false, loss := bit v 15, keep := bit v 14, rbm := bits v 13 12, epi := bits v 11 6 }

def thatchSlot (v : Nat) : TileSlot :=
  { thatch := true, tile := slotTile v, maskTile := 0, stream := bit v 39, t := bits v 43 40, shape := bits v 38 37,
    dq := bit v 36, cmp := bit v 35, rnd := bits v 34 33, wide := bit v 32, layerStart := bit v 31, vocab := bit v 30,
    route := bit v 29, loss := false, keep := false, rbm := 0, epi := bits v 28 23 }

/-- The epilogue steps EPI enables: partial 0, constant 1, bias 2, ReLU 3, dropout 4, residual 5. -/
def TileSlot.has (t : TileSlot) (i : Nat) : Bool := bit t.epi i

/-- Selection slot fields (Table 5.6). -/
def selMode (v : Nat) : Nat := bits v 43 42
def selK (v : Nat) : Nat := bits v 41 35
/-- Update slot fields. -/
def updOcfg (v : Nat) : Nat := bits v 43 36
def updDefer (v : Nat) : Bool := bit v 35
/-- Gutter slot fields. -/
def gutToken (v : Nat) : Nat := bits v 63 32
def gutCount (v : Nat) : Nat := bits v 31 12
def gutK (v : Nat) : Nat := bits v 11 5
/-- Collective slot fields. -/
def colGroup (v : Nat) : Nat := bits v 63 52
def colTimeout (v : Nat) : Nat := bits v 51 40
/-- Spawn slot fields. -/
def spProg (v : Nat) : Nat := bits v 63 48
def spCount (v : Nat) : Nat := bits v 47 28
def spBind (v : Nat) : Nat := bits v 27 26
def spTarget (v : Nat) : Nat := bits v 25 22

/-- Execution i of an entry uses DLIST + i × ADV (R126). -/
def Entry.dlist (e : Entry) : Nat := slotDlist e.slot.toNat + e.i * e.adv
def Entry.tile (e : Entry) : Nat := slotTile e.slot.toNat + e.i * e.adv
def Entry.maskTile (e : Entry) : Nat := bits e.slot.toNat 43 24 + e.i * e.adv
def Entry.token (e : Entry) : Nat := gutToken e.slot.toNat + e.i * gutCount e.slot.toNat
def Entry.tag (e : Entry) : Nat := slotTag e.slot.toNat
def Entry.opc (e : Entry) : Nat := slotOpc e.slot.toNat

/-- The TILE fields of the execution an entry is at, by its slot position. -/
def Entry.tileSlot (e : Entry) (pos : Nat) : TileSlot :=
  let t := if pos < 64 then platenSlot e.slot.toNat else thatchSlot e.slot.toNat
  { t with tile := e.tile, maskTile := e.maskTile }

/-! ### Descriptors -/

/-- A descriptor of role 1 to 9 (Table 6.2). -/
structure Desc where
  space : Nat
  cache : Bool
  scl : Nat
  fmt : Nat
  role : Nat
  addr : Nat
  tag : Nat
  saddr : Nat
  ext1 : Nat
  ext0 : Nat
  lcount : Nat
  lvalid : Bool
  lxdie : Bool
  lpair : Nat
  stride : Nat
  altValid : Bool
  altScl : Nat
  altFmt : Nat
  altAddr : Nat
  ptag : Nat
  altSaddr : Nat
  sstat : Bool
  pdie : Bool
  galley : Nat
  deriving DecidableEq, Repr, Inhabited

def wordOf (ws : List W64) (i : Nat) : Nat := (ws.getD i 0).toNat

def descOf (ws : List W64) : Desc :=
  let w := wordOf ws
  { space := bits (w 0) 63 62, cache := bit (w 0) 60, scl := bits (w 0) 59 56, fmt := bits (w 0) 55 52,
    role := bits (w 0) 51 48, addr := bits (w 0) 47 0,
    tag := bits (w 1) 63 48, saddr := bits (w 1) 47 0, ext1 := bits (w 2) 63 32, ext0 := bits (w 2) 31 0,
    lcount := bits (w 3) 61 46, lvalid := bit (w 3) 45 && decide (bits (w 0) 51 48 ≠ 0), lxdie := bit (w 3) 44, lpair := bits (w 3) 43 32,
    stride := bits (w 3) 31 0, altValid := bit (w 4) 56, altScl := bits (w 4) 55 52, altFmt := bits (w 4) 51 48,
    altAddr := bits (w 4) 47 0, ptag := bits (w 5) 63 48, altSaddr := bits (w 5) 47 0, sstat := bit (w 6) 3,
    pdie := bit (w 6) 2, galley := bits (w 6) 1 0 }

/-- The non-zero reserved fields of a descriptor of role 1 to 9 (Table 6.2). -/
def descReserved (ws : List W64) : Bool :=
  let w := wordOf ws
  bit (w 0) 61 || decide (bits (w 3) 63 62 ≠ 0) || decide (bits (w 4) 63 57 ≠ 0) ||
  decide (bits (w 6) 63 4 ≠ 0) || decide (w 7 ≠ 0)

/-- A tile header (R141). -/
structure TileHdr where
  k : Nat
  rows : Nat
  cols : Nat
  const : W32
  ks : W32
  p16 : Nat
  deriving DecidableEq, Repr, Inhabited

def tileHdr (ws : List W64) : TileHdr :=
  let w := wordOf ws
  { k := bits (w 1) 31 0, rows := bits (w 1) 63 32, cols := bits (w 2) 31 0, const := BitVec.ofNat 32 (bits (w 2) 63 32),
    ks := BitVec.ofNat 32 (bits (w 3) 31 0), p16 := bits (w 3) 47 32 }

def tileHdrReserved (ws : List W64) : Bool :=
  let w := wordOf ws
  decide (bits (w 0) 63 52 ≠ 0) || decide (bits (w 0) 47 0 ≠ 0) || decide (bits (w 3) 63 48 ≠ 0) ||
  decide (w 4 ≠ 0) || decide (w 5 ≠ 0) || decide (w 6 ≠ 0) || decide (w 7 ≠ 0)

/-- SCL: bits 1:0 GS, bit 2 SF, bit 3 reserved; group size and scale format (R40, Table 2.5). -/
def Desc.group (d : Desc) : Nat := groupOfScl d.scl
where groupOfScl (s : Nat) : Nat := match s % 4 with | 0 => 0 | 1 => 32 | 2 => 64 | _ => 128

def Desc.scaleE4M3 (d : Desc) : Bool := bit d.scl 2
def Desc.scaled (d : Desc) : Bool := decide (d.group ≠ 0)

/-- The narrow view or the wide view of a tensor (R78, R140). -/
def Desc.wideView (d : Desc) : Desc := { d with fmt := d.altFmt, scl := d.altScl, addr := d.altAddr, saddr := d.altSaddr }

/-- A fetched list, the descriptors in the forms their feeder chose (R78). -/
def viewList (dl : List (List W64)) (wides : List Nat) : List Desc :=
  dl.zipIdx.map (fun p => if wides.contains p.2 then (descOf p.1).wideView else descOf p.1)

/-- The descriptor at a role in a list. -/
def findRole (ds : List Desc) (r : Nat) : Option Desc := ds.find? (fun d => decide (d.role = r))

/-- Row stride in elements: with one row it is never used (R140). -/
def Desc.bitOff (d : Desc) (w i j : Nat) : Nat := (j * (if d.ext1 ≤ 1 then 0 else d.stride) + i) * w

/-- The offset of the scale byte of element (i, j) from SADDR (R140). -/
def Desc.scaleOff (d : Desc) (i j : Nat) : Nat :=
  let g := d.group
  if g = 0 then 0 else j * (if d.ext1 ≤ 1 then 0 else d.stride) / g + i / g

/-- The places of a list's descriptors that meet a condition. -/
def descPlaces (p : Desc → Bool) (ds : List Desc) : List Nat := (ds.zipIdx.filter (fun x => p x.1)).map (·.2)

/-- The descriptors of a list that are destinations of its op: the roles 3, 4 and 8 of a TILE, the range of an RBCLR, the output of
a SELECT, the outputs of a collective op and of a built-in program (R120, R150, R175, R241, R242). Gradients and other inputs of
ROLE 8 are operands. `v` is the slot, `ws` the list's parameter block, `root` says that this participant is the group's first. -/
def destPlaces (pos opc v : Nat) (root : Bool) (ds : List Desc) (ws : List W64) : List Nat :=
  match slotClass pos with
  | .platen => if opc = 2 then [0] else descPlaces (fun g => decide (g.role = 3) || decide (g.role = 4) || decide (g.role = 8)) ds
  | .thatch => descPlaces (fun g => decide (g.role = 3)) ds
  | .selection => [2]
  | .collective =>
    match opc with
    | 1 => if bit (wordOf ws 7) 63 then [ds.length - 1] else []
    | 2 => if bit (wordOf ws 7) 63 then [ds.length - 1] else []
    | 3 => [2]
    | 4 => if bit (wordOf ws 0) 33 then [2] else [3, 4]
    | 5 => if bit (wordOf ws 0) 32 then [] else [2]
    | 6 => if root then [] else [1]
    | _ => [2]
  | .spawn => if 0xF000 ≤ spProg v then [ds.length - 1] else []
  | _ => []

/-- The byte runs of a tensor, one for each outer row (R140). -/
def Desc.runs (g : Desc) : List (Nat × Nat) :=
  let w := fmtWidth g.fmt
  (List.range g.ext1).map (fun j => (g.addr + g.bitOff w 0 j / 8, ceilDiv (g.ext0 * w) 8))

/-- The byte runs of a tensor's scales. -/
def Desc.scaleRuns (g : Desc) : List (Nat × Nat) :=
  if g.group = 0 then [] else
  (List.range g.ext1).map (fun j => (g.saddr + g.scaleOff 0 j, ceilDiv g.ext0 g.group))

/-- The bytes written through a destination, with its scales unless they are only read. -/
def Desc.outs (g : Desc) (scales : Bool) : List Out :=
  (g.runs ++ (if scales then g.scaleRuns else [])).map (fun r => { space := g.space, addr := r.1, len := r.2, red := decide (g.role = 8) })

/-- A descriptor of a stack compositor's spawn with its stack put into the address bits 26:25 of a SPACE 2 access; an offset beyond
a shared store stays out of range. -/
def Desc.inStack (g : Desc) (target : Nat) : Desc :=
  let at' (a : Nat) : Nat := if a < 2 ^ 25 then a + (target - 1) * 2 ^ 25 else 2 ^ 47
  if g.space = 2 then { g with addr := at' g.addr, saddr := at' g.saddr } else g

/-- The bytes an op reads through the list of its entry: every descriptor but a tile header and the destinations, in the form it is
read in. A compiled program reads what its threads load. -/
def listReads (pos opc v : Nat) (dl : List (List W64)) (wides dests : List Nat) : List Out :=
  if slotClass pos = .spawn ∧ spProg v < 0xF000 then [] else
  (viewList dl wides).zipIdx.flatMap (fun p =>
    if (p.1.role = 0 ∧ pos < 96 ∧ opc = 1) ∨ dests.contains p.2 then []
    else (if slotClass pos = .spawn ∧ spTarget v ≠ 0 then p.1.inStack (spTarget v) else p.1).outs true)

/-! ### Store regions -/

/-- The bounds in bytes contain an access. -/
def Bounds.holds (b : Bounds) (off n : Nat) : Bool := decide (b.base * 4096 ≤ off) && decide (off + n ≤ b.limit * 4096)

/-- The bounds in bytes meet an access. -/
def Bounds.meets (b : Bounds) (off n : Nat) : Bool := decide (off < b.limit * 4096) && decide (b.base * 4096 < off + n)

/-- The platen-store region index a SPACE 1 role lies in (Table 6.3): 5 data, 4 reduction buffer. -/
def roleRegion (role : Nat) : Nat := if role = 8 then 4 else 5

end Sys2Proof.Machine
end

