-- ==== Sys2Proof/Machine/Trap.lean ====
section
/-!
DEFINITION. How a command ends early: the first failing part, units that abandon their ops, traps, mid-stream faults,
aborts sent to peers (R136, R156, R157, R246).
-/
namespace Sys2Proof.Machine

/-! ### Bytes left undefined -/

/-- `n` free bytes.
DESIGN CHOICE: log entry 5. -/
def Chip.freeBytes (c : Chip) (n : Nat) : List Byte × Chip :=
  ((List.range n).map (fun i => Config.freeByte (c.fresh + i)), { c with fresh := c.fresh + n })

/-- The stack and offset of an address in a shared store: a thatch engine's own stack; for the collective engine and a stack
compositor's spawn the stack position that address bits 26:25 name.
DESIGN CHOICE: log entry 95. -/
def sharedPlace (d : Die) (pos addr : Nat) : Nat × Nat :=
  if pos < 96 then (stackOfTe d (pos - 64), addr) else (d.num * 4 + bits addr 26 25, bits addr 24 0)

/-- Store bytes where a unit's SPACE and address say, with no check: context memory, the unit's own store (for units
that have none, the platen that address bits 28:23 name), the shared store of a stack. -/
def Chip.putSpace (c : Chip) (n : Nat) (d : Die) (pos space addr : Nat) (bs : List Byte) : Chip :=
  match space with
  | 0 => (c.writeVa n addr bs).1
  | 1 =>
    if pos < 64 then { c with platenMem := mwrite c.platenMem (platenKey d pos addr) bs }
    else if pos < 96 then { c with engineMem := mwrite c.engineMem (engineKey d (pos - 64) addr) bs }
    else { c with platenMem := mwrite c.platenMem (platenKey d (bits addr 28 23) (bits addr 22 0)) bs }
  | _ => let p := sharedPlace d pos addr; { c with sharedMem := mwrite c.sharedMem (sharedKey p.1 p.2) bs }

/-- Read bytes by SPACE and address, with no check. -/
def Chip.getSpace (c : Chip) (n : Nat) (d : Die) (pos space addr len : Nat) : List Byte :=
  match space with
  | 0 => (List.range len).map (fun i => c.peek n .active (addr + i))
  | 1 =>
    if pos < 64 then mread c.platenMem (platenKey d pos addr) len
    else if pos < 96 then mread c.engineMem (engineKey d (pos - 64) addr) len
    else mread c.platenMem (platenKey d (bits addr 28 23) (bits addr 22 0)) len
  | _ => let p := sharedPlace d pos addr; mread c.sharedMem (sharedKey p.1 p.2) len

/-- Make bytes that an op wrote or was to write free bytes (R136, R156).
DESIGN CHOICE: log entry 5. -/
def Chip.scrambleOut (c : Chip) (n : Nat) (d : Die) (pos : Nat) (o : Out) : Chip :=
  let f := c.freeBytes o.len
  if o.inactive then (f.2.writeVaAs n .update o.addr f.1).1 else f.2.putSpace n d pos o.space o.addr f.1

/-- Where a unit's bytes lie: context memory with its active and inactive pages, a platen's store, an engine's store, the shared
stores; and the address there. -/
def Out.place (o : Out) (d : Die) (pos : Nat) : Nat × Nat :=
  match o.space with
  | 0 => (b2n o.inactive, o.addr)
  | 1 =>
    if pos < 64 then (2, platenKey d pos o.addr) else if pos < 96 then (3, engineKey d (pos - 64) o.addr)
    else (2, platenKey d (bits o.addr 28 23) (bits o.addr 22 0))
  | _ => let p := sharedPlace d pos o.addr; (4, sharedKey p.1 p.2)

/-- The bytes of an access that another one touches. -/
def Wrote.shares (x y : Wrote) : Option Wrote :=
  let a := x.out.place x.die x.pos
  let b := y.out.place y.die y.pos
  let lo := max a.2 b.2
  let hi := min (a.2 + x.out.len) (b.2 + y.out.len)
  if a.1 = b.1 ∧ lo < hi then some { x with out := { x.out with addr := x.out.addr + (lo - a.2), len := hi - lo } } else none

/-- The ops in progress that have done their work and not completed, with what they write. -/
def Chip.unsettled (c : Chip) (q : Nat) : List Wrote :=
  [Die.w, Die.e].flatMap (fun d => match c.stream d q with
    | none => []
    | some s => s.units.flatMap (fun kv => match kv.2.op with
        | some o => if o.worked && !o.recorded then o.outs.map (fun x => { die := d, pos := kv.1, out := x, id := o.id }) else []
        | none => []))

/-- The bytes that two ops touch with no order between them, at least one of the two writing, are undefined (R132): those of the op in
progress on a unit and of the others of its run, as far as they have been touched. Stores of threads that meet are R168's.
DEDUCED: log entry 77. -/
def Chip.raceBytes (c : Chip) (u : UnitRef) (id : Nat) (outs ins : List Out) : Chip :=
  let n := c.ctxOf u.die u.part
  match (c.ctx n).run with
  | none => c
  | some r =>
    let known := r.order.of (.unit u.die u.pos)
    let free (x : Wrote) : Bool := decide (x.id ≠ id) && !known.contains x.id
    let here (l : List Out) : List Wrote := l.map (fun x => { die := u.die, pos := u.pos, out := x, id := id })
    let wrote := (r.wrote ++ c.unsettled u.part).filter free
    let meet (xs ys : List Wrote) : List Wrote := xs.flatMap (fun x => ys.filterMap (fun y =>
      if x.out.tid.isSome && y.out.tid.isSome then none else x.shares y))
    (meet wrote (here (outs ++ ins)) ++ meet (r.reads.filter free) (here outs)).foldl (fun c w => c.scrambleOut n w.die w.pos w.out) c

/-- Make every byte an abandoned op was to write a free byte, whether written or not (R136, R156). -/
def Chip.scramble (c : Chip) (n : Nat) (d : Die) (pos : Nat) (o : Op) : Chip :=
  if o.completed then c else o.outs.foldl (fun c x => c.scrambleOut n d pos x) c

/-- A mid-stream fault leaves undefined what the command's completed ops wrote in data regions, inactive pages and memory (R156):
all of it but the reduction buffers.
DESIGN CHOICE: log entry 5. -/
def Chip.scrambleRun (c : Chip) (n : Nat) : Chip :=
  match (c.ctx n).run with
  | none => c
  | some r =>
    let c := r.wrote.foldl (fun c w => if w.out.red then c else c.scrambleOut n w.die w.pos w.out) c
    c.modRun n (fun r => { r with wrote := [], faulted := true })

/-! ### The end of a run -/

/-- A failing part comes before another: the beat that began earlier, then Die W, then the lower slot (R157). -/
def EndStatus.before (e f : EndStatus) : Bool :=
  decide (e.beatAt < f.beatAt) || (decide (e.beatAt = f.beatAt) &&
    ((!e.fdie && f.fdie) || (decide (e.fdie = f.fdie) && decide (e.first < f.first))))

/-- A run's part fails: the first failing part is kept, all are counted (R157, Table 14.4). -/
def Chip.fail (c : Chip) (n : Nat) (e : EndStatus) : Chip :=
  c.modRun n (fun r =>
    match r.finish with
    | none => { r with finish := some { e with nparts := 1 } }
    | some f =>
      if f.nparts = 0 then r
      else { r with finish := some { (if e.before f then e else f) with nparts := satAdd f.nparts 1 } })

/-- A run ends with a status and no failing part. -/
def Chip.finish (c : Chip) (n : Nat) (e : EndStatus) : Chip :=
  c.modRun n (fun r => match r.finish with | none => { r with finish := some e } | some _ => r)

/-- Kinds of messages to other modules. -/
def msgAbort : Nat := 0
def msgVote : Nat := 1
def msgData : Nat := 2
def msgProof : Nat := 3
def msgProofRefused : Nat := 4
def msgBytes : Nat := 5
def msgReadRequest : Nat := 6
def msgRecord : Nat := 7

/-- The collective ops of a stream that have started and not completed: the one in progress, and those that are held. -/
def Stream.collectives (s : Stream) : List Op :=
  (match (s.unit 117).op with
    | some o => if o.e.opc = 0 || o.completed then [] else [o]
    | none => []) ++ s.bucket

/-- The groups of those ops. -/
def Stream.liveGroups (s : Stream) : List Nat := (s.collectives.map (fun o => colGroup o.e.slot.toNat)).eraseDups

/-- The group of the first of those ops. -/
def Stream.liveGroup (s : Stream) : Option Nat := s.liveGroups.head?

/-- Record the first abort in CE_ABORT (Table 10.8). -/
def Ce.abort (k : Ce) (cause group peer : Nat) (time : W64) : Ce :=
  if k.ab.notice then { k with ab := k.ab.event time }
  else { k with ab := k.ab.event time, abCause := BitVec.ofNat 4 cause, abGroup := BitVec.ofNat 12 group,
                abPeer := BitVec.ofNat 10 peer }

/-- Send an abort of a group's op to every other participant (R136, R246). -/
def Chip.sendAborts (c : Chip) (d : Die) (s : Stream) (group : Nat) (status : Nat) : Chip :=
  let g := tget {} s.image.groups group
  let self := c.domain.moduleId.toNat + 2 ^ 10 * d.num
  g.plist.foldl (fun c p => if p.toNat % 2 ^ 11 = self then c else
    c.send msgAbort (p.toNat % 2 ^ 11) (leBytes 2 group ++ leBytes 2 status)) c

/-- Every thread of a partition on a die and its stacks ends. -/
def DieSt.dropThreads (m : DieSt) (q : Nat) : DieSt :=
  let live (t : Option Thread) : Bool := match t with | some x => decide (x.part ≠ q) | none => true
  { m with threads := m.threads.filter (fun kv => live kv.2),
           spawns := tmap [] (fun _ l => l.filter (fun t => decide (t.part ≠ q))) m.spawns }

/-- The link takes of a partition's units no longer wait, and its signals on their way to a die come to nothing (R149). -/
def DieSt.dropPart (m : DieSt) (q : Nat) (u : Die) : DieSt :=
  { m with asks := m.asks.filter (fun a => !(decide (a.u.part = q) && decide (a.u.die = u))) }

/-- An OPEN of a partition is abandoned: its range closes, and the records that have come for it and those on their way go with it.
DEDUCED: log entry 36. -/
def Gutter.abandon (g : Gutter) (q : Nat) : Gutter :=
  { g with merge := tfilter (fun k _ => decide (k / 2 ^ 32 ≠ q)) g.merge, ranges := tfilter (fun k _ => decide (k ≠ q)) g.ranges,
           lanes := tmap [] (fun _ l => l.filter (fun r => decide (r.part.toNat ≠ q))) g.lanes,
           remote := g.remote.filter (fun r => decide (r.2.part.toNat ≠ q)),
           asking := g.asking.filter (fun r => decide (r.2.part.toNat ≠ q)) }

/-- A stream stops: no more issue, every unit abandons its op and empties its queue, its platens' galleys empty (R136 steps 1
to 3).
DEDUCED: log entry 32. -/
def Chip.stopStream (c : Chip) (d : Die) (q : Nat) (st : BitVec 4) (status : Nat) : Chip :=
  match c.stream d q with
  | none => c
  | some s =>
    let c := s.liveGroups.foldl (fun c g => c.sendAborts d s g status) c
    let c := s.units.foldl (fun c kv =>
      match kv.2.op with
      | some o => c.scramble s.ctx d kv.1 o
      | none => c) c
    let c := s.bucket.foldl (fun c o => c.scramble s.ctx d 117 o) c
    let c := c.modStream d q (fun s =>
      { s with units := [], bucket := [], wait := .none, stopped := true, trapDue := false, trapComing := none, commitAfter := false })
    let c := c.modDie d (fun m => { m.dropThreads q with gut := m.gut.abandon q })
    let c := (c.modDie .w (fun m => m.dropPart q d)).modDie .e (fun m => m.dropPart q d)
    let c := s.units.foldl (fun c kv => if kv.1 < 64 then c.modPlaten d kv.1 (fun p => { p with flows := [] }) else c) c
    let c := { c with stks := tmap {} (fun _ k => { k with logits := k.logits.filter (fun l => !(decide (l.part = q) && decide (l.ctx = s.ctx))) }) c.stks }
    c.modSide s.ctx d (fun k => { k with imp := { k.imp with state := st, waitKind := 0 } })

/-- The other die is told to stop: the trap or fault reaches it within 200 ns, and its next beat boundary after that stops it
(R136 step 1). -/
def Chip.tellOther (c : Chip) (d : Die) (q : Nat) : Chip :=
  let t := (c.die d).ridge + 200
  c.modStream d.other q (fun s => if s.stopped || s.trapDue then s else { s with trapComing := s.trapComing <|> some t })

/-- A failing unit abandons its op and empties its queue; the threads of a failing spawn end. -/
def Chip.abandonUnit (c : Chip) (d : Die) (q pos : Nat) : Chip :=
  match c.stream d q with
  | none => c
  | some s =>
    let c := match (if pos = 117 then s.liveGroup else none) with | some g => c.sendAborts d s g 0x0407 | none => c
    let c := match (s.unit pos).op with | some o => c.scramble s.ctx d pos o | none => c
    let c := if pos < 64 then c.modPlaten d pos (fun p => { p with flows := [] }) else c
    let c := c.modStream d q (fun s => { s with units := tput {} s.units pos {} })
    if pos = 116 then c.modDie d (fun m => { m with gut := m.gut.abandon q })
    else if 118 ≤ pos ∧ pos < 126 then
      let keep (t : Thread) : Bool := !(decide (t.part = q) && decide (t.spawn + 118 = pos))
      c.modDie d (fun m =>
        { m with threads := m.threads.filter (fun kv => match kv.2 with | some t => keep t | none => true),
                 spawns := tmap [] (fun _ l => l.filter keep) m.spawns })
    else c

/-- A part of a die fails: its unit stops now, the rest of the stream at the die's next boundary, so that parts that fail in
the same beat are counted and compared (R136 step 1, R157). -/
def Chip.stopFrom (c : Chip) (d : Die) (q pos : Nat) (st : BitVec 4) : Chip :=
  ((c.abandonUnit d q pos).modStream d q (fun s =>
    { s with trapDue := true, stopSt := if st = 4 then 4 else s.stopSt })).tellOther d q

/-- A recorded trap overwrites nothing while VALID is 1 (R137). -/
def Imp.trap (i : Imp) (slot cause code : Nat) (pc : W32) : Imp :=
  if i.trapValid then i else
  { i with trapValid := true, trapCause := BitVec.ofNat 8 cause, trapSlot := BitVec.ofNat 7 slot, trapCode := BitVec.ofNat 16 code, trapPc := pc }

/-- Raise a stream trap at a slot position of a stream that has not stopped (R136): CTX_IMP_TRAP keeps the first one, the command
ends with no commit. -/
def Chip.raiseTrap (c : Chip) (d : Die) (q slot cause code : Nat) (pc : W32) : Chip :=
  match c.stream d q with
  | none => c
  | some s =>
    if s.stopped then c else
    let n := s.ctx
    let c := c.modSide n d (fun k => { k with imp := k.imp.trap slot cause code pc })
    let status : Nat := if cause = 0x0F then 0x0406 else 0x0110
    let detail : Nat := if cause = 0x0F then 0 else cause + code * 256
    let c := c.fail n { status := BitVec.ofNat 16 status, detail := BitVec.ofNat 32 detail, fdie := decide (d = .e),
                        first := BitVec.ofNat 7 slot, beatAt := (c.die d).beatAt }
    if slot < 126 then c.stopFrom d q slot 4 else (c.stopStream d q 4 0x0407).tellOther d q

/-- The status of a fault kind (R156). -/
def faultStatus (kind : BitVec 4) : W16 :=
  if kind = faultEcc then 0x0701 else if kind = faultKey then 0x0601 else if kind = faultRbw then 0x0602 else 0x0111

/-- A mid-stream fault (R156, R157): recorded once in CTX_FAULT, the command aborts on both dies. -/
def Chip.midFault (c : Chip) (d : Die) (q pos desc list : Nat) (f : AccFault) : Chip :=
  match c.stream d q with
  | none => c
  | some s =>
    if s.stopped then c else
    let n := s.ctx
    let first := !(c.side n d).fault.valid || (decide (pos < s.faultPos) && decide (s.faultPos < 128))
    let c := c.modSide n d (fun k =>
      if !first then k else
      { k with fault := { valid := true, kind := f.kind, unit := BitVec.ofNat 7 pos, desc := BitVec.ofNat 10 desc,
                          addr := f.addr, list := BitVec.ofNat 16 list } })
    let c := c.modStream d q (fun s => { s with faultPos := if first then pos else s.faultPos })
    let c := c.fail n { status := faultStatus f.kind, detail := BitVec.ofNat 32 (f.kind.toNat + desc * 16), fdie := decide (d = .e),
                        first := BitVec.ofNat 7 pos, beatAt := (c.die d).beatAt }
    (c.scrambleRun n).stopFrom d q pos 3

/-- A fault of the op in progress on a unit at a descriptor. -/
def Chip.opFault (c : Chip) (u : UnitRef) (desc : Nat) (f : AccFault) : Chip :=
  let list := match c.op u with | some o => o.e.dlist | none => 0
  c.midFault u.die u.part u.pos desc list f

/-- The offset of the sheet a unit's op came from. -/
def Chip.opPc (c : Chip) (u : UnitRef) : W32 := match c.op u with | some o => o.e.pc | none => 0

/-- A trap of the op in progress on a unit. -/
def Chip.opTrap (c : Chip) (u : UnitRef) (cause : Nat) : Chip := c.raiseTrap u.die u.part u.pos cause 0 (c.opPc u)

end Sys2Proof.Machine
end

