-- ==== Sys2Proof/Machine/Stream.lean ====
section
/-!
DEFINITION. The Imposition stream of chapter 5: starting a stream, decoding a sheet with its checks, control
operations, ops that start, complete and are recorded, and the events of traps and halts.
-/
namespace Sys2Proof.Machine

/-! ### Running and ended streams -/

/-- The stream still issues: it has not stopped and no HALT has issued. -/
def Stream.live (s : Stream) : Bool := !s.stopped && !s.halted

def Chip.imp (c : Chip) (d : Die) (q : Nat) : Imp := (c.side (c.ctxOf d q) d).imp
def Chip.modImp (c : Chip) (d : Die) (q : Nat) (f : Imp → Imp) : Chip :=
  c.modSide (c.ctxOf d q) d (fun k => { k with imp := f k.imp })

/-- The Ridge counter of a die's press domain. -/
def Chip.ridgeOf (c : Chip) (d : Die) : W64 := (c.die d).ridge

/-- WAIT_KIND of Table 5.10. -/
def Wait.kind : Wait → BitVec 4
  | .none => 0
  | .ridge _ => 1
  | .semLaunch _ _ _ => 2
  | .wait _ _ _ _ => 3
  | .waitu _ => 4
  | .rwait _ => 5
  | .queueFull => 6
  | .fetch => 7

/-- Set the stream's wait and show it in CTX_IMP_STATUS. -/
def Chip.setWait (c : Chip) (d : Die) (q : Nat) (w : Wait) : Chip :=
  (c.modStream d q (fun s => { s with wait := w })).modImp d q (fun i =>
    { i with waitKind := w.kind, state := if w = .none then 1 else 2 })

/-- The semaphore pairs of a partition on a die become zero (R149). -/
def Chip.zeroSems (c : Chip) (d : Die) (q : Nat) : Chip :=
  let lo := c.pair q 0
  let n := (c.part q).semCnt.toNat * 64
  c.modDie d (fun m => { m with sems := tfilter (fun k _ => !(decide (lo ≤ k) && decide (k < lo + n))) m.sems })

/-- A command starts on a partition: its collective ops are numbered from 0 again on both dies, and nothing has come for them (R237). -/
def Chip.startCommand (c : Chip) (q : Nat) : Chip :=
  let one (m : DieSt) : DieSt :=
    { m with ce := { m.ce with next := tfilter (fun k _ => decide (k / 4096 ≠ q)) m.ce.next
                               inbox := m.ce.inbox.filter (fun a => decide (a.part ≠ q)) } }
  (c.modDie .w one).modDie .e one

/-- A command starts a stream on a die (R113, R149, R68): empty queues, counters as given, the step register, the first
sheet, the partition's pairs at zero with no signal of an earlier command on its way to them, the region bounds of the
partition's platens. -/
def Chip.startDie (c : Chip) (d : Die) (q n : Nat) (img : DieImage) (entry : W32) (start : W64) (step : W48) (cnt : Tab W32) : Chip :=
  let held := match d with | .w => (c.part q).ptW.toNat | .e => (c.part q).ptE.toNat
  let c := c.zeroSems d q
  let c := (List.range 64).foldl (fun c p =>
    if bit held p then c.modPlaten d p (fun x => { x with regions := tget [] img.platens p, flows := [], reduced := [] }) else c) c
  let c := c.modDie d (fun m =>
    { m with cross := m.cross.filter (fun x => decide (x.part ≠ q))
             asks := m.asks.filter (fun a => decide (a.u.part ≠ q)) })
  let c := c.learn n (.stream d) (match (c.ctx n).run with | some r => (List.range r.order.count).map (· + 1) | none => [])
  let c := c.setStream d q (some { ctx := n, image := img, cnt := cnt, start := start,
                                   bufLo := entry.toNat * 16, bufHi := entry.toNat * 16 })
  c.modSide n d (fun k => { k with imp := { k.imp with state := 1, waitKind := 0, pc := entry, step := step } })

/-! ### Sheets -/

/-- The bytes of a die's sheet section, as numbers of 16 bytes. Of a section written while the command runs, sheets fetched before
stand as they were, those fetched afterwards are undefined (R361). -/
def Chip.sheet16 (c : Chip) (n : Nat) (img : DieImage) (off : Nat) : Nat :=
  match img.spoiled with
  | some k => (tget none img.kept (off / 16)).getD (Config.sheetWord k off).toNat
  | none => c.sheetBytes n img off

/-- Typed control operations (Table 5.8). -/
inductive CtlOp where
  | nop
  | wait (sem : BitVec 12) (half : Bool) (count : W16) (timeout : BitVec 20)
  | waitu (classes : BitVec 7)
  | ldcnt (cnt : BitVec 3) (value : W32)
  | loop (cnt : BitVec 3) (target : BitVec 24)
  | jump (target : BitVec 24)
  | rwait (time : W64)
  | widen (tag : W16) (region : W16)
  | signal (sem : BitVec 12) (half xdie : Bool) (count : W16)
  | step (add : Bool) (value : W48)
  | commit
  | halt
  | trap (code : W16)
  deriving DecidableEq, Repr, Inhabited

/-- The operation of a control slot; none for a reserved opcode. -/
def ctlOf (v : Nat) : Option CtlOp :=
  match slotOpc v with
  | 0 => some .nop
  | 1 => some (.wait (BitVec.ofNat 12 (bits v 79 68)) (bit v 67) (BitVec.ofNat 16 (bits v 66 51)) (BitVec.ofNat 20 (bits v 50 31)))
  | 2 => some (.waitu (BitVec.ofNat 7 (bits v 79 73)))
  | 3 => some (.ldcnt (BitVec.ofNat 3 (bits v 79 77)) (BitVec.ofNat 32 (bits v 31 0)))
  | 4 => some (.loop (BitVec.ofNat 3 (bits v 79 77)) (BitVec.ofNat 24 (bits v 23 0)))
  | 5 => some (.jump (BitVec.ofNat 24 (bits v 23 0)))
  | 6 => some (.rwait (BitVec.ofNat 64 (bits v 63 0)))
  | 7 => some (.widen (BitVec.ofNat 16 (slotTag v)) (BitVec.ofNat 16 (bits v 79 64)))
  | 8 => some (.signal (BitVec.ofNat 12 (bits v 79 68)) (bit v 67) (bit v 66) (BitVec.ofNat 16 (bits v 65 50)))
  | 9 => some (.step (bit v 79) (BitVec.ofNat 48 (bits v 47 0)))
  | 10 => some .commit
  | 11 => some .halt
  | 12 => some (.trap (BitVec.ofNat 16 (bits v 15 0)))
  | _ => none

/-- The present die's COMMIT has issued in the running step. -/
def Chip.commitIssued (c : Chip) (n : Nat) (d : Die) : Bool :=
  match (c.ctx n).run with
  | some r => r.isStep && (match d with | .w => r.issuedW | .e => r.issuedE)
  | none => false

/-- What is wrong with a control operation: cause and CODE (Table 5.9, R311). -/
def Chip.ctlCheck (c : Chip) (d : Die) (q : Nat) (op : CtlOp) : Option (Nat × Nat) :=
  match op with
  | .wait sem _ count _ =>
    if count = 0 then some (0x07, 0) else if c.semOk q sem.toNat then none else some (0x14, 0)
  | .signal sem _ _ count =>
    if count = 0 then some (0x07, 0) else if c.semOk q sem.toNat then none else some (0x14, 0)
  | .widen tag region =>
    if region = 0 then some (0x07, 0) else if c.tagOk q tag.toNat then none else some (0x14, 0)
  | .commit => if c.commitIssued (c.ctxOf d q) d then some (0x07, 0) else none
  | .trap code => some (0x0E, code.toNat)
  | _ => none

/-- A unit slot names a unit the partition holds (R309, R311); Gutter, collective engine and spawn slots are shared. -/
def Chip.unitHeld (c : Chip) (d : Die) (q pos : Nat) : Bool :=
  let p := c.part q
  match slotClass pos with
  | .platen => bit (match d with | .w => p.ptW.toNat | .e => p.ptE.toNat) pos
  | .thatch => bit p.te.toNat (pos - 64 + 32 * d.num)
  | .selection => bit p.su.toNat (pos - 96 + 16 * d.num)
  | .update => bit p.uu.toNat (pos - 112 + 4 * d.num)
  | _ => true

/-- The opcodes listed for a class (Table 5.7). -/
def opcListed (pos opc : Nat) : Bool :=
  match slotClass pos with
  | .platen => decide (opc ≤ 2)
  | .thatch => decide (opc ≤ 1)
  | .selection => decide (opc ≤ 1)
  | .update => decide (opc ≤ 1)
  | .gutter => decide (opc ≤ 2)
  | .collective => decide (opc ≤ 7)
  | .spawn => decide (opc ≤ 1)
  | .control => false

/-- Programs of the mask ROM (Table 7.4). -/
def romProg (p : Nat) : Bool := decide (p ∈ [0xF000, 0xF001, 0xF002, 0xF003, 0xF010, 0xF011, 0xF020, 0xF030])

/-- Class fields of a unit slot that are out of range: the cause of the trap (Tables 5.6, 5.9, R126, R162). -/
def fieldCause (img : DieImage) (pos v rep adv : Nat) : Option Nat :=
  let past (x lim : Nat) : Bool := decide (lim < x + rep * adv)
  let dl := past (slotDlist v) 0xFFFF
  let tl := past (slotTile v) 0xFFFFF
  match slotClass pos with
  | .platen =>
    let t := platenSlot v
    if t.rnd = 3 ∨ t.rbm = 3 ∨ dl ∨ tl ∨ past (bits v 43 24) 0xFFFFF then some 0x07 else none
  | .thatch =>
    let t := thatchSlot v
    if t.rnd = 3 ∨ (t.stream ∧ (t.t = 0 ∨ 8 < t.t)) ∨ dl ∨ tl then some 0x07
    else if t.has 4 ∨ (t.vocab ∧ t.route) then some 0x0C else none
  | .selection =>
    if selK v = 0 ∨ 64 < selK v ∨ (selMode v = 0 ∧ 8 < selK v) ∨ dl ∨ tl then some 0x07 else none
  | .update => if dl ∨ tl then some 0x07 else none
  | .gutter => if gutCount v = 0 ∨ gutK v = 0 ∨ 64 < gutK v ∨ dl then some 0x07 else none
  | .collective => if dl then some 0x07 else none
  | .spawn =>
    let p := spProg v
    let known := if p < 0xF000 then decide ((tget {} img.progs p).len ≠ 0) else romProg p
    if spBind v = 3 ∨ 4 < spTarget v ∨ spCount v = 0 ∨ dl ∨ !known then some 0x07 else none
  | .control => none

/-- What is wrong with a unit slot (R120, R126, R311). -/
def Chip.slotCause (c : Chip) (q : Nat) (d : Die) (img : DieImage) (pos v rep adv : Nat) : Option Nat :=
  if !c.unitHeld d q pos then some 0x14
  else if !opcListed pos (slotOpc v) then some 0x05
  else if slotBeats v = 0 ∧ slotOpc v ≠ 0 then some 0x06
  else
    let own := if slotOpc v = 0 then none else fieldCause img pos v rep adv
    match own with
    | some x => some x
    | none =>
      if !c.tagOk q (slotTag v) ∨ (slotSig v ∧ !c.semOk q (slotSem v)) then some 0x14 else none

/-- A decoded sheet: its offset, header and slots by position. -/
structure Sheet where
  off : W32
  hdr : SheetHdr
  slots : List (Nat × Nat)
  deriving DecidableEq, Repr, Inhabited

/-- Read a sheet of a length given by its mask. -/
def Chip.sheetSlots (c : Chip) (n : Nat) (img : DieImage) (off : Nat) (mask : Nat) : List (Nat × Nat) :=
  let ps := maskPositions mask
  (List.range ps.length).map (fun i => (ps.getD i 0, c.sheet16 n img (off + 32 + 16 * i)))

/-- The first fault of a sheet's slots in ascending position: position, cause, CODE. -/
def Chip.slotsFault (c : Chip) (d : Die) (q : Nat) (img : DieImage) (h : SheetHdr) : List (Nat × Nat) → Option (Nat × Nat × Nat)
  | [] => none
  | (pos, v) :: t =>
    let here : Option (Nat × Nat) :=
      if pos = 126 then
        match ctlOf v with
        | none => some (0x05, 0)
        | some op => c.ctlCheck d q op
      else (c.slotCause q d img pos v h.rep h.adv).map (fun x => (x, 0))
    match here with
    | some x => some (pos, x)
    | none => c.slotsFault d q img h t

/-- The launch operand of a semaphore launch is out of range (R128, R311). -/
def Chip.launchFault (c : Chip) (q : Nat) (h : SheetHdr) : Option Nat :=
  if h.launch ≠ 2 then none
  else if bits h.lopnd 31 16 = 0 then some 0x07
  else if c.semOk q (bits h.lopnd 11 0) then none else some 0x14

/-- Decode the sheet at an offset of the section (R114, R121, R136): the sheet, or the slot, cause and CODE of its trap. One trap is
raised for a sheet that fails several checks; the model takes LEVEL, VERSION, the section, LEN, LAUNCH, the launch operand and then
the slots in ascending position, because no rule orders them.
DESIGN CHOICE: log entry 94. -/
def Chip.decodeSheet (c : Chip) (d : Die) (q n : Nat) (img : DieImage) (off : W32) : Except (Nat × Nat × Nat) Sheet :=
  let b := off.toNat * 16
  if img.sheetSize < b + 32 then .error (127, 0x0D, 0) else
  let h := sheetHdr (c.sheet16 n img b)
  let mask := c.sheet16 n img (b + 16)
  if h.level ≠ 1 then .error (127, 0x01, 0)
  else if h.version ≠ 1 then .error (127, 0x02, 0)
  else if img.sheetSize < b + h.len * 16 then .error (127, 0x0D, 0)
  else if h.len ≠ 2 + popcount 127 mask then .error (127, 0x03, 0)
  else if h.launch = 3 then .error (127, 0x04, 0)
  else
    let slots := c.sheetSlots n img b mask
    match c.launchFault q h with
    | some x => .error (127, x, 0)
    | none =>
      match c.slotsFault d q img h slots with
      | some x => .error x
      | none => .ok { off := off, hdr := h, slots := slots }

/-! ### Ops -/

/-- No op of a class is queued or in progress (R121 WAITU). -/
def Stream.classIdle (s : Stream) (cls : Nat) : Bool :=
  (decide (cls ≠ 5) || s.bucket.isEmpty) &&
  s.units.all (fun kv => decide ((slotClass kv.1).index ≠ cls) ||
    (kv.2.queue.isEmpty && (match kv.2.op with
      | none => true
      | some o => o.recorded && decide (o.e.rep ≤ o.e.i))))

/-- Every issued op has completed. -/
def Stream.allIdle (s : Stream) : Bool := (List.range 7).all (fun k => s.classIdle k)

/-- Entries of a unit not yet completed. -/
def UnitQ.left (u : UnitQ) : Nat :=
  u.queue.length + (match u.op with
    | none => 0
    | some o => if o.recorded && decide (o.e.rep ≤ o.e.i) then 0 else 1)

/-- Held reductions that end their queue entry. -/
def Stream.heldLast (s : Stream) : Nat := (s.bucket.filter (fun o => decide (o.e.rep ≤ o.e.i))).length

/-- The data of a die's commit vote (R259): digest, OVF_SEEN and COMMITTABLE, step register, time. -/
def Chip.dieDigest (c : Chip) (n : Nat) (d : Die) : W64 :=
  match (c.ctx n).run with
  | none => 0
  | some r => (r.digests.filter (fun kv => decide (kv.1 / 4096 = d.num))).foldl (fun a kv => a ^^^ kv.2) 0

def Chip.voteBytes (c : Chip) (n : Nat) (d : Die) (time : W64) : List Byte :=
  let t := (c.ctx n).train
  leBytes 8 (c.dieDigest n d).toNat ++ leBytes 1 (b2n t.ovfSeen + 2 * b2n t.committable) ++
  leBytes 6 (c.side n d).imp.step.toNat ++ leBytes 8 time.toNat

/-- A die's COMMIT is recorded; with a vote group of several participants its vote goes to each other one (R217, R259). -/
def Chip.recordCommit (c : Chip) (d : Die) (q : Nat) : Chip :=
  match c.stream d q with
  | none => c
  | some s =>
    let n := s.ctx
    let time := c.ridgeOf d
    let c := c.modStream d q (fun s => { s with commitAfter := false, commitLeft := [] })
    let c := c.modRun n (fun r => match d with
      | .w => { r with commitW := true, timeW := time }
      | .e => { r with commitE := true, timeE := time })
    let g := tget {} s.image.groups c.vote.vgroup.toNat
    let self := c.domain.moduleId.toNat + 2 ^ 10 * d.num
    if g.p ≤ 1 then c else
    let data := c.voteBytes n d time
    g.plist.foldl (fun c p => if p.toNat % 2 ^ 11 = self then c else c.send msgVote (p.toNat % 2 ^ 11) data) c

/-- Record a waiting COMMIT once every op issued before it has completed (R217). -/
def Chip.tryCommit (c : Chip) (d : Die) (q : Nat) : Chip :=
  match c.stream d q with
  | some s => if s.commitAfter && s.commitLeft.isEmpty then c.recordCommit d q else c
  | none => c

/-- The additions of an op's linked descriptors at its completion (R150). -/
def Chip.linkAdds (c : Chip) (u : UnitRef) (o : Op) : Chip :=
  let ds := ((o.descs.getD []).map descOf).zipIdx
  ds.foldl (fun c p =>
    let g := p.1
    if g.lvalid && o.links.contains p.2 then
      c.signal u.die u.part g.lpair (!o.dests.contains p.2) g.lxdie g.lcount (c.opKnows u)
    else c) c

/-- The bytes an op reads through its list. -/
def Op.ins (o : Op) (pos : Nat) : List Out := listReads pos o.e.opc o.e.slot.toNat (o.descs.getD []) o.wides o.dests

/-- What a completed op touched is kept: a later mid-stream fault of the command leaves what it wrote undefined, as does one that has
come (R156), and so does an op that touches the same bytes with no order between the two (R132). -/
def Chip.keepWrites (c : Chip) (n : Nat) (u : UnitRef) (o : Op) : Chip :=
  match (c.ctx n).run with
  | some r =>
    if r.faulted then o.outs.foldl (fun c x => if x.red then c else c.scrambleOut n u.die u.pos x) c
    else
      let here (l : List Out) : List Wrote := l.map (fun x => { die := u.die, pos := u.pos, out := x, id := o.id })
      (c.raceBytes u o.id o.outs (o.ins u.pos)).modRun n (fun r => { r with wrote := r.wrote ++ here o.outs, reads := r.reads ++ here (o.ins u.pos) })
  | none => c

/-- An op's completion is recorded: link additions, its signal, the entries a COMMIT waits for (R132, R133). -/
def Chip.recordOp (c : Chip) (u : UnitRef) : Chip :=
  match c.op u with
  | none => c
  | some o =>
    let v := o.e.slot.toNat
    let c := c.modOp u (fun o => { o with worked := true, completed := true, recorded := true })
    let n := c.ctxOf u.die u.part
    let c := c.keepWrites n u o
    let ids := c.opKnows u
    let c := (c.learn n (.unit u.die u.pos) ids).learn n (.cls u.die (slotClass u.pos).index) ids
    let c : Chip := match o.fin with
      | some f =>
        let c := c.modSide n u.die (fun k => { k with gauge := tmod {} k.gauge (o.e.tag % 4096) (fun g => { f.gauge with lscope := g.lscope }) })
        c.modCtx n (fun x => match f.wrote with
          | some ps => { x with train := { x.train with written := tput false x.train.written ps true } }
          | none => x)
      | none => c
    let c := c.linkAdds u o
    let c := if slotSig v then c.signal u.die u.part (slotSem v) (slotHalf v) (slotXdie v) 1 ids else c
    if o.e.rep ≤ o.e.i then
      (c.modStream u.die u.part (fun s => { s with commitLeft := tmod 0 s.commitLeft u.pos (· - 1) })).tryCommit u.die u.part
    else c

/-- A trap or fault has reached the die: the stream's ops are abandoned and complete no more (R136). -/
def Chip.quiet (c : Chip) (d : Die) (q : Nat) : Bool := match c.stream d q with | some s => s.trapDue | none => false

/-- The platen holds issue to its formes, which delays its tile (R83). -/
def Chip.held (c : Chip) (u : UnitRef) (o : Op) : Bool := decide (u.pos < 64) && decide (o.e.opc = 1) && (c.platen u.die u.pos).hold

/-- An op completes: its work is done. A thatch op's completion is recorded later (R133); a row of the logits ring whose last slot
completes is readable from then on (R107). -/
def Chip.completeOp (c : Chip) (u : UnitRef) : Chip :=
  match c.op u with
  | none => c
  | some o =>
    if !o.worked || o.completed || c.quiet u.die u.part || c.held u o || c.clockStopped u then c
    else if slotClass u.pos = .thatch then
      (c.modStk (stackOfTe u.die (u.pos - 64)) (fun k => { k with logits := k.logits.map (fun e =>
        if e.writer = some u.pos then { e with writer := none, readable := decide (e.len ≤ e.scores.length) } else e) })).modOp u
        (fun o => { o with completed := true })
    else c.recordOp u

/-- Every linked descriptor of an op has taken its count.
DEDUCED: log entry 33. -/
def Op.linked (o : Op) : Bool :=
  ((o.descs.getD []).zipIdx).all (fun p => !(descOf p.1).lvalid || o.links.contains p.2)

/-! ### Galleys (R145 to R147) -/

/-- The operands of a platen's list that stream through galleys, in descriptor order: index, galley and 512-byte lines. A linked
one streams once its count has been taken; destinations do not stream. -/
def galleyReads (dl : List (List W64)) (wides dests links : List Nat) : List (Nat × Nat × Nat) :=
  (viewList dl wides).zipIdx.filterMap (fun p =>
    let g := p.1
    if 1 ≤ g.role ∧ g.space = 0 ∧ !dests.contains p.2 ∧ (!g.lvalid || links.contains p.2) then
      some (p.2, g.galley, ceilDiv (g.ext1 * ceilDiv (g.ext0 * fmtWidth g.fmt) 8 + (if g.scaled then g.ext1 * ceilDiv g.ext0 g.group else 0)) 512)
    else none)

/-- The lines of a galley beyond its four escape lines that no flow holds (R145, R146): a flow's first line is its escape line. -/
def Platen.spare (p : Platen) (k : Nat) : Nat :=
  let b := p.regions.getD k {}
  (b.limit - b.base) * 8 - 4 - ((p.flows.filter (fun f => decide (f.galley = k))).foldl (fun a f => a + (f.held - 1)) 0)

/-- Start the flow of an operand when one of its galley's four positions is free: it holds its escape line and as many others as
are free (R146, R147). -/
def Platen.flow (p : Platen) (ahead : Bool) (r : Nat × Nat × Nat) : Platen :=
  if (p.flows.filter (fun f => decide (f.galley = r.2.1))).length < 4 ∧ !p.flows.any (fun f => f.ahead == ahead && decide (f.desc = r.1)) ∧ 0 < r.2.2 then
    let h := min r.2.2 (1 + p.spare r.2.1)
    { p with flows := p.flows ++ [{ galley := r.2.1, ahead := ahead, desc := r.1, held := h, left := r.2.2 - h }] }
  else p

/-- Free lines go to the flows that have bytes still to read, the op in progress first. -/
def Platen.refill (p : Platen) : Platen :=
  (List.range p.flows.length).foldl (fun p i =>
    match p.flows[i]? with
    | some f =>
      let n := min f.left (p.spare f.galley)
      { p with flows := p.flows.set i { f with held := f.held + n, left := f.left - n } }
    | none => p) p

/-- The feeder of a platen runs ahead (R147): the operands of the op in progress, and those of the next queued op once every one of
the op in progress streams or has been read.
DEDUCED: log entry 76. -/
def Chip.feed (c : Chip) (u : UnitRef) : Chip :=
  if 64 ≤ u.pos then c else
  match c.stream u.die u.part with
  | none => c
  | some s =>
    let k := s.unit u.pos
    let now : Option (List (Nat × Nat × Nat)) := match k.op with
      | some o => if o.worked || decide (o.e.opc = 0) then some [] else if o.descs.isNone then none else
          some (galleyReads (o.descs.getD []) o.wides o.dests o.links)
      | none => some []
    let linked := match k.op with | some o => o.worked || o.linked | none => true
    let next : List (Nat × Nat × Nat) := match k.queue with
      | e :: _ => galleyReads (e.descs.getD []) e.wides e.dests e.links
      | [] => []
    match now with
    | none => c
    | some now => c.modPlaten u.die u.pos (fun p =>
        let p := (now.foldl (fun p r => p.flow false r) p).refill
        if linked && now.all (fun r => decide (r.2.2 = 0) || p.flows.any (fun f => !f.ahead && decide (f.desc = r.1))) then
          (next.foldl (fun p r => p.flow true r) p).refill
        else p)

/-- The consumer of an op's operands has read them: their lines are free again (R147). -/
def Chip.drained (c : Chip) (u : UnitRef) : Chip :=
  if 64 ≤ u.pos then c else (c.modPlaten u.die u.pos (fun p => { p with flows := p.flows.filter (·.ahead) })).feed u

/-- The number of the next op of the die's collective engine on the group of an entry (R237), and the engine after it has started. -/
def Chip.numberOp (c : Chip) (u : UnitRef) (e : Entry) : Nat × Chip :=
  if u.pos ≠ 117 ∨ e.opc = 0 then (0, c) else
  let k := u.part * 4096 + colGroup e.slot.toNat
  let n := tget 0 (c.die u.die).ce.next k
  (n, c.modDie u.die (fun m => { m with ce := { m.ce with next := tput 0 m.ce.next k (n + 1) } }))

/-- Start an entry on a unit: an UPDATE starts as a skip outside a step or with COMMITTABLE clear (R215). -/
def Chip.startEntry (c : Chip) (u : UnitRef) (e : Entry) : Chip :=
  let x := c.ctx (c.ctxOf u.die u.part)
  let num := c.numberOp u e
  let skip := decide (slotClass u.pos = .update) && !(x.inStep && x.train.committable)
  let id := match x.run with | some r => r.order.count + 1 | none => 0
  let o : Op :=
    { e := { e with descs := none, view := none, wides := [], dests := [], outs := [], links := [], knows := [] }, id := id, descs := e.descs, view := e.view, wides := e.wides, dests := e.dests,
      outs := e.outs, links := e.links, skip := skip, startNs := c.ridgeOf u.die, step := (c.imp u.die u.part).step, num := num.1 }
  let c := num.2.modRun (c.ctxOf u.die u.part) (fun r => { r with order := { r.order with count := id } })
  let c := c.learn (c.ctxOf u.die u.part) (.unit u.die u.pos) e.knows
  let c := if u.pos < 64 then c.modPlaten u.die u.pos (fun p => { p with flows := p.flows.map (fun f => { f with ahead := false }) }) else c
  c.modStream u.die u.part (fun s => s.modUnit u.pos (fun k => { k with op := some o }))

/-- The unit may leave its op: recorded, its declared beats elapsed (R125). -/
def Op.elapsed (o : Op) : Bool := o.recorded && decide (slotBeats o.e.slot.toNat ≤ o.beats)

/-- An entry of a deferred UPDATE. -/
def Entry.deferred (e : Entry) (pos : Nat) : Bool := decide (slotClass pos = .update) && decide (e.opc = 1) && updDefer e.slot.toNat

/-- A deferred UPDATE waits at the head of its queue until its clip link has been taken (R224). -/
def Entry.mayStart (e : Entry) (pos : Nat) : Bool :=
  !e.deferred pos || (match e.descs with | some dl => e.links.contains (dl.length - 1) | none => false)

/-- A die's collective engine runs one op at a time: no other partition's op holds it (R238). Of several partitions' ops that could
start at one boundary, the lowest partition's does.
DEDUCED: log entry 97. -/
def Chip.engineFree (c : Chip) (u : UnitRef) : Bool :=
  decide (u.pos ≠ 117) || (c.die u.die).streams.all (fun kv => decide (kv.1 = u.part) || (match kv.2 with
    | some s => s.stopped || (match (s.unit 117).op with | some o => o.elapsed && !(decide (o.e.i < o.e.rep)) | none => true)
    | none => true))

/-- The head entry of a unit with no op in progress starts when it may. -/
def Chip.startHead (c : Chip) (u : UnitRef) : Chip :=
  match c.stream u.die u.part with
  | none => c
  | some s =>
    match (s.unit u.pos).queue with
    | e :: _ =>
      if e.mayStart u.pos && c.engineFree u then
        (c.modStream u.die u.part (fun s => s.modUnit u.pos (fun k => { k with queue := k.queue.drop 1 }))).startEntry u e
      else c
    | [] => c

/-- A unit starts its next execution or its head entry when R125 allows. The next execution of a deferred UPDATE goes back to the
head of the queue, where it waits for its own clip factor. No further collective op starts while a kill is held (R319). -/
def Chip.startUnit (c : Chip) (u : UnitRef) : Chip :=
  match c.stream u.die u.part with
  | none => c
  | some s =>
    if u.pos = 117 ∧ (c.ctx s.ctx).killHeld then c else
    match (s.unit u.pos).op with
    | some o =>
      if !o.elapsed then c
      else if o.e.i < o.e.rep then
        let e := { o.e with i := o.e.i + 1 }
        if e.deferred u.pos then c.modStream u.die u.part (fun s => s.modUnit u.pos (fun k => { k with op := none, queue := e :: k.queue }))
        else c.startEntry u e
      else (c.modStream u.die u.part (fun s => s.modUnit u.pos (fun k => { k with op := none }))).startHead u
    | none => c.startHead u

/-- Every unit of a stream starts what it may. -/
def Chip.startUnits (c : Chip) (d : Die) (q : Nat) : Chip :=
  match c.stream d q with
  | none => c
  | some s => if s.stopped then c else s.units.foldl (fun c kv =>
      (c.startUnit { die := d, part := q, pos := kv.1 }).feed { die := d, part := q, pos := kv.1 }) c

/-! ### Control operations (Table 5.8) -/

/-- A sheet has issued: the next sheet stands at `next`, no earlier than D beats later, D = 0 counted as 1 (R121, R310). -/
def Chip.ctlBase (c : Chip) (d : Die) (q : Nat) (delay : Nat) (next : W32) : Chip :=
  let last := (c.imp d q).pc
  let c := c.modDie d (fun m => { m with issued := true, lastPart := q })
  (c.modStream d q (fun s => { s with delay := max delay 1, begun := true, wait := .none, met := false, seen := false, skipBp := false, lastPc := last })).modImp d q
    (fun i => { i with pc := next, waitKind := 0, state := 1 })

/-- A branch from the sheet at `off`. -/
def branchTo (off : W32) (target : BitVec 24) : W32 := off + target.signExtend 32

/-- The clip share of a tag takes its widen branch (R76). -/
def WidenEntry.takes (k : WidenEntry) : Bool := k.enable && decide (k.thresh.toNat * k.decConv < k.decClip * 2 ^ 24)

/-- Walk a skipped region by the LEN of its sheets (R121): the offset after it, or the offset of the sheet that leaves
the section. -/
def Chip.skipRegion (c : Chip) (n : Nat) (img : DieImage) : Nat → W32 → Except W32 W32
  | 0, off => .ok off
  | k + 1, off =>
    let b := off.toNat * 16
    if img.sheetSize < b + 16 then .error off else
    let len := (sheetHdr (c.sheet16 n img b)).len
    if img.sheetSize < b + len * 16 then .error off else c.skipRegion n img k (off + BitVec.ofNat 32 len)

/-- A tag's clip share takes its widen branch, as the counts stand now: those of the whole beats before (R76, R134). -/
def Chip.widenTakes (c : Chip) (d : Die) (q : Nat) (tag : W16) : Bool :=
  (tget {} (c.side (c.ctxOf d q) d).widen (tag.toNat % 4096) : WidenEntry).takes

/-- The WIDEN branch (R76, R121); `takes` was found before the sheet's own LAYER_START bits acted (R134). -/
def Chip.ctlWiden (c : Chip) (d : Die) (q : Nat) (tag region : W16) (next : W32) (takes : Bool) : Chip :=
  match c.stream d q with
  | none => c
  | some s =>
    let i := tag.toNat % 4096
    if takes then
      c.modSide s.ctx d (fun x => { x with widen := tmod {} x.widen i (fun k =>
        { k with widened := true, count := satAdd k.count 1, execs := k.execs + 1, taken := k.taken + 1 }) })
    else
      let c := c.modSide s.ctx d (fun x => { x with widen := tmod {} x.widen i (fun k => { k with execs := k.execs + 1 }) })
      match c.skipRegion s.ctx s.image region.toNat next with
      | .ok off => c.modImp d q (fun i => { i with pc := off })
      | .error off => c.raiseTrap d q 127 0x0D 0 off

/-- This die's COMMIT issues (R122, R217): recorded at once when every op issued before it has completed. -/
def Chip.ctlCommit (c : Chip) (d : Die) (q : Nat) : Chip :=
  match c.stream d q with
  | none => c
  | some s =>
    if !(c.ctx s.ctx).inStep then c else
    let c := c.modRun s.ctx (fun r => match d with
      | .w => { r with issuedW := true }
      | .e => { r with issuedE := true })
    let left := s.units.foldl (fun (t : Tab Nat) kv => tput 0 t kv.1 (kv.2.left + (if kv.1 = 117 then s.heldLast else 0))) []
    (c.modStream d q (fun s => { s with commitAfter := true, commitLeft := left })).tryCommit d q

/-- The action of a control operation after its sheet, at `off`, has issued; `takes` is what its WIDEN found. -/
def Chip.ctlRun (c : Chip) (d : Die) (q : Nat) (op : CtlOp) (off next : W32) (takes : Bool) : Chip :=
  match op with
  | .nop => c
  | .wait sem half count timeout =>
    let deadline := if timeout = 0 then none else some (c.ridgeOf d + timeout.zeroExtend 64 * 1000)
    let met := c.semHas d (c.pair q sem.toNat) half count.toNat
    (c.setWait d q (.wait sem half count deadline)).modStream d q (fun s => { s with met := met })
  | .waitu classes => c.setWait d q (.waitu classes)
  | .ldcnt cnt value => c.modStream d q (fun s => { s with cnt := tput 0 s.cnt cnt.toNat value })
  | .loop cnt target =>
    match c.stream d q with
    | none => c
    | some s =>
      let v := tget 0 s.cnt cnt.toNat
      if v = 0 then c
      else (c.modStream d q (fun s => { s with cnt := tput 0 s.cnt cnt.toNat (v - 1) })).modImp d q
        (fun i => { i with pc := branchTo off target })
  | .jump target => c.modImp d q (fun i => { i with pc := branchTo off target })
  | .rwait time => c.setWait d q (.rwait time)
  | .widen tag region => c.ctlWiden d q tag region next takes
  | .signal sem half xdie count => c.signal d q sem.toNat half xdie count.toNat (c.knownTo (c.ctxOf d q) (.stream d))
  | .step add value => c.modImp d q (fun i => { i with step := if add then i.step + value else value })
  | .commit => c.ctlCommit d q
  | .halt => c.modStream d q (fun s => { s with halted := true })
  | .trap code => c.raiseTrap d q 126 0x0E code.toNat off

/-- The enabled sheet breakpoint at a partition's offset (R399). -/
def DieSt.sheetBp (m : DieSt) (q : Nat) (pc : W32) : Option Nat :=
  (List.range 16).find? (fun n =>
    let v := (tget 0 m.dbg.sbp n : W64).toNat
    bit v 63 && decide (bits v 35 32 = q) && decide (bits v 31 0 = pc.toNat))

/-- The stream may issue a sheet in the present beat of its die: it waits for nothing, its first sheet's start time has come by the
beat's boundary, no trap stops it, no delay runs, the die is not halted, has issued no sheet in the beat, and no breakpoint stands
at the sheet (R113, R121, R124, R136, R310, R398, R399). -/
def Chip.mayIssue (c : Chip) (d : Die) (q : Nat) (s : Stream) : Bool :=
  let m := c.die d
  s.live && !s.trapDue && decide (s.wait = .none) && decide (s.delay = 0) && (s.begun || decide (s.start.toNat ≤ m.beatAt.toNat)) &&
  !m.issued && !m.dbg.frozen && (s.skipBp || (m.sheetBp q (c.imp d q).pc).isNone)

/-- A row of the table for a control slot: the sheet at CTX_IMP_PC issues, holding that control slot alone (three units
of 16 bytes), on a stream that may issue one.
DEDUCED: log entry 31. -/
def Chip.control (c : Chip) (k : Ctl) (op : CtlOp) : Chip :=
  match c.stream k.die k.part with
  | none => c
  | some s =>
    if !c.mayIssue k.die k.part s then c else
    let off := (c.imp k.die k.part).pc
    match c.ctlCheck k.die k.part op with
    | some x => c.raiseTrap k.die k.part 126 x.1 x.2 off
    | none =>
      let takes := match op with | .widen tag _ => c.widenTakes k.die k.part tag | _ => false
      (c.ctlBase k.die k.part k.delay.toNat (off + 3)).ctlRun k.die k.part op off (off + 3) takes

def execCtrlNop (c : Ctl) (s : State) : Host.Outcome State Fault Refusal := s.run (fun x => x.control c .nop)
def execWait (c : Ctl) (sem : BitVec 12) (half : Bool) (count : W16) (timeout : BitVec 20) (s : State) : Host.Outcome State Fault Refusal :=
  s.run (fun x => x.control c (.wait sem half count timeout))
def execWaitu (c : Ctl) (classes : BitVec 7) (s : State) : Host.Outcome State Fault Refusal := s.run (fun x => x.control c (.waitu classes))
def execLdcnt (c : Ctl) (cnt : BitVec 3) (value : W32) (s : State) : Host.Outcome State Fault Refusal := s.run (fun x => x.control c (.ldcnt cnt value))
def execLoop (c : Ctl) (cnt : BitVec 3) (target : BitVec 24) (s : State) : Host.Outcome State Fault Refusal := s.run (fun x => x.control c (.loop cnt target))
def execJump (c : Ctl) (target : BitVec 24) (s : State) : Host.Outcome State Fault Refusal := s.run (fun x => x.control c (.jump target))
def execRwait (c : Ctl) (time : W64) (s : State) : Host.Outcome State Fault Refusal := s.run (fun x => x.control c (.rwait time))
def execWiden (c : Ctl) (tag region : W16) (s : State) : Host.Outcome State Fault Refusal := s.run (fun x => x.control c (.widen tag region))
def execSignal (c : Ctl) (sem : BitVec 12) (half xdie : Bool) (count : W16) (s : State) : Host.Outcome State Fault Refusal :=
  s.run (fun x => x.control c (.signal sem half xdie count))
def execCtrlStep (c : Ctl) (add : Bool) (value : W48) (s : State) : Host.Outcome State Fault Refusal := s.run (fun x => x.control c (.step add value))
def execCtrlCommit (c : Ctl) (s : State) : Host.Outcome State Fault Refusal := s.run (fun x => x.control c .commit)
def execHalt (c : Ctl) (s : State) : Host.Outcome State Fault Refusal := s.run (fun x => x.control c .halt)
def execCtrlTrap (c : Ctl) (code : W16) (s : State) : Host.Outcome State Fault Refusal := s.run (fun x => x.control c (.trap code))

/-! ### Halts -/

/-- Every stream of a context has ended. -/
def Chip.streamsEnded (c : Chip) (n : Nat) : Bool :=
  let q := (c.ctx n).part
  let one (d : Die) : Bool := match c.stream d q with
    | some s => decide (s.ctx ≠ n) || s.stopped
    | none => true
  one .w && one .e

/-- The loop counters the fill-drain macro presets for its run `i` of 2m (R252). -/
def fillCounters (m i : Nat) : Tab W32 :=
  if i < m then tput 0 [] 7 (BitVec.ofNat 32 i)
  else
    let j := i - m
    tput 0 (tput 0 [] 6 (if j + 1 = m then 0 else 1)) 7 (BitVec.ofNat 32 (m - 1 - j))

/-- Start both dies' streams of an image at their entries; a die the image does not run on, or whose entry is
0xFFFF_FFFF, has no stream and needs no COMMIT (R360). -/
def Chip.startStreams (c : Chip) (n : Nat) (img : Image) (wEntry eEntry : W32) (start : W64) (step : W48) (cnt : Tab W32) : Chip :=
  let q := (c.ctx n).part
  let one (c : Chip) (d : Die) (i : Option DieImage) (entry : W32) : Chip :=
    match i with
    | some i => if entry = 0xFFFFFFFF then c.setStream d q none else c.startDie d q n i entry start step cnt
    | none => c.setStream d q none
  one (one c .w img.w wEntry) .e img.e eEntry

/-- Start the serving image of the next model of a serve step (R270). -/
def Chip.startServe (c : Chip) (n : Nat) : Chip :=
  match (c.ctx n).run with
  | none => c
  | some r =>
    match r.serveQ with
    | [] => c
    | k :: t =>
      let m := c.model k
      match m.image with
      | none => c.modRun n (fun r => { r with serveQ := t })
      | some img => (c.modRun n (fun r => { r with serveQ := t })).startStreams n img m.hdr.serveW m.hdr.serveE 0 r.step []

/-- The fill-drain macro goes on to its next run, a serve step to its next model, when both dies have halted (R252, R270). -/
def Chip.afterHalt (c : Chip) (n : Nat) : Chip :=
  if !c.streamsEnded n then c else
  match (c.ctx n).run, (c.ctx n).execQ with
  | some r, x :: _ =>
    match x.cmd with
    | .fillDrain _ p =>
      let m := p.m.toNat
      let i := r.index + 1
      if 2 * m ≤ i ∨ r.finish.isSome then c else
      match tget none (c.ctx n).handles p.handle.toNat with
      | none => c
      | some img =>
        let e := if i < m then p.fwd else p.bwd
        (c.modRun n (fun r => { r with index := i, bwd := decide (m ≤ i) })).startStreams n img e e 0 p.step (fillCounters m i)
    | .serve _ _ => if r.finish.isSome then c else c.startServe n
    | _ => c
  | _, _ => c

/-- A die has halted once every op issued before its HALT has completed (R123). -/
def Chip.tryHalt (c : Chip) (d : Die) (q : Nat) : Chip :=
  match c.stream d q with
  | none => c
  | some s =>
    if !(s.halted && !s.stopped && s.allIdle) then c else
    let c := c.modStream d q (fun s => { s with stopped := true, units := [], wait := .none })
    (c.modImp d q (fun i => { i with state := 3, waitKind := 0 })).afterHalt s.ctx

def execStreamHalted (die : Die) (part : Nat) (s : State) : Host.Outcome State Fault Refusal := s.run (fun c => c.tryHalt die part)

/-! ### Events of ops, signals and traps -/

/-- SLOT_NOP: the NOP in progress on a unit completes; it has no action (R120, R126). Table 5.7 states how long a NOP occupies its
unit and not when it completes and signals: in the model in this row, or at the boundary at which its beats have elapsed where
that comes first.
DESIGN CHOICE: log entry 94. -/
def execSlotNop (u : UnitRef) (s : State) : Host.Outcome State Fault Refusal :=
  s.run (fun c => match c.op u with
    | some o => if o.e.opc = 0 && !o.recorded && !c.quiet u.die u.part && !c.noBeat u.die u.part then c.recordOp u else c
    | none => c)

def execOpCompletion (u : UnitRef) (s : State) : Host.Outcome State Fault Refusal := s.run (fun c => c.completeOp u)

/-- A thatch op's completion is recorded at a beat boundary at least 20 ns after its last write (R133). -/
def execThatchCompletionRecord (u : UnitRef) (s : State) : Host.Outcome State Fault Refusal :=
  s.run (fun c => match c.op u with
    | some o => if slotClass u.pos = .thatch ∧ o.completed ∧ !o.recorded ∧ !c.quiet u.die u.part ∧ !c.noBeat u.die u.part then c.recordOp u else c
    | none => c)

/-- The oldest signal on its way to a die is recorded there (R133). -/
def execCrossDieSignal (die : Die) (s : State) : Host.Outcome State Fault Refusal :=
  s.run (fun c => match (c.die die).cross with
    | [] => c
    | x :: t => (c.modDie die (fun m => { m with cross := t })).semSignal die (c.pair x.part x.pair.toNat) x.half x.count x.knows)

/-- A trap is raised at a slot position with a cause and a CODE. -/
def execStreamTrap (u : UnitRef) (cause : Byte) (code : W16) (s : State) : Host.Outcome State Fault Refusal :=
  s.run (fun c =>
    let pc := match c.op u with | some o => o.e.pc | none => (c.imp u.die u.part).pc
    c.raiseTrap u.die u.part u.pos cause.toNat code.toNat pc)

/-- A trap or fault of the other die has reached the die by a boundary: it arrived, or its 200 ns are over. -/
def Stream.told (s : Stream) (time : W64) : Bool :=
  s.trapDue || (match s.trapComing with | some t => decide (t.toNat ≤ time.toNat) | none => false)

/-- At its boundary the die stops a stream that a trap or fault has reached (R136 step 1). -/
def Chip.stopTold (c : Chip) (d : Die) (q : Nat) : Chip :=
  match c.stream d q with
  | some s => if s.told (c.ridgeOf d) && !s.stopped then c.stopStream d q s.stopSt 0x0407 else c
  | none => c

/-- TRAP_ARRIVAL: a trap or fault on its way reaches the die, which stops issue at its next boundary (R136 step 1). -/
def execTrapArrival (die : Die) (part : Nat) (s : State) : Host.Outcome State Fault Refusal :=
  s.run (fun c => c.modStream die part (fun s => if s.trapComing.isSome && !s.stopped then { s with trapDue := true } else s))

/-- A WAIT that was not met by its deadline raises trap cause 0x0F (R131). -/
def Chip.waitTimeout (c : Chip) (d : Die) (q : Nat) : Chip :=
  match c.stream d q with
  | some s =>
    match s.wait with
    | .wait sem half count (some t) =>
      if t < c.ridgeOf d ∧ !(s.met && c.semHas d (c.pair q sem.toNat) half count.toNat) ∧ !s.stopped then c.raiseTrap d q 126 0x0F 0 s.lastPc
      else c
    | _ => c
  | none => c

def execWaitTimeout (die : Die) (part : Nat) (s : State) : Host.Outcome State Fault Refusal := s.run (fun c => c.waitTimeout die part)

/-! ### Sheet fetch (R135, R310) -/

/-- The streams that run on a die. -/
def DieSt.running (m : DieSt) : Nat := (m.streams.filter (fun kv => match kv.2 with | some s => !s.stopped | none => false)).length

/-- The buffer keeps what lies within the window: up to the partition's share of 384 KiB ahead of the next sheet and of 128 KiB
behind it (R135, R310). -/
def Stream.trim (s : Stream) (pc k : Nat) : Stream :=
  let lo := max s.bufLo (pc - 131072 / k)
  let hi := min s.bufHi (pc + 393216 / k)
  if lo < hi then { s with bufLo := lo, bufHi := hi } else { s with bufLo := pc, bufHi := pc }

/-- The sheet buffer of a partition as its next sheet and its share stand now. -/
def Chip.trimBuffer (c : Chip) (d : Die) (q : Nat) : Chip :=
  let pc := (c.imp d q).pc.toNat * 16
  let k := max 1 (c.die d).running
  c.modStream d q (fun s => s.trim pc k)

/-- A 4 KiB block of the sheet section enters the buffer, if it lies in the window: next to what the buffer holds, or in its place.
A failed fetch is a mid-stream fault at slot position 127 (R156).
DEDUCED: log entry 31. -/
def Chip.fetchBlock (c : Chip) (d : Die) (q block : Nat) : Chip :=
  match c.stream d q with
  | none => c
  | some s =>
    let lo := block * 4096
    if s.stopped ∨ s.image.sheetSize ≤ lo then c else
    let len := min 4096 (s.image.sheetSize - lo)
    let k := max 1 (c.die d).running
    let pc := (c.imp d q).pc.toNat * 16
    if pc + 393216 / k ≤ lo ∨ lo + len ≤ pc - 131072 / k then c else
    let r := c.readVa s.ctx (s.image.sheetVa.toNat + lo) len
    match r.2 with
    | .error f => c.midFault d q 127 0 0 f
    | .ok _ =>
      r.1.modStream d q (fun s =>
        let s := { s with image := { s.image with kept := tfilter (fun k _ => decide (k / 256 ≠ block)) s.image.kept } }
        (if lo ≤ s.bufHi ∧ s.bufLo ≤ lo + 4096 ∧ s.bufLo ≠ s.bufHi then
          { s with bufLo := min s.bufLo lo, bufHi := max s.bufHi (lo + len) }
        else { s with bufLo := lo, bufHi := lo + len }).trim pc k)

def execSheetFetch (die : Die) (part : Nat) (block : Nat) (s : State) : Host.Outcome State Fault Refusal :=
  s.run (fun c => c.fetchBlock die part block)

end Sys2Proof.Machine
end

