-- ==== Sys2Proof/Machine/Lists.lean ====
section
/-!
DEFINITION. Descriptor lists and memory behind them (chapter 6): checked access by SPACE, list fetch with its checks,
link takes, the weight cache and its directory, mid-stream faults and the wait-graph check.
-/
namespace Sys2Proof.Machine

/-! ### Access by SPACE (Table 6.2, R68, R87, R142, R204) -/

/-- An address fault at an address. -/
def af (addr : Nat) : AccFault := ⟨faultAddr, BitVec.ofNat 52 addr⟩

/-- What stops an access of a unit to a local store. Units without a store of their own name a platen of their die in
ADDR bits 28:23. Of a shared store a thatch engine reaches all, the collective engine the arrival staging it delivers to and takes
from (R86, R93), a stack compositor all but the logits ring (Table 7.3).
DESIGN CHOICE: log entry 95. -/
def Chip.localFault (c : Chip) (u : UnitRef) (role space addr len : Nat) : Option AccFault :=
  match space with
  | 1 =>
    if u.pos < 64 then
      if ((c.platen u.die u.pos).regions.getD (roleRegion role) {}).holds addr len then none else some (af addr)
    else if u.pos < 96 then (if addr + len ≤ engineBytes then none else some (af addr))
    else
      let pt := bits addr 28 23
      let off := bits addr 22 0
      if decide (addr < 2 ^ 29) && ((c.platen u.die pt).regions.getD (roleRegion role) {}).holds off len then none else some (af addr)
  | 2 =>
    let p := sharedPlace u.die u.pos addr
    let map := match c.stream u.die u.part with | some s => tget [] s.image.stks (p.1 % 4) | none => []
    match slotClass u.pos with
    | .thatch => if addr + len ≤ sharedBytes then none else some (af addr)
    | .collective => if addr < 2 ^ 27 ∧ (map.getD 1 {}).holds p.2 len then none else some (af addr)
    | .spawn => if addr < 2 ^ 27 ∧ p.2 + len ≤ sharedBytes ∧ !(map.getD 0 {}).meets p.2 len then none else some (af addr)
    | _ => some (af addr)
  | _ => some (af addr)

/-- A thatch engine reaches only pages of its own stack (R87). An interleaved page lies in all stacks and is out of range as a whole,
its granules in the engine's own stack among them; the rule does not say.
DESIGN CHOICE: log entry 94. -/
def Chip.ownStack (c : Chip) (n stack va len : Nat) : Bool :=
  (piecesOf va len).all (fun p => match (c.ctx n).page p.1 with
    | some g => decide (g.attr.place.toNat = stack)
    | none => true)

/-- A checked read for the op of a unit. -/
def Chip.readSpace (c : Chip) (u : UnitRef) (role space addr len : Nat) : Chip × Except AccFault (List Byte) :=
  let n := c.ctxOf u.die u.part
  if space = 0 then
    if slotClass u.pos = .thatch ∧ !c.ownStack n (stackOfTe u.die (u.pos - 64)) addr len then (c, .error (af addr))
    else c.readBy u n addr len
  else
    match c.localFault u role space addr len with
    | some f => (c, .error f)
    | none => (c, .ok (c.getSpace n u.die u.pos space addr len))

/-- A checked write for the op of a unit. -/
def Chip.writeSpace (c : Chip) (u : UnitRef) (role space addr : Nat) (bs : List Byte) : Chip × Option AccFault :=
  let n := c.ctxOf u.die u.part
  if space = 0 then
    if slotClass u.pos = .thatch ∧ !c.ownStack n (stackOfTe u.die (u.pos - 64)) addr bs.length then (c, some (af addr))
    else c.writeVa n addr bs
  else
    match c.localFault u role space addr bs.length with
    | some f => (c, some f)
    | none => (c.putSpace n u.die u.pos space addr bs, none)

/-! ### Checks of one descriptor (R144) -/

/-- What a check needs to know: the unit, the slot, the tile header and the image, the descriptors read in their wide form, a
spawn's TARGET. -/
structure ListCtx where
  u : UnitRef
  opc : Nat
  slot : TileSlot
  hdr : TileHdr
  img : DieImage
  wides : List Nat := []
  target : Nat := 0
  deriving DecidableEq, Repr, Inhabited

/-- The list belongs to a TILE op. -/
def ListCtx.isTile (x : ListCtx) : Bool := decide (x.u.pos < 96) && decide (x.opc = 1)

/-- Block rows and columns of a SHAPE (Table 3.2). -/
def shapeRows (s : Nat) : Nat := match s with | 0 => 8 | 1 => 16 | 2 => 32 | _ => 64
def shapeCols (s : Nat) : Nat := match s with | 0 => 128 | 1 => 64 | 2 => 32 | _ => 16

/-- Row count R and column extent C of the tile (R142). -/
def ListCtx.rows (x : ListCtx) : Nat := if x.slot.stream then x.slot.t else x.hdr.rows
def ListCtx.cols (x : ListCtx) : Nat := x.hdr.cols

/-- The header's own rules (R63, R141): K at least 1; stationary tiles have whole blocks. -/
def headerCause (x : ListCtx) (ws : List W64) : Option Nat :=
  if bits (wordOf ws 0) 51 48 ≠ 0 then some 0x0A
  else
    let h := tileHdr ws
    if h.k = 0 then some 0x0A
    else if !x.slot.stream && (decide (h.rows % shapeRows x.slot.shape ≠ 0) || decide (h.cols ≠ shapeCols x.slot.shape)) then some 0x0A
    else if tileHdrReserved ws then some 0x07 else none

/-- A reserved format code (R30). -/
def codeCause (fmt : Nat) : Option Nat := if 8 < fmt then some 0x08 else none

/-- A scaled wide format (R40). -/
def scaledCause (fmt scl : Nat) : Option Nat := if (fmt = 7 ∨ fmt = 8) ∧ scl % 4 ≠ 0 then some 0x09 else none

/-- R50: with DQ = 1 both operands are scaled integers. -/
def dqCause (x : ListCtx) (g : Desc) : Option Nat :=
  if x.isTile && x.slot.dq && (decide (g.role = 1) || decide (g.role = 2)) && !(fmtIsInt g.fmt && g.scaled) then some 0x09 else none

/-- R63 for one operand: whole groups, and weights that fit a bank. -/
def kCause (x : ListCtx) (g : Desc) : Option Nat :=
  if !x.isTile ∨ (g.role ≠ 1 ∧ g.role ≠ 2) then none
  else if g.scaled && decide (x.hdr.k % g.group ≠ 0) then some 0x0A
  else if g.role = 2 ∧ !x.slot.stream ∧ 65536 < 8 * x.hdr.k * fmtWidth g.fmt then some 0x0A else none

/-- Roles a list may hold (R142, R175, R183, R192, R204, R241): only ROLE 9 in the lists of selection, Gutter and spawn slots. -/
def roleAllowed (x : ListCtx) (role : Nat) : Bool :=
  if x.isTile then
    (decide (1 ≤ role) && decide (role ≤ 8)) || (decide (role = 9) && (x.slot.loss || x.slot.vocab || x.slot.route))
  else
    match slotClass x.u.pos with
    | .selection => decide (role = 9)
    | .gutter => decide (role = 9)
    | .spawn => decide (role = 9)
    | _ => decide (role = 8) || decide (role = 9)

/-- The unit may name the shared store of a stack: thatch engines, stack compositors (Table 6.2), the collective engine (R93).
DESIGN CHOICE: log entry 95. -/
def ListCtx.sharedOk (x : ListCtx) : Bool :=
  match slotClass x.u.pos with
  | .thatch => true
  | .collective => true
  | .spawn => decide (x.target ≠ 0)
  | _ => false

/-- ROLE, SPACE, CACHE and GALLEY values not allowed for the unit (R142, R144). A thatch slot has no field for the loss hook
or a reduction buffer, so their roles alone enable them (R90). -/
def spaceCause (x : ListCtx) (g : Desc) : Option Nat :=
  let cls := slotClass x.u.pos
  if x.isTile ∧ cls = .thatch ∧ (g.role = 4 ∨ g.role = 8) then some 0x0C
  else if !roleAllowed x g.role then some 0x07
  else if g.space = 3 ∨ (g.space = 2 ∧ !x.sharedOk) then some 0x07
  else if g.cache ∧ g.space ≠ 0 then some 0x07
  else if x.u.pos < 64 ∧ x.isTile ∧ g.space = 0 ∧ (g.role = 1 ∨ g.role = 2 ∨ g.role = 5 ∨ g.role = 6 ∨ g.role = 7) ∧
      (((tget [] x.img.platens x.u.pos).getD g.galley {}).base = ((tget [] x.img.platens x.u.pos).getD g.galley {}).limit) then some 0x07
  else if g.lvalid ∧ g.lcount = 0 then some 0x07 else none

/-- Stride rules (R140): with several rows, and always for a VOCAB destination. -/
def strideCause (x : ListCtx) (g : Desc) : Option Nat :=
  if g.ext1 ≤ 1 ∧ !(x.slot.vocab && decide (g.role = 3)) then none
  else if g.stride < g.ext0 ∨ g.stride * fmtWidth g.fmt % 8 ≠ 0 ∨ (g.scaled ∧ g.stride % g.group ≠ 0) then some 0x07 else none

/-- A destination in a scaled narrow format. -/
def Desc.narrowDest (g : Desc) : Bool := decide (g.role = 3) && fmtIsNarrow g.fmt && g.scaled

/-- SSTAT stands only in a destination in a scaled narrow format (R140). -/
def sstatCause (g : Desc) : Option Nat := if g.sstat && !g.narrowDest then some 0x07 else none

/-- Formats fixed by role (R142, R30), of the form that is read or written: forme operands, partials, logits, reduction ranges,
biases. -/
def roleFormatCause (x : ListCtx) (g : Desc) : Option Nat :=
  if x.isTile ∧ (g.role = 1 ∨ g.role = 2) ∧ (g.fmt = 7 ∨ g.fmt = 8) then some 0x09
  else if (g.role = 5 ∨ g.role = 4 ∨ g.role = 8) ∧ (g.fmt ≠ 8 ∨ g.scaled) then some 0x09
  else if g.role = 6 ∧ ((g.fmt ≠ 8 ∧ g.fmt ≠ 7) ∨ g.scaled) then some 0x09 else none

/-- WIDE needs a scaled I2, T2, I4 or F4 destination with the alternate form the widening asks for; a reduction range, the
destination under RBM 1 or 2, is none (R77). -/
def wideCause (x : ListCtx) (g : Desc) : Option Nat :=
  if !(x.isTile && x.slot.wide) then none
  else if g.role = 8 ∧ x.slot.rbm ≠ 0 then some 0x0B
  else if g.role ≠ 3 ∨ x.slot.rbm ≠ 0 then none
  else if !(decide (g.fmt ≤ 3) && g.scaled) ∨ !g.altValid ∨ g.altFmt ≠ (if g.fmt = 3 then 5 else 4) ∨ g.altScl ≠ g.scl then some 0x0B
  else none

/-- A VOCAB destination lies in the logits ring, which holds at least four entries (R107). -/
def vocabCause (x : ListCtx) (g : Desc) : Option Nat :=
  if !(x.slot.vocab && decide (g.role = 3)) then none else
  let r := (tget [] x.img.stks ((x.u.pos - 64) / 8)).getD 0 {}
  if g.space ≠ 2 ∨ g.fmt ≠ 8 ∨ g.addr < r.base * 4096 ∨ r.limit * 4096 < g.addr + 4 * ((g.ext1 - 1) * g.stride + g.ext0) ∨
      r.base = r.limit ∨ (r.limit - r.base) * 4096 < 16 * g.stride then some 0x0C
  else none

/-- The output group size does not exceed the tile's column extent (R64). -/
def groupCause (x : ListCtx) (g : Desc) : Option Nat :=
  if x.isTile ∧ g.narrowDest ∧ x.cols < g.group then some 0x0A else none

/-- The partition's tag and semaphore ranges (R311). -/
def Chip.rangeCause (c : Chip) (x : ListCtx) (g : Desc) : Option Nat :=
  if !c.tagOk x.u.part g.tag ∨ (g.altValid ∧ !c.tagOk x.u.part g.ptag) ∨ (g.lvalid ∧ !c.semOk x.u.part g.lpair) then some 0x14 else none

/-- The rules of the descriptor at place `i` in the order of R144: both its forms' codes, R40 and R50, R63, reserved and not allowed
fields, then the rules of its role. What concerns the reading of an operand is checked on the form its feeder chose (R78). -/
def Chip.descCause (c : Chip) (x : ListCtx) (i : Nat) (ws : List W64) : Option Nat :=
  let g := descOf ws
  let v := if x.wides.contains i then g.wideView else g
  codeCause g.fmt <|> (if g.altValid then codeCause g.altFmt else none) <|>
  scaledCause g.fmt g.scl <|> (if g.altValid then scaledCause g.altFmt g.altScl else none) <|> dqCause x v <|> kCause x v <|>
  (if descReserved ws || bit g.scl 3 || (g.altValid && bit g.altScl 3) then some 0x07 else none) <|> spaceCause x g <|>
  strideCause x v <|> sstatCause g <|> roleFormatCause x v <|> vocabCause x g <|> groupCause x g <|> wideCause x g <|>
  c.rangeCause x g

/-! ### Checks of a whole list -/

/-- A tile's pairs per pass (Table 3.1). -/
def pairsPerPass (fa fw : Nat) : Nat :=
  let w := max (fmtWidth fa) (fmtWidth fw)
  if w = 2 then 32 else if w = 4 then 16 else 8

def hasRole (ds : List Desc) (r : Nat) : Bool := ds.any (fun g => decide (g.role = r))

/-- A ROUTE list's second ROLE 9 descriptor names the record destination in SPACE 2 (R175). -/
def routeDest (ds : List Desc) : Bool :=
  match (ds.filter (fun g => decide (g.role = 9)))[1]? with
  | some g => decide (g.space = 2)
  | none => false

/-- Required and duplicate roles of a TILE list (R142, R194). `phase1` says the list is that of a phase 1 loss tile. -/
def rolesCause (x : ListCtx) (phase1 : Bool) (ds : List Desc) : Option Nat :=
  let dup := (List.range 9).any (fun r => decide (1 ≤ r) && decide (1 < (ds.filter (fun g => decide (g.role = r))).length))
  let need (p : Bool) (r : Nat) : Bool := p && !hasRole ds r
  if dup ∨ need true 1 ∨ need true 2 ∨ need (!phase1 && decide (x.slot.rbm = 0)) 3 ∨ need (x.slot.has 0) 5 ∨ need (x.slot.has 2) 6 ∨
      need (x.slot.has 5) 7 ∨ need (decide (x.slot.rbm = 1) || decide (x.slot.rbm = 2)) 8 ∨ need (x.slot.loss && x.slot.keep) 4 ∨
      (x.slot.route ∧ !routeDest ds) then some 0x07
  else none

/-- Extents matched against the header (R142). -/
def extentsCause (x : ListCtx) (ds : List Desc) : Option Nat :=
  let bad (g : Desc) : Bool :=
    match g.role with
    | 1 => decide (g.ext0 ≠ x.hdr.k) || decide (g.ext1 ≠ x.rows)
    | 2 => decide (g.ext0 ≠ x.hdr.k) || decide (g.ext1 ≠ x.cols)
    | 6 => decide (g.ext0 ≠ x.cols) || decide (g.ext1 ≠ 1)
    | 3 => decide (g.ext0 ≠ x.cols) || decide (g.ext1 ≠ x.rows)
    | 4 => decide (g.ext0 ≠ x.cols) || decide (g.ext1 ≠ x.rows)
    | 5 => decide (g.ext0 ≠ x.cols) || decide (g.ext1 ≠ x.rows)
    | 7 => decide (g.ext0 ≠ x.cols) || decide (g.ext1 ≠ x.rows)
    | _ => false
  if ds.any bad then some 0x0A else none

/-- K is a multiple of the pairs per pass of the pairing (R63). -/
def passCause (x : ListCtx) (ds : List Desc) : Option Nat :=
  match findRole ds 1, findRole ds 2 with
  | some a, some w => if x.hdr.k % pairsPerPass a.fmt w.fmt ≠ 0 then some 0x0A else none
  | _, _ => none

/-! ### Parameter blocks -/

/-- A descriptor of a parameter block: I8 bytes, EXT0 = 64, EXT1 = 1 (R175). -/
def Desc.isBlock (g : Desc) : Bool := decide (g.role = 9) && decide (g.fmt = 4) && decide (g.ext0 = 64) && decide (g.ext1 = 1) && !g.scaled

/-- The eight words of 64 bytes. -/
def wordsOf (bs : List Byte) : List W64 := (chunks 8 bs).map (fun b => BitVec.ofNat 64 (leNat b))

/-- RTEMP is finite and above zero. -/
def rtempOk (r : W32) : Bool := decide (0 < r.toNat) && decide (r.toNat < 0x7F800000)

/-- Selection parameter block rules (Tables 8.1, 8.11); `kind` 0 SELECT with its mode, 1 VOCAB, 2 ROUTE. -/
def selBlockCause (kind mode : Nat) (ws : List W64) : Option Nat :=
  let w := wordOf ws
  let k := bits (w 0) 38 32
  let src := bit (w 0) 39
  let parts := bits (w 0) 47 40
  let p17 := bits (w 1) 48 32
  let kBad : Bool := match kind with
    | 0 => decide (k ≠ 0)
    | 1 => decide (k = 0) || decide (64 < k)
    | _ => decide (k = 0) || decide (8 < k)
  if !rtempOk (BitVec.ofNat 32 (bits (w 0) 31 0)) ∨ kBad ∨ (src ∧ kind = 0 ∧ mode = 2) ∨
      (src ∧ (parts = 0 ∨ 8 < parts)) ∨ (kind = 0 ∧ mode = 3 ∧ (p17 = 0 ∨ 65536 < p17)) then some 0x11 else none

/-- Gutter source block: at least one record is expected (R183). -/
def srcBlockCause (ws : List W64) : Option Nat :=
  if bits (wordOf ws 0) 7 0 = 0 ∧ bits (wordOf ws 0) 11 8 = 0 then some 0x11 else none

/-- Loss control block rules (Table 8.11, R192). Table 8.11 has no cause for an RSTATE off its alignment, a field out of its range
(Table 5.9).
DEDUCED: log entry 98. -/
def lossBlockCause (x : ListCtx) (ws : List W64) : Option Nat :=
  let w := wordOf ws
  let phase := bits (w 0) 1 0
  let vlen := bits (w 2) 40 20
  if phase = 0 ∨ phase = 3 ∨ vlen = 0 ∨ 1048576 < vlen ∨ vlen ≤ bits (w 2) 19 0 ∨ x.slot.rbm ≠ 0 then some 0x11
  else if bits (w 1) 22 0 % 16 ≠ 0 then some 0x07 else none

/-- The last descriptor is a clip descriptor (R224). -/
def Desc.isClip (g : Desc) : Bool :=
  decide (g.role = 9) && decide (g.space = 0) && decide (g.fmt = 8) && decide (g.ext0 = 1) && decide (g.ext1 = 1) && g.lvalid

/-- The arrays a rule keeps (Table 9.4): W, M, S. -/
def ruleKeeps : Nat → Bool × Bool × Bool
  | 0 => (true, true, false)
  | 1 => (true, true, true)
  | 2 => (true, true, false)
  | _ => (true, false, true)

/-- An array pair's addresses against Table 9.4 and their alignment (R203). -/
def arrayOk (kept : Bool) (a s : Nat) : Bool :=
  if kept then decide (a ≠ 0) && decide (s ≠ 0) && decide (a % 256 = 0) && decide (s % 256 = 0) else decide (a = 0) && decide (s = 0)

/-- Gradient descriptors of an UPDATE list (R204): all after the block but the clip descriptor. -/
def gradDescs (defer : Bool) (ds : List Desc) : List Desc := if defer then (ds.drop 1).dropLast else ds.drop 1

/-- A gradient or clip descriptor of an UPDATE list: unscaled FP32 in a reduction buffer or in context memory (R204). -/
def Desc.isGrad (g : Desc) : Bool :=
  decide (g.fmt = 8) && !g.scaled && ((decide (g.role = 8) && decide (g.space = 1)) || (decide (g.role = 9) && decide (g.space = 0)))

/-- The rules of a parameter set block (Table 9.5, R203): configuration entry, P, array addresses, BC at step zero. -/
def updBlockCause (o : Ocfg) (step : W48) (ws : List W64) : Option Nat :=
  let w := wordOf ws
  let p := bits (w 0) 63 32
  let keep := ruleKeeps o.rule.toNat
  if !o.valid ∨ p = 0 ∨ p % 128 ≠ 0 then some 0x12
  else if !(arrayOk keep.1 (bits (w 1) 47 0) (bits (w 2) 47 0) && arrayOk keep.2.1 (bits (w 3) 47 0) (bits (w 4) 47 0) &&
      arrayOk keep.2.2 (bits (w 5) 47 0) (bits (w 6) 47 0)) then some 0x12
  else if o.bc ∧ step = 0 then some 0x12
  else none

/-- The rules of an UPDATE list as a whole (Table 9.5, R204): the clip descriptor against DEFER, the gradients' total. -/
def updListCause (defer : Bool) (ds : List Desc) (ws : List W64) : Option Nat :=
  let total := (gradDescs defer ds).foldl (fun a g => a + g.ext0 * g.ext1) 0
  let lastClip := match ds.getLast? with | some g => decide (1 < ds.length) && g.isClip | none => false
  if defer ≠ lastClip then some 0x12
  else if total ≠ bits (wordOf ws 0) 63 32 then some 0x12 else none

/-- Collective list rules (R239, R241, Table 10.4): how many descriptors follow the block, and what the block holds. -/
def colListCause (opc p : Nat) (ds : List Desc) (ws : List W64) : Option Nat :=
  let w := wordOf ws
  let n := bits (w 0) 31 0
  let out := bit (w 7) 63
  let k := ds.length - 1
  let bytes (g : Desc) : Nat := ceilDiv (g.ext0 * g.ext1 * fmtWidth g.fmt) 8
  let elems (l : List Desc) : Nat := l.foldl (fun a g => a + g.ext0 * g.ext1) 0
  let f32s (l : List Desc) : Bool := l.all (fun g => decide (g.fmt = 8) && !g.scaled)
  let ins := if out then (ds.drop 1).dropLast else ds.drop 1
  let g (i : Nat) : Desc := ds.getD i default
  let bad : Bool := match opc with
    | 1 => ins.isEmpty || decide (n = 0) || decide (n % (64 * p) ≠ 0) || decide (elems ins ≠ n) || !f32s (ds.drop 1) ||
        (out && decide ((g k).ext0 * (g k).ext1 ≠ n))
    | 2 => ins.isEmpty || decide (n = 0) || decide (n % (64 * p) ≠ 0) || decide (elems ins ≠ n) || !f32s (ds.drop 1) ||
        (out && decide ((g k).ext0 * (g k).ext1 ≠ n / p))
    | 3 => decide (k ≠ 2) || decide ((g 1).ext0 * (g 1).ext1 ≠ n) || decide ((g 2).ext0 * (g 2).ext1 ≠ n * p) || decide ((g 1).fmt ≠ (g 2).fmt)
    | 4 =>
      let rowb := bits (w 2) 15 0
      decide (k ≠ 4) || decide (rowb = 0) || decide (rowb % 64 ≠ 0) || decide (bits (w 2) 63 32 = 0) ||
      decide (bytes (g 1) < 4 * p) || decide (bytes (g 4) < 4 * p) || decide (bytes (g 3) < rowb * bits (w 2) 63 32)
    | 5 => decide (k ≠ (if bit (w 0) 32 then 1 else 2)) || decide (p ≤ bits (w 1) 41 32)
    | 6 => decide (k ≠ 1) || decide ((g 1).ext0 * (g 1).ext1 ≠ n)
    | _ => decide (k ≠ 2) || !(g 2).isClip
  if bad then some 0x13 else none

/-- A SPAWN holds no more threads than descriptor 0 has groups, rows or words (R163). -/
def spawnCause (v : Nat) (ds : List Desc) : Option Nat :=
  let g := ds.getD 0 default
  let size := if g.scaled then g.group else 32
  let lim := match spBind v with
    | 0 => g.ext0 * g.ext1 / size
    | 1 => g.ext1
    | _ => ceilDiv (g.ext0 * g.ext1 * fmtWidth g.fmt) 32
  if g.role ≠ 9 ∨ lim < spCount v then some 0x07 else none

/-! ### LIST_FETCH -/

/-- How a fetch ends. -/
inductive Fetched where
  | trap (cause : Nat)
  | fault (desc : Nat) (f : AccFault)
  | ok (dl : List (List W64)) (wides dests : List Nat) (outs : List Out)
  deriving DecidableEq, Repr

/-- The rules of a list's parameter block (R144 step 2). -/
def Chip.blockCause (c : Chip) (n : Nat) (x : ListCtx) (v : Nat) (ws : List W64) : Option Nat :=
  if x.isTile then
    (if x.slot.loss then lossBlockCause x ws
     else if x.slot.vocab then selBlockCause 1 1 ws
     else if x.slot.route then selBlockCause 2 0 ws else none)
  else
    match slotClass x.u.pos with
    | .selection => selBlockCause 0 (selMode v) ws
    | .update =>
      let tab := match (c.ctx n).run with | some r => if r.isStep then r.ocfg else (c.ctx n).ocfg | none => (c.ctx n).ocfg
      updBlockCause (tget default tab (updOcfg v)) (c.side n x.u.die).imp.step ws
    | .gutter => srcBlockCause ws
    | _ => none

/-- The checks of a list's descriptors one by one, ascending. An UPDATE's descriptors after the block are gradients, the last one
of a deferred one's list the clip descriptor, which the rule of the whole list checks (R204, R224, Table 9.5). -/
def Chip.eachCause (c : Chip) (x : ListCtx) (defer : Bool) : Nat → List (List W64) → Option Nat
  | _, [] => none
  | i, ws :: t =>
    (if x.isTile && decide (i = 0) then headerCause x ws else c.descCause x i ws) <|>
    (if slotClass x.u.pos = .update ∧ i ≠ 0 ∧ !(defer && t.isEmpty) ∧ !(descOf ws).isGrad then some 0x07 else none) <|>
    c.eachCause x defer (i + 1) t

/-- The place of a list's parameter block, with the kind of list it belongs to. -/
def blockIndex (x : ListCtx) (ds : List Desc) : Option Nat :=
  if x.isTile then
    (if x.slot.loss || x.slot.vocab || x.slot.route then some (ds.findIdx (fun g => decide (g.role = 9))) else none)
  else
    match slotClass x.u.pos with
    | .selection => some 0
    | .update => some 0
    | .gutter => some 0
    | .collective => some 0
    | _ => none

/-- The rules that concern several descriptors together (R144 step 3). -/
def jointCause (x : ListCtx) (v : Nat) (ds : List Desc) (ws : List W64) : Option Nat :=
  if x.isTile then
    let phase1 := x.slot.loss && decide (bits (wordOf ws 0) 1 0 = 1)
    (if phase1 && hasRole ds 3 then some 0x11 else none) <|> rolesCause x phase1 ds <|> extentsCause x ds <|> passCause x ds
  else
    match slotClass x.u.pos with
    | .selection =>
      let g := ds.getD 1 default
      (if ds.length < 3 then some 0x07
       else if 262144 < g.ext0 then some 0x07
       else if selMode v = 3 ∧ 65536 < g.ext1 then some 0x11
       else if !bit (wordOf ws 0) 39 && (decide (g.fmt ≠ 8) || g.scaled) then some 0x09 else none)
    | .update => updListCause (updDefer v) ds ws
    | .gutter => none
    | .collective =>
      let p := (tget {} x.img.groups (colGroup v)).p
      if p = 0 then some 0x13 else colListCause x.opc p ds ws
    | .spawn => spawnCause v ds
    | .platen => if x.opc = 2 ∧ !(decide ((ds.getD 0 default).role = 8) && decide ((ds.getD 0 default).space = 1)) then some 0x07 else none
    | _ => none

/-- The descriptors read in their wide form: operands whose producing tag's widen bit is set (R78, R140). `dests` are the
destinations among them. -/
def Chip.wideChoice (c : Chip) (n : Nat) (dests : List Nat) (dl : List (List W64)) : List Nat :=
  (dl.zipIdx.filter (fun p =>
    let g := descOf p.1
    g.altValid && decide (g.role ≠ 0) && !dests.contains p.2 &&
    (tget {} (c.side n (if g.pdie then .e else .w)).widen (g.ptag % 4096) : WidenEntry).widened)).map (·.2)

/-- The part [lo, hi) of byte runs laid one after another. -/
def clipRuns (lo hi : Nat) : Nat → List (Nat × Nat) → List (Nat × Nat)
  | _, [] => []
  | off, (a, n) :: t =>
    let s := max lo off - off
    let e := min hi (off + n) - off
    (if s < e then [(a + s, e - s)] else []) ++ clipRuns lo hi (off + n) t

/-- The bytes an op is to write, from its checked list: what a stop before its completion leaves undefined (R136, R156). A tile's
row states and a thread's stores are added as they are made. -/
def Chip.listOuts (c : Chip) (x : ListCtx) (v : Nat) (ds : List Desc) (ws : List W64) : List Out :=
  let g (i : Nat) : Desc := ds.getD i default
  let norm : List Out := [{ addr := (c.ctx (c.ctxOf x.u.die x.u.part)).train.normBase.toNat + 16 * bits (wordOf ws 0) 59 48, len := 16 }]
  match slotClass x.u.pos with
  | .platen =>
    if x.opc = 2 then (g 0).outs false else
    ds.flatMap (fun g =>
      if g.role = 3 ∧ x.slot.rbm = 0 then (if x.slot.wide then { g.wideView with sstat := false } else g).outs (!g.sstat || x.slot.wide)
      else if g.role = 4 ∧ x.slot.loss ∧ x.slot.keep then g.outs false
      else if g.role = 8 ∧ x.slot.rbm ≠ 0 then g.outs false else [])
  | .thatch => ds.flatMap (fun g => if g.role = 3 then (if x.slot.wide then { g.wideView with sstat := false } else g).outs (!g.sstat || x.slot.wide) else [])
  | .selection => (g 2).outs false
  | .update =>
    let w := wordOf ws
    let p := bits (w 0) 63 32
    let tab := match (c.ctx (c.ctxOf x.u.die x.u.part)).run with | some r => r.ocfg | none => []
    let o : Ocfg := tget default tab (updOcfg v)
    let sizes := [p / 2, p / max 1 (Desc.group.groupOfScl o.wscl.toNat), p, p / 128, p, p / 128]
    sizes.zipIdx.filterMap (fun n => let a := bits (w (n.2 + 1)) 47 0; if a = 0 then none else some { addr := a, len := n.1, inactive := true })
  | .collective =>
    let half (o : Desc) : List Out :=
      if !bit (wordOf ws 0) 34 then o.outs true else
      let cut (rs : List (Nat × Nat)) : List Out :=
        let n := rs.foldl (fun a r => a + r.2) 0
        (if x.u.die = .w then clipRuns 0 (n / 2) 0 rs else clipRuns (n / 2) n 0 rs).map (fun r => { space := o.space, addr := r.1, len := r.2 })
      cut o.runs ++ cut o.scaleRuns
    let gauge : List Out := if bit (wordOf ws 0) 35 then norm else []
    let sums : List Out :=
      (if bit (wordOf ws 7) 63 then (g (ds.length - 1)).outs false else (ds.drop 1).flatMap (fun g => g.outs false)) ++ gauge
    match x.opc with
    | 1 => sums
    | 2 => sums
    | 3 => half (g 2)
    | 4 => if bit (wordOf ws 0) 33 then (g 2).outs false else (g 3).outs false ++ (g 4).outs false
    | 5 => if bit (wordOf ws 0) 32 then [] else (g 2).outs false
    | 6 => (g 1).outs true
    | _ => (g 2).outs false
  | .spawn => if 0xF000 ≤ spProg v then ((g (ds.length - 1)).inStack x.target).outs true else []
  | _ => []

/-- Read `k` descriptors from an address, stopping at the first that cannot be read. -/
def Chip.readDescs (c : Chip) (n va : Nat) : Nat → Nat → List (List W64) → Chip × Except (Nat × AccFault) (List (List W64))
  | 0, _, acc => (c, .ok acc)
  | k + 1, i, acc =>
    let r := c.readVa n (va + 64 * i) 64
    match r.2 with
    | .error f => (r.1, .error (i, ⟨f.kind, if f.kind = faultEcc then f.addr else BitVec.ofNat 52 (va + 64 * i)⟩))
    | .ok bs => r.1.readDescs n va k (i + 1) (acc ++ [wordsOf bs])

/-- The trap cause of a list whose parameter block is missing or ill formed: the rules of collective lists have a cause of their own
(Table 10.9), every other such list breaks a descriptor list rule (Table 5.9). -/
def blockMissing (pos : Nat) : Nat := if pos = 117 then 0x13 else 0x07

/-- This die is participant 0 of the group a collective slot names. -/
def Chip.isRoot (c : Chip) (d : Die) (img : DieImage) (v : Nat) : Bool :=
  match (tget {} img.groups (colGroup v) : Group).plist with
  | p :: _ => decide (p.toNat % 2 ^ 11 = c.domain.moduleId.toNat + 2 ^ 10 * d.num)
  | [] => false

/-- Fetch and check the list of an entry on a unit (R138, R143, R144). -/
def Chip.fetchList (c : Chip) (u : UnitRef) (e : Entry) : Chip × Fetched :=
  match c.stream u.die u.part with
  | none => (c, .ok [] [] [] [])
  | some s =>
    let n := s.ctx
    let v := e.slot.toNat
    let t := (tget 0 s.image.dlists e.dlist : W64).toNat
    let count := bits t 57 48
    let addr := bits t 47 0
    if count = 0 then (c, .trap 0x07)
    else if addr % 64 ≠ 0 then (c, .fault 0 (af addr))
    else
      let r := c.readDescs n addr count 0 []
      let c := r.1
      match r.2 with
      | .error f => (c, .fault f.1 f.2)
      | .ok dl =>
        let ds := dl.map descOf
        let tile := decide (u.pos < 96) && decide (e.opc = 1)
        let defer := updDefer v
        let root := c.isRoot u.die s.image v
        let x : ListCtx :=
          { u := u, opc := e.opc, slot := if tile then e.tileSlot u.pos else default, hdr := if tile then tileHdr (dl.getD 0 []) else default, img := s.image,
            wides := c.wideChoice n (destPlaces u.pos e.opc v root ds []) dl, target := if slotClass u.pos = .spawn then spTarget v else 0 }
        let joint (c : Chip) (x : ListCtx) (dests : List Nat) (ws : List W64) : Chip × Fetched :=
          let views := viewList dl x.wides
          match jointCause x v views ws with
          | some k => (c, .trap k)
          | none => (c, .ok dl x.wides dests (c.listOuts x v views ws))
        match blockIndex x ds with
        | none =>
          match c.eachCause x defer 0 dl with
          | some k => (c, .trap k)
          | none => joint c x (destPlaces u.pos e.opc v root ds []) []
        | some b =>
          match c.eachCause x defer 0 (dl.take (b + 1)) with
          | some k => (c, .trap k)
          | none =>
            match ds[b]? with
            | none => (c, .trap (blockMissing u.pos))
            | some g =>
              if !g.isBlock ∨ (x.isTile ∧ g.space = 0) ∨ (slotClass u.pos = .update ∧ g.space ≠ 0) ∨ (x.slot.loss ∧ g.space ≠ 1) then
                (c, .trap (blockMissing u.pos))
              else
                let r := c.readSpace u 9 g.space g.addr 64
                match r.2 with
                | .error f => (r.1, .fault b f)
                | .ok bs =>
                  let dests := destPlaces u.pos e.opc v root ds (wordsOf bs)
                  let x := { x with wides := r.1.wideChoice n dests dl }
                  match r.1.blockCause n x v (wordsOf bs) <|> r.1.eachCause x defer (b + 1) (dl.drop (b + 1)) with
                  | some k => (r.1, .trap k)
                  | none => joint r.1 x dests (wordsOf bs)

/-- The entry takes no list: a NOP or a RELEASE. -/
def Entry.noList (e : Entry) (pos : Nat) : Bool := decide (e.opc = 0) || (decide (pos = 116) && decide (e.opc = 2))

/-- LIST_FETCH: the list of the op in progress, or when it has one, of the entry at the head of the queue. -/
def Chip.listFetch (c : Chip) (u : UnitRef) : Chip :=
  match c.stream u.die u.part with
  | none => c
  | some s =>
    if s.stopped then c else
    let k := s.unit u.pos
    let finish (e : Entry) (put : Chip → List (List W64) → List Nat → List Nat → List Out → Chip) : Chip :=
      let r := c.fetchList u e
      match r.2 with
      | .trap cause => r.1.raiseTrap u.die u.part u.pos cause 0 e.pc
      | .fault d f => r.1.midFault u.die u.part u.pos d e.dlist f
      | .ok dl wides dests outs => (put r.1 dl wides dests outs).feed u
    let head : Chip :=
      match k.queue with
      | [] => c
      | e :: t =>
        if e.noList u.pos || e.descs.isSome then c
        else finish e (fun c dl ws ds os => c.modStream u.die u.part (fun s => s.modUnit u.pos (fun k =>
          { k with queue := { e with descs := some dl, view := some { sel := (c.ctx s.ctx).train.active }, wides := ws, dests := ds, outs := os } :: t })))
    match k.op with
    | none => head
    | some o =>
      if o.e.noList u.pos || o.descs.isSome then head
      else finish o.e (fun c dl ws ds os => c.modOp u (fun o =>
        { o with descs := some dl, view := some { sel := (c.ctx s.ctx).train.active }, wides := ws, dests := ds, outs := os }))

def execListFetch (u : UnitRef) (s : State) : Host.Outcome State Fault Refusal := s.run (fun c => c.listFetch u)

/-! ### LINK_TAKE (R150) -/

/-- The linked descriptor `i` of a list with these links taken, if its count is still to be taken. -/
def pendingLink (dl : List (List W64)) (links : List Nat) (i : Nat) : Option Desc :=
  (dl[i]?).bind (fun ws => if (descOf ws).lvalid && !links.contains i then some (descOf ws) else none)

/-- The descriptor whose count a link take of a unit is for, whether it is a destination of its op, and whether it is the clip link of
a deferred UPDATE at the head of the queue (R224), which no op in progress claims. -/
def Chip.linkFor (c : Chip) (u : UnitRef) (i : Nat) : Option (Desc × Bool × Bool) :=
  match c.stream u.die u.part with
  | none => none
  | some s =>
    let k := s.unit u.pos
    let own := match k.op with
      | some o => if o.worked then none else (pendingLink (o.descs.getD []) o.links i).map (fun g => (g, o.dests.contains i, false))
      | none => none
    let head := match k.queue with
      | e :: _ => if e.deferred u.pos ∧ i + 1 = (e.descs.getD []).length then
          (pendingLink (e.descs.getD []) e.links i).map (fun g => (g, false, true)) else none
      | [] => none
    own <|> head

/-- Take a linked descriptor's count from its pair before the first access, from the empty half for destinations and the
full half for operands; a take that cannot be made waits until the half holds enough (R148, R150). -/
def Chip.linkTake (c : Chip) (u : UnitRef) (i : Nat) : Chip :=
  match c.linkFor u i with
  | none => c
  | some (g, dest, ahead) =>
    let d := if g.lxdie then u.die.other else u.die
    let p := c.pair u.part g.lpair
    let a : Ask := { u := u, desc := i, pair := p, empty := dest, n := g.lcount, ahead := ahead }
    let c := c.modDie d (fun m => { m with asks := m.asks.erase a })
    if c.semHas d p dest g.lcount then
      (((c.turn d p dest (c.contested d p dest g.lcount) (unitRequester d u)).granted d (.link a)).semTake d p dest g.lcount).feed u
    else
      let c := c.modDie d (fun m => { m with asks := m.asks ++ [a] })
      if ahead then c else c.modOp u (fun o => { o with waiting := true })

def execLinkTake (u : UnitRef) (desc : Nat) (s : State) : Host.Outcome State Fault Refusal := s.run (fun c => c.linkTake u desc)

/-- The op may work: its list is fetched, its links taken, its work not done. -/
def Op.ready (o : Op) : Bool := o.descs.isSome && o.linked && !o.worked

/-- An op that is to write a page during its copy waits for the switch (R101). -/
def Chip.blocked (c : Chip) (u : UnitRef) (o : Op) : Bool :=
  o.outs.any (fun x => decide (x.space = 0) && c.copying (c.ctxOf u.die u.part) x.addr x.len)

/-- Carry out `f` for the op in progress on a unit whose clock runs when it is one that `may` names, may work, and writes no page that is
being copied; bytes it races for with what other ops have written are free bytes from then on (R132). -/
def Chip.work (c : Chip) (u : UnitRef) (may : Op → Bool) (f : Chip → Op → Chip) : Chip :=
  match c.op u with
  | none => c
  | some o => if !(o.ready && may o) || c.clockStopped u then c else if c.blocked u o then c.opWaits u
    else f (c.raceBytes u o.id o.outs (o.ins u.pos)) o

/-! ### The weight cache (R151 to R153) -/

/-- A line filled under a key is in the weight cache of a die. -/
def DieSt.cached (m : DieSt) (line key : Nat) : Bool :=
  (tget [] m.cache (line % 24576)).any (fun l => decide (l.line = line) && decide (l.key = key))

/-- The 256-byte device lines a CACHE 1 read touches go through the cache: hits, waits on fills in flight, new fills. -/
def Chip.cacheRead (c : Chip) (d : Die) (n line key : Nat) : Chip :=
  let flying := (c.die d).fills.contains (line, key)
  if (c.die d).cached line key then
    (c.modDie d (fun m => { m with uses := m.uses + 1, cache := tmod [] m.cache (line % 24576) (·.map (fun l =>
      if l.line = line ∧ l.key = key then { l with used := m.uses } else l)) })).modSide n d (fun k => { k with wcHits := satAdd k.wcHits 1 })
  else if flying then c.modSide n d (fun k => { k with wcHits := satAdd k.wcHits 1 })
  else (c.modDie d (fun m => { m with fills := m.fills ++ [(line, key)] })).modSide n d (fun k => { k with wcMisses := satAdd k.wcMisses 1 })

/-- The presence bit of a line for a die. -/
def presenceBit (d : Die) : BitVec 2 := match d with | .w => 1 | .e => 2

/-- The least recently used of a set; ties go to the lowest way.
DEDUCED: log entry 91. -/
def lruLine : List CacheLine → Option CacheLine
  | [] => none
  | l :: t => match lruLine t with
    | none => some l
    | some m => if m.used < l.used then some m else some l

/-- A filled line in its set: a free way takes it, else the way of the least recently used line, which is evicted (R151). -/
def fillSet (set : List CacheLine) (l : CacheLine) : List CacheLine × Option CacheLine :=
  if set.length < 16 then (set ++ [l], none)
  else match lruLine set with
    | some v => (set.map (fun x => if x = v then l else x), some v)
    | none => (set, none)

/-- CACHE_FILL: a fill in flight for a line completes; a full set evicts its least recently used line and sends an eviction notice.
A notice for the filled line that is still on its way is overtaken by the fill, which sets the presence bit anew.
DEDUCED: log entry 91. -/
def Chip.cacheFill (c : Chip) (d : Die) (line : Nat) : Chip :=
  match (c.die d).fills.find? (fun f => decide (f.1 = line)) with
  | none => c
  | some f =>
    let st := line / 2 ^ 28
    let c := c.modDie d (fun m =>
      let r := fillSet (tget [] m.cache (line % 24576)) { line := line, key := f.2, used := m.uses }
      { m with fills := m.fills.filter (fun x => decide (x ≠ f)), uses := m.uses + 1
               cache := tput [] m.cache (line % 24576) r.1
               notices := m.notices.filter (fun x => decide (x ≠ line)) ++ (match r.2 with | some v => [v.line] | none => []) })
    c.modStk st (fun x => { x with presence := tmod 0 x.presence line (· ||| presenceBit d) })

def execCacheFill (die : Die) (line : Nat) (s : State) : Host.Outcome State Fault Refusal := s.run (fun c => c.cacheFill die line)

/-- INVALIDATE_SNOOP: a write to a present line drops it from every cache and clears its presence bits (R153). -/
def execInvalidateSnoop (line : Nat) (s : State) : Host.Outcome State Fault Refusal := s.run (fun c => c.snoop line)

/-- EVICTION_NOTICE: a notice on its way from a die's cache reaches the home, which clears the die's presence bit; one that finds it
clear is discarded (R153). -/
def execEvictionNotice (die : Die) (line : Nat) (s : State) : Host.Outcome State Fault Refusal :=
  s.run (fun c =>
    if (c.die die).notices.contains line then
      (c.modDie die (fun m => { m with notices := m.notices.erase line })).modStk (line / 2 ^ 28)
        (fun x => { x with presence := tmod 0 x.presence line (· &&& ~~~(presenceBit die)) })
    else c)

/-! ### Faults met in the memory itself, and wait cycles -/

/-- MID_STREAM_FAULT: an access of a unit meets a fault (R156). An uncorrectable error then lies in its 256-byte unit. -/
def execMidStreamFault (u : UnitRef) (kind : BitVec 4) (desc : BitVec 10) (addr : BitVec 52) (s : State) : Host.Outcome State Fault Refusal :=
  s.run (fun c =>
    let ecc := if kind = faultEcc ∧ addr.toNat < 2 ^ 39 then tput false c.ecc (addr.toNat / 256) true else c.ecc
    ({ c with ecc := ecc } : Chip).opFault u desc.toNat ⟨kind, addr⟩)

/-- Contexts that a context waits on, through any number of waits; `fuel` is their number. -/
def reaches (waits : List (Nat × Nat)) : Nat → Nat → Nat → Bool
  | 0, _, _ => false
  | f + 1, a, b => waits.any (fun w => decide (w.1 = a) && (decide (w.2 = b) || reaches waits f w.2 b))

/-- The cycle of waits that holds the lowest context of any cycle (R155). -/
def cycleOf (waits : List (Nat × Nat)) : List Nat :=
  let r := reaches waits waits.length
  match ((waits.map (·.1)).eraseDups).filter (fun a => r a a) with
  | [] => []
  | a :: t =>
    let m := t.foldl min a
    sortBy (fun a b => decide (a < b)) ((a :: t).filter (fun b => r m b && r b m))

end Sys2Proof.Machine
end

