-- ==== Sys2Proof/Machine/Rng.lean ====
section
/-!
DEFINITION. The lane generator, its positions and its draws (R286 to R293).
-/
namespace Sys2Proof.Machine

/-- One advance of a generator state (s0, s1): its output and the next state (R286). -/
def rngNext (g : W64 × W64) : W64 × (W64 × W64) :=
  let out := (g.1 * 5).rotateLeft 7 * 9
  let t := g.2 ^^^ g.1
  (out, (g.1.rotateLeft 24 ^^^ t ^^^ (t <<< 16), t.rotateLeft 37))

/-- A state as one 128-bit number: s0 in bits 63:0, s1 in bits 127:64. -/
def rngPack (g : W64 × W64) : Nat := g.2.toNat * 2 ^ 64 + g.1.toNat
def rngUnpack (n : Nat) : W64 × W64 := (BitVec.ofNat 64 n, BitVec.ofNat 64 (n >>> 64))

/-- The advance is linear over GF(2): a linear map is held as the images of the 128 unit states. -/
def rngApply (cols : List Nat) (n : Nat) : Nat :=
  ((List.range 128).zip cols).foldl (fun acc ic => if n.testBit ic.1 then acc ^^^ ic.2 else acc) 0

/-- The images of the unit states under one advance. -/
def rngCols : List Nat := (List.range 128).map (fun i => rngPack (rngNext (rngUnpack (2 ^ i))).2)

/-- The state reached by `pos` advances, by squaring the advance along the bits of `pos`; `fuel` bits are read. -/
def rngJumpAux : Nat → List Nat → Nat → Nat → Nat
  | 0, _, _, n => n
  | k + 1, cols, pos, n =>
    let n' := if pos % 2 = 1 then rngApply cols n else n
    if pos / 2 = 0 then n' else rngJumpAux k (cols.map (rngApply cols)) (pos / 2) n'

/-- The state at a position from the context seed (R287). -/
def rngJump (seed : BitVec 128) (pos : Nat) : W64 × W64 := rngUnpack (rngJumpAux 128 rngCols pos seed.toNat)

/-- The position a lane starts its op at (R288). -/
def rngPos (stream tile lane step : Nat) : Nat :=
  stream * 2 ^ 100 + tile * 2 ^ 80 + lane * 2 ^ 64 + (step % 2 ^ 40) * 2 ^ 24

/-- A lane with its part-used output and the number of outputs taken. -/
structure Lane where
  g : W64 × W64
  draws : List W16 := []
  taken : Nat := 0
  deriving DecidableEq, Repr, Inhabited

def Lane.seed (seed : BitVec 128) (stream tile lane step : Nat) : Lane :=
  { g := rngJump seed (rngPos stream tile lane step) }

/-- The four draws of an output, bits 15:0 first (R53). -/
def drawsOf (o : W64) : List W16 :=
  [o.extractLsb' 0 16, o.extractLsb' 16 16, o.extractLsb' 32 16, o.extractLsb' 48 16]

/-- The next 16-bit draw of a lane (R53, R72). -/
def Lane.draw (l : Lane) : W16 × Lane :=
  match l.draws with
  | d :: ds => (d, { l with draws := ds })
  | [] =>
    let r := rngNext l.g
    match drawsOf r.1 with
    | d :: ds => (d, { g := r.2, draws := ds, taken := l.taken + 1 })
    | [] => (0, l)

end Sys2Proof.Machine
end

