-- ==== Sys2Proof/Machine/Forme.lean ====
section
/-!
DEFINITION. Tensors as an op reads and writes them, and what a cell of a forme accumulates (R31, R43, R45 to R51, R60,
R61, R140).
-/
namespace Sys2Proof.Machine

/-- A lane past 2^24 outputs is recorded once (R290). -/
def ProofRegs.laneOver (k : ProofRegs) (stream tile : Nat) (ls : List Lane) : ProofRegs :=
  if !k.rngOver && ls.any (fun l => decide (2 ^ 24 < l.taken)) then
    { k with rngOver := true, rngTile := BitVec.ofNat 20 tile, rngStream := BitVec.ofNat 4 stream }
  else k

/-! ### Tensors -/

/-- A tensor's bytes as read: code bytes and scale bytes of each outer row. -/
structure Tensor where
  g : Desc
  rows : List (List Byte)
  scs : List (List Byte)
  deriving DecidableEq, Repr, Inhabited

/-- Element (i, j)'s code (R31). -/
def Tensor.code (t : Tensor) (i j : Nat) : Nat :=
  let r := t.rows.getD j []
  let w := fmtWidth t.g.fmt
  packGet w (fun k => r.getD k 0) (i * w)

/-- The scale of element (i, j): 1 when the tensor is unscaled. -/
def Tensor.scale (t : Tensor) (i j : Nat) : Val × Flags :=
  if t.g.scaled then scaleVal t.g.scaleE4M3 ((t.scs.getD j []).getD (i / t.g.group) 0) else (.fin ⟨1, 0⟩, {})

/-- Element (i, j)'s value. -/
def Tensor.val (t : Tensor) (i j : Nat) : Val × Flags := scaled (elemVal t.g.fmt (t.code i j)) (t.scale i j)

/-- An element as an FP32 operand. -/
def Tensor.fp (t : Tensor) (i j : Nat) : FlW32 :=
  let v := t.val i j
  let r := toF32 .near v.1
  (r.1, r.2.join v.2)

/-- The reads of a CACHE 1 descriptor pass the shared weight cache, one count for each 256-byte line. -/
def Chip.throughCache (c : Chip) (u : UnitRef) (addr len : Nat) : Chip :=
  let n := c.ctxOf u.die u.part
  let x := (c.seenBy u n).ctx n
  (List.range ((addr + len - 1) / 256 + 1 - addr / 256)).foldl (fun c i =>
    let va := (addr / 256 + i) * 256
    match x.page va with
    | some p => c.cacheRead u.die n ((p.copy (p.useB x .active)).dev (va % pageSize) / 256) p.key
    | none => c) c

/-- A read that the weight cache may serve: a line it holds is not read from its stack, so no error of the stack is met there
(R151, R156). -/
def Chip.readCached (c : Chip) (u : UnitRef) (role space addr len : Nat) : Chip × Except AccFault (List Byte) :=
  let x := (c.seenBy u (c.ctxOf u.die u.part)).ctx (c.ctxOf u.die u.part)
  let ecc := (List.range ((addr + len - 1) / 256 + 1 - addr / 256)).foldl (fun e i =>
    let va := (addr / 256 + i) * 256
    match x.page va with
    | some p =>
      let line := (p.copy (p.useB x .active)).dev (va % pageSize) / 256
      if (c.die u.die).cached line p.key then tput false e line false else e
    | none => e) c.ecc
  let r := ({ c with ecc := ecc } : Chip).readSpace u role space addr len
  let back : Chip := { r.1 with ecc := c.ecc }
  match r.2 with
  | .error f => (back, .error f)
  | .ok bs => (back.throughCache u addr len, .ok bs)

/-- Read byte runs one after another; CACHE 1 reads of context memory through the weight cache. -/
def Chip.readRuns (c : Chip) (u : UnitRef) (role space : Nat) (cache : Bool) : List (Nat × Nat) → List (List Byte) → Chip × Except AccFault (List (List Byte))
  | [], acc => (c, .ok acc)
  | (a, n) :: t, acc =>
    let r := if cache && decide (space = 0) then c.readCached u role space a n else c.readSpace u role space a n
    match r.2 with
    | .error f => (r.1, .error f)
    | .ok bs => r.1.readRuns u role space cache t (acc ++ [bs])

/-- Read a tensor (R140); a scaled extent that is no whole number of groups is out of range (R43). -/
def Chip.readTensor (c : Chip) (u : UnitRef) (g : Desc) : Chip × Except AccFault Tensor :=
  if g.scaled && decide (g.ext0 % g.group ≠ 0) then (c, .error (af g.addr)) else
  let r := c.readRuns u g.role g.space g.cache g.runs []
  match r.2 with
  | .error f => (r.1, .error f)
  | .ok rows =>
    let s := r.1.readRuns u g.role g.space g.cache g.scaleRuns []
    match s.2 with
    | .error f => (s.1, .error f)
    | .ok scs => (s.1, .ok { g := g, rows := rows, scs := scs })

/-- Codes packed into bytes from the least significant bit up; bits of the last byte beyond them keep `last` (R31). -/
def packBytes (w : Nat) (codes : List Nat) (last : Byte) : List Byte :=
  let n := codes.length * w
  let v := codes.foldr (fun x a => x % 2 ^ w + a * 2 ^ w) 0
  let hi := if n % 8 = 0 then 0 else (last.toNat / 2 ^ (n % 8)) * 2 ^ n
  leBytes (ceilDiv n 8) (v + hi)

/-- Write one outer row of codes. -/
def Chip.writeRow (c : Chip) (u : UnitRef) (g : Desc) (j : Nat) (codes : List Nat) : Chip × Option AccFault :=
  let w := fmtWidth g.fmt
  let a := g.addr + g.bitOff w 0 j / 8
  let n := ceilDiv (codes.length * w) 8
  let last := ((c.getSpace (c.ctxOf u.die u.part) u.die u.pos g.space (a + n - 1) 1)).getD 0 0
  c.writeSpace u g.role g.space a (packBytes w codes last)

/-- Write one outer row's scale bytes. -/
def Chip.writeScales (c : Chip) (u : UnitRef) (g : Desc) (j : Nat) (scs : List Byte) : Chip × Option AccFault :=
  c.writeSpace u g.role g.space (g.saddr + g.scaleOff 0 j) scs

/-! ### Accumulators -/

/-- The accumulation path of a pairing (R45). -/
inductive FormePath where
  | int | group | float
  deriving DecidableEq, Repr, Inhabited

def formePath (a w : Desc) (dq : Bool) : FormePath :=
  if fmtIsInt a.fmt && fmtIsInt w.fmt then
    (if !a.scaled && !w.scaled then .int else if a.scaled && w.scaled && dq then .group else .float)
  else .float

/-- Exact products of two runs of elements; none when one is a NaN. -/
def products (as ws : List (Val × Flags)) : Option (List Dy) :=
  (as.zip ws).foldr (fun p acc =>
    match p.1.1, p.2.1, acc with
    | .fin x, .fin y, some l => some (x.mul y :: l)
    | _, _, _ => none) (some [])

/-- Flags of the elements read. -/
def joinAll (l : List (Val × Flags)) : Flags := l.foldl (fun f v => f.join v.2) {}

/-- A magnitude cut toward zero on the grid 2^g. -/
def Dy.cut (d : Dy) (g : Int) : Dy :=
  if g ≤ d.e then d else ⟨d.m.sign * ((d.m.natAbs / 2 ^ (g - d.e).toNat : Nat) : Int), g⟩

/-- The float window of one cycle (R47): the sum and whether a product lost a bit. -/
def window (ps : List Dy) : Dy × Bool :=
  let nz := ps.filter (fun d => !d.isZero)
  match nz with
  | [] => (Dy.zero, false)
  | d :: t =>
    let e := t.foldl (fun m x => max m x.lead) d.lead
    let g := e - 33
    (nz.foldl (fun s x => s.add (x.cut g)) Dy.zero, nz.any (fun x => !((x.sub (x.cut g)).isZero)))

/-- An FP32 accumulator with its error word. -/
structure Acc where
  acc : W32 := 0
  err : W32 := 0
  f : Flags := {}
  deriving DecidableEq, Repr, Inhabited

/-- Add an exact sum: plainly with one rounding (R48, R51), or compensated (R49). -/
def Acc.add (a : Acc) (cmp : Bool) (s : Dy) : Acc :=
  if fnan? a.acc then a
  else if s.isZero then a
  else if cmp then
    let x := toF32 .near (.fin s)
    let t := fadd32 a.acc x.1
    let z := (fsub32 t.1 a.acc).1
    let e := (fadd32 (fsub32 a.acc (fsub32 t.1 z).1).1 (fsub32 x.1 z).1).1
    { acc := t.1, err := (fadd32 a.err e).1, f := a.f.join (x.2.join t.2) }
  else
    match (f32 a.acc).1 with
    | .nan => a
    | .fin d => let r := toF32 .near (.fin (d.add s)); { a with acc := r.1, f := a.f.join r.2 }

/-- A NaN product makes the accumulator NaN for the rest of the block (R48). -/
def Acc.poison (a : Acc) : Acc := { a with acc := nan32, f := a.f.join fNan }

def Acc.out (a : Acc) (cmp : Bool) : FlW32 :=
  if cmp && !fnan? a.acc then let r := fadd32 a.acc a.err; (r.1, a.f.join r.2) else (a.acc, a.f)

/-- The float path over runs of `p` pairs (R47, R48). -/
def dotFloat (p : Nat) (cmp : Bool) (as ws : List (Val × Flags)) : FlW32 :=
  let run (a : Acc) (x : List (Val × Flags) × List (Val × Flags)) : Acc :=
    match products x.1 x.2 with
    | none => a.poison
    | some ps =>
      let s := window ps
      let a := if s.2 then { a with f := a.f.join fTrunc } else a
      a.add cmp s.1
  (((chunks p as).zip (chunks p ws)).foldl run {}).out cmp

/-- The group path over runs of `g` elements (R51). -/
def dotGroup (g : Nat) (cmp : Bool) (as ws : List (Val × Flags)) : FlW32 :=
  let run (a : Acc) (x : List (Val × Flags) × List (Val × Flags)) : Acc :=
    match products x.1 x.2 with
    | none => a.poison
    | some ps => a.add cmp (ps.foldl Dy.add Dy.zero)
  (((chunks g as).zip (chunks g ws)).foldl run {}).out cmp

/-- The integer accumulator: its value, whether it is saturated (R46). -/
def dotInt (p : Nat) (e : Int) (as ws : List (Val × Flags)) : FlW32 :=
  let m (v : Val × Flags) : Int := match v.1 with | .fin d => d.m | .nan => 0
  let run (a : Int × Bool) (x : List (Val × Flags) × List (Val × Flags)) : Int × Bool :=
    if a.2 then a else
    let s := (x.1.zip x.2).foldl (fun t y => t + m y.1 * m y.2) a.1
    if (2 ^ 31 : Nat) ≤ s then ((2 ^ 31 : Nat) - 1, true)
    else if s < -((2 ^ 31 : Nat) : Int) then (-((2 ^ 31 : Nat) : Int), true) else (s, false)
  let r := ((chunks p as).zip (chunks p ws)).foldl run (0, false)
  let v := toF32 .near (.fin ⟨r.1, e⟩)
  (v.1, v.2.join (if r.2 then fOvf else {}))

/-- One cell's block result as FP32, with the flags of the operands read. -/
def cell (path : FormePath) (a w : Desc) (cmp : Bool) (as ws : List (Val × Flags)) : FlW32 :=
  let p := pairsPerPass a.fmt w.fmt
  let r := match path with
    | .int => dotInt p (fmtImp a.fmt + fmtImp w.fmt) as ws
    | .group => dotGroup (min a.group w.group) cmp as ws
    | .float => dotFloat p cmp as ws
  (r.1, r.2.join ((joinAll as).join (joinAll ws)))

/-- The whole product of a tile: rows of R values for C columns. -/
def formeTile (a w : Tensor) (dq cmp : Bool) (rows cols k : Nat) : List (List FlW32) :=
  let path := formePath a.g w.g dq
  let wc := (List.range cols).map (fun j => (List.range k).map (fun i => w.val i j))
  (List.range rows).map (fun r =>
    let ar := (List.range k).map (fun i => a.val i r)
    wc.map (fun ws => cell path a.g w.g cmp ar ws))

end Sys2Proof.Machine
end

