-- ==== Sys2Proof/Machine/Select.lean ====
section
/-!
DEFINITION. Selection (R173 to R181): scaled rows, top-k, threshold, sampling and the merge of records in SELECT.
-/
namespace Sys2Proof.Machine

/-- A candidate: scaled score and global index. -/
abbrev Cand := W32 × BitVec 20

/-- Candidate order (R176): descending u, then ascending index. -/
def candLt (a b : Cand) : Bool :=
  if (flt32 b.1 a.1).1 then true else if (flt32 a.1 b.1).1 then false else decide (a.2.toNat < b.2.toNat)

def insertCand (k : Nat) (c : Cand) : List Cand → List Cand
  | [] => if k = 0 then [] else [c]
  | x :: t => if k = 0 then [] else if candLt c x then (c :: x :: t).take k else x :: insertCand (k - 1) c t

/-- The K first candidates in the order of R176. -/
def topK (k : Nat) (l : List Cand) : List Cand := l.foldl (fun acc c => insertCand k c acc) []

def massOf (l : List Cand) : Nat := sumNat' (l.map (fun c => massTerm c.1))
where sumNat' (l : List Nat) : Nat := l.foldl (· + ·) 0

/-- A selection parameter block (Table 8.1). -/
structure SelParams where
  parts : Nat
  src : Bool
  k : Nat
  rtemp : W32
  p17 : Nat
  thr : W32
  dest : Die
  tokBase : Nat
  vbase : Nat
  deriving DecidableEq, Repr, Inhabited

def selParams (ws : List W64) : SelParams :=
  let w := wordOf ws
  { parts := bits (w 0) 47 40, src := bit (w 0) 39, k := bits (w 0) 38 32, rtemp := BitVec.ofNat 32 (bits (w 0) 31 0),
    p17 := bits (w 1) 48 32, thr := BitVec.ofNat 32 (bits (w 1) 31 0), dest := Die.ofBit (bits (w 2) 32 32),
    tokBase := bits (w 2) 31 0, vbase := bits (w 3) 19 0 }

/-- What a unit works on: candidates, the row's mass, its flags, whether a score is NaN. -/
structure SelInput where
  cands : List Cand
  mass : Nat
  f : Flags
  ovf : Bool
  nan : Bool
  deriving DecidableEq, Repr, Inhabited

/-- A row of FP32 scores, each with the flags of its reading (R36, R173, R174). -/
def scoreInput (p : SelParams) (zs : List FlW32) : SelInput :=
  let us := zs.map (fun z => let r := scaleScore p.rtemp z.1; (r.1, r.2.join z.2))
  let f := us.foldl (fun f u => f.join u.2) {}
  let cands := us.zipIdx.map (fun x => (x.1.1, BitVec.ofNat 20 (p.vbase + x.2)))
  { cands := cands, mass := if f.nan then 0 else massOf cands, f := f, ovf := f.ovf, nan := f.nan }

/-- LSE of a mass (R176): FLOG(fp32(MASS)), zero for an empty row. -/
def lseOf (m : Nat) : FlW32 :=
  if m = 0 then (0, {}) else let r := massF32 m; let l := flog32 r.1; (l.1, r.2.join l.2)

/-- The part of a record every mode fills alike. -/
def baseRecord (p : SelParams) (i : SelInput) (k part row : Nat) : SelRecord :=
  { token := BitVec.ofNat 32 (p.tokBase + row), ovf := i.ovf, nan := i.nan, rtemp := p.rtemp, k := BitVec.ofNat 7 k,
    part := BitVec.ofNat 4 part }

/-- A NaN row (R181). -/
def nanRecord (p : SelParams) (i : SelInput) (k part row : Nat) : SelRecord :=
  { baseRecord p i k part row with lse := nan32 }

/-- Top-k (R176): the record and flags of its finishing work. -/
def selTop (p : SelParams) (i : SelInput) (k part row : Nat) : SelRecord × Flags :=
  if i.nan then (nanRecord p i k part row, i.f) else
  let es := topK k i.cands
  let l := lseOf i.mass
  ({ baseRecord p i k part row with mass := BitVec.ofNat 256 i.mass, selm := BitVec.ofNat 256 (massOf es), lse := l.1, entries := es },
   i.f.join l.2)

/-- Threshold mode (R177): elements above THR in ascending index, as many as fit. -/
def selThreshold (p : SelParams) (i : SelInput) (k fit part row : Nat) : SelRecord × Flags :=
  if i.nan then (nanRecord p i k part row, i.f) else
  let q := i.cands.filter (fun c => (flt32 p.thr c.1).1)
  let es := q.take fit
  let l := lseOf i.mass
  let b : SelRecord :=
    { baseRecord p i k part row with
      mass := BitVec.ofNat 256 i.mass, selm := BitVec.ofNat 256 (massOf es), lse := l.1
      count := BitVec.ofNat 32 es.length, cut := decide (fit < q.length), entries := es }
  (b, i.f.join l.2)

/-- Cumulative masses of entries. -/
def cumMass : Nat → List Cand → List Nat
  | _, [] => []
  | a, c :: t => (a + massTerm c.1) :: cumMass (a + massTerm c.1) t

/-- Sampling mode (R178): cut by P17, then one draw by the row's generator. -/
def selSample (p : SelParams) (i : SelInput) (k part row : Nat) (out : W64) : SelRecord × Flags :=
  let t := selTop p i k part row
  if i.nan then t else
  let cs := cumMass 0 t.1.entries
  let total := cs.getLastD 0
  let cut := cs.findIdx (fun c => decide (p.p17 * total ≤ c * 65536))
  let target := out.toNat * cs.getD cut 0 / 2 ^ 64
  let draw := cs.findIdx (fun c => decide (target < c))
  if t.1.entries.isEmpty then t else
  let s := BitVec.ofNat 256 (cs.getD cut 0)
  ({ t.1 with entries := t.1.entries.take (cut + 1), draw := BitVec.ofNat 6 draw, drawn := true, selm := s }, t.2)

/-- CTRL (Table 8.3) with its N field. -/
def SelRecord.ctrl (r : SelRecord) (n : Nat) : Nat :=
  b2n r.cut * 2 ^ 26 + b2n r.ovf * 2 ^ 25 + b2n r.nan * 2 ^ 24 + b2n r.drawn * 2 ^ 22 + r.draw.toNat * 2 ^ 16 + n % 128 * 2 ^ 8 + 0x11

/-- A record as bytes in memory, with room for `room` entries (Tables 8.2, R180). -/
def SelRecord.bytes (r : SelRecord) (n room : Nat) : List Byte :=
  leBytes 32 r.mass.toNat ++ leBytes 32 r.selm.toNat ++ leBytes 4 r.lse.toNat ++ leBytes 4 r.token.toNat ++
  leBytes 4 r.count.toNat ++ leBytes 4 (r.ctrl n) ++ leBytes 4 r.rtemp.toNat ++ leBytes 1 r.k.toNat ++ leBytes 1 r.part.toNat ++
  leBytes 10 0 ++ (r.entries.flatMap (fun e => leBytes 8 (e.1.toNat + e.2.toNat * 2 ^ 32))) ++ leBytes (8 * (room - r.entries.length)) 0

/-- A record read back from memory. -/
def recordOf (bs : List Byte) : SelRecord :=
  let at' (o n : Nat) : Nat := leNat ((bs.drop o).take n)
  let c := at' 76 4
  let e (i : Nat) : W32 × BitVec 20 := let v := at' (96 + 8 * i) 8; (BitVec.ofNat 32 v, BitVec.ofNat 20 (v >>> 32))
  { mass := BitVec.ofNat 256 (at' 0 32), selm := BitVec.ofNat 256 (at' 32 32), lse := BitVec.ofNat 32 (at' 64 4),
    token := BitVec.ofNat 32 (at' 68 4), count := BitVec.ofNat 32 (at' 72 4), cut := bit c 26, ovf := bit c 25, nan := bit c 24,
    drawn := bit c 22, draw := BitVec.ofNat 6 (bits c 21 16), rtemp := BitVec.ofNat 32 (at' 80 4), k := BitVec.ofNat 7 (at' 84 1),
    part := BitVec.ofNat 4 (at' 85 1), entries := (List.range (bits c 14 8)).map e }

/-- Records in place of scores (R179): their masses summed, the union of their entries. -/
def recordInput (rs : List SelRecord) : SelInput :=
  let nan := rs.any (·.nan)
  { cands := rs.flatMap (·.entries), mass := if nan then 0 else rs.foldl (fun a r => a + r.mass.toNat) 0,
    f := if nan then fNan else {}, ovf := rs.any (·.ovf), nan := nan }

/-- Cycles of one row (R176, R178, R179). -/
def rowCycles (mode : Nat) (src : Bool) (scores : Nat) (recs : List SelRecord) (n : Nat) : Nat :=
  let scan := if src then recs.foldl (fun a r => a + 4 + ceilDiv r.entries.length 8) 0
    else max (ceilDiv scores (if mode = 0 ∨ mode = 2 then 64 else 32)) 24
  if mode = 3 then scan + n + 16 else scan

/-! ### SELECT -/

/-- A row's input: scores, or PARTS records of equal length laid one after another in the row (R179).
DEDUCED: log entry 35. -/
def Chip.rowInput (c : Chip) (u : UnitRef) (g : Desc) (p : SelParams) (t : Option Tensor) (row : Nat) : Chip × Except AccFault (SelInput × Nat × List SelRecord) :=
  if p.src then
    let len := g.ext0 / p.parts
    let r := c.readSpace u g.role g.space (g.addr + g.bitOff (fmtWidth g.fmt) 0 row / 8) (len * p.parts)
    match r.2 with
    | .error f => (r.1, .error f)
    | .ok bs =>
      let rs := (chunks len bs).map recordOf
      (r.1, .ok (recordInput rs, 0, rs))
  else
    match t with
    | none => (c, .ok (default, 0, []))
    | some t =>
      let zs := (List.range g.ext0).map (fun i => t.fp i row)
      (c, .ok (scoreInput p zs, g.ext0, []))

/-- One row of a SELECT: its record and the row's flags and cycles. -/
def selRow (p : SelParams) (mode k part row fit : Nat) (i : SelInput) (out : W64) : SelRecord × Flags :=
  match mode with
  | 2 => selThreshold p i k fit part row
  | 3 => selSample p i k part row out
  | _ => selTop p i k part row

/-- The rows of a SELECT one after another: input, record, output write. A threshold record of more than 64 entries has no place for
their number in its 7-bit N, a free value there.
DESIGN CHOICE: log entry 35. -/
def Chip.selRows (c : Chip) (u : UnitRef) (o : Op) (p : SelParams) (gi go : Desc) (t : Option Tensor) (seed : BitVec 128) :
    List Nat → Flags → Nat → Chip × Except (Nat × AccFault) (Flags × Nat)
  | [], f, cyc => (c, .ok (f, cyc))
  | row :: rest, f, cyc =>
    let v := o.e.slot.toNat
    let mode := selMode v
    let k := selK v
    let r := c.rowInput u gi p t row
    match r.2 with
    | .error e => (r.1, .error (1, e))
    | .ok (i, n, rs) =>
      let out := (rngNext (Lane.seed seed 2 o.e.tile row o.step.toNat).g).1
      let fit := (go.ext0 - 96) / 8
      let x := selRow p mode k u.part row fit i out
      let room := if mode = 2 then x.1.entries.length else k
      let nf := if 64 < x.1.entries.length then r.1.freeWord.1.toNat else x.1.entries.length
      let c := if 64 < x.1.entries.length then r.1.freeWord.2 else r.1
      let w := c.writeSpace u go.role go.space (go.addr + go.bitOff (fmtWidth go.fmt) 0 row / 8) (x.1.bytes nf room)
      match w.2 with
      | some e => (w.1, .error (2, e))
      | none => w.1.selRows u o p gi go t seed rest (f.join x.2) (cyc + rowCycles mode p.src n rs x.1.entries.length)

/-- SELECT over the rows its list names. -/
def Chip.select (c : Chip) (u : UnitRef) : Chip :=
  c.work u (fun o => decide (slotClass u.pos = .selection) && decide (o.e.opc = 1)) (fun c o =>
    let ds := viewList (o.descs.getD []) o.wides
    let gp := ds.getD 0 default
    let gi := ds.getD 1 default
    let go := ds.getD 2 default
    let b := c.readSpace u 9 gp.space gp.addr 64
    match b.2 with
    | .error f => b.1.opFault u 0 f
    | .ok bs =>
      let p := selParams (wordsOf bs)
      let n := c.ctxOf u.die u.part
      let tr : Chip × Except AccFault (Option Tensor) :=
        if p.src ∨ gi.ext1 = 0 then (b.1, .ok none)
        else let r := b.1.readTensor u gi; (r.1, match r.2 with | .ok t => .ok (some t) | .error f => .error f)
      match tr.2 with
      | .error f => tr.1.opFault u 1 f
      | .ok t =>
        let r := tr.1.selRows u o p gi go t (c.ctx n).seed (List.range gi.ext1) {} 0
        match r.2 with
        | .error e => r.1.opFault u e.1 e.2
        | .ok (f, cyc) =>
          (r.1.raiseFlags u.die (raiseOrder u.pos) n o.e.tag f 0 0).opDone u cyc)

def execSelect (u : UnitRef) (s : State) : Host.Outcome State Fault Refusal := s.run (fun c => c.select u)

end Sys2Proof.Machine
end

