-- ==== Sys2Proof/Machine/Gutter.lean ====
section
/-!
DEFINITION. The Gutter merge stage and buffer: OPEN, credits and arriving records, the merge into a packet, RELEASE (R182 to R189),
and the stack selection units that send their records there (R104, R107).
-/
namespace Sys2Proof.Machine

def gutKey (part token : Nat) : Nat := part * 2 ^ 32 + token % 2 ^ 32
def gutBytes : Nat := 32 * 2 ^ 20
def mergeEntries : Nat := 256

def Packet.size (p : Packet) : Nat := 32 + 6 * p.k

/-- A packet as it is stored (Tables 8.5 and 8.6). -/
def Packet.bytes (p : Packet) : List Byte :=
  leBytes 4 (b2n p.ovf * 2 ^ 26 + b2n p.nan * 2 ^ 25 + p.shards.toNat * 2 ^ 16 + p.entries.length % 128 * 2 ^ 8 + 0x11) ++
  leBytes 4 (p.tag.toNat * 2 ^ 16 + p.k % 128 * 2 ^ 8) ++ leBytes 4 p.token.toNat ++ leBytes 4 0 ++ leBytes 4 p.rtemp.toNat ++
  leBytes 4 p.sel.toNat ++ leBytes 4 p.tail.toNat ++ leBytes 4 p.lse.toNat ++
  p.entries.flatMap (fun e => leBytes 6 (e.1.toNat * 2 ^ 24 + e.2.toNat)) ++ leBytes (6 * (p.k - p.entries.length)) 0

/-- The token lies in an open range. -/
def OpenRange.covers (r : OpenRange) (token : Nat) : Bool :=
  decide (r.first.toNat ≤ token) && decide (token < r.first.toNat + r.count)

/-- The lowest token of a range not yet stored. -/
def OpenRange.lowest (r : OpenRange) : Option Nat :=
  ((List.range r.count).find? (fun i => !(tget false r.got i))).map (fun i => r.first.toNat + i)

/-- Partitions with an open range. -/
def Gutter.openRanges (g : Gutter) : List (Nat × OpenRange) := g.ranges.filterMap (fun kv => kv.2.map (fun r => (kv.1, r)))

/-- The token is the lowest unstored one of its partition's range, whose table entry and space are reserved (R188). -/
def Gutter.reserved (g : Gutter) (part token : Nat) : Bool :=
  match tget none g.ranges part with
  | some r => decide (r.lowest = some token)
  | none => false

/-- A new token finds a merge-table entry: the reserved one, or one beyond the reservations (R188, R189). -/
def Gutter.entryFree (g : Gutter) (part token : Nat) : Bool :=
  g.reserved part token ||
  (let used := (g.merge.filter (fun kv => !(g.reserved (kv.1 / 2 ^ 32) (kv.1 % 2 ^ 32)))).length
   decide (used + g.openRanges.length < mergeEntries))

/-- Bytes stored. -/
def Gutter.bytesUsed (g : Gutter) : Nat :=
  g.packets.foldl (fun a kv => match kv.2 with | some p => a + p.size | none => a) 0



/-- The records of a token so far. -/
def Gutter.records (g : Gutter) (part token : Nat) : List (Nat × SelRecord) :=
  match tget none g.merge (gutKey part token) with
  | some m => m.records
  | none => []

/-- A record from a source is still expected for a token (R183). -/
def Gutter.expects (g : Gutter) (r : OpenRange) (part source token : Nat) : Bool :=
  let have' := (g.records part token).filter (fun x => decide (x.1 = source))
  !(tget false r.got (token - r.first.toNat)) &&
  (if source < 8 then bit r.stks.toNat source && have'.isEmpty else decide (have'.length < r.remote))

/-- All expected records of a token are there. -/
def OpenRange.complete (r : OpenRange) (recs : List (Nat × SelRecord)) : Bool :=
  decide (recs.length = popcount 8 r.stks.toNat + r.remote)

/-- Bytes that the packets of tokens whose records are all there will take. -/
def Gutter.bytesDue (g : Gutter) : Nat :=
  g.merge.foldl (fun a kv => match kv.2, tget none g.ranges (kv.1 / 2 ^ 32) with
    | some m, some r => if r.complete m.records then a + 32 + 6 * r.k else a
    | _, _ => a) 0

/-- A packet of a token finds buffer space (R188). -/
def Gutter.spaceFree (g : Gutter) (part token k : Nat) : Bool :=
  let kept := (g.openRanges.filter (fun r => decide (r.1 ≠ part) || !(g.reserved part token))).foldl (fun a r => a + 32 + 6 * r.2.k) 0
  decide (g.bytesUsed + g.bytesDue + (32 + 6 * k) + kept ≤ gutBytes)

/-- The NLP of an entry: max(lse - u, 0) in units of 2^-16, rounded to nearest even, limited (R184). -/
def nlpOf (lse u : W32) : BitVec 24 × Flags :=
  let d := fsub32 lse u
  match (f32 d.1).1 with
  | .nan => (0, d.2)
  | .fin x => if x.m < 0 then (0, d.2) else (BitVec.ofNat 24 (min ((x.shift 16).toQuot.onGrid 0 .near) 0xFFFFFF), d.2)

/-- A NaN packet (R185). -/
def nanPacket (r : OpenRange) (token : Nat) (rtemp : W32) (ovf : Bool) (shards : Byte) : Packet :=
  { lse := nan32, tail := nan32, sel := nan32, rtemp := rtemp, token := BitVec.ofNat 32 token, tag := r.tag, k := r.k, ovf := ovf,
    nan := true, shards := shards }

/-- Stacks that contributed entries. -/
def shardBits (recs : List (Nat × SelRecord)) : Byte :=
  recs.foldl (fun b x => if x.1 < 8 ∧ !x.2.entries.isEmpty then b ||| BitVec.ofNat 8 (2 ^ x.1) else b) 0

/-- The packet of a token (R184 to R186) and the flags under the OPEN's tag. The RTEMP of a packet whose records differ in it is not
stated: a free value that the order of arrival does not change.
DESIGN CHOICE: log entry 96. -/
def mergePacket (r : OpenRange) (token : Nat) (recs : List (Nat × SelRecord)) : Packet × Flags :=
  let rs := recs.map (·.2)
  let rtemp := match rs with | x :: _ => x.rtemp | [] => 0
  let ovf := rs.any (·.ovf)
  let sh := shardBits recs
  if rs.any (fun x => decide (x.rtemp ≠ rtemp)) then
    (nanPacket r token (Config.mixedRtemp (sortBy (fun a b => decide (a.toNat < b.toNat)) (rs.map (·.rtemp)))) ovf sh, fNan)
  else if rs.any (·.nan) then (nanPacket r token rtemp ovf sh, {})
  else
    let mass := rs.foldl (fun a x => a + x.mass.toNat) 0
    let sel := topK r.k (rs.flatMap (·.entries))
    let selm := massOf sel
    let fm := massF32 mass
    let lse := flog32 fm.1
    let es := sel.map (fun e => (nlpOf lse.1 e.1, e.2))
    let s := fdiv32 (massF32 selm).1 fm.1
    let t := fdiv32 (massF32 (mass - selm)).1 fm.1
    ({ lse := lse.1, tail := t.1, sel := s.1, rtemp := rtemp, token := BitVec.ofNat 32 token, tag := r.tag, k := r.k, ovf := ovf,
       nan := false, shards := sh, entries := es.map (fun e => (e.1.1, e.2)) },
     es.foldl (fun f e => f.join e.1.2) (fm.2.join (lse.2.join (s.2.join t.2))))

/-- Records of a token with differing K, or an OPEN whose K is above theirs (Table 8.11). -/
def kMismatch (r : OpenRange) (recs : List (Nat × SelRecord)) : Bool :=
  recs.any (fun x => decide (x.2.k.toNat < r.k) || recs.any (fun y => decide (y.2.k ≠ x.2.k)))

/-- The OPEN op of a partition. -/
def openUnit (d : Die) (part : Nat) : UnitRef := { die := d, part := part, pos := 116 }

/-- A token's merge completes: the packet takes its space, the last one ends the OPEN's work (R183, R187). -/
def Chip.storePacket (c : Chip) (d : Die) (part token : Nat) (r : OpenRange) (recs : List (Nat × SelRecord)) : Chip :=
  let u := openUnit d part
  if kMismatch r recs then c.opTrap u 0x11 else
  let p := mergePacket r token recs
  let r' := { r with got := tput false r.got (token - r.first.toNat) true }
  let last := decide (r'.got.length = r.count)
  let c := c.modDie d (fun m => { m with gut :=
    { m.gut with packets := tput none m.gut.packets (gutKey part token) (some p.1)
                 merge := tput none m.gut.merge (gutKey part token) none
                 released := tput false m.gut.released (gutKey part token) false
                 ranges := tput none m.gut.ranges part (if last then none else some r')
                 stored := satAdd m.gut.stored 1 } })
  let c := c.raiseFlags d (raiseOrder 116) (c.ctxOf d part) r.tag.toNat p.2 0 0
  if last then c.opDone u 0 else c.modOp u (fun o => { o with busy := true })

/-- The first records of each partition in a lane, in lane order. -/
def laneHeads (l : List SelRecord) : List SelRecord :=
  l.foldl (fun acc x => if acc.any (fun y => decide (y.part = x.part)) then acc else acc ++ [x]) []

/-- A record the merge stage can accept now. -/
def Gutter.accepts (g : Gutter) (source : Nat) (x : SelRecord) : Bool :=
  let part := x.part.toNat
  let token := x.token.toNat
  match tget none g.ranges part with
  | none => false
  | some r =>
    r.covers token && g.expects r part source token &&
    (!(g.records part token).isEmpty || g.entryFree part token) &&
    (!(r.complete (g.records part token ++ [(source, x)])) || g.spaceFree part token r.k)

/-- A record joins its token's merge-table entry. -/
def Gutter.hold (g : Gutter) (source : Nat) (x : SelRecord) : Gutter :=
  let m : MergeEntry := { records := g.records x.part.toNat x.token.toNat ++ [(source, x)] }
  { g with merge := tput none g.merge (gutKey x.part.toNat x.token.toNat) (some m) }

/-- The merge table as it will be when the records on the lanes, which hold their credits, have arrived. -/
def Gutter.arrivals (g : Gutter) : Gutter := g.lanes.foldl (fun a kv => kv.2.foldl (fun a x => a.hold kv.1 x) a) g

/-- A source asks for credit for a record (R148, R182, R188): the merge stage can take it, and no source that waits for what the two
cannot both have comes first in the rotation. The record it refuses waits.
DEDUCED: log entry 36. -/
def Gutter.ask (g : Gutter) (source : Nat) (x : SelRecord) : Bool × Gutter :=
  let v := g.arrivals
  let refused : Gutter := if g.asking.contains (source, x) then g else { g with asking := g.asking ++ [(source, x)] }
  if !v.accepts source x then (false, refused)
  else
    let rivals := g.asking.filter (fun y => decide (y.1 ≠ source) && v.accepts y.1 y.2 && !((v.hold source x).accepts y.1 y.2))
    let turn (s : Nat) : Nat := (s + 9 - g.turn % 9) % 9
    if rivals.any (fun y => decide (turn y.1 < turn source)) then (false, refused)
    else (true, { g with asking := g.asking.erase (source, x), turn := if rivals.isEmpty then g.turn else (source + 1) % 9 })

/-- A record reaches the merge table; the last one expected makes the packet. -/
def Chip.recordTaken (c : Chip) (d : Die) (source : Nat) (x : SelRecord) : Chip :=
  let part := x.part.toNat
  let token := x.token.toNat
  match tget none (c.die d).gut.ranges part with
  | none => c
  | some r =>
    let recs := (c.die d).gut.records part token ++ [(source, x)]
    let c := (c.modDie d (fun m => { m with gut := m.gut.hold source x })).modOp (openUnit d part) (fun o => { o with busy := true })
    if r.complete recs then c.storePacket d part token r recs else c

/-- The first records of each partition and group among the remote ones. -/
def remoteHeads (l : List (Nat × SelRecord)) : List (Nat × SelRecord) :=
  l.foldl (fun acc x => if acc.any (fun y => decide (y.1 = x.1) && decide (y.2.part = x.2.part)) then acc else acc ++ [x]) []

/-- A remote record that the merge stage can take now: the open range names its group (R183). -/
def Gutter.acceptsRemote (g : Gutter) (x : Nat × SelRecord) : Bool :=
  (match tget none g.ranges x.2.part.toNat with | some r => decide (r.group = x.1) | none => false) && g.arrivals.accepts 8 x.2

/-- GUTTER_RECORD_ARRIVAL: a record on its way from a stack 0 to 7, or waiting as a remote record at 8, is accepted (R183).
DEDUCED: log entry 36. -/
def Chip.recordArrival (c : Chip) (d : Die) (source : Nat) : Chip :=
  let g := (c.die d).gut
  if (c.die d).dbg.frozen then c
  else if source = 8 then
    match (remoteHeads g.remote).find? g.acceptsRemote with
    | none => c
    | some x =>
      let a := g.ask 8 x.2
      if a.1 then (c.modDie d (fun m => { m with gut := { a.2 with remote := g.remote.erase x } })).recordTaken d 8 x.2
      else c.modDie d (fun m => { m with gut := a.2 })
  else
    match (laneHeads (tget [] g.lanes source)).find? (g.accepts source) with
    | none => c
    | some x => (c.modDie d (fun m => { m with gut :=
        { m.gut with lanes := tput [] m.gut.lanes source ((tget [] g.lanes source).erase x) } })).recordTaken d source x

def execGutterRecordArrival (die : Die) (source : Nat) (s : State) : Host.Outcome State Fault Refusal :=
  s.run (fun c => c.recordArrival die source)

/-! ### Stack selection units -/

/-- The oldest readable entry that a unit of a stack works on: VOCAB rows go to unit r mod 2, ROUTE rows to unit 0. -/
def nextEntry (unit : Nat) (l : List LogitsEntry) : Option LogitsEntry := l.find? (fun e => e.readable && decide (e.unit = unit))

/-- The record of a ring entry and the flags of its selection. -/
def LogitsEntry.record (e : LogitsEntry) : SelRecord × Flags :=
  let p := selParams e.params
  selTop p (scoreInput p (e.scores.map (fun z => (z, {})))) p.k e.part e.row

/-- STACK_SELECTION: one row of the logits ring becomes a record, which goes onto the Gutter lane or, for ROUTE, to its
destination in the shared store; the ring entry is freed. A record that finds no credit keeps its entry (R104, R107, R176, R180 to
R182). -/
def Chip.stackSelect (c : Chip) (stack unit : Nat) : Chip :=
  match nextEntry unit (c.stk stack).logits with
  | none => c
  | some e =>
    let p := selParams e.params
    let x := e.record
    let sent (c : Chip) : Chip := (c.modStk stack (fun k => { k with logits := k.logits.erase e })).raiseFlags
      (if stack < 4 then .w else .e) (stackRaiseOrder stack unit) e.ctx e.tag.toNat x.2 0 0
    if e.route then
      { sent c with sharedMem := mwrite c.sharedMem (sharedKey stack e.dest) (x.1.bytes x.1.entries.length p.k) }
    else
      let a := (c.die p.dest).gut.ask stack x.1
      let c := c.modDie p.dest (fun m => { m with gut := a.2 })
      if a.1 then (sent c).modDie p.dest (fun m => { m with gut := { m.gut with lanes := tmod [] m.gut.lanes stack (· ++ [x.1]) } })
      else c

def execStackSelection (stack unit : Nat) (s : State) : Host.Outcome State Fault Refusal := s.run (fun c => c.stackSelect stack unit)

/-- A stack's unit holds the oldest entry of its ring and finds no merge-table entry or buffer space for its record: the token lies
in an open range that expects it (R107, R188). -/
def Chip.backPressed (c : Chip) (stack : Nat) : Bool :=
  match (c.stk stack).logits with
  | e :: _ =>
    let x := e.record.1
    let g := (c.die (selParams e.params).dest).gut
    e.readable && !e.route &&
    (match tget none g.ranges x.part.toNat with
      | some r => r.covers x.token.toNat && g.arrivals.expects r x.part.toNat stack x.token.toNat && !(g.ask stack x).1
      | none => false)
  | [] => false

/-! ### OPEN and RELEASE -/

/-- OPEN: the range of this execution opens with its source block; its tokens are no longer released ones (R183, R187, Table 8.4). -/
def Chip.gutOpen (c : Chip) (u : UnitRef) : Chip :=
  match c.op u with
  | none => c
  | some o =>
    if !o.ready ∨ c.clockStopped u ∨ u.pos ≠ 116 ∨ o.e.opc ≠ 1 ∨ (tget none (c.die u.die).gut.ranges u.part).isSome then c else
    let v := o.e.slot.toNat
    let g := descOf ((o.descs.getD []).getD 0 [])
    let b := c.readSpace u 9 g.space g.addr 64
    match b.2 with
    | .error f => b.1.opFault u 0 f
    | .ok bs =>
      let w := (wordsOf bs)
      let w0 := wordOf w 0
      let r : OpenRange :=
        { first := BitVec.ofNat 32 o.e.token, count := gutCount v, k := gutK v, tag := BitVec.ofNat 16 o.e.tag,
          stks := BitVec.ofNat 8 (bits w0 7 0), remote := bits w0 11 8, group := bits w0 23 12 }
      b.1.modDie u.die (fun m => { m with gut := { m.gut with
        ranges := tput none m.gut.ranges u.part (some r)
        released := tfilter (fun k _ => !(decide (k / 2 ^ 32 = u.part) && r.covers (k % 2 ^ 32))) m.gut.released } })

def execGutOpen (u : UnitRef) (s : State) : Host.Outcome State Fault Refusal := s.run (fun c => c.gutOpen u)

/-- Free the packets of tokens of a partition; `mark` says that a RELEASE does it, after which their tokens count as released (R187). -/
def Gutter.free (g : Gutter) (mark : Bool) (part first count : Nat) : Gutter :=
  (List.range count).foldl (fun g i =>
    let k := gutKey part (first + i)
    let had := (tget none g.packets k).isSome
    { g with packets := tput none g.packets k none, released := if mark then tput false g.released k true else g.released
             freed := if had then satAdd g.freed 1 else g.freed }) g

/-- RELEASE: the stored packets of the range are freed. -/
def Chip.gutRelease (c : Chip) (u : UnitRef) : Chip :=
  match c.op u with
  | none => c
  | some o =>
    if o.worked ∨ c.clockStopped u ∨ u.pos ≠ 116 ∨ o.e.opc ≠ 2 then c else
    (c.modDie u.die (fun m => { m with gut := m.gut.free true u.part o.e.token (gutCount o.e.slot.toNat) })).opDone u 0

def execGutRelease (u : UnitRef) (s : State) : Host.Outcome State Fault Refusal := s.run (fun c => c.gutRelease u)

end Sys2Proof.Machine
end

