-- ==== Sys2Proof/Machine/Loss.lean ====
section
/-!
DEFINITION. The distillation loss stage of a platen's epilogue (R192 to R198).
-/
namespace Sys2Proof.Machine

/-- A loss control block (Table 8.9). -/
structure LossBlock where
  tokBase : Nat
  phase : Nat
  rstate : Nat
  vlen : Nat
  vbase : Nat
  wtok : W32
  deriving DecidableEq, Repr, Inhabited

def lossBlock (ws : List W64) : LossBlock :=
  let w := wordOf ws
  { tokBase := bits (w 0) 63 32, phase := bits (w 0) 1 0, rstate := bits (w 1) 22 0, vlen := bits (w 2) 40 20,
    vbase := bits (w 2) 19 0, wtok := BitVec.ofNat 32 (bits (w 3) 31 0) }

/-- A row state (Table 8.10). -/
structure RowState where
  mass : Nat := 0
  selm : Nat := 0
  cover : Nat := 0
  lnz : W32 := 0
  fac : W32 := 0
  lt : W32 := 0
  xs : List W32 := []
  deriving DecidableEq, Repr, Inhabited

def rowStateOf (k : Nat) (bs : List Byte) : RowState :=
  let at' (o n : Nat) : Nat := leNat ((bs.drop o).take n)
  { mass := at' 0 32, selm := at' 32 32, cover := at' 64 4, lnz := BitVec.ofNat 32 (at' 68 4), fac := BitVec.ofNat 32 (at' 72 4),
    lt := BitVec.ofNat 32 (at' 76 4), xs := (List.range k).map (fun i => BitVec.ofNat 32 (at' (80 + 4 * i) 4)) }

def RowState.bytes (r : RowState) : List Byte :=
  leBytes 32 r.mass ++ leBytes 32 r.selm ++ leBytes 4 r.cover ++ leBytes 4 r.lnz.toNat ++ leBytes 4 r.fac.toNat ++
  leBytes 4 r.lt.toNat ++ r.xs.flatMap (fun x => leBytes 4 x.toNat)

def rowStateLen (k : Nat) : Nat := 80 + 4 * k

/-- The place of a column in the packet's indices. -/
def Packet.indexOf (p : Packet) (col : Nat) : Option Nat :=
  let i := p.entries.findIdx (fun e => decide (e.2.toNat = col))
  if i < p.entries.length then some i else none

/-- One element of phase 1 (R194); the term of a NaN logit is that of `massTerm`. -/
def lossAccum (p : Packet) (b : LossBlock) (acc : RowState × Flags) (v : W32) (col : Nat) : RowState × Flags :=
  if b.vlen ≤ col then acc else
  let u := scaleScore p.rtemp v
  let t := massTerm u.1
  let r := { acc.1 with mass := acc.1.mass + t, cover := acc.1.cover + 1 }
  let r := match p.indexOf col with
    | some i => { r with selm := r.selm + t, xs := r.xs.set i u.1 }
    | none => r
  (r, acc.2.join u.2)

/-- One row of a phase 1 tile: the new row state. -/
def lossRow1 (p : Packet) (b : LossBlock) (r : RowState) (vs : List W32) : RowState × Flags :=
  let r := if b.vbase = 0 then { r with mass := 0, selm := 0, cover := 0 } else r
  vs.zipIdx.foldl (fun acc x => lossAccum p b acc x.1 (b.vbase + x.2)) (r, {})

/-- A running FP32 computation that joins flags. -/
def fl2 (f : W32 → W32 → FlW32) (a b : FlW32) : FlW32 := let r := f a.1 b.1; (r.1, r.2.join (a.2.join b.2))
def fl1 (f : W32 → FlW32) (a : FlW32) : FlW32 := let r := f a.1; (r.1, r.2.join a.2)
def flk (a : W32) : FlW32 := (a, {})

/-- ln p of a packet entry: -NLP × 2^-16, exact. -/
def lpOf (nlp : BitVec 24) : W32 := (toF32 .near (.fin ⟨-(nlp.toNat : Int), -16⟩)).1

/-- 2^-64 as FP32. -/
def qtFloor : W32 := 0x1F800000

/-- The finalisation of a row (R195). -/
def lossFinal (p : Packet) (r : RowState) : RowState × Flags :=
  let ov : Flags := if p.ovf then fOvf else {}
  if p.nan then ({ r with lnz := nan32, fac := nan32, lt := nan32 }, fNan.join ov) else
  let one : FlW32 := flk 0x3F800000
  let tau := fl2 fdiv32 one (flk p.rtemp)
  let zf := massF32 r.mass
  let lnz := fl1 flog32 zf
  let qt := fl2 fdiv32 (massF32 (r.mass - r.selm)) zf
  let qt := fl2 fmax32 qt (flk qtFloor)
  let t := flk p.tail
  let fac := fl2 fsub32 one (fl2 fdiv32 t qt)
  let acc := (p.entries.zip r.xs).foldl (fun acc x =>
    let lp := flk (lpOf x.1.1)
    let pi := fl1 fexp32 lp
    fl2 fadd32 acc (fl2 fmul32 pi (fl2 fsub32 lp (fl2 fsub32 (flk x.2) lnz)))) (flk 0)
  let acc := if (flt32 0 p.tail).1 then
    fl2 fadd32 acc (fl2 fmul32 t (fl2 fsub32 (fl1 flog32 t) (fl1 flog32 qt))) else acc
  let lt := fl2 fmul32 (fl2 fmul32 tau tau) acc
  ({ r with lnz := lnz.1, fac := fac.1, lt := lt.1 }, (lt.2.join fac.2).join ov)

/-- The gradient of one element (R196); `ls` is the loss scale latched at the launch. -/
def lossGrad (p : Packet) (b : LossBlock) (r : RowState) (ls v : W32) (col : Nat) : FlW32 :=
  if b.vlen ≤ col then (0, {}) else
  let tau := fl2 fdiv32 (flk 0x3F800000) (flk p.rtemp)
  let u := scaleScore p.rtemp v
  let q := fl1 fexp32 (fl2 fsub32 u (flk r.lnz))
  let g := match p.indexOf col with
    | some i => fl2 fmul32 tau (fl2 fsub32 q (fl1 fexp32 (flk (lpOf (p.entries.getD i (0, 0)).1))))
    | none => fl2 fmul32 tau (fl2 fmul32 q (flk r.fac))
  fl2 fmul32 (fl2 fmul32 g (flk b.wtok)) (flk ls)

/-- One row of a phase 2 tile. -/
def lossRow2 (p : Packet) (b : LossBlock) (r : RowState) (ls : W32) (vs : List W32) : List FlW32 :=
  vs.zipIdx.map (fun x => lossGrad p b r ls x.1 (b.vbase + x.2))

/-- lt × WTOK in units of 2^-64, truncated toward zero (R198); none for a NaN. -/
def lossAddend (lt wtok : W32) : Option Int :=
  match (f32 lt).1, (f32 wtok).1 with
  | .fin a, .fin b =>
    let d := (a.mul b).shift 64
    some (if 0 ≤ d.e then d.m * (2 ^ d.e.toNat : Nat) else d.m.sign * ((d.m.natAbs / 2 ^ (-d.e).toNat : Nat) : Int))
  | _, _ => none

/-- Add a finalised row to GUT_LOSS_SUM. -/
def Gutter.addLoss (g : Gutter) (lt wtok : W32) : Gutter :=
  match lossAddend lt wtok with
  | some i => { g with lossSum := g.lossSum + BitVec.ofInt 128 i }
  | none => g

/-- A row's packet as a loss tile finds it (R187, R189, Table 8.11). -/
inductive PacketRead where
  | packet (p : Packet)
  | wait
  | trap
  deriving DecidableEq, Repr

def Gutter.read (g : Gutter) (part token : Nat) : PacketRead :=
  match tget none g.packets (gutKey part token) with
  | some p => .packet p
  | none =>
    if tget false g.released (gutKey part token) then .trap else
    match tget none g.ranges part with
    | some r => if r.covers token then .wait else .trap
    | none => .trap

/-- The packets of a tile's rows: all of them, or the first that waits or traps. -/
def Gutter.readRows (g : Gutter) (part tokBase : Nat) : List Nat → List Packet → Except PacketRead (List Packet)
  | [], acc => .ok acc
  | r :: t, acc =>
    match g.read part ((tokBase + r) % 2 ^ 32) with
    | .packet p => g.readRows part tokBase t (acc ++ [p])
    | x => .error x

end Sys2Proof.Machine
end

