-- ==== Sys2Proof/Machine/Tile.lean ====
section
/-!
DEFINITION. Tiles of platens and thatch engines: the epilogue of Table 3.5, the loss hook, the reduction buffer, the
logits ring, and RBCLR (R62 to R74, R77, R80, R87 to R90, R107, R192 to R199).
-/
namespace Sys2Proof.Machine

/-! ### The epilogue's arithmetic -/

/-- The 32 lanes of an epilogue at their start positions (R71, R73, R288). -/
def epiLanes (seed : BitVec 128) (stream tile step : Nat) : List Lane :=
  (List.range 32).map (fun l => Lane.seed seed stream tile l step)

/-- Negative values become +0; a NaN stays (Table 3.5 step 4). -/
def relu (v : W32) : W32 := if v.getLsbD 31 && !fnan? v then 0 else v

/-- Dropout of one element (R72). -/
def dropout (h : TileHdr) (v : FlW32) (l : Lane) : FlW32 × Lane :=
  let d := l.draw
  if d.1.toNat < h.p16 then ((0, v.2), d.2) else (fl2 fmul32 v (flk h.ks), d.2)

/-- Side operands of a tile. -/
structure SideOps where
  partial' : Option Tensor := none
  bias : Option Tensor := none
  resid : Option Tensor := none
  deriving DecidableEq, Repr, Inhabited

/-- Steps 1 to 6 of Table 3.5 for element (row, col). -/
def epiElem (t : TileSlot) (h : TileHdr) (s : SideOps) (row col : Nat) (v : FlW32) (l : Lane) : FlW32 × Lane :=
  let add (on : Bool) (x : Option Tensor) (i j : Nat) (v : FlW32) : FlW32 :=
    match on, x with
    | true, some y => fl2 fadd32 v (y.fp i j)
    | _, _ => v
  let v := add (t.has 0) s.partial' col row v
  let v := if t.has 1 then fl2 fmul32 v (flk h.const) else v
  let v := add (t.has 2) s.bias col 0 v
  let v := if t.has 3 then (relu v.1, v.2) else v
  let d := if t.has 4 then dropout h v l else (v, l)
  (add (t.has 5) s.resid col row d.1, d.2)

/-- One row through steps 1 to 6, with the mask lanes. -/
def epiRow (t : TileSlot) (h : TileHdr) (s : SideOps) (row : Nat) (vs : List FlW32) (ls : List Lane) : List FlW32 × List Lane :=
  vs.zipIdx.foldl (fun (acc : List FlW32 × List Lane) x =>
    let r := epiElem t h s row x.2 x.1 (acc.2.getD (x.2 % 32) default)
    (acc.1 ++ [r.1], acc.2.set (x.2 % 32) r.2)) ([], ls)

/-- All rows, in ascending order. -/
def epiRows (t : TileSlot) (h : TileHdr) (s : SideOps) (rows : List (List FlW32)) (ls : List Lane) : List (List FlW32) × List Lane :=
  rows.zipIdx.foldl (fun (acc : List (List FlW32) × List Lane) x =>
    let r := epiRow t h s x.2 x.1 acc.2
    (acc.1 ++ [r.1], r.2)) ([], ls)

/-- Rounding modes of a row's elements, taking one draw an element under RND 1 (R53). -/
def rowModes (rnd n : Nat) (ls : List Lane) : List Rnd × List Lane :=
  match rnd with
  | 1 => (List.range n).foldl (fun (acc : List Rnd × List Lane) c =>
      let d := (acc.2.getD (c % 32) default).draw
      (acc.1 ++ [.stoch d.1], acc.2.set (c % 32) d.2)) ([], ls)
  | 2 => (List.replicate n .zero, ls)
  | _ => (List.replicate n .near, ls)

/-- A converted row: codes, scale bytes, flags, clipped elements. -/
structure ConvRow where
  codes : List Nat := []
  scs : List Byte := []
  f : Flags := {}
  clip : Nat := 0
  deriving DecidableEq, Repr, Inhabited

/-- Step 8 for a row (R54, R55, R140): `static` are the scale bytes of an SSTAT destination. -/
def convRow (g : Desc) (static : Option (List Byte)) (modes : List Rnd) (vs : List W32) : ConvRow :=
  let xs := vs.map (fun v => (f32 v).1)
  if !(fmtIsNarrow g.fmt && g.scaled) then
    let rs := (xs.zip modes).map (fun x => convertAny g.fmt x.2 x.1 (.fin ⟨1, 0⟩))
    { codes := rs.map (·.1), f := rs.foldl (fun f r => f.join r.2) {}, clip := (rs.filter (fun r => r.2.clip)).length }
  else
    let gs := (chunks g.group xs).zip (chunks g.group modes)
    gs.zipIdx.foldl (fun (a : ConvRow) y =>
      match static with
      | some sb =>
        let sc := sb.getD y.2 0
        let rs := convertGroup g.fmt g.scaleE4M3 sc y.1.2 y.1.1
        let f := rs.foldl (fun f r => f.join r.2) (scaleVal g.scaleE4M3 sc).2
        { codes := a.codes ++ rs.map (·.1), f := a.f.join f, clip := a.clip + (rs.filter (fun r => r.2.clip)).length }
      | none =>
        let r := convertDyn g.fmt g.scaleE4M3 y.1.2 y.1.1
        { codes := a.codes ++ r.2.1.map (·.1), scs := a.scs ++ [r.1], f := r.2.1.foldl (fun f z => f.join z.2) (a.f.join r.2.2)
          clip := a.clip + (r.2.1.filter (fun z => z.2.clip)).length }) {}

/-! ### What a tile writes -/

/-- A tile in progress: where it stands with its flags, counts and rounding lanes. -/
structure TileRun where
  c : Chip
  lanes : List Lane
  f : Flags := {}
  clip : Nat := 0
  conv : Nat := 0
  fail : Option (Nat × AccFault) := none
  deriving Inhabited

def TileRun.put (t : TileRun) (desc : Nat) (r : Chip × Option AccFault) : TileRun :=
  { t with c := r.1, fail := t.fail <|> r.2.map (fun f => (desc, f)) }

/-- Write one row at a destination: its codes, and its scale bytes when they were found dynamically. -/
def TileRun.destRow (t : TileRun) (u : UnitRef) (i : Nat) (g : Desc) (static : Option Tensor) (rnd j : Nat) (vs : List W32) : TileRun :=
  if t.fail.isSome then t else
  let m := rowModes rnd vs.length t.lanes
  let r := convRow g (static.map (fun s => s.scs.getD j [])) m.1 vs
  let t := { t with lanes := m.2, f := t.f.join r.f, clip := t.clip + r.clip, conv := t.conv + (if fmtIsNarrow g.fmt then vs.length else 0) }
  let t := t.put i (t.c.writeRow u g j r.codes)
  if r.scs.isEmpty || t.fail.isSome then t else t.put i (t.c.writeScales u g j r.scs)

/-- Write one row of FP32 values. -/
def TileRun.fpRow (t : TileRun) (u : UnitRef) (i : Nat) (g : Desc) (j : Nat) (vs : List W32) : TileRun :=
  if t.fail.isSome then t else t.put i (t.c.writeRow u g j (vs.map (·.toNat)))

/-- Ranges of a platen's reduction buffer that have been read by their reduction meet a range. -/
def Platen.reducing (p : Platen) (off len : Nat) : Bool := p.reduced.any (fun r => decide (r.1 < off + len) && decide (off < r.1 + r.2))

/-- A range of the reduction buffer is written anew: no reduction has read it. -/
def Platen.renewed (p : Platen) (off len : Nat) : Platen :=
  { p with reduced := p.reduced.filter (fun r => !(decide (r.1 < off + len) && decide (off < r.1 + r.2))) }

/-- One row of FP32 values over a range of the reduction buffer, as RBCLR and the init mode write it. -/
def TileRun.initRow (t : TileRun) (u : UnitRef) (i : Nat) (g : Desc) (j : Nat) (vs : List W32) : TileRun :=
  if t.fail.isSome then t else
  ({ t with c := t.c.modPlaten u.die u.pos (fun p => p.renewed (g.addr + g.bitOff 32 0 j / 8) (4 * vs.length)) } : TileRun).fpRow u i g j vs

/-- One row into the reduction buffer: init, or one rounded addition an element (R80). What an accumulating slot leaves in a range
whose reduction has begun is undefined: free values (R81).
DEDUCED: log entry 77. -/
def TileRun.redRow (t : TileRun) (u : UnitRef) (i : Nat) (g : Desc) (accum : Bool) (j : Nat) (vs : List W32) : TileRun :=
  if t.fail.isSome then t else
  if !accum then t.initRow u i g j vs else
  if (t.c.platen u.die u.pos).reducing (g.addr + g.bitOff 32 0 j / 8) (4 * vs.length) then
    ({ t with c := { t.c with fresh := t.c.fresh + vs.length } } : TileRun).fpRow u i g j
      ((List.range vs.length).map (fun k => (Config.freeWord (t.c.fresh + k)).extractLsb' 0 32))
  else
  let r := t.c.readSpace u g.role g.space (g.addr + g.bitOff 32 0 j / 8) (4 * vs.length)
  match r.2 with
  | .error f => { t with c := r.1, fail := some (i, f) }
  | .ok bs =>
    let old := (chunks 4 bs).map (fun b => (BitVec.ofNat 32 (leNat b) : W32))
    let s := (vs.zip old).map (fun x => fadd32 x.2 x.1)
    ({ t with c := r.1, f := s.foldl (fun f x => f.join x.2) t.f } : TileRun).fpRow u i g j (s.map (·.1))

/-- The place of a role in a list. -/
def roleIdx (ds : List Desc) (r : Nat) : Nat := ds.findIdx (fun g => decide (g.role = r))

/-- Read the tensor of a role when the slot uses it. -/
def Chip.readRole (c : Chip) (u : UnitRef) (ds : List Desc) (on : Bool) (r : Nat) : Chip × Except (Nat × AccFault) (Option Tensor) :=
  match on, findRole ds r with
  | true, some g =>
    let t := c.readTensor u g
    (t.1, match t.2 with | .ok x => .ok (some x) | .error f => .error (roleIdx ds r, f))
  | _, _ => (c, .ok none)

/-- All operands of a tile, in ascending role. -/
def Chip.readTile (c : Chip) (u : UnitRef) (t : TileSlot) (ds : List Desc) :
    Chip × Except (Nat × AccFault) (Tensor × Tensor × SideOps) :=
  let a := c.readRole u ds true 1
  match a.2 with
  | .error e => (a.1, .error e)
  | .ok xa =>
    let w := a.1.readRole u ds true 2
    match w.2 with
    | .error e => (w.1, .error e)
    | .ok xw =>
      let p := w.1.readRole u ds (t.has 0) 5
      match p.2 with
      | .error e => (p.1, .error e)
      | .ok xp =>
        let b := p.1.readRole u ds (t.has 2) 6
        match b.2 with
        | .error e => (b.1, .error e)
        | .ok xb =>
          let r := b.1.readRole u ds (t.has 5) 7
          match r.2 with
          | .error e => (r.1, .error e)
          | .ok xr => (r.1, .ok (xa.getD default, xw.getD default, { partial' := xp, bias := xb, resid := xr }))

/-- The destination a tile writes: its narrow form, or under WIDE its alternate form with a dynamic scale (R77, R140). -/
def destForm (t : TileSlot) (g : Desc) : Desc := if t.wide then { g.wideView with sstat := false } else g

/-! ### Cycles (R65, R89, R199) -/

/-- Epilogue cycles of a block: two passes when a scale is found dynamically; loss tiles as R199 states. -/
def epiCycles (t : TileSlot) (dest : Option Desc) (phase : Nat) : Nat :=
  let dyn := match dest with | some g => g.narrowDest && !g.sstat | none => false
  if t.loss then (if phase = 1 then 64 else if dyn then 96 else 64) else if dyn then 64 else 32

/-- Press cycles that finalisation adds to the phase 2 tile with VBASE = 0 (R199). -/
def lossFinalCycles (b : LossBlock) (ps : List Packet) : Nat :=
  if b.phase = 2 ∧ b.vbase = 0 then ps.foldl (fun a p => a + ceilDiv p.entries.length 32 + 24) 0 else 0

def stationaryCycles (t : TileSlot) (rows k p : Nat) (e : Nat) : Nat :=
  rows / shapeRows t.shape * max ((if t.cmp then 2 else 1) * k / p) e + 40

/-- A stream tile's Thatch cycles, an engine reading alone (R89). -/
def streamCycles (n k rows p w g : Nat) : Nat :=
  let bytes := 1024 * k * w / 8 + (if g = 0 then 0 else 1024 * k / g)
  ceilDiv n 1024 * max (ceilDiv (rows * k) p) (ceilDiv bytes 1280) + 40

/-! ### Loss tiles -/

/-- The outcome of a loss tile's rows. -/
inductive LossOut where
  | trap
  | fault (f : AccFault)
  | ok (rows : List (List FlW32)) (f : Flags)

/-- The loss scale 2^e as FP32. -/
def lossScale (e : Nat) : W32 := BitVec.ofNat 32 ((127 + e) * 2 ^ 23)

/-- The rows of a loss tile through the loss stage (R194 to R198): row states read, advanced and written back. -/
def Chip.lossRows (c : Chip) (u : UnitRef) (b : LossBlock) (ls : W32) :
    Nat → List Packet → List (List FlW32) → List (List FlW32) → Flags → Chip × LossOut
  | _, [], _, acc, f => (c, .ok acc f)
  | _, _, [], acc, f => (c, .ok acc f)
  | r, p :: ps, vs :: vt, acc, f =>
    let len := rowStateLen p.k
    let a := b.rstate + r * len
    let rd := c.readSpace u 9 1 a len
    match rd.2 with
    | .error e => (rd.1, .fault e)
    | .ok bs =>
      let st := rowStateOf p.k bs
      let v := vs.map (·.1)
      if b.phase = 1 then
        let x := lossRow1 p b st v
        let w := rd.1.writeSpace u 9 1 a x.1.bytes
        match w.2 with
        | some e => (w.1, .fault e)
        | none => w.1.lossRows u b ls (r + 1) ps vt (acc ++ [vs]) (f.join x.2)
      else
        let first := decide (b.vbase = 0)
        if first && (decide (st.cover ≠ b.vlen) || p.entries.any (fun e => decide (b.vlen ≤ e.2.toNat))) then (rd.1, .trap) else
        let x := if first then lossFinal p st else (st, {})
        let c := if first then rd.1.modDie u.die (fun m => { m with gut := m.gut.addLoss x.1.lt b.wtok }) else rd.1
        let w := if first then c.writeSpace u 9 1 a x.1.bytes else (c, none)
        match w.2 with
        | some e => (w.1, .fault e)
        | none => w.1.lossRows u b ls (r + 1) ps vt (acc ++ [lossRow2 p b x.1 ls v]) (f.join x.2)

/-- Packets of a tile's rows are freed by the phase 2 tile that reaches the row's last column (R187, R196).
DEDUCED: log entry 36. -/
def Chip.lossFree (c : Chip) (u : UnitRef) (b : LossBlock) (rows cols : Nat) : Chip :=
  if b.phase = 2 ∧ b.vlen ≤ b.vbase + cols then
    c.modDie u.die (fun m => { m with gut := m.gut.free false u.part b.tokBase rows })
  else c

/-! ### The logits ring (R107) -/

/-- The ring's geometry for a destination: S, the first entry, the column of element 0. Entries of an empty shard have no columns and
are told apart by their rows. -/
def ringPlace (img : DieImage) (u : UnitRef) (g : Desc) : Nat × Nat × Nat :=
  let r := (tget [] img.stks ((u.pos - 64) / 8)).getD 0 {}
  let s := max 1 g.stride
  let off := g.addr - r.base * 4096
  (g.stride, off / (4 * s), off % (4 * s) / 4)

/-- An entry of the ring takes columns: it is empty, or filled so far up to their start by the same slot's rows. -/
def ringAdmits (l : List LogitsEntry) (slot col part : Nat) : Bool :=
  match l.find? (fun e => decide (e.slot = slot)) with
  | none => decide (col = 0)
  | some e => !e.readable && decide (e.part = part) && decide (e.scores.length = col)

/-- Put a row's scores into its ring entry, which its engine's slot writes until it completes. -/
def ringPut (l : List LogitsEntry) (e : LogitsEntry) (zs : List W32) : List LogitsEntry :=
  match l.find? (fun x => decide (x.slot = e.slot)) with
  | none => l ++ [{ e with scores := zs }]
  | some _ => l.map (fun x => if x.slot = e.slot then { x with scores := x.scores ++ zs, writer := e.writer } else x)

/-- Where the record of row r of a ROUTE slot goes: row r of the destination (R140); with one row in the descriptor no stride is
given, and the records of the tile's rows lie one after another, 96 + 8K bytes each.
DESIGN CHOICE: log entry 94. -/
def recordPlace (dest : Desc) (k r : Nat) : Nat :=
  dest.addr + (if dest.ext1 ≤ 1 then r * (96 + 8 * k) else dest.bitOff (fmtWidth dest.fmt) 0 r / 8)

/-! ### A tile's work -/

/-- Rows to the logits ring, when every row finds room; else the engine waits. A ROUTE record's place outside the shared store is out
of range (R87). `ni` is the place of the record destination in the list. -/
def Chip.toRing (c : Chip) (u : UnitRef) (o : Op) (img : DieImage) (n : Nat) (t : TileSlot) (g : Desc) (di : Nat) (params : List W64) (dest : Desc)
    (ni : Nat) (rows : List (List FlW32)) (f : Flags) (cyc : Nat) : Chip :=
  let stack := stackOfTe u.die (u.pos - 64)
  let p := ringPlace img u g
  let l := (c.stk stack).logits
  let k := bits (wordOf params 0) 38 32
  let outside := if t.route then (List.range rows.length).findSome? (fun r => c.localFault u 9 dest.space (recordPlace dest k r) (96 + 8 * k)) else none
  match outside with
  | some e => c.opFault u ni e
  | none =>
  if !(List.range rows.length).all (fun r => ringAdmits l (p.2.1 + r) p.2.2 u.part) then c.opWaits u
  else
    let c := rows.zipIdx.foldl (fun (c : Chip) x =>
      let e : LogitsEntry :=
        { part := u.part, ctx := n, route := t.route, row := x.2, unit := if t.route then 0 else x.2 % 2, params := params,
          dest := recordPlace dest k x.2, tag := BitVec.ofNat 16 o.e.tag, slot := p.2.1 + x.2, len := p.1, writer := some u.pos }
      c.modStk stack (fun s => { s with logits := ringPut s.logits e (x.1.map (fun (v : FlW32) => v.1)) })) c
    let run := rows.zipIdx.foldl (fun (r : TileRun) (x : List FlW32 × Nat) => r.fpRow u di g x.2 (x.1.map (fun (v : FlW32) => v.1))) { c := c, lanes := [] }
    match run.fail with
    | some e => run.c.opFault u e.1 e.2
    | none => (run.c.raiseFlags u.die (raiseOrder u.pos) n o.e.tag f 0 0).opDone u cyc

/-- Steps 7 to 9 over all rows, once the rows' values are known. -/
def Chip.tileOut (c : Chip) (u : UnitRef) (o : Op) (n : Nat) (t : TileSlot) (ds : List Desc) (static : Option Tensor)
    (keep rows : List (List FlW32)) (f : Flags) (noDest : Bool) (seed : BitVec 128) (mask : List Lane) (cyc : Nat) : Chip :=
  let run : TileRun := { c := c, lanes := epiLanes seed 0 t.tile o.step.toNat, f := f }
  let run := match (if t.loss && t.keep then findRole ds 4 else none) with
    | some g => keep.zipIdx.foldl (fun (r : TileRun) (x : List FlW32 × Nat) => r.fpRow u (roleIdx ds 4) g x.2 (x.1.map (fun (v : FlW32) => v.1))) run
    | none => run
  let run :=
    if t.rbm = 1 ∨ t.rbm = 2 then
      match findRole ds 8 with
      | some g => rows.zipIdx.foldl (fun (r : TileRun) (x : List FlW32 × Nat) => r.redRow u (roleIdx ds 8) g (decide (t.rbm = 2)) x.2 (x.1.map (fun (v : FlW32) => v.1))) run
      | none => run
    else if noDest then run
    else
      match findRole ds 3 with
      | some g =>
        let g := destForm t g
        if g.scaled && decide (g.ext0 % g.group ≠ 0) then { run with fail := some (roleIdx ds 3, af g.addr) }
        else rows.zipIdx.foldl (fun (r : TileRun) (x : List FlW32 × Nat) => r.destRow u (roleIdx ds 3) g static t.rnd x.2 (x.1.map (fun (v : FlW32) => v.1))) run
      | none => run
  match run.fail with
  | some e => run.c.opFault u e.1 e.2
  | none =>
    let c := run.c.raiseFlags u.die (raiseOrder u.pos) n o.e.tag run.f run.clip run.conv
    let c := c.modCtx n (fun x => { x with proof := (x.proof.laneOver 0 t.tile run.lanes).laneOver 1 t.maskTile mask })
    (c.opDone u cyc).drained u

/-- The flags of all rows. -/
def rowsFlags (rows : List (List FlW32)) : Flags := rows.foldl (fun f r => r.foldl (fun f v => f.join v.2) f) {}

/-- The tile's product, epilogue and writes, once its operands are read. -/
def Chip.tileWork (c : Chip) (u : UnitRef) (o : Op) (s : Stream) (t : TileSlot) (h : TileHdr) (ds : List Desc) (a w : Tensor)
    (side : SideOps) (static : Option Tensor) (params : List W64) : Chip :=
  let n := s.ctx
  let seed := (c.ctx n).seed
  let rows := if t.stream then t.t else h.rows
  let p := pairsPerPass a.g.fmt w.g.fmt
  let prod := formeTile a w t.dq t.cmp rows h.cols h.k
  let e := epiRows t h side prod (epiLanes seed 1 t.maskTile o.step.toNat)
  let f := rowsFlags e.1
  let dest := (findRole ds 3).map (destForm t)
  let b := lossBlock params
  let cyc := if t.stream then streamCycles h.cols h.k rows p (fmtWidth w.g.fmt) w.g.group
    else stationaryCycles t rows h.k p (epiCycles t dest b.phase)
  if t.vocab || t.route then
    let ni := (descPlaces (fun g => decide (g.role = 9)) ds).getD 1 0
    match findRole ds 3 with
    | some g => c.toRing u o s.image n t g (roleIdx ds 3) params (ds.getD ni default) ni e.1 f cyc
    | none => c
  else if t.loss then
    match (c.die u.die).gut.readRows u.part b.tokBase (List.range rows) [] with
    | .error .wait => c.opWaits u
    | .error _ => c.opTrap u 0x11
    | .ok ps =>
      let ls := lossScale (match (c.ctx n).run with | some r => r.lsExp.toNat | none => (c.ctx n).train.exp.toNat)
      let li := ds.findIdx (fun g => decide (g.role = 9))
      let states := ps.zipIdx.map (fun x => ({ space := 1, addr := b.rstate + x.2 * rowStateLen x.1.k, len := rowStateLen x.1.k } : Out))
      let r := (c.modOp u (fun o => { o with outs := o.outs ++ states })).lossRows u b ls 0 ps e.1 [] f
      let cyc := cyc + lossFinalCycles b ps
      match r.2 with
      | .trap => r.1.opTrap u 0x11
      | .fault x => r.1.opFault u li x
      | .ok out lf =>
        (r.1.tileOut u o n t ds static e.1 out (lf.join (rowsFlags out)) (decide (b.phase = 1)) seed e.2 cyc).lossFree u b rows h.cols
  else c.tileOut u o n t ds static e.1 e.1 f false seed e.2 cyc

/-- Run the tile of the op in progress on a platen or thatch engine; a platen that is held does not run (R83).
DESIGN CHOICE: log entry 76. -/
def Chip.tile (c : Chip) (u : UnitRef) : Chip :=
  match c.stream u.die u.part with
  | none => c
  | some s => c.work u (fun o => decide (u.pos < 96) && decide (o.e.opc = 1) && !c.held u o) (fun c o =>
    let dl := o.descs.getD []
    let ds := viewList dl o.wides
    let t := o.e.tileSlot u.pos
    let h := tileHdr (dl.getD 0 [])
    let r := c.readTile u t ds
    match r.2 with
    | .error e => r.1.opFault u e.1 e.2
    | .ok (a, w, side) =>
      let bi := ds.findIdx (fun g => decide (g.role = 9))
      let g9 := ds.getD bi default
      let pb : Chip × Except AccFault (List Byte) :=
        if t.loss || t.vocab || t.route then r.1.readSpace u 9 g9.space g9.addr 64 else (r.1, .ok [])
      match pb.2 with
      | .error f => pb.1.opFault u bi f
      | .ok bs =>
        let st : Chip × Except (Nat × AccFault) (Option Tensor) :=
          match findRole ds 3 with
          | some g =>
            if g.sstat && !t.wide then
              let x := pb.1.readRuns u 3 g.space false g.scaleRuns []
              (x.1, match x.2 with
                | .ok scs => .ok (some { g := g, rows := [], scs := scs })
                | .error f => .error (roleIdx ds 3, f))
            else (pb.1, .ok none)
          | none => (pb.1, .ok none)
        match st.2 with
        | .error e => st.1.opFault u e.1 e.2
        | .ok static => st.1.tileWork u o s t h ds a w side static (wordsOf bs))

def execPlatenTile (u : UnitRef) (s : State) : Host.Outcome State Fault Refusal :=
  s.run (fun c => if slotClass u.pos = .platen then c.tile u else c)
def execThatchTile (u : UnitRef) (s : State) : Host.Outcome State Fault Refusal :=
  s.run (fun c => if slotClass u.pos = .thatch then c.tile u else c)

/-- RBCLR: +0 over the reduction-buffer range the first descriptor names (R120). -/
def Chip.rbclr (c : Chip) (u : UnitRef) : Chip :=
  match c.op u with
  | none => c
  | some o =>
    if !o.ready ∨ 64 ≤ u.pos ∨ o.e.opc ≠ 2 ∨ c.clockStopped u then c else
    let g := descOf ((o.descs.getD []).getD 0 [])
    let run := (List.range g.ext1).foldl (fun (r : TileRun) j => r.initRow u 0 g j (List.replicate g.ext0 0)) { c := c, lanes := [] }
    match run.fail with
    | some e => run.c.opFault u e.1 e.2
    | none => run.c.opDone u (ceilDiv (g.ext0 * g.ext1 * 4) 2048)

def execRbclr (u : UnitRef) (s : State) : Host.Outcome State Fault Refusal := s.run (fun c => c.rbclr u)

end Sys2Proof.Machine
end

