-- ==== Sys2Proof/Machine/Crc.lean ====
section
/-!
DEFINITION. The check codes: CRC-32 (R424), CRC-64 (R258) and HMAC-SHA-256 (R403).
-/
namespace Sys2Proof.Machine

/-- One bit step of the reflected CRC-32. -/
def crc32Bit (c : W32) : W32 := if c &&& 1 = 1 then (c >>> 1) ^^^ 0xEDB88320 else c >>> 1

def crc32Byte (c : W32) (b : Byte) : W32 :=
  (List.range 8).foldl (fun c _ => crc32Bit c) (c ^^^ b.zeroExtend 32)

/-- CRC-32 of IEEE 802.3 over bytes in ascending order (R424). -/
def crc32 (bs : List Byte) : W32 := (bs.foldl crc32Byte 0xFFFFFFFF) ^^^ 0xFFFFFFFF

def crc64Byte (c : W64) (b : Byte) : W64 :=
  (List.range 8).foldl (fun (c : W64) _ => if c.msb then (c <<< 1) ^^^ 0x42F0E1EBA09EA3D3 else c <<< 1)
    (c ^^^ (b.zeroExtend 64 <<< 56))

/-- CRC-64 with polynomial 0x42F0E1EBA09EA3D3, initial value 0, no reflection, no final XOR (R258). -/
def crc64 (bs : List Byte) : W64 := bs.foldl crc64Byte 0

/-- The k-th root of a number below 2^(38 k), rounded down, found bit by bit. -/
def rootFloor (k v : Nat) : Nat :=
  (List.range 38).foldr (fun i r => if (r + 2 ^ i) ^ k ≤ v then r + 2 ^ i else r) 0

/-- The first 64 primes, which SHA-256 takes its constants from. -/
def shaPrimes : List Nat :=
  (List.range 312).filter (fun n => decide (2 ≤ n) && (List.range 18).all (fun d => decide (d < 2) || decide (n ≤ d) || decide (n % d ≠ 0)))

/-- A round constant: the first 32 fraction bits of a prime's cube root. -/
def shaConst (p : Nat) : W32 := BitVec.ofNat 32 (rootFloor 3 (p * 2 ^ 96))

/-- The initial hash: the first 32 fraction bits of the square roots of the first eight primes. -/
def shaInit : List W32 := (shaPrimes.take 8).map (fun p => BitVec.ofNat 32 (rootFloor 2 (p * 2 ^ 64)))

/-- A word whose bytes stand most significant first. -/
def beWord (bs : List Byte) : W32 := BitVec.ofNat 32 (leNat bs.reverse)
def beBytes (w : W32) : List Byte := (leBytes 4 w.toNat).reverse

/-- Three rotations of a word, added modulo 2; the last is a shift where `cut` is set. -/
def shaMix (w : W32) (i j k : Nat) (cut : Bool) : W32 :=
  w.rotateRight i ^^^ w.rotateRight j ^^^ (if cut then w >>> k else w.rotateRight k)

/-- The message schedule, newest word first. -/
def shaSched : Nat → List W32 → List W32
  | 0, ws => ws
  | n + 1, ws =>
    let back (k : Nat) : W32 := ws.getD (k - 1) 0
    shaSched n ((back 16 + back 7 + shaMix (back 15) 7 18 3 true + shaMix (back 2) 17 19 10 true) :: ws)

/-- One compression round: the eight working words move down one place, the first and the fifth take the round's sums. -/
def shaRound (v : List W32) (kw : W32 × W32) : List W32 :=
  let x (i : Nat) : W32 := v.getD i 0
  let choice := x 6 ^^^ (x 4 &&& (x 5 ^^^ x 6))
  let majority := (x 0 &&& (x 1 ||| x 2)) ||| (x 1 &&& x 2)
  let sum := x 7 + shaMix (x 4) 6 11 25 false + choice + (kw.1 + kw.2)
  let moved := v.take 7
  ((sum + (shaMix (x 0) 2 13 22 false + majority)) :: moved.take 3) ++ ((x 3 + sum) :: moved.drop 4)

def shaBlock (h : List W32) (blk : List Byte) : List W32 :=
  let ws := (shaSched 48 ((chunks 4 blk).map beWord).reverse).reverse
  let v := ((shaPrimes.map shaConst).zip ws).foldl shaRound h
  (h.zip v).map (fun p => p.1 + p.2)

def shaPad (bs : List Byte) : List Byte :=
  let n := bs.length
  let z := (119 - n % 64) % 64
  bs ++ [0x80] ++ List.replicate z 0 ++ (leBytes 8 (n * 8)).reverse

/-- SHA-256. -/
def sha256 (bs : List Byte) : List Byte := ((chunks 64 (shaPad bs)).foldl shaBlock shaInit).flatMap beBytes

/-- HMAC-SHA-256 with a 32-byte key (R403). -/
def hmac (key msg : List Byte) : List Byte :=
  let k := key ++ List.replicate 32 0
  sha256 (k.map (· ^^^ 0x5C) ++ sha256 (k.map (· ^^^ 0x36) ++ msg))

end Sys2Proof.Machine
end

