-- ==== Sys2Proof/Machine/Update.lean ====
section
/-!
DEFINITION. The update units: parameter set blocks, the update rules, writeback into the inactive page, digests, the
Gauge, checks, capture copies and the clip factor (R200 to R216, R221 to R227, R258, R302, R304).
-/
namespace Sys2Proof.Machine

/-! ### FP64 sums (R221) -/

/-- An FP64 number with the flags raised on the way. -/
abbrev FlW64 := W64 × Flags

/-- An FP64 sum takes one exact term, rounded once. -/
def daddDy (acc : FlW64) (t : Option Dy) : FlW64 :=
  match t, (fmt64.decode acc.1.toNat).1 with
  | some d, .fin a => let r := fmt64.ofVal .near (.fin (a.add d)); (BitVec.ofNat 64 r.1, acc.2.join r.2)
  | _, _ => (0x7FF8000000000000, acc.2.join fNan)

/-- The FP64 sum of exact terms in order. -/
def addDys (l : List (Option Dy)) : FlW64 := l.foldl daddDy (0, {})

/-- The exact square of a value. -/
def sqOf : Val → Option Dy
  | .fin d => some (d.mul d)
  | .nan => none

/-- The exact square of a difference. -/
def sqDiff : Val → Val → Option Dy
  | .fin a, .fin b => let d := a.sub b; some (d.mul d)
  | _, _ => none

/-- The gradient element counts in NONFIN (R221). -/
def nonFinite (v : W32) : Bool :=
  match (f32 v).1 with
  | .nan => true
  | .fin d => decide ((d.abs.sub ⟨2 ^ 24 - 1, 104⟩).isZero)

/-- A Gauge partial fails the check of R214: the reason of `UU_STEP`. -/
def checkPartial (absurd : W32) (g : Partial) : Option (BitVec 3) :=
  if g.nonfin ≠ 0 then some 2
  else if fzero? absurd then none
  else if dgt g.gsq (dmul (f32to64 absurd) (f32to64 absurd)).1 then some 3 else none

/-- The 16 bytes of a norm-array entry (R221). -/
def Partial.bytes (g : Partial) : List Byte :=
  leBytes 8 g.gsq.toNat ++ leBytes 4 (f64to32 g.gsq).1.toNat ++ leBytes 4 g.nonfin.toNat

/-- The flags of an entry's rounding to FP32. -/
def Partial.flags (g : Partial) : Flags := (f64to32 g.gsq).2

/-- Write a partial to the norm array. -/
def Chip.writeNorm (c : Chip) (n ps : Nat) (g : Partial) : Chip × Option AccFault :=
  c.writeVa n ((c.ctx n).train.normBase.toNat + 16 * ps) g.bytes

/-! ### Parameter sets (R200, R203, R304) -/

/-- The group size of an SCL field. -/
def sclGroup (scl : Nat) : Nat := Desc.group.groupOfScl scl

/-- Bytes of the six arrays of a parameter set in one page, in the order of Table 9.2; an array not kept has none. -/
def PsetInfo.sizes (i : PsetInfo) : List Nat :=
  let full := [i.p / 2, i.p / max 1 (sclGroup i.wscl), i.p, i.p / 128, i.p, i.p / 128]
  (full.zip i.addrs).map (fun x => if x.2 = 0 then 0 else x.1)

/-- Bytes of the kept arrays, each padded to 256: C_j of R304. -/
def PsetInfo.copyBytes (i : PsetInfo) : Nat := i.sizes.foldl (fun a n => a + roundUp n 256) 0

/-- The parameter set a block and a configuration entry describe.
DEDUCED: log entry 45. -/
def psetInfo (ws : List W64) (o : Ocfg) (g : GaugeEntry) : PsetInfo :=
  let w := wordOf ws
  { p := bits (w 0) 63 32, addrs := (List.range 6).map (fun i => bits (w (i + 1)) 47 0), rule := o.rule.toNat,
    wfmt := o.wfmt.toNat, wscl := o.wscl.toNat, gauge := g }

/-- Regions of a capture area: offsets of the tokens, of each PSET's copy, gradients and scratch (R304, Table 12.5). -/
structure CapRegions where
  token : Nat
  copy : List Nat
  grad : List Nat
  scratch : List Nat
  total : Nat
  deriving DecidableEq, Repr, Inhabited

/-- Offsets of successive regions, each rounded up to 4 KiB: the offsets and the end. -/
def layRegions (start : Nat) (sizes : List Nat) : List Nat × Nat :=
  sizes.foldl (fun (a : List Nat × Nat) n => (a.1 ++ [a.2], a.2 + roundUp n 4096)) ([], start)

def capRegions (tokens : Nat) (is : List PsetInfo) : CapRegions :=
  let t := 12288
  let c := layRegions (t + roundUp (4 * tokens) 4096) (is.map PsetInfo.copyBytes)
  let g := layRegions c.2 (is.map (fun i => 4 * i.p))
  let s := layRegions g.2 (is.map PsetInfo.copyBytes)
  { token := t, copy := c.1, grad := g.1, scratch := s.1, total := s.2 }

/-- What the context knows of a PSET. -/
def Ctx.psetOf (x : Ctx) (ps : Nat) : PsetInfo := tget {} x.psets ps

/-- A store of the firmware in context memory; bytes outside mapped pages go nowhere. -/
def Chip.fwStore (c : Chip) (n va : Nat) (bs : List Byte) : Chip := (c.writeVa n va bs).1

/-- The capture of the context is running and holds a PSET: its place in the list, the area and the regions. -/
def Ctx.capturing (x : Ctx) (ps : Nat) : Option (Nat × Capture × CapRegions) :=
  match x.proof.capture with
  | none => none
  | some k =>
    let i := k.psets.findIdx (· == ps)
    let live := match x.run with | some r => r.isStep && decide (r.step = k.p.step) | none => false
    if live && decide (i < k.psets.length) then
      some (i, k, capRegions k.p.tokCount.toNat (k.psets.map x.psetOf))
    else none

/-- Write a captured PSET's record (Table 12.5). -/
def Chip.capRecord (c : Chip) (n : Nat) (ps : Nat) (ocfg : Nat) (skipped : Bool) (tile : Nat) (clip : W32) (p : Nat) (digest : W64) : Chip :=
  match (c.ctx n).capturing ps with
  | none => c
  | some (i, k, _) =>
    c.fwStore n (k.p.areaVa.toNat + 8192 + 64 * i)
      (leBytes 2 ps ++ leBytes 1 ocfg ++ leBytes 1 (b2n skipped + 2) ++ leBytes 4 tile ++ leBytes 4 clip.toNat ++ leBytes 4 p ++
       leBytes 8 digest.toNat ++ List.replicate 40 0)

/-! ### Digests (R258) -/

/-- The CRC-64 of one 256-byte unit with its virtual address. -/
def unitDigest (va : Nat) (bs : List Byte) : W64 := crc64 (leBytes 6 va ++ bs)

/-- The digest of an array as it stands in a copy of its pages. -/
def Chip.arrayDigest (c : Chip) (n : Nat) (w : Copy) (addr len : Nat) : W64 :=
  (List.range (ceilDiv len 256)).foldl (fun a i =>
    let va := addr + 256 * i
    a ^^^ unitDigest va ((List.range 256).map (fun k => c.peek n w (va + k)))) 0

/-- The digest of every kept array of a PSET. -/
def Chip.psetDigest (c : Chip) (n : Nat) (w : Copy) (i : PsetInfo) : W64 :=
  ((i.addrs.zip i.sizes)).foldl (fun a x => if x.1 = 0 then a else a ^^^ c.arrayDigest n w x.1 x.2) 0

/-! ### The update rules (R209 to R211) -/

/-- The constants of an op. -/
structure UpdK where
  rule : Nat
  nest : Bool
  bc : Bool
  wd : FlW32
  lr : FlW32
  b1 : FlW32
  b2 : FlW32
  om1 : FlW32
  om2 : FlW32
  eps : FlW32
  bc1 : FlW32
  rbc2 : FlW32
  deriving DecidableEq, Repr, Inhabited

def one32 : W32 := 0x3F800000

/-- pow(b, t) from the highest set bit of t down (R211). -/
def powStep (b : FlW32) (t : Nat) : FlW32 :=
  ((List.range (Nat.log2 t + 1)).reverse).foldl (fun r k =>
    let r := fl2 fmul32 r r
    if bit t k then fl2 fmul32 r b else r) (flk one32)

/-- The constants of a configuration entry at a step register value. -/
def updK (o : Ocfg) (t : Nat) : UpdK :=
  let b1 := flk o.b1
  let b2 := flk o.b2
  let one := flk one32
  { rule := o.rule.toNat, nest := o.nest, bc := o.bc, wd := flk o.wd, lr := flk o.lr, b1 := b1, b2 := b2,
    om1 := fl2 fsub32 one b1, om2 := fl2 fsub32 one b2, eps := flk o.eps,
    bc1 := if o.bc then fl2 fsub32 one (powStep b1 t) else one,
    rbc2 := if o.bc then fl1 fsqrt32 (fl2 fsub32 one (powStep b2 t)) else one }

/-- sign(x): +1, -1 or 0; a NaN stays. -/
def sign32 (v : FlW32) : FlW32 :=
  if fnan? v.1 then v else if fzero? v.1 then (0, v.2) else if v.1.msb then (0xBF800000, v.2) else (one32, v.2)

/-- The new root second moment of AdamW and RMSprop. -/
def newS (k : UpdK) (s g : FlW32) : FlW32 :=
  fl1 fsqrt32 (fl2 fadd32 (fl2 fmul32 k.b2 (fl2 fmul32 s s)) (fl2 fmul32 k.om2 (fl2 fmul32 g g)))

/-- w', m', s' of one element (R210). -/
def updRule (k : UpdK) (w m s g : FlW32) : FlW32 × FlW32 × FlW32 :=
  let mu := fl2 fmul32
  let ad := fl2 fadd32
  let sb := fl2 fsub32
  match k.rule with
  | 0 =>
    let g := ad g (mu k.wd w)
    let m' := ad (mu k.b1 m) g
    let d := if k.nest then ad g (mu k.b1 m') else m'
    (sb w (mu k.lr d), m', flk 0)
  | 1 =>
    let m' := ad (mu k.b1 m) (mu k.om1 g)
    let s' := newS k s g
    let mh := if k.bc then fl2 fdiv32 m' k.bc1 else m'
    let sh := if k.bc then fl2 fdiv32 s' k.rbc2 else s'
    (sb w (mu k.lr (ad (fl2 fdiv32 mh (ad sh k.eps)) (mu k.wd w))), m', s')
  | 2 =>
    let c2 := ad (mu k.b1 m) (mu k.om1 g)
    (sb w (mu k.lr (ad (sign32 c2) (mu k.wd w))), ad (mu k.b2 m) (mu k.om2 g), flk 0)
  | _ =>
    let g := ad g (mu k.wd w)
    let s' := newS k s g
    (sb w (mu k.lr (fl2 fdiv32 g (ad s' k.eps))), flk 0, s')

/-! ### Arrays -/

/-- One array of a set: format, group, E4M3 scales, addresses of codes and scales. -/
structure UpdArr where
  fmt : Nat
  group : Nat
  sf : Bool
  addr : Nat
  saddr : Nat
  deriving DecidableEq, Repr, Inhabited

/-- The arrays W, M, S of a set; none where the rule keeps none (Tables 9.1 and 9.4). -/
def updArrays (i : PsetInfo) : List (Option UpdArr) :=
  let k := ruleKeeps i.rule
  let a (j : Nat) : Nat := i.addrs.getD j 0
  [some { fmt := i.wfmt, group := sclGroup i.wscl, sf := bit i.wscl 2, addr := a 0, saddr := a 1 },
   if k.2.1 then some { fmt := 5, group := 128, sf := false, addr := a 2, saddr := a 3 } else none,
   if k.2.2 then some { fmt := 5, group := 128, sf := false, addr := a 4, saddr := a 5 } else none]

/-- The bytes of an array's codes for P elements, and of its scales. -/
def UpdArr.sizes (a : UpdArr) (p : Nat) : Nat × Nat := (p * fmtWidth a.fmt / 8, p / max 1 a.group)

/-- Every page of a range is a paired page of the PSET (R201). -/
def Ctx.pairedRange (x : Ctx) (ps va n : Nat) : Option Nat :=
  ((piecesOf va n).find? (fun p => match x.page p.1 with
    | some g => !(g.attr.pair && decide (g.attr.pset.toNat = ps))
    | none => true)).map (·.1)

/-- The decoded elements of an array held as bytes. -/
def UpdArr.values (a : UpdArr) (p : Nat) (codes scs : List Byte) : List (Val × Flags) :=
  let w := fmtWidth a.fmt
  let ca := codes.toArray
  let sa := scs.toArray
  (List.range p).map (fun e => scaled (elemVal a.fmt (packGet w (fun k => ca.getD k 0) (e * w))) (scaleVal a.sf (sa.getD (e / max 1 a.group) 0)))

/-- An exact decoded value as an FP32 operand. -/
def asFp (v : Val × Flags) : FlW32 := let r := toF32 .near v.1; (r.1, r.2.join v.2)

/-- New values of an array converted in groups (R212): codes, scale bytes, each element's flags, the group flags. -/
structure WriteBack where
  codes : List Nat := []
  scs : List Byte := []
  els : List Flags := []
  f : Flags := {}
  deriving DecidableEq, Repr, Inhabited

def UpdArr.convert (a : UpdArr) (root : Bool) (modes : List Rnd) (vs : List W32) : WriteBack :=
  ((chunks a.group vs).zip (chunks a.group modes)).foldl (fun (w : WriteBack) x =>
    let r := convertDyn a.fmt a.sf x.2 (x.1.map (fun v => (f32 v).1))
    { codes := w.codes ++ r.2.1.map (fun z => if root then z.1 % 128 else z.1), scs := w.scs ++ [r.1],
      els := w.els ++ r.2.1.map (·.2), f := w.f.join r.2.2 }) {}

/-- Rounding modes of an element's conversions, one draw each under stochastic rounding, lane e mod 32 (R206). -/
def updModes (rnd n p : Nat) (seed : BitVec 128) (tile step : Nat) : List (List Rnd) × List Lane :=
  let lanes := (List.range 32).map (fun l => Lane.seed seed 3 tile l step)
  if rnd ≠ 1 then
    (List.replicate n (List.replicate p (if rnd = 2 then .zero else .near)), lanes)
  else
    (List.range p).foldl (fun (acc : List (List Rnd) × List Lane) e =>
      let r := (List.range n).foldl (fun (a : List (List Rnd) × Lane) j =>
        let d := a.2.draw
        (a.1.set j ((a.1.getD j []) ++ [.stoch d.1]), d.2)) (acc.1, acc.2.getD (e % 32) default)
      (r.1, acc.2.set (e % 32) r.2)) (List.replicate n [], lanes)

/-! ### The pass over a set -/

/-- Inputs of a pass. -/
structure UpdIn where
  info : PsetInfo
  k : UpdK
  rnd : Nat
  grads : List W32
  clip : Option W32
  lsExp : Nat
  seed : BitVec 128
  tile : Nat
  step : Nat
  arrays : List (Option (List (Val × Flags)))
  deriving DecidableEq, Repr, Inhabited

/-- Results of a pass: what each kept array becomes, flags, Gauge figures, lanes. -/
structure UpdOut where
  arrays : List (Option (List Byte × List Byte))
  f : Flags
  gauge : GaugeEntry
  lanes : List Lane
  deriving DecidableEq, Repr, Inhabited

/-- The new arrays and figures of a set (R209 to R212, R221). -/
def updPass (x : UpdIn) : UpdOut :=
  let p := x.info.p
  let inv : W32 := BitVec.ofNat 32 ((127 - x.lsExp) * 2 ^ 23)
  let g0s := x.grads.map (fun v => fl2 fmul32 (flk v) (flk inv))
  let gs := match x.clip with
    | some k => g0s.map (fun g => fl2 fmul32 g (flk k))
    | none => g0s
  let arr (j : Nat) : List (Val × Flags) := (x.arrays.getD j none).getD []
  let fp (j : Nat) : List FlW32 := (arr j).map asFp
  let pad (l : List FlW32) : List FlW32 := if l.isEmpty then List.replicate p (flk 0) else l
  let new := ((fp 0).zip ((pad (fp 1)).zip ((pad (fp 2)).zip gs))).map (fun e => updRule x.k e.1 e.2.1 e.2.2.1 e.2.2.2)
  let defs := updArrays x.info
  let idx := (List.range 3).filter (fun j => (defs.getD j none).isSome)
  let md := updModes x.rnd idx.length p x.seed x.tile x.step
  let pick (j : Nat) (e : FlW32 × FlW32 × FlW32) : FlW32 := match j with | 0 => e.1 | 1 => e.2.1 | _ => e.2.2
  let wb := (List.range 3).map (fun j => (defs.getD j none).map (fun a =>
    (a, a.convert (decide (j = 2)) (md.1.getD (idx.findIdx (· == j)) []) (new.map (fun e => (pick j e).1)))))
  let f0 := new.foldl (fun f e => ((f.join e.1.2).join e.2.1.2).join e.2.2.2) ({} : Flags)
  let f := wb.foldl (fun f b => match b with | some y => y.2.els.foldl Flags.join (f.join y.2.f) | none => f) f0
  let out := wb.map (fun b => b.map (fun y => (packBytes (fmtWidth y.1.fmt) y.2.codes 0, y.2.scs)))
  let ovf := wb.foldl (fun n b => match b with | some y => n + (y.2.els.filter (·.ovf)).length | none => n) 0
  let w0 := wb.getD 0 none
  let clip := match w0 with | some y => (y.2.els.filter (·.clip)).length | none => 0
  let written := match w0, out.getD 0 none with
    | some y, some b => y.1.values p b.1 b.2
    | _, _ => []
  let gsq := addDys (g0s.map (fun g => sqOf (f32 g.1).1))
  let wsq := addDys (written.map (fun v => sqOf v.1))
  let usq := addDys ((written.zip (arr 0)).map (fun v => sqDiff v.1.1 v.2.1))
  let gauge : GaugeEntry :=
    { gsq := gsq.1, wsq := wsq.1, usq := usq.1,
      nonfin := BitVec.ofNat 32 (x.grads.filter nonFinite).length, ovf := BitVec.ofNat 32 ovf, clip := BitVec.ofNat 32 clip,
      conv := BitVec.ofNat 32 p, step := BitVec.ofNat 48 x.step }
  { arrays := out, f := ((f.join gsq.2).join wsq.2).join usq.2, gauge := gauge, lanes := md.2 }

/-! ### The UPDATE op -/

/-- FP32 words of a gradient descriptor in element order. -/
def Tensor.words (t : Tensor) : List W32 :=
  (List.range t.g.ext1).flatMap (fun j => (List.range t.g.ext0).map (fun i => BitVec.ofNat 32 (t.code i j)))

/-- Ranges of reduction buffers that an op reads: their reduction has begun (R81). -/
def Chip.reducing (c : Chip) (d : Die) (g : Desc) : Chip :=
  if g.role = 8 ∧ g.space = 1 then
    g.runs.foldl (fun c r => c.modPlaten d (bits r.1 28 23) (fun p => { p with reduced := (bits r.1 22 0, r.2) :: p.reduced })) c
  else c

/-- Read the gradient descriptors, ascending; `i` is the first one's place in the list. -/
def Chip.readGrads (c : Chip) (u : UnitRef) : Nat → List Desc → List W32 → Chip × Except (Nat × AccFault) (List W32)
  | _, [], acc => (c, .ok acc)
  | i, g :: t, acc =>
    let r := c.readTensor u g
    match r.2 with
    | .error f => (r.1, .error (i, f))
    | .ok x => (r.1.reducing u.die g).readGrads u (i + 1) t (acc ++ x.words)

/-- Read the kept arrays from a source of bytes. -/
def readArrays (p : Nat) (defs : List (Option UpdArr)) (rd : Nat → Nat → List Byte) : List (Option (List (Val × Flags))) :=
  defs.map (fun d => d.map (fun a => a.values p (rd a.addr (a.sizes p).1) (rd a.saddr (a.sizes p).2)))

/-- The first access of a set's arrays that fails: pages that are not of its PSET, then the reads, then the writes. -/
def Chip.arraysFault (c : Chip) (n ps p : Nat) (defs : List (Option UpdArr)) : Option AccFault :=
  let runs := defs.flatMap (fun d => match d with
    | some a => [(a.addr, (a.sizes p).1), (a.saddr, (a.sizes p).2)]
    | none => [])
  runs.foldl (fun e r =>
    e <|> ((c.ctx n).pairedRange ps r.1 r.2).map af <|> firstFault (c.readFault n .active) (piecesOf r.1 r.2) <|>
    firstFault (c.writeFault n .update) (piecesOf r.1 r.2)) none

/-- The unit's op is a skip: 8 press cycles, nothing read or written (R207, R215, R222). -/
def Chip.updateSkip (c : Chip) (u : UnitRef) (o : Op) (ps : Nat) (g : Partial) : Chip :=
  let n := c.ctxOf u.die u.part
  let c := c.capRecord n ps (updOcfg o.e.slot.toNat) true o.e.tile 0 0 0
  let gauge : GaugeEntry := { gsq := g.gsq, nonfin := g.nonfin, step := o.step }
  (c.opDone u 8).modOp u (fun o => { o with skip := true, fin := some { gauge := gauge } })

/-- The capture copy of the arrays an UPDATE reads, and its gradient (R302). -/
def Chip.capCopy (c : Chip) (n ps : Nat) (info : PsetInfo) (grads : List W32) : Chip :=
  match (c.ctx n).capturing ps with
  | none => c
  | some (i, k, r) =>
    let base := k.p.areaVa.toNat
    let arrays := (info.addrs.zip info.sizes).flatMap (fun x =>
      (List.range x.2).map (fun j => c.peek n .active (x.1 + j)) ++ List.replicate (roundUp x.2 256 - x.2) 0)
    (c.fwStore n (base + r.copy.getD i 0) arrays).fwStore n (base + r.grad.getD i 0) (grads.flatMap (fun w => leBytes 4 w.toNat))

/-- The pass of an UPDATE that writes (R209 to R216). -/
def Chip.updateWrite (c : Chip) (u : UnitRef) (o : Op) (r : Run) (ps : Nat) (info : PsetInfo) (cfg : Ocfg) (clip : Option W32)
    (formed : Option Partial) (grads : List W32) : Chip :=
  let n := c.ctxOf u.die u.part
  let defs := updArrays info
  let out := updPass
    { info := info, k := updK cfg o.step.toNat, rnd := cfg.rnd.toNat, grads := grads, clip := clip, lsExp := r.lsExp.toNat,
      seed := (c.ctx n).seed, tile := o.e.tile, step := o.step.toNat,
      arrays := readArrays info.p defs (fun a l => (List.range l).map (fun i => c.peek n .active (a + i))) }
  let gauge := match formed with
    | some g => { out.gauge with gsq := g.gsq, nonfin := g.nonfin }
    | none => out.gauge
  let c := c.modCtx n (fun x => { x with psets := tput {} x.psets ps { info with gauge := gauge } })
  let c := c.capCopy n ps info grads
  let c := (defs.zip out.arrays).foldl (fun (c : Chip) x =>
    match x.1, x.2 with
    | some a, some b => ((c.writeVaAs n .update a.addr b.1).1.writeVaAs n .update a.saddr b.2).1
    | _, _ => c) c
  let digest := c.psetDigest n .inactive info
  let c := c.modRun n (fun k => { k with digests := tput 0 k.digests (u.die.num * 4096 + ps) digest })
  let c := c.capRecord n ps (updOcfg o.e.slot.toNat) false o.e.tile (clip.getD one32) info.p digest
  let c := c.modCtx n (fun x => { x with proof := x.proof.laneOver 3 o.e.tile out.lanes })
  let own : Partial := { gsq := out.gauge.gsq, nonfin := out.gauge.nonfin }
  let c := c.raiseFlags u.die (raiseOrder u.pos) n o.e.tag (if formed.isSome then out.f else out.f.join own.flags) 0 0
  let nw : Chip × Option AccFault := match formed with | some _ => (c, none) | none => c.writeNorm n ps own
  match nw.2 with
  | some f => nw.1.opFault u 0 f
  | none =>
    let c : Chip := match formed with
      | some _ => nw.1
      | none => match checkPartial cfg.absurd own with
        | some why => nw.1.clearCommittable n why (decide (why = 2)) (BitVec.ofNat 12 ps)
        | none => nw.1
    (c.opDone u (ceilDiv info.p 32 + 64)).modOp u (fun o => { o with fin := some { wrote := some ps, gauge := gauge } })

/-- The clip factor of a DEFER op: none where the op takes none (R224). -/
def Chip.readClip (c : Chip) (u : UnitRef) (defer : Bool) (ds : List Desc) : Chip × Except (Nat × AccFault) (Option W32) :=
  match defer, ds.getLast? with
  | true, some g =>
    let r := c.readSpace u 9 0 g.addr 4
    (r.1, match r.2 with
      | .ok bs => .ok (some (BitVec.ofNat 32 (leNat bs)))
      | .error f => .error (ds.length - 1, f))
  | _, _ => (c, .ok none)

/-- A factor that is NaN or not above zero (R224). -/
def badClip (k : W32) : Bool := fnan? k || fzero? k || k.msb

/-- The op after its start: the check at start before any read (R214), the clip factor (R224), the gradient, the pass. -/
def Chip.updateRun (c : Chip) (u : UnitRef) (o : Op) (r : Run) (ws : List W64) (ds : List Desc) : Chip :=
  let n := c.ctxOf u.die u.part
  let v := o.e.slot.toNat
  let ps := bits (wordOf ws 0) 11 0
  let cfg : Ocfg := tget default r.ocfg (updOcfg v)
  let info := psetInfo ws cfg ((c.ctx n).psetOf ps).gauge
  let formed := tget none r.partials ps
  match formed.bind (fun g => (checkPartial cfg.absurd g).map (fun why => (g, why))) with
  | some (g, why) => (c.clearCommittable n why (decide (why = 2)) (BitVec.ofNat 12 ps)).updateSkip u o ps g
  | none =>
    let k := c.readClip u (updDefer v) ds
    match k.2 with
    | .error e => k.1.opFault u e.1 e.2
    | .ok clip =>
      let c := k.1
      if (clip.map badClip).getD false then
        let c := c.raiseFlags u.die (raiseOrder u.pos) n o.e.tag (match clip with | some w => (f32 w).2 | none => {}) 0 0
        (c.clearCommittable n 1 true (BitVec.ofNat 12 ps)).updateSkip u o ps (formed.getD {})
      else
        let rd := c.readGrads u 1 (gradDescs (updDefer v) ds) []
        match rd.2 with
        | .error e => rd.1.opFault u e.1 e.2
        | .ok grads =>
          match rd.1.arraysFault n ps info.p (updArrays info) with
          | some f => rd.1.opFault u 0 f
          | none => rd.1.updateWrite u o r ps info cfg clip formed grads

/-- The shipment in flight pins a PSET (R296).
DEDUCED: log entry 47. -/
def Ctx.pinned (x : Ctx) (ps : Nat) : Bool := match x.proof.ship with | some s => s.psets.contains ps | none => false

/-- The UPDATE in progress is a skip: it started as one, or it has waited, and COMMITTABLE is clear when it goes on (R215, R216). -/
def Chip.skips (c : Chip) (n : Nat) (o : Op) : Bool := o.skip || (o.waiting && !(c.ctx n).train.committable)

/-- The UPDATE in progress with its parameter block read. -/
def Chip.updateOp (c : Chip) (u : UnitRef) (o : Op) (n : Nat) (ws : List W64) (ds : List Desc) : Chip :=
  let ps := bits (wordOf ws 0) 11 0
  match (c.ctx n).run with
  | none => c.updateSkip u o ps {}
  | some r =>
    let skip := c.skips n o
    if !skip ∧ (c.ctx n).pinned ps then (c.opWaits u).modCtx n (fun x => { x with proof := { x.proof with held := true } })
    else if r.isStep ∧ r.updated.contains ps then c.opTrap u 0x12
    else
      let c := c.modRun n (fun k => { k with updated := ps :: k.updated })
      if skip then c.updateSkip u o ps {} else c.updateRun u o r ws ds

/-- Run the UPDATE in progress on an update unit, under the selectors its list was fetched with (R202). -/
def Chip.update (c : Chip) (u : UnitRef) : Chip :=
  let n := c.ctxOf u.die u.part
  if slotClass u.pos ≠ .update then c else
  c.work u (fun o => decide (o.e.opc = 1)) (fun c o =>
    let ds := viewList (o.descs.getD []) o.wides
    let g := ds.getD 0 default
    let b := c.readSpace u 9 g.space g.addr 64
    match b.2 with
    | .error f => b.1.opFault u 0 f
    | .ok bs => b.1.underSel u n (fun c => c.updateOp u o n (wordsOf bs) ds))

def execUpdate (u : UnitRef) (s : State) : Host.Outcome State Fault Refusal := s.run (fun c => c.update u)

/-- The place of the clip descriptor in the list of the deferred UPDATE at the head of a queue. -/
def Chip.clipPlace (c : Chip) (u : UnitRef) : Option Nat :=
  match ((c.stream u.die u.part).map (fun s => (s.unit u.pos).queue)).getD [] with
  | e :: _ => if e.deferred u.pos then e.descs.map (fun dl => dl.length - 1) else none
  | [] => none

/-- CLIP_FACTOR_READY: the clip factor's link reaches a deferred UPDATE that waits at the head of its queue, which takes its count
(R150, R224). -/
def Chip.clipReady (c : Chip) (u : UnitRef) : Chip :=
  if slotClass u.pos ≠ .update then c else
  match c.clipPlace u with
  | some i => c.linkTake u i
  | none => c

def execClipFactorReady (u : UnitRef) (s : State) : Host.Outcome State Fault Refusal := s.run (fun c => c.clipReady u)

end Sys2Proof.Machine
end

