-- ==== Sys2Proof/Machine/Collective.lean ====
section
/-!
DEFINITION. The collective engine: matching of ops, the fixed order, REDUCE to NORM, rounds of A2A, timeouts and aborts
(R225, R229, R235 to R251).
-/
namespace Sys2Proof.Machine

/-! ### Groups and matching -/

/-- This die's participant entry. -/
def Chip.selfEntry (c : Chip) (d : Die) : Nat := c.domain.moduleId.toNat + 2 ^ 10 * d.num

/-- This die's participant index in a group (R236). -/
def Chip.selfIndex (c : Chip) (d : Die) (g : Group) : Nat := g.plist.findIdx (fun p => decide (p.toNat % 2 ^ 11 = c.selfEntry d))

/-- The fingerprint of a group (R237). -/
def Group.fingerprint (g : Group) : W32 := crc32 (leBytes 8 g.low.toNat ++ g.plist.flatMap (fun p => leBytes 2 p.toNat))

/-- The levels of a group, highest first: stride and extent (R236). -/
def Group.levels (g : Group) : List (Nat × Nat) :=
  let s := g.l0 * g.l1 * g.l2
  [(s, g.p / max 1 s), (g.l0 * g.l1, g.l2), (g.l0, g.l1), (1, g.l0)]

/-- A participant's message differs from what this op compares in the first exchange (R237). -/
def Chip.mismatch (c : Chip) (g : Group) (opc : Nat) (ws : List W64) (p : Peer) : Bool :=
  decide (p.fingerprint ≠ g.fingerprint) || decide (p.epoch ≠ c.domain.epoch) || decide (p.opcode.toNat ≠ opc) ||
  decide (p.word0 ≠ ws.getD 0 0) || decide (p.word1 ≠ ws.getD 1 0)

/-- A buffer of a participant: its own among them, once it has been sent. -/
def peerBuf (peers : List Peer) (i k : Nat) : List Byte :=
  match peers.find? (fun p => decide (p.index = i)) with
  | some p => p.bufs.getD k []
  | none => []

/-- The participants an op of `self` needs data from besides its own: all the others, participant 0 for BCAST, all the others at DEST
for SMERGE. -/
def needed (opc p self dest : Nat) : List Nat :=
  let others := (List.range p).filter (fun i => decide (i ≠ self))
  match opc with
  | 5 => if self = dest then others else []
  | 6 => if self = 0 then [] else [0]
  | _ => others

/-! ### Messages (R237, R240, R246) -/

/-- The bytes of a participant's message to another module.
PRESUMED: log entry 87. -/
def peerBytes (p : Peer) : List Byte :=
  leBytes 2 p.index ++ leBytes 2 p.group.toNat ++ leBytes 4 p.op ++ leBytes 4 p.round ++ leBytes 4 p.fingerprint.toNat ++
  leBytes 1 p.epoch.toNat ++ leBytes 1 p.opcode.toNat ++ leBytes 8 p.word0.toNat ++ leBytes 8 p.word1.toNat ++
  p.bufs.flatMap (fun b => leBytes 8 b.length ++ b)

/-- Two messages are for the same op, round and sender. -/
def samePeer (p r : Peer) : Bool :=
  decide (p.index = r.index) && decide (p.group = r.group) && decide (p.op = r.op) && decide (p.round = r.round)

/-- A participant's data comes to the collective engine of a die, stamped with its Ridge time; a stream that does not run takes none. -/
def Chip.arrive (c : Chip) (d : Die) (q : Nat) (p : Peer) : Chip :=
  match c.stream d q with
  | none => c
  | some s =>
    if s.stopped then c else
    c.modDie d (fun m =>
      if m.ce.inbox.any (fun a => decide (a.part = q) && samePeer a.peer p) then m
      else { m with ce := { m.ce with inbox := m.ce.inbox ++ [{ part := q, stamp := m.ridge, peer := p }] } })

/-- Data from another module comes over Purlin. A participant that is a die of this module sends its data inside it. -/
def Chip.arriveRemote (c : Chip) (d : Die) (q : Nat) (p : Peer) : Chip :=
  match c.stream d q with
  | none => c
  | some s =>
    let g : Group := tget {} s.image.groups p.group.toNat
    let e := (g.plist.getD p.index 0).toNat
    if g.p ≤ p.index ∨ e % 1024 = c.domain.moduleId.toNat then c else c.arrive d q p

/-- This participant's data goes to every other participant: what the first exchange compares goes to all of them, the data to those
that need it; to the other die of the module directly. It is kept for its own use too.
DESIGN CHOICE: log entry 72. -/
def Chip.exchange (c : Chip) (u : UnitRef) (g : Group) (p : Peer) (wants : Nat → Bool) : Chip :=
  g.plist.zipIdx.foldl (fun c x =>
    if x.2 = p.index ∨ g.p ≤ x.2 then c else
    let dest := x.1.toNat % 2 ^ 11
    let m := if wants x.2 then p else { p with bufs := [] }
    if dest % 1024 = c.domain.moduleId.toNat then c.arrive u.die.other u.part m
    else c.send (if p.opcode = 5 then msgRecord else msgData) dest (peerBytes m)) (c.arrive u.die u.part p)

/-- The deadline of an op (R246). -/
def Op.deadline (o : Op) : Nat :=
  let ms := Sys2Proof.Machine.colTimeout o.e.slot.toNat
  o.startNs.toNat + (if ms = 0 then 50 else ms) * 1000000

/-- The group of a collective op. -/
def Op.group (o : Op) : Nat := colGroup o.e.slot.toNat

/-- The data that came for an op by its deadline (R237, R246). -/
def Chip.colPeers (c : Chip) (u : UnitRef) (o : Op) : List Peer :=
  ((c.die u.die).ce.inbox.filter (fun a => decide (a.part = u.part) && decide (a.peer.group.toNat = o.group) &&
    decide (a.peer.op = o.num) && decide (a.stamp.toNat ≤ o.deadline))).map (·.peer)

/-- An op is over: what came for it goes. -/
def Chip.colClear (c : Chip) (u : UnitRef) (o : Op) : Chip :=
  c.modDie u.die (fun m => { m with ce := { m.ce with inbox := m.ce.inbox.filter (fun a =>
    !(decide (a.part = u.part) && decide (a.peer.group.toNat = o.group) && decide (a.peer.op = o.num))) } })

/-! ### Aborts (R246, R247) -/

/-- A collective op on a group aborts: CE_ABORT, aborts to every participant, the command ends with no commit. -/
def Chip.colAbort (c : Chip) (d : Die) (q g cause status peer : Nat) : Chip :=
  match c.stream d q with
  | none => c
  | some s =>
    let time := c.ridgeOf d
    let c := c.modDie d (fun m => { m with ce := m.ce.abort cause g peer time })
    let c := c.fail s.ctx { status := BitVec.ofNat 16 status, fdie := decide (d = .e), first := 117, beatAt := (c.die d).beatAt }
    (c.stopStream d q 3 status).tellOther d q

/-- COLLECTIVE_TIMEOUT: an op in progress or held is incomplete past its deadline (R246). Which participant CE_ABORT then names is
not stated: a free value.
DEDUCED: log entry 42. -/
def Chip.colTimeout (c : Chip) (d : Die) (q : Nat) : Chip :=
  match c.stream d q with
  | none => c
  | some s =>
    match s.collectives.find? (fun o => decide (o.deadline < (c.ridgeOf d).toNat)) with
    | none => c
    | some o =>
      let f := c.freeWord
      f.2.colAbort d q o.group 1 0x0401 f.1.toNat

def execCollectiveTimeout (die : Die) (part : Nat) (s : State) : Host.Outcome State Fault Refusal := s.run (fun c => c.colTimeout die part)

/-- COLLECTIVE_ABORT_RECEIVED: the matched op aborts with the abort's status. -/
def execCollectiveAbortReceived (die : Die) (part : Nat) (peer : BitVec 10) (status : W16) (s : State) : Host.Outcome State Fault Refusal :=
  s.run (fun c => match (c.stream die part).bind Stream.liveGroup with
    | some g => c.colAbort die part g 4 status.toNat peer.toNat
    | none => c)

/-! ### The fixed order (R239) -/

/-- The member of a line with coordinate `v` at a level. -/
def withCoord (q st l v : Nat) : Nat := q - (q / st % l) * st + v * st

/-- part(l, q) over the levels given, highest first, towards the coordinates of block j; `fwd` is d = +1. -/
def redPart {α : Type} (add : α → α → α) (x : Nat → α) (j : Nat) (fwd : Bool) : List (Nat × Nat) → Nat → α
  | [], q => x q
  | (st, l) :: t, q =>
    let l := max 1 l
    let st := max 1 st
    let jl := j / st % l
    let at' (k : Nat) : Nat := withCoord q st l (if fwd then (jl + k) % l else (jl + l - k % l) % l)
    (List.range (l - 1)).foldl (fun s k => add s (redPart add x j fwd t (at' (k + 2)))) (redPart add x j fwd t (at' 1))

/-- An FP32 operand as it is read (R36 to R38). -/
def fpIn (w : W32) : FlW32 := asFp (f32 w)

/-- Element e of n after reduction. -/
def reduceElem (g : Group) (n : Nat) (x : Nat → Nat → FlW32) (e : Nat) : FlW32 :=
  let b := max 1 (n / max 1 g.p)
  redPart (fl2 fadd32) (fun q => x q e) (e / b) (decide (e % b < b / 2)) g.levels 0

/-! ### Words and bytes of tensors -/

/-- Write words row by row through a descriptor. -/
def Chip.writeWords (c : Chip) (u : UnitRef) (i : Nat) (g : Desc) (ws : List Nat) : Chip × Option (Nat × AccFault) :=
  ((chunks (max 1 g.ext0) ws).zipIdx.foldl (fun (a : Chip × Option (Nat × AccFault)) x =>
    match a.2 with
    | some _ => a
    | none =>
      let r := a.1.writeRow u g x.2 x.1
      (r.1, r.2.map (fun f => (i, f)))) (c, none))

/-- Words spread over several descriptors; `i` is the first one's place. -/
def Chip.writeSpread (c : Chip) (u : UnitRef) : Nat → List Desc → List Nat → Chip × Option (Nat × AccFault)
  | _, [], _ => (c, none)
  | i, g :: t, ws =>
    let n := g.ext0 * g.ext1
    let r := c.writeWords u i g (ws.take n)
    match r.2 with
    | some e => (r.1, some e)
    | none => r.1.writeSpread u (i + 1) t (ws.drop n)

/-- Write bytes over runs, only those whose place in the whole lies in [lo, hi). -/
def Chip.writeRunBytes (c : Chip) (u : UnitRef) (g : Desc) (lo hi : Nat) : Nat → List (Nat × Nat) → List Byte → Chip × Option AccFault
  | _, [], _ => (c, none)
  | off, (a, n) :: t, bs =>
    let s := max lo off - off
    let e := min hi (off + n) - off
    let r := if s < e then c.writeSpace u g.role g.space (a + s) (((bs.take n).drop s).take (e - s)) else (c, none)
    match r.2 with
    | some f => (r.1, some f)
    | none => r.1.writeRunBytes u g lo hi (off + n) t (bs.drop n)

/-- All bytes of a tensor's rows. -/
def Tensor.bytes (t : Tensor) : List Byte := t.rows.flatten
/-- All element codes in order. -/
def Tensor.codes (t : Tensor) : List Nat := (List.range t.g.ext1).flatMap (fun j => (List.range t.g.ext0).map (fun i => t.code i j))

/-- Codes unpacked from bytes. -/
def unpackCodes (w n : Nat) (bs : List Byte) : List Nat :=
  let a := bs.toArray
  (List.range n).map (fun i => packGet w (fun k => a.getD k 0) (i * w))

/-! ### REDUCE and RSCAT -/

/-- Places of the error words of a reduction's inputs: platen and offset, none for elements outside a reduction buffer. -/
def errPlaces (delta : Nat) (ins : List Desc) : List (Option (Nat × Nat)) :=
  ins.flatMap (fun g => (List.range g.ext1).flatMap (fun j => (List.range g.ext0).map (fun i =>
    if g.role = 8 ∧ g.space = 1 then some (bits g.addr 28 23, bits g.addr 22 0 + g.bitOff 32 i j / 8 + delta) else none)))

/-- The narrow exchange of local elements (R229): codes, scales, new errors. -/
structure NarrowOut where
  codes : List Byte := []
  scs : List Byte := []
  errs : List W32 := []
  f : Flags := {}
  deriving DecidableEq, Repr, Inhabited

def decodeNarrow (codes : List Byte) (scs : List Byte) : List FlW32 :=
  let sa := scs.toArray
  codes.zipIdx.map (fun x => asFp (scaled (elemVal 5 x.1.toNat) (scaleVal false (sa.getD (x.2 / 32) 0))))

def narrowLocal (xs errs : List W32) : NarrowOut :=
  let x := (xs.zip errs).map (fun e => fadd32 e.1 e.2)
  (chunks 32 x).foldl (fun (a : NarrowOut) grp =>
    let r := convertDyn 5 false (List.replicate grp.length .near) (grp.map (fun v => (f32 v.1).1))
    let vs := r.2.1.map (fun z => asFp (scaled (elemVal 5 z.1) (scaleVal false r.1)))
    let es := (grp.zip vs).map (fun p => fl2 fsub32 p.1 p.2)
    { codes := a.codes ++ r.2.1.map (fun z => BitVec.ofNat 8 z.1), scs := a.scs ++ [r.1], errs := a.errs ++ es.map (·.1),
      f := es.foldl (fun f e => f.join e.2) (r.2.1.foldl (fun f z => f.join z.2) (a.f.join r.2.2)) }) {}

/-- Read or write the error words. -/
def Chip.readErrs (c : Chip) (d : Die) (ps : List (Option (Nat × Nat))) : List W32 :=
  ps.map (fun p => match p with
    | some x => BitVec.ofNat 32 (leNat (mread c.platenMem (platenKey d x.1 x.2) 4))
    | none => 0)

def Chip.writeErrs (c : Chip) (d : Die) (ps : List (Option (Nat × Nat))) (es : List W32) : Chip :=
  { c with platenMem := (ps.zip es).foldl (fun m x => match x.1 with
      | some y => if y.2 + 4 ≤ platenBytes then mwrite m (platenKey d y.1 y.2) (leBytes 4 x.2.toNat) else m
      | none => m) c.platenMem }

/-- The Gauge partial a reduction forms (R221, R243), added to its norm-array entry unless it is the first part. -/
def Chip.colGauge (c : Chip) (u : UnitRef) (n tag : Nat) (ws : List W64) (vals : List W32) : Chip × Option AccFault :=
  let w0 := wordOf ws 0
  if !bit w0 35 then (c, none) else
  let ps := bits w0 59 48
  let e := match (c.ctx n).run with | some r => r.lsExp.toNat | none => 0
  let inv : W32 := BitVec.ofNat 32 ((127 - e) * 2 ^ 23)
  let g0 := vals.map (fun v => fmul32 v inv)
  let gsq := addDys (g0.map (fun v => sqOf (f32 v.1).1))
  let nf := (vals.filter nonFinite).length
  let old : Chip × Except AccFault Partial :=
    if bit w0 36 then (c, .ok {}) else
    let r := c.readSpace u 9 0 ((c.ctx n).train.normBase.toNat + 16 * ps) 16
    (r.1, match r.2 with
      | .ok bs => .ok { gsq := BitVec.ofNat 64 (leNat (bs.take 8)), nonfin := BitVec.ofNat 32 (leNat (bs.drop 12)) }
      | .error f => .error f)
  match old.2 with
  | .error f => (old.1, some f)
  | .ok o =>
    let sum := dadd o.gsq gsq.1
    let g : Partial := { gsq := sum.1, nonfin := o.nonfin + BitVec.ofNat 32 nf }
    let f := g0.foldl (fun f v => f.join v.2) (g.flags.join (gsq.2.join sum.2))
    let c := old.1.raiseFlags u.die (raiseOrder u.pos) n tag f 0 0
    (c.modRun n (fun r => { r with partials := tput none r.partials ps (some g) })).writeNorm n ps g

/-- The inputs of a reduction. -/
def redInputs (ws : List W64) (ds : List Desc) : List Desc := if bit (wordOf ws 7) 63 then (ds.drop 1).dropLast else ds.drop 1

/-- The step runs in a gradient mode. -/
def Chip.runMode (c : Chip) (n mode : Nat) : Bool :=
  match (c.ctx n).run with | some r => r.isStep && decide (r.mode.toNat = mode) | none => false

/-- What a participant of REDUCE or RSCAT sends: its elements, in narrow mode its codes and scales, the errors kept (R229, R244). -/
def Chip.reduceData (c : Chip) (u : UnitRef) (tag n : Nat) (ws : List W64) (ds : List Desc) : Chip × Except (Nat × AccFault) (List (List Byte)) :=
  let ins := redInputs ws ds
  let rd := c.readGrads u 1 ins []
  match rd.2 with
  | .error e => (rd.1, .error e)
  | .ok xs =>
    if rd.1.runMode n 1 then
      let ps := errPlaces (bits (wordOf ws 1) 22 0) ins
      let o := narrowLocal xs (rd.1.readErrs u.die ps)
      ((rd.1.writeErrs u.die ps o.errs).raiseFlags u.die (raiseOrder u.pos) n tag o.f 0 0, .ok [o.codes, o.scs])
    else (rd.1, .ok [xs.flatMap (fun w => leBytes 4 w.toNat)])

/-- The elements a participant contributes. -/
def redElems (narrow : Bool) (peers : List Peer) (i : Nat) : List FlW32 :=
  if narrow then decodeNarrow (peerBuf peers i 0) (peerBuf peers i 1)
  else (chunks 4 (peerBuf peers i 0)).map (fun b => fpIn (BitVec.ofNat 32 (leNat b)))

/-- REDUCE (`all`) or RSCAT, once every participant's data is there.
DESIGN CHOICE: log entry 72. -/
def Chip.reduceRun (c : Chip) (u : UnitRef) (o : Op) (n : Nat) (all : Bool) (g : Group) (self : Nat) (ws : List W64) (ds : List Desc)
    (peers : List Peer) : Chip :=
  let size := bits (wordOf ws 0) 31 0
  let out := bit (wordOf ws 7) 63
  let narrow := c.runMode n 1
  let ta := ((List.range g.p).map (fun i => (redElems narrow peers i).toArray)).toArray
  let x (q e : Nat) : FlW32 := (ta.getD q #[]).getD e (flk 0)
  let b := size / max 1 g.p
  let res := (if all then List.range size else (List.range b).map (fun k => self * b + k)).map (reduceElem g size x)
  let vals := res.map (·.1)
  let c := c.raiseFlags u.die (raiseOrder u.pos) n o.e.tag (res.foldl (fun f v => f.join v.2) {}) 0 0
  let w : Chip × Option (Nat × AccFault) :=
    if out then c.writeWords u (ds.length - 1) (ds.getLastD default) (vals.map (·.toNat))
    else if all then c.writeSpread u 1 (redInputs ws ds) (vals.map (·.toNat))
    else
      let va := vals.toArray
      let words := (List.range size).map (fun e =>
        if e / max 1 b = self then (va.getD (e % max 1 b) 0).toNat else (Config.freeWord (c.fresh + e)).toNat % 2 ^ 32)
      ({ c with fresh := c.fresh + size } : Chip).writeSpread u 1 (redInputs ws ds) words
  match w.2 with
  | some e => w.1.opFault u e.1 e.2
  | none =>
    let q := w.1.colGauge u n o.e.tag ws vals
    match q.2 with
    | some e => q.1.opFault u 0 e
    | none => q.1.opDone u 0

/-! ### GATHER and BCAST -/

/-- Codes and scale bytes written through an output, the whole of it or one half of its bytes (R240, R250). -/
def Chip.writeCodes (c : Chip) (u : UnitRef) (i : Nat) (g : Desc) (half : Option Die) (codes : List Nat) (scs : List Byte) : Chip × Option (Nat × AccFault) :=
  let w := fmtWidth g.fmt
  let rows := (chunks (max 1 g.ext0) codes).zipIdx.map (fun x =>
    let run := g.runs.getD x.2 (0, 0)
    packBytes w x.1 ((c.getSpace (c.ctxOf u.die u.part) u.die u.pos g.space (run.1 + run.2 - 1) 1).getD 0 0))
  let bytes := rows.flatten
  let span (n : Nat) : Nat × Nat := match half with
    | none => (0, n)
    | some .w => (0, n / 2)
    | some .e => (n / 2, n)
  let a := c.writeRunBytes u g (span bytes.length).1 (span bytes.length).2 0 g.runs bytes
  match a.2 with
  | some f => (a.1, some (i, f))
  | none =>
    let b := a.1.writeRunBytes u g (span scs.length).1 (span scs.length).2 0 g.scaleRuns scs
    (b.1, b.2.map (fun f => (i, f)))

def Chip.gatherRun (c : Chip) (u : UnitRef) (g : Group) (ws : List W64) (ds : List Desc) (peers : List Peer) : Chip :=
  let out := ds.getD 2 default
  let w := fmtWidth (ds.getD 1 default).fmt
  let codes := (List.range g.p).flatMap (fun i => unpackCodes w (bits (wordOf ws 0) 31 0) (peerBuf peers i 0))
  let scs := (List.range g.p).flatMap (fun i => peerBuf peers i 1)
  let r := c.writeCodes u 2 out (if bit (wordOf ws 0) 34 then some u.die else none) codes (if out.scaled then scs else [])
  match r.2 with
  | some e => r.1.opFault u e.1 e.2
  | none => r.1.opDone u 0

def Chip.bcastRun (c : Chip) (u : UnitRef) (self : Nat) (ws : List W64) (ds : List Desc) (peers : List Peer) : Chip :=
  let g := ds.getD 1 default
  if self = 0 then c.opDone u 0 else
  let r := c.writeCodes u 1 g none (unpackCodes (fmtWidth g.fmt) (bits (wordOf ws 0) 31 0) (peerBuf peers 0 0)) (if g.scaled then peerBuf peers 0 1 else [])
  match r.2 with
  | some e => r.1.opFault u e.1 e.2
  | none => r.1.opDone u 0

/-- Codes and scales of a block as they are sent. -/
def Chip.blockData (c : Chip) (u : UnitRef) (g : Desc) : Chip × Except (Nat × AccFault) (List (List Byte)) :=
  let t := c.readTensor u g
  (t.1, match t.2 with
    | .error f => .error (1, f)
    | .ok x => .ok [packBytes (fmtWidth g.fmt) x.codes 0, x.scs.flatten])

/-! ### A2A (R251) -/

/-- The counts of a send count vector: P words of 32 bits. -/
def countsOf (p : Nat) (bs : List Byte) : List Nat := (List.range p).map (fun i => leNat ((bs.drop (4 * i)).take 4))

def sumTo (l : List Nat) (n : Nat) : Nat := (l.take n).foldl (· + ·) 0

/-- Bytes of a tensor's rows, or the fault of reading it. -/
def Chip.readBytes (c : Chip) (u : UnitRef) (g : Desc) : Chip × Except AccFault (List Byte) :=
  let t := c.readTensor u g
  (t.1, match t.2 with | .ok x => .ok x.bytes | .error f => .error f)

/-- Rows due to destination `self`, in ascending source: source and place among the source's send rows. -/
def dueRows (cnts : List (List Nat)) (self : Nat) : List (Nat × Nat) :=
  cnts.zipIdx.flatMap (fun x => (List.range (x.1.getD self 0)).map (fun k => (x.2, sumTo x.1 self + k)))

/-- What a participant of A2A sends: its counts, and its send rows, or the rows of the round's receive area when they go back. -/
def Chip.a2aData (c : Chip) (u : UnitRef) (ws : List W64) (ds : List Desc) : Chip × Except (Nat × AccFault) (List (List Byte)) :=
  let i := if bit (wordOf ws 0) 33 then 3 else 2
  let a := c.readBytes u (ds.getD 1 default)
  match a.2 with
  | .error f => (a.1, .error (1, f))
  | .ok cnt =>
    let b := a.1.readBytes u (ds.getD i default)
    (b.1, match b.2 with | .ok rows => .ok [cnt, rows] | .error f => .error (i, f))

/-- The row `k` of some rows, of `rowb` bytes. -/
def rowAt (rows : List Byte) (rowb k : Nat) : List Byte :=
  let r := (rows.drop (k * rowb)).take rowb
  r ++ List.replicate (rowb - r.length) 0

/-- The rows of `self` that lie in the receive areas in a round, each with where it came from: the destination, the place in its area,
the place among the send rows. -/
def backRows (cnts : List (List Nat)) (self cap round : Nat) : List (Nat × Nat × Nat) :=
  let mine := cnts.getD self []
  (List.range cnts.length).flatMap (fun d => (List.range (mine.getD d 0)).filterMap (fun k =>
    let pos := sumTo (cnts.map (fun s => s.getD d 0)) self + k
    if pos / cap = round then some (d, pos % cap, sumTo mine d + k) else none))

/-- The rows of a round that go back are there. -/
def backHere (cnts : List (List Nat)) (peers : List Peer) (self cap round : Nat) : Bool :=
  (backRows cnts self cap round).all (fun r => peers.any (fun p => decide (p.index = r.1) && decide (p.round = round)))

/-- A further round is due: rows still to come into this die's area, or, going back, in its area or on their way to it. -/
def moreRows (cnts : List (List Nat)) (self cap round : Nat) (rev : Bool) : Bool :=
  decide ((round + 1) * cap < (dueRows cnts self).length) ||
  (rev && (List.range ((dueRows cnts self).length + (cnts.getD self []).foldl (· + ·) 0 + cnts.flatten.foldl (· + ·) 0)).any (fun r =>
    decide (round < r) && !(backRows cnts self cap r).isEmpty))

/-- A round of A2A: the receive area filled from what is due and the counts written, or the rows of the areas written back; then the
area's link while more is due for the area. -/
def Chip.a2aRun (c : Chip) (u : UnitRef) (o : Op) (g : Group) (self : Nat) (ws : List W64) (ds : List Desc) (peers : List Peer) : Chip :=
  let rowb := bits (wordOf ws 2) 15 0
  let cap := max 1 (bits (wordOf ws 2) 63 32)
  let rev := bit (wordOf ws 0) 33
  let area := ds.getD 3 default
  let first := peers.filter (fun p => decide (p.round = 0))
  let cnts := (List.range g.p).map (fun i => countsOf g.p (peerBuf first i 0))
  if rev && !backHere cnts peers self cap o.round then c.opWaits u else
  let w : Chip × Option (Nat × AccFault) :=
    if rev then
      let now := peers.filter (fun p => decide (p.round = o.round))
      let out := ds.getD 2 default
      (backRows cnts self cap o.round).foldl (fun (a : Chip × Option (Nat × AccFault)) x =>
        match a.2 with
        | some _ => a
        | none =>
          let r := a.1.writeRunBytes u out (x.2.2 * rowb) ((x.2.2 + 1) * rowb) 0 out.runs
            (List.replicate (x.2.2 * rowb) 0 ++ rowAt (peerBuf now x.1 1) rowb x.2.1)
          (r.1, r.2.map (fun f => (2, f)))) (c, none)
    else
      let due := ((dueRows cnts self).drop (o.round * cap)).take cap
      let bytes := due.flatMap (fun x => rowAt (peerBuf first x.1 1) rowb x.2)
      let r := c.writeRunBytes u area 0 bytes.length 0 area.runs bytes
      match r.2 with
      | some f => (r.1, some (3, f))
      | none =>
        let cg := ds.getD 4 default
        let cv := cnts.flatMap (fun s => leBytes 4 (s.getD self 0))
        let q := r.1.writeRunBytes u cg 0 cv.length 0 cg.runs cv
        (q.1, q.2.map (fun f => (4, f)))
  match w.2 with
  | some e => w.1.opFault u e.1 e.2
  | none =>
    if !moreRows cnts self cap o.round rev then w.1.opDone u 0
    else
      let again := decide ((o.round + 1) * cap < (dueRows cnts self).length)
      let c := if again && area.lvalid then w.1.signal u.die u.part area.lpair (!o.dests.contains 3) area.lxdie area.lcount (w.1.opKnows u) else w.1
      c.modOp u (fun o => { o with waiting := true, round := o.round + 1, sent := !(rev && again), paused := again && !area.lvalid
                                   links := if again then o.links.filter (· != 3) else o.links })

/-- A2A_ROUND_RESUME: the consumer's count is back in the area's half; the next round may run (R251). -/
def Chip.a2aResume (c : Chip) (u : UnitRef) : Chip :=
  match c.op u with
  | none => c
  | some o =>
    if u.pos ≠ 117 ∨ o.e.opc ≠ 4 ∨ o.round = 0 ∨ o.worked then c else
    let g := descOf ((o.descs.getD []).getD 3 [])
    if g.lvalid then c.linkTake u 3 else c.modOp u (fun o => { o with waiting := false, paused := false })

def execA2aRoundResume (u : UnitRef) (s : State) : Host.Outcome State Fault Refusal := s.run (fun c => c.a2aResume u)

/-! ### SMERGE and NORM -/

def Chip.smergeRun (c : Chip) (u : UnitRef) (o : Op) (g : Group) (self : Nat) (ws : List W64) (ds : List Desc) (peers : List Peer) : Chip :=
  let n := bits (wordOf ws 0) 31 0
  if self ≠ bits (wordOf ws 1) 41 32 then c.opDone u 0
  else
    let parts := (List.range g.p).map (fun i => peerBuf peers i 0)
    if bit (wordOf ws 0) 32 then
      let recs := parts.flatMap (fun bs => (chunks (max 1 (bs.length / max 1 n)) bs).map (fun b => (o.group, { recordOf b with part := BitVec.ofNat 4 u.part })))
      (c.modDie u.die (fun m => { m with gut := { m.gut with remote := m.gut.remote ++ recs } })).opDone u 0
    else
      let out := ds.getD 2 default
      let bytes := parts.flatten
      let w := c.writeRunBytes u out 0 bytes.length 0 out.runs bytes
      match w.2 with
      | some f => w.1.opFault u 2 f
      | none => w.1.opDone u 0

/-- A participant's total: its listed partials summed in list order. -/
def addPartial (a b : Partial × Flags) : Partial × Flags :=
  let s := dadd a.1.gsq b.1.gsq
  ({ gsq := s.1, nonfin := BitVec.ofNat 32 (min (a.1.nonfin.toNat + b.1.nonfin.toNat) (2 ^ 32 - 1)) }, (a.2.join b.2).join s.2)

def partialSum (l : List Partial) : Partial × Flags := l.foldl (fun a g => addPartial a (g, {})) ({}, {})

def partialsOf (bs : List Byte) : List Partial :=
  (chunks 16 bs).map (fun b => { gsq := BitVec.ofNat 64 (leNat (b.take 8)), nonfin := BitVec.ofNat 32 (leNat (b.drop 12)) })

/-- An FP64 number is at most another; a NaN is not. -/
def dle (a b : W64) : Bool :=
  match (fmt64.decode a.toNat).1, (fmt64.decode b.toNat).1 with
  | .fin p, .fin q => p.le q
  | _, _ => false

/-- The clip factor of a total (R225): 1.0 at most at MAXNORM², else the quotient, which is a NaN for a NaN. -/
def clipFactor (maxNorm : W32) (t : Partial) : FlW32 :=
  let m := f32to64 maxNorm
  let m2 := dmul m m
  if t.nonfin ≠ 0 ∨ dle t.gsq m2.1 then (one32, {})
  else
    let r := dsqrt t.gsq
    let d := ddiv m r.1
    let k := f64to32 d.1
    (k.1, (((f32 maxNorm).2.join r.2).join d.2).join k.2)

/-- The norm-array entries of the PSETs listed, one after another. -/
def Chip.readNorms (c : Chip) (u : UnitRef) (base : Nat) : List Nat → List Byte → Chip × Except AccFault (List Byte)
  | [], acc => (c, .ok acc)
  | ps :: t, acc =>
    let r := c.readSpace u 9 0 (base + 16 * ps) 16
    match r.2 with
    | .error f => (r.1, .error f)
    | .ok bs => r.1.readNorms u base t (acc ++ bs)

/-- What a participant of NORM sends: the partials of the PSETs its list names. -/
def Chip.normData (c : Chip) (u : UnitRef) (n : Nat) (ds : List Desc) : Chip × Except (Nat × AccFault) (List (List Byte)) :=
  let l := c.readBytes u (ds.getD 1 default)
  match l.2 with
  | .error f => (l.1, .error (1, f))
  | .ok bs =>
    let r := l.1.readNorms u (l.1.ctx n).train.normBase.toNat ((chunks 2 bs).map (fun b => leNat b % 4096)) []
    (r.1, match r.2 with | .ok own => .ok [own] | .error f => .error (1, f))

def Chip.normRun (c : Chip) (u : UnitRef) (o : Op) (n : Nat) (g : Group) (ds : List Desc) (peers : List Peer) : Chip :=
  let t := redPart addPartial (fun i => partialSum (partialsOf (peerBuf peers i 0))) 0 true g.levels 0
  let k := clipFactor (c.ctx n).train.maxNorm t.1
  let c := c.raiseFlags u.die (raiseOrder u.pos) n o.e.tag (t.2.join k.2) 0 0
  let w := c.writeSpace u 9 0 (ds.getD 2 default).addr (leBytes 4 k.1.toNat)
  match w.2 with
  | some f => w.1.opFault u 2 f
  | none => w.1.opDone u 0

/-! ### The op in progress -/

/-- What this participant sends for an op: none for one that sends no data. -/
def Chip.ownData (c : Chip) (u : UnitRef) (o : Op) (n self : Nat) (ws : List W64) (ds : List Desc) : Chip × Except (Nat × AccFault) (List (List Byte)) :=
  match o.e.opc with
  | 1 => c.reduceData u o.e.tag n ws ds
  | 2 => c.reduceData u o.e.tag n ws ds
  | 3 => c.blockData u (ds.getD 1 default)
  | 4 => c.a2aData u ws ds
  | 5 =>
    let r := c.readBytes u (ds.getD 1 default)
    (r.1, match r.2 with | .ok bs => .ok [bs] | .error f => .error (1, f))
  | 6 => if self = 0 then c.blockData u (ds.getD 1 default) else (c, .ok [])
  | _ => c.normData u n ds

/-- Participant `i` needs this participant's data: all need it, but for BCAST, whose data comes from participant 0, and SMERGE, whose
data goes to DEST. -/
def wantsData (opc self dest i : Nat) : Bool :=
  match opc with
  | 5 => decide (i = dest)
  | 6 => decide (self = 0)
  | _ => true

/-- The op's own data goes out once, or once a round for rows that go back. -/
def Chip.sendOwn (c : Chip) (u : UnitRef) (o : Op) (n : Nat) (g : Group) (self : Nat) (ws : List W64) (ds : List Desc) : Chip × Option (Nat × AccFault) :=
  if o.sent then (c, none) else
  let r := c.ownData u o n self ws ds
  match r.2 with
  | .error e => (r.1, some e)
  | .ok bufs =>
    let p : Peer := { index := self, group := BitVec.ofNat 12 o.group, op := o.num, round := o.round, fingerprint := g.fingerprint,
                      epoch := c.domain.epoch, opcode := BitVec.ofNat 4 o.e.opc, word0 := ws.getD 0 0, word1 := ws.getD 1 0, bufs := bufs }
    ((r.1.exchange u g p (wantsData o.e.opc self (bits (wordOf ws 1) 41 32))).modOp u (fun o => { o with sent := true }), none)

/-- Every participant's data that an op needs is there. -/
def haveAll (opc p self dest : Nat) (peers : List Peer) : Bool :=
  (needed opc p self dest).all (fun i => peers.any (fun x => decide (x.index = i)))

/-- The op with its parameter block read: its data goes out; a difference in the first exchange aborts it, missing data makes it
wait; else it is carried out. -/
def Chip.colWork (c : Chip) (u : UnitRef) (o : Op) (s : Stream) (ws : List W64) (ds : List Desc) : Chip :=
  let n := s.ctx
  let opc := o.e.opc
  let g : Group := tget {} s.image.groups o.group
  let self := c.selfIndex u.die g
  let r := c.sendOwn u o n g self ws ds
  match r.2 with
  | some e => r.1.opFault u e.1 e.2
  | none =>
    let c := r.1
    let peers := c.colPeers u o
    match (peers.filter (fun p => decide (p.index ≠ self))).find? (c.mismatch g opc ws) with
    | some p => c.colAbort u.die u.part o.group 3 0x0403 p.index
    | none =>
      if !haveAll opc g.p self (bits (wordOf ws 1) 41 32) peers then c.opWaits u
      else match opc with
        | 1 => c.reduceRun u o n true g self ws ds peers
        | 2 => c.reduceRun u o n false g self ws ds peers
        | 3 => c.gatherRun u g ws ds peers
        | 4 => c.a2aRun u o g self ws ds peers
        | 5 => c.smergeRun u o g self ws ds peers
        | 6 => c.bcastRun u self ws ds peers
        | _ => c.normRun u o n g ds peers

/-- Read the parameter block of an op's list, then `f`. -/
def Chip.withBlock (c : Chip) (u : UnitRef) (o : Op) (f : Chip → List W64 → List Desc → Chip) : Chip :=
  let ds := viewList (o.descs.getD []) o.wides
  let b := c.readSpace u 9 (ds.getD 0 default).space (ds.getD 0 default).addr 64
  match b.2 with
  | .error e => b.1.opFault u 0 e
  | .ok bs => f b.1 (wordsOf bs) ds

/-- What came for the op of a unit goes once the op has done its work. -/
def Chip.colSettle (c : Chip) (u : UnitRef) : Chip :=
  match c.op u with
  | some o => if o.worked then c.colClear u o else c
  | none => c

/-! ### Bucketed mode (R230) -/

/-- The op in progress is held: it joins the bucket with the bytes it reduces, and the engine goes on. -/
def Chip.hold (c : Chip) (u : UnitRef) (o : Op) (size : Nat) : Chip :=
  c.modStream u.die u.part (fun s => { s.modUnit u.pos (fun k =>
    { k with op := none, queue := if o.e.i < o.e.rep then { o.e with i := o.e.i + 1 } :: k.queue else k.queue }) with
      bucket := s.bucket ++ [{ o with bytes := 4 * size }] })

/-- The last reduction of the step has been reached: none waits behind the held ones, and the stream has issued its COMMIT or its HALT
or waits for what has been issued.
DESIGN CHOICE: log entry 72. -/
def Chip.lastReached (c : Chip) (d : Die) (q : Nat) (s : Stream) : Bool :=
  let red (opc : Nat) : Bool := decide (opc = 1) || decide (opc = 2)
  let k := s.unit 117
  !(k.queue.any (fun e => red e.opc) || (match k.op with | some o => red o.e.opc && !o.completed | none => false)) &&
  (s.halted || c.commitIssued (c.ctxOf d q) d || (match s.wait with
    | .semLaunch _ _ _ => true
    | .wait _ _ _ _ => true
    | .waitu _ => true
    | _ => false))

/-- Do `f` for every held op in order, as though it were the one in progress; those not completed by it stay held. -/
def Chip.eachHeld (c : Chip) (u : UnitRef) (f : Chip → Chip) : Chip :=
  match c.stream u.die u.part with
  | none => c
  | some s =>
    let put (o : Option Op) (c : Chip) : Chip := c.modStream u.die u.part (fun s => s.modUnit u.pos (fun k => { k with op := o }))
    let keep (o : Option Op) (c : Chip) : Chip := c.modStream u.die u.part (fun s => { s with bucket := s.bucket ++ o.toList })
    let c := s.bucket.foldl (fun c h =>
      if c.quiet u.die u.part then keep (some h) c
      else
        let c := f (put (some h) c)
        keep ((c.op u).filter (fun o => !o.recorded)) c) (c.modStream u.die u.part (fun s => { s with bucket := [] }))
    put (s.unit u.pos).op c

/-- Every held op has the data it needs. -/
def Chip.bucketHere (c : Chip) (u : UnitRef) (s : Stream) : Bool :=
  s.bucket.all (fun o =>
    let g : Group := tget {} s.image.groups o.group
    haveAll o.e.opc g.p (c.selfIndex u.die g) 0 (c.colPeers u o))

/-- The held ops' data goes out, each once. -/
def Chip.sendHeld (c : Chip) (u : UnitRef) (s : Stream) : Chip :=
  c.eachHeld u (fun c => match c.op u with
    | none => c
    | some o => c.withBlock u o (fun c ws ds =>
        let g : Group := tget {} s.image.groups o.group
        let r := c.sendOwn u o s.ctx g (c.selfIndex u.die g) ws ds
        match r.2 with
        | some e => r.1.opFault u e.1 e.2
        | none => r.1))

/-- The held ops are carried out and complete, in order. -/
def Chip.runHeld (c : Chip) (u : UnitRef) (s : Stream) : Chip :=
  c.eachHeld u (fun c => match c.op u with
    | none => c
    | some o => ((c.withBlock u o (fun c ws ds => c.colWork u o s ws ds)).colSettle u).completeOp u)

/-- The bucket of a die's stream: exchanged once its bytes reach the size of Table 9.9 or the last reduction is reached, carried out
once every participant's data is there. -/
def Chip.bucketStep (c : Chip) (d : Die) (q : Nat) : Chip :=
  let u : UnitRef := { die := d, part := q, pos := 117 }
  match c.stream d q with
  | none => c
  | some s =>
    if s.bucket.isEmpty ∨ s.stopped ∨ s.trapDue ∨ c.clockStopped u then c else
    let bytes := s.bucket.foldl (fun a o => a + o.bytes) 0
    if !(s.flushed || decide ((c.ctx s.ctx).train.mib.toNat * 2 ^ 20 ≤ bytes) || c.lastReached d q s) then c else
    let c := (c.modStream d q (fun s => { s with flushed := true })).sendHeld u s
    match c.stream d q with
    | none => c
    | some s =>
      if s.stopped ∨ s.trapDue ∨ !c.bucketHere u s then c
      else (c.runHeld u s).modStream d q (fun s => { s with flushed := !s.bucket.isEmpty })

/-- Carry out the collective op in progress with what has come for it. -/
def Chip.colStep (c : Chip) (u : UnitRef) (opc : Nat) : Chip :=
  match c.stream u.die u.part with
  | none => c
  | some s => c.work u (fun o => decide (o.e.opc = opc) && !o.paused) (fun c o =>
      c.withBlock u o (fun c ws ds =>
        if (opc = 1 ∨ opc = 2) ∧ c.runMode s.ctx 2 then c.hold u o (bits (wordOf ws 0) 31 0)
        else (c.colWork u o s ws ds).colSettle u))

/-- A collective op with what other modules sent since: the data comes in, the op is carried out when all of it is there, and so is
the bucket. -/
def Chip.collective (c : Chip) (u : UnitRef) (opc : Nat) (peers : List Peer) : Chip :=
  if u.pos ≠ 117 then c else
  ((peers.foldl (fun c p => c.arriveRemote u.die u.part p) c).colStep u opc).bucketStep u.die u.part

def execReduce (u : UnitRef) (peers : List Peer) (s : State) : Host.Outcome State Fault Refusal := s.run (fun c => c.collective u 1 peers)
def execRscat (u : UnitRef) (peers : List Peer) (s : State) : Host.Outcome State Fault Refusal := s.run (fun c => c.collective u 2 peers)
def execGather (u : UnitRef) (peers : List Peer) (s : State) : Host.Outcome State Fault Refusal := s.run (fun c => c.collective u 3 peers)
def execA2a (u : UnitRef) (peers : List Peer) (s : State) : Host.Outcome State Fault Refusal := s.run (fun c => c.collective u 4 peers)
def execSmerge (u : UnitRef) (peers : List Peer) (s : State) : Host.Outcome State Fault Refusal := s.run (fun c => c.collective u 5 peers)
def execBcast (u : UnitRef) (peers : List Peer) (s : State) : Host.Outcome State Fault Refusal := s.run (fun c => c.collective u 6 peers)
def execNorm (u : UnitRef) (peers : List Peer) (s : State) : Host.Outcome State Fault Refusal := s.run (fun c => c.collective u 7 peers)

end Sys2Proof.Machine
end

