-- ==== Sys2Proof/Machine/Beat.lean ====
section
/-!
DEFINITION. One beat boundary of a die (R20, R124, R125, R190, R253 to R256, R310, R398, R399).
-/
namespace Sys2Proof.Machine

/-! ### What ends with the beat -/

/-- Bytes of packets in the Gutter buffer (R187). -/
def Gutter.occ (g : Gutter) : Nat :=
  g.packets.foldl (fun a kv => match kv.2 with | some p => a + 32 + 6 * p.k | none => a) 0

/-- Watermark crossings (R190). -/
def Gutter.watermarks (g : Gutter) (time : W64) : Gutter :=
  let o := g.occ
  let g := if g.occPrev < g.high.toNat * 4096 ∧ g.high.toNat * 4096 ≤ o then { g with hi := g.hi.event time } else g
  let g := if g.low.toNat * 4096 < g.occPrev ∧ o ≤ g.low.toNat * 4096 then { g with lo := g.lo.event time } else g
  { g with occPrev := o }

/-- The set point in mV at a press clock (Table 15.2): linear between rows, rounded up to 5 mV. -/
def setPoint (mhz : Nat) : Nat :=
  let at' (f0 v0 dv : Nat) : Nat := ceilDiv (v0 * 300 + (mhz - f0) * dv) 1500 * 5
  if mhz < 1200 then at' 900 650 40 else if mhz < 1500 then at' 1200 690 60 else if mhz < 1800 then at' 1500 750 50 else at' 1800 800 80

/-- A new press target: the ramp begins at the present frequency, a higher set point comes first (R20, R365). -/
def DieSt.retarget (m : DieSt) (t : Nat) : DieSt :=
  if m.target.toNat = t then m else
  let v := max m.setMv (setPoint t)
  { m with target := BitVec.ofNat 16 t, rampFrom := m.mhz, rampLeft := 8, setMv := v, boosted := m.boosted || decide (800 < v) }

/-- One of the eight steps of a press frequency change (R20); a lower set point follows the last one (R365). A step that is no
whole number of MHz is rounded down, because the rule states no rounding and the clock is shown in whole MHz.
DESIGN CHOICE: log entry 92. -/
def DieSt.ramp (m : DieSt) : DieSt :=
  if m.rampLeft = 0 then m else
  let k := 9 - m.rampLeft
  let f : Int := m.rampFrom.toNat + ((m.target.toNat : Int) - m.rampFrom.toNat) * k / 8
  if m.rampLeft = 1 then { m with rampLeft := 0, mhz := m.target, setMv := setPoint m.target.toNat }
  else { m with rampLeft := m.rampLeft - 1, mhz := BitVec.ofInt 16 f }

/-- Thatch cycles in the beat that ends: 128 press cycles at the present frequency, whole cycles carried (R20, R91). -/
def DieSt.thatchCycles (m : DieSt) : Nat :=
  let f := max 1 m.mhz.toNat
  (m.beats + 1) * 128 * 1200 / f - m.beats * 128 * 1200 / f

/-- Of those, the cycles in which an engine of a stack with gating share g is gated: count modulo 8 below g (R372). -/
def DieSt.gatedCycles (m : DieSt) (g : Nat) : Nat :=
  let first := m.beats * 128 * 1200 / max 1 m.mhz.toNat
  ((List.range m.thatchCycles).filter (fun i => decide ((first + i) % 8 < g))).length

/-- The class of Table 10.6 a slot position is summed under. -/
def idleClass (pos : Nat) : Nat :=
  match slotClass pos with
  | .platen => 0 | .thatch => 1 | .selection => 2 | .update => 3 | .collective => 4 | _ => 5

/-- The op in progress re-runs a tile with a widened destination. -/
def Op.wide (o : Op) (pos : Nat) : Bool := decide (pos < 96) && decide (o.e.opc = 1) && (o.e.tileSlot pos).wide

/-- The cause of a started op that waits (R254 rule 6): Gutter wait for a packet, back-pressure for a full logits ring whose oldest
entry waits for the Gutter, peer wait for remote data, credit wait for lists, links, rounds and the rest. -/
def Chip.opWait (c : Chip) (u : UnitRef) (o : Op) : Nat :=
  if !(o.descs.isSome && o.linked) then 2
  else match slotClass u.pos with
  | .platen => if o.waiting ∧ o.e.opc = 1 ∧ (o.e.tileSlot u.pos).loss then 10 else 2
  | .thatch =>
    let t := o.e.tileSlot u.pos
    if o.waiting ∧ (t.vocab ∨ t.route) ∧ c.backPressed (stackOfTe u.die (u.pos - 64)) then 11 else 2
  | .collective => if o.e.opc = 4 ∧ 0 < o.round then 2 else 1
  | _ => 2

/-- The cause of a stream's wait (R254 rule 8, R255). -/
def Stream.waitCause (s : Stream) : Nat :=
  let pair (p : BitVec 12) : Nat :=
    let k := (tget 0 s.image.causes p.toNat : BitVec 4).toNat
    if k = 0 then 4 else k
  match s.wait with
  | .semLaunch p _ _ => pair p
  | .wait p _ _ _ => pair p
  | _ => 4

/-- The idle cause of a unit of a partition for the beat that ends (R254): the first that applies. An op within its declared beats that
waits on nothing works.
DEDUCED: log entry 78. -/
def Chip.idleCause (c : Chip) (d : Die) (q pos : Nat) : Nat :=
  let n := ((c.part q).cur).getD 0
  let x := c.ctx n
  if x.st = .loading ∨ x.st = .saving then 8 else
  match x.run, c.stream d q with
  | some _, some s =>
    if !s.begun then 3 else
    match (s.unit pos).op with
    | some o =>
      if !o.completed && o.wide pos then 9
      else if o.busy then 0
      else if pos < 64 ∧ ((c.platen d pos).hold || (c.platen d pos).heldBeat) then 7
      else if o.completed || decide (o.e.opc = 0) then 4
      else if o.waiting || !(o.worked || o.e.noList pos || o.ready) || decide (slotBeats o.e.slot.toNat ≤ o.beats) then
        c.opWait { die := d, part := q, pos := pos } o
      else 0
    | none => match (s.unit pos).queue with
      | e :: _ => if e.mayStart pos then s.waitCause else 2
      | [] => if pos = 117 ∧ s.flushed then 1 else s.waitCause
  | _, _ => 3

/-- Count beats or cycles of one unit under a cause. -/
def Chip.countCause (c : Chip) (n : Nat) (d : Die) (pos k by' : Nat) : Chip :=
  if by' = 0 then c else
  c.modSide n d (fun x =>
    let x := { x with idleSum := tmod 0 x.idleSum (idleClass pos * 16 + k) (fun (v : W64) => satAdd v by') }
    if pos < 64 then { x with ptIdle := tmod 0 x.ptIdle (pos * 16 + k) (fun (v : W32) => satAdd v 1) }
    else if pos < 96 then { x with teIdle := tmod 0 x.teIdle ((pos - 64) * 16 + k) (fun (v : W32) => satAdd v by') }
    else x)

/-- Count one unit's beat under its cause; a thatch engine's cycles one by one, gated ones under throttle (R91, R253). -/
def Chip.countIdle (c : Chip) (d : Die) (q pos : Nat) : Chip :=
  match (c.part q).cur with
  | none => c
  | some n =>
    let k := c.idleCause d q pos
    if slotClass pos ≠ .thatch then c.countCause n d pos k 1
    else
      let m := c.die d
      let g := if k = 8 ∨ k = 3 ∨ k = 9 then 0 else m.gatedCycles (c.stk (stackOfTe d (pos - 64))).gate.toNat
      (c.countCause n d pos k (m.thatchCycles - g)).countCause n d pos 7 g

/-- Beats of the ops in progress; an op still running when its declared beats are over counts the beat that starts (R125).
DEDUCED: log entry 78. -/
def Chip.ageOps (c : Chip) (d : Die) (q : Nat) : Chip :=
  match c.stream d q with
  | none => c
  | some s =>
    s.units.foldl (fun c kv =>
      match kv.2.op with
      | none => c
      | some o =>
        let c := c.modOp { die := d, part := q, pos := kv.1 } (fun o => { o with beats := o.beats + 1, busy := false })
        if !o.recorded && decide (o.e.opc ≠ 0) && decide (slotBeats o.e.slot.toNat ≤ o.beats + 1) then
          c.modSide s.ctx d (fun k => { k with imp := { k.imp with overrun := satAdd k.imp.overrun 1 } })
        else c) c

/-- The partition under which a beat of the die's one merge stage or collective engine is counted (R253): the lowest one whose op
there works, else whose op is in progress, else that runs a command.
DEDUCED: log entry 78. -/
def Chip.countedFor (c : Chip) (d : Die) (pos : Nat) : Option Nat :=
  let op (q : Nat) : Option Op := (c.stream d q).bind (fun s => (s.unit pos).op)
  let parts := (List.range 16).filter (fun q => (c.part q).cur.isSome)
  (parts.find? (fun q => match op q with | some o => o.busy | none => false)) <|>
  (parts.find? (fun q => match op q with | some o => !o.completed | none => false)) <|>
  (parts.find? (fun q => (op q).isSome)) <|> (parts.find? (fun q => (c.stream d q).isSome)) <|> parts.head?

/-- The beat that ends, for one partition: the causes of the units it holds and of those counted under it, its ops' ages
and its delay. `shared`
are the partitions the merge stage and the collective engine are counted for. -/
def Chip.endBeat (c : Chip) (d : Die) (shared : Option Nat × Option Nat) (q : Nat) : Chip :=
  let held (p : Nat) : Bool := if p = 116 then decide (shared.1 = some q) else if p = 117 then decide (shared.2 = some q) else c.unitHeld d q p
  let c := ((List.range 118).filter held).foldl (fun c p => c.countIdle d q p) c
  (c.ageOps d q).modStream d q (fun s => { s with delay := s.delay - 1 })

/-- The beat that ends, for the die. -/
def Chip.closeBeat (c : Chip) (d : Die) : Chip :=
  let c := c.rollup d
  let shared := (c.countedFor d 116, c.countedFor d 117)
  let c := (List.range 16).foldl (fun c q => c.endBeat d shared q) c
  c.modDie d (fun m =>
    { m.ramp with
      beats := m.beats + 1
      gut := m.gut.watermarks m.ridge
      platens := tmap {} (fun _ p => if p.hold || p.heldBeat then { p with holdBeats := satAdd p.holdBeats 1, heldBeat := false } else p) m.platens })

/-! ### Issue -/

/-- A NOP whose declared beats have elapsed completes (R120). -/
def Chip.endNops (c : Chip) (d : Die) (q : Nat) : Chip :=
  match c.stream d q with
  | none => c
  | some s => s.units.foldl (fun c kv =>
      match kv.2.op with
      | some o => if o.e.opc = 0 ∧ !o.recorded ∧ slotBeats o.e.slot.toNat ≤ o.beats then c.recordOp { die := d, part := q, pos := kv.1 } else c
      | none => c) c

/-- Re-evaluate a stream's wait on completions, signals and Ridge time (R124, R128, R131, R132 rule 4). -/
def Chip.recheck (c : Chip) (d : Die) (q : Nat) : Chip :=
  match c.stream d q with
  | none => c
  | some s =>
    match s.wait with
    | .wait sem half count deadline =>
      let p := c.pair q sem.toNat
      let inTime := match deadline with
        | none => true
        | some t => s.met || decide (c.ridgeOf d ≤ t)
      if inTime && c.semHas d p half count.toNat then
        ((c.semTake d p half count.toNat).hears (.stream d) d p half).setWait d q .none
      else c.waitTimeout d q
    | .waitu classes =>
      if (List.range 7).all (fun k => !bit classes.toNat k || s.classIdle k) then
        let ids := ((List.range 7).filter (bit classes.toNat)).flatMap (fun k => c.knownTo s.ctx (.cls d k))
        (c.learn s.ctx (.stream d) ids).setWait d q .none
      else c
    | .rwait t => if t ≤ c.ridgeOf d then c.setWait d q .none else c
    | .ridge _ => c.setWait d q .none
    | .semLaunch _ _ _ => c.setWait d q .none
    | .queueFull => c.setWait d q .none
    | .fetch => c.setWait d q .none
    | .none => c

/-- The late launch of a sheet (R129). -/
def Imp.launchedLate (i : Imp) (time : W64) : Imp := { i with late := i.late.event time }

/-- What a partition's stream finds at a boundary. -/
inductive Ready where
  | no
  | bp (n : Nat)
  | sheet (s : Sheet)
  deriving DecidableEq, Repr

/-- Look at the sheet a stream would issue: decoding, launch condition, room in the queues (R124, R128, R129). -/
def Chip.look (c : Chip) (d : Die) (q : Nat) : Chip × Ready :=
  match c.stream d q with
  | none => (c, .no)
  | some s =>
    if !s.live || s.trapDue || decide (s.wait ≠ .none) || decide (s.delay ≠ 0) then (c, .no)
    else if c.ridgeOf d < s.start ∧ !s.begun then (c.setWait d q (.ridge s.start), .no)
    else
      let pc := (c.imp d q).pc
      match (if s.skipBp then none else (c.die d).sheetBp q pc) with
      | some n => (c, .bp n)
      | none =>
        let len := (sheetHdr (c.sheet16 s.ctx s.image (pc.toNat * 16))).len
        let lo := pc.toNat * 16
        let missing (n : Nat) : Bool :=
          decide (lo + n ≤ s.image.sheetSize) && !(decide (s.bufLo ≤ lo) && decide (lo + n ≤ s.bufHi))
        if missing 32 || missing (len * 16) then
          (c.setWait d q .fetch, .no)
        else
        match c.decodeSheet d q s.ctx s.image pc with
        | .error e => (c.raiseTrap d q e.1 e.2.1 e.2.2 pc, .no)
        | .ok sh =>
          let t := BitVec.ofNat 64 sh.hdr.lopnd
          let p := BitVec.ofNat 12 (bits sh.hdr.lopnd 11 0)
          let half := bit sh.hdr.lopnd 12
          let n := bits sh.hdr.lopnd 31 16
          if sh.hdr.launch = 1 ∧ c.ridgeOf d < t then
            ((c.setWait d q (.ridge t)).modStream d q (fun s => { s with seen := true }), .no)
          else if sh.hdr.launch = 2 ∧ !c.semHas d (c.pair q p.toNat) half n then
            (c.setWait d q (.semLaunch p half (BitVec.ofNat 16 n)), .no)
          else
            let c := if sh.hdr.launch = 1 ∧ t < c.ridgeOf d ∧ !s.seen then c.modImp d q (·.launchedLate (c.ridgeOf d)) else c
            let c := c.modStream d q (fun s => { s with seen := true })
            let full := sh.slots.any (fun kv => decide (kv.1 < 126) && decide (4 ≤ (s.unit kv.1).queue.length))
            if full then
              ((c.setWait d q .queueFull).modImp d q (fun i => { i with stall := satAdd i.stall 1 }), .no)
            else (c, .sheet sh)

/-- Append a sheet's unit slots to their queues; LAYER_START clears the tag's decision counts and widen bit (R75, R76,
R124).
DEDUCED: log entry 34. -/
def Chip.appendSlots (c : Chip) (d : Die) (q : Nat) (sh : Sheet) : Chip :=
  sh.slots.foldl (fun (c : Chip) kv =>
    if kv.1 = 126 then c else
    if slotOpc kv.2 = 0 ∧ slotBeats kv.2 = 0 then c else
    let e : Entry :=
      { slot := BitVec.ofNat 128 kv.2, rep := sh.hdr.rep, adv := sh.hdr.adv, pc := sh.off, knows := c.knownTo (c.ctxOf d q) (.stream d) }
    let c := c.modStream d q (fun s => s.modUnit kv.1 (fun k => { k with queue := k.queue ++ [e] }))
    let starts := decide (kv.1 < 96) && decide (slotOpc kv.2 ≠ 0) && (e.tileSlot kv.1).layerStart
    if starts then
      c.modSide (c.ctxOf d q) d (fun k => { k with widen := tmod {} k.widen (slotTag kv.2 % 4096) (fun w =>
        { w with decClip := 0, decConv := 0, widened := false }) })
    else c) c

/-- Issue a sheet (R124): the launch take, the slots, the control slot, then units that were idle start. -/
def Chip.issueSheet (c : Chip) (d : Die) (q : Nat) (sh : Sheet) : Chip :=
  let c := if sh.hdr.launch = 2 then
    let p := c.pair q (bits sh.hdr.lopnd 11 0)
    (c.semTake d p (bit sh.hdr.lopnd 12) (bits sh.hdr.lopnd 31 16)).hears (.stream d) d p (bit sh.hdr.lopnd 12) else c
  let ctl := (sh.slots.find? (fun kv => decide (kv.1 = 126))).map (·.2)
  let takes := match ctl.bind ctlOf with | some (.widen tag _) => c.widenTakes d q tag | _ => false
  let c := c.appendSlots d q sh
  let next := sh.off + BitVec.ofNat 32 sh.hdr.len
  let c := c.ctlBase d q (match ctl with | some v => slotBeats v | none => 1) next
  let c := match ctl.bind ctlOf with
    | some op => c.ctlRun d q op sh.off next takes
    | none => c
  c.startUnits d q

/-- The partitions in the rotation of R310: one past the partition that issued last. -/
def rotation (last : Nat) : List Nat := (List.range 16).map (fun i => (last + 1 + i) % 16)

/-- The issue point: the first partition in rotation with a ready sheet issues it; the others count a stall beat; the
lowest breakpoint that is hit halts the die before anything issues (R310, R399). -/
def Chip.issuePoint (c : Chip) (d : Die) : Chip :=
  let r := (rotation (c.die d).lastPart).foldl (fun (acc : Chip × List (Nat × Ready)) q =>
    let l := acc.1.look d q
    (l.1, acc.2 ++ [(q, l.2)])) (c, [])
  let c := r.1
  let bps := r.2.filterMap (fun x => match x.2 with | .bp n => some n | _ => none)
  match bps with
  | b :: t =>
    let hit := r.2.filterMap (fun x => match x.2 with | .bp _ => some x.1 | _ => none)
    let c := hit.foldl (fun c q => c.modStream d q (fun s => { s with skipBp := true })) c
    c.modDie d (fun m =>
      let m := m.debugHit 2 (t.foldl min b) m.ridge true
      { m with dbg := { m.dbg with halted := true, frozen := true } })
  | [] =>
    let ready := r.2.filterMap (fun x => match x.2 with | .sheet s => some (x.1, s) | _ => none)
    match ready with
    | [] => c
    | (q, sh) :: t =>
      let c := t.foldl (fun c x => c.modImp d x.1 (fun i => { i with stall := satAdd i.stall 1 })) c
      c.issueSheet d q sh

/-- Stops, completions and starts of one partition, then its waits. -/
def Chip.beginBeat (c : Chip) (d : Die) (q : Nat) : Chip :=
  let c := c.stopTold d q
  let c := c.trimBuffer d q
  let c := c.endNops d q
  let c := c.startUnits d q
  let c := c.bucketStep d q
  let c := c.tryCommit d q
  let c := c.recheck d q
  c.tryHalt d q

/-- Show state 5 or the running states while a die is halted or not (R398). -/
def Chip.showHalt (c : Chip) (d : Die) : Chip :=
  let h := (c.die d).dbg.halted
  (List.range 16).foldl (fun c q =>
    match c.stream d q with
    | some s =>
      if s.stopped then c
      else c.modImp d q (fun i => { i with state := if h then 5 else if s.wait = .none then 1 else 2 })
    | none => c) c

/-- The present boundary's work on a die whose clock runs: a beat begins. -/
def Chip.runBeat (c : Chip) (d : Die) : Chip :=
  ((List.range 16).foldl (fun c q => c.beginBeat d q) (c.modDie d (fun m =>
    { m with beatAt := m.ridge, issued := false, dbg := { m.dbg with frozen := false } }))).issuePoint d

/-- The press clocks run: the rails are up and the module is not stopped (R373, R405). -/
def Chip.pressOn (c : Chip) : Bool := c.pwr.railsOn && decide (c.boot.phase ≠ 9)

/-- One boundary less to run on a halted die (R398). -/
def Dbg.stepTaken (g : Dbg) : Dbg := { g with stepsLeft := g.stepsLeft - 1 }

/-- BEAT_BOUNDARY: the beat in progress ends. A die whose HALT is set halts here, and its press clock stands still but for as many beats
as a write of DBG_STEP named. -/
def Chip.beat (c : Chip) (d : Die) : Chip :=
  let g := (c.die d).dbg
  if !c.pressOn then c
  else
    let c := if g.frozen then c else c.closeBeat d
    let c := if (g.halt || g.halted) && decide (g.stepsLeft = 0) then
        c.modDie d (fun m => { m with dbg := { m.dbg with halted := true, frozen := true } })
      else (if g.halted then c.modDie d (fun m => { m with dbg := m.dbg.stepTaken }) else c).runBeat d
    c.showHalt d

def execBeatBoundary (die : Die) (s : State) : Host.Outcome State Fault Refusal := s.run (fun c => c.beat die)

end Sys2Proof.Machine
end

