-- ==== Sys2Proof/Machine/Alloc.lean ====
section
/-!
DEFINITION. Stack space: which places are taken, finding a free place, the share a partition uses (R94, R309, R312).
-/
namespace Sys2Proof.Machine

/-- Slices of 256 KiB in one stack. -/
def stackSlices : Nat := 2 ^ 18

/-- The slices a physical copy takes, as (stack, slice). -/
def Phys.slots : Phys → List (Nat × Nat)
  | .pinned st s => (List.range 8).map (fun i => (st, s + i))
  | .inter ss => (List.range 8).map (fun i => (i, ss.getD i 0))

def Page.copies (p : Page) : List PageCopy := p.copyA :: p.copyB.toList

/-- Every physical copy of a context's own pages; granted pages belong to their model, spilled ones hold no space. -/
def Ctx.copies (x : Ctx) : List PageCopy :=
  x.pages.flatMap (fun kv => match kv.2 with
    | none => []
    | some p => if p.granted || p.spilled then [] else p.copies)

/-- Pages of a model's KV pool. -/
def ModelEntry.copies (m : ModelEntry) : List PageCopy := if m.st = 0 then [] else m.pool.flatMap Page.copies

/-- Every slice in use: pages, KV pools, spaces of migrations in flight or not yet freed. -/
def Chip.usedSlots (c : Chip) : List (Nat × Nat) :=
  c.ctxs.flatMap (fun kv => kv.2.copies.flatMap (fun k => k.phys.slots)) ++
  c.serving.models.flatMap (fun kv => kv.2.copies.flatMap (fun k => k.phys.slots)) ++
  c.stks.flatMap (fun kv => kv.2.old.flatMap Phys.slots ++ kv.2.mig.toList.flatMap (fun m => m.fresh.slots))

/-- The first of `n + 1` candidates from a free starting point on, in units of `step` slices, none of whose slices is taken. -/
def searchSlice (start step cap : Nat) (taken : Nat → Bool) (n : Nat) : Option Nat :=
  ((List.range (n + 1)).map (fun i => (start + i) % (cap / step) * step)).find? (fun s =>
    (List.range step).all (fun k => !taken (s + k)))

/-- A free place of a class: PLACE 0 to 7 a 2 MiB run of that stack, 8 one slice of every stack (R94). Which free place
is taken is open; `Config.allocHint` says where the search begins.
DESIGN CHOICE: log entry 7. -/
def Chip.findPlace (c : Chip) (place : Nat) : Option Phys :=
  let used := c.usedSlots
  let taken (st s : Nat) : Bool := used.contains (st, s)
  let hint := Config.allocHint c.fresh
  if place < 8 then
    (searchSlice hint 8 stackSlices (taken place) used.length).map (fun s => .pinned place s)
  else
    let ss := (List.range 8).map (fun st => searchSlice hint 1 stackSlices (taken st) used.length)
    if ss.all Option.isSome then some (.inter (ss.map (·.getD 0))) else none

/-- Eighths of a page a copy takes on a stack. -/
def Phys.eighths (p : Phys) (st : Nat) : Nat :=
  match p with
  | .pinned s _ => if s = st then 8 else 0
  | .inter _ => 1

def sumNat (l : List Nat) : Nat := l.foldl (· + ·) 0

/-- Eighths of a page that a context holds on a stack, the KV pools of the models it owns included. -/
def Chip.ctxEighths (c : Chip) (n st : Nat) : Nat :=
  sumNat ((c.ctx n).copies.map (fun k => k.phys.eighths st)) +
  sumNat ((c.serving.models.filter (fun kv => decide (kv.2.owner = n) && decide (kv.2.st ≠ 0))).map (fun kv =>
    sumNat (kv.2.copies.map (fun k => k.phys.eighths st))))

/-- The contexts of a partition, ascending. -/
def Chip.ctxsOf (c : Chip) (q : Nat) : List Nat := c.live.filter (fun n => decide ((c.ctx n).part = q))

/-- Eighths of a page that a partition uses on a stack (R309, Table 13.6). -/
def Chip.partEighths (c : Chip) (q st : Nat) : Nat := sumNat ((c.ctxsOf q).map (fun n => c.ctxEighths n st))

/-- USED of MOD_PART_PAGES: the largest count over the stacks, rounded up to pages. -/
def Chip.partUsed (c : Chip) (q : Nat) : Nat :=
  ceilDiv ((List.range 8).foldl (fun a st => max a (c.partEighths q st)) 0) 8

/-- The partition stays within its share on every stack. -/
def Chip.withinShare (c : Chip) (q : Nat) : Bool :=
  (List.range 8).all (fun st => decide (c.partEighths q st ≤ (c.part q).share.toNat * 8))

/-- A fresh physical copy of a class under a salt and a hash key, its written bit clear. -/
def Chip.newCopy (c : Chip) (place : Nat) (salt : BitVec 4) (hash : Nat) : Option (PageCopy × Chip) :=
  (c.findPlace place).map (fun p =>
    ({ phys := p, salt := salt, hash := hash, written := false }, { c with fresh := c.fresh + 1 }))

/-- Map one page of a context with its attributes (R94, R201, R327); none when no space of its class is free. -/
def Chip.mapOne (c : Chip) (n vp : Nat) (a : MapAttr) (key hash : Nat) (model : Option W16) : Option Chip :=
  match c.newCopy a.place.toNat a.salt hash with
  | none => none
  | some (ka, c1) =>
    let put (c : Chip) (kb : Option PageCopy) : Chip :=
      let g : Page := { attr := a, copyA := ka, copyB := kb, key := key, model := model }
      c.modCtx n (fun x => { x with pages := tput none x.pages vp (some g) })
    if a.pair then
      match (put c1 none).newCopy a.place.toNat a.salt hash with
      | none => none
      | some (kb, c2) => some (put c2 (some kb))
    else some (put c1 none)

/-- Map pages one after another, all or none. -/
def Chip.mapMany (c : Chip) (n : Nat) (a : MapAttr) (key hash : Nat) (model : Option W16) : List Nat → Option Chip
  | [] => some c
  | vp :: t =>
    match c.mapOne n vp a key hash model with
    | none => none
    | some c => c.mapMany n a key hash model t

/-- Weight-cache lines filled under a key are dropped, and its fills in flight with them (R152). -/
def Chip.dropKey (c : Chip) (key : Nat) : Chip :=
  let strip (m : DieSt) : DieSt :=
    { m with cache := tmap [] (fun _ ls => ls.filter (fun l => decide (l.key ≠ key))) m.cache, fills := m.fills.filter (fun f => decide (f.2 ≠ key)) }
  { c with w := strip c.w, e := strip c.e }

end Sys2Proof.Machine
end

