-- ==== Sys2Proof/Machine/Kv.lean ====
section
/-!
DEFINITION. The KV block pools and the block tables of streams: taking and returning blocks, block-table entries, the bytes
of a block, freeing a Stream Table entry (R108, R265, R269, R278, R279).
-/
namespace Sys2Proof.Machine

/-- The model-cache entry of a live model. -/
def Chip.modelSlot (c : Chip) (model : W16) : Option Nat :=
  (c.serving.models.find? (fun kv => decide (kv.2.model = model) && decide (kv.2.st ≠ 0))).map (·.1)

/-- Bytes of a scale group of GS (KVFMT of Table 14.16). -/
def kvGroup (gs : Nat) : Nat := match gs with | 1 => 32 | 2 => 64 | _ => 128

/-- The stride of a KV block (R108). -/
def ModelHdr.blockBytes (h : ModelHdr) : Nat :=
  let d := 32 * h.kvd
  roundUp (128 * d + 128 * d / kvGroup (h.kvfmt.toNat % 4)) 256

/-- Device addresses of the blocks a pool holds. -/
def poolBlocks (stride : Nat) (pool : List Page) : List (BitVec 52) :=
  pool.flatMap (fun g => (List.range (pageSize / max 1 stride)).map (fun i => BitVec.ofNat 52 (g.copyA.dev (i * stride))))

/-- NB of a stream (R269). -/
def StreamEntry.nb (e : StreamEntry) : Nat := ceilDiv (e.maxLen.toNat + 1) 64

/-- Bytes of a stream's block table for a model (R269). -/
def StreamEntry.tableBytes (e : StreamEntry) (h : ModelHdr) : Nat := 8 * h.layers * h.kvHeads * e.nb

/-- The first free block that may hold a block-table index: in a teacher's pool one on the stack of the index's KV head (R102, R109). -/
def ModelEntry.freeFor (m : ModelEntry) (e : StreamEntry) (free : List (BitVec 52)) (index : Nat) : Option (BitVec 52) :=
  free.find? (fun a => !m.teacher || decide (a.toNat / 2 ^ 36 = index / max 1 e.nb % max 1 m.hdr.kvHeads % 8))

/-- Free blocks for block-table indices, with the blocks still free after them; none where one finds no block. -/
def ModelEntry.pick (m : ModelEntry) (e : StreamEntry) : List Nat → List (BitVec 52) → Option (List (Nat × BitVec 52) × List (BitVec 52))
  | [], free => some ([], free)
  | i :: t, free =>
    match m.freeFor e free i with
    | none => none
    | some a => (m.pick e t (free.erase a)).map (fun r => ((i, a) :: r.1, r.2))

/-- A block-table entry (R269). -/
def blockEntry (host valid : Bool) (addr : Nat) : Nat := b2n host * 2 ^ 63 + b2n valid * 2 ^ 62 + addr % 2 ^ 52

/-- The module writes an entry of a stream's block table. -/
def Chip.putBlock (c : Chip) (e : StreamEntry) (index v : Nat) : Chip :=
  (c.writeVa e.ctx.toNat (e.btab.toNat + 8 * index) (leBytes 8 v)).1

/-- The blocks of a stream go back to the pool of its model. -/
def Chip.giveBlocks (c : Chip) (i : Nat) : Chip :=
  let e := c.entry i
  let c : Chip := match c.modelSlot e.model with
    | some k => c.modModel k (fun m => { m with freeBlocks := m.freeBlocks ++ e.blocks.map (·.2) })
    | none => c
  c.modEntry i (fun e => { e with blocks := [], parked := [] })

/-- An entry is freed; its next use has a GEN one higher (R265). -/
def Chip.freeEntry (c : Chip) (i : Nat) : Chip :=
  (c.giveBlocks i).modServing (fun v => { v with
    streams := tmod {} v.streams i (fun e => { gen := e.gen + 1 })
    moveW := v.moveW.filter (fun s => decide (s ≠ i))
    moveE := v.moveE.filter (fun s => decide (s ≠ i)) })

/-- The page of a pool and the page offset at which a block lies. -/
def ModelEntry.blockPlace (m : ModelEntry) (a : BitVec 52) : Option (PageCopy × Nat) :=
  m.pool.findSome? (fun g =>
    ((List.range (pageSize / max 1 m.hdr.blockBytes)).find? (fun i => decide (BitVec.ofNat 52 (g.copyA.dev (i * m.hdr.blockBytes)) = a))).map
      (fun i => (g.copyA, i * m.hdr.blockBytes)))

/-- The bytes of a block. -/
def Chip.readBlock (c : Chip) (m : ModelEntry) (a : BitVec 52) : List Byte :=
  match m.blockPlace a with
  | none => []
  | some (k, po) => (List.range m.hdr.blockBytes).map (fun i => mget c.dram (k.dev (po + i)))

/-- Store the bytes of a block, with all that a write to memory does (R153, R156). -/
def Chip.writeBlock (c : Chip) (m : ModelEntry) (a : BitVec 52) (bs : List Byte) : Chip :=
  match m.blockPlace a with
  | none => c
  | some (k, po) => c.pokeCopy k po bs

end Sys2Proof.Machine
end

