-- ==== Sys2Proof/Machine/Spill.lean ====
section
/-!
DEFINITION. Moving a page's bytes between places, and spilling pages to host memory and back (R96, R101, R312, R317). A
spilled page's bytes stand at device addresses of their own, at and above 2^39 (log entry 38).
-/
namespace Sys2Proof.Machine

/-- The page offset of a device address that lies in a physical copy. -/
def PageCopy.poOf (k : PageCopy) (a : Nat) : Option Nat :=
  match k.phys with
  | .pinned stack slice =>
    let b := stack * 2 ^ 36 + slice * 2 ^ 18
    if b ≤ a ∧ a < b + pageSize then some (a - b) else none
  | .inter slices =>
    let st := a / 2 ^ 36
    let l := a % 2 ^ 36
    if 8 ≤ st ∨ l / 2 ^ 18 ≠ slices.getD st 0 then none else
    let hi := l % 2 ^ 18 / 256
    ((List.range 8).map (fun q => (hi * 8 + q) * 256 + l % 256)).find? (fun po => decide (hashStack k.hash k.salt.toNat po = st))

/-- A store read through a copy's places, as page offset and value pairs. -/
def takeCopy {α : Type} (unit : Nat) (t : Tab α) (k : PageCopy) : List (Nat × α) :=
  t.filterMap (fun kv => (k.poOf (kv.1 * unit)).map (fun po => (po / unit, kv.2)))

/-- Move a copy's bytes and errors to another place; the old place is left clean. -/
def Chip.moveCopy (c : Chip) (old new : PageCopy) : Chip :=
  let bs := takeCopy 1 c.dram old
  let es := takeCopy 256 c.ecc old
  let dram := zeroCopy (zeroCopy c.dram old) new
  let ecc := zeroEcc (zeroEcc c.ecc old) new
  { c with dram := bs.foldl (fun m x => mput m (new.dev x.1) x.2) dram
           ecc := es.foldl (fun m x => tput false m (new.dev (x.1 * 256) / 256) x.2) ecc }

/-- Copy a copy's bytes and errors to another place; the old place keeps them (R101). -/
def Chip.copyOver (c : Chip) (old new : PageCopy) : Chip :=
  { c with dram := (takeCopy 1 c.dram old).foldl (fun m x => mput m (new.dev x.1) x.2) (zeroCopy c.dram new)
           ecc := (takeCopy 256 c.ecc old).foldl (fun m x => tput false m (new.dev (x.1 * 256) / 256) x.2) (zeroEcc c.ecc new) }

/-- The place of a spilled copy: context, page and copy number name it.
DESIGN CHOICE: log entry 38. -/
def spillPhys (n vp b : Nat) : Phys := .pinned 8 ((n * 2 ^ 28 + vp * 2 + b) * 8)

/-- A page may be spilled: a context's own resident page that belongs to no model. -/
def Page.spillable (p : Page) : Bool := !p.granted && !p.spilled && p.model.isNone

/-- Spill one page of a context. -/
def Chip.spillPage (c : Chip) (n vp : Nat) (p : Page) : Chip :=
  let ka : PageCopy := { p.copyA with phys := spillPhys n vp 0 }
  let c := c.moveCopy p.copyA ka
  let r : Chip × Option PageCopy := match p.copyB with
    | none => (c, none)
    | some k => let kb : PageCopy := { k with phys := spillPhys n vp 1 }; (c.moveCopy k kb, some kb)
  r.1.modCtx n (fun x => { x with pages := tput none x.pages vp (some { p with copyA := ka, copyB := r.2, spilled := true }) })

/-- Pages a context has spilled. -/
def Ctx.spilledPages (x : Ctx) : List (Nat × Page) :=
  x.pages.filterMap (fun kv => match kv.2 with | some p => if p.spilled then some (kv.1, p) else none | none => none)

/-- Bytes of physical copies. -/
def Page.bytes (p : Page) : Nat := p.copies.length * pageSize

/-- The next page of a context that can be spilled into what is left of its spill area. -/
def Ctx.nextSpill (x : Ctx) : Option (Nat × Page) :=
  let used := sumNat (x.spilledPages.map (fun kv => kv.2.bytes))
  (x.pages.filterMap (fun kv => match kv.2 with
    | some p => if p.spillable && decide (used + p.bytes ≤ x.spillBytes.toNat) then some (kv.1, p) else none
    | none => none)).head?

/-- Contexts of a partition that may be spilled for another, oldest last run first, then lowest number. -/
def Chip.spillOrder (c : Chip) (q self : Nat) : List Nat :=
  sortBy (fun a b => decide ((c.ctx a).lastRun.toNat < (c.ctx b).lastRun.toNat))
    ((c.ctxsOf q).filter (fun n => decide (n ≠ self) && (decide ((c.ctx n).st = .idle) || decide ((c.ctx n).st = .ready))))

/-- Spill one page of the first context that has one. -/
def Chip.spillNext (c : Chip) : List Nat → Option Chip
  | [] => none
  | n :: t =>
    match (c.ctx n).nextSpill with
    | some (vp, p) => some (c.spillPage n vp p)
    | none => c.spillNext t

/-- Spill until a need fits; `fuel` bounds the pages spilled. -/
def Chip.spillUntil (fits : Chip → Bool) : Nat → List Nat → Chip → Option Chip
  | 0, _, c => if fits c then some c else none
  | f + 1, order, c =>
    if fits c then some c else
    match c.spillNext order with
    | none => none
    | some c => Chip.spillUntil fits f order c

/-- Pages of the contexts that could be spilled: the fuel of a search. -/
def Chip.spillFuel (c : Chip) (order : List Nat) : Nat := sumNat (order.map (fun n => (c.ctx n).pages.length))

/-- Eighths of a page that bringing a context's spilled pages back would take on a stack. -/
def Ctx.returning (x : Ctx) (st : Nat) : Nat :=
  sumNat (x.spilledPages.map (fun kv => kv.2.copies.length * (if kv.2.attr.place.toNat < 8 then (if kv.2.attr.place.toNat = st then 8 else 0) else 1)))

/-- The context's spilled pages fit its partition's share beside what is resident. -/
def Chip.returnFits (n : Nat) (c : Chip) : Bool :=
  let q := (c.ctx n).part
  (List.range 8).all (fun st => decide (c.partEighths q st + (c.ctx n).returning st ≤ (c.part q).share.toNat * 8))

/-- Bring one spilled page back under a hash key. -/
def Chip.returnPage (c : Chip) (n vp : Nat) (p : Page) (hash : Nat) : Chip :=
  let one (c : Chip) (k : PageCopy) : Chip × PageCopy :=
    match c.newCopy p.attr.place.toNat k.salt hash with
    | none => (c, k)
    | some (k', c) => let k' := { k' with written := k.written }; (c.moveCopy k k', k')
  let a := one c p.copyA
  let c := a.1.modCtx n (fun x => { x with pages := tput none x.pages vp (some { p with copyA := a.2, spilled := false }) })
  match p.copyB with
  | none => c
  | some k =>
    let b := one c k
    b.1.modCtx n (fun x => { x with pages := tput none x.pages vp (some { p with copyA := a.2, copyB := some b.2, spilled := false }) })

/-- Stream a context's spilled pages in, other contexts' pages spilled out first (R317): a fresh hash key when there are any. -/
def Chip.streamIn (c : Chip) (n : Nat) : Chip :=
  if (c.ctx n).spilledPages.isEmpty then c else
  let order := c.spillOrder (c.ctx n).part n
  match Chip.spillUntil (Chip.returnFits n) (c.spillFuel order) order c with
  | none => c
  | some c =>
    let h := c.newHash
    let c := h.2.modCtx n (fun x => { x with hash := h.1 })
    (c.ctx n).spilledPages.foldl (fun c x => c.returnPage n x.1 x.2 h.1) c

end Sys2Proof.Machine
end

