-- ==== Sys2Proof/Machine/MemMap.lean ====
section
/-!
DEFINITION. Rights and presence checks of a taken command, and the commands and events of context virtual memory: MAP,
UNMAP, GRANT, host access through BAR4, the first write to a page (R201, R325 to R327, R333, R340, R352, R426).
-/
namespace Sys2Proof.Machine

/-! ### Checks every command shares (R340 steps 4 and 5) -/

/-- The context a function is bound to. -/
def Chip.boundCtx (c : Chip) (fn : Nat) : Option Nat := (tget {} c.vfs fn).bound

/-- Rights of a function (R333): a VF names its bound context and issues only "any" opcodes. -/
def Chip.rightsOk (c : Chip) (h : Hdr) (pf : Bool) : Bool :=
  decide (h.fn = 0) || (!pf && decide (c.boundCtx h.fn = some h.ctx))

/-- Carry out a control command: rights, then a context that is not free, then `f`.
DEDUCED: log entry 14. -/
def Chip.command (c : Chip) (h : Hdr) (pf needCtx : Bool) (f : Chip → Chip) : Chip :=
  if !c.rightsOk h pf then c.done h 0x0603 0 0
  else if needCtx && decide ((c.ctx h.ctx).st = .free) then c.done h 0x0104 0 0
  else f c

/-- A reserved encoding or field at a byte offset of the packet. -/
def Chip.reserved (c : Chip) (h : Hdr) (off : Nat) : Chip := c.done h 0x0102 (BitVec.ofNat 32 off) 0
/-- A parameter out of range, or not allowed in the present state, at a byte offset. -/
def Chip.range (c : Chip) (h : Hdr) (off : Nat) : Chip := c.done h 0x0105 (BitVec.ofNat 32 off) 0

/-- Bits 63:48 of a VA word are zero (R344). -/
def vaOk (va : W64) : Bool := decide (va.toNat < 2 ^ 48)

/-! ### MAP and UNMAP (R426) -/

/-- Virtual page numbers of a range. -/
def pageRange (va pages : Nat) : List Nat := (List.range pages).map (fun i => va / pageSize + i)

/-- A range is aligned, not empty, inside the space. -/
def rangeOk (va pages : Nat) : Bool :=
  decide (va % pageSize = 0) && decide (1 ≤ pages) && decide (va + pages * pageSize ≤ 2 ^ 48)

/-- Map a range, spilling other contexts' pages when the share would be passed (R312): none when nothing makes room. -/
def Chip.tryMap (c : Chip) (n : Nat) (va pages : Nat) (a : MapAttr) : Except W16 Chip :=
  let q := (c.ctx n).part
  let fits (c : Chip) : Bool := match c.mapMany n a (c.ctx n).key (c.ctx n).hash none (pageRange va pages) with
    | some c => c.withinShare q
    | none => false
  let order := c.spillOrder q n
  match Chip.spillUntil fits (c.spillFuel order) order c with
  | none => .error 0x0202
  | some c =>
    match c.mapMany n a (c.ctx n).key (c.ctx n).hash none (pageRange va pages) with
    | some c => .ok c
    | none => .error 0x0202

/-- Weight-cache lines of a page's units are dropped. -/
def Chip.dropPageLines (c : Chip) (p : Page) : Chip :=
  let hit (line : Nat) : Bool := p.copies.any (fun k => (k.poOf (line * 256)).isSome)
  let strip (m : DieSt) : DieSt := { m with cache := tmap [] (fun _ ls => ls.filter (fun l => !hit l.line)) m.cache }
  { c with w := strip c.w, e := strip c.e }

/-- Unmap pages of a context; their space is free, their written bits are gone with them. -/
def Chip.unmap (c : Chip) (n : Nat) (vps : List Nat) : Chip :=
  vps.foldl (fun c vp =>
    match tget none (c.ctx n).pages vp with
    | none => c
    | some p =>
      let c := if p.granted then c else c.dropPageLines p
      c.modCtx n (fun x => { x with pages := tput none x.pages vp none })) c

/-- A MAP or UNMAP, in force at once, or kept for the next step launch while a step runs (R352). -/
def Chip.deferOr (c : Chip) (n : Nat) (i : Instr) (now : Chip) : Chip :=
  match (c.ctx n).run with
  | some r => if r.isStep then c.modCtx n (fun x => { x with deferred := x.deferred ++ [i] }) else now
  | none => now

/-- The checks of MAP: status and byte offset of what fails; reserved fields come before ranges and encodings (R340). -/
def Chip.mapCheck (c : Chip) (n : Nat) (va pages : W64) (a : MapAttr) : Option (W16 × Nat) :=
  if !vaOk va then some (0x0102, 38)
  else if !a.pair && decide (a.pset ≠ 0) then some (0x0102, 50)
  else if !rangeOk va.toNat pages.toNat then some (0x0105, 32)
  else if 8 < a.place.toNat then some (0x0102, 48)
  else if (pageRange va.toNat pages.toNat).any (fun vp => (tget none (c.ctx n).pages vp).isSome) then some (0x0105, 32)
  else none

def Chip.mapCmd (c : Chip) (h : Hdr) (va pages : W64) (a : MapAttr) : Chip :=
  match c.mapCheck h.ctx va pages a with
  | some e => c.done h e.1 (BitVec.ofNat 32 e.2) 0
  | none =>
    match c.tryMap h.ctx va.toNat pages.toNat a with
    | .error st => c.done h st 0 0
    | .ok c' => (c.deferOr h.ctx (.mapPages h va pages a) c').ok h 0

def execMapPages (h : Hdr) (va pages : W64) (a : MapAttr) (s : State) : Host.Outcome State Fault Refusal :=
  s.run (fun c => c.command h false true (fun c => c.mapCmd h va pages a))

def Chip.unmapCmd (c : Chip) (h : Hdr) (va pages : W64) : Chip :=
  if !vaOk va then c.reserved h 38
  else if !rangeOk va.toNat pages.toNat ∨
      (pageRange va.toNat pages.toNat).any (fun vp => (tget none (c.ctx h.ctx).pages vp).isNone) then c.range h 32
  else (c.deferOr h.ctx (.unmapPages h va pages) (c.unmap h.ctx (pageRange va.toNat pages.toNat))).ok h 0

def execUnmapPages (h : Hdr) (va pages : W64) (s : State) : Host.Outcome State Fault Refusal :=
  s.run (fun c => c.command h false true (fun c => c.unmapCmd h va pages))

/-- At a step launch, what MAP, UNMAP and LS_SET left for it takes effect (R219, R352).
DEDUCED: log entry 82. -/
def Chip.applyDeferred (c : Chip) (n : Nat) : Chip :=
  let l := (c.ctx n).deferred
  l.foldl (fun c i =>
    match i with
    | .mapPages _ va pages a =>
      if (c.mapCheck n va pages a).isSome then c else
      match c.tryMap n va.toNat pages.toNat a with | .ok c => c | .error _ => c
    | .unmapPages _ va pages => c.unmap n (pageRange va.toNat pages.toNat)
    | .lsSet _ e interval => c.modCtx n (fun x => { x with train := { x.train with exp := e, interval := interval, clean := 0 } })
    | _ => c) (c.modCtx n (fun x => { x with deferred := [] }))

/-! ### GRANT (R325) -/

/-- The pages a model is read from under its key, as its owner maps them. -/
def Chip.modelPages (c : Chip) (m : ModelEntry) : List (Nat × Page) :=
  (c.ctx m.owner).pages.filterMap (fun kv => match kv.2 with
    | some p => if p.key = m.key then some (kv.1, p) else none
    | none => none)

/-- Map a model read-only into another context: its pages keep their distances from the lowest, which lands at `va`.
DEDUCED: log entry 73. -/
def Chip.grantCmd (c : Chip) (h : Hdr) (model : W16) (grantee : BitVec 10) (va : W64) : Chip :=
  let g := grantee.toNat
  if !vaOk va then c.reserved h 46
  else if (c.ctx g).st = .free then c.done h 0x0104 0 0
  else
    match c.modelSlot model with
    | none => c.done h 0x0104 0 0
    | some i =>
      let m := c.model i
      let ps := c.modelPages m
      let lo := ((ps.map (·.1)).headD 0)
      let base := va.toNat / pageSize
      let at' (vp : Nat) : Nat := base + (vp - lo)
      if va.toNat % pageSize ≠ 0 ∨ ps.any (fun x => decide (2 ^ 27 ≤ at' x.1) || (tget none (c.ctx g).pages (at' x.1)).isSome) then c.range h 40
      else
        let c := c.modCtx g (fun x => { x with pages := ps.foldl (fun t y =>
          tput none t (at' y.1) (some { y.2 with granted := true, attr := { y.2.attr with ro := true } })) x.pages })
        (c.modModel i (fun m => { m with grantees := if m.grantees.contains g then m.grantees else m.grantees ++ [g] })).ok h 0

def execGrantModel (h : Hdr) (model : W16) (grantee : BitVec 10) (va : W64) (s : State) : Host.Outcome State Fault Refusal :=
  s.run (fun c => c.command h true true (fun c => c.grantCmd h model grantee va))

/-! ### Host access and first writes -/

/-- The context a function's windows show: the bound one, or the one MOD_CTX_SEL names for the PF (R330, R332). -/
def Chip.shown (c : Chip) (fn : Nat) : Option Nat := if fn = 0 then some c.ctxSel.toNat else c.boundCtx fn

/-- A host write to context memory; one to a page that a migration copies waits for the switch (R101). -/
def Chip.hostWrite (c : Chip) (n va : Nat) (bs : List Byte) : Chip :=
  if !c.copying n va bs.length then (c.writeVa n va bs).1 else
  match (List.range 8).find? (fun i => ({ c with stks := [(i, c.stk i)] } : Chip).copying n va bs.length) with
  | some i => c.modStk i (fun k => { k with mig := k.mig.map (fun m => { m with held := m.held ++ [(n, va, bs)] }) })
  | none => c

/-- A host access through BAR4 (R201, R325). A read that fails returns bytes the manual does not state; a write that fails
stores nothing.
DEDUCED: log entry 71. -/
def Chip.bar4 (c : Chip) (fn off : Nat) (data : Option (List Byte)) (len : Nat) : Chip :=
  match c.shown fn with
  | none => let f := c.freeBytes len; { f.2 with rdata := f.1 }
  | some n =>
    let va := (c.ctx n).bar4Base.toNat * 2 ^ 38 + off
    match data with
    | some bs => c.hostWrite n va bs
    | none =>
      let r := c.readVa n va len
      match r.2 with
      | .ok bs => { r.1 with rdata := bs }
      | .error _ => let f := r.1.freeBytes len; { f.2 with rdata := f.1 }

def execBar4Access (fn : Nat) (off : BitVec 38) (data : Option (List Byte)) (len : Nat) (s : State) : Host.Outcome State Fault Refusal :=
  s.run (fun c => c.bar4 fn off.toNat data len)

/-- PAGE_FIRST_WRITE: zeros over the page a write will reach, then its written bit (R327). -/
def execPageFirstWrite (ctx : Nat) (va : W48) (s : State) : Host.Outcome State Fault Refusal :=
  s.run (fun c =>
    let x := c.ctx ctx
    match x.page va.toNat with
    | some p => c.firstWrite ctx va.toNat (p.useB x .active)
    | none => c)

/-- PEER_READ_REQUEST: another module reads bytes of a context's memory over Purlin, and this module sends them to it (R363). -/
def execPeerReadRequest (ctx : PeerCtx) (va : W48) (len : Nat) (s : State) : Host.Outcome State Fault Refusal :=
  s.run (fun c =>
    let r := c.readVa ctx.ctx va.toNat len
    match r.2 with
    | .ok bs => r.1.send msgBytes ctx.source.toNat bs
    | .error _ => r.1)

end Sys2Proof.Machine
end

