-- ==== Sys2Proof/Machine/Overlay.lean ====
section
/-!
DEFINITION. Overlays: their check, their settings, and applying them once no execute command runs (R353, R392, R393).
-/
namespace Sys2Proof.Machine

/-- A number of `n` bytes in an image. -/
def imgNum (img : List Byte) (off n : Nat) : Nat := leNat ((img.drop off).take n)

/-- The records of an overlay: SETTING in bits 15:0 and VALUE; the reserved bits between are ignored (R10, R392). -/
def overlayRecords (bs : List Byte) : List (Nat × Nat) :=
  (List.range (imgNum bs 4 4)).map (fun i => (imgNum bs (16 + 16 * i) 2, imgNum bs (24 + 16 * i) 8))

/-- A record names a known setting with a value in range (Table 16.4); reserved bits of a register image are ignored (R7, R10). -/
def settingOk (setting value : Nat) : Bool :=
  match setting with
  | 1 => decide (value < 2 ^ 8)
  | 2 => decide (value < 2 ^ 32) && decide (bits value 13 0 < bits value 29 16)
  | 3 => decide (value < 2 ^ 32)
  | 4 => decide (value < 2 ^ 16)
  | 5 => decide (value < 2)
  | _ => false

/-- The check of R392, reserved fields aside (R10), for the slot an overlay is applied to. -/
def overlayOk (slot : Nat) (bs : List Byte) : Bool :=
  let count := imgNum bs 4 4
  decide (imgNum bs 0 2 % 2 ^ 12 = 1 + 16 + slot * 256) && decide (count ≤ 64) && decide (16 + 16 * count ≤ bs.length) &&
  decide (imgNum bs 8 4 = (crc32 ((bs.drop 16).take (16 * count))).toNat) &&
  (overlayRecords bs).all (fun r => settingOk r.1 r.2)

/-- A setting takes its value. -/
def Chip.setting (c : Chip) (r : Nat × Nat) : Chip :=
  let v := r.2
  match r.1 with
  | 1 => (List.range 8).foldl (fun c n => c.modStk n (fun k => { k with migEnable := bit v n })) c
  | 2 =>
    let g (m : DieSt) : DieSt := { m with gut := { m.gut with high := BitVec.ofNat 14 (bits v 29 16), low := BitVec.ofNat 14 (bits v 13 0) } }
    { c with w := g c.w, e := g c.e }
  | 3 => { c with pwr := { c.pwr with clipMax := BitVec.ofNat 24 (bits v 31 8), clipAdapt := bit v 0 } }
  | 4 => { c with boot := { c.boot with defNstart := BitVec.ofNat 8 v, defLat := BitVec.ofNat 8 (v / 256) } }
  | 5 => { c with pwr := { c.pwr with sprintEn := bit v 0 } }
  | _ => c

/-- The overlay's number takes effect: a mode overlay replaces the last one, overlay 5 stands beside it. -/
def Chip.overlayNumber (c : Chip) (ovl : Nat) : Chip :=
  if ovl = 5 then { c with boot := { c.boot with ovl5 := true, attention := true } }
  else if ovl = 0x15 then { c with boot := { c.boot with ovl5 := false } }
  else { c with boot := { c.boot with mode := ovl } }

/-- Apply an overlay: its records in order, then its number. -/
def Chip.applyOverlay (c : Chip) (ovl : Nat) (bs : List Byte) : Chip :=
  ((overlayRecords bs).foldl (fun c r => c.setting r) c).overlayNumber ovl

/-- An execute command runs on the module. -/
def Chip.busy (c : Chip) : Bool := c.ctxs.any (fun kv => kv.2.run.isSome)

/-- Overlays that wait are applied in order once no execute command runs. -/
def Chip.settleOverlays (c : Chip) : Chip :=
  if c.busy then c else
  c.boot.ovlWait.foldl (fun (c : Chip) o =>
    let c := c.applyOverlay o.2.1 o.2.2
    match o.1 with
    | some h => c.ok h 0
    | none => c) { c with boot := { c.boot with ovlWait := [] } }

/-- Ask for an overlay, by a command or by the firmware. -/
def Chip.requestOverlay (c : Chip) (h : Option Hdr) (ovl : Nat) (bs : List Byte) : Chip :=
  ({ c with boot := { c.boot with ovlWait := c.boot.ovlWait ++ [(h, ovl, bs)] } }).settleOverlays

/-- OVERLAY_APPLY: reserved numbers, the check, then application when the module is idle. -/
def Chip.overlayCmd (c : Chip) (h : Hdr) (ovl : Nat) (ha : W64) (image : List Byte) : Chip :=
  if ovl = 0x15 then c.requestOverlay (some h) ovl []
  else if 5 < ovl then c.reserved h 32
  else
    let bs := if ha = 0 then tget [] c.boot.overlays ovl else image
    if overlayOk ovl bs then c.requestOverlay (some h) ovl bs else c.done h 0x0104 0 0

def execOverlayApply (h : Hdr) (ovl : BitVec 5) (ha : W64) (image : List Byte) (s : State) : Host.Outcome State Fault Refusal :=
  s.run (fun c => c.command h true true (fun c => c.overlayCmd h ovl.toNat ha image))

end Sys2Proof.Machine
end

