-- ==== Sys2Proof/Machine/Life.lean ====
section
/-!
DEFINITION. Kills and tear-down: killing a running command, holding a kill, evicting a model, passing locks on, tearing
a context down (R282, R315, R318 to R323).
-/
namespace Sys2Proof.Machine

/-- The header a queued execute command carries. -/
def cmdHdr : Instr → Hdr
  | .modelLoad h _ _ => h
  | .impLoad h _ _ => h
  | .impRun h _ => h
  | .stepCmd h _ _ => h
  | .fillDrain h _ => h
  | .checkpoint h _ _ => h
  | .ckptLoad h _ _ => h
  | .reprint h _ => h
  | .serve h _ => h
  | _ => default

/-- An execute command joins its context's queue, which holds 64 (R350); an idle context becomes ready (R307). -/
def Chip.enqueue (c : Chip) (i : Instr) : Chip :=
  c.modCtx (cmdHdr i).ctx (fun x =>
    if 64 ≤ x.execQ.length then x
    else { x with execQ := x.execQ ++ [{ cmd := i }], st := if x.st = .idle then .ready else x.st })

/-- The record of a run's end (Table 14.4). -/
def endRecord (h : Hdr) (e : EndStatus) : Record :=
  { value := e.value, detail := e.detail, seq := h.seq, fdie := e.fdie, first := e.first, nparts := e.nparts, status := e.status }

/-- Post a run's record, unless the context's function was reset (R334). -/
def Chip.postEnd (c : Chip) (h : Hdr) (e : EndStatus) : Chip :=
  if (c.ctx h.page).gone then c else c.post h.page h.ring (endRecord h e)

/-- Only a partition's merge-table entries, packets, open range and waiting records go (R189, R328). -/
def Gutter.dropPart (g : Gutter) (q : Nat) : Gutter :=
  { g with packets := tfilter (fun k _ => decide (k / 2 ^ 32 ≠ q)) g.packets,
           merge := tfilter (fun k _ => decide (k / 2 ^ 32 ≠ q)) g.merge,
           ranges := tfilter (fun k _ => decide (k ≠ q)) g.ranges,
           released := tfilter (fun k _ => decide (k / 2 ^ 32 ≠ q)) g.released,
           lanes := tmap [] (fun _ l => l.filter (fun r => decide (r.part.toNat ≠ q))) g.lanes,
           remote := g.remote.filter (fun r => decide (r.2.part.toNat ≠ q)),
           asking := g.asking.filter (fun r => decide (r.2.part.toNat ≠ q)) }

/-- Both streams of a context's partition go, with its Gutter space. -/
def Chip.dropStreams (c : Chip) (n : Nat) (status : Nat) : Chip :=
  let q := (c.ctx n).part
  let one (c : Chip) (d : Die) : Chip :=
    match c.stream d q with
    | none => c
    | some s =>
      if s.ctx ≠ n then c else
      ((c.stopStream d q 0 status).setStream d q none).modDie d (fun m => { m with gut := m.gut.dropPart q })
  one (one c .w) .e

/-- The step of a context takes the commit vote: its vote group has more than one participant (R257). -/
def Chip.votes (c : Chip) (n : Nat) : Bool :=
  let q := (c.ctx n).part
  let big (d : Die) : Bool := match c.stream d q with
    | some s => decide (s.ctx = n) && decide (1 < (tget {} s.image.groups c.vote.vgroup.toNat).p)
    | none => false
  big .w || big .e

/-- A unit of the command waits on a remote module: a collective op, or the vote in progress (R319). -/
def Chip.waitsRemote (c : Chip) (n : Nat) : Bool :=
  let q := (c.ctx n).part
  let col (d : Die) : Bool := match c.stream d q with
    | some s => decide (s.ctx = n) && s.liveGroup.isSome
    | none => false
  let vote := match (c.ctx n).run with
    | some r => r.isStep && r.commitW && r.commitE && !r.pastCommit && !r.voteDone && c.votes n
    | none => false
  col .w || col .e || vote

/-- The kill itself (R318): streams and queues go, the run's record is posted, the command stays at the queue's head.
DEDUCED: log entry 28. -/
def Chip.doKill (c : Chip) (n : Nat) (status : W16) : Chip :=
  match (c.ctx n).run, (c.ctx n).execQ with
  | some r, x :: _ =>
    let c := c.dropStreams n 0x0407
    let c := c.modCtx n (fun k =>
      { k with run := none, held := false, st := .ready, killCount := satAdd k.killCount 1,
               execQ := match k.execQ with
                 | y :: t => { y with kills := y.kills + 1, stepsDone := y.stepsDone + r.serveSteps } :: t
                 | [] => [] })
    let c := c.modPart (c.ctx n).part (fun p => { p with switchDue := true })
    c.postEnd (cmdHdr x.cmd) { status := status }
  | _, _ => c

/-- A kill request (R315, R318 to R320): held while a unit waits on a remote module, without effect from the commit
point on. -/
def Chip.requestKill (c : Chip) (n : Nat) (status : W16) : Chip :=
  match (c.ctx n).run with
  | none => c
  | some r =>
    if r.pastCommit || r.finish.isSome then c.modPart (c.ctx n).part (fun p => { p with switchDue := true })
    else if c.waitsRemote n then c.modCtx n (fun k => { k with held := true, run := some { r with heldKill := some status } })
    else c.doKill n status

/-! ### Models and locks -/

/-- A model leaves the cache: its cache lines, pages, pool and key go (R282, R324). -/
def Chip.evict (c : Chip) (slot : Nat) : Chip :=
  let m := c.model slot
  let c := c.dropKey m.key
  let keep (_ : Nat) (p : Option Page) : Bool := match p with
    | some g => !(decide (g.model = some m.model) && !g.granted)
    | none => true
  let c := c.modCtx m.owner (fun x => { x with pages := tfilter keep x.pages })
  let lost (_ : Nat) (e : StreamEntry) : StreamEntry := if e.model = m.model then { e with blocks := [] } else e
  c.modServing (fun v => { v with models := tput {} v.models slot {}, streams := tmap {} lost v.streams })

/-- The lock goes to the next waiter, with 0x0020 when it is poisoned (R322, R323). -/
def Chip.grantNext (c : Chip) (lock : Nat) : Chip :=
  let l := tget {} c.locks lock
  match l.waiters with
  | [] => c
  | (_, h) :: t =>
    let c := { c with locks := tput {} c.locks lock { held := true, poisoned := false, owner := h.ctx, waiters := t } }
    c.done h (if l.poisoned then 0x0020 else 0) 0 0

/-- The locks of a context are released as poisoned and its own waits end (R321, R323). -/
def Chip.dropLocks (c : Chip) (n : Nat) : Chip :=
  (List.range 256).foldl (fun c i =>
    let l := tget {} c.locks i
    let mine := (l.waiters.filter (fun w => decide (w.2.ctx = n))).map (·.2)
    let c := { c with locks := tput {} c.locks i { l with waiters := l.waiters.filter (fun w => decide (w.2.ctx ≠ n)) } }
    let c := mine.foldl (fun c h => c.done h 0x0702 0 0) c
    if l.held && decide (l.owner = n) then
      ({ c with locks := tmod {} c.locks i (fun l => { l with held := false, poisoned := true, owner := 0 }) }).grantNext i
    else c) c

/-- The models a context loaded: evicted, or passed to the lowest live grantee, whose mapping becomes the owner's. -/
def Chip.dropModels (c : Chip) (n : Nat) : Chip :=
  (List.range 16).foldl (fun c i =>
    let m := c.model i
    let strip := m.grantees.filter (fun g => decide (g ≠ n))
    if m.st = 0 then c
    else if m.owner ≠ n then c.modModel i (fun m => { m with grantees := strip })
    else
      match strip.filter (fun g => decide ((c.ctx g).st ≠ .free)) with
      | [] => c.evict i
      | g :: t =>
        let heir := t.foldl min g
        let c := c.modModel i (fun m => { m with owner := heir, grantees := strip.filter (fun x => decide (x ≠ heir)) })
        let own (_ : Nat) (p : Option Page) : Option Page := p.map (fun y => if y.key = m.key then { y with granted := false } else y)
        c.modCtx heir (fun x => { x with pages := tmap none own x.pages })) c

/-- The streams of a context, ascending. -/
def Chip.streamsOf (c : Chip) (n : Nat) : List Nat :=
  (c.serving.streams.filter (fun kv => decide (kv.2.st ≠ .free) && decide (kv.2.ctx.toNat = n))).map (·.1)

/-- The Stream Table entries of a context are freed, no record is posted (R321). -/
def Chip.dropEntries (c : Chip) (n : Nat) : Chip := (c.streamsOf n).foldl (fun c i => c.freeEntry i) c

/-- Tear a context down (R321): its command ends with `e`, the others with 0x0702, and everything it holds goes.
DEDUCED: log entry 29. -/
def Chip.teardown (c : Chip) (n : Nat) (e : EndStatus) : Chip :=
  let x := c.ctx n
  if x.st = .free then c else
  let c := c.dropStreams n 0x0407
  let c : Chip := match x.run, x.execQ with
    | some r, y :: t =>
      let c := c.postEnd (cmdHdr y.cmd) (r.finish.getD e)
      t.foldl (fun c z => c.postEnd (cmdHdr z.cmd) { status := 0x0702 }) c
    | _, q => q.foldl (fun c z => c.postEnd (cmdHdr z.cmd) { status := 0x0702 }) c
  let c := x.streamReqs.foldl (fun (c : Chip) r =>
    match r.1 with
    | .streamClose h _ => c.done h 0x0702 0 0
    | .streamPark h _ => c.done h 0x0702 0 0
    | .streamUnpark h _ => c.done h 0x0702 0 0
    | _ => c) c
  let c := c.dropEntries n
  let c := c.dropModels n
  let c := c.dropKey x.key
  let c := c.dropLocks n
  let c := { c with stks := tmap {} (fun _ k => { k with mig := k.mig.filter (fun m => decide (m.ctx ≠ n)) }) c.stks }
  let c := c.modPart x.part (fun p => if p.cur = some n then { p with cur := none } else p)
  c.modCtx n (fun y => { rings := y.rings, bar4Base := y.bar4Base })

end Sys2Proof.Machine
end

