-- ==== Sys2Proof/Machine/Proof.lean ====
section
/-!
DEFINITION. Proof, checkpoint and Reprint: arming, image layouts, shipment and receipt, capture, replay
(R294 to R304, Tables 9.3, 12.2 and 12.5).
-/
namespace Sys2Proof.Machine

/-! ### Optimiser configuration entries (R205, Table 9.3) -/

/-- The 64 bytes of a configuration entry. -/
def ocfgBytes (e : Ocfg) : List Byte :=
  leBytes 8 (b2n e.valid * 2 ^ 16 + e.wscl.toNat * 2 ^ 12 + e.wfmt.toNat * 2 ^ 8 + e.rnd.toNat * 2 ^ 6 + b2n e.bc * 2 ^ 5 +
    b2n e.nest * 2 ^ 4 + e.rule.toNat) ++
  leBytes 4 e.lr.toNat ++ leBytes 4 e.wd.toNat ++ leBytes 4 e.b1.toNat ++ leBytes 4 e.b2.toNat ++
  leBytes 4 e.eps.toNat ++ leBytes 4 e.absurd.toNat ++ List.replicate 32 0

/-- The entry 64 bytes hold. -/
def ocfgOf (bs : List Byte) : Ocfg :=
  let f (k : Nat) : W32 := BitVec.ofNat 32 (leNat ((bs.drop k).take 4))
  let w := leNat (bs.take 8)
  { valid := bit w 16, wscl := BitVec.ofNat 4 (bits w 15 12), wfmt := BitVec.ofNat 4 (bits w 11 8), rnd := BitVec.ofNat 2 (bits w 7 6),
    bc := bit w 5, nest := bit w 4, rule := BitVec.ofNat 4 (bits w 3 0), lr := f 8, wd := f 12, b1 := f 16, b2 := f 20,
    eps := f 24, absurd := f 28 }

/-- What OCFG_SET rejects in an entry: the status and the byte offset of the field in the packet (R205). -/
def ocfgBad (e : Ocfg) : Option (W16 × Nat) :=
  if 4 ≤ e.rule.toNat then some (0x0102, 40)
  else if e.rnd = 3 then some (0x0102, 40)
  else if e.wfmt ≠ 2 ∧ e.wfmt ≠ 3 then some (0x0105, 41)
  else if bit e.wscl.toNat 3 then some (0x0102, 41)
  else if e.wscl.toNat % 4 = 0 then some (0x0105, 41)
  else none

/-! ### Lists of PSETs and their arrays -/

/-- A PSET list: 16-bit words in context memory, PSET in bits 11:0 (as the list of a NORM op, R241).
DEDUCED: log entry 44. -/
def Chip.psetList (c : Chip) (n va count : Nat) : Option (List Nat) :=
  (c.fetchVa n va (2 * count)).map (fun bs => (List.range count).map (fun i => leNat ((bs.drop (2 * i)).take 2) % 4096))

/-- Bytes padded with zeros to a multiple of 256. -/
def pad256 (bs : List Byte) : List Byte := bs ++ List.replicate (roundUp bs.length 256 - bs.length) 0

/-- A PSET record: its header and its arrays as they stand in the active pages (R299). -/
def Chip.psetRecord (c : Chip) (n : Nat) (all : Bool) (ps : Nat) : List Byte :=
  let i := (c.ctx n).psetOf ps
  let g := i.gauge
  let arrays := (i.addrs.zip i.sizes).take (if all then 6 else 2)
  leBytes 2 ps ++ leBytes 1 (i.rule % 16 + i.wfmt % 16 * 16) ++ leBytes 1 (i.wscl % 16) ++ leBytes 4 i.p ++
  leBytes 8 (c.psetDigest n .active i).toNat ++
  leBytes 8 g.gsq.toNat ++ leBytes 8 g.wsq.toNat ++ leBytes 8 g.usq.toNat ++
  leBytes 4 g.nonfin.toNat ++ leBytes 4 g.ovf.toNat ++ leBytes 4 g.clip.toNat ++ leBytes 4 g.conv.toNat ++ List.replicate 8 0 ++
  arrays.flatMap (fun a => pad256 ((List.range a.2).map (fun j => c.peek n .active (a.1 + j))))

/-- The sum of both dies' GUT_LOSS_SUM in two's complement (R298). -/
def Chip.lossSum (c : Chip) : BitVec 128 := c.w.gut.lossSum + c.e.gut.lossSum

/-- The image header of Table 12.2. -/
def Chip.imageHeader (c : Chip) (n kind : Nat) (all : Bool) (psets : List Nat) (step : W48) (time : W64) : List Byte :=
  let t := (c.ctx n).train
  let digest := psets.foldl (fun a ps => a ^^^ c.psetDigest n .active ((c.ctx n).psetOf ps)) (0 : W64)
  leBytes 4 (1 + 16 + kind * 256 + b2n all * 1024) ++ leBytes 4 psets.length ++ leBytes 8 step.toNat ++ leBytes 8 time.toNat ++
  leBytes 4 (t.exp.toNat + t.clean.toNat * 64) ++ List.replicate 4 0 ++ leBytes 16 c.lossSum.toNat ++ leBytes 8 digest.toNat ++
  List.replicate 8 0

/-- A proof image (R298, R299). -/
def Chip.proofImage (c : Chip) (n : Nat) (all : Bool) (psets : List Nat) (step : W48) (time : W64) : List Byte :=
  c.imageHeader n 0 all psets step time ++ psets.flatMap (fun ps => c.psetRecord n all ps)

/-- The PSETs a context knows of. -/
def Ctx.knownPsets (x : Ctx) : List Nat := (x.psets.filter (fun kv => decide (kv.2.p ≠ 0))).map (·.1)

/-- The context state block of a checkpoint (R300). -/
def Ctx.stateBlock (x : Ctx) : List Byte :=
  leBytes 16 x.seed.toNat ++ leBytes 4 x.train.interval.toNat ++ List.replicate 12 0 ++
  (List.range 256).flatMap (fun i => ocfgBytes (tget default x.ocfg i))

/-- A checkpoint image (R298 to R300). -/
def Chip.checkpointImage (c : Chip) (n : Nat) : List Byte :=
  let x := c.ctx n
  let ps := x.knownPsets
  c.imageHeader n 1 true ps x.train.lastStep x.train.lastTime ++ x.stateBlock ++ ps.flatMap (fun p => c.psetRecord n true p)

/-! ### Arming (R294, R297, R301) -/

/-- PROOF_ARM (R294). -/
def Chip.proofArmCmd (c : Chip) (h : Hdr) (p : ProofArmP) : Chip :=
  let set (c : Chip) (a : Option ProofArm) : Chip := c.modCtx h.ctx (fun x => { x with proof := { x.proof with arm := a } })
  if p.n = 0 then c.range h 32
  else if p.destPeer && !vaOk p.addr then c.reserved h 46
  else if 4096 < p.psetCount.toNat then c.range h 56
  else if p.psetCount = 0 then (set c none).ok h 0
  else
    match c.psetList h.ctx p.psetVa.toNat p.psetCount.toNat with
    | none => c.done h 0x0111 1 0
    | some l => (set c (some { p := p, psets := l })).ok h 0

def execProofArm (h : Hdr) (p : ProofArmP) (s : State) : Host.Outcome State Fault Refusal :=
  s.run (fun c => c.command h false true (fun c => c.proofArmCmd h p))

/-- Every page of a range is mapped, writable and unpaired; `inter` asks for interleaved pages too. -/
def Ctx.plainRange (x : Ctx) (inter : Bool) (va n : Nat) : Bool :=
  decide (va + n ≤ 2 ^ 48) && (piecesOf va n).all (fun p => match x.page p.1 with
    | some g => !g.attr.ro && !g.attr.pair && (!inter || decide (g.attr.place = 8))
    | none => false)

/-- PROOF_RECV (R297). -/
def Chip.proofRecvCmd (c : Chip) (h : Hdr) (p : ProofRecvP) : Chip :=
  let x := c.ctx h.ctx
  let rest := x.proof.recv.filter (fun r => decide (r.source ≠ p.source))
  if p.bytes = 0 then (c.modCtx h.ctx (fun x => { x with proof := { x.proof with recv := rest } })).ok h 0
  else if p.destVa && !vaOk p.addr then c.reserved h 46
  else if !(x.oring p.evRing.toNat).set || !(x.oring p.evRing.toNat).kind then c.range h 33
  else if p.destVa && !x.plainRange false p.addr.toNat p.bytes.toNat then c.range h 40
  else (c.modCtx h.ctx (fun x => { x with proof := { x.proof with recv := rest ++ [p] } })).ok h 0

def execProofRecv (h : Hdr) (p : ProofRecvP) (s : State) : Host.Outcome State Fault Refusal :=
  s.run (fun c => c.command h false true (fun c => c.proofRecvCmd h p))

/-- The header of a capture area (Table 12.5). -/
def Chip.capHeader (c : Chip) (n : Nat) (k : Capture) (e : BitVec 6) (state : Nat) : Chip :=
  let r := capRegions k.p.tokCount.toNat (k.psets.map (c.ctx n).psetOf)
  c.fwStore n k.p.areaVa.toNat
    (leBytes 8 k.p.step.toNat ++ leBytes 16 k.seed.toNat ++ leBytes 1 e.toNat ++ leBytes 1 0 ++ leBytes 2 k.psets.length ++
     leBytes 4 k.p.tokCount.toNat ++ leBytes 8 r.token ++ leBytes 8 (r.copy.headD r.total) ++ leBytes 8 (r.grad.headD r.total) ++
     leBytes 8 (r.scratch.headD r.total) ++ leBytes 1 state)

/-- CAPTURE_ARM (R301, R304). -/
def Chip.captureArmCmd (c : Chip) (h : Hdr) (p : CaptureP) : Chip :=
  let x := c.ctx h.ctx
  if 64 < p.psetCount.toNat then c.range h 80
  else if 2 ^ 46 ≤ p.tokCount.toNat then c.range h 48
  else
    match c.psetList h.ctx p.psetVa.toNat p.psetCount.toNat with
    | none => c.done h 0x0111 1 0
    | some l =>
      let is := l.map x.psetOf
      if is.any (fun i => decide (i.p = 0)) then c.done h 0x0104 0 0
      else if !x.plainRange true p.areaVa.toNat p.areaBytes.toNat then c.range h 56
      else if p.areaBytes.toNat < (capRegions p.tokCount.toNat is).total then c.range h 64
      else
        let k : Capture := { p := p, psets := l }
        let c := c.modCtx h.ctx (fun x => { x with proof :=
          { x.proof with capture := some k, capStep := p.step, capPsets := 0, capState := 1 } })
        (c.capHeader h.ctx k 0 0).ok h 0

def execCaptureArm (h : Hdr) (p : CaptureP) (s : State) : Host.Outcome State Fault Refusal :=
  s.run (fun c => c.command h false true (fun c => c.captureArmCmd h p))

/-- What a launching step captures (R302): the tokens, seed, step register, loss-scale exponent and configuration entries; no PSET is
captured yet, so its record is zero. -/
def Chip.capLaunch (c : Chip) (n : Nat) (e : BitVec 6) : Chip :=
  let x := c.ctx n
  match x.proof.capture, x.run with
  | some k, some r =>
    if !r.isStep ∨ r.step ≠ k.p.step then c else
    let k := { k with seed := x.seed }
    let c := c.modCtx n (fun x => { x with proof := { x.proof with capture := some k } })
    let toks := (List.range (4 * k.p.tokCount.toNat)).map (fun i => c.peek n .active (k.p.tokVa.toNat + i))
    let c := c.fwStore n (k.p.areaVa.toNat + 8192) (List.replicate 4096 0)
    (c.fwStore n (k.p.areaVa.toNat + 12288) toks).capHeader n k e 1
  | _, _ => c

/-- The configuration entry a captured UPDATE names is in its place of the area. -/
def Chip.capConfig (c : Chip) (n : Nat) : Chip :=
  let x := c.ctx n
  match x.proof.capture, x.run with
  | some k, some r =>
    (List.range k.psets.length).foldl (fun c i =>
      let o := (c.peek n .active (k.p.areaVa.toNat + 8192 + 64 * i + 2)).toNat
      c.fwStore n (k.p.areaVa.toNat + 4096 + 64 * i) (ocfgBytes (tget default r.ocfg o))) c
  | _, _ => c

/-- The PSETs of a capture whose records are done and not skipped. -/
def Chip.captured (c : Chip) (n : Nat) (k : Capture) : Nat :=
  ((List.range k.psets.length).filter (fun i =>
    let b := (c.peek n .active (k.p.areaVa.toNat + 8192 + 64 * i + 3)).toNat
    bit b 1 && !bit b 0)).length

/-- The lowest set output ring of KIND 1 of a context.
DEDUCED: log entry 46. -/
def Ctx.eventRing (x : Ctx) : Option Nat := (x.orings.find? (fun kv => kv.2.set && kv.2.kind)).map (·.1)

/-- A capture completes at the commit point of its step (R302): configuration entries, STATE 2, event code 2. -/
def Chip.capComplete (c : Chip) (n : Nat) : Chip :=
  let x := c.ctx n
  match x.proof.capture, x.run with
  | some k, some r =>
    if r.step ≠ k.p.step then c else
    let c := (c.capConfig n).fwStore n (k.p.areaVa.toNat + 64) (leBytes 1 2)
    let c := c.modCtx n (fun x => { x with proof :=
      { x.proof with capture := none, capState := 2, capPsets := BitVec.ofNat 8 (c.captured n k) } })
    match (c.ctx n).eventRing with
    | some q => c.output n q (eventRecord 2 r.step.toNat c.now.toNat)
    | none => c
  | _, _ => c

/-! ### Shipment (R295 to R297) -/

/-- A shipment whose end event can be posted ends: its pin goes (R296, R348). -/
def Chip.tryShipEnd (c : Chip) (n : Nat) : Chip :=
  let x := c.ctx n
  match x.proof.ship with
  | none => c
  | some s =>
    let q := s.p.evRing.toNat
    let g := x.oring q
    if s.endCode = 0 ∨ !g.set ∨ g.full ∨ !g.delayed.isEmpty then c else
    (c.output n q (eventRecord s.endCode s.step.toNat c.now.toNat)).modCtx n (fun x => { x with proof :=
      { x.proof with ship := none, held := false, done := if s.endCode = 1 then satAdd x.proof.done 1 else x.proof.done } })

/-- PROOF_SHIPMENT_DONE: the last byte of the image is at its destination. -/
def Chip.shipDone (c : Chip) (n : Nat) : Chip :=
  match (c.ctx n).proof.ship with
  | none => c
  | some s =>
    if s.endCode ≠ 0 then c else
    let c : Chip :=
      if s.p.destPeer then c.send msgProof s.p.peer.toNat (leBytes 2 s.p.peerCtx.toNat ++ s.image)
      else { c with host := mwrite c.host s.p.addr.toNat s.image }
    (c.modCtx n (fun x => { x with proof := { x.proof with ship := some { s with endCode := 1 } } })).tryShipEnd n

def execProofShipmentDone (ctx : Nat) (s : State) : Host.Outcome State Fault Refusal := s.run (fun c => c.shipDone ctx)

/-- PROOF_REFUSED: the receiver refused; the sender abandons the shipment and posts event 5 (R297). -/
def Chip.shipRefused (c : Chip) (n : Nat) : Chip :=
  match (c.ctx n).proof.ship with
  | none => c
  | some s =>
    if s.endCode ≠ 0 then c else
    (c.modCtx n (fun x => { x with proof := { x.proof with ship := some { s with endCode := 5 } } })).tryShipEnd n

def execProofRefused (ctx : Nat) (s : State) : Host.Outcome State Fault Refusal := s.run (fun c => c.shipRefused ctx)

/-- PROOF_RECEIVE: a shipment arrives for a context from a source (R297). -/
def Chip.proofReceive (c : Chip) (source : BitVec 10) (n : Nat) (image : List Byte) : Chip :=
  let refuse (c : Chip) : Chip := c.send msgProofRefused source.toNat (leBytes 2 n)
  match (c.ctx n).proof.recv.find? (fun r => decide (r.source = source)) with
  | none => refuse c
  | some r =>
    if r.bytes.toNat < image.length then refuse c else
    let post (c : Chip) : Chip := c.output n r.evRing.toNat (eventRecord 4 (leNat ((image.drop 8).take 6)) c.now.toNat)
    if r.destVa then
      let w := c.writeVa n r.addr.toNat image
      if w.2.isSome then refuse c else post w.1
    else post { c with host := mwrite c.host r.addr.toNat image }

def execProofReceive (source : BitVec 10) (ctx : Nat) (image : List Byte) (s : State) : Host.Outcome State Fault Refusal :=
  s.run (fun c => c.proofReceive source ctx image)

/-! ### Checkpoints (R300) -/

/-- Write a checkpoint image to a host buffer. -/
def Chip.checkpointRun (c : Chip) (n : Nat) (ha avail : W64) : Chip × EndStatus :=
  let img := c.checkpointImage n
  if avail.toNat < img.length then (c, { status := 0x0206 })
  else ({ c with host := mwrite c.host ha.toNat img }, { status := 0, value := BitVec.ofNat 32 img.length })

/-- One PSET record of a checkpoint: number, what its header says, and its arrays' bytes; the rest of the image. -/
def ckptRecord (known : Nat → PsetInfo) (bs : List Byte) : Option ((Nat × PsetInfo × List (List Byte)) × List Byte) :=
  if bs.length < 64 then none else
  let ps := leNat (bs.take 2) % 4096
  let f (k n : Nat) : Nat := leNat ((bs.drop k).take n)
  let i0 := known ps
  let i : PsetInfo :=
    { i0 with rule := f 2 1 % 16, wfmt := f 2 1 / 16, wscl := f 3 1 % 16, p := f 4 4,
              gauge := { gsq := BitVec.ofNat 64 (f 16 8), wsq := BitVec.ofNat 64 (f 24 8), usq := BitVec.ofNat 64 (f 32 8),
                         nonfin := BitVec.ofNat 32 (f 40 4), ovf := BitVec.ofNat 32 (f 44 4), clip := BitVec.ofNat 32 (f 48 4),
                         conv := BitVec.ofNat 32 (f 52 4) } }
  let code : Ocfg := { (default : Ocfg) with rule := BitVec.ofNat 4 i.rule, wfmt := BitVec.ofNat 4 i.wfmt, wscl := BitVec.ofNat 4 i.wscl }
  if i0.addrs.isEmpty ∨ (ocfgBad code).isSome then none else
  let r := i.sizes.foldl (fun (a : List (List Byte) × List Byte) n => (a.1 ++ [a.2.take n], a.2.drop (roundUp n 256))) ([], bs.drop 64)
  if bs.length < 64 + i.copyBytes then none else some ((ps, i, r.1), r.2)

/-- The records of a checkpoint image; none when one is cut short, names a PSET the context does not know, or holds a reserved code
(R11). -/
def ckptRecords (known : Nat → PsetInfo) : Nat → List Byte → Option (List (Nat × PsetInfo × List (List Byte)))
  | 0, _ => some []
  | k + 1, bs =>
    match ckptRecord known bs with
    | none => none
    | some (r, rest) => (ckptRecords known k rest).map (r :: ·)

/-- Load a checkpoint (R300): both pages of each PSET, every ACTIVE 0, seed, loss scale, configuration table. A reserved code in a
record or in a valid entry of the table makes the image a bad one (R11). -/
def Chip.ckptLoadRun (c : Chip) (n : Nat) (bytes : W64) (image : List Byte) : Chip × EndStatus :=
  let x := c.ctx n
  let f (k m : Nat) : Nat := leNat ((image.drop k).take m)
  let bad : EndStatus := { status := 0x0104 }
  if image.length ≠ bytes.toNat ∨ image.length < 64 + 32 + 16384 ∨ f 0 4 % 2 ^ 11 ≠ 1 + 16 + 256 + 1024 then (c, bad) else
  match ckptRecords x.psetOf (f 4 4) (image.drop (64 + 32 + 16384)) with
  | none => (c, bad)
  | some rs =>
    let out := rs.any (fun r => (r.2.1.addrs.zip r.2.1.sizes).any (fun a => a.1 ≠ 0 && (x.pairedRange r.1 a.1 a.2).isSome))
    let table := (List.range 256).foldl (fun (t : Tab Ocfg) i => tput default t i (ocfgOf (image.drop (96 + 64 * i)))) []
    if table.any (fun kv => kv.2.valid && (ocfgBad kv.2).isSome) then (c, bad) else
    if out then (c, { status := 0x0111, detail := 1 }) else
    let c := rs.foldl (fun (c : Chip) r => (r.2.1.addrs.zip r.2.2).foldl (fun (c : Chip) a =>
      if a.1 = 0 then c else (c.writeVaAs n .load a.1 a.2).1) c) c
    let c := c.modCtx n (fun x => { x with
      seed := BitVec.ofNat 128 (f 64 16)
      ocfg := table
      halted := false
      psets := rs.foldl (fun t r => tput {} t r.1 r.2.1) x.psets
      train := { x.train with active := [], written := [], exp := BitVec.ofNat 6 (f 24 4 % 64), clean := BitVec.ofNat 16 (f 24 4 / 64),
                              interval := BitVec.ofNat 16 (f 80 4), since := some 0, lastStep := BitVec.ofNat 48 (f 8 8),
                              lastTime := BitVec.ofNat 64 (f 16 8) } })
    (c, { status := 0 })

/-! ### Reprint (R303) -/

/-- Replay one captured PSET: whether its results' digest differs from the recorded one.
DEDUCED: log entry 90. -/
def Chip.reprintOne (c : Chip) (n base : Nat) (j copy grad scratch : Nat) : Chip × Option (Nat × Bool) :=
  let rd (a k : Nat) : List Byte := (List.range k).map (fun i => c.peek n .active (base + a + i))
  let num (a k : Nat) : Nat := leNat (rd a k)
  let rec0 := 8192 + 64 * j
  let ps := num rec0 2 % 4096
  if bit (num (rec0 + 3) 1) 0 ∨ !bit (num (rec0 + 3) 1) 1 then (c, none) else
  let cfg := ocfgOf (rd (4096 + 64 * j) 64)
  let p := num (rec0 + 12) 4
  let known := (c.ctx n).psetOf ps
  let info : PsetInfo := { known with p := p, rule := cfg.rule.toNat, wfmt := cfg.wfmt.toNat, wscl := cfg.wscl.toNat }
  let lay := ((List.range 6).foldl (fun (a : List Nat × Nat) k => (a.1 ++ [a.2], a.2 + roundUp (info.sizes.getD k 0) 256)) ([], 0)).1
  let place (a : Nat) : Nat := match info.addrs.findIdx? (· == a) with
    | some k => copy + lay.getD k 0
    | none => copy
  let step := num 0 6
  let out := updPass
    { info := info, k := updK cfg step, rnd := cfg.rnd.toNat,
      grads := (List.range p).map (fun e => BitVec.ofNat 32 (num (grad + 4 * e) 4)),
      clip := some (BitVec.ofNat 32 (num (rec0 + 8) 4)), lsExp := num 24 1, seed := BitVec.ofNat 128 (num 8 16),
      tile := num (rec0 + 4) 4, step := step, arrays := readArrays p (updArrays info) (fun a l => rd (place a) l) }
  let parts := out.arrays.flatMap (fun a => match a with | some b => [b.1, b.2] | none => [[], []])
  let digest := (info.addrs.zip parts).foldl (fun (d : W64) a =>
    (List.range (ceilDiv a.2.length 256)).foldl (fun d i => d ^^^ unitDigest (a.1 + 256 * i) (((pad256 a.2).drop (256 * i)).take 256)) d) 0
  let c := (parts.zip lay).foldl (fun (c : Chip) a => c.fwStore n (base + scratch + a.2) (pad256 a.1)) c
  (c, some (ps, decide (digest.toNat ≠ num (rec0 + 16) 8)))

/-- Replay a completed capture; the result stands in CTX_REPRINT. -/
def Chip.reprintRun (c : Chip) (n : Nat) (area : W64) : Chip × EndStatus :=
  let base := area.toNat
  let put (c : Chip) (first : Nat) (miss : Nat) (result : Nat) : Chip := c.modCtx n (fun x => { x with proof :=
    { x.proof with repFirst := BitVec.ofNat 12 first, repMiss := BitVec.ofNat 8 miss, repResult := BitVec.ofNat 4 result } })
  match c.fetchVa n base 12288 with
  | none => (c, { status := 0x0111, detail := 1 })
  | some hd =>
    let f (k m : Nat) : Nat := leNat ((hd.drop k).take m)
    if f 64 1 ≠ 2 then (put c 0 0 3, { status := 0 }) else
    let ps := (List.range (min 64 (f 26 2))).map (fun j =>
      let cfg := ocfgOf ((hd.drop (4096 + 64 * j)).take 64)
      let known := (c.ctx n).psetOf (f (8192 + 64 * j) 2 % 4096)
      ({ known with p := f (8192 + 64 * j + 12) 4, rule := cfg.rule.toNat, wfmt := cfg.wfmt.toNat, wscl := cfg.wscl.toNat } : PsetInfo))
    let sizes := ps.map PsetInfo.copyBytes
    let co := (layRegions (f 40 8) sizes).1
    let gr := (layRegions (f 48 8) (ps.map (fun i => 4 * i.p))).1
    let sc := (layRegions (f 56 8) sizes).1
    let r := (List.range ps.length).foldl (fun (a : Chip × List (Nat × Bool)) j =>
      let y := a.1.reprintOne n base j (co.getD j 0) (gr.getD j 0) (sc.getD j 0)
      (y.1, a.2 ++ y.2.toList)) (c, [])
    let miss := (r.2.filter (·.2)).map (·.1)
    let first := miss.foldl min 4096
    (put r.1 (if miss.isEmpty then 0 else first) miss.length (if miss.isEmpty then 1 else 2),
     { status := 0, value := BitVec.ofNat 32 miss.length })

/-! ### Bulk commands carried out -/

/-- The command at the head of a context's queue is the running one and carries this header. -/
def Chip.isHead (c : Chip) (h : Hdr) : Bool :=
  match (c.ctx h.ctx).run, (c.ctx h.ctx).execQ with
  | some r, x :: _ => r.finish.isNone && decide (cmdHdr x.cmd = h)
  | _, _ => false

/-- A bulk command has been carried out: the run that waited for its data ends so, else its record is posted. -/
def Chip.bulk (h : Hdr) (r : Chip × EndStatus) : Chip := if r.1.isHead h then r.1.finish h.ctx r.2 else r.1.postEnd h r.2

def execCheckpoint (h : Hdr) (ha avail : W64) (s : State) : Host.Outcome State Fault Refusal :=
  s.run (fun c => c.command h false true (fun c => Chip.bulk h (c.checkpointRun h.ctx ha avail)))

def execCkptLoad (h : Hdr) (p : CkptLoadP) (image : List Byte) (s : State) : Host.Outcome State Fault Refusal :=
  s.run (fun c => c.command h false true (fun c => Chip.bulk h (c.ckptLoadRun h.ctx p.bytes image)))

def execReprint (h : Hdr) (areaVa : W64) (s : State) : Host.Outcome State Fault Refusal :=
  s.run (fun c => c.command h false true (fun c => if !vaOk areaVa then c.reserved h 38 else Chip.bulk h (c.reprintRun h.ctx areaVa)))

end Sys2Proof.Machine
end

