-- ==== Sys2Proof/Machine/Contexts.lean ====
section
/-!
DEFINITION. Contexts, partitions, locks and scheduling: the context commands, partition configuration, the scheduler,
kills, switches, tear-down, function resets and the wait-graph check (chapter 13, R155, R333, R334, R347, R348, R427).
-/
namespace Sys2Proof.Machine

/-! ### Context commands -/

/-- A 128-bit seed that is never zero, drawn when the command supplies zero (R291). -/
def Chip.seedOf (c : Chip) (lo hi : W64) : BitVec 128 × Chip :=
  let s := BitVec.ofNat 128 (lo.toNat + hi.toNat * 2 ^ 64)
  if s ≠ 0 then (s, c) else
  let a := c.draw
  let b := a.2.draw
  let v := BitVec.ofNat 128 (a.1.toNat + b.1.toNat * 2 ^ 64)
  (if v = 0 then 1 else v, b.2)

/-- CTX_CREATE (R306, R324, R349): the lowest free number; keys, hash key and seed are drawn and the context is idle. -/
def Chip.create (c : Chip) (h : Hdr) (p : CtxCreateP) : Chip :=
  match (List.range (min 1024 (c.ctxs.length + 1))).find? (fun n => decide ((c.ctx n).st = .free)) with
  | none => c.done h 0x0201 0 0
  | some n =>
    let s := c.seedOf p.seedLo p.seedHi
    let k := s.2.newKey
    let g := k.2.newHash
    let train : TrainRegs := { nstart := c.boot.defNstart, latLimit := c.boot.defLat }
    let c := g.2.modCtx n (fun x =>
      { rings := x.rings, bar4Base := x.bar4Base, st := .idle, part := p.part.toNat, latency := p.latency, rbwFault := p.rbwFault,
        seed := s.1, key := k.1, hash := g.1, spillHa := p.spillHa, spillBytes := p.spillBytes, parkHa := p.parkHa,
        parkBytes := p.parkBytes, train := train })
    c.ok h (BitVec.ofNat 32 n)

def execCtxCreate (h : Hdr) (p : CtxCreateP) (s : State) : Host.Outcome State Fault Refusal :=
  s.run (fun c => c.command h true false (fun c => c.create h p))

/-- Kills after which a pending command is protected: KILL_LIMIT 15 protects none (R315). -/
def Chip.isProtected (c : Chip) (n : Nat) : Bool :=
  let lim := (c.part (c.ctx n).part).killLimit.toNat
  match (c.ctx n).execQ with
  | x :: _ => decide (lim ≠ 15) && decide (lim ≤ x.kills)
  | [] => false

/-- Codes of Table 13.1. -/
def CtxSt.code : CtxSt → Nat
  | .free => 0 | .creating => 1 | .idle => 2 | .ready => 3 | .loading => 4 | .running => 5 | .saving => 6 | .tearing => 7

/-- Successive kills of the pending command. -/
def Ctx.kills (x : Ctx) : Nat := match x.execQ with | y :: _ => min 255 y.kills | [] => 0

/-- The context block of Table 14.12. -/
def Chip.ctxBlock (c : Chip) (n : Nat) : List Byte :=
  let x := c.ctx n
  leBytes 16 x.seed.toNat ++ leBytes 1 x.st.code ++
  leBytes 1 (x.part % 16 + b2n x.latency * 16 + b2n x.rbwFault * 32 + b2n (c.isProtected n) * 64 + b2n x.held * 128) ++
  leBytes 1 x.kills ++ leBytes 1 0 ++ leBytes 4 x.execQ.length ++ leBytes 4 x.rbw.toNat ++ leBytes 4 0

/-- CTX_QUERY (R347). -/
def execCtxQuery (h : Hdr) (ha : W64) (s : State) : Host.Outcome State Fault Refusal :=
  s.run (fun c => c.command h false true (fun c => ({ c with host := mwrite c.host ha.toNat (c.ctxBlock h.ctx) }).ok h 32))

/-- CTX_MOVE (R306): only an idle context changes its partition and class. -/
def execCtxMove (h : Hdr) (part : BitVec 4) (latency : Bool) (s : State) : Host.Outcome State Fault Refusal :=
  s.run (fun c => c.command h true true (fun c =>
    if (c.ctx h.ctx).st ≠ .idle then c.range h 32
    else
      let old := (c.ctx h.ctx).part
      let c := c.modPart old (fun p => if p.cur = some h.ctx then { p with cur := none } else p)
      (c.modCtx h.ctx (fun x => { x with part := part.toNat, latency := latency })).ok h 0))

/-- VF_BIND (R333): a VF is bound to at most one context, VF 0 unbinds the context.
DESIGN CHOICE: log entry 48. -/
def execVfBind (h : Hdr) (vf : BitVec 9) (s : State) : Host.Outcome State Fault Refusal :=
  s.run (fun c => c.command h true true (fun c =>
    let c := { c with vfs := tmap {} (fun _ v => if v.bound = some h.ctx then { v with bound := none } else v) c.vfs }
    if vf = 0 then c.ok h 0
    else ({ c with vfs := tmod {} c.vfs vf.toNat (fun v => { v with bound := some h.ctx }) }).ok h 0))

/-- ORING_SET (R348): indices start at zero; what the ring held back is posted. -/
def execOringSet (h : Hdr) (p : OringP) (s : State) : Host.Outcome State Fault Refusal :=
  s.run (fun c => c.command h false true (fun c =>
    let r := p.ring.toNat
    let c := c.modCtx h.ctx (fun x => { x with orings := tmod {} x.orings r (fun g =>
      { set := true, kind := p.kind, log2 := p.log2, vector := p.vector, ha := p.ha, wb := p.wb, delayed := g.delayed }) })
    ((c.drainOring h.ctx r).tryShipEnd h.ctx).ok h 0))

/-! ### Partitions (R309, R427) -/

/-- A value of PART_SET out of its range: the byte offset of the field (Table 14.18). -/
def partRange (p : PartSetP) : Option Nat :=
  if 64 < p.tagBase.toNat + p.tagCnt.toNat then some 42
  else if 64 < p.semBase.toNat + p.semCnt.toNat then some 40
  else if 0x8000 < p.share.toNat then some 80
  else if p.killLimit = 0 then some 90
  else if p.sliceMs = 0 then some 91
  else none

/-- Two ranges of 64-entry units meet. -/
def meets (b1 n1 b2 n2 : Nat) : Bool := decide (b1 < b2 + n2) && decide (b2 < b1 + n1) && decide (n1 ≠ 0) && decide (n2 ≠ 0)

/-- A partition's new resources conflict with R309. -/
def Chip.partConflict (c : Chip) (p : PartSetP) : Bool :=
  let q := p.part.toNat
  let others := (List.range 16).filter (fun k => decide (k ≠ q))
  let clash (k : Nat) : Bool :=
    let o := c.part k
    decide (o.ptW &&& p.ptW ≠ 0) || decide (o.ptE &&& p.ptE ≠ 0) || decide (o.te &&& p.te ≠ 0) ||
    decide (o.uu &&& p.uu ≠ 0) || decide (o.su &&& p.su ≠ 0) ||
    meets o.tagBase.toNat o.tagCnt.toNat p.tagBase.toNat p.tagCnt.toNat ||
    meets o.semBase.toNat o.semCnt.toNat p.semBase.toNat p.semCnt.toNat
  let shares := sumNat (others.map (fun k => (c.part k).share.toNat)) + p.share.toNat
  others.any clash || decide (0x8000 < shares) ||
  (decide (p.ptW = 0) && decide (p.ptE = 0) && !(c.ctxsOf q).isEmpty)

/-- A context's semaphore pairs and loop counters as its last command left them are kept in its record (R316).
DEDUCED: log entry 75. -/
def Chip.saveState (c : Chip) (q n : Nat) : Chip :=
  let one (c : Chip) (d : Die) : Chip :=
    let lo := c.pair q 0
    let cnt := (c.part q).semCnt.toNat * 64
    let sems := (c.die d).sems.filterMap (fun kv => if lo ≤ kv.1 ∧ kv.1 < lo + cnt then some (kv.1 - lo, kv.2) else none)
    let cs := match c.stream d q with | some s => s.cnt | none => []
    c.modSide n d (fun k => { k with semSaved := sems, cntSaved := cs })
  one (one c .w) .e

/-- The state of a partition's last context is saved if that context no longer runs there, as a switch would save it. -/
def Chip.saveIdle (c : Chip) (q : Nat) : Chip :=
  match (c.part q).cur with
  | some n => if (c.ctx n).st = .running then c else (c.saveState q n).modPart q (fun p => { p with cur := none })
  | none => c

/-- The partition takes its new resources; what its last context left in the old ones is saved first (R316). -/
def Chip.setPart (c : Chip) (p : PartSetP) : Chip :=
  (c.saveIdle p.part.toNat).modPart p.part.toNat (fun x =>
    { x with sliceMs := p.sliceMs, killLimit := p.killLimit, tagBase := p.tagBase, tagCnt := p.tagCnt, semBase := p.semBase,
             semCnt := p.semCnt, ptW := p.ptW, ptE := p.ptE, te := p.te, uu := p.uu, su := p.su, share := p.share, waitSet := none })

/-- A partition has a command running. -/
def Chip.partBusy (c : Chip) (q : Nat) : Bool := (c.ctxsOf q).any (fun n => (c.ctx n).run.isSome)

/-- A PART_SET that waits for its partition's command applies once that has ended. -/
def Chip.settleSet (c : Chip) (q : Nat) : Chip :=
  match (c.part q).waitSet with
  | some (h, p) =>
    if c.partBusy q then c
    else if c.partConflict p then (c.modPart q (fun x => { x with waitSet := none })).done h 0x0101 0 0
    else (c.setPart p).ok h 0
  | none => c

/-- What waited for a partition's command to end: a PART_SET, then overlays (R353, R427). -/
def Chip.settlePart (c : Chip) (q : Nat) : Chip := (c.settleSet q).settleOverlays

/-- PART_SET: checks, then the kill of the partition's command, then the change.
DEDUCED: log entry 49. -/
def Chip.partSetCmd (c : Chip) (h : Hdr) (p : PartSetP) : Chip :=
  let q := p.part.toNat
  match partRange p with
  | some off => c.range h off
  | none =>
    if c.partConflict p ∨ (c.part q).waitSet.isSome then c.done h 0x0101 0 0
    else
      let c := (c.ctxsOf q).foldl (fun c n => if (c.ctx n).run.isSome then c.requestKill n 0x0504 else c) c
      (c.modPart q (fun x => { x with waitSet := some (h, p) })).settlePart q

def execPartSet (h : Hdr) (p : PartSetP) (s : State) : Host.Outcome State Fault Refusal :=
  s.run (fun c => c.command h true true (fun c => c.partSetCmd h p))

/-! ### Locks (R322, R323) -/

/-- The order of waiting acquirers: by beat of arrival, within a beat by context number (R322). -/
def waitsBefore (x y : Nat × Hdr) : Bool := decide (x.1 < y.1) || (decide (x.1 = y.1) && decide (x.2.ctx < y.2.ctx))

/-- LOCK_ACQUIRE: granted at once, with 0x0020 when poisoned, or queued.
DEDUCED: log entry 39. -/
def execLockAcquire (h : Hdr) (lock : Byte) (s : State) : Host.Outcome State Fault Refusal :=
  s.run (fun c => c.command h false true (fun c =>
    let i := lock.toNat
    let l := tget {} c.locks i
    let c := { c with locks := tput {} c.locks i { l with waiters := insertBy waitsBefore (c.w.beats, h) l.waiters } }
    if l.held then c else c.grantNext i))

/-- LOCK_RELEASE: by its holder alone; the next waiter gets it. -/
def execLockRelease (h : Hdr) (lock : Byte) (s : State) : Host.Outcome State Fault Refusal :=
  s.run (fun c => c.command h false true (fun c =>
    let i := lock.toNat
    let l := tget {} c.locks i
    if !l.held ∨ l.owner ≠ h.ctx then c.done h 0x0103 0 0
    else
      let c := { c with locks := tput {} c.locks i { l with held := false, owner := 0 } }
      (c.grantNext i).ok h 0))

/-! ### Kills (R315, R318 to R320) -/

/-- PREEMPT: the context's running command is killed with 0x0502. -/
def execPreempt (h : Hdr) (s : State) : Host.Outcome State Fault Refusal :=
  s.run (fun c => c.command h true true (fun c =>
    ((c.requestKill h.ctx 0x0502).settlePart (c.ctx h.ctx).part).ok h 0))

/-- KILL with a status of group 0x05. -/
def execKill (ctx : Nat) (status : W16) (s : State) : Host.Outcome State Fault Refusal :=
  s.run (fun c =>
    if status.toNat < 0x0501 ∨ 0x0504 < status.toNat then c
    else (c.requestKill ctx status).settlePart (c.ctx ctx).part)

/-- A latency-critical context of the partition is ready. -/
def Chip.latencyReady (c : Chip) (q : Nat) : Bool :=
  (c.ctxsOf q).any (fun n => (c.ctx n).latency && decide ((c.ctx n).st = .ready))

/-- CLASS_KILL: a latency-critical context is ready while a best-effort command runs that is not protected (R315). -/
def execClassKill (part : Nat) (s : State) : Host.Outcome State Fault Refusal :=
  s.run (fun c =>
    match (c.part part).cur with
    | none => c
    | some n =>
      if (c.ctx n).latency ∨ !c.latencyReady part ∨ c.isProtected n then c
      else (c.requestKill n 0x0501).settlePart part)

/-- Tear a context down, or hold the tear-down while its command waits on a remote module (R319, R321). -/
def Chip.requestTeardown (c : Chip) (n : Nat) (status : W16) : Chip :=
  let q := (c.ctx n).part
  match (c.ctx n).run with
  | some r =>
    if c.waitsRemote n then c.modCtx n (fun x => { x with st := .tearing, held := true, run := some { r with heldKill := some status } })
    else (c.teardown n { status := status }).settlePart q
  | none => (c.teardown n { status := status }).settlePart q

/-- Statuses with which a context is torn down (R321). -/
def tearStatus (status : W16) : Bool := decide (status = 0x0701) || decide (status = 0x0703) || decide (status = 0x0405)

/-- KILL_HELD_RELEASE: the op or the vote that held a kill is over (R319). -/
def Chip.releaseKill (c : Chip) (n : Nat) : Chip :=
  match (c.ctx n).run with
  | none => c
  | some r =>
    match r.heldKill with
    | none => c
    | some st =>
      let q := (c.ctx n).part
      if c.waitsRemote n then c
      else if (c.ctx n).st = .tearing then (c.teardown n { status := st }).settlePart q
      else if r.pastCommit then
        (c.modCtx n (fun x => { x with held := false, run := some { r with heldKill := none } })).modPart q (fun p => { p with switchDue := true })
      else (c.doKill n st).settlePart q

def execKillHeldRelease (ctx : Nat) (s : State) : Host.Outcome State Fault Refusal := s.run (fun c => c.releaseKill ctx)

/-- CTX_DESTROY (R321). -/
def execCtxDestroy (h : Hdr) (s : State) : Host.Outcome State Fault Refusal :=
  s.run (fun c => c.command h true true (fun c => (c.ok h 0).requestTeardown h.ctx 0x0703))

/-- CONTEXT_TEARDOWN for an uncorrectable error, a destroy command or a vote minority. -/
def execContextTeardown (ctx : Nat) (status : W16) (s : State) : Host.Outcome State Fault Refusal :=
  s.run (fun c => if tearStatus status then c.requestTeardown ctx status else c)

/-- A function's bound context goes with no record, its binding and its ring pages with it (R334). -/
def Chip.resetVf (c : Chip) (fn : Nat) : Chip :=
  let c : Chip := match c.boundCtx fn with
    | none => c
    | some n => ((c.modCtx n (fun x => { x with gone := true })).requestTeardown n 0x0702).modCtx n (fun x => { x with rings := [], bar4Base := 0 })
  { c with vfs := tput {} c.vfs fn {} }

/-- A reset of the PF or a hot reset: every context, every VF (R334). -/
def Chip.hotReset (c : Chip) : Chip :=
  let c := c.live.foldl (fun c n =>
    ((c.modCtx n (fun x => { x with gone := true })).requestTeardown n 0x0702).modCtx n (fun x => { x with rings := [], bar4Base := 0 })) c
  { c with vfs := [], ctxs := tmap {} (fun _ x => { x with rings := [], bar4Base := 0 }) c.ctxs }

def execFunctionLevelReset (fn : Nat) (s : State) : Host.Outcome State Fault Refusal :=
  s.run (fun c => if fn = 0 then c.hotReset else c.resetVf fn)

/-! ### The scheduler (R313, R314) -/

/-- The partition's units are free, or a switch is due and no command runs (R313, R314). -/
def Chip.choiceDue (c : Chip) (q : Nat) : Bool :=
  let p := c.part q
  let moving := (c.ctxsOf q).any (fun n => decide ((c.ctx n).st = .loading))
  match p.cur with
  | none => !moving
  | some n =>
    let x := c.ctx n
    let rival := (c.ctxsOf q).any (fun m => decide ((c.ctx m).st = .ready) && ((c.ctx m).latency || !x.latency))
    !moving && x.run.isNone && (x.execQ.isEmpty || decide (x.st ≠ .running) || p.switchDue || (x.sliceDone && rival))

/-- The choice of R313: the first of the candidates after the last one of that class, in ascending number. -/
def Chip.nextCtx (c : Chip) (q : Nat) : Option Nat :=
  let ready := (c.ctxsOf q).filter (fun n => decide ((c.ctx n).st = .ready))
  let lc := ready.filter (fun n => (c.ctx n).latency)
  let cand := if lc.isEmpty then ready else lc
  let last := if lc.isEmpty then (c.part q).lastBe else (c.part q).lastLc
  match cand.find? (fun n => decide (last < n)) with
  | some n => some n
  | none => cand.head?

/-- SCHEDULER_CHOICE: the outgoing context leaves state running, the chosen one is loading (R307, R308). -/
def execSchedulerChoice (part : Nat) (s : State) : Host.Outcome State Fault Refusal :=
  s.run (fun c =>
    if !c.choiceDue part then c else
    match c.nextCtx part with
    | none => c
    | some n =>
      let c : Chip := match (c.part part).cur with
        | some m => c.modCtx m (fun x => if x.st = .running then { x with st := if x.execQ.isEmpty then .idle else .ready } else x)
        | none => c
      c.modCtx n (fun x => { x with st := .loading }))

/-- SLICE_EXPIRY: SLICE_MS after the slice began (R314). -/
def execSliceExpiry (part : Nat) (s : State) : Host.Outcome State Fault Refusal :=
  s.run (fun c =>
    match (c.part part).cur with
    | none => c
    | some n =>
      match (c.ctx n).sliceStart with
      | none => c
      | some t =>
        if c.now.toNat < t.toNat + (c.part part).sliceMs.toNat * 1000000 then c
        else c.modCtx n (fun x => { x with sliceDone := true }))

/-! ### Switching (R316, R317, R328) -/

/-- The platen and engine stores of a partition's units become zero, the flows of its galleys and what is known of its reduction
buffers, its threads and Gutter space go (R328). -/
def Chip.zeroStores (c : Chip) (q : Nat) : Chip :=
  let p := c.part q
  let heldPt (k : Nat) : Bool := bit (if k / 2 ^ 29 = 0 then p.ptW.toNat else p.ptE.toNat) (k % 2 ^ 29 / 2 ^ 23)
  let heldTe (k : Nat) : Bool := bit p.te.toNat (k / 2 ^ 20)
  let strip (held : Nat) (m : DieSt) : DieSt :=
    { m.dropThreads q with
      gut := m.gut.dropPart q
      platens := tmap {} (fun k (x : Platen) => if bit held k then { x with flows := [], reduced := [] } else x) m.platens }
  { c with platenMem := tfilter (fun k _ => !heldPt k) c.platenMem
           engineMem := tfilter (fun k _ => !heldTe k) c.engineMem
           w := strip p.ptW.toNat c.w
           e := strip p.ptE.toNat c.e }

/-- STORE_ZEROING: for a context that is being loaded, once the outgoing command's units are quiet. -/
def execStoreZeroing (part : Nat) (s : State) : Host.Outcome State Fault Refusal :=
  s.run (fun c =>
    if c.partBusy part ∨ !(c.ctxsOf part).any (fun n => decide ((c.ctx n).st = .loading)) then c
    else (c.zeroStores part).modPart part (fun p => { p with zeroed := true }))

/-- The saved pairs of a context stand in its partition again. -/
def Chip.restoreState (c : Chip) (q n : Nat) : Chip :=
  let one (c : Chip) (d : Die) : Chip :=
    let lo := c.pair q 0
    let cnt := (c.part q).semCnt.toNat * 64
    (c.zeroSems d q).modDie d (fun m => { m with sems := ((c.side n d).semSaved).foldl (fun t kv =>
      if kv.1 < cnt then tput {} t (lo + kv.1) kv.2 else t) m.sems })
  one (one c .w) .e

/-- CONTEXT_SWITCH: save, zero, stream in, restore (Table 13.3). -/
def Chip.switch (c : Chip) (q : Nat) : Chip :=
  match (c.ctxsOf q).find? (fun n => decide ((c.ctx n).st = .loading)) with
  | none => c
  | some n =>
    if c.partBusy q then c else
    let c : Chip := match (c.part q).cur with
      | none => c
      | some m => c.saveState q m
    let c := if (c.part q).zeroed then c else c.zeroStores q
    let c := (c.setStream .w q none).setStream .e q none
    let c := (c.streamIn n).restoreState q n
    let lat := (c.ctx n).latency
    let now := c.now
    let c := c.modCtx n (fun x => { x with st := .running, lastRun := now, sliceStart := none, sliceDone := false })
    c.modPart q (fun p => { p with cur := some n, zeroed := false, switchDue := false
                                   lastLc := if lat then n else p.lastLc
                                   lastBe := if lat then p.lastBe else n })

def execContextSwitch (part : Nat) (s : State) : Host.Outcome State Fault Refusal := s.run (fun c => c.switch part)

/-! ### The wait-graph check (R155) -/

/-- The youngest command of a cycle: latest start, then higher context, then higher sequence number. One command runs in
a context at a time (R308), so the sequence number never decides. -/
def Chip.youngest (c : Chip) : List Nat → Option Nat
  | [] => none
  | n :: t =>
    let start (k : Nat) : Nat := match (c.ctx k).run with | some r => r.began.toNat | none => 0
    some (t.foldl (fun a b => if start a < start b ∨ (start a = start b ∧ a < b) then b else a) n)

/-- One more wait-graph kill on each die the context's command has a stream on; a command past its commit point is not killed
(R319). -/
def Chip.countWgKill (c : Chip) (n : Nat) : Chip :=
  let q := (c.ctx n).part
  if (match (c.ctx n).run with | some r => r.pastCommit || r.finish.isSome | none => true) then c else
  let one (c : Chip) (d : Die) : Chip :=
    if (c.stream d q).isSome then c.modSide n d (fun k => { k with wgKills := satAdd k.wgKills 1 }) else c
  one (one c .w) .e

/-- A sample's wait between running commands, counted on from the sample before when that showed the same two commands. -/
def Chip.wgSample (c : Chip) (w : Nat × Nat) : Option WgWait :=
  match (c.ctx w.1).run, (c.ctx w.2).run with
  | some a, some b =>
    let seen := c.wgWaits.find? (fun x => decide (x.src = w.1) && decide (x.dst = w.2) && decide (x.srcAt = a.began) && decide (x.dstAt = b.began))
    some { src := w.1, dst := w.2, srcAt := a.began, dstAt := b.began, samples := match seen with | some x => x.samples + 1 | none => 1 }
  | _, _ => none

/-- Break the cycle of a list of contexts (R155): its only command is in error, or the youngest of several is killed. -/
def Chip.breakCycle (c : Chip) (cyc : List Nat) : Chip × Option Nat :=
  match cyc with
  | [n] => ((c.finish n { status := 0x0112 }).dropStreams n 0x0407, some n)
  | _ =>
    match c.youngest cyc with
    | none => (c, none)
    | some n => (((c.countWgKill n).requestKill n 0x0503).settlePart (c.ctx n).part, some n)

/-- Break the cycles among waits that ten samples in a row showed, one by one; the waits of a command that is stopped end. -/
def Chip.breakCycles (c : Chip) : Nat → Chip
  | 0 => c
  | f + 1 =>
    let cyc := cycleOf ((c.wgWaits.filter (fun w => decide (10 ≤ w.samples))).map (fun w => (w.src, w.dst)))
    if cyc.isEmpty then c else
    let r := c.breakCycle cyc
    let c := r.1
    match r.2 with
    | some n => ({ c with wgWaits := c.wgWaits.filter (fun w => decide (w.src ≠ n) && decide (w.dst ≠ n)) } : Chip).breakCycles f
    | none => c

/-- WAIT_GRAPH_CHECK: the sample's waits among running commands; a cycle of waits that ten samples in a row show is broken.
DEDUCED: log entry 30. -/
def Chip.waitGraph (c : Chip) (waits : List (Nat × Nat)) : Chip :=
  ({ c with wgWaits := waits.eraseDups.filterMap c.wgSample } : Chip).breakCycles waits.length

def execWaitGraphCheck (waits : List (Nat × Nat)) (s : State) : Host.Outcome State Fault Refusal := s.run (fun c => c.waitGraph waits)

end Sys2Proof.Machine
end

