-- ==== Sys2Proof/Machine/Power.lean ====
section
/-!
DEFINITION. Power and clocks: the power limit, the frequency controllers, sprint, stack gating, boost hours, voltage
adaptation of platens and the clip-share loop (chapter 15, R83, R84).
-/
namespace Sys2Proof.Machine

/-! ### Throttle crossings (R374) -/

/-- One throttle crossing: the first since NOTICE was cleared keeps its cause and time. -/
def Pwr.crossing (p : Pwr) (cause : BitVec 4) (time : W64) : Pwr :=
  { p with firstCause := if p.throttle.notice then p.firstCause else cause, throttle := p.throttle.event time }

/-! ### The limit and sprint (R364, R370, R371) -/

/-- The ceiling of R368. -/
def Pwr.ceiling (p : Pwr) : Nat := if p.sprinting then 1900 else p.limit.toNat

/-- Sprint ends now. -/
def Chip.endSprint (c : Chip) : Chip :=
  if c.pwr.sprinting then { c with pwr := { c.pwr with sprinting := false, lastSprintEnd := some c.now } } else c

/-- R371: 250 ms have passed, or a hotspot is at or above 100 °C. -/
def Chip.sprintOver (c : Chip) : Bool :=
  decide (c.pwr.sprintStart.toNat + 250000000 ≤ c.now.toNat) || decide (100 ≤ c.w.hotspot.toNat) || decide (100 ≤ c.e.hotspot.toNat)

def execSprintEnd (s : State) : Host.Outcome State Fault Refusal := s.run (fun c => if c.sprintOver then c.endSprint else c)

/-- R370: the module may sprint. -/
def Chip.sprintEligible (c : Chip) : Bool :=
  c.pwr.sprintEn && !c.pwr.sprinting && decide (c.w.hotspot.toNat < 60) && decide (c.e.hotspot.toNat < 60) &&
  decide (c.w.target = 1800) && decide (c.e.target = 1800) &&
  (match c.pwr.lastSprintEnd with | some t => decide (t.toNat + 2000000000 ≤ c.now.toNat) | none => true)

/-- An execute command starts: sprint begins when the module is eligible (R370). -/
def Chip.trySprint (c : Chip) : Chip :=
  if !c.sprintEligible then c else
  let c := { c with pwr := { c.pwr with sprinting := true, sprintStart := c.now, sprints := satAdd c.pwr.sprints 1 } }
  { c with w := c.w.retarget 2100, e := c.e.retarget 2100 }

/-- POWER_LIMIT (R364, R371): 600 to 1,500 W; SPRINT 0 ends a sprint. -/
def execPowerLimit (h : Hdr) (watts : W16) (sprint : Bool) (s : State) : Host.Outcome State Fault Refusal :=
  s.run (fun c => c.command h true true (fun c =>
    if watts.toNat < 600 ∨ 1500 < watts.toNat then c.range h 32
    else
      let c := { c with pwr := { c.pwr with limit := watts, sprintEn := sprint } }
      (if sprint then c else c.endSprint).ok h 0))

/-! ### The frequency controller (R365 to R369, R380) -/

/-- One control period at boost voltage is counted; 1,000 make a second (R367). -/
def DieSt.countBoost (m : DieSt) : DieSt :=
  let m := if m.boosted || decide (800 < m.setMv) then
      (if m.boostRem + 1 = 1000 then { m with boostRem := 0, boost := satAdd m.boost 1 } else { m with boostRem := m.boostRem + 1 })
    else m
  { m with boosted := decide (800 < m.setMv) }

/-- The boost counts go to the SPI NOR device (R367). -/
def Chip.storeBoost (c : Chip) : Chip := { c with boot := { c.boot with norBoostW := c.w.boost, norBoostE := c.e.boost } }

/-- They are stored when either has advanced by 3,600 since the last store. -/
def Chip.boostDue (c : Chip) : Bool :=
  decide (c.boot.norBoostW.toNat + 3600 ≤ c.w.boost.toNat) || decide (c.boot.norBoostE.toNat + 3600 ≤ c.e.boost.toNat)

/-- The rule of R368 a period takes, and the target it gives; `rise` says that the target may rise.
DEDUCED: log entry 55. -/
def freqRule (watts ceiling hotspot : Nat) (above sprinting rise : Bool) (target : Nat) : Nat × Nat :=
  let cap := if sprinting then 2100 else 1800
  if 110 ≤ hotspot then (1, 900)
  else if 100 ≤ hotspot then (2, max 900 (target - 50))
  else if above then (3, max 900 (target - 50))
  else if watts + 30 ≤ ceiling ∧ hotspot ≤ 95 ∧ rise then (4, max target (min cap (target + 50)))
  else (5, target)

/-- FREQUENCY_CONTROL: one die's 1 ms period. -/
def Chip.frequencyControl (c : Chip) (d : Die) (watts : W16) (hotspot : Byte) (current : Bool) : Chip :=
  let c := c.modDie d (fun m => { m.countBoost with hotspot := hotspot })
  let c := if c.boostDue then c.storeBoost else c
  let c := if c.sprintOver then c.endSprint else c
  let above := current || decide (c.pwr.ceiling < watts.toNat)
  let c := { c with pwr := { c.pwr with watts := watts, peak := if c.pwr.peak < watts then watts else c.pwr.peak, current := current, overCeil := above } }
  let m := c.die d
  let cooled := decide (hotspot.toNat < 95)
  let rise := !m.emergency || (decide (100 ≤ m.coolMs) && cooled)
  let r := freqRule watts.toNat c.pwr.ceiling hotspot.toNat above c.pwr.sprinting rise m.target.toNat
  let c := c.modDie d (fun m =>
    { (m.retarget r.2) with emergency := decide (r.1 = 1) || (m.emergency && !rise)
                            coolMs := if r.1 = 1 ∨ !cooled then 0 else m.coolMs + 1 })
  match r.1 with
  | 1 => { c with pwr := c.pwr.crossing 3 c.now }
  | 2 => { c with pwr := c.pwr.crossing 2 c.now }
  | 3 => { c with pwr := c.pwr.crossing 1 c.now }
  | _ => c

def execFrequencyControl (die : Die) (watts : W16) (hotspot : Byte) (currentLimit : Bool) (s : State) : Host.Outcome State Fault Refusal :=
  s.run (fun c => c.frequencyControl die watts hotspot currentLimit)

/-! ### Stack gating (R372) -/

/-- GATING_PERIOD: one stack's 1 ms period. -/
def Chip.gatingPeriod (c : Chip) (stack : Nat) (temp : Byte) : Chip :=
  let g := (c.stk stack).gate
  let g' := if 95 ≤ temp.toNat then (if g = 7 then 7 else g + 1) else if temp.toNat < 92 then (if g = 0 then 0 else g - 1) else g
  let c := c.modStk stack (fun k => { k with gate := g', temp := temp })
  if g = 0 ∧ g' ≠ 0 then { c with pwr := c.pwr.crossing 4 c.now } else c

def execGatingPeriod (stack : Nat) (temp : Byte) (s : State) : Host.Outcome State Fault Refusal :=
  s.run (fun c => if 8 ≤ stack then c else c.gatingPeriod stack temp)

/-! ### Voltage adaptation at the platen (R83) -/

def execDroopCorrection (die : Die) (platen : Nat) (s : State) : Host.Outcome State Fault Refusal :=
  s.run (fun c => if 64 ≤ platen then c else c.modPlaten die platen (fun p => { p with offset := min 15 (p.offset + 1) }))
def execDroopRelax (die : Die) (platen : Nat) (s : State) : Host.Outcome State Fault Refusal :=
  s.run (fun c => if 64 ≤ platen then c else c.modPlaten die platen (fun p => { p with offset := max (-8) (p.offset - 1) }))
def execEmergencyHold (die : Die) (platen : Nat) (s : State) : Host.Outcome State Fault Refusal :=
  s.run (fun c => if 64 ≤ platen then c else c.modPlaten die platen (fun p => { p with hold := true, heldBeat := true }))
def execDroopSensorRecovery (die : Die) (platen : Nat) (s : State) : Host.Outcome State Fault Refusal :=
  s.run (fun c => if 64 ≤ platen then c else c.modPlaten die platen (fun p => { p with hold := false }))

/-! ### The clip-share loop (R376) -/

/-- THRESH after a window of 1,024 executions in which `taken` branches were taken. -/
def WidenEntry.adapt (k : WidenEntry) (clipMax : Nat) : WidenEntry :=
  let t := k.thresh.toNat
  let t' := if 20 < k.taken then min (2 * t) clipMax else if k.taken = 0 then max (t / 2) 16777 else t
  { k with thresh := BitVec.ofNat 24 t', execs := 0, taken := 0 }

/-- CLIP_ADAPT_WINDOW: an enabled entry of a running context ends its window while the loop is on.
DEDUCED: log entry 43. -/
def execClipAdaptWindow (ctx : Nat) (die : Die) (tag : BitVec 12) (s : State) : Host.Outcome State Fault Refusal :=
  s.run (fun c =>
    let k : WidenEntry := tget {} (c.side ctx die).widen tag.toNat
    if !c.pwr.clipAdapt ∨ c.boot.mode ≠ 1 ∨ (c.ctx ctx).st ≠ .running ∨ !k.enable ∨ k.execs < 1024 then c
    else c.modSide ctx die (fun x => { x with widen := tmod {} x.widen tag.toNat (·.adapt c.pwr.clipMax.toNat) }))

end Sys2Proof.Machine
end

