-- ==== Sys2Proof/Machine/Boot.lean ====
section
/-!
DEFINITION. Bring-up, the Colophon, the base configuration, self-test, the service button, quiesce, resets and loss of power
(chapter 16, R373, R411, R412, R415).
-/
namespace Sys2Proof.Machine

/-! ### The Colophon (R384 to R386) -/

/-- The number of the governing generation of a copy: the highest whose GEN and CRC are right (R385). -/
def govNum (copy : List ColGen) : Nat :=
  ((List.range copy.length).filter (fun i => (copy.getD i {}).written && (copy.getD i {}).ok)).foldl max 0

/-- The governing generation of a copy; a copy without one governs nothing. -/
def govOf (copy : List ColGen) : ColGen :=
  let g := copy.getD (govNum copy) {}
  if g.ok then g else {}

/-- The Colophon copy of a die. -/
def Boot.col (b : Boot) : Die → List ColGen
  | .w => b.colW
  | .e => b.colE

/-- The settings of a 4 KiB generation at a position (Table 16.3). -/
def colOf (pos : Nat) (bs : List Byte) : ColGen :=
  let f := imgNum bs
  { written := true, ok := decide (f 4 4 = (crc32 (bs.drop 8)).toNat) && decide (bits (f 0 4) 9 8 = pos), gen := BitVec.ofNat 2 (bits (f 0 4) 9 8),
    serial := BitVec.ofNat 128 (f 8 16), manufacturer := BitVec.ofNat 11 (f 24 2), part := BitVec.ofNat 8 (f 26 1),
    limitW := BitVec.ofNat 16 (f 40 2), sprintOff := bit (f 42 2) 0, prim := BitVec.ofNat 2 (f 44 4), boot := BitVec.ofNat 2 (bits (f 44 4) 3 2),
    fullTest := bit (f 48 4) 0, dbgOff := bit (f 48 4) 1, quiesceS := BitVec.ofNat 8 (bits (f 48 4) 15 8), dbgKey := BitVec.ofNat 256 (f 64 32) }

/-- The bytes of a generation from byte 8 on, with a given DBGKEY. -/
def ColGen.body (g : ColGen) (key : Nat) : List Byte :=
  leBytes 16 g.serial.toNat ++ leBytes 2 g.manufacturer.toNat ++ leBytes 1 g.part.toNat ++ List.replicate 13 0 ++
  leBytes 2 g.limitW.toNat ++ leBytes 2 (b2n g.sprintOff) ++ leBytes 4 (g.prim.toNat + 4 * g.boot.toNat) ++
  leBytes 4 (b2n g.fullTest + 2 * b2n g.dbgOff + 256 * g.quiesceS.toNat) ++ List.replicate 12 0 ++ leBytes 32 key ++ List.replicate 4000 0

/-- The 4 KiB of a generation as the window reads them: DBGKEY as zero (R385). -/
def ColGen.window (g : ColGen) : List Byte :=
  leBytes 4 (1 + 16 + g.gen.toNat * 256) ++ leBytes 4 (crc32 (g.body g.dbgKey.toNat)).toNat ++ g.body 0

/-- An image COLPROG accepts as generation `pos` (R384, R386). -/
def colImageOk (pos : Nat) (bs : List Byte) : Bool :=
  let f := imgNum bs
  let zero (a n : Nat) : Bool := ((bs.drop a).take n).all (fun b => decide (b = 0))
  decide (bs.length = 4096) && decide (f 0 4 = 1 + 16 + pos * 256) && decide (f 4 4 = (crc32 (bs.drop 8)).toNat) && zero 8 32 && zero 64 32 &&
  (decide (f 40 2 = 0) || (decide (600 ≤ f 40 2) && decide (f 40 2 ≤ 1500))) && decide (f 42 2 < 2) &&
  decide (f 44 4 < 16) && decide (f 44 4 % 4 ≠ 3) && decide (f 44 4 / 4 ≠ 3) &&
  decide (bits (f 48 4) 7 2 = 0) && decide (f 48 4 < 2 ^ 16) && zero 52 12 && zero 96 4000

/-- The phases and contexts in which COLPROG is accepted. -/
def Chip.colprogOpen (c : Chip) : Bool :=
  !c.boot.governing.dbgOff && (decide (c.boot.phase = 7) || decide (c.boot.phase = 9) || (decide (c.boot.phase = 6) && c.live.isEmpty))

/-- COLPROG: the next unwritten generation of both copies, or nothing. -/
def execColprog (image : List Byte) (s : State) : Host.Outcome State Fault Refusal :=
  s.run (fun c =>
    let pos := max c.boot.colW.length c.boot.colE.length
    let c := { c with port := { c.port with ir := if c.boot.governing.dbgOff then 0xFF else 0x11, driving := false } }
    if !c.colprogOpen ∨ 4 ≤ pos ∨ !colImageOk pos image then c
    else { c with boot := { c.boot with colW := c.boot.colW ++ [colOf pos image], colE := c.boot.colE ++ [colOf pos image] } })

/-! ### The LED (R407) -/

/-- Patterns of Table 16.8, and dark without input power. -/
inductive Led where
  | dark | trip | hold (code : Nat) | locate | booting | quiesce | stopped | attention | ready
  deriving DecidableEq, Repr, Inhabited

/-- The highest-priority pattern whose condition holds. -/
def Chip.led (c : Chip) : Led :=
  let b := c.boot
  let p := b.phase.toNat
  if !c.pwr.inputOn then .dark
  else if c.pwr.tripped then .trip
  else if p = 7 then .hold b.holdCode.toNat
  else if b.locate then .locate
  else if p ≤ 5 then .booting
  else if p = 8 then .quiesce
  else if p = 9 then .stopped
  else if b.attention && (b.stFault || b.primFault || b.colFault || b.ovl5) then .attention
  else .ready

/-! ### Loss of everything -/

/-- What survives a loss of power or a reset of all logic: Colophon, SPI NOR, the pins, and what lies outside.
DEDUCED: log entry 58. -/
def Chip.afresh (c : Chip) : Chip :=
  let b := c.boot
  { Chip.reset with
    rdata := c.rdata, sent := c.sent, rnd := c.rnd, fresh := c.fresh, serials := c.serials, host := c.host
    w := { boost := b.norBoostW }, e := { boost := b.norBoostE }
    boot := { colW := b.colW, colE := b.colE, norA := b.norA, norB := b.norB, norBoostW := b.norBoostW, norBoostE := b.norBoostE
              norTrip := b.norTrip, perst := b.perst } }

/-- Every context is lost and no record is posted. -/
def Chip.loseContexts (c : Chip) : Chip :=
  let c := c.live.foldl (fun (c : Chip) n => (c.modCtx n (fun x => { x with gone := true })).teardown n { status := 0x0702 }) c
  { c with vfs := [], ctxs := [] }

/-- Enter HOLD with a code. -/
def Chip.enterHold (c : Chip) (code : Byte) : Chip := { c with boot := { c.boot with phase := 7, holdCode := code } }

/-- INPUT_BROWNOUT: every rail is off, every context lost (R412). -/
def execInputBrownout (s : State) : Host.Outcome State Fault Refusal :=
  s.run (fun c => if !c.pwr.inputOn then c else { c.afresh with pwr := { Chip.reset.pwr with inputOn := false, railsOn := false } })

/-- POWER_INPUT_RISE: bring-up starts at phase 1 with PREV 0 (R381, R411, R412). -/
def execPowerInputRise (s : State) : Host.Outcome State Fault Refusal := s.run (fun c => if c.pwr.inputOn then c else c.afresh)

/-- The trip temperatures of R373 are reached. -/
def Chip.tripDue (c : Chip) : Bool :=
  decide (115 ≤ c.w.hotspot.toNat) || decide (115 ≤ c.e.hotspot.toNat) || c.stks.any (fun kv => decide (110 ≤ kv.2.temp.toNat))

/-- THERMAL_TRIP: the trip goes to the SPI NOR device, every rail but VMGMT off, every context lost, the host link down (R373,
R374, R379). -/
def execThermalTrip (s : State) : Host.Outcome State Fault Refusal :=
  s.run (fun c =>
    if !c.pwr.railsOn ∨ !c.tripDue then c
    else { c.afresh with boot := { c.boot with norTrip := true, linkUp := false, mode := 2, ovl5 := false, ovlWait := [] }
                         pwr := { Chip.reset.pwr with railsOn := false, tripped := true } })

/-- FORCED_MANAGEMENT_RESET (R406): phase 2 with the rails up, phase 1 after a thermal trip. -/
def execForcedManagementReset (s : State) : Host.Outcome State Fault Refusal :=
  s.run (fun c =>
    if !c.pwr.inputOn then c else
    let f := c.afresh
    { f with boot := { f.boot with phase := if c.pwr.tripped then 1 else 2, prev := 1 } })

/-! ### Bring-up (R381 to R391, R394, R395) -/

/-- A thermal trip recorded before this reset is reported and its record cleared (R383). -/
def Chip.reportTrip (c : Chip) : Chip :=
  if !c.boot.norTrip then c else
  { c with boot := { c.boot with norTrip := false, prev := 3 }
           pwr := { c.pwr with firstCause := 5, throttle := { notice := true, count := 1, time := 0 } } }

/-- IDENT: Colophon copies are read and the straps sampled, in phase 2 (R384, R385).
DEDUCED: log entries 56 and 83. -/
def execIdent (primW primE bootSrc : Bool) (s : State) : Host.Outcome State Fault Refusal :=
  s.run (fun c =>
    if !c.pwr.railsOn ∨ (c.boot.phase ≠ 1 ∧ c.boot.phase ≠ 2) then c else
    let b := c.boot
    let differ := decide (b.colW ≠ b.colE)
    ({ c with boot := { b with phase := 2, strapW := primW, strapE := primE, strapBoot := bootSrc, colFault := b.colFault || differ
                               attention := b.attention || differ, gov := BitVec.ofNat 2 (govNum b.colW), governing := govOf b.colW } }).reportTrip)

/-- A controller claims to be primary (R387). -/
def Boot.claims (b : Boot) (d : Die) : Bool :=
  match d with
  | .w => let g := govOf b.colW; if g.prim = 0 then b.strapW else decide (g.prim = 1)
  | .e => let g := govOf b.colE; if g.prim = 0 then b.strapE else decide (g.prim = 2)

/-- The settings of the governing generation act at reset (Table 16.3). -/
def Chip.colSettings (c : Chip) : Chip :=
  let g := c.boot.governing
  { c with pwr := { c.pwr with limit := if g.limitW = 0 then 1500 else g.limitW, sprintEn := !g.sprintOff } }

/-- PRIMARY_ELECTION, in phase 3 (R387). -/
def execPrimaryElection (exchanged : Bool) (s : State) : Host.Outcome State Fault Refusal :=
  s.run (fun c =>
    if c.boot.phase ≠ 2 then c
    else if !exchanged then c.enterHold 1
    else
      let b := c.boot
      let w := b.claims .w
      let e := b.claims .e
      let prim : Die := if e && !w then .e else .w
      let fault := decide (w = e)
      ({ c with boot := { b with phase := 3, prim := prim, primFault := b.primFault || fault, attention := b.attention || fault
                                 gov := BitVec.ofNat 2 (govNum (b.col prim)), governing := govOf (b.col prim) } }).colSettings)

/-- LINK_TRAINING: from phase 3 on, with PERST# deasserted; never in HOLD (R382). -/
def execLinkTraining (s : State) : Host.Outcome State Fault Refusal :=
  s.run (fun c =>
    if !c.pwr.railsOn ∨ c.boot.phase.toNat < 3 ∨ c.boot.phase = 7 then c
    else { c with boot := { c.boot with linkUp := true, perst := false } })

/-- PERST_ASSERT: the link is down; after READY contexts go as at a hot reset (R415). -/
def execPerstAssert (s : State) : Host.Outcome State Fault Refusal :=
  s.run (fun c =>
    let c := if 6 ≤ c.boot.phase.toNat then c.hotReset else c
    { c with boot := { c.boot with perst := true, linkUp := false } })

/-- The base configuration comes from the host (R389). -/
def Boot.fromHost (b : Boot) : Bool := if b.governing.boot = 0 then b.strapBoot else decide (b.governing.boot = 2)

/-- PHASE_TIMEOUT: a phase of bring-up passes its limit; phase 4 has none when the host supplies the configuration (R381). -/
def execPhaseTimeout (s : State) : Host.Outcome State Fault Refusal :=
  s.run (fun c => if 5 < c.boot.phase.toNat ∨ (c.boot.phase = 4 ∧ c.boot.fromHost) then c else c.enterHold 3)

/-- A base configuration (R390). -/
structure BaseConfig where
  maxVfs : Nat := 0
  rate : Nat := 0
  ports : Byte := 0
  ridge : Nat := 0
  overlays : Tab (List Byte) := []
  defOvl : Nat := 0
  deriving DecidableEq, Repr, Inhabited

/-- A directory entry of a base configuration: TYPE, OFFSET, SIZE. -/
def configEntry (bs : List Byte) (i : Nat) : Nat × Nat × Nat :=
  (imgNum bs (16 + 16 * i) 1, imgNum bs (20 + 16 * i) 4, imgNum bs (24 + 16 * i) 4)

/-- The contents of a section of a type. -/
def configSection (bs : List Byte) (type : Nat) : Option (List Byte) :=
  (((List.range 16).map (configEntry bs)).find? (fun e => decide (e.1 = type))).map (fun e => (bs.drop e.2.1).take e.2.2)

/-- A base configuration image that passes its checks (R390 to R392).
PRESUMED: log entry 57. -/
def configOf (bs : List Byte) : Option BaseConfig :=
  let len := imgNum bs 4 4
  let es := (List.range 16).map (configEntry bs)
  let ovl (i : Nat) : Option (List Byte) := configSection bs (4 + i)
  if imgNum bs 0 1 ≠ 1 + 16 ∨ 4194304 < len ∨ len < 272 ∨ bs.length < len ∨ imgNum bs 8 4 ≠ (crc32 ((bs.take len).drop 16)).toNat then none
  else if es.any (fun e => decide (10 < e.1) || (decide (e.1 ≠ 0) && decide (len < e.2.1 + e.2.2))) then none
  else if !(List.range 6).all (fun i => match ovl i with | some o => overlayOk i o | none => true) then none
  else
    match configSection bs 1, configSection bs 2, configSection bs 3, configSection bs 10 with
    | some hl, some pl, some rs, some d =>
      let c : BaseConfig :=
        { maxVfs := imgNum hl 0 2, rate := imgNum hl 2 1, ports := pl.headD 0, ridge := imgNum rs 0 1 % 4, defOvl := imgNum d 0 1
          overlays := (List.range 6).foldl (fun t i => tput [] t i ((ovl i).getD [])) [] }
      if hl.length < 3 ∨ 511 < c.maxVfs ∨ pl.isEmpty ∨ rs.length < 8 ∨ 2 < c.ridge ∨ d.isEmpty ∨ 4 < c.defOvl then none else some c
    | _, _, _, _ => none

/-- The Ridge source takes effect (R391). In holdover the local oscillator stays active until the reference returns (R24, R25).
DEDUCED: log entry 67. -/
def Ridge.setSource (r : Ridge) (src : BitVec 2) : Ridge :=
  if src = 2 then { r with src := src, srcActive := 2, locked := true, holdover := false, phaseErr := 0, slew := false }
  else if r.holdover then { r with src := src }
  else if r.srcActive = src ∧ r.src = src then r
  else { r with src := src, srcActive := src, locked := false, slew := false }

/-- The base configuration takes effect. -/
def Chip.applyConfig (c : Chip) (k : BaseConfig) (src : BitVec 4) : Chip :=
  let c := { c with boot := { c.boot with src := src, maxVfs := k.maxVfs, maxRate := k.rate, portMask := k.ports, overlays := k.overlays, defOvl := k.defOvl }
                    ridge := c.ridge.setSource (BitVec.ofNat 2 k.ridge) }
  (List.range 8).foldl (fun c p => c.modPort p (fun x => { x with st := if bit k.ports.toNat p then 1 else 0 })) c

/-- BASE_CONFIG_LOAD: phase 4 begins; copy A, then copy B of the SPI NOR device, unless the host supplies it (R389). -/
def execBaseConfigLoad (s : State) : Host.Outcome State Fault Refusal :=
  s.run (fun c =>
    if c.boot.phase ≠ 3 then c else
    let c := { c with boot := { c.boot with phase := 4 } }
    if c.boot.fromHost then c else
    match configOf c.boot.norA with
    | some k => c.applyConfig k 1
    | none =>
      match configOf c.boot.norB with
      | some k => c.applyConfig k 2
      | none => c.enterHold 2)

/-- A host base configuration arrives in phase 4: it is taken, or sets nothing (R389). -/
def Chip.bootFetch (c : Chip) (image : List Byte) : Chip :=
  if c.boot.phase ≠ 4 ∨ !c.boot.fromHost ∨ c.boot.src ≠ 0 then c else
  match configOf image with
  | some k => c.applyConfig k 3
  | none => c

/-- BOOTLD_FETCH: a non-zero write of MOD_BOOTLD_LEN in phase 4, with the bytes the fetch brings. -/
def execBootldFetch (image : List Byte) (s : State) : Host.Outcome State Fault Refusal :=
  s.run (fun c =>
    if c.boot.phase ≠ 4 ∨ image.isEmpty then c
    else ({ c with boot := { c.boot with ldLen := BitVec.ofNat 23 image.length } }).bootFetch image)

/-- The results of a self-test (R395). -/
def Boot.tested (b : Boot) (r : SelfTestResult) (full : Bool) : Boot :=
  let bad := !r.failures.isEmpty
  let f := r.failures.headD (0, .w, 0)
  { b with stCount := BitVec.ofNat 8 (min 255 r.failures.length), stClass := BitVec.ofNat 4 f.1, stDie := decide (f.2.1 = .e)
           stUnit := BitVec.ofNat 8 f.2.2, stFull := full, stDone := true, stFault := b.stFault || bad, attention := b.attention || bad }

/-- SELFTEST: in phase 5 after a configuration is loaded, then the default overlay; the full test again when overlay 3 is
applied (R394, R395). -/
def execSelftest (r : SelfTestResult) (s : State) : Host.Outcome State Fault Refusal :=
  s.run (fun c =>
    if c.boot.phase = 4 ∧ c.boot.src ≠ 0 then
      let c := { c with boot := { (c.boot.tested r c.boot.governing.fullTest) with phase := 5 } }
      if r.criticalFail then c.enterHold 4 else c.applyOverlay c.boot.defOvl (tget [] c.boot.overlays c.boot.defOvl)
    else if (c.boot.phase = 6 ∨ c.boot.phase = 8) ∧ c.boot.mode = 3 then { c with boot := c.boot.tested r true }
    else c)

/-- READY: bring-up ends and packets are taken (R382). -/
def execReady (s : State) : Host.Outcome State Fault Refusal :=
  s.run (fun c => if c.boot.phase = 5 ∧ c.boot.stDone then { c with boot := { c.boot with phase := 6 } } else c)

/-- DIE_LINK_FAILURE after READY: HOLD with code 1, every context lost, the host link down (R388). -/
def execDieLinkFailure (s : State) : Host.Outcome State Fault Refusal :=
  s.run (fun c =>
    if c.boot.phase.toNat < 6 ∨ c.boot.phase = 7 then c
    else
      let c := c.loseContexts.enterHold 1
      { c with boot := { c.boot with linkUp := false } })

/-! ### The service button and quiesce (R404, R405) -/

/-- BUTTON_SHORT_PRESS: acknowledges the attention pattern when it is shown, else starts or stops locate. -/
def execButtonShortPress (s : State) : Host.Outcome State Fault Refusal :=
  s.run (fun c =>
    if !c.pwr.inputOn ∨ c.boot.phase = 7 then c else
    let b := { c.boot with shorts := satAdd c.boot.shorts 1, pressed := false }
    if c.led = .attention then { c with boot := { b with ack := true, attention := false } }
    else { c with boot := { b with locate := !b.locate, locateStart := c.now } })

/-- LOCATE_EXPIRY: 60 s after locate started. -/
def execLocateExpiry (s : State) : Host.Outcome State Fault Refusal :=
  s.run (fun c =>
    if c.boot.locate ∧ c.boot.locateStart.toNat + 60000000000 ≤ c.now.toNat then { c with boot := { c.boot with locate := false } } else c)

/-- QUIESCE: the 4 s mark of a button press in READY. -/
def execQuiesce (s : State) : Host.Outcome State Fault Refusal :=
  s.run (fun c => if c.boot.phase ≠ 6 then c else ({ c with boot := { c.boot with phase := 8, pressed := true, quiesceStart := c.now } }).raise 0 0)

/-- The seconds of QUIESCE_S, of which 0 means 60 (Table 16.3). -/
def ColGen.grace (g : ColGen) : Nat := if g.quiesceS = 0 then 60 else g.quiesceS.toNat

/-- QUIESCE_END, when QUIESCE_S seconds have passed: every context is torn down, the boost counts are stored, the press clocks stop. -/
def execQuiesceEnd (s : State) : Host.Outcome State Fault Refusal :=
  s.run (fun c =>
    if c.boot.phase ≠ 8 ∨ c.now.toNat < c.boot.quiesceStart.toNat + c.boot.governing.grace * 1000000000 then c else
    let c := c.live.foldl (fun (c : Chip) n => c.teardown n { status := 0x0702 }) c
    let c := (List.range 16).foldl (fun c q => c.settlePart q) c
    let c := c.storeBoost
    { c with boot := { c.boot with phase := 9 } })

end Sys2Proof.Machine
end

