-- ==== Sys2Proof/Machine/Compositor.lean ====
section
/-!
DEFINITION. The compositors' instructions of chapter 7 but for memory (Machine/CompMem.lean): threads, faults,
arithmetic, branches, special registers, semaphores and generators.
-/
namespace Sys2Proof.Machine

/-! ### Threads -/

/-- A register: g0 reads as zero (R160). -/
def Thread.reg (t : Thread) (r : Reg) : W64 := if r = 0 then 0 else tget 0 t.regs r.toNat

/-- Write a register: a write to g0 is ignored (R160). -/
def Thread.setReg (t : Thread) (r : Reg) (v : W64) : Thread :=
  if r = 0 then t else { t with regs := tput 0 t.regs r.toNat v }

/-- The next instruction in order. -/
def Thread.advance (t : Thread) : Thread := { t with pc := t.pc + 1 }

/-- Sticky flag bits of the thread (R166). -/
def Thread.join (t : Thread) (f : Flags) : Thread :=
  { t with ovf := t.ovf || f.ovf, nan := t.nan || f.nan, clip := t.clip || f.clip, badcode := t.badcode || f.badcode }

/-- Write a register, join flags, go on. -/
def Thread.result (t : Thread) (d : Reg) (v : W64) (f : Flags) : Thread := ((t.setReg d v).join f).advance

/-- Record the first failing thread in CTX_COMP_FAULT (R171). -/
def Chip.compFault (c : Chip) (r : ThreadRef) (t : Thread) (kind : Nat) : Chip :=
  c.modSide (c.ctxOf r.die t.part) r.die (fun k =>
    if k.compFault.valid then k else
    let f : CompFault :=
      { valid := true, kind := BitVec.ofNat 4 kind, spawn := BitVec.ofNat 3 t.spawn, loc := BitVec.ofNat 3 r.loc,
        comp := BitVec.ofNat 8 r.comp, context := BitVec.ofNat 12 r.ctx, prog := t.prog, offset := BitVec.ofNat 16 t.pc,
        tid := BitVec.ofNat 20 t.tid }
    { k with compFault := f })

/-- An instruction fault: trap cause 0x10 (R171). -/
def Chip.instrFault (c : Chip) (r : ThreadRef) (t : Thread) : Chip :=
  (c.compFault r t 1).raiseTrap r.die t.part (t.unit r.die).pos 0x10 0 (c.opPc (t.unit r.die))

/-- The lowest enabled compositor breakpoint at the thread's next instruction (R400). -/
def DieSt.breakpoint (m : DieSt) (t : Thread) : Option Nat :=
  (List.range 64).find? (fun n =>
    let v := (tget 0 m.dbg.cbp n : W64).toNat
    bit v 63 && decide (bits v 15 0 = t.prog.toNat) && decide (bits v 31 16 = t.pc))

/-- A thread stops before a breakpointed instruction, and the die halts when HALTDIE is set (R398, R400). -/
def Chip.stopThread (c : Chip) (r : ThreadRef) (t : Thread) (n : Nat) : Chip :=
  let c := c.setThread r (some { t with wait := .breakpoint n })
  c.modDie r.die (fun m =>
    let g := m.dbg
    let first := decide (g.cause = 0)
    let m := m.debugHit 3 n m.ridge (bit (tget 0 g.cbp n : W64).toNat 62)
    if first then
      { m with dbg := { m.dbg with chitLoc := BitVec.ofNat 3 r.loc, chitComp := BitVec.ofNat 8 r.comp, chitCtx := BitVec.ofNat 12 r.ctx } }
    else m)

/-! ### Instruction words (R162, R164) -/

/-- The word of an instruction by its fields OP, D, A, B and IMM. -/
def cword (op : Nat) (d a b : Reg) (imm : Nat) : Nat :=
  op * 2 ^ 25 + d.toNat * 2 ^ 21 + a.toNat * 2 ^ 17 + b.toNat * 2 ^ 13 + imm

/-- A word is a listed instruction whose unused fields are zero (R164, Table 7.2). -/
def wordOk (w : Nat) : Bool :=
  let op := bits w 31 25
  let d := bits w 24 21
  let a := bits w 20 17
  let b := bits w 16 13
  let imm := bits w 12 0
  let z (n : Nat) : Bool := decide (n = 0)
  let abd := z imm
  let ad := z b && z imm
  match op with
  | 0x01 => abd | 0x02 => abd | 0x03 => abd | 0x04 => abd | 0x05 => abd | 0x06 => abd | 0x07 => abd | 0x08 => abd
  | 0x09 => abd | 0x0A => abd | 0x0B => abd | 0x0C => abd
  | 0x0D => z b | 0x0E => z a && z b | 0x0F => z b
  | 0x20 => abd | 0x21 => abd | 0x22 => abd | 0x23 => abd | 0x24 => abd | 0x25 => abd
  | 0x26 => ad | 0x27 => ad | 0x28 => ad | 0x29 => ad | 0x2A => abd | 0x2B => ad | 0x2C => ad
  | 0x30 => z (bits imm 12 6) && decide (bits imm 3 0 ≤ 8) && decide (bits imm 5 4 ≠ 3)
  | 0x31 => z (bits imm 12 4) && decide (bits imm 3 0 ≤ 8)
  | 0x32 => z b && z (bits imm 12 6) && z (bits imm 3 0) && decide (bits imm 5 4 ≠ 3)
  | 0x33 => ad
  | 0x40 => z b | 0x42 => z b | 0x44 => z b
  | 0x41 => z d | 0x43 => z d | 0x45 => z d
  | 0x46 => abd | 0x47 => abd
  | 0x48 => z d && z a && ad
  | 0x50 => z a && z b
  | 0x51 => z a && z b && decide (imm ≤ 9)
  | 0x58 => z d && z (bits imm 12 2) | 0x59 => z d && z (bits imm 12 2)
  | 0x5C => z d && z imm
  | 0x5D => z a && ad
  | 0x60 => z d | 0x61 => z d | 0x62 => z d
  | 0x63 => z d && z a && z b
  | 0x64 => z d && ad
  | 0x65 => z d && z a && ad
  | 0x66 => z d && z a && z b
  | _ => false

/-- A memory fault of a thread, or of its fetch (R171): CTX_COMP_FAULT kind 2, then a mid-stream fault at the spawn's slot. -/
def Chip.memFault (c : Chip) (r : ThreadRef) (t : Thread) (f : AccFault) : Chip :=
  (c.compFault r t 2).opFault (t.unit r.die) 0 f

/-- The key of a compositor in its die's tables. -/
def compKey (r : ThreadRef) : Nat := r.loc * 256 + r.comp

/-- Context virtual address of a thread's next instruction. -/
def Thread.word (t : Thread) : Nat := t.progVa.toNat + 4 * t.pc

/-- The instruction-cache line of a thread's next instruction: the context's key and the 256-byte unit. -/
def Chip.codeLine (c : Chip) (r : ThreadRef) (t : Thread) : Nat × Nat := ((c.ctx (c.ctxOf r.die t.part)).key, t.word / 256)

/-- Lines of a compositor's 16 KiB instruction cache (R162).
DESIGN CHOICE: log entry 99. -/
def codeLines : Nat := 64

/-- A line used by a compositor: the first of its cache, the least recently used of 64 goes. -/
def Chip.useLine (c : Chip) (r : ThreadRef) (l : Nat × Nat) : Chip :=
  c.modDie r.die (fun m => { m with icache := tmod [] m.icache (compKey r) (fun x => (l :: x.erase l).take codeLines) })

/-- A thread's instruction fetch ends: its line comes into the cache, or the fetch faults (R162, R171). -/
def Chip.fetchLine (c : Chip) (r : ThreadRef) (t : Thread) : Chip :=
  let v := c.readVa (c.ctxOf r.die t.part) (t.word / 256 * 256) 256
  match v.2 with
  | .error f => v.1.memFault r t f
  | .ok _ => (v.1.useLine r (c.codeLine r t)).setThread r (some { t with wait := .ready })

/-- The instruction word at the thread's pc. -/
def Chip.wordAt (c : Chip) (r : ThreadRef) (t : Thread) : Nat :=
  leNat ((List.range 4).map (fun i => c.peek (c.ctxOf r.die t.part) .active (t.word + i)))

/-- The context of a compositor that issues next: the first ready thread in rotation from one past the last that issued, context 0
after reset (R159). -/
def DieSt.nextReady (m : DieSt) (r : ThreadRef) : Option Nat :=
  let base := r.loc * 2 ^ 21 + r.comp * 2 ^ 12
  let ks := m.threads.filterMap (fun kv =>
    if base ≤ kv.1 ∧ kv.1 < base + 4096 then kv.2.bind (fun t => if t.wait = .ready then some (kv.1 - base) else none) else none)
  (ks.find? (fun k => decide (tget 0 m.rota (compKey r) ≤ k))) <|> ks.head?

/-- A thread issues: the rotation goes one past its context, its line was used. -/
def Chip.rotate (c : Chip) (r : ThreadRef) (l : Nat × Nat) : Chip :=
  (c.modDie r.die (fun m => { m with rota := tput 0 m.rota (compKey r) ((r.ctx + 1) % 4096) })).useLine r l

/-- A thread's compositor is one of a halted die, not of a stack, and stands still (R398). -/
def Chip.standsStill (c : Chip) (r : ThreadRef) (t : Thread) : Bool := decide (r.loc = 0) && c.noBeat r.die t.part

/-- Issue the instruction `word` of a thread: the thread is the one its compositor's rotation comes to (R159), and a compositor of a
halted die does not run (R398). A pc that left the
program faults, a breakpoint stops it, a miss of the instruction cache makes it wait (R162). Then `f`, where its word is that
instruction; a word that is no instruction faults (R164), another instruction has a command of its own. -/
def Chip.issue (c : Chip) (r : ThreadRef) (word : Nat) (f : Chip → Thread → Chip) : Chip :=
  match c.thread r with
  | none => c
  | some t =>
    if (c.die r.die).nextReady r ≠ some r.ctx ∨ c.standsStill r t then c
    else if t.progLen ≤ t.pc then c.instrFault r t
    else
      match (if t.pass then none else (c.die r.die).breakpoint t) with
      | some n => c.stopThread r t n
      | none =>
        let l := c.codeLine r t
        if !(tget [] (c.die r.die).icache (compKey r)).contains l then c.setThread r (some { t with wait := .fetch })
        else if c.wordAt r t = word then f (c.rotate r l) { t with pass := false }
        else if wordOk (c.wordAt r t) then c
        else c.instrFault r t

/-- An instruction that changes its thread alone. -/
def Chip.local (c : Chip) (r : ThreadRef) (word : Nat) (f : Thread → Thread) : Chip :=
  c.issue r word (fun c t => c.setThread r (some (f t)))

/-- An instruction that changes its thread alone or faults. -/
def Chip.localOr (c : Chip) (r : ThreadRef) (word : Nat) (f : Thread → Option Thread) : Chip :=
  c.issue r word (fun c t => match f t with
    | some t' => c.setThread r (some t')
    | none => c.instrFault r t)

/-! ### Integer instructions (R164) -/

/-- d := f a b. -/
def intOp (op : Nat) (r : ThreadRef) (d a b : Reg) (f : W64 → W64 → W64) (c : Chip) : Chip :=
  c.local r (cword op d a b 0) (fun t => t.result d (f (t.reg a) (t.reg b)) {})

def imm64 (i : BitVec 13) : W64 := i.signExtend 64

def execAdd (t : ThreadRef) (d a b : Reg) (s : State) : Host.Outcome State Fault Refusal := s.run (intOp 0x01 t d a b (· + ·))
def execSub (t : ThreadRef) (d a b : Reg) (s : State) : Host.Outcome State Fault Refusal := s.run (intOp 0x02 t d a b (· - ·))
def execMul (t : ThreadRef) (d a b : Reg) (s : State) : Host.Outcome State Fault Refusal := s.run (intOp 0x03 t d a b (· * ·))

/-- Unsigned quotient, all ones for a zero divisor. -/
def divu64 (a b : W64) : W64 := if b = 0 then BitVec.allOnes 64 else a / b

def execDivu (t : ThreadRef) (d a b : Reg) (s : State) : Host.Outcome State Fault Refusal := s.run (intOp 0x04 t d a b divu64)
def execAnd (t : ThreadRef) (d a b : Reg) (s : State) : Host.Outcome State Fault Refusal := s.run (intOp 0x05 t d a b (· &&& ·))
def execOr (t : ThreadRef) (d a b : Reg) (s : State) : Host.Outcome State Fault Refusal := s.run (intOp 0x06 t d a b (· ||| ·))
def execXor (t : ThreadRef) (d a b : Reg) (s : State) : Host.Outcome State Fault Refusal := s.run (intOp 0x07 t d a b (· ^^^ ·))

def execShl (t : ThreadRef) (d a b : Reg) (s : State) : Host.Outcome State Fault Refusal :=
  s.run (intOp 0x08 t d a b (fun x y => x <<< (y.toNat % 64)))
def execShr (t : ThreadRef) (d a b : Reg) (s : State) : Host.Outcome State Fault Refusal :=
  s.run (intOp 0x09 t d a b (fun x y => x >>> (y.toNat % 64)))
def execSar (t : ThreadRef) (d a b : Reg) (s : State) : Host.Outcome State Fault Refusal :=
  s.run (intOp 0x0A t d a b (fun x y => x.sshiftRight (y.toNat % 64)))
def execSlt (t : ThreadRef) (d a b : Reg) (s : State) : Host.Outcome State Fault Refusal :=
  s.run (intOp 0x0B t d a b (fun x y => if x.slt y then 1 else 0))
def execSltu (t : ThreadRef) (d a b : Reg) (s : State) : Host.Outcome State Fault Refusal :=
  s.run (intOp 0x0C t d a b (fun x y => if x.ult y then 1 else 0))

def execAddi (t : ThreadRef) (d a : Reg) (imm : BitVec 13) (s : State) : Host.Outcome State Fault Refusal :=
  s.run (fun c => c.local t (cword 0x0D d a 0 imm.toNat) (fun x => x.result d (x.reg a + imm64 imm) {}))
def execLi (t : ThreadRef) (d : Reg) (imm : BitVec 13) (s : State) : Host.Outcome State Fault Refusal :=
  s.run (fun c => c.local t (cword 0x0E d 0 0 imm.toNat) (fun x => x.result d (imm64 imm) {}))
def execLih (t : ThreadRef) (d a : Reg) (imm : BitVec 13) (s : State) : Host.Outcome State Fault Refusal :=
  s.run (fun c => c.local t (cword 0x0F d a 0 imm.toNat) (fun x => x.result d ((x.reg a <<< 13) ||| imm.zeroExtend 64) {}))

/-! ### FP32 instructions (R165) -/

def lo32 (v : W64) : W32 := v.extractLsb' 0 32
def hi32 (v : W64) : W32 := v.extractLsb' 32 32
def ofLo (v : W32) : W64 := v.zeroExtend 64
/-- The high half kept, the low half replaced. -/
def putLo (old : W64) (v : W32) : W64 := (hi32 old ++ v : BitVec 64)

/-- A two-operand FP32 instruction on the low halves; the high half becomes zero. -/
def floatOp2 (op : Nat) (r : ThreadRef) (d a b : Reg) (f : W32 → W32 → FlW32) (c : Chip) : Chip :=
  c.local r (cword op d a b 0) (fun t => let v := f (lo32 (t.reg a)) (lo32 (t.reg b)); t.result d (ofLo v.1) v.2)

/-- A one-operand FP32 instruction. -/
def floatOp1 (op : Nat) (r : ThreadRef) (d a : Reg) (f : W32 → FlW32) (c : Chip) : Chip :=
  c.local r (cword op d a 0 0) (fun t => let v := f (lo32 (t.reg a)); t.result d (ofLo v.1) v.2)

def execFadd (t : ThreadRef) (d a b : Reg) (s : State) : Host.Outcome State Fault Refusal := s.run (floatOp2 0x20 t d a b fadd32)
def execFsub (t : ThreadRef) (d a b : Reg) (s : State) : Host.Outcome State Fault Refusal := s.run (floatOp2 0x21 t d a b fsub32)
def execFmul (t : ThreadRef) (d a b : Reg) (s : State) : Host.Outcome State Fault Refusal := s.run (floatOp2 0x22 t d a b fmul32)
def execFdiv (t : ThreadRef) (d a b : Reg) (s : State) : Host.Outcome State Fault Refusal := s.run (floatOp2 0x23 t d a b fdiv32)
def execFmax (t : ThreadRef) (d a b : Reg) (s : State) : Host.Outcome State Fault Refusal := s.run (floatOp2 0x24 t d a b fmax32)
def execFmin (t : ThreadRef) (d a b : Reg) (s : State) : Host.Outcome State Fault Refusal := s.run (floatOp2 0x25 t d a b fmin32)

/-- max(d.lo, |a.lo|, |a.hi|). -/
def foldAbs (x a b : W32) : FlW32 :=
  let p := fmax32 x (fabs32 a)
  let q := fmax32 p.1 (fabs32 b)
  (q.1, p.2.join q.2)

def execFamax2 (t : ThreadRef) (d a : Reg) (s : State) : Host.Outcome State Fault Refusal :=
  s.run (fun c => c.local t (cword 0x26 d a 0 0) (fun x =>
    let v := foldAbs (lo32 (x.reg d)) (lo32 (x.reg a)) (hi32 (x.reg a))
    x.result d (putLo (x.reg d) v.1) v.2))

def execFexp (t : ThreadRef) (d a : Reg) (s : State) : Host.Outcome State Fault Refusal := s.run (floatOp1 0x27 t d a fexp32)
def execFlog (t : ThreadRef) (d a : Reg) (s : State) : Host.Outcome State Fault Refusal := s.run (floatOp1 0x28 t d a flog32)
def execFrsq (t : ThreadRef) (d a : Reg) (s : State) : Host.Outcome State Fault Refusal := s.run (floatOp1 0x29 t d a frsq32)

def execFslt (t : ThreadRef) (d a b : Reg) (s : State) : Host.Outcome State Fault Refusal :=
  s.run (fun c => c.local t (cword 0x2A d a b 0) (fun x =>
    let v := flt32 (lo32 (x.reg a)) (lo32 (x.reg b))
    x.result d (if v.1 then 1 else 0) v.2))

/-- A signed 64-bit integer rounded to FP32. -/
def i2f (a : W64) : FlW32 := toF32 .near (.fin ⟨a.toInt, 0⟩)

def execI2f (t : ThreadRef) (d a : Reg) (s : State) : Host.Outcome State Fault Refusal :=
  s.run (fun c => c.local t (cword 0x2B d a 0 0) (fun x =>
    let v := i2f (x.reg a)
    x.result d (putLo (x.reg d) v.1) v.2))

/-- FP32 to a signed 64-bit integer, toward zero and saturating; a NaN gives 0. -/
def f2i (a : W32) : W64 × Flags :=
  let x := f32 a
  match x.1 with
  | .nan => (0, fNan.join x.2)
  | .fin v =>
    let m : Int := if 0 ≤ v.e then v.m * (2 ^ v.e.toNat : Nat) else (v.m.natAbs / 2 ^ (-v.e).toNat : Nat) * v.m.sign
    let m : Int := if m < -(2 ^ 63 : Nat) then -(2 ^ 63 : Nat) else if (2 ^ 63 : Nat) ≤ m then (2 ^ 63 : Nat) - 1 else m
    (BitVec.ofInt 64 m, x.2)

def execF2i (t : ThreadRef) (d a : Reg) (s : State) : Host.Outcome State Fault Refusal :=
  s.run (fun c => c.local t (cword 0x2C d a 0 0) (fun x => let v := f2i (lo32 (x.reg a)); x.result d v.1 v.2))

/-! ### Conversions (R166) -/

/-- The next draw of a thread: its part-used output first. -/
def Thread.draw (t : Thread) : Option (W16 × Thread) :=
  match t.gen with
  | none => none
  | some g =>
    let l := ({ g := g, draws := t.draws } : Lane).draw
    some (l.1, { t with gen := some l.2.g, draws := l.2.draws })

/-- A rounding mode code with a draw taken when it is stochastic. -/
def Thread.rnd (t : Thread) (code : Nat) : Option (Rnd × Thread) :=
  match code with
  | 0 => some (.near, t)
  | 1 => t.draw.map (fun p => (.stoch p.1, p.2))
  | 2 => some (.zero, t)
  | _ => none

/-- CVT2: a.lo first, then a.hi; a reserved format or mode faults. -/
def Thread.cvt2 (t : Thread) (d a b : Reg) (fmt rnd : Nat) : Option Thread :=
  if 8 < fmt then none else
  let w := fmtWidth fmt
  let sc := f32 (lo32 (t.reg b))
  let x := f32 (lo32 (t.reg a))
  let y := f32 (hi32 (t.reg a))
  match t.rnd rnd with
  | none => none
  | some (m1, t1) =>
    match t1.rnd rnd with
    | none => none
    | some (m2, t2) =>
      let p := convertAny fmt m1 x.1 sc.1
      let q := convertAny fmt m2 y.1 sc.1
      let v := ((t.reg d).toNat <<< (2 * w)) ||| (q.1 <<< w) ||| p.1
      some (t2.result d (BitVec.ofNat 64 v) ((p.2.join q.2).join (sc.2.join (x.2.join y.2))))

def execCvt2 (t : ThreadRef) (d a b : Reg) (fmt : BitVec 4) (rnd : BitVec 2) (s : State) : Host.Outcome State Fault Refusal :=
  s.run (fun c => c.localOr t (cword 0x30 d a b (rnd.toNat * 16 + fmt.toNat)) (fun x => x.cvt2 d a b fmt.toNat rnd.toNat))

/-- One element code times a scale, as FP32. -/
def expandOne (fmt code : Nat) (sc : Val × Flags) : FlW32 :=
  let v := scaled (elemVal fmt code) sc
  let r := toF32 .near v.1
  (r.1, r.2.join v.2)

/-- EXP2: the two low codes of a times a scale. -/
def Thread.exp2 (t : Thread) (d a b : Reg) (fmt : Nat) : Option Thread :=
  if 8 < fmt then none else
  let w := fmtWidth fmt
  let sc := f32 (lo32 (t.reg b))
  let v := (t.reg a).toNat
  let p := expandOne fmt (v % 2 ^ w) sc
  let q := expandOne fmt (v / 2 ^ w % 2 ^ w) sc
  some (t.result d (q.1 ++ p.1 : BitVec 64) (p.2.join q.2))

def execExp2 (t : ThreadRef) (d a b : Reg) (fmt : BitVec 4) (s : State) : Host.Outcome State Fault Refusal :=
  s.run (fun c => c.localOr t (cword 0x31 d a b fmt.toNat) (fun x => x.exp2 d a b fmt.toNat))

/-- TOBF: BF16 of a.lo, zero-extended. -/
def Thread.tobf (t : Thread) (d a : Reg) (rnd : Nat) : Option Thread :=
  (t.rnd rnd).map (fun m => let v := toBf16 m.1 (lo32 (t.reg a)); m.2.result d (v.1.zeroExtend 64) v.2)

def execTobf (t : ThreadRef) (d a : Reg) (rnd : BitVec 2) (s : State) : Host.Outcome State Fault Refusal :=
  s.run (fun c => c.localOr t (cword 0x32 d a 0 (rnd.toNat * 16)) (fun x => x.tobf d a rnd.toNat))

def execFrombf (t : ThreadRef) (d a : Reg) (s : State) : Host.Outcome State Fault Refusal :=
  s.run (fun c => c.local t (cword 0x33 d a 0 0) (fun x =>
    let v := ofBf16 ((x.reg a).extractLsb' 0 16)
    x.result d (putLo (x.reg d) v.1) v.2))

/-! ### Argument list, special registers -/

/-- A word of a descriptor of the spawn's argument list as its feeder fetched it. -/
def Chip.argWord (c : Chip) (r : ThreadRef) (t : Thread) (desc word : Nat) : Option W64 :=
  match (c.op (t.unit r.die)).bind (·.descs) with
  | none => none
  | some dl => (dl[desc]?).map (fun ws => ws.getD word 0)

def execArg (t : ThreadRef) (d : Reg) (desc : BitVec 10) (word : BitVec 3) (s : State) : Host.Outcome State Fault Refusal :=
  s.run (fun c => c.issue t (cword 0x50 d 0 0 (desc.toNat * 8 + word.toNat)) (fun c x =>
    match c.argWord t x desc.toNat word.toNat with
    | some v => c.setThread t (some (x.result d v {}))
    | none => c.instrFault t x))

/-- The FLAGS special register: OVF, NAN, CLIP, BADCODE in bits 0 to 3. -/
def Thread.flagBits (t : Thread) : Nat := b2n t.ovf + 2 * b2n t.nan + 4 * b2n t.clip + 8 * b2n t.badcode

/-- Special registers (Table 7.1). -/
def Thread.spr (t : Thread) (r : ThreadRef) (ridge : W64) : Nat → Option W64
  | 0 => some (BitVec.ofNat 64 t.tid)
  | 1 => some t.bval
  | 2 => some (BitVec.ofNat 64 t.count)
  | 3 => some (BitVec.ofNat 64 r.comp)
  | 4 => some (BitVec.ofNat 64 r.loc)
  | 5 => some (BitVec.ofNat 64 r.die.num)
  | 6 => some (t.step.zeroExtend 64)
  | 7 => some ridge
  | 8 => some (BitVec.ofNat 64 t.flagBits)
  | 9 => some (t.tag.zeroExtend 64)
  | _ => none

def execSpr (t : ThreadRef) (d : Reg) (index : BitVec 13) (s : State) : Host.Outcome State Fault Refusal :=
  s.run (fun c => c.localOr t (cword 0x51 d 0 0 index.toNat) (fun x => (x.spr t (c.die t.die).ridge index.toNat).map (fun v => x.result d v {})))

/-! ### Semaphores and generators -/

/-- SSIG: adds b to a pair's half; an index outside the partition's range raises trap cause 0x14 (R311). -/
def execSsig (t : ThreadRef) (a b : Reg) (half xdie : Bool) (s : State) : Host.Outcome State Fault Refusal :=
  s.run (fun c => c.issue t (cword 0x58 0 a b (b2n half + 2 * b2n xdie)) (fun c x =>
    let i := (x.reg a).toNat
    if !c.semOk x.part i then c.raiseTrap t.die x.part (x.unit t.die).pos 0x14 0 (c.opPc (x.unit t.die))
    else
      let c := c.synced t.die x
      (c.setThread t (some { x.advance with acquired := c.syncs })).signal t.die x.part i half xdie (x.reg b).toNat
        (c.opKnows (x.unit t.die))))

/-- Try a take for a thread; it waits until it can (R149). -/
def Chip.tryStake (c : Chip) (r : ThreadRef) (t : Thread) (i : BitVec 12) (half xdie : Bool) (n : W64) : Chip :=
  let dst := if xdie then r.die.other else r.die
  let p := c.pair t.part i.toNat
  if c.semHas dst p half n.toNat then
    let s := (c.synced r.die t).hears (.unit r.die (t.unit r.die).pos) dst p half
    ((s.setThread r (some { t.advance with wait := .ready, acquired := s.syncs })).turn dst p half (c.contested dst p half n.toNat)
      (threadRequester r dst)).semTake dst p half n.toNat
  else c.setThread r (some { t with wait := .stake i half xdie n })

def execStake (t : ThreadRef) (a b : Reg) (half xdie : Bool) (s : State) : Host.Outcome State Fault Refusal :=
  s.run (fun c => c.issue t (cword 0x59 0 a b (b2n half + 2 * b2n xdie)) (fun c x =>
    let i := (x.reg a).toNat
    if !c.semOk x.part i then c.raiseTrap t.die x.part (x.unit t.die).pos 0x14 0 (c.opPc (x.unit t.die))
    else c.tryStake t x (BitVec.ofNat 12 i) half xdie (x.reg b)))

/-- RSEED: stream a[23:20], tile a[19:0], lane b[15:0]; other bits zero, streams 4 to 15 reserved (R293). -/
def Thread.rseed (t : Thread) (seed : BitVec 128) (a b : Reg) : Option Thread :=
  let x := (t.reg a).toNat
  let y := (t.reg b).toNat
  if 2 ^ 24 ≤ x ∨ 2 ^ 16 ≤ y ∨ 4 ≤ bits x 23 20 then none else
  let l := Lane.seed seed (bits x 23 20) (bits x 19 0) y t.step.toNat
  some { t.advance with gen := some l.g, draws := [] }

def execRseed (t : ThreadRef) (a b : Reg) (s : State) : Host.Outcome State Fault Refusal :=
  s.run (fun c => c.localOr t (cword 0x5C 0 a b 0) (fun x => x.rseed (c.ctx (c.ctxOf t.die x.part)).seed a b))

/-- RNEXT: the next whole output; a part-used output's draws are discarded (R166). -/
def Thread.rnext (t : Thread) (d : Reg) : Option Thread :=
  t.gen.map (fun g => let r := rngNext g; { t.result d r.1 {} with gen := some r.2, draws := [] })

def execRnext (t : ThreadRef) (d : Reg) (s : State) : Host.Outcome State Fault Refusal :=
  s.run (fun c => c.localOr t (cword 0x5D d 0 0 0) (fun x => x.rnext d))

/-! ### Branches -/

/-- The pc after a branch by IMM, counted from the branch itself; a target before the program's start lies at the end of
the pc's range, outside every program. -/
def Thread.branch (t : Thread) (imm : BitVec 13) : Thread :=
  { t with pc := if 0 ≤ (t.pc : Int) + imm.toInt then ((t.pc : Int) + imm.toInt).toNat else 2 ^ 64 }

def branchIf (op : Nat) (r : ThreadRef) (a b : Reg) (imm : BitVec 13) (p : Thread → Bool) (c : Chip) : Chip :=
  c.local r (cword op 0 a b imm.toNat) (fun t => if p t then t.branch imm else t.advance)

def execBeq (t : ThreadRef) (a b : Reg) (imm : BitVec 13) (s : State) : Host.Outcome State Fault Refusal :=
  s.run (branchIf 0x60 t a b imm (fun x => x.reg a == x.reg b))
def execBne (t : ThreadRef) (a b : Reg) (imm : BitVec 13) (s : State) : Host.Outcome State Fault Refusal :=
  s.run (branchIf 0x61 t a b imm (fun x => x.reg a != x.reg b))
def execBlt (t : ThreadRef) (a b : Reg) (imm : BitVec 13) (s : State) : Host.Outcome State Fault Refusal :=
  s.run (branchIf 0x62 t a b imm (fun x => (x.reg a).slt (x.reg b)))
def execJmp (t : ThreadRef) (imm : BitVec 13) (s : State) : Host.Outcome State Fault Refusal :=
  s.run (branchIf 0x63 t 0 0 imm (fun _ => true))
def execJr (t : ThreadRef) (a : Reg) (s : State) : Host.Outcome State Fault Refusal :=
  s.run (fun c => c.local t (cword 0x64 0 a 0 0) (fun x => { x with pc := (x.reg a).toNat }))

/-- EXIT: the context is freed, the compositor's next waiting thread takes it, the spawn counts one thread less (R160,
R163). -/
def Chip.endThread (c : Chip) (r : ThreadRef) (t : Thread) : Chip :=
  let waiting := tget [] (c.die r.die).spawns (compKey r)
  let c := match waiting with
    | [] => c.setThread r none
    | n :: rest => (c.setThread r (some n)).modDie r.die (fun m => { m with spawns := tput [] m.spawns (compKey r) rest })
  c.modOp (t.unit r.die) (fun o => { o with left := o.left - 1, worked := o.worked || decide (o.left ≤ 1) })

def execExit (t : ThreadRef) (s : State) : Host.Outcome State Fault Refusal :=
  s.run (fun c => c.issue t (cword 0x65 0 0 0 0) (fun c x => c.endThread t x))

/-- TRAP: cause 0x0E with CODE := IMM, unsigned (R171). -/
def execCompTrap (t : ThreadRef) (imm : BitVec 13) (s : State) : Host.Outcome State Fault Refusal :=
  s.run (fun c => c.issue t (cword 0x66 0 0 0 imm.toNat) (fun c x =>
    (c.compFault t x 3).raiseTrap t.die x.part (x.unit t.die).pos 0x0E imm.toNat (c.opPc (x.unit t.die))))

/-- FENCE: the thread waits until its earlier accesses are visible; THREAD_WAKE ends the wait. -/
def execFence (t : ThreadRef) (s : State) : Host.Outcome State Fault Refusal :=
  s.run (fun c => c.local t (cword 0x48 0 0 0 0) (fun x => { x.advance with wait := .fence }))

/-- A waiting thread becomes ready (R159); one in STAKE only when its take succeeds.
DEDUCED: log entry 85. -/
def execThreadWake (t : ThreadRef) (s : State) : Host.Outcome State Fault Refusal :=
  s.run (fun c => match c.thread t with
    | none => c
    | some x =>
      match x.wait with
      | .memory => c.setThread t (some { x with wait := .ready })
      | .fence => c.setThread t (some { x with wait := .ready })
      | .fetch => c.fetchLine t x
      | .stake i half xdie n => c.tryStake t x i half xdie n
      | .ready => c
      | .breakpoint _ => c)

/-- COMPOSITOR_BREAKPOINT_HIT: a ready thread at an enabled breakpoint stops (R400). -/
def execCompositorBreakpointHit (t : ThreadRef) (s : State) : Host.Outcome State Fault Refusal :=
  s.run (fun c => match c.thread t with
    | none => c
    | some x =>
      if x.wait ≠ .ready ∨ x.pass ∨ c.standsStill t x then c else
      match (c.die t.die).breakpoint x with
      | some n => c.stopThread t x n
      | none => c)

/-- INSTRUCTION_FAULT: the thread's next word is no listed instruction, or its pc left the program (R164, R171). -/
def execInstructionFault (t : ThreadRef) (s : State) : Host.Outcome State Fault Refusal :=
  s.run (fun c => c.issue t (2 ^ 32) (fun c _ => c))

end Sys2Proof.Machine
end

