-- ==== Sys2Proof/Machine/CompMem.lean ====
section
/-!
DEFINITION. The compositors' memory: the address spaces of Table 7.3, loads, stores and atomics (R167, R168), and the
words of a Stream Table entry (Table 11.1).
-/
namespace Sys2Proof.Machine

/-! ### Stream Table words -/

def StreamSt.code : StreamSt → Nat
  | .free => 0 | .prefill => 1 | .decode => 2 | .parked => 3 | .moving => 4

/-- The eight words of a Stream Table entry (Table 11.1). -/
def StreamEntry.words (e : StreamEntry) : List Nat :=
  [ e.fallback.toNat * 2 ^ 48 + e.model.toNat * 2 ^ 32 + e.ctx.toNat * 2 ^ 22 + e.sclass.toNat * 2 ^ 19 +
      b2n e.switched * 2 ^ 18 + b2n e.latency * 2 ^ 17 + e.postn.toNat * 2 ^ 13 + e.st.code,
    e.deadline.toNat,
    e.expect.toNat * 2 ^ 35 + e.maxLen.toNat * 2 ^ 18 + e.pos.toNat,
    e.stopset.toNat * 2 ^ 48 + e.btab.toNat,
    e.gen.toNat * 2 ^ 48 + e.tokLog.toNat,
    e.outRing.toNat * 2 ^ 56 + e.prompt.toNat * 2 ^ 39 + e.cookie.toNat,
    e.lastTime.toNat,
    b2n e.stopReq * 2 ^ 63 + e.user.toNat ]

/-- The 64 bytes of an entry. -/
def StreamEntry.bytes (e : StreamEntry) : List Byte := e.words.flatMap (leBytes 8)

/-- Store into word 7, the one word a compositor writes (R267). -/
def StreamEntry.setWord7 (e : StreamEntry) (v : W64) : StreamEntry :=
  { e with stopReq := v.getLsbD 63, user := v.extractLsb' 0 63 }

/-! ### Where an access goes -/

/-- The place of a compositor access. -/
inductive Place where
  | va (a : Nat)
  | platen (pt off : Nat)
  | shared (stack off : Nat)
  | entry (index byte : Nat)
  deriving DecidableEq, Repr

/-- The page of a context address is pinned to a stack. -/
def Ctx.pinnedTo (x : Ctx) (va stack : Nat) : Bool :=
  match x.page va with
  | some p => decide (p.attr.place.toNat = stack)
  | none => false

/-- The logits ring's bounds on a stack of the die (stack map region 0, R107). -/
def Chip.ringBounds (c : Chip) (d : Die) (q sp : Nat) : Bounds :=
  match c.stream d q with
  | some s => (tget [] s.image.stks sp).getD 0 {}
  | none => {}

/-- Table 7.3: the place an address of `n` bytes names, for a thread at a LOC; none is an address fault. -/
def Chip.place (c : Chip) (r : ThreadRef) (t : Thread) (a n : Nat) (store : Bool) : Option Place :=
  if a % n ≠ 0 then none else
  let x := c.ctxOf r.die t.part
  match bits a 63 60 with
  | 0 =>
    if bits a 59 48 ≠ 0 then none
    else if r.loc ≠ 0 && !(c.ctx x).pinnedTo a (r.die.num * 4 + (r.loc - 1)) then none
    else some (.va a)
  | 1 =>
    let pt := bits a 53 48
    let off := bits a 22 0
    if r.loc ≠ 0 ∨ bits a 59 54 ≠ 0 ∨ bits a 47 23 ≠ 0 then none
    else if ((c.platen r.die pt).regions.getD 5 {}).holds off n then some (.platen pt off)
    else none
  | 2 =>
    let sp := if r.loc = 0 then bits a 49 48 else r.loc - 1
    let off := bits a 24 0
    if bits a 59 50 ≠ 0 ∨ bits a 47 25 ≠ 0 then none
    else if sharedBytes < off + n then none
    else if (c.ringBounds r.die t.part sp).meets off n then none
    else some (.shared (r.die.num * 4 + sp) off)
  | 3 =>
    let i := r.die.num * 32768 + bits a 20 6
    let b := bits a 5 0
    if r.loc ≠ 0 ∨ bits a 59 21 ≠ 0 then none
    else
      let e := c.entry i
      if e.st = .free ∨ e.ctx.toNat ≠ x then none
      else if store && decide (b < 56) then none
      else some (.entry i b)
  | _ => none

/-- A load of `n` bytes at a place. -/
def Chip.placeRead (c : Chip) (x : Nat) (d : Die) (n : Nat) : Place → Chip × Except AccFault (List Byte)
  | .va a => c.readVa x a n
  | .platen pt off => (c, .ok (mread c.platenMem (platenKey d pt off) n))
  | .shared st off => (c, .ok (mread c.sharedMem (sharedKey st off) n))
  | .entry i b => (c, .ok (((c.entry i).bytes.drop b).take n))

/-- A store of bytes at a place. -/
def Chip.placeWrite (c : Chip) (x : Nat) (d : Die) (bs : List Byte) : Place → Chip × Option AccFault
  | .va a => c.writeVa x a bs
  | .platen pt off => ({ c with platenMem := mwrite c.platenMem (platenKey d pt off) bs }, none)
  | .shared st off => ({ c with sharedMem := mwrite c.sharedMem (sharedKey st off) bs }, none)
  | .entry i b =>
    let old := ((c.entry i).bytes.drop 56).take 8
    let new := old.take (b - 56) ++ bs ++ old.drop (b - 56 + bs.length)
    (c.modEntry i (fun e => e.setWord7 (BitVec.ofNat 64 (leNat new))), none)

/-- The address fault of an access that breaks Table 7.3 or its alignment. -/
def addrFault (a : Nat) : AccFault := ⟨faultAddr, BitVec.ofNat 52 a⟩

/-- A load: the data come back in the register, the thread waits for it (R159). -/
def Chip.load (c : Chip) (r : ThreadRef) (t : Thread) (d : Reg) (a n : Nat) : Chip :=
  match c.place r t a n false with
  | none => c.memFault r t (addrFault a)
  | some p =>
    let v := c.placeRead (c.ctxOf r.die t.part) r.die n p
    match v.2 with
    | .error f => v.1.memFault r t f
    | .ok bs => v.1.setThread r (some { t.result d (BitVec.ofNat 64 (leNat bs)) {} with wait := .memory })

/-- The bytes of a place as an op's writes are noted; a Stream Table entry is none of them. -/
def Place.out (tid n : Nat) : Place → Option Out
  | .va a => some { space := 0, addr := a, len := n, tid := some tid }
  | .platen pt off => some { space := 1, addr := pt * 2 ^ 23 + off, len := n, tid := some tid }
  | .shared st off => some { space := 2, addr := st % 4 * 2 ^ 25 + off, len := n, tid := some tid }
  | .entry _ _ => none

/-- Two units name one place by a SPACE and an address: stores lie on one die, context memory is shared (R167). -/
def Out.meets (x : Out) (y : Out) (sameDie : Bool) (i : Nat) : Bool :=
  decide (x.space = y.space) && (sameDie || decide (x.space = 0)) && decide (x.addr ≤ y.addr + i) && decide (y.addr + i < x.addr + x.len)

/-- Another thread has stored to byte `i` of an access with neither an atomic nor a semaphore between its store and this thread
(R168): the storing thread made no such operation after it, or this thread none since then.
DEDUCED: log entry 85. -/
def Chip.races (c : Chip) (r : ThreadRef) (t : Thread) (y : Out) (i : Nat) : Bool :=
  [Die.w, Die.e].any (fun d => (List.range 8).any (fun k =>
    match c.op { die := d, part := t.part, pos := 118 + k } with
    | none => false
    | some o => o.outs.any (fun x =>
        x.tid.isSome && !(decide (d = r.die) && decide (k = t.spawn) && decide (x.tid = some t.tid)) && x.meets y (decide (d = r.die)) i &&
        (match x.released with | some n => decide (t.acquired < n) | none => true))))

/-- The bytes a store leaves: a byte that two threads race for is a free byte (R168). -/
def Chip.stored (c : Chip) (r : ThreadRef) (t : Thread) (y : Out) (bs : List Byte) : Chip × List Byte :=
  let f := c.freeBytes bs.length
  if (List.range bs.length).any (c.races r t y) then
    (f.2, bs.zipIdx.map (fun b => if c.races r t y b.2 then f.1.getD b.2 0 else b.1))
  else (c, bs)

/-- A store at a place, noted among the writes of the thread's spawn; the thread waits where a migration copies the page (R101). -/
def Chip.storeAt (c : Chip) (r : ThreadRef) (t t' : Thread) (p : Place) (bs : List Byte) : Chip :=
  let x := c.ctxOf r.die t.part
  match p.out t.tid bs.length with
  | none => (c.placeWrite x r.die bs p).1.setThread r (some t')
  | some y =>
    if decide (y.space = 0) && c.copying x y.addr y.len then c.setThread r (some { t with wait := .memory }) else
    let b := c.stored r t y bs
    let w := b.1.placeWrite x r.die b.2 p
    match w.2 with
    | some f => w.1.memFault r t f
    | none => (w.1.modOp (t.unit r.die) (fun o => { o with outs := o.outs ++ [y] })).setThread r (some t')

/-- A store. -/
def Chip.store (c : Chip) (r : ThreadRef) (t : Thread) (a n : Nat) (v : W64) : Chip :=
  match c.place r t a n true with
  | none => c.memFault r t (addrFault a)
  | some p => c.storeAt r t t.advance p (leBytes n v.toNat)

/-- An atomic: reads 64 bits, stores what `f` gives for them, returns them in the register. -/
def Chip.atomic (c : Chip) (r : ThreadRef) (t : Thread) (d : Reg) (a : Nat) (f : W64 → Option W64) : Chip :=
  match c.place r t a 8 true with
  | none => c.memFault r t (addrFault a)
  | some p =>
    let v := c.placeRead (c.ctxOf r.die t.part) r.die 8 p
    match v.2 with
    | .error e => v.1.memFault r t e
    | .ok bs =>
      let old : W64 := BitVec.ofNat 64 (leNat bs)
      let c := v.1.synced r.die t
      let t := { t with acquired := c.syncs }
      let t' := { t.result d old {} with wait := .memory }
      match f old with
      | none => c.setThread r (some t')
      | some new => c.storeAt r t t' p (leBytes 8 new.toNat)

/-- The address a + IMM. -/
def Thread.ea (t : Thread) (a : Reg) (imm : BitVec 13) : Nat := (t.reg a + imm64 imm).toNat

def execLd64 (t : ThreadRef) (d a : Reg) (imm : BitVec 13) (s : State) : Host.Outcome State Fault Refusal :=
  s.run (fun c => c.issue t (cword 0x40 d a 0 imm.toNat) (fun c x => c.load t x d (x.ea a imm) 8))
def execSt64 (t : ThreadRef) (a b : Reg) (imm : BitVec 13) (s : State) : Host.Outcome State Fault Refusal :=
  s.run (fun c => c.issue t (cword 0x41 0 a b imm.toNat) (fun c x => c.store t x (x.ea a imm) 8 (x.reg b)))
def execLd32 (t : ThreadRef) (d a : Reg) (imm : BitVec 13) (s : State) : Host.Outcome State Fault Refusal :=
  s.run (fun c => c.issue t (cword 0x42 d a 0 imm.toNat) (fun c x => c.load t x d (x.ea a imm) 4))
def execSt32 (t : ThreadRef) (a b : Reg) (imm : BitVec 13) (s : State) : Host.Outcome State Fault Refusal :=
  s.run (fun c => c.issue t (cword 0x43 0 a b imm.toNat) (fun c x => c.store t x (x.ea a imm) 4 (x.reg b)))
def execLd8 (t : ThreadRef) (d a : Reg) (imm : BitVec 13) (s : State) : Host.Outcome State Fault Refusal :=
  s.run (fun c => c.issue t (cword 0x44 d a 0 imm.toNat) (fun c x => c.load t x d (x.ea a imm) 1))
def execSt8 (t : ThreadRef) (a b : Reg) (imm : BitVec 13) (s : State) : Host.Outcome State Fault Refusal :=
  s.run (fun c => c.issue t (cword 0x45 0 a b imm.toNat) (fun c x => c.store t x (x.ea a imm) 1 (x.reg b)))
def execAadd (t : ThreadRef) (d a b : Reg) (s : State) : Host.Outcome State Fault Refusal :=
  s.run (fun c => c.issue t (cword 0x46 d a b 0) (fun c x => c.atomic t x d (x.reg a).toNat (fun v => some (v + x.reg b))))
def execAcas (t : ThreadRef) (d a b : Reg) (s : State) : Host.Outcome State Fault Refusal :=
  s.run (fun c => c.issue t (cword 0x47 d a b 0) (fun c x => c.atomic t x d (x.reg a).toNat (fun v => if v = x.reg d then some (x.reg b) else none)))

end Sys2Proof.Machine
end

