-- ==== Sys2Proof/Machine/Debug.lean ====
section
/-!
DEFINITION. A die's debug registers and the unlock exchange: halt, step, resume, memory access (R398 to R403).
-/
namespace Sys2Proof.Machine

/-! ### Halting (R398, R400) -/

/-- A write of DBG_CTRL.HALT: 1 asks for a halt at the next beat boundary, 0 resumes the die and ends what CAUSE records. -/
def Chip.dbgHalt (c : Chip) (d : Die) (halt : Bool) : Chip :=
  if halt then
    if (c.die d).dbg.halt then c else c.modDie d (fun m => m.debugHit 1 0 m.ridge true)
  else
    (c.modDie d (fun m => { m with dbg := { m.dbg with halt := false, halted := false, stepsLeft := 0, cause := 0, index := 0, hitTime := 0 } })).showHalt d

def execDbgHalt (die : Die) (halt : Bool) (s : State) : Host.Outcome State Fault Refusal := s.run (fun c => c.dbgHalt die halt)

/-- A write of DBG_STEP: on a halted die, that many beat boundaries will run. -/
def Chip.dbgStep (c : Chip) (d : Die) (n : Byte) : Chip :=
  c.modDie d (fun m => { m with dbg := { m.dbg with stepReg := n, stepsLeft := if m.dbg.halted then n else m.dbg.stepsLeft } })

def execDbgStep (die : Die) (n : Byte) (s : State) : Host.Outcome State Fault Refusal := s.run (fun c => c.dbgStep die n)

/-- A write of DBG_CRESUME: threads stopped at the breakpoint go on past it. -/
def Chip.dbgResume (c : Chip) (d : Die) (bp : BitVec 6) : Chip :=
  c.modDie d (fun m => { m with
    dbg := { m.dbg with cresume := bp }
    threads := tmap none (fun _ t => t.map (fun (x : Thread) =>
      if x.wait = .breakpoint bp.toNat then { x with wait := .ready, pass := true } else x)) m.threads })

def execDbgCresume (die : Die) (bp : BitVec 6) (s : State) : Host.Outcome State Fault Refusal := s.run (fun c => c.dbgResume die bp)

/-! ### Memory access (R402) -/

/-- Fields of DBG_MADDR. -/
def Dbg.space (g : Dbg) : Nat := bits g.maddr.toNat 63 60
def Dbg.ctxNo (g : Dbg) : Nat := bits g.maddr.toNat 59 50
def Dbg.addr (g : Dbg) : Nat := bits g.maddr.toNat 49 3 * 8

/-- A page that holds a device address: context, page, copy (true for B), page offset. -/
structure Owner where
  ctx : Nat
  vp : Nat
  page : Page
  useB : Bool
  po : Nat
  deriving DecidableEq, Repr

/-- The mapped page of some context whose copy a device address lies in. -/
def Chip.ownerOf (c : Chip) (a : Nat) : Option Owner :=
  c.ctxs.findSome? (fun kv => kv.2.pages.findSome? (fun pg =>
    match pg.2 with
    | none => none
    | some p =>
      if p.granted || p.spilled then none else
      match p.copyA.poOf a with
      | some po => some { ctx := kv.1, vp := pg.1, page := p, useB := false, po := po }
      | none =>
        match p.copyB with
        | none => none
        | some k => (k.poOf a).map (fun po => { ctx := kv.1, vp := pg.1, page := p, useB := true, po := po })))

/-- The owner of a context virtual address in the pages the context reads. -/
def Chip.ownerVa (c : Chip) (n va : Nat) : Option Owner :=
  ((c.ctx n).page va).map (fun p =>
    { ctx := n, vp := va / pageSize, page := p, useB := p.useB (c.ctx n) .active, po := va % pageSize })

/-- The tweak of a page's unit (R324). -/
def Owner.tweak (o : Owner) : Nat :=
  let unit := (o.vp * pageSize + o.po) / 256
  if o.page.model.isSome && decide (o.page.attr.keysel = true) then unit + 2 ^ 57 else unit + (if o.useB then 2 ^ 56 else 0)

/-- One byte of a page: decrypted when unlocked, its ciphertext while locked.
DESIGN CHOICE: log entry 8. -/
def Chip.ownedByte (c : Chip) (o : Owner) (unlocked : Bool) (i : Nat) : Byte :=
  let k := o.page.copy o.useB
  let po := o.po + i
  if unlocked then c.peekCopy k po
  else Config.cipherByte o.page.key o.tweak (po % 256) ((List.range 16).map (fun j => mget c.dram (k.dev (po / 16 * 16 + j))))

/-- Eight bytes of a page, or free bytes where no page lies. -/
def Chip.ownedRead (c : Chip) (o : Option Owner) : Chip × List Byte :=
  match o with
  | some o => (c, (List.range 8).map (fun i => c.ownedByte o c.port.unlocked i))
  | none => let f := c.freeBytes 8; (f.2, f.1)

/-- A read of DBG_MDATA_RD: stack spaces give ciphertext while locked, SRAM spaces zero.
DEDUCED: log entry 59. -/
def Chip.mdataRead (c : Chip) (d : Die) : Chip × List Byte :=
  let g := (c.die d).dbg
  let a := g.addr
  let zero : List Byte := List.replicate 8 0
  let sram (bs : List Byte) : Chip × List Byte := (c, if c.port.unlocked then bs else zero)
  match g.space with
  | 0 => c.ownedRead (c.ownerOf a)
  | 1 => c.ownedRead (c.ownerVa g.ctxNo a)
  | 2 => sram (if bits a 22 0 < platenBytes then mread c.platenMem (platenKey d (bits a 28 23) (bits a 22 0)) 8 else zero)
  | 3 => sram (if bits a 31 0 < sharedBytes then mread c.sharedMem (sharedKey (bits a 34 32) (bits a 31 0)) 8 else zero)
  | 4 => if c.port.unlocked then let f := c.freeBytes 8; (f.2, f.1) else (c, zero)
  | 5 => sram (((c.entry (d.num * 32768 + a / 64 % 32768)).bytes.drop (a % 64)).take 8)
  | _ => (c, zero)

/-- DBG_MDATA_RD. -/
def execDbgMdataRd (die : Die) (s : State) : Host.Outcome State Fault Refusal :=
  s.run (fun c => let r := c.mdataRead die; { r.1 with rdata := r.2 })

/-- A Stream Table entry with one of its words replaced (Table 11.1). -/
def StreamEntry.setWord (e : StreamEntry) (k v : Nat) : StreamEntry :=
  match k with
  | 0 => { e with fallback := BitVec.ofNat 16 (bits v 63 48), model := BitVec.ofNat 16 (bits v 47 32), ctx := BitVec.ofNat 10 (bits v 31 22)
                  sclass := BitVec.ofNat 3 (bits v 21 19), switched := bit v 18, latency := bit v 17, postn := BitVec.ofNat 4 (bits v 16 13)
                  st := match bits v 2 0 with | 0 => .free | 1 => .prefill | 2 => .decode | 3 => .parked | 4 => .moving | _ => e.st }
  | 1 => { e with deadline := BitVec.ofNat 64 v }
  | 2 => { e with expect := BitVec.ofNat 17 (bits v 51 35), maxLen := BitVec.ofNat 17 (bits v 34 18), pos := BitVec.ofNat 18 v }
  | 3 => { e with stopset := BitVec.ofNat 16 (bits v 63 48), btab := BitVec.ofNat 48 v }
  | 4 => { e with gen := BitVec.ofNat 16 (bits v 63 48), tokLog := BitVec.ofNat 48 v }
  | 5 => { e with outRing := BitVec.ofNat 8 (bits v 63 56), prompt := BitVec.ofNat 17 (bits v 55 39), cookie := BitVec.ofNat 32 v }
  | 6 => { e with lastTime := BitVec.ofNat 64 v }
  | _ => e.setWord7 (BitVec.ofNat 64 v)

/-- Store eight bytes in a page. -/
def Chip.ownedWrite (c : Chip) (o : Option Owner) (bs : List Byte) : Chip :=
  match o with
  | some o => c.pokePiece o.ctx o.useB (o.vp * pageSize + o.po) bs
  | none => c

/-- A write of DBG_MDATA_WR: refused while locked. -/
def Chip.mdataWrite (c : Chip) (d : Die) (data : W64) : Chip :=
  let g := (c.die d).dbg
  let a := g.addr
  let bs := leBytes 8 data.toNat
  if !c.port.unlocked then c.modDie d (fun m => { m with dbg := { m.dbg with mrefused := true, mdataWr := data } })
  else
    let c := c.modDie d (fun m => { m with dbg := { m.dbg with mdataWr := data } })
    match g.space with
    | 0 => c.ownedWrite (c.ownerOf a) bs
    | 1 => c.ownedWrite (c.ownerVa g.ctxNo a) bs
    | 2 => if bits a 22 0 < platenBytes then { c with platenMem := mwrite c.platenMem (platenKey d (bits a 28 23) (bits a 22 0)) bs } else c
    | 3 => if bits a 31 0 < sharedBytes then { c with sharedMem := mwrite c.sharedMem (sharedKey (bits a 34 32) (bits a 31 0)) bs } else c
    | 5 => c.modEntry (d.num * 32768 + a / 64 % 32768) (fun e => e.setWord (a % 64 / 8) data.toNat)
    | _ => c

def execDbgMdataWr (die : Die) (data : W64) (s : State) : Host.Outcome State Fault Refusal := s.run (fun c => c.mdataWrite die data)

/-! ### The unlock exchange (R403) -/

/-- DBGKEY of generation 0 of the primary's copy (R385). -/
def Boot.dbgKey (b : Boot) : BitVec 256 := ((match b.prim with | .w => b.colW | .e => b.colE).getD 0 {}).dbgKey

/-- IDENT's serial number, of generation 0 of the primary's copy. -/
def Boot.ident0 (b : Boot) : ColGen := (match b.prim with | .w => b.colW | .e => b.colE).getD 0 {}

/-- Every attempt is refused: no key, or three wrong responses since reset. -/
def Chip.unlockShut (c : Chip) : Bool := decide (c.boot.dbgKey = 0) || decide (c.port.fails = 3)

/-- PHASE 0: a challenge of 16 random bytes, the low half of the serial number and the Ridge time; false when refused. -/
def Chip.challenge (c : Chip) : Chip × Bool :=
  if c.unlockShut then ({ c with port := { c.port with result := 3 } }, false) else
  let a := c.draw
  let b := a.2.draw
  let bytes := leBytes 8 a.1.toNat ++ leBytes 8 b.1.toNat ++ leBytes 8 (c.boot.ident0.serial.toNat % 2 ^ 64) ++ leBytes 8 c.now.toNat
  ({ b.2 with port := { b.2.port with challenge := bytes, chalTime := c.now, result := 1 } }, true)

/-- A challenge is live: issued less than 60 s ago and not yet answered. -/
def Chip.challengeLive (c : Chip) : Bool := !c.port.challenge.isEmpty && decide (c.now.toNat < c.port.chalTime.toNat + 60000000000)

/-- PHASE 1: one response to the live challenge; false when refused. -/
def Chip.respond (c : Chip) (resp : List Byte) : Chip × Bool :=
  let shut := c.unlockShut || !c.challengeLive
  let p := c.port
  if shut then ({ c with port := { p with result := 3, challenge := [] } }, false)
  else if resp = hmac (leBytes 32 c.boot.dbgKey.toNat) p.challenge then
    ({ c with port := { p with result := 2, challenge := [], unlocked := true } }, true)
  else ({ c with port := { p with result := 3, challenge := [], fails := p.fails + 1 } }, false)

/-- DEBUG_UNLOCK. -/
def execDebugUnlock (h : Hdr) (phase : Bool) (ha : W64) (resp : List Byte) (s : State) : Host.Outcome State Fault Refusal :=
  s.run (fun c => c.command h true true (fun c =>
    if phase then
      let r := c.respond resp
      r.1.done h (if r.2 then 0 else 0x0604) 0 0
    else
      let r := c.challenge
      if r.2 then ({ r.1 with host := mwrite r.1.host ha.toNat r.1.port.challenge }).ok h 0 else r.1.done h 0x0604 0 0))

/-- UNLOCK_CHALLENGE: a write of 1 to DBG_UNLOCK.CMD. -/
def Chip.unlockChallenge (c : Chip) : Chip := ({ c with port := { c.port with cmd := 1 } }).challenge.1
def execUnlockChallenge (s : State) : Host.Outcome State Fault Refusal := s.run (fun c => c.unlockChallenge)

/-- UNLOCK_RESPONSE: a write of 2 to DBG_UNLOCK.CMD submits DBG_RESP. -/
def Chip.unlockResponse (c : Chip) : Chip :=
  ({ c with port := { c.port with cmd := 2 } }).respond ((List.range 4).flatMap (fun i => leBytes 8 (tget 0 c.port.resp i : W64).toNat)) |>.1
def execUnlockResponse (s : State) : Host.Outcome State Fault Refusal := s.run (fun c => c.unlockResponse)

/-- CHALLENGE_LAPSE: 60 s after a challenge was issued. -/
def execChallengeLapse (s : State) : Host.Outcome State Fault Refusal :=
  s.run (fun c =>
    if c.port.challenge.isEmpty ∨ c.challengeLive then c
    else { c with port := { c.port with challenge := [], result := if c.port.result = 1 then 0 else c.port.result } })

end Sys2Proof.Machine
end

