-- ==== Sys2Proof/Machine/Images.lean ====
section
/-!
DEFINITION. Imposition and model images: the container and its checks, the per-die tables, IMP_LOAD, MODEL_LOAD, the model
cache (R68, R86, R235, R255, R282, R283, R359 to R363).
-/
namespace Sys2Proof.Machine

/-- A directory entry (Table 14.14); `dir` is its own byte offset. -/
structure Section where
  dir : Nat
  type : Nat
  die : Nat
  place : Nat
  paired : Nat
  off : Nat
  size : Nat
  va : Nat
  deriving DecidableEq, Repr, Inhabited

def sectionAt (img : List Byte) (i : Nat) : Section :=
  let d := 128 + 32 * i
  { dir := d, type := imgNum img d 2, die := imgNum img (d + 2) 1, place := imgNum img (d + 3) 1, paired := imgNum img (d + 4) 2,
    off := imgNum img (d + 8) 8, size := imgNum img (d + 16) 8, va := imgNum img (d + 24) 8 }

/-- The directory of an image. -/
def sectionsOf (img : List Byte) : List Section := (List.range (imgNum img 4 4)).map (sectionAt img)

/-- The contents of a section. -/
def Section.bytes (s : Section) (img : List Byte) : List Byte := (img.drop s.off).take s.size

/-- A section is placed at its VA: all of an imposition image, the weights and data of a model image. -/
def Section.placed (s : Section) : Bool := decide (s.type ≤ 0x10)

def Section.isWeight (s : Section) : Bool := decide (s.type = 0x10)
def Section.isPaired (s : Section) : Bool := s.isWeight && bit s.paired 15
def Section.pset (s : Section) : Nat := bits s.paired 11 0
def Section.array (s : Section) : Nat := bits s.paired 14 12

/-- Two byte ranges meet. -/
def overlap (a n b m : Nat) : Bool := decide (a < b + m) && decide (b < a + n)

/-- The first of a list that meets an earlier one. -/
def firstClash (f : Section → Section → Bool) : List Section → List Section → Option Section
  | _, [] => none
  | done, s :: t => if done.any (fun x => f x s) then some s else firstClash f (done ++ [s]) t

/-! ### The container (R359) -/

/-- Checks 1 to 4 of R359: the byte offset of the failing field. -/
def headCheck (img : List Byte) (kind bytes : Nat) : Option Nat :=
  let ctrl := imgNum img 0 4
  if ctrl % 16 ≠ 1 ∨ ctrl / 16 % 16 ≠ 1 then some 0
  else if ctrl / 256 % 16 ≠ kind then some 0
  else if imgNum img 8 8 ≠ bytes ∨ img.length ≠ bytes ∨ bytes < 128 then some 8
  else if imgNum img 4 4 = 0 ∨ 256 < imgNum img 4 4 then some 4
  else if imgNum img 16 4 ≠ (crc32 (img.drop 128)).toNat then some 16
  else none

/-- A directory entry's own fields: types of the image's kind, DIE, PLACE, PAIRED, reserved bits, ranges. -/
def Section.check (kind bytes sections : Nat) (img : List Byte) (s : Section) : Option Nat :=
  let types := if kind = 1 then [1, 2, 3, 4, 5, 6, 7, 8] else [0x08, 0x10, 0x11, 0x12, 0x13]
  if !types.contains s.type then some s.dir
  else if (s.type ≤ 7 ∧ 1 < s.die) ∨ (7 < s.type ∧ s.die ≠ 2) then some (s.dir + 2)
  else if (s.isWeight ∧ 8 < s.place) ∨ (!s.isWeight ∧ s.place ≠ 0) then some (s.dir + 3)
  else if (s.isPaired ∧ 5 < s.array) ∨ (!s.isPaired ∧ s.paired ≠ 0) then some (s.dir + 4)
  else if imgNum img (s.dir + 6) 2 ≠ 0 then some (s.dir + 6)
  else if s.off % 256 ≠ 0 ∨ s.off < 128 + 32 * sections then some (s.dir + 8)
  else if s.size = 0 ∨ bytes < s.off + s.size then some (s.dir + 16)
  else if s.va % 256 ≠ 0 ∨ 2 ^ 48 ≤ s.va ∨ (s.placed ∧ 2 ^ 48 < s.va + s.size) then some (s.dir + 24)
  else none

/-- Check 5 of R359 and the rules of the directory. -/
def dirCheck (img : List Byte) (kind bytes : Nat) : Option Nat :=
  let ctrl := imgNum img 0 4
  let n := imgNum img 4 4
  let ss := sectionsOf img
  if ctrl / 2 ^ 13 ≠ 0 ∨ (kind = 1 ∧ bit ctrl 12) then some 0
  else if imgNum img 20 4 ≠ 0 then some 20
  else if 2 ^ 48 ≤ imgNum img 24 8 ∨ imgNum img 24 8 % pageSize ≠ 0 then some 24
  else if kind = 1 ∧ ((img.drop 32).take 96).any (fun b => decide (b ≠ 0)) then some 32
  else
    match ss.findSome? (Section.check kind bytes n img) with
    | some x => some x
    | none =>
      match firstClash (fun a b => overlap a.off a.size b.off b.size) [] ss with
      | some s => some (s.dir + 8)
      | none => (firstClash (fun a b => overlap a.va a.size b.va b.size) [] (ss.filter Section.placed)).map (fun s => s.dir + 24)

/-! ### Per-die tables (R360) -/

/-- Region bounds of eight words pairs, as 4 KiB counts; none when a word is no multiple of 4 KiB. -/
def boundsOf (unit : Nat) (bs : List Byte) (n : Nat) : List Bounds :=
  (List.range n).map (fun i => { base := imgNum bs (8 * i) 4 / unit, limit := imgNum bs (8 * i + 4) 4 / unit })

/-- Non-empty regions are apart from one another. -/
def apart : List Bounds → Bool
  | [] => true
  | b :: t => (decide (b.base = b.limit) || t.all (fun x => decide (x.base = x.limit) || decide (b.limit ≤ x.base) || decide (x.limit ≤ b.base))) && apart t

/-- One platen's entry of the platen map (R68, R145, Table 14.15). -/
def platenEntryOk (bs : List Byte) : Bool :=
  let words := (List.range 14).map (fun i => imgNum bs (4 * i) 4)
  let rs := boundsOf 4096 bs 7
  let g := rs.getD 5 {}
  let e := rs.getD 6 {}
  words.all (fun w => decide (w % 4096 = 0) && decide (w ≤ 0x600000)) && decide (imgNum bs 56 8 = 0) &&
  rs.all (fun r => decide (r.base ≤ r.limit)) && apart (rs.take 6) &&
  (rs.take 4).all (fun r => decide (r.base = r.limit) || decide (2 ≤ r.limit - r.base)) &&
  (decide (e.base = e.limit) || (decide (g.base ≤ e.base) && decide (e.limit ≤ g.limit)))

/-- One stack's entry of the stack map (R86, R107). -/
def stackEntryOk (bs : List Byte) : Bool :=
  let rs := boundsOf 1 bs 4
  rs.all (fun r => decide (r.base ≤ r.limit) && decide (r.limit ≤ 6144)) && apart rs && ((bs.drop 32).take 32).all (fun b => decide (b = 0))

/-- A byte at a virtual address as the sections of an image hold it. -/
def sectionByte (img : List Byte) (ss : List Section) (va : Nat) : Option Byte :=
  (ss.find? (fun s => decide (s.va ≤ va) && decide (va < s.va + s.size))).bind (fun s => img[s.off + (va - s.va)]?)

/-- The bytes of a participant list: from the image's sections when they cover them, else from context memory (R235). -/
def Chip.plistBytes (c : Chip) (n : Nat) (img : List Byte) (va len : Nat) : Option (List Byte) :=
  match (List.range len).mapM (fun i => sectionByte img (sectionsOf img) (va + i)) with
  | some bs => some bs
  | none => c.fetchVa n va len

/-- A non-empty group entry of a die; none when it breaks R235. -/
def Chip.groupOf (c : Chip) (n : Nat) (img : List Byte) (d : Die) (bs : List Byte) : Option Group :=
  let lo := imgNum bs 0 8
  let hi := imgNum bs 8 8
  let p := bits lo 10 0
  let l0 := bits lo 21 11
  let l1 := bits lo 32 22
  let l2 := bits lo 43 33
  let va := hi % 2 ^ 48
  if 1024 < p ∨ lo / 2 ^ 44 ≠ 0 ∨ hi / 2 ^ 48 ≠ 0 ∨ va % 64 ≠ 0 ∨ l0 = 0 ∨ l1 = 0 ∨ l2 = 0 ∨ p % (l0 * l1 * l2) ≠ 0 then none else
  match c.plistBytes n img va (2 * p) with
  | none => none
  | some b =>
    let l : List W16 := (List.range p).map (fun i => BitVec.ofNat 16 (imgNum b (2 * i) 2))
    let self := c.domain.moduleId.toNat + 2 ^ 10 * d.num
    if l.all (fun e => decide (e.toNat < 2 ^ 11)) && decide (l.eraseDups.length = l.length) && l.any (fun e => decide (e.toNat = self)) then
      some { p := p, l0 := l0, l1 := l1, l2 := l2, low := BitVec.ofNat 64 lo, plist := l }
    else none

/-- The section of a type for a die. -/
def tableOf (ss : List Section) (type die : Nat) : Option Section := ss.find? (fun s => decide (s.type = type) && decide (s.die = die))

/-- The bytes of a die's table; an absent one is empty. -/
def tableBytes (img : List Byte) (ss : List Section) (type die : Nat) : List Byte :=
  match tableOf ss type die with | some s => s.bytes img | none => []

/-- Sizes of tables 0x02 to 0x07 (Table 14.15). -/
def tableSizeOk (type size : Nat) : Bool :=
  match type with
  | 2 => decide (size % 8 = 0) && decide (size ≤ 8 * 65536)
  | 3 => decide (size % 16 = 0) && decide (size ≤ 16 * 61440)
  | 4 => decide (size = 4096)
  | 5 => decide (size = 256)
  | 6 => decide (size % 16 = 0) && decide (size ≤ 16 * 4096)
  | 7 => decide (size = 2048)
  | _ => true

/-- The first entry of a table that a test refuses: its byte offset in the image. -/
def badEntry (s : Option Section) (img : List Byte) (step : Nat) (ok : List Byte → Bool) : Option Nat :=
  match s with
  | none => none
  | some s => ((List.range (s.size / step)).find? (fun i => !ok ((img.drop (s.off + step * i)).take step))).map (fun i => s.off + step * i)

/-- A program table entry is empty or well formed. -/
def progEntryOk (bs : List Byte) : Bool :=
  decide (imgNum bs 8 4 ≤ 65536) && decide (imgNum bs 12 4 = 0) && (decide (imgNum bs 8 4 = 0) || (decide (imgNum bs 0 8 % 4 = 0) && decide (imgNum bs 0 8 < 2 ^ 48)))

/-- A byte of the cause table: two entries from 0 to 6 (R255). -/
def causeByteOk (bs : List Byte) : Bool := let v := imgNum bs 0 1; decide (v % 16 ≤ 6) && decide (v / 16 ≤ 6)

/-- The tables of a die (R360): the offset of what fails. -/
def Chip.dieCheck (c : Chip) (n : Nat) (img : List Byte) (ss : List Section) (d : Die) : Option Nat :=
  let t (k : Nat) : Option Section := tableOf ss k d.num
  badEntry (t 3) img 16 progEntryOk <|> badEntry (t 4) img 64 platenEntryOk <|> badEntry (t 5) img 64 stackEntryOk <|>
  badEntry (t 6) img 16 (fun bs => decide (imgNum bs 0 8 % 2 ^ 11 = 0) || (c.groupOf n img d bs).isSome) <|>
  badEntry (t 7) img 1 causeByteOk

/-- The structure rules of R360: doubled tables, tables without a sheet section, a sheet section without its lists. -/
def shapeCheck (ss : List Section) : Option Nat :=
  let tables := ss.filter (fun s => decide (s.type ≤ 7))
  match firstClash (fun a b => decide (a.type = b.type) && decide (a.die = b.die)) [] tables with
  | some s => some s.dir
  | none =>
    (tables.find? (fun s => (s.type = 1 && (tableOf ss 2 s.die).isNone) || (decide (s.type ≠ 1) && (tableOf ss 1 s.die).isNone))).map (·.dir)
    <|> (tables.find? (fun s => !tableSizeOk s.type s.size)).map (fun s => s.dir + 16)

/-- Every check of an imposition image but HOME: the offset of what fails. -/
def impCheck (img : List Byte) (bytes : Nat) : Option Nat :=
  headCheck img 1 bytes <|> dirCheck img 1 bytes

def Chip.impTables (c : Chip) (n : Nat) (img : List Byte) : Option Nat :=
  let ss := sectionsOf img
  shapeCheck ss <|> c.dieCheck n img ss .w <|> c.dieCheck n img ss .e

/-- The checked tables of one die. -/
def Chip.dieImage (c : Chip) (n : Nat) (img : List Byte) (d : Die) : Option DieImage :=
  let ss := sectionsOf img
  match tableOf ss 1 d.num with
  | none => none
  | some s =>
    let b (k : Nat) : List Byte := tableBytes img ss k d.num
    let dl := b 2
    let pr := b 3
    let pt := b 4
    let st := b 5
    let gr := b 6
    let ca := b 7
    some {
      sheetVa := BitVec.ofNat 48 s.va
      sheetSize := s.size
      dlists := (List.range (dl.length / 8)).foldl (fun t i => tput 0 t i (BitVec.ofNat 64 (imgNum dl (8 * i) 8))) []
      progs := (List.range (pr.length / 16)).foldl (fun t i => tput {} t i { va := BitVec.ofNat 48 (imgNum pr (16 * i) 8), len := imgNum pr (16 * i + 8) 4 }) []
      platens := (List.range (pt.length / 64)).foldl (fun t i => tput [] t i (boundsOf 4096 (pt.drop (64 * i)) 7)) []
      stks := (List.range (st.length / 64)).foldl (fun t i => tput [] t i (boundsOf 1 (st.drop (64 * i)) 4)) []
      groups := (List.range (gr.length / 16)).foldl (fun t i =>
        let e := (gr.drop (16 * i)).take 16
        if imgNum e 0 8 % 2 ^ 11 = 0 then t else match c.groupOf n img d e with | some g => tput {} t i g | none => t) []
      causes := (List.range ca.length).foldl (fun t i =>
        let v := imgNum ca i 1
        tput 0 (tput 0 t (2 * i) (BitVec.ofNat 4 v)) (2 * i + 1) (BitVec.ofNat 4 (v / 16))) [] }

/-- A platen of a die has a non-empty error area (R360). -/
def DieImage.hasErr (i : DieImage) : Bool := i.platens.any (fun kv => let b := kv.2.getD 6 {}; decide (b.base < b.limit))

/-- The kept tables of an image. -/
def Chip.imageOf (c : Chip) (n : Nat) (img : List Byte) : Image :=
  let w := c.dieImage n img .w
  let e := c.dieImage n img .e
  let err (i : Option DieImage) : Bool := match i with | some x => x.hasErr | none => false
  { w := w, e := e, hasErr := err w || err e }

/-- Copy sections to their VAs. -/
def Chip.copySections (c : Chip) (n : Nat) (img : List Byte) (ss : List Section) : Chip :=
  ss.foldl (fun (c : Chip) s => (c.writeVaAs n .load s.va (s.bytes img)).1) c

/-- Every section lies in mapped, writable, unpaired pages of the context (R361). -/
def Chip.homed (c : Chip) (n : Nat) (ss : List Section) : Bool := ss.all (fun s => (c.ctx n).plainRange false s.va s.size)

/-! ### IMP_LOAD (R361) -/

/-- Load an imposition image into a handle. -/
def Chip.impLoadRun (c : Chip) (n : Nat) (p : ImpLoadP) (img : List Byte) : Chip × EndStatus :=
  let reject (off : Nat) : Chip × EndStatus := (c, { status := 0x0104, detail := BitVec.ofNat 32 off })
  match impCheck img p.bytes.toNat with
  | some off => reject off
  | none =>
    if imgNum img 24 8 ≠ p.va.toNat then reject 24 else
    match c.impTables n img with
    | some off => reject off
    | none =>
      let ss := sectionsOf img
      if !c.homed n ss then (c, { status := 0x0111, detail := 1 })
      else
        let i := c.imageOf n img
        let c := c.copySections n img ss
        (c.modCtx n (fun x => { x with handles := tput none x.handles p.handle.toNat (some i) }), { status := 0 })

def execImpLoad (h : Hdr) (p : ImpLoadP) (image : List Byte) (s : State) : Host.Outcome State Fault Refusal :=
  s.run (fun c => c.command h false true (fun c => if !vaOk p.va then c.reserved h 62 else Chip.bulk h (c.impLoadRun h.ctx p image)))

/-! ### Model images (R362) -/

/-- Header fields of Table 14.16: the offset of the first that is out of range or reserved. -/
def modelHead (img : List Byte) : Option Nat :=
  let f := imgNum img
  let fmt := f 41 1
  if f 32 4 = 0 ∨ 1048576 < f 32 4 then some 32
  else if f 36 2 = 0 then some 36
  else if f 38 2 = 0 then some 38
  else if f 40 1 = 0 ∨ 8 < f 40 1 then some 40
  else if fmt % 4 = 0 ∨ 16 ≤ fmt ∨ (32 * f 40 1) % kvGroup (fmt % 4) ≠ 0 then some 41
  else if f 44 1 = 0 ∨ 8 < f 44 1 then some 44
  else if f 45 3 ≠ 0 then some 45
  else if f 56 8 % 256 ≠ 0 ∨ 2 ^ 48 ≤ f 56 8 then some 56
  else if f 64 4 = 0 ∨ 65535 < f 64 4 then some 64
  else if ((img.drop 68).take 60).any (fun b => decide (b ≠ 0)) then some 68
  else none

/-- The header fields kept with a model. -/
def modelHdr (img : List Byte) : ModelHdr :=
  let f := imgNum img
  { vocab := f 32 4, layers := f 36 2, kvHeads := f 38 2, kvd := f 40 1, kvfmt := BitVec.ofNat 8 (f 41 1), selBase := f 42 2,
    sclasses := f 44 1, serveW := BitVec.ofNat 32 (f 48 4), serveE := BitVec.ofNat 32 (f 52 4), batch := BitVec.ofNat 48 (f 56 8),
    decMaxArea := f 64 4 }

/-- Weight rules of R362: a teacher has pinned, unpaired weights only. -/
def teacherCheck (teacher : Bool) (ss : List Section) : Option Nat :=
  if !teacher then none else
  (ss.find? (fun s => s.isWeight && decide (s.place = 8))).map (fun s => s.dir + 3) <|>
  (ss.find? Section.isPaired).map (fun s => s.dir + 4)

/-- The arrays of a PSET that an image holds, by number. -/
def arraysIn (ss : List Section) (ps : Nat) : List Nat := (ss.filter (fun s => s.isPaired && decide (s.pset = ps))).map Section.array

/-- The arrays some rule keeps (Table 9.4), each once. -/
def arraysOk (l : List Nat) : Bool :=
  let has (k : Nat) : Bool := l.contains k
  decide (l.eraseDups.length = l.length) && has 0 && has 1 && (has 2 == has 3) && (has 4 == has 5) && (has 2 || has 4)

/-- Paired sections lie in pages mapped with PAIR and their PSET, each PSET with the arrays its rule keeps. -/
def Chip.pairedCheck (c : Chip) (n : Nat) (ss : List Section) : Option Nat :=
  let ps := ss.filter Section.isPaired
  (ps.find? (fun s => ((c.ctx n).pairedRange s.pset s.va s.size).isSome)).map (fun s => s.dir + 24) <|>
  (ps.find? (fun s => !arraysOk (arraysIn ss s.pset))).map (fun s => s.dir + 4)

/-- An expert map entry: its weight sections are pinned to its stack (R103). -/
def expertOk (ss : List Section) (bs : List Byte) : Bool :=
  let first := imgNum bs 8 4
  let count := imgNum bs 12 4
  decide (imgNum bs 4 1 < 8) && decide (imgNum bs 5 3 = 0) && decide (first + count ≤ ss.length) &&
  ((ss.drop first).take count).all (fun s => s.isWeight && decide (s.place = imgNum bs 4 1))

/-- A router table entry: k from 1 to 8 and no greater than its layer's experts. -/
def routerOk (bs : List Byte) : Bool :=
  let v := imgNum bs 0 8
  let k := bits v 24 21
  decide (1 ≤ k) && decide (k ≤ 8) && decide (1 ≤ bits v 40 25) && decide (k ≤ bits v 40 25) && decide (v / 2 ^ 41 = 0)

/-- Sections of one of the model's own tables: at most one each. -/
def soleTable (ss : List Section) (type : Nat) : Option Nat :=
  (firstClash (fun a b => decide (a.type = type) && decide (b.type = type)) [] ss).map (·.dir)

/-- Every check of a model image (R359, R362): the offset of what fails. -/
def Chip.modelCheck (c : Chip) (n : Nat) (img : List Byte) (bytes : Nat) : Option Nat :=
  match headCheck img 2 bytes <|> dirCheck img 2 bytes <|> modelHead img with
  | some off => some off
  | none =>
    let ss := sectionsOf img
    let t (k : Nat) : Option Section := ss.find? (fun s => decide (s.type = k))
    let entries (k step : Nat) (ok : List Byte → Bool) : Option Nat :=
      match t k with
      | some s => if s.size % step ≠ 0 then some (s.dir + 16) else badEntry (some s) img step ok
      | none => none
    teacherCheck (bit (imgNum img 0 4) 12) ss <|> soleTable ss 0x11 <|> soleTable ss 0x12 <|> soleTable ss 0x13 <|>
    c.pairedCheck n ss <|> entries 0x11 16 (expertOk ss) <|> entries 0x12 8 routerOk

/-! ### The model cache (R282) -/

/-- A model has a stream in state prefill, decode or moving. -/
def Chip.modelActive (c : Chip) (model : W16) : Bool :=
  c.serving.streams.any (fun kv => decide (kv.2.model = model) &&
    (decide (kv.2.st = .prefill) || decide (kv.2.st = .decode) || decide (kv.2.st = .moving)))

/-- The model to evict: unpinned, no active stream, oldest last use, lowest entry. -/
def Chip.victimModel (c : Chip) : Option Nat :=
  let cand := (List.range 16).filter (fun i => let m := c.model i; decide (m.st ≠ 0) && !m.pin && !c.modelActive m.model)
  match cand with
  | [] => none
  | i :: t => some (t.foldl (fun a b => if (c.model b).last.toNat < (c.model a).last.toNat then b else a) i)

/-- The entry a load takes: the lowest empty one, else a victim's. -/
def Chip.modelPlace (c : Chip) : Option (Nat × Chip) :=
  match (List.range 16).find? (fun i => decide ((c.model i).st = 0)) with
  | some i => some (i, c)
  | none => c.victimModel.map (fun i => (i, c.evict i))

/-- The pages of an unpaired section. -/
def Section.vps (s : Section) : List Nat :=
  (List.range ((s.va + s.size - 1) / pageSize + 1 - s.va / pageSize)).map (fun i => s.va / pageSize + i)

/-- Map the pages of a model's unpaired sections that are not mapped yet by this load: weights under the model key,
data under the context key. -/
def Chip.mapSections (c : Chip) (n key hash : Nat) (model : W16) : List Section → Option Chip
  | [] => some c
  | s :: t =>
    let fresh := s.vps.filter (fun vp => (tget none (c.ctx n).pages vp).isNone)
    let a : MapAttr := { place := BitVec.ofNat 4 (if s.isWeight then s.place else 8), salt := 0, keysel := s.isWeight, pair := false, ro := s.isWeight, pset := 0 }
    let k := if s.isWeight then key else (c.ctx n).key
    let g := if s.isWeight then hash else (c.ctx n).hash
    match c.mapMany n a k g (some model) fresh with
    | none => none
    | some c => c.mapSections n key hash model t

/-- Take a KV pool: pinned pages over the stacks in turn for a teacher, interleaved ones for a student (R109, R278). -/
def Chip.takePool (c : Chip) (slot n : Nat) (teacher : Bool) : Nat → Option Chip
  | 0 => some c
  | k + 1 =>
    match c.newCopy (if teacher then k % 8 else 8) 0 (c.ctx n).hash with
    | none => none
    | some (p, c1) =>
      let a : MapAttr := { place := BitVec.ofNat 4 (if teacher then k % 8 else 8), salt := 0, keysel := false, pair := false, ro := false, pset := 0 }
      let g : Page := { attr := a, copyA := p, copyB := none, key := (c.ctx n).key }
      ({ c1 with dram := zeroCopy c1.dram p, ecc := zeroEcc c1.ecc p }.modModel slot (fun m => { m with pool := m.pool ++ [g] })).takePool slot n teacher k

/-- Every partition's use of stack space is within its share, and a need of the load is met; else evict and try again.
DEDUCED: log entry 50. -/
def Chip.fitModel (f : Chip → Option Chip) : Nat → Chip → Option Chip
  | 0, c => f c
  | k + 1, c =>
    match f c with
    | some r => some r
    | none =>
      match c.victimModel with
      | none => none
      | some i => Chip.fitModel f k (c.evict i)

/-- What the context knows of the PSETs a model image brings (R200, R362). -/
def psetsOf (ss : List Section) : List (Nat × PsetInfo) :=
  let ps := ((ss.filter Section.isPaired).map Section.pset).eraseDups
  ps.map (fun p =>
    let s (k : Nat) : Option Section := ss.find? (fun s => s.isPaired && decide (s.pset = p) && decide (s.array = k))
    let sz (k : Nat) : Nat := match s k with | some x => x.size | none => 0
    let n := 2 * sz 0
    let gs := ((List.range 4).find? (fun g => decide (sclGroup g * sz 1 = n) && decide (g ≠ 0))).getD 1
    (p, { p := n, addrs := (List.range 6).map (fun k => match s k with | some x => x.va | none => 0),
          rule := if sz 2 = 0 then 3 else if sz 4 = 0 then 0 else 1, wscl := gs }))

/-- Steps 2 to 5 of R363 in a model-cache entry; none when stack capacity runs out. -/
def Chip.placeModel (n : Nat) (p : ModelLoadP) (img : List Byte) (slot : Nat) (c : Chip) : Option Chip :=
  let ss := sectionsOf img
  let own := ss.filter (fun s => s.placed && !s.isPaired)
  let teacher := bit (imgNum img 0 4) 12
  let k := c.newKey
  let g := k.2.newHash
  match g.2.mapSections n k.1 g.1 p.model own with
  | none => none
  | some c =>
    let entry : ModelEntry :=
      { model := p.model, st := 2, pin := p.pin, teacher := teacher, last := c.now, key := k.1, hash := g.1, owner := n, hdr := modelHdr img,
        pages := (own.flatMap Section.vps).eraseDups, experts := match ss.find? (fun s => decide (s.type = 0x11)) with | some s => s.bytes img | none => [],
        routers := match ss.find? (fun s => decide (s.type = 0x12)) with | some s => s.bytes img | none => [] }
    match (c.modModel slot (fun _ => entry)).takePool slot n teacher p.kvPages.toNat with
    | none => none
    | some c =>
      if !c.withinShare (c.ctx n).part then none else
      let c := (c.copySections n img (own ++ ss.filter Section.isPaired))
      let c := c.modModel slot (fun m => { m with freeBlocks := poolBlocks m.hdr.blockBytes m.pool })
      some (c.modCtx n (fun x => { x with psets := (psetsOf ss).foldl (fun t y => tput {} t y.1 y.2) x.psets
                                          train := { x.train with since := some 0 } }))

/-- The serving image of a model image, as bytes. -/
def servingImage (img : List Byte) : Option (List Byte) := ((sectionsOf img).find? (fun s => decide (s.type = 0x13))).map (fun s => s.bytes img)

/-- The SELECT list of a sampling class in a die's table: the VA of its first descriptor (R272). -/
def selList (i : DieImage) (h : ModelHdr) (k : Nat) : Option Nat :=
  let t := (tget 0 i.dlists (h.selBase + k) : W64).toNat
  if bits t 57 48 < 3 then none else some (bits t 47 0)

/-- The addresses that descriptors 1 and 2 of the sampling classes' lists hold as the image brings them. -/
def Chip.selAddrs (c : Chip) (n : Nat) (h : ModelHdr) (img : Image) : Tab Nat :=
  let one (t : Tab Nat) (d : Die) (i : Option DieImage) : Tab Nat :=
    match i with
    | none => t
    | some i => (List.range h.sclasses).foldl (fun (t : Tab Nat) k =>
        match selList i h k with
        | none => t
        | some va => [1, 2].foldl (fun (t : Tab Nat) j =>
            tput 0 t ((d.num * 8 + k) * 2 + j) (leNat ((List.range 6).map (fun b => c.peek n .active (va + 64 * j + b))))) t) t
  one (one [] .w img.w) .e img.e

/-- The serving image's checks and place; its sections go to context pages as those of IMP_LOAD do. -/
def Chip.serveImage (c : Chip) (n slot : Nat) (img : List Byte) : Option (Except Nat Chip) :=
  match servingImage img with
  | none => none
  | some b =>
    let off0 := match (sectionsOf img).find? (fun s => decide (s.type = 0x13)) with | some s => s.off | none => 0
    match impCheck b b.length <|> c.impTables n b with
    | some off => some (.error (off0 + off))
    | none =>
      if !c.homed n (sectionsOf b) then some (.error off0) else
      let i := c.imageOf n b
      let c := c.copySections n b (sectionsOf b)
      some (.ok (c.modModel slot (fun m => { m with image := some i, selAddr := c.selAddrs n m.hdr i })))

/-- MODEL_LOAD (R363): all of it or nothing. -/
def Chip.modelLoadRun (c : Chip) (n : Nat) (p : ModelLoadP) (img : List Byte) : Chip × EndStatus :=
  let reject (off : Nat) : Chip × EndStatus := (c, { status := 0x0104, detail := BitVec.ofNat 32 off })
  if p.model = 0xFFFF then (c, { status := 0x0102, detail := 32 })
  else if (c.modelSlot p.model).isSome then (c, { status := 0x0105, detail := 32 })
  else
    match c.modelCheck n img p.bytes.toNat with
    | some off => reject off
    | none =>
      let own := (sectionsOf img).filter (fun s => s.placed && !s.isPaired)
      match own.find? (fun s => s.vps.any (fun vp => (tget none (c.ctx n).pages vp).isSome)) with
      | some s => reject (s.dir + 24)
      | none =>
        match c.modelPlace with
        | none => (c, { status := 0x0204 })
        | some (slot, c1) =>
          match Chip.fitModel (Chip.placeModel n p img slot) 16 c1 with
          | none => (c, { status := 0x0204 })
          | some c2 =>
            match c2.serveImage n slot img with
            | none => (c2, { status := 0, value := BitVec.ofNat 32 slot })
            | some (.error off) => reject off
            | some (.ok c3) => (c3, { status := 0, value := BitVec.ofNat 32 slot })

def execModelLoad (h : Hdr) (p : ModelLoadP) (image : List Byte) (s : State) : Host.Outcome State Fault Refusal :=
  s.run (fun c => c.command h false true (fun c =>
    if p.srcPeer && !vaOk p.addr then c.reserved h 46 else Chip.bulk h (c.modelLoadRun h.ctx p image)))

/-- MODEL_PIN (R283). -/
def execModelPin (h : Hdr) (model : W16) (pin : Bool) (s : State) : Host.Outcome State Fault Refusal :=
  s.run (fun c => c.command h false true (fun c =>
    match c.modelSlot model with
    | none => c.done h 0x0104 0 0
    | some i => (c.modModel i (fun m => { m with pin := pin })).ok h 0))

/-- MODEL_EVICT (R283): never a pinned model, nor one with a stream in state prefill, decode or moving. -/
def execModelEvict (h : Hdr) (model : W16) (s : State) : Host.Outcome State Fault Refusal :=
  s.run (fun c => c.command h false true (fun c =>
    match c.modelSlot model with
    | none => c.done h 0x0104 0 0
    | some i => if (c.model i).pin || c.modelActive model then c.done h 0x0205 0 0 else (c.evict i).ok h 0))

end Sys2Proof.Machine
end

