-- ==== Sys2Proof/Machine/Ridge.lean ====
section
/-!
DEFINITION. The Ridge timebase: counters, loss and return of the reference, lock (R22 to R26, R234).
-/
namespace Sys2Proof.Machine

/-- One more count of a slew correction: at most 1 ns in 1,000 ns, four units of PHASE_ERR (R23, R25). A correction falls at
each count divisible by 1,000, and the slew ends when less than 1 ns is left, which stays in PHASE_ERR: the rule gives the bound
alone.
DESIGN CHOICE: log entry 67. -/
def Ridge.slewTick (r : Ridge) : Ridge :=
  if r.slew && decide (r.now.toNat % 1000 = 0) then
    let p := r.phaseErr.toInt
    let n : Int := if 4 ≤ p then p - 4 else if p ≤ -4 then p + 4 else p
    { r with phaseErr := BitVec.ofInt 16 n, slew := decide (4 ≤ n.natAbs) }
  else r

/-- One nanosecond: every Ridge counter advances by one (R22). One counter stands for each die's domains and one for the
management domain, and they agree exactly, where the rule allows ±2 ns.
DESIGN CHOICE: log entries 1 and 67. -/
def Chip.tick (c : Chip) : Chip :=
  { c with ridge := ({ c.ridge with now := c.ridge.now + 1 }).slewTick
           w := { c.w with ridge := c.w.ridge + 1 }
           e := { c.e with ridge := c.e.ridge + 1 } }

/-- The reference is lost: counters go on from the local oscillator (R24). -/
def Ridge.lose (r : Ridge) : Ridge :=
  { r with locked := false, holdover := true, slew := false, phaseErr := 0, srcActive := 2, lossNotice := true,
           lossCount := if r.lossNotice then satAdd r.lossCount 1 else 1
           lossTime := if r.lossNotice then r.lossTime else r.now }

/-- REFERENCE_LOSS: nothing is lost when the source is the local oscillator or the reference is already absent. -/
def execReferenceLoss (s : State) : Host.Outcome State Fault Refusal :=
  s.run (fun c => if c.ridge.src = 2 ∨ c.ridge.holdover then c else { c with ridge := c.ridge.lose })

/-- Every counter of the module steps by the same amount (R23). -/
def Chip.stepRidge (c : Chip) (ns : Int) : Chip :=
  let k : W64 := BitVec.ofInt 64 ns
  { c with ridge := { c.ridge with now := c.ridge.now + k }
           w := { c.w with ridge := c.w.ridge + k }
           e := { c.e with ridge := c.e.ridge + k } }

/-- A reference is there for the source in use: the pins, or an upstream port (R234, R391). -/
def Ridge.hasSource (r : Ridge) : Bool := decide (r.src ≠ 1) || decide (r.upstream ≠ 0xF)

/-- The counters lock to the reference; a phase error that is left is slewed from then on (R23). -/
def Ridge.lock (r : Ridge) : Ridge :=
  { r with locked := true, everLocked := r.everLocked || decide (r.src ≠ 2), slew := decide (4 ≤ r.phaseErr.toInt.natAbs) }

/-- A returning reference may step the counters: before lock is first gained after reset, or after holdover with an error
above 1 µs (R23). -/
def Ridge.maySteps (r : Ridge) (stepNs : Int) : Bool := !r.everLocked || (r.holdover && decide (1000 < stepNs.natAbs))

/-- REFERENCE_RETURN: HOLDOVER clears; an error that may be stepped is stepped with LOCKED clear, any other is slewed under lock
(R23, R24).
DEDUCED: log entry 67. -/
def Chip.referenceReturn (c : Chip) (phaseErr : W16) (stepNs : Int) : Chip :=
  let r := c.ridge
  if r.src = 2 ∨ r.locked ∨ !r.hasSource then c
  else
    let back := { r with holdover := false, srcActive := r.src, phaseErr := phaseErr, slew := false }
    if r.maySteps stepNs then ({ c with ridge := back }).stepRidge stepNs else { c with ridge := back.lock }

def execReferenceReturn (phaseErr : W16) (stepNs : Int) (s : State) : Host.Outcome State Fault Refusal :=
  s.run (fun c => c.referenceReturn phaseErr stepNs)

/-- RIDGE_LOCK_ACQUIRED: first after reset, or at the end of a step correction (R23). -/
def execRidgeLockAcquired (s : State) : Host.Outcome State Fault Refusal :=
  s.run (fun c => if c.ridge.holdover ∨ c.ridge.locked ∨ !c.ridge.hasSource then c else { c with ridge := c.ridge.lock })

end Sys2Proof.Machine
end

