-- ==== Sys2Proof/Machine/Ports.lean ====
section
/-!
DEFINITION. The Purlin domain: configuration, routes, the Ridge tree, ports that go down, train and are held down (R232 to R234,
R247, R262, R375, R408, R409).
-/
namespace Sys2Proof.Machine

/-! ### Cabling and routes (R232, R233, Table 10.1) -/

/-- The extents of the torus. -/
def Domain.dims (d : Domain) : Nat × Nat × Nat := (d.dx.toNat + 1, d.dy.toNat + 1, d.dz.toNat + 1)

/-- Active modules of the domain. -/
def Domain.size (d : Domain) : Nat := d.dims.1 * d.dims.2.1 * d.dims.2.2

/-- The module that a torus port of an active module is cabled to; none in a dimension of extent 1. -/
def Domain.torus (d : Domain) (id port : Nat) : Option Nat :=
  let (dx, dy, dz) := d.dims
  let x := id % dx
  let y := id / dx % dy
  let z := id / (dx * dy)
  let turn (v n : Nat) : Nat := if port % 2 = 0 then (v + 1) % n else (v + n - 1) % n
  if d.size ≤ id ∨ 6 ≤ port then none
  else if port < 2 then (if dx = 1 then none else some (turn x dx + dx * (y + dy * z)))
  else if port < 4 then (if dy = 1 then none else some (x + dx * (turn y dy + dy * z)))
  else (if dz = 1 then none else some (x + dx * (y + dy * turn z dz)))

/-- A place reached: module, first port of the route, hops, whether torus traffic goes on from it. -/
structure Reach where
  id : Nat
  port : Nat
  hops : Nat
  onward : Bool
  deriving DecidableEq, Repr, Inhabited

/-- Modules one hop beyond a frontier in its order, ports ascending, first come first kept. -/
def Domain.expand (d : Domain) (seen : List Nat) (front : List Reach) : List Reach :=
  front.foldl (fun (acc : List Reach) r =>
    if !r.onward then acc else
    (List.range 6).foldl (fun (acc : List Reach) p =>
      match d.torus r.id p with
      | none => acc
      | some v => if seen.contains v || acc.any (fun a => decide (a.id = v)) then acc
                  else acc ++ [{ id := v, port := r.port, hops := r.hops + 1, onward := true }]) acc) []

/-- Levels of the search, each the modules one hop farther: the first route found is a shortest one with the lowest port
sequence. -/
def Domain.search (d : Domain) : Nat → List Nat → List Reach → List Reach
  | 0, _, front => front
  | f + 1, seen, front =>
    match front with
    | [] => []
    | _ =>
      let next := d.expand seen front
      front ++ d.search f (seen ++ next.map (·.id)) next

/-- The neighbours this module's live ports reach, ports ascending. A spare carries no torus traffic; a module that reaches the
torus through its attachment alone goes on from there.
DEDUCED: log entry 66. -/
def Chip.firstHops (c : Chip) : List Reach :=
  let live := (List.range 8).filter (fun p => decide ((c.pport p).st = 3))
  let viaSpare := live.all (fun p => decide (6 ≤ p))
  live.foldl (fun (acc : List Reach) p =>
    let v := (c.pport p).neighbour.toNat
    if v = c.domain.moduleId.toNat || acc.any (fun a => decide (a.id = v)) then acc
    else acc ++ [{ id := v, port := p, hops := 1, onward := decide (p < 6) || viaSpare }]) []

/-- The routing table: for each destination the first port plus 1, and 16 times the hops. Links between other modules count as
live: this module sees its own ports alone. -/
def Chip.routeTable (c : Chip) : Tab Nat :=
  if !c.domain.set then [] else
  let first := c.firstHops
  let found := c.domain.search 64 (c.domain.moduleId.toNat :: first.map (·.id)) first
  found.foldl (fun t r => tput 0 t r.id (r.port + 1 + 16 * r.hops)) []

/-- ROUTE_RECOMPUTE. -/
def Chip.reroute (c : Chip) : Chip := { c with domain := { c.domain with routes := c.routeTable } }



/-! ### The Ridge tree (R234) -/

/-- A route of at most 31 hops. -/
def Domain.near (d : Domain) (id : Nat) : Option (Nat × Nat) := (d.route id).filter (fun r => decide (r.2 ≤ 31))

/-- The upstream port, hops and root: towards the root, else towards the backup root. -/
def Chip.upstreamOf (c : Chip) : Option (Nat × Nat × BitVec 10) :=
  match c.domain.near c.ridge.root.toNat with
  | some r => some (r.1, r.2, c.ridge.root)
  | none => (c.domain.near c.ridge.backup.toNat).map (fun r => (r.1, r.2, c.ridge.backup))

/-- The module takes its upstream port, or has lost its reference and stays in holdover with none (R24, R234). -/
def Chip.takeUpstream (c : Chip) : Chip :=
  match c.upstreamOf with
  | some (p, n, root) =>
    { c with ridge := { c.ridge with upstream := BitVec.ofNat 4 p, hops := BitVec.ofNat 5 n, rootInUse := root } }
  | none => { c with ridge := { (if c.ridge.holdover then c.ridge else c.ridge.lose) with upstream := 0xF, hops := 0 } }

/-- RIDGE_UPSTREAM_SWITCH: in holdover after the upstream port went down. -/
def execRidgeUpstreamSwitch (s : State) : Host.Outcome State Fault Refusal :=
  s.run (fun c => if c.ridge.src ≠ 1 ∨ !c.ridge.holdover ∨ c.ridge.upstream ≠ 0xF then c else c.takeUpstream)

/-! ### Ports (R247, R375, R408) -/

/-- The die that owns a port (Table 10.1). -/
def portDie (p : Nat) : Die := if p < 4 then .w else .e

/-- DOMAIN_SET cables the port.
DEDUCED: log entry 66. -/
def Chip.cabled (c : Chip) (p : Nat) : Bool := c.domain.set && (c.domain.torus c.domain.moduleId.toNat p).isSome

/-- Collective ops in progress on a die abort with 0x0402 (R247). The link names no participant: a free value. -/
def Chip.linkAborts (c : Chip) (d : Die) : Chip :=
  (List.range 16).foldl (fun c q =>
    match (c.stream d q).bind Stream.liveGroup with
    | none => c
    | some g =>
      let f := c.freeWord
      f.2.colAbort d q g 2 0x0402 f.1.toNat) c

/-- A live port goes down into a state: the event is recorded, ops abort, routes and the Ridge tree follow, and the
degraded-link overlay is asked for when DOMAIN_SET cables the port. -/
def Chip.portFalls (c : Chip) (p : Nat) (st : BitVec 4) : Chip :=
  let c := c.modPort p (fun x => { x with st := st, down := x.down.event c.now, margin := 0 })
  let c := (c.linkAborts (portDie p)).reroute
  let c : Chip := if c.ridge.src = 1 ∧ c.ridge.upstream.toNat = p then
      { c with ridge := { (if c.ridge.holdover then c.ridge else c.ridge.lose) with upstream := 0xF, hops := 0 } }
    else c
  if c.cabled p then c.requestOverlay none 5 (tget [] c.boot.overlays 5) else c

/-- PORT_DOWN: loss of signal. A port that is already down only loses its signal. -/
def Chip.portDown (c : Chip) (p : Nat) : Chip :=
  let st := (c.pport p).st
  if st = 3 then c.portFalls p 1
  else if st = 2 ∨ st = 4 ∨ st = 5 ∨ st = 6 then c.modPort p (fun x => { x with st := 1 })
  else c

def execPortDown (port : Nat) (s : State) : Host.Outcome State Fault Refusal := s.run (fun c => c.portDown port)

/-- LANE_RETRAIN: a live port retrains, down with the consequences of R247. -/
def execLaneRetrain (port : Nat) (s : State) : Host.Outcome State Fault Refusal :=
  s.run (fun c => if (c.pport port).st = 3 then c.portFalls port 6 else c)

/-- A neighbour that fits the port's role: a torus port the module Table 10.1 names, a spare attachment port 6 or 7 of the other
end.
DEDUCED: log entry 80. -/
def Chip.fits (c : Chip) (p neighbour nport : Nat) : Bool :=
  !c.domain.set || (if p < 6 then decide (c.domain.torus c.domain.moduleId.toNat p = some neighbour) else decide (6 ≤ nport))

/-- The state a trained port takes: held down for a lower epoch or a wrong neighbour, else live. -/
def Chip.portState (c : Chip) (p : Nat) : BitVec 4 :=
  let x := c.pport p
  if x.epoch < c.domain.epoch then 4 else if !c.fits p x.neighbour.toNat x.nport.toNat then 5 else 3

/-- The routes changed for the better: a module that has an upstream port takes the first port of its route as it is now (R234); one
in holdover waits for RIDGE_UPSTREAM_SWITCH. -/
def Chip.followRoutes (c : Chip) : Chip :=
  if c.ridge.src = 1 ∧ c.ridge.upstream ≠ 0xF then c.reroute.takeUpstream else c.reroute

/-- A port with signal settles; a port that becomes live changes the routes. -/
def Chip.settlePort (c : Chip) (p : Nat) : Chip :=
  let old := (c.pport p).st
  let st := c.portState p
  if old = 3 then (if st = 3 then c else c.portFalls p st)
  else
    let m := Config.eyeMargin c.fresh
    let c := { c with fresh := c.fresh + 1 }
    (c.modPort p (fun x => { x with st := st, margin := if st = 3 then m else 0 })).followRoutes

/-- Identity and epoch as the neighbour reports them. -/
def Chip.setNeighbour (c : Chip) (p : Nat) (neighbour : BitVec 10) (nport : BitVec 3) (epoch : Byte) : Chip :=
  c.modPort p (fun x => { x with neighbour := neighbour, nport := nport, epoch := epoch })

/-- PORT_PLUG: signal on an enabled port that has none; it trains, exchanges identity and epoch and settles. -/
def execPortPlug (port : Nat) (neighbour : BitVec 10) (nport : BitVec 3) (epoch : Byte) (s : State) : Host.Outcome State Fault Refusal :=
  s.run (fun c => if (c.pport port).st = 1 then (c.setNeighbour port neighbour nport epoch).settlePort port else c)

/-- NEIGHBOUR_EPOCH_REPORT: on a port with signal, the end of a retraining included. -/
def execNeighbourEpochReport (port : Nat) (neighbour : BitVec 10) (nport : BitVec 3) (epoch : Byte) (s : State) :
    Host.Outcome State Fault Refusal :=
  s.run (fun c => if 2 ≤ (c.pport port).st.toNat then (c.setNeighbour port neighbour nport epoch).settlePort port else c)

/-! ### DOMAIN_SET (R232, R391) -/

/-- A value out of range: the byte offset of its field.
DEDUCED: log entry 68. -/
def domainBad (p : DomainP) : Option Nat :=
  let n := (p.dx.toNat + 1) * (p.dy.toNat + 1) * (p.dz.toNat + 1)
  if 512 < n then some 33
  else if n ≤ p.moduleId.toNat ∧ p.moduleId.toNat < 512 then some 32
  else none

/-- The source in use: SRC 1 acts as 0 on the root (R391). -/
def domainSource (p : DomainP) : BitVec 2 := if p.src = 1 ∧ p.moduleId = p.root then 0 else p.src

/-- The domain configuration takes effect: identity, ports, routes, the Ridge source. -/
def Chip.setDomain (c : Chip) (p : DomainP) : Chip :=
  let raised := c.domain.set && decide (c.domain.epoch < p.epoch)
  let c := { c with
    domain := { moduleId := p.moduleId, dx := p.dx, dy := p.dy, dz := p.dz, epoch := p.epoch, set := true, routes := c.domain.routes }
    vote := { c.vote with joining := c.vote.joining || raised } }
  let c := (List.range 8).foldl (fun (c : Chip) k => if 3 ≤ (c.pport k).st.toNat ∧ (c.pport k).st.toNat ≤ 5 then c.settlePort k else c) c
  let c := c.reroute
  let c := { c with ridge := { (c.ridge.setSource (domainSource p)) with root := p.root, backup := p.backup } }
  if domainSource p = 1 then c.takeUpstream
  else { c with ridge := { c.ridge with upstream := 0xF, hops := 0, rootInUse := p.root } }

def execDomainSet (h : Hdr) (p : DomainP) (s : State) : Host.Outcome State Fault Refusal :=
  s.run (fun c => c.command h true true (fun c =>
    if p.src = 3 then c.reserved h 40
    else
      match domainBad p with
      | some off => c.range h off
      | none => (c.setDomain p).ok h 0))

end Sys2Proof.Machine
end

