-- ==== Sys2Proof/Machine/Rings.lean ====
section
/-!
DEFINITION. Ring pages: doorbells, ring control, completion and output ring heads (R335 to R338, R348).
-/
namespace Sys2Proof.Machine

/-- The context whose ring pages a function reaches: its bound context for a VF, any of the 1,024 for the PF (R332). -/
def Chip.pageOf (c : Chip) (fn ctx : Nat) : Option Nat :=
  if fn = 0 then (if ctx < 1024 then some ctx else none) else c.boundCtx fn

/-- The ring stops: ERR, and BADOFF names the slot at HEAD (R337). -/
def Ring.stop (r : Ring) : Ring := { r with stopped := true, err := true, badoff := BitVec.ofNat 8 r.head.toNat }

/-- A write of TAIL: a value at or above the ring's size stops a ring in use. -/
def Ring.ringTail (r : Ring) (tail : W32) : Ring :=
  let r := { r with tail := tail }
  if r.enable ∧ !r.stopped ∧ r.slots ≤ tail.toNat then r.stop else r

/-- DOORBELL: the host's stores before it, then the new tail. -/
def Chip.doorbell (c : Chip) (fn ctx ring : Nat) (tail : W32) (stores : List (Nat × Byte)) : Chip :=
  let c := { c with host := stores.foldl (fun (m : Memory) (x : Nat × Byte) => mput m x.1 x.2) c.host }
  match c.pageOf fn ctx with
  | some n => if ring < 8 then c.modRing n ring (fun r => r.ringTail tail) else c
  | none => c

def execDoorbell (fn ctx ring : Nat) (tail : W32) (stores : List (Nat × Byte)) (s : State) : Host.Outcome State Fault Refusal :=
  s.run (fun c => c.doorbell fn ctx ring tail stores)

/-- A write of CTX_RING_CTRL: setting ENABLE zeroes the indices of both rings and restarts a stopped ring.
DEDUCED: log entry 64. -/
def Ring.control (r : Ring) (value : Nat) : Ring :=
  let r := { r with vector := BitVec.ofNat 12 (bits value 15 4), intr := bit value 1, err := r.err && !bit value 3 }
  let on := bit value 0
  if on && !r.enable then { r with enable := true, head := 0, tail := 0, cplHead := 0, cplTail := 0, stopped := false, fenceOn := none }
  else { r with enable := on }

/-- RING_ENABLE; records kept while the ring was off are posted. -/
def Chip.ringControl (c : Chip) (n ring value : Nat) : Chip :=
  if ring < 8 then ((c.modRing n ring (fun r => r.control value)).drainRing n ring).tryShipEnd n else c

def execRingEnable (fn ctx ring : Nat) (value : W32) (s : State) : Host.Outcome State Fault Refusal :=
  s.run (fun c => match c.pageOf fn ctx with | some n => c.ringControl n ring value.toNat | none => c)

/-- CPL_HEAD_WRITE: room in the completion ring, and the kept records are posted. -/
def Chip.cplHead (c : Chip) (n ring : Nat) (head : W32) : Chip :=
  if ring < 8 then (c.modRing n ring (fun r => { r with cplHead := head })).drainRing n ring else c

def execCplHeadWrite (fn ctx ring : Nat) (head : W32) (s : State) : Host.Outcome State Fault Refusal :=
  s.run (fun c => match c.pageOf fn ctx with | some n => c.cplHead n ring head | none => c)

/-- ORING_HEAD_WRITE: room in an output ring, and the delayed records are posted; a proof event so posted ends its pin. -/
def Chip.oringHead (c : Chip) (n ring : Nat) (head : W32) : Chip :=
  if ring < 256 then
    ((c.modCtx n (fun x => { x with orings := tmod {} x.orings ring (fun g => { g with head := head }) })).drainOring n ring).tryShipEnd n
  else c

def execOringHeadWrite (fn ctx ring : Nat) (head : W32) (s : State) : Host.Outcome State Fault Refusal :=
  s.run (fun c => match c.pageOf fn ctx with | some n => c.oringHead n ring head | none => c)

end Sys2Proof.Machine
end

