-- ==== Sys2Proof/Machine/Serving.lean ====
section
/-!
DEFINITION. Generation and serving: the stream commands, the serve step with its batch former, deadline monitor and stop
detector, parking and unparking (R265 to R285, R346).
-/
namespace Sys2Proof.Machine

/-! ### Stream commands -/

/-- A model can serve: resident, with a serving image and an entry on some die (R362). -/
def ModelEntry.serves (m : ModelEntry) : Bool :=
  decide (m.st = 2) && m.image.isSome && !(decide (m.hdr.serveW = 0xFFFFFFFF) && decide (m.hdr.serveE = 0xFFFFFFFF))

/-- The entry a STREAM_OPEN makes, but for GEN. -/
def openEntry (p : StreamOpenP) (n : Nat) : StreamEntry :=
  { fallback := p.fallback, model := p.model, ctx := BitVec.ofNat 10 n, sclass := p.sclass, switched := p.switched, latency := p.latency,
    postn := p.postn, st := .prefill, deadline := p.deadline, expect := p.expect, maxLen := p.maxLen, stopset := p.stopset,
    btab := p.btab, tokLog := p.tokLog, outRing := p.outRing, prompt := p.prompt, cookie := p.cookie, stopReq := p.stopReq,
    user := p.user, target := p.prompt.zeroExtend 18 }

/-- The lowest free Stream Table index (R265). -/
def Chip.freeStream (c : Chip) : Option Nat :=
  (List.range (min 65536 (c.serving.streams.length + 1))).find? (fun i => decide ((c.entry i).st = .free))

/-- STREAM_OPEN (R265, R266, R269). -/
def Chip.openStream (c : Chip) (h : Hdr) (p : StreamOpenP) : Chip :=
  let n := h.ctx
  if p.prompt = 0 ∨ p.maxLen.toNat < p.prompt.toNat then c.range h 76
  else if p.tokLog.toNat % 256 ≠ 0 then c.range h 64
  else
    match c.modelSlot p.model with
    | none => c.done h 0x0104 0 0
    | some k =>
      let m := c.model k
      let e := openEntry p n
      if !m.serves then c.range h 36
      else if m.hdr.sclasses ≤ p.sclass.toNat then c.range h 34
      else if p.btab.toNat % 256 ≠ 0 ∨ !(c.ctx n).plainRange false p.btab.toNat (e.tableBytes m.hdr) then c.range h 56
      else
        match c.freeStream with
        | none => c.done h 0x0203 0 0
        | some i =>
          let c := c.fwStore n p.btab.toNat (List.replicate (e.tableBytes m.hdr) 0)
          (c.modEntry i (fun x => { e with gen := x.gen })).ok h (BitVec.ofNat 32 i)

def execStreamOpen (h : Hdr) (p : StreamOpenP) (s : State) : Host.Outcome State Fault Refusal :=
  s.run (fun c => c.command h false true (fun c => c.openStream h p))

/-- A close, park or unpark waits for the next serve-step boundary (R277); a stream of the context must stand there. -/
def Chip.requestStream (c : Chip) (h : Hdr) (stream : W16) (i : Instr) : Chip :=
  let e := c.entry stream.toNat
  if e.st = .free ∨ e.ctx.toNat ≠ h.ctx then c.done h 0x0104 0 0
  else c.modCtx h.ctx (fun x => { x with streamReqs := x.streamReqs ++ [(i, e.gen)] })

def execStreamClose (h : Hdr) (stream : W16) (s : State) : Host.Outcome State Fault Refusal :=
  s.run (fun c => c.command h false true (fun c => c.requestStream h stream (.streamClose h stream)))
def execStreamPark (h : Hdr) (stream : W16) (s : State) : Host.Outcome State Fault Refusal :=
  s.run (fun c => c.command h false true (fun c => c.requestStream h stream (.streamPark h stream)))
def execStreamUnpark (h : Hdr) (stream : W16) (s : State) : Host.Outcome State Fault Refusal :=
  s.run (fun c => c.command h false true (fun c => c.requestStream h stream (.streamUnpark h stream)))

/-- STREAM_QUERY: the 64 bytes of the entry (Table 11.1). -/
def execStreamQuery (h : Hdr) (stream : W16) (ha : W64) (s : State) : Host.Outcome State Fault Refusal :=
  s.run (fun c => c.command h false true (fun c =>
    let e := c.entry stream.toNat
    if e.st = .free ∨ e.ctx.toNat ≠ h.ctx then c.done h 0x0104 0 0
    else ({ c with host := mwrite c.host ha.toNat e.bytes }).ok h 64))

/-- A stop set's bytes are in order (R269): the offset in the set of the first that is not, and its status. -/
def stopsetBad (bs : List Byte) : Option (W16 × Nat) :=
  let word (i : Nat) : Nat := leNat ((bs.drop (4 * i)).take 4)
  match (List.range 8).find? (fun i => decide (bits (word i) 30 20 ≠ 0)) with
  | some i => some (0x0102, 4 * i + 2)
  | none =>
    match (List.range 28).find? (fun i => decide (0 < (bs.getD (164 + i) 0).toNat)) with
    | some i => some (0x0102, 164 + i)
    | none => ((List.range 4).find? (fun i => decide (8 < (bs.getD (160 + i) 0).toNat))).map (fun i => (0x0105, 160 + i))

/-- STOPSET_SET: a stop set goes to its place in the context's stop-set table (R269). -/
def execStopsetSet (h : Hdr) (index : W16) (va : W64) (data : List Byte) (s : State) : Host.Outcome State Fault Refusal :=
  s.run (fun c => c.command h false true (fun c =>
    if !vaOk va then c.reserved h 46
    else if index = 0xFFFF then c.range h 32
    else
      match stopsetBad data with
      | some b => c.done h b.1 (BitVec.ofNat 32 (48 + b.2)) 0
      | none =>
        let w := c.writeVa h.ctx (va.toNat + 192 * index.toNat) data
        match w.2 with
        | some f => c.done h 0x0111 (BitVec.ofNat 32 f.kind.toNat) 0
        | none => (w.1.modCtx h.ctx (fun x => { x with stopVa := some (va.extractLsb' 0 48) })).ok h 0))

/-- The resident models a context owns or was granted. -/
def Chip.modelsOf (c : Chip) (n : Nat) : List Nat :=
  (List.range 16).filter (fun k => let m := c.model k; m.serves && (decide (m.owner = n) || m.grantees.contains n))

/-- SERVE: DEC_MAX + PF_MAX within every batch area the context can use (R271), then a place in the execute queue. -/
def Chip.serveCmd (c : Chip) (h : Hdr) (p : ServeP) : Chip :=
  if (c.modelsOf h.ctx).any (fun k => decide ((c.model k).hdr.decMaxArea < p.decMax.toNat + 1 + p.pfMax.toNat)) then c.range h 36
  else c.enqueue (.serve h p)

def execServe (h : Hdr) (p : ServeP) (s : State) : Host.Outcome State Fault Refusal :=
  s.run (fun c => c.command h false true (fun c => c.serveCmd h p))

/-! ### Token records (R275, R276) -/

/-- A token record (Table 11.3). -/
def tokenRecord (i : Nat) (e : StreamEntry) (late final : Bool) (reason pos token : Nat) : BitVec 128 :=
  BitVec.ofNat 128 (i * 2 ^ 112 + e.model.toNat * 2 ^ 96 + pos % 2 ^ 17 * 2 ^ 64 + b2n late * 2 ^ 59 + b2n e.switched * 2 ^ 58 +
    b2n final * 2 ^ 57 + reason * 2 ^ 52 + token % 2 ^ 20 * 2 ^ 32 + e.cookie.toNat)

/-- A final record posted now is late (R276). -/
def StreamEntry.late (e : StreamEntry) (now : W64) : Bool := decide (e.deadline ≠ 0) && decide (e.deadline < now)

/-- Post a record of a stream; a late final one is counted. -/
def Chip.postToken (c : Chip) (i : Nat) (final : Bool) (reason pos token : Nat) : Chip :=
  let e := c.entry i
  let late := final && e.late c.now
  let c := c.output e.ctx.toNat e.outRing.toNat (tokenRecord i e late final reason pos token)
  if late then c.modServing (fun v => { v with late := satAdd v.late 1 }) else c

/-- A word of a stream's token log. -/
def Chip.logToken (c : Chip) (e : StreamEntry) (pos : Nat) : Nat :=
  leNat ((List.range 4).map (fun k => c.peek e.ctx.toNat .active (e.tokLog.toNat + 4 * pos + k))) % 2 ^ 20

/-- A record that carries no new token names the last one of the log; with none yet its token is free.
DEDUCED: log entry 53. -/
def Chip.postLast (c : Chip) (i : Nat) (final : Bool) (reason : Nat) : Chip :=
  let e := c.entry i
  if e.pos = 0 then let f := c.freeWord; f.2.postToken i final reason 0 f.1.toNat
  else c.postToken i final reason (e.pos.toNat - 1) (c.logToken e (e.pos.toNat - 1))

/-! ### Parking and unparking (R278 to R280) -/

/-- The move in flight on the die of a stream's entry. -/
def Chip.moveOf (c : Chip) (i : Nat) : Option Nat := if i < 32768 then c.serving.moveW else c.serving.moveE
def Chip.setMove (c : Chip) (i : Nat) (x : Option Nat) : Chip :=
  c.modServing (fun v => if i < 32768 then { v with moveW := x } else { v with moveE := x })

/-- An exhausted pool or park area: MOD_KV_NOTICE. -/
def Chip.kvEvent (c : Chip) : Chip := c.modServing (fun v => { v with kv := v.kv.event c.now })

/-- The first offset of a context's park area at which `len` bytes are free. -/
def Chip.parkOffset (c : Chip) (n len : Nat) : Option Nat :=
  let used := (c.streamsOf n).flatMap (fun i => (c.entry i).parked.map (fun b => (b.2.1, b.2.2)))
  let fits (o : Nat) : Bool := decide (o + len ≤ (c.ctx n).parkBytes.toNat) &&
    used.all (fun r => decide (o + len ≤ r.1) || decide (r.1 + r.2 ≤ o))
  match (0 :: used.map (fun r => r.1 + r.2)).filter fits with
  | [] => none
  | o :: t => some (t.foldl min o)

/-- A park begins: the stream is moving, its place in the park area is taken; false when the area is full. -/
def Chip.parkStart (c : Chip) (i : Nat) : Chip × Bool :=
  let e := c.entry i
  let n := e.ctx.toNat
  let stride := match c.modelSlot e.model with | some k => (c.model k).hdr.blockBytes | none => 0
  match c.parkOffset n (stride * e.blocks.length) with
  | none =>
    let c := c.kvEvent
    (match (c.ctx n).eventRing with
     | some q => c.output n q (eventRecord 3 (c.ctx n).serveStep c.now.toNat)
     | none => c, false)
  | some o =>
    let parked := e.blocks.zipIdx.map (fun b => (b.1.1, o + stride * b.2, stride))
    ((c.modEntry i (fun e => { e with st := .moving, back := e.st, unparking := false, parked := parked })).setMove i (some i), true)

/-- A park ends: the blocks stand in host memory, their table entries say so, the pool has them back. -/
def Chip.parkEnd (c : Chip) (i : Nat) : Chip :=
  let e := c.entry i
  let n := e.ctx.toNat
  let c : Chip := match c.modelSlot e.model with
    | none => c
    | some k =>
      let m := c.model k
      let c := (e.blocks.zip e.parked).foldl (fun (c : Chip) b =>
        let c := { c with host := mwrite c.host ((c.ctx n).parkHa.toNat + b.2.2.1) (c.readBlock m b.1.2) }
        c.putBlock e b.1.1 (blockEntry true true b.2.2.1)) c
      c.modModel k (fun m => { m with freeBlocks := m.freeBlocks ++ e.blocks.map (·.2) })
  ((c.modEntry i (fun e => { e with st := .parked, blocks := [] })).setMove i none).modServing (fun v => { v with parks := satAdd v.parks 1 })

/-- An unpark begins: blocks of the pool are taken, the stream is moving; false when the pool holds too few. -/
def Chip.unparkStart (c : Chip) (i spare : Nat) : Chip × Bool :=
  let e := c.entry i
  match c.modelSlot e.model with
  | none => (c, false)
  | some k =>
    let m := c.model k
    let need := e.parked.length
    if m.freeBlocks.length < need + spare then (c, false) else
    match m.pick e (e.parked.map (·.1)) m.freeBlocks with
    | none => (c, false)
    | some (got, free) =>
      let c := c.modModel k (fun m => { m with freeBlocks := free })
      ((c.modEntry i (fun e => { e with st := .moving, unparking := true, blocks := got })).setMove i (some i), true)

/-- An unpark ends: the blocks' bytes are back and the stream is in the state it held before its park. -/
def Chip.unparkEnd (c : Chip) (i : Nat) : Chip :=
  let e := c.entry i
  let n := e.ctx.toNat
  let c : Chip := match c.modelSlot e.model with
    | none => c
    | some k =>
      let m := c.model k
      (e.blocks.zip e.parked).foldl (fun (c : Chip) b =>
        let c := c.writeBlock m b.1.2 (mread c.host ((c.ctx n).parkHa.toNat + b.2.2.1) b.2.2.2)
        c.putBlock e b.1.1 (blockEntry false true b.1.2.toNat)) c
  ((c.modEntry i (fun e => { e with st := e.back, unparking := false, parked := [] })).setMove i none).modServing (fun v =>
    { v with unparks := satAdd v.unparks 1 })

/-- The move in flight on a die. -/
def Chip.moveOn (c : Chip) (d : Die) : Option Nat := match d with | .w => c.serving.moveW | .e => c.serving.moveE

def execParkComplete (die : Die) (s : State) : Host.Outcome State Fault Refusal :=
  s.run (fun c => match c.moveOn die with
    | some i => if (c.entry i).unparking then c else c.parkEnd i
    | none => c)

def execUnparkComplete (die : Die) (s : State) : Host.Outcome State Fault Refusal :=
  s.run (fun c => match c.moveOn die with
    | some i => if (c.entry i).unparking then c.unparkEnd i else c
    | none => c)

/-! ### The serve-step boundary -/

/-- One request at the boundary (R277, R279, R280): true while it still waits for a free move slot or for blocks.
DEDUCED: log entry 52. -/
def Chip.streamRequest (c : Chip) (i : Instr) (gen : W16) : Chip × Bool :=
  match i with
  | .streamClose h s =>
    let k := s.toNat
    if (c.entry k).st = .free ∨ (c.entry k).gen ≠ gen then (c.ok h 0, false)
    else (((c.postLast k true 4).freeEntry k).ok h 0, false)
  | .streamPark h s =>
    let k := s.toNat
    let e := c.entry k
    if e.st = .free ∨ e.gen ≠ gen then (c.done h 0x0104 0 0, false)
    else if e.st ≠ .prefill ∧ e.st ≠ .decode then (c.range h 32, false)
    else if (c.moveOf k).isSome then (c, true)
    else
      let r := c.parkStart k
      if r.2 then (r.1.ok h 0, false) else (r.1.done h 0x0206 0 0, false)
  | .streamUnpark h s =>
    let k := s.toNat
    let e := c.entry k
    if e.st = .free ∨ e.gen ≠ gen then (c.done h 0x0104 0 0, false)
    else if e.st ≠ .parked then (c.range h 32, false)
    else if (c.modelSlot e.model).isNone then (c.done h 0x0104 0 0, false)
    else if (c.moveOf k).isSome then (c, true)
    else
      let r := c.unparkStart k 0
      if r.2 then (r.1.ok h 0, false) else (c, true)
  | _ => (c, false)

/-- The requests of a context in the order they were taken. -/
def Chip.streamRequests (c : Chip) (n : Nat) : Chip :=
  (c.ctx n).streamReqs.foldl (fun (c : Chip) r =>
    let y := c.streamRequest r.1 r.2
    if y.2 then y.1.modCtx n (fun x => { x with streamReqs := x.streamReqs ++ [r] }) else y.1)
    (c.modCtx n (fun x => { x with streamReqs := [] }))

/-- One record with REASON 8 for each parked stream whose model is not resident (R280). -/
def Chip.absentModels (c : Chip) (n : Nat) : Chip :=
  (c.streamsOf n).foldl (fun (c : Chip) i =>
    let e := c.entry i
    if e.st ≠ .parked then c
    else if (c.modelSlot e.model).isSome then c.modEntry i (fun e => { e with absentPosted := false })
    else if e.absentPosted then c
    else (c.postLast i false 8).modEntry i (fun e => { e with absentPosted := true })) c

/-- Unpark one stream: latency-critical first, then the oldest LASTTIME, then the lowest index (R280). -/
def Chip.autoUnpark (c : Chip) (n : Nat) : Chip :=
  let can (i : Nat) : Bool :=
    let e := c.entry i
    decide (e.st = .parked) && (c.moveOf i).isNone && (c.unparkStart i 1).2
  let before (a b : Nat) : Bool :=
    let x := c.entry a
    let y := c.entry b
    (x.latency && !y.latency) || ((x.latency == y.latency) && decide (x.lastTime < y.lastTime))
  match sortBy before ((c.streamsOf n).filter can) with
  | [] => c
  | i :: _ => (c.unparkStart i 1).1

/-! ### The deadline monitor (R281) -/

/-- Steps a stream still needs: R of R281. -/
def StreamEntry.stepsLeft (e : StreamEntry) (chunk : Nat) : Int :=
  let r : Int := if e.expect ≠ 0 then (e.expect.toNat : Int) - ((e.pos.toNat : Int) - e.prompt.toNat)
    else (e.maxLen.toNat : Int) + 1 - e.pos.toNat
  max r 1 + (if e.st = .prefill then (ceilDiv (e.prompt.toNat - e.pos.toNat) chunk : Nat) else 0)

/-- The stream is predicted to miss its deadline. -/
def Chip.missesDeadline (c : Chip) (e : StreamEntry) : Bool :=
  let ns := match c.modelSlot e.model with | some k => (c.model k).stepNs.toNat | none => 0
  decide ((e.deadline.toNat : Int) < c.now.toNat + e.stepsLeft (c.serving.chunk.toNat + 1) * ns)

/-- The monitor's check of one stream. -/
def Chip.monitorOne (c : Chip) (i : Nat) : Chip :=
  let e := c.entry i
  if !e.latency ∨ (e.st ≠ .prefill ∧ e.st ≠ .decode) ∨ e.deadline = 0 ∨ e.switched ∨ !c.missesDeadline e then c
  else if e.fallback = 0xFFFF ∨ (c.modelSlot e.fallback).isNone then
    c.modServing (fun v => { v with noFallback := satAdd v.noFallback 1 })
  else
    let clear (c : Chip) : Chip := match c.modelSlot e.model with
      | some k => c.fwStore e.ctx.toNat e.btab.toNat (List.replicate (e.tableBytes (c.model k).hdr) 0)
      | none => c
    let c := (clear c).giveBlocks i
    let c := c.modEntry i (fun e => { e with model := e.fallback, switched := true, st := .prefill, fill := 0
                                             target := if e.pos.toNat < e.prompt.toNat then e.prompt.zeroExtend 18 else e.pos })
    c.modServing (fun v => { v with switches := satAdd v.switches 1 })

/-! ### The batch former (R270 to R272, R278) -/

/-- The former's work: the module, the prefill positions left in the step, the streams chosen, the present model's rows. -/
structure Former where
  c : Chip
  pf : Nat
  chosen : List Nat := []
  rows : List BatchRow := []
  decodes : Nat := 0
  deriving DecidableEq, Repr, Inhabited

/-- Block-table indices a stream needs up to a position and does not hold. -/
def StreamEntry.missing (e : StreamEntry) (h : ModelHdr) (last : Nat) : List Nat :=
  let want := (List.range (h.layers * h.kvHeads)).flatMap (fun g => (List.range (last / 64 + 1)).map (fun b => g * e.nb + b))
  want.filter (fun x => !(e.blocks.any (fun b => decide (b.1 = x))))

/-- Give a stream blocks of its pool for block-table indices. -/
def Chip.takeBlocks (c : Chip) (slot i : Nat) (idx : List Nat) : Option Chip :=
  let m := c.model slot
  let e := c.entry i
  (m.pick e idx m.freeBlocks).map (fun r =>
    let c := c.modModel slot (fun m => { m with freeBlocks := r.2 })
    let c := c.modEntry i (fun e => { e with blocks := e.blocks ++ r.1 })
    r.1.foldl (fun (c : Chip) b => c.putBlock e b.1 (blockEntry false true b.2.toNat)) c)

/-- The victim of an empty pool (R278): of the pool, in state decode or prefill, not chosen, with a free move slot. -/
def Chip.kvVictim (c : Chip) (model : W16) (self : Nat) (chosen : List Nat) : Option Nat :=
  let cand := (c.serving.streams.filter (fun kv =>
    decide (kv.2.model = model) && (decide (kv.2.st = .decode) || decide (kv.2.st = .prefill)) && decide (kv.1 ≠ self) &&
    !chosen.contains kv.1 && (c.moveOf kv.1).isNone)).map (·.1)
  let before (a b : Nat) : Bool :=
    let x := c.entry a
    let y := c.entry b
    (!x.latency && y.latency) || ((x.latency == y.latency) && decide (x.lastTime < y.lastTime))
  (sortBy before cand).head?

/-- Blocks for a row: from the pool, else from victims parked one after another; `fuel` bounds their number. -/
def Chip.findBlocks (slot i : Nat) (idx chosen : List Nat) : Nat → Chip → Chip × Bool
  | 0, c => (c, false)
  | k + 1, c =>
    match c.takeBlocks slot i idx with
    | some c => (c, true)
    | none =>
      match c.kvVictim (c.model slot).model i chosen with
      | none => (c, false)
      | some v =>
        let r := c.parkStart v
        if r.2 then Chip.findBlocks slot i idx chosen k (r.1.parkEnd v) else (r.1, false)

/-- The output ring of a stream has room for a record. -/
def Chip.ringRoom (c : Chip) (e : StreamEntry) : Bool :=
  let g := (c.ctx e.ctx.toNat).oring e.outRing.toNat
  g.set && !g.full && g.delayed.isEmpty

/-- Choose a stream for positions up to `last`, with these rows; a stream without blocks is passed over and counted. -/
def Former.choose (f : Former) (slot i last : Nat) (rows : List BatchRow) : Former :=
  let e := f.c.entry i
  let idx := e.missing (f.c.model slot).hdr last
  let r := if idx.isEmpty then (f.c, true) else Chip.findBlocks slot i idx f.chosen (f.c.serving.streams.length + 1) f.c
  if r.2 then { f with c := r.1, chosen := i :: f.chosen, rows := f.rows ++ rows } else { f with c := r.1.kvEvent }

/-- A decode row: the last known token is the input of its position.
DEDUCED: log entry 51. -/
def Former.decode (f : Former) (slot i : Nat) : Former :=
  let e := f.c.entry i
  if e.st ≠ .decode ∨ f.c.serving.decMax.toNat + 1 ≤ f.decodes ∨ !f.c.ringRoom e then f else
  let p := e.pos.toNat - 1
  let g := f.choose slot i p [{ stream := i, pos := p, token := f.c.logToken e p, sampling := true, prefill := false }]
  if g.chosen.length = f.chosen.length then g else
  let c := if e.latency then g.c else g.c.modModel slot (fun m => { m with lastBe := i })
  { g with c := c, decodes := g.decodes + 1 }

/-- A prefill chunk: up to CHUNK positions; its last row samples when it ends the prompt. -/
def Former.prefill (f : Former) (slot i : Nat) : Former :=
  let e := f.c.entry i
  let n := min (min (f.c.serving.chunk.toNat + 1) f.pf) (e.target.toNat - e.fill)
  if e.st ≠ .prefill ∨ n = 0 ∨ !f.c.ringRoom e then f else
  let row (k : Nat) : BatchRow :=
    { stream := i, pos := e.fill + k, token := f.c.logToken e (e.fill + k), sampling := decide (e.fill + k + 1 = e.target.toNat), prefill := true }
  let g := f.choose slot i (e.fill + n - 1) ((List.range n).map row)
  if g.chosen.length = f.chosen.length then g else { g with pf := g.pf - n }

/-- Latency-critical order: ascending DEADLINE, none last, then ascending index. -/
def Chip.byDeadline (c : Chip) (l : List Nat) : List Nat :=
  let key (i : Nat) : Nat := let d := (c.entry i).deadline.toNat; if d = 0 then 2 ^ 64 else d
  sortBy (fun a b => decide (key a < key b)) l

/-- The rows of one model in the order of R270. -/
def Former.model (f : Former) (n slot : Nat) : Former :=
  let m := f.c.model slot
  let mine := (f.c.streamsOf n).filter (fun i => decide ((f.c.entry i).model = m.model))
  let st (i : Nat) : StreamSt := (f.c.entry i).st
  let lc (i : Nat) : Bool := (f.c.entry i).latency
  let be := mine.filter (fun i => decide (st i = .decode) && !lc i)
  let rot := be.filter (fun i => decide (m.lastBe < i)) ++ be.filter (fun i => decide (i ≤ m.lastBe))
  let f := { f with rows := [], decodes := 0 }
  let f := (f.c.byDeadline (mine.filter (fun i => decide (st i = .decode) && lc i)) ++ rot).foldl (fun f i => f.decode slot i) f
  (f.c.byDeadline (mine.filter (fun i => decide (st i = .prefill) && lc i)) ++ mine.filter (fun i => decide (st i = .prefill) && !lc i)).foldl
    (fun f i => f.prefill slot i) f

/-- Rows in batch order (R271): sampling rows by ascending SCLASS, then the other prefill rows. -/
def Chip.orderRows (c : Chip) (rows : List BatchRow) : List BatchRow :=
  (List.range 8).flatMap (fun k => rows.filter (fun r => r.sampling && decide ((c.entry r.stream).sclass.toNat = k))) ++
  rows.filter (fun r => !r.sampling)

/-- First sampling row and row count of a class. -/
def Chip.classRange (c : Chip) (rows : List BatchRow) (k : Nat) : Nat × Nat :=
  let s := rows.filter (·.sampling)
  let cls (r : BatchRow) : Nat := (c.entry r.stream).sclass.toNat
  ((s.filter (fun r => decide (cls r < k))).length, (s.filter (fun r => decide (cls r = k))).length)

/-- A row of ROWTAB (Table 11.2). -/
def BatchRow.bytes (r : BatchRow) : List Byte :=
  leBytes 16 (r.stream + r.pos * 2 ^ 16 + r.token * 2 ^ 33 + b2n r.sampling * 2 ^ 53 + b2n r.prefill * 2 ^ 54)

/-- Write a model's batch area (Table 11.2). -/
def Chip.writeBatch (c : Chip) (n : Nat) (h : ModelHdr) (rows : List BatchRow) (step : Nat) : Chip :=
  let cls (k : Nat) : List Byte := let r := c.classRange rows k; leBytes 4 (r.1 % 2 ^ 16 + r.2 * 2 ^ 16)
  let b := h.batch.toNat
  let c := c.fwStore n b (leBytes 4 rows.length ++ leBytes 4 (rows.filter (·.sampling)).length ++ leBytes 8 step ++
    (List.range 8).flatMap cls ++ List.replicate 16 0 ++ rows.flatMap (fun r => leBytes 4 r.stream))
  c.fwStore n (b + 64 + 4 * h.decMaxArea) (rows.flatMap BatchRow.bytes)

/-- Bytes from a row of a tensor to the next. -/
def rowStep (g : Desc) : Nat := g.stride * fmtWidth g.fmt / 8

/-- Write a class's row range into its list in one die's table (R272). -/
def Chip.classList (c : Chip) (n : Nat) (m : ModelEntry) (d : Die) (i : DieImage) (k first count : Nat) : Chip :=
  match selList i m.hdr k with
  | none => c
  | some va =>
    [1, 2].foldl (fun (c : Chip) j =>
      let a := va + 64 * j
      let g := descOf (wordsOf ((List.range 64).map (fun b => c.peek n .active (a + b))))
      let base := tget 0 m.selAddr ((d.num * 8 + k) * 2 + j)
      (c.fwStore n a (leBytes 6 (base + first * rowStep g))).fwStore n (a + 20) (leBytes 4 count)) c

/-- Every class's range, on every die the serving image runs on. -/
def Chip.classLists (c : Chip) (n slot : Nat) (rows : List BatchRow) : Chip :=
  let m := c.model slot
  let one (c : Chip) (d : Die) (i : Option DieImage) : Chip :=
    match i with
    | none => c
    | some i => (List.range m.hdr.sclasses).foldl (fun (c : Chip) k =>
        let r := c.classRange rows k
        c.classList n m d i k r.1 r.2) c
  match m.image with
  | none => c
  | some img => one (one c .w img.w) .e img.e

/-- The batches of a step: every model the context can run, in ascending entry.
DEDUCED: log entry 54. -/
def Chip.formBatches (c : Chip) (n : Nat) : Chip × List (Nat × List BatchRow) :=
  let models := (List.range 16).filter (fun k => (c.model k).serves)
  let r := models.foldl (fun (a : Former × List (Nat × List BatchRow)) k =>
    let f := a.1.model n k
    (f, if f.rows.isEmpty then a.2 else a.2 ++ [(k, f.c.orderRows f.rows)])) (({ c := c, pf := c.serving.pfMax.toNat } : Former), [])
  (r.1.c, r.2)

/-- The context runs a SERVE command whose last step is over. -/
def Chip.betweenSteps (c : Chip) (n : Nat) : Bool :=
  match (c.ctx n).run, (c.ctx n).execQ with
  | some r, x :: _ => r.finish.isNone && !r.serveOpen && (match x.cmd with | .serve _ _ => true | _ => false)
  | _, _ => false

/-- Serve steps of all runs of the command at the head of the queue. -/
def Ctx.stepsServed (x : Ctx) : Nat :=
  (match x.execQ with | y :: _ => y.stepsDone | [] => 0) + (match x.run with | some r => r.serveSteps | none => 0)

/-- SERVE_STEP_LAUNCH: boundary work, the deadline monitor, the batches; with no row to run the command ends (R346). -/
def Chip.serveLaunch (c : Chip) (n : Nat) : Chip :=
  if !c.betweenSteps n then c else
  let c := ((c.streamRequests n).absentModels n).autoUnpark n
  let c := (c.streamsOf n).foldl (fun c i => c.monitorOne i) c
  let f := c.formBatches n
  let c := f.1
  let step := (c.ctx n).serveStep
  if f.2.isEmpty then c.finish n { status := 0, value := BitVec.ofNat 32 (c.ctx n).stepsServed }
  else
    let c := f.2.foldl (fun (c : Chip) b => (c.writeBatch n (c.model b.1).hdr b.2 step).classLists n b.1 b.2) c
    (c.modRun n (fun r => { r with serveOpen := true, serveQ := f.2.map (·.1), batches := f.2, step := BitVec.ofNat 48 step })).startServe n

def execServeStepLaunch (ctx : Nat) (s : State) : Host.Outcome State Fault Refusal := s.run (fun c => c.serveLaunch ctx)

/-! ### The stop detector (R274) -/

/-- The bytes of a sampling row's SELECT output record: descriptor 2 of its class's list on the die that serves. -/
def Chip.outputRecord (c : Chip) (n slot k row : Nat) : SelRecord :=
  let m := c.model slot
  let d : Die := if m.hdr.serveW ≠ 0xFFFFFFFF then .w else .e
  let img : Option DieImage := match m.image with | some i => (match d with | .w => i.w | .e => i.e) | none => none
  match img.bind (fun i => selList i m.hdr k) with
  | none => {}
  | some va =>
    let g := descOf (wordsOf ((List.range 64).map (fun b => c.peek n .active (va + 128 + b))))
    recordOf (c.getSpace n d 96 g.space (g.addr + row * rowStep g) (g.ext0 * fmtWidth g.fmt / 8))

/-- The stop set of a stream; none when it names none or it cannot be read. -/
def Chip.stopSet (c : Chip) (e : StreamEntry) : Option (List Byte) :=
  if e.stopset = 0xFFFF then none else
  match (c.ctx e.ctx.toNat).stopVa with
  | none => none
  | some va => c.fetchVa e.ctx.toNat (va.toNat + 192 * e.stopset.toNat) 192

/-- The token is a valid stop token. -/
def isStopToken (bs : List Byte) (token : Nat) : Bool :=
  (List.range 8).any (fun i => let v := leNat ((bs.drop (4 * i)).take 4); bit v 31 && decide (v % 2 ^ 20 = token))

/-- The last tokens of the log equal a stop sequence. -/
def Chip.endsSequence (c : Chip) (e : StreamEntry) (bs : List Byte) : Bool :=
  (List.range 4).any (fun i =>
    let len := (bs.getD (160 + i) 0).toNat
    decide (len ≠ 0) && decide (len ≤ e.pos.toNat) && (List.range len).all (fun j =>
      decide (c.logToken e (e.pos.toNat - len + j) = leNat ((bs.drop (32 + 32 * i + 4 * j)).take 4) % 2 ^ 20)))

/-- The REASON that completes a stream after a token; 0 for none. -/
def Chip.stopReason (c : Chip) (e : StreamEntry) (bad : Bool) (token : Nat) : Nat :=
  let set := (c.stopSet e).getD []
  if bad then 6
  else if isStopToken set token then 1
  else if c.endsSequence e set then 2
  else if e.pos.toNat = e.maxLen.toNat + 1 then 3
  else if e.stopReq then 7
  else 0

/-- One sampling row: its token is logged, the stop conditions tested, records posted (R274, R275). -/
def Chip.sampleRow (c : Chip) (n slot : Nat) (r : BatchRow) (k row : Nat) : Chip :=
  let e := c.entry r.stream
  if e.st ≠ .prefill ∧ e.st ≠ .decode then c else
  let sel := c.outputRecord n slot k row
  let bad := sel.nan || !sel.drawn || decide ((c.model slot).hdr.sclasses ≤ k)
  let t : Nat × Chip := match sel.entries[sel.draw.toNat]? with
    | some x => (x.2.toNat, c)
    | none => let f := c.freeWord; (f.1.toNat % 2 ^ 20, f.2)
  let c := t.2
  let wp := if r.prefill then e.target.toNat else e.pos.toNat
  let c := c.fwStore n (e.tokLog.toNat + 4 * wp) (leBytes 4 t.1)
  let now := c.now
  let c := c.modEntry r.stream (fun e => { e with pos := BitVec.ofNat 18 (wp + 1), lastTime := now, st := .decode, since := e.since + 1
                                                  fill := if r.prefill then e.target.toNat else e.fill })
  let e := c.entry r.stream
  let reason := c.stopReason e bad t.1
  if reason ≠ 0 then (c.postToken r.stream true reason wp t.1).freeEntry r.stream
  else if e.since = e.postn.toNat + 1 then (c.postToken r.stream false 0 wp t.1).modEntry r.stream (fun e => { e with since := 0 })
  else c

/-- A prefill row that does not sample advances its stream. -/
def Chip.prefillRow (c : Chip) (r : BatchRow) : Chip :=
  c.modEntry r.stream (fun e =>
    if e.st ≠ .prefill then e
    else { e with fill := max e.fill (r.pos + 1), pos := if e.switched && decide (r.pos < e.pos.toNat) then e.pos else BitVec.ofNat 18 (max e.pos.toNat (r.pos + 1)) })

/-- The rows of one model's batch in row order. -/
def Chip.stopRows (c : Chip) (n slot : Nat) (rows : List BatchRow) : Chip :=
  let cls := rows.map (fun r => (c.entry r.stream).sclass.toNat)
  (rows.zip cls).zipIdx.foldl (fun (a : Chip) x =>
    let r := x.1.1
    if r.sampling then a.sampleRow n slot r x.1.2 (x.2 - (cls.take x.2).findIdx (fun y => decide (y = x.1.2))) else a.prefillRow r) c

/-- STEPNS after a serve step (R283). -/
def stepNsAfter (old : W32) (t : Nat) : W32 := BitVec.ofInt 32 ((old.toNat : Int) + ((t : Int) - old.toNat).tdiv 8)

/-- STOP_DETECTION: the serve step is over once every model's entry has completed. -/
def Chip.stopDetect (c : Chip) (n durationNs : Nat) : Chip :=
  match (c.ctx n).run, (c.ctx n).execQ with
  | some r, x :: _ =>
    if !r.serveOpen ∨ !r.serveQ.isEmpty ∨ !c.streamsEnded n ∨ r.finish.isSome then c else
    let now := c.now
    let c := r.batches.foldl (fun (c : Chip) b => (c.stopRows n b.1 b.2).modModel b.1 (fun m =>
      { m with stepNs := stepNsAfter m.stepNs durationNs, last := now })) c
    let c := (c.modRun n (fun r => { r with serveOpen := false, serveSteps := r.serveSteps + 1, batches := [] })).modCtx n (fun x =>
      { x with serveStep := x.serveStep + 1 })
    let served := (c.ctx n).stepsServed
    match x.cmd with
    | .serve _ p => if p.count ≠ 0 ∧ p.count.toNat ≤ served then c.finish n { status := 0, value := BitVec.ofNat 32 served } else c
    | _ => c
  | _, _ => c

def execStopDetection (ctx : Nat) (durationNs : Nat) (s : State) : Host.Outcome State Fault Refusal := s.run (fun c => c.stopDetect ctx durationNs)

end Sys2Proof.Machine
end

