-- ==== Sys2Proof/Machine/Steps.lean ====
section
/-!
DEFINITION. Training steps: the gradient mode, the launch of a step, its commit point, the loss scale, the commit vote
and the step's configuration commands (R205, R213 to R220, R231, R257 to R263, R296, R302, R351, R352).
-/
namespace Sys2Proof.Machine

/-! ### Gradient mode (R231) -/

/-- LEFT: start-up steps that remain. -/
def TrainRegs.left (t : TrainRegs) : Nat := match t.since with | some k => t.nstart.toNat - k | none => 0

/-- The reason for narrow mode, by CAUSE of Table 9.9; 0 for none. -/
def Chip.narrowCause (c : Chip) (n : Nat) : Nat :=
  if (c.ctx n).train.left ≠ 0 then 1
  else if c.boot.mode = 3 then 2
  else if c.boot.mode = 4 then 3
  else if c.boot.ovl5 then 4
  else if c.vote.joining then 5
  else 0

/-- MODE, CAUSE and FORCED of a step that launches with an image. -/
def Chip.gradMode (c : Chip) (n : Nat) (img : Image) : BitVec 2 × BitVec 4 × Bool :=
  let t := (c.ctx n).train
  let why := c.narrowCause n
  if why ≠ 0 then (if img.hasErr then (1, BitVec.ofNat 4 why, false) else (2, BitVec.ofNat 4 why, true))
  else if t.noPerLayer then (2, 6, false)
  else if t.slow ≠ 0 then (2, 7, false)
  else (0, 0, false)

/-- Steps bucketed mode still asks for after a step whose largest round trip was `rtt`, in units of 10 ns. -/
def slowAfter (latLimit : Byte) (slow rtt : Nat) : Nat :=
  if latLimit.toNat * 100 < rtt then 100
  else if slow = 0 then 0
  else if rtt ≤ latLimit.toNat * 50 then slow - 1
  else 100

/-- CE_RTT at a step's end: the largest round trip to a live neighbour, zero with no live port (R263).
DESIGN CHOICE: log entry 10. -/
def Chip.probe (c : Chip) : Chip :=
  let live := c.ports.any (fun kv => decide (kv.2.st = 3))
  let r (i : Nat) : W16 := if live then Config.probeRtt (c.fresh + i) else 0
  { c with fresh := c.fresh + 2, w := { c.w with ce := { c.w.ce with rtt := r 0 } }, e := { c.e with ce := { c.e.ce with rtt := r 1 } } }

/-- The measurement at a step's end (R231): CE_RTT, and the steps bucketed mode still asks for. -/
def Chip.measure (c : Chip) (n : Nat) : Chip :=
  let c := c.probe
  let rtt := max c.w.ce.rtt.toNat c.e.ce.rtt.toNat
  c.modCtx n (fun x => { x with train := { x.train with slow := slowAfter x.train.latLimit x.train.slow rtt } })

/-! ### Launch -/

/-- The error areas of a die's platens become zero (R229). -/
def Chip.clearErr (c : Chip) (d : Die) (q : Nat) (img : DieImage) : Chip :=
  let held := match d with | .w => (c.part q).ptW.toNat | .e => (c.part q).ptE.toNat
  (List.range 64).foldl (fun c p =>
    let b := (tget [] img.platens p).getD 6 {}
    if bit held p && decide (b.base < b.limit) then
      let lo := platenKey d p (b.base * 4096)
      let hi := platenKey d p (b.limit * 4096)
      { c with platenMem := tfilter (fun k _ => !(decide (lo ≤ k) && decide (k < hi))) c.platenMem }
    else c) c

/-- COMMIT and ABORT taken for a step act on its launch (R351). -/
def Chip.applyAcks (c : Chip) (n : Nat) (step : W48) : Chip :=
  (c.ctx n).keptAcks.foldl (fun c a =>
    if a.1 ≠ step then c else
    let c := c.modRun n (fun r => { r with released := true })
    if a.2 then c.clearCommittable n 4 false 0 else c) c

/-- A training step runs the resident models its context owns or was granted: their last use (R283).
DEDUCED: log entry 54. -/
def Chip.useModels (c : Chip) (n : Nat) : Chip :=
  let now := c.now
  c.modServing (fun v => { v with models := tmap {} (fun _ m =>
    if m.st = 2 ∧ (m.owner = n ∨ m.grantees.contains n) then { m with last := now } else m) v.models })

/-- A step launches: what was left for it takes effect, mode and configuration are latched, COMMITTABLE is set, the
step's flags and sums begin anew (R59, R75, R198, R202, R205, R213, R231). -/
def Chip.launchStep (c : Chip) (n : Nat) (img : Image) (wE eE : W32) (start : W64) (step : W48) (hold : Bool) (reruns : Nat) (cnt : Tab W32) : Chip :=
  let c := (c.applyDeferred n).useModels n
  let x := c.ctx n
  let q := x.part
  let m := c.gradMode n img
  let hasW := img.w.isSome && decide (wE ≠ 0xFFFFFFFF)
  let hasE := img.e.isSome && decide (eE ≠ 0xFFFFFFFF)
  let c : Chip := if m.1 = 1 ∧ x.train.mode ≠ 1 then
    let c := match img.w with | some i => c.clearErr .w q i | none => c
    match img.e with | some i => c.clearErr .e q i | none => c
    else c
  let r : Run :=
    { start := start, began := c.now, isStep := true, step := step, hold := hold, commitW := !hasW, commitE := !hasE,
      reruns := reruns, lsExp := x.train.exp, mode := m.1, ocfg := x.ocfg }
  let side (k : CtxDie) : CtxDie := { k with flagStep := {}, widen := tmap {} (fun _ w => { w with widened := false }) k.widen }
  let c := c.modCtx n (fun x => { x with
    run := some r
    doneSteps := x.doneSteps.filter (fun s => decide (s ≠ step))
    acked := if x.doneSteps.contains step && !(x.keptAcks.any (fun a => decide (a.1 = step))) then x.acked.filter (fun s => decide (s ≠ step)) else x.acked
    train := { x.train with mode := m.1, cause := m.2.1, forced := m.2.2, written := [], committable := true, reason := 0,
                            ovfSeen := false, firstPset := 0 }
    w := side x.w
    e := side x.e })
  let c := (c.modDie .w (fun m => { m with gut := { m.gut with lossSum := 0 } })).modDie .e (fun m => { m with gut := { m.gut with lossSum := 0 } })
  let c := { c with vote := { c.vote with reruns := BitVec.ofNat 8 reruns } }
  (((c.applyAcks n step).capLaunch n x.train.exp).startCommand q).startStreams n img wE eE start step cnt

/-- Launch the step or fill-drain macro at the head of a context's queue. -/
def Chip.launchHead (c : Chip) (n reruns : Nat) : Chip :=
  match (c.ctx n).execQ with
  | [] => c
  | x :: _ =>
    match x.cmd with
    | .stepCmd h p step =>
      match tget none (c.ctx n).handles p.handle.toNat with
      | some img => c.launchStep n img p.wEntry p.eEntry p.start step h.hold reruns []
      | none => c
    | .fillDrain h p =>
      match tget none (c.ctx n).handles p.handle.toNat with
      | some img =>
        let entry := if p.m = 0 then 0xFFFFFFFF else p.fwd
        c.launchStep n img entry entry p.start p.step h.hold reruns (fillCounters p.m.toNat 0)
      | none => c
    | _ => c

/-! ### The loss scale (R219) -/

/-- Table 9.7. -/
def TrainRegs.scale (t : TrainRegs) (committed : Bool) : TrainRegs :=
  if t.ovfSeen then
    { t with exp := if t.exp = 0 then 0 else t.exp - 1, clean := 0, lsFloor := t.lsFloor || decide (t.exp = 0) }
  else if !committed then t
  else if t.clean.toNat + 1 < t.interval.toNat then { t with clean := t.clean + 1 }
  else { t with exp := if t.exp.toNat < 32 then t.exp + 1 else t.exp, clean := 0 }

/-! ### The commit point (R217) -/

/-- What a step waits for at its commit point but for the pin of R296. -/
def Chip.commitReady (c : Chip) (n : Nat) : Bool :=
  match (c.ctx n).run with
  | some r => r.isStep && !r.pastCommit && r.commitW && r.commitE && r.finish.isNone && (!r.hold || r.released) && (!c.votes n || r.voteDone)
  | none => false

/-- The proof falls due at this commit point: it flips and is the Nth such one since the arm (R294). -/
def Ctx.proofDue (x : Ctx) : Bool :=
  match x.proof.arm with
  | some a => x.train.committable && !x.train.written.isEmpty && decide (a.p.n.toNat ≤ a.count + 1)
  | none => false

/-- A shipment in flight holds this commit point (R296). -/
def Ctx.commitPinned (x : Ctx) : Bool :=
  match x.proof.ship with
  | some s => decide (1 ≤ s.flips) || x.proofDue
  | none => false

/-- The step register as the step left it. -/
def Ctx.stepReg (x : Ctx) (r : Run) : W48 := if r.issuedW || !r.issuedE then x.w.imp.step else x.e.imp.step

/-- Count a commit point at which selectors flip, and ship when a proof is due (R294, R295). -/
def Chip.countProof (c : Chip) (n : Nat) (flipped : Bool) (step : W48) : Chip :=
  let c := c.modCtx n (fun x => { x with proof := { x.proof with ship := x.proof.ship.map (fun s => { s with flips := s.flips + 1 }) } })
  match flipped, (c.ctx n).proof.arm with
  | true, some a =>
    let k := a.count + 1
    if k < a.p.n.toNat then c.modCtx n (fun x => { x with proof := { x.proof with arm := some { a with count := k } } })
    else
      let image := c.proofImage n a.p.allArr a.psets step c.now
      c.modCtx n (fun x => { x with proof :=
        { x.proof with arm := some { a with count := 0 }, shipStep := step,
                       ship := some { step := step, psets := a.psets, image := image, p := a.p } } })
  | _, _ => c

/-- The step's own status after its commit point (Tables 9.6 and 10.7): REASON 5 as an overflow when one was seen. -/
def stepStatus (t : TrainRegs) (removed : Bool) : W16 :=
  match t.reason.toNat with
  | 0 => if removed then 0x0010 else 0
  | 1 => 0x0301
  | 2 => 0x0302
  | 3 => 0x0303
  | 4 => 0x0304
  | _ => if t.ovfSeen then 0x0301 else 0x0304

/-- The loss sum's bits 79:48, saturated (Table 14.5). -/
def lossValue (sum : BitVec 128) : W32 :=
  let v := sum.toInt / 2 ^ 48
  if v < -(2 ^ 31) then 0x80000000 else if 2 ^ 31 - 1 < v then 0x7FFFFFFF else BitVec.ofInt 32 v

/-- The commit point itself: selectors, loss scale, proof, capture, mode counters (R202, R217, R219, R294, R302). -/
def Chip.commitNow (c : Chip) (n : Nat) (r : Run) : Chip :=
  let x := c.ctx n
  let go := x.train.committable
  let flips := if go then (x.train.written.filter (·.2)).map (·.1) else []
  let step := x.stepReg r
  let now := c.now
  let c := c.modCtx n (fun x => { x with train :=
    { (x.train.scale go) with
      active := flips.foldl (fun t ps => tput false t ps (!(tget false t ps))) x.train.active
      since := if go then x.train.since.map (· + 1) else x.train.since
      lastStep := if go then step else x.train.lastStep
      lastTime := if go then now else x.train.lastTime } })
  let c := (c.countProof n (!flips.isEmpty) step).capComplete n
  let c := c.measure n
  let c := if go then { c with vote := { c.vote with joining := false } } else c
  c.modCtx n (fun x => { x with
    run := some { r with pastCommit := true }
    keptAcks := x.keptAcks.filter (fun a => decide (a.1 ≠ r.step))
    doneSteps := r.step :: x.doneSteps })

/-- COMMIT_POINT: reached when its conditions hold, held while a shipment pins it. -/
def Chip.commitPoint (c : Chip) (n : Nat) : Chip :=
  match (c.ctx n).run with
  | none => c
  | some r =>
    if !c.commitReady n then c
    else if (c.ctx n).commitPinned then
      let c := c.modCtx n (fun x => { x with proof :=
        { x.proof with held := true, holds := if r.pinHeld then x.proof.holds else satAdd x.proof.holds 1 } })
      c.modRun n (fun r => { r with pinHeld := true })
    else c.commitNow n r

def execCommitPoint (ctx : Nat) (s : State) : Host.Outcome State Fault Refusal := s.run (fun c => c.commitPoint ctx)

/-! ### The commit vote (R257 to R261) -/

/-- A step fails its vote: nothing flips, the loss scale moves as for an abort unless a kill waits, the streams go (R218, R319).
DEDUCED: log entry 41. -/
def Chip.stepFail (c : Chip) (n : Nat) (status : W16) (detail : W32) : Chip :=
  match (c.ctx n).run with
  | none => c
  | some r =>
    let c := (c.clearCommittable n 5 false 0).measure n
    let c := c.modCtx n (fun x => { x with
      train := if r.heldKill.isSome then x.train else x.train.scale false
      doneSteps := if r.heldKill.isSome then x.doneSteps else r.step :: x.doneSteps
      keptAcks := if r.heldKill.isSome then x.keptAcks else x.keptAcks.filter (fun a => decide (a.1 ≠ r.step)) })
    (c.finish n { status := status, detail := detail }).dropStreams n 0x0407

/-- The vote group as a stream of the context holds it.
DEDUCED: log entry 41. -/
def Chip.voteGroup (c : Chip) (n : Nat) : Group :=
  let q := (c.ctx n).part
  let g (d : Die) : Group := match c.stream d q with
    | some s => if s.ctx = n then tget {} s.image.groups c.vote.vgroup.toNat else {}
    | none => {}
  if 1 < (g .w).p then g .w else g .e

/-- A vote is in progress: both COMMITs recorded, no outcome yet. -/
def Chip.voting (c : Chip) (n : Nat) : Bool :=
  match (c.ctx n).run with
  | some r => r.isStep && !r.pastCommit && r.commitW && r.commitE && r.finish.isNone && !r.voteDone && c.votes n
  | none => false

/-- The votes this module's dies sent (R259). -/
def Chip.ownVotes (c : Chip) (n : Nat) (g : Group) (r : Run) : List Vote :=
  let t := (c.ctx n).train
  let one (d : Die) : List Vote :=
    let self := c.domain.moduleId.toNat + 2 ^ 10 * d.num
    let i := g.plist.findIdx (fun p => decide (p.toNat % 2 ^ 11 = self))
    if i < g.p then
      [{ index := i, digest := c.dieDigest n d, ovfSeen := t.ovfSeen, committable := t.committable, step := (c.side n d).imp.step,
         time := match d with | .w => r.timeW | .e => r.timeE
         psets := (r.digests.filter (fun kv => decide (kv.1 / 4096 = d.num))).map (fun kv => (kv.1 % 4096, kv.2)) }]
    else []
  one .w ++ one .e

/-- Every participant's vote in ascending index, own votes from the state; none while one is missing. -/
def allVotes (p : Nat) (own votes : List Vote) : Option (List Vote) :=
  (List.range p).mapM (fun i => (own ++ votes).find? (fun v => decide (v.index = i)))

/-- The votes of a shard (R257). -/
def shardVotes (shards s : Nat) (vs : List Vote) : List Vote := vs.filter (fun v => decide (v.index % max 1 shards = s))

/-- The digest that more than half of a shard's replicas hold. -/
def majority (vs : List Vote) : Option W64 :=
  (vs.map (·.digest)).find? (fun d => decide (vs.length < 2 * (vs.filter (fun v => decide (v.digest = d))).length))

/-- The replicas of every shard agree. -/
def agree (shards : Nat) (vs : List Vote) : Bool :=
  (List.range (max 1 shards)).all (fun s => match shardVotes shards s vs with
    | [] => true
    | v :: t => t.all (fun w => decide (w.digest = v.digest)))

/-- A participant's digest of a PSET; zero where it updated none. -/
def psetVote (v : Vote) (ps : Nat) : W64 := ((v.psets.find? (fun x => decide (x.1 = ps))).map (·.2)).getD 0

/-- The first PSET that differs within a shard, in ascending PSET (R259). -/
def firstDiff (shards : Nat) (vs : List Vote) : Nat :=
  let differs (ps : Nat) : Bool := (List.range (max 1 shards)).any (fun s => match shardVotes shards s vs with
    | [] => false
    | v :: t => t.any (fun w => decide (psetVote w ps ≠ psetVote v ps)))
  ((List.range 4096).find? differs).getD 0

/-- Lateness of modules and straggler notices (R261). -/
def VoteRegs.straggle (k : VoteRegs) (g : Group) (vs : List Vote) (now : W64) : VoteRegs :=
  let first := vs.foldl (fun a v => min a v.time.toNat) (2 ^ 64)
  let mods := (vs.map (fun v => (g.plist.getD v.index 0).toNat % 1024)).eraseDups
  mods.foldl (fun (k : VoteRegs) m =>
    let late := (vs.filter (fun v => decide ((g.plist.getD v.index 0).toNat % 1024 = m))).foldl (fun a v => max a (v.time.toNat - first)) 0
    let runs := if k.stragMs.toNat * 1000000 < late then tget 0 k.lateRuns m + 1 else 0
    let k := { k with lateRuns := tput 0 k.lateRuns m runs }
    if runs ≠ 0 ∧ k.stragSteps.toNat ≤ runs then
      { k with strag := k.strag.event now, stragModule := if k.strag.notice then k.stragModule else BitVec.ofNat 10 m }
    else k) k

/-- The PSET digests that a die of this module sends to the other participants when digests differ, in ascending PSET (R259). -/
def Chip.sendPsets (c : Chip) (g : Group) (own : List Vote) : Chip :=
  own.foldl (fun c v =>
    let self := (g.plist.getD v.index 0).toNat % 2 ^ 11
    let data := v.psets.flatMap (fun p => leBytes 2 p.1 ++ leBytes 8 p.2.toNat)
    g.plist.foldl (fun c p => if p.toNat % 2 ^ 11 = self then c else c.send msgVote (p.toNat % 2 ^ 11) data) c) c

/-- What a vote decides for this module. -/
inductive VoteOutcome where
  | mismatch
  | agreed
  | removed
  | divergent (peer : Nat)
  | rerun
  | halt
  deriving DecidableEq, Repr, Inhabited

/-- The outcome of a full set of votes (Table 10.7). -/
def voteOutcome (k : VoteRegs) (g : Group) (own : List Nat) (vs : List Vote) (committable : Bool) : VoteOutcome :=
  let s := k.shards.toNat
  if vs.any (fun v => decide (v.step ≠ (vs.headD default).step)) then .mismatch
  else if !committable ∨ agree s vs then .agreed
  else if (List.range (max 1 s)).all (fun i => (shardVotes s i vs).isEmpty || (majority (shardVotes s i vs)).isSome) then
    let lost := vs.find? (fun v => own.contains v.index && decide (majority (shardVotes s (v.index % max 1 s) vs) ≠ some v.digest))
    match lost with
    | some v =>
      let sh := shardVotes s (v.index % max 1 s) vs
      let peer := sh.find? (fun w => decide (majority sh = some w.digest))
      .divergent (match peer with | some w => (g.plist.getD w.index 0).toNat % 2 ^ 11 | none => 0)
    | none => .removed
  else if k.reruns = 0 then .rerun
  else if k.lastDiff = some (BitVec.ofNat 12 (firstDiff s vs)) ∨ 2 ≤ k.reruns.toNat then .halt
  else .rerun

/-- Record a disagreement (Table 10.8). -/
def VoteRegs.disagree (k : VoteRegs) (result : BitVec 4) (ps : Nat) : VoteRegs :=
  { k with result := result, notice := true, firstPset := BitVec.ofNat 12 ps, lastDiff := some (BitVec.ofNat 12 ps) }

/-- VOTE_RECEIVED: all votes are here (R259, R260). -/
def Chip.voteReceived (c : Chip) (n : Nat) (votes : List Vote) : Chip :=
  if !c.voting n then c else
  match (c.ctx n).run with
  | none => c
  | some r =>
    let g := c.voteGroup n
    let own := c.ownVotes n g r
    match allVotes g.p own votes with
    | none => c
    | some vs =>
      let c := { c with vote := c.vote.straggle g vs c.now }
      let ovf := vs.any (·.ovfSeen)
      let all := vs.all (·.committable)
      let ps := firstDiff c.vote.shards.toNat vs
      let c := if all && !agree c.vote.shards.toNat vs then c.sendPsets g own else c
      let pass (c : Chip) : Chip := c.modRun n (fun r => { r with voteDone := true })
      match voteOutcome c.vote g (own.map (·.index)) vs all with
      | .mismatch => c.stepFail n 0x0403 0
      | .agreed =>
        let c := { c with vote := { c.vote with result := 1 } }
        let c := if all then c else c.clearCommittable n 5 ovf 0
        pass (c.modCtx n (fun x => { x with train := { x.train with ovfSeen := x.train.ovfSeen || ovf } }))
      | .removed =>
        let c := { c with vote := c.vote.disagree 2 ps }
        let c := c.modCtx n (fun x => { x with train := { x.train with ovfSeen := x.train.ovfSeen || ovf } })
        pass (c.modRun n (fun r => { r with removed := true }))
      | .divergent peer =>
        let c := { c with vote := { (c.vote.disagree 5 ps) with peer := BitVec.ofNat 11 peer } }
        let q := (c.ctx n).part
        (c.teardown n { status := 0x0405 }).settlePart q
      | .rerun =>
        let c := { c with vote := c.vote.disagree 3 ps }
        (c.dropStreams n 0x0407).launchHead n (r.reruns + 1)
      | .halt =>
        let c := { c with vote := c.vote.disagree 4 ps }
        (c.stepFail n 0x0404 (BitVec.ofNat 32 ps)).modCtx n (fun x => { x with halted := true })

def execVoteReceived (ctx : Nat) (votes : List Vote) (s : State) : Host.Outcome State Fault Refusal := s.run (fun c => c.voteReceived ctx votes)

/-- VOTE_TIMEOUT: the vote is incomplete at the group's timeout (R259). -/
def Chip.voteTimeout (c : Chip) (n : Nat) : Chip :=
  if !c.voting n then c else ({ c with vote := { c.vote with result := 6 } }).stepFail n 0x0401 0

def execVoteTimeout (ctx : Nat) (s : State) : Host.Outcome State Fault Refusal := s.run (fun c => c.voteTimeout ctx)

/-! ### COMMIT and ABORT (R217, R351) -/

/-- A COMMIT or an ABORT for a step: at once for the running one, kept for one not launched, without effect on a
completed one; a second for the same step is rejected.
DEDUCED: log entry 40. -/
def Chip.ack (c : Chip) (h : Hdr) (step : W48) (abort : Bool) : Chip :=
  let n := h.ctx
  let x := c.ctx n
  if x.acked.contains step then c.range h 32
  else
    let c := c.modCtx n (fun x => { x with acked := step :: x.acked })
    if x.doneSteps.contains step then c.ok h (if abort then 1 else 0)
    else
      let c := c.modCtx n (fun x => { x with keptAcks := x.keptAcks ++ [(step, abort)] })
      let c : Chip := match x.run with
        | some r =>
          if r.isStep ∧ r.step = step ∧ !r.pastCommit then
            let c := c.modRun n (fun r => { r with released := true })
            if abort then c.clearCommittable n 4 false 0 else c
          else c
        | none => c
      c.ok h 0

def execCommitCmd (h : Hdr) (step : W48) (s : State) : Host.Outcome State Fault Refusal :=
  s.run (fun c => c.command h false true (fun c => c.ack h step false))
def execAbortCmd (h : Hdr) (step : W48) (s : State) : Host.Outcome State Fault Refusal :=
  s.run (fun c => c.command h false true (fun c => c.ack h step true))

/-! ### Configuration commands -/

/-- OCFG_SET (R205). A running step keeps the table it launched with. -/
def execOcfgSet (h : Hdr) (entry : Byte) (e : Ocfg) (s : State) : Host.Outcome State Fault Refusal :=
  s.run (fun c => c.command h false true (fun c =>
    match ocfgBad e with
    | some b => c.done h b.1 (BitVec.ofNat 32 b.2) 0
    | none => (c.modCtx h.ctx (fun x => { x with ocfg := tput default x.ocfg entry.toNat e })).ok h 0))

/-- LS_SET (R219): e and INTERVAL, CLEAN zero; from the next launch while a step runs (R352). -/
def execLsSet (h : Hdr) (e : BitVec 6) (interval : W16) (s : State) : Host.Outcome State Fault Refusal :=
  s.run (fun c => c.command h false true (fun c =>
    if 32 < e.toNat then c.range h 32
    else if interval.toNat < 100 then c.range h 34
    else
      let set := c.modCtx h.ctx (fun x => { x with train := { x.train with exp := e, interval := interval, clean := 0 } })
      (c.deferOr h.ctx (.lsSet h e interval) set).ok h 0))

/-- GMODE_SET (R231, Table 9.9): MIB from 1, the norm array 16-byte aligned. -/
def execGmodeSet (h : Hdr) (p : GmodeP) (s : State) : Host.Outcome State Fault Refusal :=
  s.run (fun c => c.command h false true (fun c =>
    if p.mib = 0 then c.range h 36
    else if p.normBase.toNat % 16 ≠ 0 then c.range h 48
    else (c.modCtx h.ctx (fun x => { x with train :=
      { x.train with nstart := p.nstart, latLimit := p.latLimit, noPerLayer := p.noPerLayer, mib := p.mib, maxNorm := p.maxNorm,
                     normBase := p.normBase } })).ok h 0))

/-- REPLICA_SET (R257, Table 10.8): S from 1, STRAG_STEPS from 1, STRAG_MS from 1 to 10,000. -/
def execReplicaSet (h : Hdr) (p : ReplicaP) (s : State) : Host.Outcome State Fault Refusal :=
  s.run (fun c => c.command h false true (fun c =>
    if p.shards = 0 then c.range h 33
    else if p.stragSteps = 0 then c.range h 35
    else if p.stragMs = 0 ∨ 10000 < p.stragMs.toNat then c.range h 40
    else ({ c with vote := { c.vote with vgroup := p.vgroup, shards := p.shards, stragSteps := p.stragSteps, stragMs := p.stragMs } }).ok h 0))

end Sys2Proof.Machine
end

