-- ==== Sys2Proof/Machine/Stacks.lean ====
section
/-!
DEFINITION. Hot-channel detection and page migration of a stack (R98 to R101).
-/
namespace Sys2Proof.Machine

/-- The largest of a list of byte counts, and the first place that holds it. -/
def busiest (l : List Nat) : Nat × Nat :=
  let m := l.foldl max 0
  (m, l.findIdx (fun x => decide (x = m)))

/-- Channel imbalance: above 4 times the mean of the 16 channels, with at least 3 MB moved (R98). -/
def chanImbalance (ch : List Nat) : Bool := decide (sumNat ch < 4 * (busiest ch).1) && decide (3000000 ≤ sumNat ch)

/-- Stack imbalance: interleaved bytes above 4 times the mean of the eight stacks, and at least 0.75 MB. -/
def stackImbalance (n : Nat) (inter : List Nat) : Bool :=
  decide (sumNat inter < 2 * inter.getD n 0) && decide (750000 ≤ inter.getD n 0)

/-- A window is judged: the hot state, and a crossing into it.
DEDUCED: log entry 69. -/
def StackSt.window (k : StackSt) (n : Nat) (ch inter : List Nat) (ratio : Nat) (now : W64) : StackSt :=
  let byChan := chanImbalance ch
  let byStack := stackImbalance n inter
  let k := { k with ratio := BitVec.ofNat 12 (min ratio 4095) }
  if byChan || byStack then
    let k := { k with badRun := k.badRun + 1, goodRun := 0 }
    if k.badRun < 1000 ∨ k.chanHot ∨ k.stackHot then k
    else
      { k with hot := k.hot.event now, chanHot := byChan, stackHot := byStack
               firstKind := if k.hot.notice then k.firstKind else !byChan
               firstChan := if k.hot.notice then k.firstChan else BitVec.ofNat 4 (busiest ch).2 }
  else
    let k := { k with badRun := 0, goodRun := k.goodRun + 1 }
    if k.goodRun < 100 then k else { k with chanHot := false, stackHot := false }

/-- TRAFFIC_WINDOW: bytes of the stack's channels, and of every stack's interleaved pages. The ratio of a window that moved
nothing is not stated: a free value. -/
def Chip.trafficWindow (c : Chip) (n : Nat) (ch inter : List Nat) : Chip :=
  let f := c.freeWord
  if sumNat ch = 0 then f.2.modStk n (fun k => k.window n ch inter (f.1.toNat % 4096) c.now)
  else c.modStk n (fun k => k.window n ch inter ((busiest ch).1 * 256 / sumNat ch) c.now)

def execTrafficWindow (stack : Nat) (channels : List Nat) (interleaved : List Nat) (s : State) : Host.Outcome State Fault Refusal :=
  s.run (fun c => c.trafficWindow stack channels interleaved)

/-! ### Migration (R101) -/

/-- The copy of a page that accesses reach. -/
def Chip.liveCopy (c : Chip) (n vp : Nat) : Option (Page × Bool) :=
  match tget none (c.ctx n).pages vp with
  | some p => if p.granted || p.spilled then none else some (p, p.useB (c.ctx n) .active)
  | none => none

/-- A copy has bytes on a stack. -/
def Phys.onStack (p : Phys) (st : Nat) : Bool := decide (p.eighths st ≠ 0)

/-- The page chosen from the sample buffer, whose entries are context, page number and nanoseconds since the page was last
written: most samples, then lowest page number, among pages read-only to their owner or not written in the last 1 ms. Equal page
numbers of different contexts are a tie the rule does not settle: the lowest context's page is chosen.
DESIGN CHOICE: log entry 94. -/
def Chip.hotPage (c : Chip) (st : Nat) (samples : List (Nat × Nat × Nat)) : Option (Nat × Nat) :=
  let l := samples.take 64
  let fit (x : Nat × Nat × Nat) : Bool := match c.liveCopy x.1 x.2.1 with
    | some (p, b) => (p.attr.ro || decide (1000000 ≤ x.2.2)) && (p.copy b).phys.onStack st
    | none => false
  let hits (x : Nat × Nat) : Nat := (l.filter (fun y => decide (y.1 = x.1 ∧ y.2.1 = x.2))).length
  let cand := ((l.filter fit).map (fun x => (x.1, x.2.1))).eraseDups
  let ahead (a b : Nat × Nat) : Bool :=
    decide (hits b < hits a) || (decide (hits a = hits b) && (decide (a.2 < b.2) || (decide (a.2 = b.2) && decide (a.1 < b.1))))
  (sortBy ahead cand).head?

/-- A migration may start: the stack is hot, the loop enabled, none in flight, none started in the last 100 µs. -/
def StackSt.mayMigrate (k : StackSt) (now : W64) : Bool :=
  (k.chanHot || k.stackHot) && k.migEnable && k.mig.isNone && k.old.isEmpty &&
  (match k.lastMig with | some t => decide (t.toNat + 100000 ≤ now.toNat) | none => true)

/-- The class a copy's space belongs to. -/
def Phys.place : Phys → Nat
  | .pinned st _ => st
  | .inter _ => 8

/-- PAGE_MIGRATION: choose a page and take free space of its class, or skip. -/
def Chip.migrate (c : Chip) (st : Nat) (samples : List (Nat × Nat × Nat)) : Chip :=
  if !(c.stk st).mayMigrate c.now then c else
  match c.hotPage st samples with
  | none => c
  | some (n, vp) =>
    match c.liveCopy n vp with
    | none => c
    | some (p, b) =>
      match c.findPlace (p.copy b).phys.place with
      | none => c.modStk st (fun k => { k with skipped := satAdd k.skipped 1 })
      | some fresh =>
        ({ c with fresh := c.fresh + 1 }).modStk st (fun k =>
          { k with mig := some { ctx := n, page := vp, copyB := b, fresh := fresh }, lastMig := some c.now })

def execPageMigration (stack : Nat) (samples : List (Nat × Nat × Nat)) (s : State) : Host.Outcome State Fault Refusal :=
  s.run (fun c => c.migrate stack samples)

/-- Every mapping of a physical copy, granted ones included, now means another. -/
def Chip.redirect (c : Chip) (old new : PageCopy) : Chip :=
  let one (k : PageCopy) : PageCopy := if k.phys = old.phys then new else k
  let page (g : Option Page) : Option Page := g.map (fun p => { p with copyA := one p.copyA, copyB := p.copyB.map one })
  { c with ctxs := tmap {} (fun _ x => { x with pages := tmap none (fun _ g => page g) x.pages }) c.ctxs }

/-- A list fetched before a switch goes on with the old copy of a page that moved to a place (R101). -/
def View.keep (v : View) (fresh : Phys) (old : PageCopy) : View := { v with old := (fresh, v.copy old) :: v.old }

/-- Every list that has been fetched keeps the old copy. -/
def UnitQ.keep (k : UnitQ) (fresh : Phys) (old : PageCopy) : UnitQ :=
  { queue := k.queue.map (fun e => { e with view := e.view.map (·.keep fresh old) })
    op := k.op.map (fun o => { o with view := o.view.map (·.keep fresh old) }) }

def Stream.keep (s : Stream) (fresh : Phys) (old : PageCopy) : Stream :=
  { s with units := tmap {} (fun _ k => k.keep fresh old) s.units
           bucket := s.bucket.map (fun o => { o with view := o.view.map (·.keep fresh old) }) }

def DieSt.keep (m : DieSt) (fresh : Phys) (old : PageCopy) : DieSt :=
  { m with streams := tmap none (fun _ s => s.map (·.keep fresh old)) m.streams }

/-- The lists of a unit that has not completed use the copy at an old place. -/
def View.uses (v : View) (p : Phys) : Bool := v.old.any (fun x => decide (x.2.phys = p))

def DieSt.viewUses (m : DieSt) (p : Phys) : Bool :=
  m.streams.any (fun kv => match kv.2 with
    | some s => !s.stopped && (s.bucket.any (fun o => (o.view.map (·.uses p)).getD false) || s.units.any (fun k =>
        k.2.queue.any (fun e => (e.view.map (·.uses p)).getD false) ||
        (match k.2.op with | some o => !o.completed && (o.view.map (·.uses p)).getD false | none => false)))
    | none => false)

/-- The writes that waited for a migration land, through the translation as it then stands. -/
def Chip.landHeld (c : Chip) (m : Migration) : Chip := m.held.foldl (fun c x => (c.writeVa x.1 x.2.1 x.2.2).1) c

/-- MIGRATION_SWITCH: the copy holds the page's bytes under SALT + 1, and translation means it, but for the lists already fetched; a
page unmapped or spilled meanwhile abandons the migration. The writes that waited land then.
DEDUCED: log entry 70. -/
def Chip.migrationSwitch (c : Chip) (st : Nat) : Chip :=
  match (c.stk st).mig with
  | none => c
  | some m =>
    let c := c.modStk st (fun k => { k with mig := none })
    match tget none (c.ctx m.ctx).pages m.page with
    | none => c.landHeld m
    | some p =>
      let old := p.copy m.copyB
      if p.spilled ∨ p.granted ∨ old.phys.place ≠ m.fresh.place then c.landHeld m else
      let new : PageCopy := { old with phys := m.fresh, salt := old.salt + 1 }
      let c := (c.copyOver old new).redirect old new
      let c := (c.modDie .w (·.keep m.fresh old)).modDie .e (·.keep m.fresh old)
      (c.modStk st (fun k => { k with old := [old.phys], done := satAdd k.done 1 })).landHeld m

def execMigrationSwitch (stack : Nat) (s : State) : Host.Outcome State Fault Refusal := s.run (fun c => c.migrationSwitch stack)

/-- MIGRATION_FREE: the old space is free, once no op that has not completed was fetched before the switch; until then nothing
happens. Its cache lines and bytes go. -/
def Chip.migrationFree (c : Chip) (st : Nat) : Chip :=
  let gone := (c.stk st).old
  if gone.any (fun p => c.w.viewUses p || c.e.viewUses p) then c else
  let c := gone.foldl (fun c p =>
    let k : PageCopy := { phys := p, salt := 0, hash := 0, written := false }
    ({ c with dram := zeroCopy c.dram k, ecc := zeroEcc c.ecc k } : Chip).snoopCopy k) c
  c.modStk st (fun k => { k with old := [] })

def execMigrationFree (stack : Nat) (s : State) : Host.Outcome State Fault Refusal := s.run (fun c => c.migrationFree stack)

end Sys2Proof.Machine
end

