-- ==== Sys2Proof/Machine/RegMap.lean ====
section
/-!
DEFINITION. The register map: every register of BAR0 and BAR2 at its offset, what a read returns and clears, what a write
sets (R7, R26, R58, R69, R79, R84, R100, R137, R158, R172, R191, R222, R223, R256, R263, R285, R305, R330, R332, R335,
R379, R383, R385, R395, R398, R404, R409).
-/
namespace Sys2Proof.Machine

/-- A register that starts at an offset: its bytes and its value. -/
abbrev RegVal := Option (Nat × Nat)

/-- A 4-byte register. -/
def r4 (v : Nat) : RegVal := some (4, v % 2 ^ 32)
/-- An 8-byte register. -/
def r8 (v : Nat) : RegVal := some (8, v % 2 ^ 64)

/-- A notice register: COUNT in bits 31:16, NOTICE in bit 0. -/
def Notice.word (x : Notice) : Nat := x.count.toNat * 2 ^ 16 + b2n x.notice

/-- The registers of one of two equal blocks, the second `gap` bytes on: the die and the offset within it. -/
def dieBlock (base gap o : Nat) : Option (Die × Nat) :=
  if base ≤ o ∧ o < base + gap then some (.w, o - base)
  else if base + gap ≤ o ∧ o < base + 2 * gap then some (.e, o - base - gap)
  else none

/-! ### Registers that belong to a context and a die -/

/-- Table 2.7. -/
def CtxDie.flagReg (k : CtxDie) (o : Nat) : RegVal :=
  let e := tget {} k.flags k.flagSel.toNat
  let f := k.flagStep.f
  match o with
  | 0x00 => r4 k.flagSel.toNat
  | 0x08 => r4 e.ovf.toNat
  | 0x0C => r4 e.nan.toNat
  | 0x10 => r4 e.clip.toNat
  | 0x14 => r4 e.badcode.toNat
  | 0x18 => r4 e.trunc.toNat
  | 0x20 => r4 (k.flagStep.firstTag.toNat * 2 ^ 16 + b2n f.ovf + 2 * b2n f.nan + 4 * b2n f.clip + 8 * b2n f.badcode + 16 * b2n f.trunc)
  | _ => none

def CtxDie.flagClear (k : CtxDie) (o : Nat) : CtxDie :=
  let put (g : FlagCounts → FlagCounts) : CtxDie := { k with flags := tmod {} k.flags k.flagSel.toNat g }
  match o with
  | 0x08 => put (fun e => { e with ovf := 0 })
  | 0x0C => put (fun e => { e with nan := 0 })
  | 0x10 => put (fun e => { e with clip := 0 })
  | 0x14 => put (fun e => { e with badcode := 0 })
  | 0x18 => put (fun e => { e with trunc := 0 })
  | _ => k

/-- A write: `v` holds the new bytes over the old ones, `w` the written bytes alone. -/
def CtxDie.flagWrite (k : CtxDie) (o v w : Nat) : CtxDie :=
  match o with
  | 0x00 => { k with flagSel := BitVec.ofNat 12 v }
  | 0x20 =>
    let f := k.flagStep.f
    { k with flagStep := { k.flagStep with f :=
      { ovf := f.ovf && !bit w 0, nan := f.nan && !bit w 1, clip := f.clip && !bit w 2, badcode := f.badcode && !bit w 3, trunc := f.trunc && !bit w 4 } } }
  | _ => k

/-- Table 3.6. -/
def CtxDie.widenReg (k : CtxDie) (o : Nat) : RegVal :=
  let e := tget {} k.widen k.widenSel.toNat
  match o with
  | 0x00 => r4 k.widenSel.toNat
  | 0x08 => r4 (b2n e.enable * 2 ^ 31 + e.thresh.toNat)
  | 0x10 => r8 e.clip.toNat
  | 0x18 => r8 e.conv.toNat
  | 0x20 => r4 e.count.toNat
  | 0x24 => r4 (b2n e.widened)
  | _ => none

def CtxDie.widenClear (k : CtxDie) (o : Nat) : CtxDie :=
  let put (g : WidenEntry → WidenEntry) : CtxDie := { k with widen := tmod {} k.widen k.widenSel.toNat g }
  match o with
  | 0x10 => put (fun e => { e with clip := 0 })
  | 0x18 => put (fun e => { e with conv := 0 })
  | 0x20 => put (fun e => { e with count := 0 })
  | _ => k

def CtxDie.widenWrite (k : CtxDie) (o v : Nat) : CtxDie :=
  match o with
  | 0x00 => { k with widenSel := BitVec.ofNat 12 v }
  | 0x08 => { k with widen := tmod {} k.widen k.widenSel.toNat (fun e => { e with enable := bit v 31, thresh := BitVec.ofNat 24 v }) }
  | _ => k

/-- The selected semaphore pair of the shown context: live while it runs, else as saved (R149, R310, R330).
DEDUCED: log entry 63. -/
def Chip.shownSem (c : Chip) (n : Nat) (d : Die) : Sem :=
  let k := c.side n d
  let q := (c.ctx n).part
  let i := k.semSel.toNat
  if (c.part q).cur = some n then (if c.semOk q i then (c.die d).sem (c.pair q i) else {}) else tget {} k.semSaved i

/-- Tables 5.10, 6.6 and 7.6. -/
def Chip.streamReg (c : Chip) (n : Nat) (d : Die) (o : Nat) : RegVal :=
  let k := c.side n d
  let i := k.imp
  let f := k.fault
  let g := k.compFault
  match o with
  | 0x00 => r4 (i.waitKind.toNat * 2 ^ 4 + i.state.toNat)
  | 0x08 => r4 i.pc.toNat
  | 0x10 => r4 (i.trapCause.toNat * 2 ^ 24 + i.trapSlot.toNat * 2 ^ 17 + i.trapCode.toNat * 2 + b2n i.trapValid)
  | 0x14 => r4 i.trapPc.toNat
  | 0x18 => r4 i.late.word
  | 0x20 => r8 i.late.time.toNat
  | 0x28 => r4 i.stall.toNat
  | 0x2C => r4 i.overrun.toNat
  | 0x30 => r8 i.step.toNat
  | 0x40 => r4 (f.kind.toNat * 2 ^ 28 + f.unit.toNat * 2 ^ 21 + f.desc.toNat * 2 ^ 11 + b2n f.valid)
  | 0x48 => r8 f.addr.toNat
  | 0x50 => r4 f.list.toNat
  | 0x58 => r4 k.semSel.toNat
  | 0x5C => r4 ((c.shownSem n d).empty.toNat * 2 ^ 16 + (c.shownSem n d).full.toNat)
  | 0x60 => r4 (k.semOvfPair.toNat * 2 + b2n k.semOvf)
  | 0x64 => r4 k.wgKills.toNat
  | 0x68 => r4 k.wcHits.toNat
  | 0x6C => r4 k.wcMisses.toNat
  | 0x80 => r4 (g.kind.toNat * 2 ^ 28 + g.spawn.toNat * 2 ^ 25 + g.loc.toNat * 2 ^ 22 + g.comp.toNat * 2 ^ 14 + g.context.toNat * 4 + b2n g.valid)
  | 0x84 => r4 (g.prog.toNat * 2 ^ 16 + g.offset.toNat)
  | 0x88 => r4 g.tid.toNat
  | _ => none

def CtxDie.streamClear (k : CtxDie) (o : Nat) : CtxDie :=
  match o with
  | 0x28 => { k with imp := { k.imp with stall := 0 } }
  | 0x2C => { k with imp := { k.imp with overrun := 0 } }
  | 0x64 => { k with wgKills := 0 }
  | 0x68 => { k with wcHits := 0 }
  | 0x6C => { k with wcMisses := 0 }
  | _ => k

def CtxDie.streamWrite (k : CtxDie) (o v w : Nat) : CtxDie :=
  match o with
  | 0x10 => if bit w 0 then { k with imp := { k.imp with trapValid := false } } else k
  | 0x18 => if bit w 0 then { k with imp := { k.imp with late := {} } } else k
  | 0x40 => if bit w 0 then { k with fault := { k.fault with valid := false } } else k
  | 0x58 => { k with semSel := BitVec.ofNat 12 v }
  | 0x60 => if bit w 0 then { k with semOvf := false } else k
  | 0x80 => if bit w 0 then { k with compFault := { k.compFault with valid := false } } else k
  | _ => k

/-- Table 9.8. -/
def CtxDie.gaugeReg (k : CtxDie) (o : Nat) : RegVal :=
  let e := tget {} k.gauge k.gaugeSel.toNat
  match o with
  | 0x00 => r4 k.gaugeSel.toNat
  | 0x04 => r4 (b2n e.lscope)
  | 0x08 => r8 e.gsq.toNat
  | 0x10 => r8 e.wsq.toNat
  | 0x18 => r8 e.usq.toNat
  | 0x20 => r4 e.nonfin.toNat
  | 0x24 => r4 e.ovf.toNat
  | 0x28 => r4 e.clip.toNat
  | 0x2C => r4 e.conv.toNat
  | 0x30 => r8 e.step.toNat
  | _ => none

def CtxDie.gaugeWrite (k : CtxDie) (o v : Nat) : CtxDie :=
  match o with
  | 0x00 => { k with gaugeSel := BitVec.ofNat 12 v }
  | 0x04 => { k with gauge := tmod {} k.gauge k.gaugeSel.toNat (fun e => { e with lscope := bit v 0 }) }
  | _ => k

/-! ### Registers that belong to a context -/

/-- Table 9.9. -/
def TrainRegs.reg (t : TrainRegs) (o : Nat) : RegVal :=
  match o with
  | 0x00 => r4 (t.clean.toNat * 2 ^ 16 + t.exp.toNat)
  | 0x04 => r4 t.interval.toNat
  | 0x08 => r4 (t.firstPset.toNat * 2 ^ 16 + b2n t.lsFloor * 2 ^ 8 + b2n t.ovfSeen * 16 + t.reason.toNat * 2 + b2n t.committable)
  | 0x10 => r4 (t.latLimit.toNat * 2 ^ 24 + t.nstart.toNat * 2 ^ 16 + (t.left % 256) * 2 ^ 8 + t.cause.toNat * 16 + b2n t.forced * 4 + t.mode.toNat)
  | 0x14 => r4 t.mib.toNat
  | 0x18 => r4 t.maxNorm.toNat
  | 0x20 => r8 t.normBase.toNat
  | 0x28 => r4 t.pselSel.toNat
  | 0x2C => r4 (2 * b2n (tget false t.written t.pselSel.toNat) + b2n (tget false t.active t.pselSel.toNat))
  | _ => none

def TrainRegs.regWrite (t : TrainRegs) (o v w : Nat) : TrainRegs :=
  match o with
  | 0x08 => if bit w 8 then { t with lsFloor := false } else t
  | 0x28 => { t with pselSel := BitVec.ofNat 12 v }
  | _ => t

/-- Table 12.3. -/
def ProofRegs.reg (p : ProofRegs) (o : Nat) : RegVal :=
  match o with
  | 0x00 => r8 (p.shipStep.toNat * 2 ^ 16 + b2n p.held * 4 + (if p.ship.isSome then 2 else if p.arm.isSome then 1 else 0))
  | 0x08 => r4 p.done.toNat
  | 0x0C => r4 p.holds.toNat
  | 0x10 => r4 (p.rngTile.toNat * 2 ^ 12 + p.rngStream.toNat * 2 ^ 8 + b2n p.rngOver)
  | 0x18 => r8 (p.capStep.toNat * 2 ^ 16 + p.capPsets.toNat * 4 + p.capState.toNat)
  | 0x20 => r4 (p.repFirst.toNat * 2 ^ 20 + p.repMiss.toNat * 2 ^ 12 + p.repResult.toNat)
  | _ => none

def ProofRegs.clear (p : ProofRegs) (o : Nat) : ProofRegs :=
  match o with
  | 0x08 => { p with done := 0 }
  | 0x0C => { p with holds := 0 }
  | _ => p

def ProofRegs.regWrite (p : ProofRegs) (o w : Nat) : ProofRegs :=
  match o with
  | 0x10 => if bit w 0 then { p with rngOver := false } else p
  | _ => p

/-- The context part of Table 13.6. -/
def Chip.ctxReg (c : Chip) (n : Nat) (o : Nat) : RegVal :=
  let x := c.ctx n
  match o with
  | 0x08 => r4 (x.kills * 2 ^ 24 + b2n (c.isProtected n) * 2 ^ 23 + b2n x.rbwFault * 2 ^ 22 + b2n x.held * 2 ^ 21 +
                (x.part % 16) * 2 ^ 16 + b2n x.latency * 2 ^ 8 + x.st.code)
  | 0x0C => r4 x.rbw.toNat
  | 0x10 => r4 x.killCount.toNat
  | _ => none

def Ctx.regClear (x : Ctx) (o : Nat) : Ctx :=
  match o with
  | 0x0C => { x with rbw := 0 }
  | 0x10 => { x with killCount := 0 }
  | _ => x

/-! ### Where a context register stands -/

/-- A register that belongs to a context, with its place in that context's record. -/
inductive CtxReg where
  | flag (d : Die) (o : Nat)
  | widen (d : Die) (o : Nat)
  | stream (d : Die) (o : Nat)
  | gauge (d : Die) (o : Nat)
  | train (o : Nat)
  | proof (o : Nat)
  | ctx (o : Nat)
  | ptIdle (d : Die) (pt code : Nat)
  | teIdle (d : Die) (te code : Nat)
  | idleSel (d : Die)
  | idleSum (d : Die) (code : Nat)
  deriving DecidableEq, Repr, Inhabited

/-- The context register an offset belongs to. -/
def ctxRegAt (o : Nat) : Option CtxReg :=
  match dieBlock 0x30000 0x100 o with
  | some (d, k) => some (.flag d k)
  | none =>
  match dieBlock 0x30400 0x100 o with
  | some (d, k) => some (.widen d k)
  | none =>
  match dieBlock 0x40000 0x100 o with
  | some (d, k) => some (.stream d k)
  | none =>
  match dieBlock 0x61000 0x100 o with
  | some (d, k) => some (.gauge d k)
  | none =>
  match dieBlock 0x90000 0x100 o with
  | some (d, k) =>
    if k = 0 then some (.idleSel d) else if 8 ≤ k ∧ k < 0x88 ∧ k % 8 = 0 then some (.idleSum d ((k - 8) / 8)) else none
  | none =>
  match dieBlock 0x100000 0x40000 o with
  | some (d, k) => if 0x80 ≤ k % 0x1000 ∧ k % 0x1000 < 0xC0 ∧ k % 4 = 0 then some (.ptIdle d (k / 0x1000) ((k % 0x1000 - 0x80) / 4)) else none
  | none =>
  if 0x60000 ≤ o ∧ o < 0x60100 then some (.train (o - 0x60000))
  else if 0xB0000 ≤ o ∧ o < 0xB0100 then some (.proof (o - 0xB0000))
  else if 0xC0008 ≤ o ∧ o < 0xC0040 then some (.ctx (o - 0xC0000))
  else if 0x200000 ≤ o ∧ o < 0x280000 then
    let st := (o - 0x200000) / 0x10000
    let k := (o - 0x200000) % 0x10000
    if 0x200 ≤ k ∧ k < 0x400 ∧ k % 4 = 0 then
      some (.teIdle (if st < 4 then .w else .e) (st % 4 * 8 + (k - 0x200) / 0x40) (k % 0x40 / 4))
    else none
  else none

/-- Its bytes and value for a context. The class selector belongs to the die. -/
def Chip.ctxRegVal (c : Chip) (n : Nat) : CtxReg → RegVal
  | .flag d o => (c.side n d).flagReg o
  | .widen d o => (c.side n d).widenReg o
  | .stream d o => c.streamReg n d o
  | .gauge d o => (c.side n d).gaugeReg o
  | .train o => (c.ctx n).train.reg o
  | .proof o => (c.ctx n).proof.reg o
  | .ctx o => c.ctxReg n o
  | .ptIdle d pt code => r4 (tget 0 (c.side n d).ptIdle (pt * 16 + code) : W32).toNat
  | .teIdle d te code => r4 (tget 0 (c.side n d).teIdle (te * 16 + code) : W32).toNat
  | .idleSel d => r4 (c.die d).idleSel.toNat
  | .idleSum d code => r8 (tget 0 (c.side n d).idleSum ((c.die d).idleSel.toNat * 16 + code) : W64).toNat

/-- What a read clears. -/
def Chip.ctxRegClear (c : Chip) (n : Nat) : CtxReg → Chip
  | .flag d o => c.modSide n d (fun k => k.flagClear o)
  | .widen d o => c.modSide n d (fun k => k.widenClear o)
  | .stream d o => c.modSide n d (fun k => k.streamClear o)
  | .proof o => c.modCtx n (fun x => { x with proof := x.proof.clear o })
  | .ctx o => c.modCtx n (fun x => x.regClear o)
  | .ptIdle d pt code => c.modSide n d (fun k => { k with ptIdle := tput 0 k.ptIdle (pt * 16 + code) 0 })
  | .teIdle d te code => c.modSide n d (fun k => { k with teIdle := tput 0 k.teIdle (te * 16 + code) 0 })
  | .idleSum d code => c.modSide n d (fun k => { k with idleSum := tput 0 k.idleSum ((c.die d).idleSel.toNat * 16 + code) 0 })
  | .gauge _ _ => c
  | .train _ => c
  | .idleSel _ => c

/-- What a write sets. -/
def Chip.ctxRegWrite (c : Chip) (n v w : Nat) : CtxReg → Chip
  | .flag d o => c.modSide n d (fun k => k.flagWrite o v w)
  | .widen d o => c.modSide n d (fun k => k.widenWrite o v)
  | .stream d o => c.modSide n d (fun k => k.streamWrite o v w)
  | .gauge d o => c.modSide n d (fun k => k.gaugeWrite o v)
  | .train o => c.modCtx n (fun x => { x with train := x.train.regWrite o v w })
  | .proof o => c.modCtx n (fun x => { x with proof := x.proof.regWrite o w })
  | .idleSel d => c.modDie d (fun m => { m with idleSel := BitVec.ofNat 3 v })
  | .ctx _ => c
  | .ptIdle _ _ _ => c
  | .teIdle _ _ _ => c
  | .idleSum _ _ => c

/-! ### Registers of the module and its units -/

/-- Tables 1.4 and 10.8. UPSTREAM shows 0xF while the module is not locked. -/
def Ridge.reg (r : Ridge) (o : Nat) : RegVal :=
  match o with
  | 0x40 => r4 (r.phaseErr.toNat * 2 ^ 16 + r.lossCount.toNat * 2 ^ 8 + r.srcActive.toNat * 16 + b2n r.slew * 8 + b2n r.lossNotice * 4 +
                b2n r.holdover * 2 + b2n r.locked)
  | 0x48 => r8 r.lossTime.toNat
  | 0x50 => r8 r.now.toNat
  | 0x60 => r4 (r.rootInUse.toNat * 2 ^ 13 + r.hops.toNat * 2 ^ 8 + (if r.locked then r.upstream.toNat else 0xF))
  | _ => none

/-- A cleared LOSS_NOTICE clears its count and time. -/
def Ridge.regWrite (r : Ridge) (o w : Nat) : Ridge :=
  if o = 0x40 ∧ bit w 2 then { r with lossNotice := false, lossCount := 0, lossTime := 0 } else r

/-- Table 8.8. -/
def Gutter.reg (g : Gutter) (o : Nat) : RegVal :=
  match o with
  | 0x00 => r4 g.occ
  | 0x04 => r4 g.packets.length
  | 0x08 => r4 (g.high.toNat * 2 ^ 16 + g.low.toNat)
  | 0x0C => r4 g.hi.word
  | 0x10 => r8 g.hi.time.toNat
  | 0x18 => r4 g.lo.word
  | 0x20 => r8 g.lo.time.toNat
  | 0x28 => r4 g.merge.length
  | 0x2C => r4 g.stored.toNat
  | 0x30 => r4 g.freed.toNat
  | 0x40 => some (16, g.lossSum.toNat)
  | _ => none

def Gutter.clear (g : Gutter) (o : Nat) : Gutter :=
  match o with
  | 0x2C => { g with stored := 0 }
  | 0x30 => { g with freed := 0 }
  | _ => g

def Gutter.regWrite (g : Gutter) (o v w : Nat) : Gutter :=
  match o with
  | 0x08 => { g with high := BitVec.ofNat 14 (bits v 29 16), low := BitVec.ofNat 14 v }
  | 0x0C => if bit w 0 then { g with hi := {} } else g
  | 0x18 => if bit w 0 then { g with lo := {} } else g
  | _ => g

/-- Tables 3.4 and 3.8. -/
def Platen.reg (p : Platen) (o : Nat) : RegVal :=
  if o < 0x30 ∧ o % 4 = 0 then
    let b := p.regions.getD (o / 8) {}
    r4 ((if o % 8 = 0 then b.base else b.limit) * 4096)
  else if o = 0x40 then r4 (p.holdBeats.toNat * 2 ^ 16 + wrapInt 8 p.offset)
  else none

def Platen.clear (p : Platen) (o : Nat) : Platen := if o = 0x40 then { p with holdBeats := 0 } else p

/-- Table 4.3. -/
def StackSt.reg (k : StackSt) (o : Nat) : RegVal :=
  match o with
  | 0x100 => r4 (k.hot.word + k.firstChan.toNat * 2 ^ 8 + b2n k.firstKind * 2)
  | 0x108 => r8 k.hot.time.toNat
  | 0x110 => r4 (k.ratio.toNat * 2 ^ 8 + b2n k.stackHot * 4 + b2n k.chanHot * 2)
  | 0x118 => r4 (b2n k.migEnable)
  | 0x120 => r4 (k.skipped.toNat * 2 ^ 16 + k.done.toNat)
  | _ => none

/-- The RC fields a read of the bytes `lo` to `hi` of a register touches are cleared. -/
def StackSt.clear (k : StackSt) (o lo hi : Nat) : StackSt :=
  if o ≠ 0x120 then k else
  { k with done := if lo < 2 then 0 else k.done, skipped := if 2 ≤ hi then 0 else k.skipped }

def StackSt.regWrite (k : StackSt) (o v w : Nat) : StackSt :=
  match o with
  | 0x100 => if bit w 0 then { k with hot := {} } else k
  | 0x118 => { k with migEnable := bit v 0 }
  | _ => k

/-- The op in progress of a die's collective engine: its group and whether it waits for peers. -/
def Chip.ceOp (c : Chip) (d : Die) : Option (Nat × Bool) :=
  (List.range 16).findSome? (fun q => (c.stream d q).bind (fun s =>
    match s.liveGroup, (s.unit 117).op with
    | some g, some o => some (g, o.waiting)
    | _, _ => none))

/-- Queued collective ops of a die. -/
def Chip.ceQueued (c : Chip) (d : Die) : Nat :=
  min 4 (sumNat ((List.range 16).map (fun q => match c.stream d q with | some s => (s.unit 117).queue.length | none => 0)))

/-- Table 10.8, a die's part. -/
def Chip.ceReg (c : Chip) (d : Die) (o : Nat) : RegVal :=
  let k := (c.die d).ce
  match o with
  | 0x00 =>
    let q := c.ceQueued d * 16
    match c.ceOp d with
    | some (g, w) => r4 (g * 2 ^ 12 + q + (if w then 2 else 1))
    | none => r4 q
  | 0x08 => r4 (k.abCause.toNat * 2 ^ 28 + k.abGroup.toNat * 2 ^ 16 + k.abPeer.toNat * 2 ^ 6 + b2n k.ab.notice)
  | 0x10 => r8 k.ab.time.toNat
  | 0x18 => r4 k.rtt.toNat
  | _ => none

def Ce.regWrite (k : Ce) (o w : Nat) : Ce := if o = 0x08 ∧ bit w 0 then { k with ab := {} } else k

/-- Table 10.8, the vote registers. -/
def VoteRegs.reg (k : VoteRegs) (o : Nat) : RegVal :=
  match o with
  | 0x00 => r4 (k.shards.toNat * 2 ^ 12 + k.vgroup.toNat)
  | 0x04 => r4 (k.stragSteps.toNat * 2 ^ 16 + k.stragMs.toNat)
  | 0x08 => r4 (k.firstPset.toNat * 2 ^ 20 + k.result.toNat * 2 ^ 16 + k.reruns.toNat * 2 ^ 8 + b2n k.notice)
  | 0x0C => r4 k.peer.toNat
  | 0x10 => r4 (k.strag.word + k.stragModule.toNat * 2)
  | 0x18 => r8 k.strag.time.toNat
  | _ => none

def VoteRegs.regWrite (k : VoteRegs) (o w : Nat) : VoteRegs :=
  match o with
  | 0x08 => if bit w 0 then { k with notice := false } else k
  | 0x10 => if bit w 0 then { k with strag := {} } else k
  | _ => k

/-- `PL_DOMAIN`. -/
def Domain.word (d : Domain) : Nat :=
  d.epoch.toNat * 2 ^ 24 + d.dz.toNat * 2 ^ 20 + d.dy.toNat * 2 ^ 16 + d.dx.toNat * 2 ^ 12 + d.moduleId.toNat

/-- Table 16.9. -/
def Port.reg (p : Port) (o : Nat) : RegVal :=
  match o with
  | 0x00 => r4 (p.neighbour.toNat * 2 ^ 14 + p.nport.toNat * 2 ^ 11 + p.st.toNat)
  | 0x08 => r4 p.down.word
  | 0x10 => r8 p.down.time.toNat
  | 0x18 => r4 p.margin.toNat
  | _ => none

def Port.regWrite (p : Port) (o w : Nat) : Port := if o = 0x08 ∧ bit w 0 then { p with down := {} } else p

/-- Streams in one of two states. -/
def Serving.count (v : Serving) (a b : StreamSt) : Nat := (v.streams.filter (fun kv => decide (kv.2.st = a) || decide (kv.2.st = b))).length

/-- Tables 11.5 and 11.6. -/
def Serving.reg (v : Serving) (o : Nat) : RegVal :=
  let m := tget {} v.models v.mcacheSel.toNat
  match o with
  | 0x00 => r4 (v.decMax.toNat * 2 ^ 20 + v.pfMax.toNat)
  | 0x04 => r4 v.chunk.toNat
  | 0x08 => r4 (v.count .prefill .decode)
  | 0x0C => r4 (v.count .parked .moving)
  | 0x10 => r4 v.switches.toNat
  | 0x14 => r4 v.noFallback.toNat
  | 0x18 => r4 v.late.toNat
  | 0x1C => r4 (v.unparks.toNat * 2 ^ 16 + v.parks.toNat)
  | 0x20 => r4 v.kv.word
  | 0x28 => r8 v.kv.time.toNat
  | 0x30 => r4 v.mcacheSel.toNat
  | 0x38 => r8 (m.model.toNat * 2 ^ 48 + m.st.toNat * 2 ^ 46 + b2n m.pin * 2 ^ 45 + b2n m.teacher * 2 ^ 44 + m.stepNs.toNat)
  | 0x40 => r8 m.last.toNat
  | _ => none

def Serving.clear (v : Serving) (o lo hi : Nat) : Serving :=
  match o with
  | 0x10 => { v with switches := 0 }
  | 0x14 => { v with noFallback := 0 }
  | 0x18 => { v with late := 0 }
  | 0x1C => { v with parks := if lo < 2 then 0 else v.parks, unparks := if 2 ≤ hi then 0 else v.unparks }
  | _ => v

def Serving.regWrite (v : Serving) (o x w : Nat) : Serving :=
  match o with
  | 0x20 => if bit w 0 then { v with kv := {} } else v
  | 0x30 => { v with mcacheSel := BitVec.ofNat 4 x }
  | _ => v

/-- The context of a partition in state loading, running or saving. -/
def Chip.activeCtx (c : Chip) (q : Nat) : Option Nat :=
  (c.ctxsOf q).find? (fun n => decide ((c.ctx n).st = .loading) || decide ((c.ctx n).st = .running) || decide ((c.ctx n).st = .saving))

/-- The module part of Table 13.6. -/
def Chip.partReg (c : Chip) (o : Nat) : RegVal :=
  let q := c.partSel.toNat
  let p := c.part q
  let l := tget {} c.locks c.lockSel.toNat
  match o with
  | 0x00 => r4 c.ctxSel.toNat
  | 0x40 => r4 q
  | 0x44 =>
    let a := match c.activeCtx q with | some n => 2 ^ 10 + n % 1024 | none => 0
    r4 (p.sliceMs.toNat * 2 ^ 24 + p.killLimit.toNat * 2 ^ 20 + a)
  | 0x48 => r4 (p.tagCnt.toNat * 2 ^ 22 + p.tagBase.toNat * 2 ^ 16 + p.semCnt.toNat * 2 ^ 6 + p.semBase.toNat)
  | 0x50 => r8 p.ptW.toNat
  | 0x58 => r8 p.ptE.toNat
  | 0x60 => r8 p.te.toNat
  | 0x68 => r8 (p.uu.toNat * 2 ^ 32 + p.su.toNat)
  | 0x70 => r4 (c.partUsed q % 2 ^ 16 * 2 ^ 16 + p.share.toNat)
  | 0x80 => r4 c.lockSel.toNat
  | 0x84 => r4 (b2n l.held * 2 ^ 31 + b2n l.poisoned * 2 ^ 30 + l.waiters.length % 2 ^ 10 * 2 ^ 10 + l.owner % 2 ^ 10)
  | _ => none

def Chip.partWrite (c : Chip) (o v : Nat) : Chip :=
  match o with
  | 0x00 => { c with ctxSel := BitVec.ofNat 10 v }
  | 0x40 => { c with partSel := BitVec.ofNat 4 v }
  | 0x80 => { c with lockSel := BitVec.ofNat 8 v }
  | _ => c

/-- Table 15.6. -/
def Chip.pwrReg (c : Chip) (o : Nat) : RegVal :=
  let p := c.pwr
  let clk (m : DieSt) : Nat := m.target.toNat * 2 ^ 16 + m.mhz.toNat
  let per (f : StackSt → Nat) (w : Nat) : Nat := sumNat ((List.range 8).map (fun n => f (c.stk n) * 2 ^ (w * n)))
  match o with
  | 0x00 => r4 (b2n p.sprintEn * 2 ^ 16 + p.limit.toNat)
  | 0x04 => r4 (p.peak.toNat * 2 ^ 16 + p.watts.toNat)
  | 0x08 => r4 ((if p.sprinting then 2 else if c.sprintEligible then 1 else 0) * 2 ^ 16 + p.sprints.toNat)
  | 0x10 => r4 (clk c.w)
  | 0x14 => r4 (clk c.e)
  | 0x18 => r4 (c.e.hotspot.toNat * 2 ^ 8 + c.w.hotspot.toNat)
  | 0x20 => r8 (per (fun k => k.temp.toNat) 8)
  | 0x28 => r4 (per (fun k => k.gate.toNat) 4)
  | 0x30 => r4 (b2n p.current * 16 + b2n (c.stks.any (fun kv => decide (kv.2.gate ≠ 0))) * 8 + b2n (c.w.emergency || c.e.emergency) * 4 +
                b2n (decide (100 ≤ c.w.hotspot.toNat) || decide (100 ≤ c.e.hotspot.toNat)) * 2 + b2n p.overCeil)
  | 0x38 => r4 (p.throttle.word + p.firstCause.toNat * 2 ^ 12)
  | 0x40 => r8 p.throttle.time.toNat
  | 0x48 => r4 c.w.boost.toNat
  | 0x4C => r4 c.e.boost.toNat
  | 0x50 => r4 (p.clipMax.toNat * 2 ^ 8 + b2n p.clipAdapt)
  | _ => none

def Pwr.clear (p : Pwr) (o lo hi : Nat) : Pwr :=
  match o with
  | 0x04 => if 2 ≤ hi then { p with peak := 0 } else p
  | 0x08 => if lo < 2 then { p with sprints := 0 } else p
  | _ => p

def Pwr.regWrite (p : Pwr) (o v w : Nat) : Pwr :=
  match o with
  | 0x38 => if bit w 0 then { p with throttle := {} } else p
  | 0x50 => { p with clipMax := BitVec.ofNat 24 (bits v 31 8), clipAdapt := bit v 0 }
  | _ => p

/-- `COL_STATUS` (R385), of the primary's copy. -/
def Boot.colStatus (b : Boot) : Nat :=
  let col := b.col b.prim
  let mark (p : ColGen → Bool) : Nat := sumNat ((List.range 4).map (fun i => b2n (p (col.getD i {})) * 2 ^ i))
  b.gov.toNat + mark (·.written) * 16 + mark (fun g => g.written && !g.ok) * 2 ^ 8 + b2n (decide (b.dbgKey ≠ 0)) * 2 ^ 12

/-- Table 16.2, `COL_STATUS`, `MOD_SELFTEST`, `MOD_BUTTON` and the Colophon window. -/
def Boot.reg (b : Boot) (o : Nat) : RegVal :=
  match o with
  | 0x00 => r4 (b.holdCode.toNat * 2 ^ 16 + b2n b.stFault * 2 ^ 9 + b.prim.num * 2 ^ 8 + b2n b.primFault * 2 ^ 7 + b2n b.colFault * 2 ^ 6 + b.phase.toNat)
  | 0x08 => r4 (b.prev.toNat * 2 ^ 20 + b.src.toNat * 2 ^ 16)
  | 0x10 => r8 b.ldAddr.toNat
  | 0x18 => r4 b.ldLen.toNat
  | 0x20 => r4 b.colStatus
  | 0x30 => r4 (b.stCount.toNat * 2 ^ 24 + b.stClass.toNat * 2 ^ 20 + b.stUnit.toNat * 2 ^ 12 + b2n b.stDie * 2 ^ 11 + b2n b.stFull * 2 + b2n b.stDone)
  | 0x38 => r4 (b.shorts.toNat * 2 ^ 16 + b2n b.ack * 4 + b2n b.locate * 2 + b2n b.pressed)
  | _ => if 0x1000 ≤ o ∧ o < 0x2000 ∧ o % 4 = 0 then r4 (leNat ((b.governing.window.drop (o - 0x1000)).take 4)) else none

def Chip.bootWrite (c : Chip) (o v w : Nat) : Chip :=
  let b := c.boot
  match o with
  | 0x00 => { c with boot := { b with stFault := b.stFault && !bit w 9, primFault := b.primFault && !bit w 7, colFault := b.colFault && !bit w 6 } }
  | 0x10 => { c with boot := { b with ldAddr := BitVec.ofNat 64 (v / 4096 * 4096) } }
  | 0x18 =>
    if b.phase ≠ 4 then c else
    let n := v % 2 ^ 23
    let c := { c with boot := { b with ldLen := BitVec.ofNat 23 n } }
    if n = 0 then c else c.bootFetch (mread c.host b.ldAddr.toNat n)
  | 0x38 => { c with boot := { b with ack := b.ack && !bit w 2 } }
  | _ => c

/-- Table 16.7. DBG_MDATA_RD reads memory at each read; DBG_HASHKEY gives the hash key of the
context in DBG_MADDR once unlocked, zero before (R402).
DESIGN CHOICE: log entry 59. -/
def Chip.dbgReg (c : Chip) (d : Die) (o : Nat) : Chip × RegVal :=
  let g := (c.die d).dbg
  let p := c.port
  match o with
  | 0x000 => (c, r4 (b2n g.halt))
  | 0x004 => (c, r4 g.stepReg.toNat)
  | 0x008 => (c, r4 (b2n p.unlocked * 2 ^ 31 + p.fails.toNat * 2 ^ 29 + g.cause.toNat * 2 ^ 20 + g.index.toNat * 2 ^ 14 + b2n g.mrefused * 2 ^ 9 +
                     b2n g.halted * 2 ^ 8 + g.stepsLeft.toNat))
  | 0x010 => (c, r8 g.hitTime.toNat)
  | 0x018 => (c, r4 (g.chitLoc.toNat * 2 ^ 20 + g.chitComp.toNat * 2 ^ 12 + g.chitCtx.toNat))
  | 0x020 => (c, r4 g.cresume.toNat)
  | 0x500 => (c, r8 g.maddr.toNat)
  | 0x508 => let r := c.mdataRead d; (r.1, r8 (leNat r.2))
  | 0x510 => (c, r8 g.mdataWr.toNat)
  | 0x600 => (c, r8 (if p.unlocked then (Config.hashKeyWord (hashMasks (c.ctx g.ctxNo).hash)).toNat else 0))
  | 0x740 => (c, r4 (p.result.toNat * 4 + p.cmd.toNat))
  | _ =>
    if 0x100 ≤ o ∧ o < 0x180 ∧ o % 8 = 0 then (c, r8 (tget 0 g.sbp ((o - 0x100) / 8) : W64).toNat)
    else if 0x200 ≤ o ∧ o < 0x400 ∧ o % 8 = 0 then (c, r8 (tget 0 g.cbp ((o - 0x200) / 8) : W64).toNat)
    else if 0x400 ≤ o ∧ o < 0x440 ∧ o % 8 = 0 then (c, r8 (tget 0 g.sw ((o - 0x400) / 8) : W64).toNat)
    else if 0x700 ≤ o ∧ o < 0x720 ∧ o % 8 = 0 then (c, r8 (if c.challengeLive then leNat ((p.challenge.drop (o - 0x700)).take 8) else 0))
    else if 0x720 ≤ o ∧ o < 0x740 ∧ o % 8 = 0 then (c, r8 (tget 0 p.resp ((o - 0x720) / 8) : W64).toNat)
    else (c, none)

/-- Keep bits hi:lo of a number in place. -/
def keep (v hi lo : Nat) : Nat := bits v hi lo * 2 ^ lo

def Chip.dbgWrite (c : Chip) (d : Die) (o v w : Nat) : Chip :=
  let put (f : Dbg → Dbg) : Chip := c.modDie d (fun m => { m with dbg := f m.dbg })
  let word (x : Nat) : W64 := BitVec.ofNat 64 x
  match o with
  | 0x000 => c.dbgHalt d (bit v 0)
  | 0x004 => c.dbgStep d (BitVec.ofNat 8 v)
  | 0x008 => if bit w 9 then put (fun g => { g with mrefused := false }) else c
  | 0x020 => c.dbgResume d (BitVec.ofNat 6 v)
  | 0x500 => put (fun g => { g with maddr := word (v / 8 * 8) })
  | 0x510 => c.mdataWrite d (word v)
  | 0x740 => if v % 4 = 1 then c.unlockChallenge else if v % 4 = 2 then c.unlockResponse else { c with port := { c.port with cmd := BitVec.ofNat 2 v } }
  | _ =>
    if 0x100 ≤ o ∧ o < 0x180 ∧ o % 8 = 0 then put (fun g => { g with sbp := tput 0 g.sbp ((o - 0x100) / 8) (word (keep v 63 63 + keep v 35 0)) })
    else if 0x200 ≤ o ∧ o < 0x400 ∧ o % 8 = 0 then put (fun g => { g with cbp := tput 0 g.cbp ((o - 0x200) / 8) (word (keep v 63 62 + keep v 31 0)) })
    else if 0x400 ≤ o ∧ o < 0x440 ∧ o % 8 = 0 then
      put (fun g => { g with sw := tput 0 g.sw ((o - 0x400) / 8) (word (keep v 63 63 + keep v 32 16 + keep v 14 0)) })
    else if 0x720 ≤ o ∧ o < 0x740 ∧ o % 8 = 0 then { c with port := { c.port with resp := tput 0 c.port.resp ((o - 0x720) / 8) (word v) } }
    else c

/-! ### BAR0 -/

/-- A register that belongs to no context. -/
inductive ModReg where
  | ridge (o : Nat)
  | gutter (d : Die) (o : Nat)
  | ce (d : Die) (o : Nat)
  | vote (o : Nat)
  | domain
  | port (n o : Nat)
  | serving (o : Nat)
  | part (o : Nat)
  | pwr (o : Nat)
  | boot (o : Nat)
  | dbg (d : Die) (o : Nat)
  | platen (d : Die) (n o : Nat)
  | stack (n o : Nat)
  deriving DecidableEq, Repr, Inhabited

/-- The module register an offset belongs to. -/
def modRegAt (o : Nat) : Option ModReg :=
  match dieBlock 0x50000 0x100 o with
  | some (d, k) => some (.gutter d k)
  | none =>
  match dieBlock 0x70000 0x100 o with
  | some (d, k) => some (.ce d k)
  | none =>
  match dieBlock 0xF0000 0x1000 o with
  | some (d, k) => some (.dbg d k)
  | none =>
  match dieBlock 0x100000 0x40000 o with
  | some (d, k) => some (.platen d (k / 0x1000) (k % 0x1000))
  | none =>
  if 0x20000 ≤ o ∧ o < 0x20100 then some (.ridge (o - 0x20000))
  else if 0x70800 ≤ o ∧ o < 0x70900 then some (.vote (o - 0x70800))
  else if o = 0x80000 then some .domain
  else if 0x80100 ≤ o ∧ o < 0x80200 then some (.port ((o - 0x80100) / 0x20) ((o - 0x80100) % 0x20))
  else if 0xA0000 ≤ o ∧ o < 0xA0100 then some (.serving (o - 0xA0000))
  else if 0xC0000 ≤ o ∧ o < 0xC0100 then some (.part (o - 0xC0000))
  else if 0xD0000 ≤ o ∧ o < 0xD0100 then some (.pwr (o - 0xD0000))
  else if 0xE0000 ≤ o ∧ o < 0xE2000 then some (.boot (o - 0xE0000))
  else if 0x200000 ≤ o ∧ o < 0x280000 then some (.stack ((o - 0x200000) / 0x10000) ((o - 0x200000) % 0x10000))
  else none

/-- Its bytes and value; a read of the memory window takes effect. -/
def Chip.modRegVal (c : Chip) : ModReg → Chip × RegVal
  | .ridge o => (c, c.ridge.reg o)
  | .gutter d o => (c, (c.die d).gut.reg o)
  | .ce d o => (c, c.ceReg d o)
  | .vote o => (c, c.vote.reg o)
  | .domain => (c, r4 c.domain.word)
  | .port n o => (c, (c.pport n).reg o)
  | .serving o => (c, c.serving.reg o)
  | .part o => (c, c.partReg o)
  | .pwr o => (c, c.pwrReg o)
  | .boot o => (c, c.boot.reg o)
  | .dbg d o => c.dbgReg d o
  | .platen d n o => (c, (c.platen d n).reg o)
  | .stack n o => (c, (c.stk n).reg o)

/-- What a read of bytes `lo` to `hi` of it clears. -/
def Chip.modRegClear (c : Chip) (lo hi : Nat) : ModReg → Chip
  | .gutter d o => c.modDie d (fun m => { m with gut := m.gut.clear o })
  | .serving o => { c with serving := c.serving.clear o lo hi }
  | .pwr o => { c with pwr := c.pwr.clear o lo hi }
  | .platen d n o => if 2 ≤ hi then c.modPlaten d n (fun p => p.clear o) else c
  | .stack n o => c.modStk n (fun k => k.clear o lo hi)
  | .ridge _ => c
  | .ce _ _ => c
  | .vote _ => c
  | .domain => c
  | .port _ _ => c
  | .part _ => c
  | .boot _ => c
  | .dbg _ _ => c

/-- What a write sets. -/
def Chip.modRegWrite (c : Chip) (v w : Nat) : ModReg → Chip
  | .ridge o => { c with ridge := c.ridge.regWrite o w }
  | .gutter d o => c.modDie d (fun m => { m with gut := m.gut.regWrite o v w })
  | .ce d o => c.modDie d (fun m => { m with ce := m.ce.regWrite o w })
  | .vote o => { c with vote := c.vote.regWrite o w }
  | .port n o => c.modPort n (fun p => p.regWrite o w)
  | .serving o => { c with serving := c.serving.regWrite o v w }
  | .part o => c.partWrite o v
  | .pwr o => { c with pwr := c.pwr.regWrite o v w }
  | .boot o => c.bootWrite o v w
  | .dbg d o => c.dbgWrite d o v w
  | .stack n o => c.modStk n (fun k => k.regWrite o v w)
  | .domain => c
  | .platen _ _ _ => c

/-- A register of BAR0: of a context or of the module. -/
inductive Bar0 where
  | ctx (r : CtxReg)
  | mod (r : ModReg)
  deriving DecidableEq, Repr, Inhabited

/-- What stands at an offset. -/
def bar0At (o : Nat) : Option Bar0 :=
  match ctxRegAt o with
  | some r => some (.ctx r)
  | none => (modRegAt o).map .mod

/-- The module registers a VF reads normally (Table 14.1). -/
def ModReg.forVf : ModReg → Bool
  | .ridge o => decide (o = 0x40) || decide (o = 0x50)
  | .domain => true
  | _ => false

/-- Bytes and value of the register that starts at an offset, as a function sees it: to a VF the module's registers read as zero
(R332). A context register of a function with no context is none. -/
def Chip.bar0Val (c : Chip) (fn o : Nat) : Chip × RegVal :=
  match bar0At o with
  | some (.ctx r) => (c, (c.shown fn).bind (fun n => c.ctxRegVal n r))
  | some (.mod r) => if fn = 0 ∨ r.forVf then c.modRegVal r else (c, (c.modRegVal r).2.map (fun x => (x.1, 0)))
  | none => (c, none)

/-- The start of the register whose bytes hold an offset: a register starts there, or 4, 8 or 12 bytes before. -/
def Chip.bar0Start (c : Chip) (fn o : Nat) : Option Nat :=
  let a := o / 4 * 4
  [a, a - 4, a - 8, a - 12].find? (fun b =>
    match (c.bar0Val fn b).2 with
    | some (n, _) => decide (b ≤ a) && decide (a < b + n)
    | none => false)

/-- The read of bytes `lo` to `hi` of the register at `b`: RIDGE_NOW and GUT_LOSS_SUM latch their high half when the low half is
read, and return the latched half when the access starts in it (R26, R191). -/
def Chip.readLatch (c : Chip) (b lo : Nat) (v : Nat) : Chip × Nat :=
  match bar0At b with
  | some (.mod (.ridge 0x50)) =>
    if lo < 4 then ({ c with ridge := { c.ridge with latch := BitVec.ofNat 32 (v / 2 ^ 32) } }, v) else (c, c.ridge.latch.toNat * 2 ^ 32)
  | some (.mod (.gutter d 0x40)) =>
    if lo < 8 then (c.modDie d (fun m => { m with gut := { m.gut with lossLatch := BitVec.ofNat 64 (v / 2 ^ 64) } }), v)
    else (c, (c.die d).gut.lossLatch.toNat * 2 ^ 64)
  | _ => (c, v)

/-- A read clears the RC fields it touches, of the context shown or of the module for the PF. -/
def Chip.bar0Clear (c : Chip) (fn b lo hi : Nat) : Chip :=
  match bar0At b with
  | some (.ctx r) => match c.shown fn with | some n => c.ctxRegClear n r | none => c
  | some (.mod r) => if fn = 0 then c.modRegClear lo hi r else c
  | none => c

/-- Read `len` bytes of BAR0 from an offset, register by register. Bytes where no register stands are free bytes. -/
def Chip.bar0Read (fn : Nat) : Nat → Chip → Nat → Nat → Chip × List Byte
  | 0, c, _, _ => (c, [])
  | f + 1, c, o, len =>
    if len = 0 then (c, []) else
    match c.bar0Start fn o with
    | none =>
      let n := min len (4 - o % 4)
      let g := c.freeBytes n
      let r := Chip.bar0Read fn f g.2 (o + n) (len - n)
      (r.1, g.1 ++ r.2)
    | some b =>
      match c.bar0Val fn b with
      | (c, some (bytes, v)) =>
        let lo := o - b
        let n := min len (bytes - lo)
        let x := if fn = 0 ∨ b = 0x20050 then c.readLatch b lo v else (c, v)
        let c := x.1.bar0Clear fn b lo (lo + n - 1)
        let r := Chip.bar0Read fn f c (o + n) (len - n)
        (r.1, leBytes n (x.2 / 2 ^ (8 * lo)) ++ r.2)
      | (c, none) => (c, [])

/-- Write bytes of a register: the written bytes over its present value, and the written bytes alone. -/
def Chip.bar0Put (c : Chip) (fn b lo : Nat) (bs : List Byte) : Chip :=
  match bar0At b with
  | none => c
  | some r =>
    let old := match (c.bar0Val fn b).2 with | some (_, v) => v | none => 0
    let w := leNat bs * 2 ^ (8 * lo)
    let v := old % 2 ^ (8 * lo) + w + old / 2 ^ (8 * (lo + bs.length)) * 2 ^ (8 * (lo + bs.length))
    match r with
    | .ctx r => match c.shown fn with | some n => c.ctxRegWrite n v w r | none => c
    | .mod r => if fn = 0 then c.modRegWrite v w r else c

/-- Write bytes to BAR0 from an offset, register by register; where no register stands nothing happens. -/
def Chip.bar0Write (fn : Nat) : Nat → Chip → Nat → List Byte → Chip
  | 0, c, _, _ => c
  | f + 1, c, o, bs =>
    match bs with
    | [] => c
    | _ =>
      match c.bar0Start fn o with
      | none => Chip.bar0Write fn f c (o + (4 - o % 4)) (bs.drop (4 - o % 4))
      | some b =>
        let bytes := match (c.bar0Val fn b).2 with | some (n, _) => n | none => 4
        let n := bytes - (o - b)
        Chip.bar0Write fn f (c.bar0Put fn b (o - b) (bs.take n)) (o + n) (bs.drop n)

/-! ### BAR2 (Table 14.2) -/

/-- A register of a context's ring pages. -/
def Chip.ringReg (c : Chip) (n o : Nat) : RegVal :=
  let r := c.ring n (o / 0x1000)
  if 0x8000 ≤ o ∧ o < 0x8800 ∧ o % 8 = 0 then r4 ((c.ctx n).oring ((o - 0x8000) / 8)).head.toNat
  else if o = 0xF000 then r8 ((c.ctx n).bar4Base.toNat * 2 ^ 38)
  else if 0x8000 ≤ o then none
  else
    match o % 0x1000 with
    | 0x00 => r8 (r.base.toNat + r.log2.toNat)
    | 0x08 => r8 (r.cplBase.toNat + r.cplLog2.toNat)
    | 0x10 => r8 r.wb.toNat
    | 0x18 => r4 r.tail.toNat
    | 0x1C => r4 r.head.toNat
    | 0x20 => r4 r.cplHead.toNat
    | 0x24 => r4 r.cplTail.toNat
    | 0x28 => r4 (r.badoff.toNat * 2 ^ 16 + r.vector.toNat * 16 + b2n r.err * 8 + b2n r.intr * 2 + b2n r.enable)
    | _ => none

/-- A write to one of them: base, completion base and write-back address only while the ring is off. -/
def Chip.ringWrite (c : Chip) (n o v w : Nat) : Chip :=
  let k := o / 0x1000
  let off (f : Ring → Ring) : Chip := c.modRing n k (fun r => if r.enable then r else f r)
  if 0x8000 ≤ o ∧ o < 0x8800 ∧ o % 8 = 0 then c.oringHead n ((o - 0x8000) / 8) (BitVec.ofNat 32 v)
  else if o = 0xF000 then c.modCtx n (fun x => { x with bar4Base := BitVec.ofNat 10 (bits v 47 38) })
  else if 0x8000 ≤ o then c
  else
    match o % 0x1000 with
    | 0x00 => off (fun r => { r with base := BitVec.ofNat 64 (v / 4096 * 4096), log2 := BitVec.ofNat 5 v })
    | 0x08 => off (fun r => { r with cplBase := BitVec.ofNat 64 (v / 4096 * 4096), cplLog2 := BitVec.ofNat 5 v })
    | 0x10 => off (fun r => { r with wb := BitVec.ofNat 64 (v / 64 * 64) })
    | 0x18 => c.modRing n k (fun r => r.ringTail (BitVec.ofNat 32 v))
    | 0x20 => c.cplHead n k (BitVec.ofNat 32 v)
    | 0x28 => c.ringControl n k (v - keep v 3 3 + keep w 3 3)
    | _ => c

/-- The ring page register whose bytes hold an offset. -/
def Chip.ringStart (c : Chip) (n o : Nat) : Option Nat :=
  let a := o / 4 * 4
  [a, a - 4].find? (fun b => match c.ringReg n b with | some (m, _) => decide (b ≤ a) && decide (a < b + m) | none => false)

/-- Read bytes of the ring pages. -/
def Chip.bar2Read (n : Nat) : Nat → Chip → Nat → Nat → Chip × List Byte
  | 0, c, _, _ => (c, [])
  | f + 1, c, o, len =>
    if len = 0 then (c, []) else
    match c.ringStart n o with
    | none =>
      let m := min len (4 - o % 4)
      let g := c.freeBytes m
      let r := Chip.bar2Read n f g.2 (o + m) (len - m)
      (r.1, g.1 ++ r.2)
    | some b =>
      let x := (c.ringReg n b).getD (4, 0)
      let m := min len (x.1 - (o - b))
      let r := Chip.bar2Read n f c (o + m) (len - m)
      (r.1, leBytes m (x.2 / 2 ^ (8 * (o - b))) ++ r.2)

/-- Write bytes of the ring pages. -/
def Chip.bar2Write (n : Nat) : Nat → Chip → Nat → List Byte → Chip
  | 0, c, _, _ => c
  | f + 1, c, o, bs =>
    match bs with
    | [] => c
    | _ =>
      match c.ringStart n o with
      | none => Chip.bar2Write n f c (o + (4 - o % 4)) (bs.drop (4 - o % 4))
      | some b =>
        let x := (c.ringReg n b).getD (4, 0)
        let lo := o - b
        let m := x.1 - lo
        let part := bs.take m
        let w := leNat part * 2 ^ (8 * lo)
        let v := x.2 % 2 ^ (8 * lo) + w + x.2 / 2 ^ (8 * (lo + part.length)) * 2 ^ (8 * (lo + part.length))
        Chip.bar2Write n f (c.ringWrite n b v w) (o + m) (bs.drop m)

/-- The context and the offset in its ring pages that a BAR2 offset means to a function. -/
def Chip.ringPlace (c : Chip) (fn off : Nat) : Option (Nat × Nat) := (c.pageOf fn (off / 0x10000)).map (fun n => (n, off % 0x10000))

/-! ### The commands -/

/-- A read of `size` bytes of BAR0 or BAR2; a function with no ring pages there reads free bytes.
DEDUCED: log entry 62. -/
def Chip.regRead (c : Chip) (fn bar off size : Nat) : Chip × List Byte :=
  if bar = 0 then Chip.bar0Read fn size c off size
  else
    match c.ringPlace fn off with
    | some (n, o) => Chip.bar2Read n size c o size
    | none => let f := c.freeBytes size; (f.2, f.1)

/-- A write of bytes to BAR0 or BAR2. -/
def Chip.regWrite (c : Chip) (fn bar off : Nat) (bs : List Byte) : Chip :=
  if bar = 0 then Chip.bar0Write fn bs.length c off bs
  else
    match c.ringPlace fn off with
    | some (n, o) => Chip.bar2Write n bs.length c o bs
    | none => c

/-- REGISTER_READ_CLEAR (R7): RC fields are cleared by the read. -/
def execRegisterReadClear (fn bar off size : Nat) (s : State) : Host.Outcome State Fault Refusal :=
  s.run (fun c => let r := c.regRead fn bar off size; { r.1 with rdata := r.2 })

/-- REGISTER_WRITE (R7): per field access type; at most 16 bytes. -/
def execRegisterWrite (fn bar off size : Nat) (value : BitVec 128) (s : State) : Host.Outcome State Fault Refusal :=
  s.run (fun c => c.regWrite fn bar off (leBytes (min size 16) value.toNat))

/-- RIDGE_NOW_READ (R26): the low half, which latches the high half. -/
def execRidgeNowRead (fn : Nat) (s : State) : Host.Outcome State Fault Refusal :=
  s.run (fun c => let r := c.regRead fn 0 0x20050 4; { r.1 with rdata := r.2 })

/-- GUT_LOSS_SUM_READ (R191): the low 64 bits, which latch the high 64 bits. -/
def execGutLossSumRead (fn : Nat) (die : Die) (s : State) : Host.Outcome State Fault Refusal :=
  s.run (fun c => let r := c.regRead fn 0 (0x50040 + 0x100 * die.num) 8; { r.1 with rdata := r.2 })

end Sys2Proof.Machine
end

