-- ==== Sys2Proof/Machine/Telemetry.lean ====
section
/-!
DEFINITION. Telemetry blocks, the management sideband and the debug port's instructions (R354, R355, R396, R397, R419).
-/
namespace Sys2Proof.Machine

/-! ### Blocks of registers as bytes -/

/-- `n` bytes of a register block, address by address; bytes between registers are zero. -/
def blockBytes (reg : Nat → RegVal) (n : Nat) : List Byte :=
  ((List.range (n / 4)).flatMap (fun i =>
    let o := 4 * i
    match reg o with
    | some (_, v) => leBytes 4 v
    | none =>
      match (if o % 8 = 4 then reg (o - 4) else none) with
      | some (8, v) => leBytes 4 (v / 2 ^ 32)
      | _ => leBytes 4 0))

/-! ### TELEMETRY_READ -/

/-- Entries of a block (Table 14.11). -/
def telemetrySize (block : Nat) : Option Nat :=
  match block with
  | 1 => some 4096
  | 2 => some 4096
  | 3 => some 4096
  | 4 => some 192
  | 5 => some 14
  | 6 => some 1
  | 7 => some 1
  | 8 => some 8
  | _ => none

/-- The counters of an idle unit. -/
def Chip.idleOf (c : Chip) (n i : Nat) : List Byte :=
  let get (code : Nat) : W32 :=
    if i < 64 then tget 0 (c.side n .w).ptIdle (i * 16 + code) else if i < 128 then tget 0 (c.side n .e).ptIdle ((i - 64) * 16 + code)
    else if i < 160 then tget 0 (c.side n .w).teIdle ((i - 128) * 16 + code) else tget 0 (c.side n .e).teIdle ((i - 160) * 16 + code)
  (List.range 16).flatMap (fun k => leBytes 4 (get k).toNat)

/-- The bytes of one entry (Table 14.11). -/
def Chip.telemetryEntry (c : Chip) (n block : Nat) (die : Die) (i : Nat) : List Byte :=
  let each (f : CtxDie → List Byte) : List Byte := f (c.side n .w) ++ f (c.side n .e)
  match block with
  | 1 => each (fun k =>
      let e := tget {} k.flags i
      leBytes 4 e.ovf.toNat ++ leBytes 4 e.nan.toNat ++ leBytes 4 e.clip.toNat ++ leBytes 4 e.badcode.toNat ++ leBytes 4 e.trunc.toNat ++ leBytes 4 0)
  | 2 => each (fun k =>
      let e := tget {} k.widen i
      leBytes 4 (b2n e.enable * 2 ^ 31 + e.thresh.toNat) ++ leBytes 5 e.clip.toNat ++ leBytes 5 e.conv.toNat ++ leBytes 4 e.count.toNat ++
      leBytes 1 (b2n e.widened) ++ leBytes 1 0)
  | 3 =>
    let e := tget {} (c.side n die).gauge i
    leBytes 4 (b2n e.lscope) ++ leBytes 4 0 ++ leBytes 8 e.gsq.toNat ++ leBytes 8 e.wsq.toNat ++ leBytes 8 e.usq.toNat ++ leBytes 4 e.nonfin.toNat ++
    leBytes 4 e.ovf.toNat ++ leBytes 4 e.clip.toNat ++ leBytes 4 e.conv.toNat ++ leBytes 8 e.step.toNat
  | 4 => c.idleOf n i
  | 5 => (List.range 16).flatMap (fun k => leBytes 8 (tget 0 (c.side n (Die.ofBit (i / 8))).idleSum (i % 8 * 16 + k) : W64).toNat)
  | 6 => blockBytes (c.ctx n).train.reg 64
  | 7 => blockBytes c.pwrReg 256
  | _ => blockBytes (c.pport i).reg 32

/-- The RC rules applied to the counters of an entry. -/
def Chip.telemetryClear (c : Chip) (n block i : Nat) : Chip :=
  let each (f : CtxDie → CtxDie) : Chip := (c.modSide n .w f).modSide n .e f
  let drop16 {w : Nat} (t : Tab (BitVec w)) (k : Nat) : Tab (BitVec w) := tfilter (fun x _ => decide (x / 16 ≠ k)) t
  match block with
  | 1 => each (fun k => { k with flags := tput {} k.flags i {} })
  | 2 => each (fun k => { k with widen := tmod {} k.widen i (fun e => { e with clip := 0, conv := 0, count := 0 }) })
  | 4 =>
    if i < 64 then c.modSide n .w (fun k => { k with ptIdle := drop16 k.ptIdle i })
    else if i < 128 then c.modSide n .e (fun k => { k with ptIdle := drop16 k.ptIdle (i - 64) })
    else if i < 160 then c.modSide n .w (fun k => { k with teIdle := drop16 k.teIdle (i - 128) })
    else c.modSide n .e (fun k => { k with teIdle := drop16 k.teIdle (i - 160) })
  | 5 => c.modSide n (Die.ofBit (i / 8)) (fun k => { k with idleSum := drop16 k.idleSum (i % 8) })
  | 7 => { c with pwr := { c.pwr with peak := 0, sprints := 0 } }
  | _ => c

/-- TELEMETRY_READ (R354, R355): rights to the block, its range, then the copy and the clearing.
DEDUCED: log entry 60. -/
def Chip.telemetryCmd (c : Chip) (h : Hdr) (p : TelemetryP) : Chip :=
  let block := p.block.toNat
  let first := p.first.toNat
  let count := p.count.toNat
  match telemetrySize block with
  | none => c.reserved h 32
  | some size =>
    if h.fn ≠ 0 ∧ 6 < block then c.done h 0x0603 0 0
    else if size < first + count then c.range h (if size ≤ first then 34 else 36)
    else
      let idx := (List.range count).map (· + first)
      let bs := idx.flatMap (fun i => c.telemetryEntry h.ctx block p.die i)
      let c := { c with host := mwrite c.host p.ha.toNat bs }
      let c := if p.clear then idx.foldl (fun (c : Chip) i => c.telemetryClear h.ctx block i) c else c
      c.ok h (BitVec.ofNat 32 bs.length)

def execTelemetryRead (h : Hdr) (p : TelemetryP) (s : State) : Host.Outcome State Fault Refusal :=
  s.run (fun c => c.command h false true (fun c => c.telemetryCmd h p))

/-! ### The sideband (R419) -/

/-- The target answers: from phase 2 on, and not in a HOLD without a primary (R387).
DEDUCED: log entry 61. -/
def Chip.sideOn (c : Chip) : Bool := c.pwr.inputOn && decide (2 ≤ c.boot.phase.toNat) && !(decide (c.boot.phase = 7) && decide (c.boot.holdCode = 1))

def execSidebandOffsetWrite (off : W16) (s : State) : Host.Outcome State Fault Refusal :=
  s.run (fun c => if c.sideOn then { c with port := { c.port with sideOff := off } } else c)

/-- One byte of the sideband's map. -/
def Chip.sideByte (c : Chip) (o : Nat) : Byte :=
  if o < 0x100 then (blockBytes c.pwrReg 256).getD o 0
  else if o < 0x140 then (blockBytes c.boot.reg 64).getD (o - 0x100) 0
  else 0xFF

/-- SIDEBAND_READ: bytes from the offset, nothing cleared. -/
def execSidebandRead (len : Nat) (s : State) : Host.Outcome State Fault Refusal :=
  s.run (fun c =>
    if c.sideOn then { c with rdata := (List.range len).map (fun i => c.sideByte (c.port.sideOff.toNat + i)) } else { c with rdata := [] })

/-! ### The debug port (R396, R397) -/

/-- Another instruction is in force; boundary scan lets the pins go. -/
def DebugPort.load (p : DebugPort) (ir : Byte) : DebugPort := { p with ir := ir, driving := false }

/-- BYPASS: one bit of delay between TDI and TDO. -/
def execBypass (tdi : Bool) (s : State) : Host.Outcome State Fault Refusal :=
  s.run (fun c => { c with rdata := [BitVec.ofNat 8 (b2n c.port.bypassBit)], port := { (c.port.load 0xFF) with bypassBit := tdi } })

/-- The identification code (Table 16.6). -/
def Chip.idcode (c : Chip) : Nat := Config.siliconRev.toNat * 2 ^ 28 + 0x0416 * 2 ^ 12 + c.boot.ident0.manufacturer.toNat * 2 + 1

def execIdcode (s : State) : Host.Outcome State Fault Refusal :=
  s.run (fun c => { c with rdata := leBytes 4 c.idcode, port := c.port.load 0x01 })

/-- SAMPLE/PRELOAD: the pins are sampled, the chain holds what is shifted in. -/
def execSamplePreload (pins preload : List Bool) (s : State) : Host.Outcome State Fault Refusal :=
  s.run (fun c => { c with rdata := pins.map (fun b => BitVec.ofNat 8 (b2n b)), port := { (c.port.load 0x02) with chain := preload } })

/-- The phases in which boundary scan may drive the pins, with no context. -/
def Chip.extestOpen (c : Chip) : Bool :=
  (decide (c.boot.phase.toNat ≤ 4) || decide (c.boot.phase = 7) || decide (c.boot.phase = 9)) && c.live.isEmpty

/-- EXTEST: the chain drives the pins, or the instruction acts as BYPASS.
DEDUCED: log entry 81. -/
def execExtest (s : State) : Host.Outcome State Fault Refusal :=
  s.run (fun c => { c with port := if c.extestOpen && !c.boot.governing.dbgOff then { c.port with ir := 0x00, driving := true } else c.port.load 0xFF })

/-- The register lies on one die. -/
def onDie (o : Nat) : Bool :=
  (dieBlock 0x30000 0x100 o).isSome || (dieBlock 0x30400 0x100 o).isSome || (dieBlock 0x40000 0x100 o).isSome || (dieBlock 0x50000 0x100 o).isSome ||
  (dieBlock 0x61000 0x100 o).isSome || (dieBlock 0x70000 0x100 o).isSome || (dieBlock 0x90000 0x100 o).isSome || (dieBlock 0xF0000 0x1000 o).isSome ||
  (dieBlock 0x100000 0x40000 o).isSome || (decide (0x200000 ≤ o) && decide (o < 0x280000))

/-- An access through the port is refused: in HOLD each controller answers for its own die only (R397).
DEDUCED: log entry 81. -/
def Chip.dbgaccRefused (c : Chip) (o : Nat) : Bool := decide (c.boot.phase = 7) && !onDie o

/-- The data register after an access: DATA, the request's OFFSET and WRITE, STATUS. -/
def drAfter (dr : BitVec 96) (data : Nat) (status : Nat) : BitVec 96 :=
  BitVec.ofNat 96 (data % 2 ^ 64 + keep dr.toNat 87 64 + status * 2 ^ 88)

/-- DBGACC: one 8-byte access on the PF's view of BAR0; acts as BYPASS before phase 2 and with DBG_OFF. -/
def Chip.dbgacc (c : Chip) (dr : BitVec 96) : Chip :=
  if c.boot.phase.toNat < 2 ∨ c.boot.governing.dbgOff then { c with port := c.port.load 0xFF }
  else
    let c := { c with port := c.port.load 0x10 }
    let o := bits dr.toNat 86 64 * 8
    let data := bits dr.toNat 63 0
    let put (c : Chip) (data status : Nat) : Chip :=
      let d := drAfter dr data status
      { c with port := { c.port with dr := d }, rdata := leBytes 12 d.toNat }
    if c.dbgaccRefused o then put c data 2
    else if bit dr.toNat 87 then put (c.regWrite 0 0 o (leBytes 8 data)) data 0
    else
      let r := c.regRead 0 0 o 8
      put r.1 (leNat r.2) 0

def execDbgacc (dr : BitVec 96) (s : State) : Host.Outcome State Fault Refusal := s.run (fun c => c.dbgacc dr)

end Sys2Proof.Machine
end

