-- ==== Sys2Proof/Machine/Packet.lean ====
section
/-!
DEFINITION. Taking command packets from the rings, their checks and layouts, the execute queue, the end of a run
(R336 to R346, R349 to R351, R358).
-/
namespace Sys2Proof.Machine

/-! ### Opcodes (Table 14.5) -/

/-- What Table 14.5 says of an opcode: an execute command, PF only, acts for a context that must not be free (R340 step 5),
and the named bits of each parameter word, which blocks of fixed size count as whole words. -/
structure OpRow where
  e : Bool := false
  pf : Bool := false
  needCtx : Bool := true
  words : List Nat := []
  deriving DecidableEq, Repr, Inhabited

/-- Every bit of a word is named. -/
def allBits : Nat := 2 ^ 64 - 1
/-- A VA word: bits 63:48 are reserved (R344). -/
def vaBits : Nat := 2 ^ 48 - 1

/-- The assigned opcodes. `inl` is INLINE, `w0` the first parameter word, which says what an address word holds.
DEDUCED: log entry 25. -/
def opRow (op : Nat) (inl : Bool) (w0 : Nat) : Option OpRow :=
  match op with
  | 0x01 => some { needCtx := false, words := [allBits] }
  | 0x02 => some { needCtx := false, words := [0xFF] }
  | 0x03 => some { needCtx := false }
  | 0x10 => some { pf := true, needCtx := false, words := [0x30F, allBits, allBits, allBits, allBits, allBits, allBits] }
  | 0x11 => some { pf := true }
  | 0x12 => some { words := [allBits] }
  | 0x13 => some { pf := true, words := [0x10F] }
  | 0x14 => some { pf := true, words := [0x1FF] }
  | 0x15 => some { words := [0xFFF001F01FF, allBits, allBits] }
  | 0x18 => some { words := [vaBits, allBits, 0x0FFF07FF] }
  | 0x19 => some { words := [vaBits, allBits] }
  | 0x1A => some { pf := true, words := [0x3FFFFFF, vaBits] }
  | 0x20 => some { e := true, words := [0xFFFFFFF, if bit w0 17 then vaBits else allBits, allBits, allBits] }
  | 0x21 => some { words := [0x1FFFF] }
  | 0x22 => some { words := [0xFFFF] }
  | 0x28 => some { e := true, words := [0xF, if inl then 0 else allBits, allBits, vaBits] }
  | 0x29 => some { e := true, words := [0xF, allBits, allBits] }
  | 0x30 => some { e := true, words := [0xF, allBits, allBits, vaBits] }
  | 0x31 => some { words := [vaBits] }
  | 0x32 => some { words := [vaBits] }
  | 0x33 => some { e := true, words := [0xFFFF000F, allBits, allBits, vaBits] }
  | 0x38 => some { words := [0xFF, 0x1FFFF, allBits, allBits, allBits, 0, 0, 0, 0] }
  | 0x39 => some { words := [0xFFFF003F] }
  | 0x3A => some { words := [0xFFFF0001FFFF, 0xFFFFFFFF, vaBits] }
  | 0x3B => some { words := [0x0F7FFFFF, 0xFFFF] }
  | 0x40 => some { words := [2 ^ 46 - 1, if bit w0 17 then vaBits else allBits, vaBits, allBits] }
  | 0x41 => some { e := true, words := [allBits, allBits] }
  | 0x42 => some { e := true, words := [0x7FF, if bit w0 0 then vaBits else allBits, allBits] }
  | 0x43 => some { words := [vaBits, vaBits, allBits, vaBits, allBits, vaBits, allBits] }
  | 0x44 => some { e := true, words := [vaBits] }
  | 0x45 => some { words := [0x7FFFF, if bit w0 0 then vaBits else allBits, allBits] }
  | 0x48 => some { words := [allBits - 0x1FF8, allBits, 2 ^ 52 - 1, allBits, allBits, allBits - 0x7F00000000, allBits, allBits] }
  | 0x49 => some { words := [0xFFFF] }
  | 0x4A => some { words := [0xFFFF] }
  | 0x4B => some { words := [0xFFFF] }
  | 0x4C => some { words := [0xFFFF, allBits] }
  | 0x4D => some { words := [0xFFFF, vaBits] ++ List.replicate 24 allBits }
  | 0x4E => some { e := true, words := [2 ^ 57 - 1, 0xFFFF] }
  | 0x50 => some { pf := true, words := [0xF, 0x1FFF1FFF, allBits, allBits, allBits, 2 ^ 40 - 1, 0xFFFF, 0xFFF00000] }
  | 0x51 => some { pf := true }
  | 0x52 => some { words := [0xFF] }
  | 0x53 => some { words := [0xFF] }
  | 0x58 => some { pf := true, words := [2 ^ 52 - 1 - 0xC00, 3] }
  | 0x60 => some { pf := true, words := [0x1F, allBits] }
  | 0x61 => some { pf := true, words := [0x1FFFF] }
  | 0x68 => some { words := [0xFFF0FFF03FF, allBits] }
  | 0x70 => some { pf := true, words := [1, allBits] }
  | _ => none

/-- The fewest slots of a packet: one for the header, and those the parameter words fill (R344). -/
def OpRow.minLen (r : OpRow) : Nat := 1 + ceilDiv (8 * r.words.length) 32

/-! ### Capabilities, levels, NOP (R342 to R344) -/

/-- OPCODES of the capability block: bit n for opcode n. -/
def opcodeBits : Nat := (List.range 256).foldl (fun a k => if (opRow k false 0).isSome then a + 2 ^ k else a) 0

/-- The capability block (Table 14.6). -/
def Chip.capBlock (c : Chip) : List Byte :=
  let ea := b2n (decide (c.boot.ident0.part = 1))
  leBytes 8 (1 + 16 + Config.fwMajor.toNat * 2 ^ 8 + Config.fwMinor.toNat * 2 ^ 16 + ea * 2 ^ 24) ++
  leBytes 8 (1023 + 15 * 2 ^ 11 + 511 * 2 ^ 15 + 7 * 2 ^ 24 + 65536 * 2 ^ 32) ++
  leBytes 8 (0x01FF + 512 * 2 ^ 16 + 32768 * 2 ^ 32) ++ leBytes 8 0 ++ leBytes 32 opcodeBits

def execCapQuery (h : Hdr) (ha : W64) (s : State) : Host.Outcome State Fault Refusal :=
  s.run (fun c => c.command h false false (fun c => ({ c with host := mwrite c.host ha.toNat c.capBlock }).ok h 64))

/-- LEVEL_SET: level 1 alone is granted; a function stays at level 1 either way. -/
def execLevelSet (h : Hdr) (level : Byte) (s : State) : Host.Outcome State Fault Refusal :=
  s.run (fun c => c.command h false false (fun c =>
    if level = 0 then c.range h 32
    else if level ≠ 1 then c.reserved h 32
    else ({ c with vfs := tmod {} c.vfs h.fn (fun v => { v with level := 1 }) }).ok h 1))

def execNopCmd (h : Hdr) (s : State) : Host.Outcome State Fault Refusal :=
  s.run (fun c => c.command h false false (fun c => c.ok h 0))

/-! ### Step and image commands join the execute queue (R345, R350) -/

/-- The start time of a command: the take time plus 2 µs when the packet names zero or a time gone by (R345).
DEDUCED: log entry 22. -/
def startAt (now rt : W64) : W64 := if rt = 0 ∨ rt < now then now + 2000 else rt

def execImpRun (h : Hdr) (p : RunP) (s : State) : Host.Outcome State Fault Refusal :=
  s.run (fun c => c.command h false true (fun c => c.enqueue (.impRun h { p with start := startAt c.now p.start })))

def execStepCmd (h : Hdr) (p : RunP) (step : W48) (s : State) : Host.Outcome State Fault Refusal :=
  s.run (fun c => c.command h false true (fun c => c.enqueue (.stepCmd h { p with start := startAt c.now p.start } step)))

def execFillDrain (h : Hdr) (p : FillDrainP) (s : State) : Host.Outcome State Fault Refusal :=
  s.run (fun c => c.command h false true (fun c => c.enqueue (.fillDrain h { p with start := startAt c.now p.start })))

/-! ### Reading a packet (R336, R339, R340) -/

/-- Slots between HEAD and TAIL. -/
def Ring.waiting (r : Ring) : Nat := (r.tail.toNat + r.slots - r.head.toNat) % r.slots

/-- `len` slots from HEAD on, going on from slot 0 at the end of the ring. -/
def Ring.packet (r : Ring) (m : Memory) (len : Nat) : List Byte :=
  (List.range len).flatMap (fun i => mread m (r.base.toNat + 32 * ((r.head.toNat + i) % r.slots)) 32)

/-- LEN of the packet at HEAD; a LEN of zero is taken with its one slot and fails the check of LEN. -/
def Ring.packetLen (r : Ring) (m : Memory) : Nat := max 1 (imgNum (r.packet m 1) 12 2)

/-- The header of a packet. -/
def hdrOf (fn page ring : Nat) (pkt : List Byte) : Hdr :=
  { fn := fn, page := page, ring := ring, seq := BitVec.ofNat 32 (imgNum pkt 8 4), ctx := imgNum pkt 4 4 % 1024,
    fence := bit (imgNum pkt 2 2) 0, hold := bit (imgNum pkt 2 2) 1, inln := bit (imgNum pkt 2 2) 2 }

/-- The first reserved field of a word that is not zero: its lowest bit. -/
def reservedField (named v : Nat) : Option Nat :=
  ((List.range 64).find? (fun i => bit v i && !bit named i)).map (fun i =>
    ((List.range (i + 1)).filter (fun j => decide (j = 0) || bit named (j - 1))).getLastD 0)

/-- The first reserved field of the header that is not zero: its byte offset (Table 14.3). -/
def headReserved (pkt : List Byte) : Option Nat :=
  if imgNum pkt 2 2 / 8 ≠ 0 then some 2
  else if imgNum pkt 4 4 / 1024 ≠ 0 then some 5
  else if imgNum pkt 14 2 ≠ 0 then some 14
  else if imgNum pkt 16 16 ≠ 0 then some 16
  else none

/-- The first reserved field of the parameters that is not zero: its byte offset. -/
def paramReserved (pkt : List Byte) (words : List Nat) : Option Nat :=
  words.zipIdx.findSome? (fun w => (reservedField w.1 (imgNum pkt (32 + 8 * w.2) 8)).map (fun b => 32 + 8 * w.2 + b / 8))

/-- Steps 1 to 8 of R340 as far as they hang on the packet alone: status and DETAIL of the first failure.
DEDUCED: log entries 23 and 24. -/
def Chip.packetCheck (c : Chip) (h : Hdr) (pkt : List Byte) : Option (W16 × Nat) :=
  let op := imgNum pkt 0 1
  let len := imgNum pkt 12 2
  if imgNum pkt 1 1 % 16 ≠ (tget {} c.vfs h.fn).level then some (0x0102, 1)
  else if imgNum pkt 1 1 / 16 ≠ 1 then some (0x0102, 1)
  else
    match opRow op h.inln (imgNum pkt 32 8) with
    | none => some (0x0102, 0)
    | some r =>
      if !c.rightsOk h r.pf then some (0x0603, 0)
      else if r.needCtx && decide ((c.ctx h.ctx).st = .free) then some (0x0104, 0)
      else if len < r.minLen then some (0x0105, 12)
      else
        match headReserved pkt <|> paramReserved pkt r.words with
        | some off => some (0x0102, off)
        | none =>
          if 32768 < len then some (0x0105, 12)
          else if (h.hold && decide (op ≠ 0x30) && decide (op ≠ 0x33)) || (h.inln && decide (op ≠ 0x28)) then some (0x0105, 2)
          else none

/-- The parameters of STREAM_OPEN: words 0 to 7 of Table 11.1. -/
def streamOpenOf (w : Nat → Nat) : StreamOpenP :=
  { fallback := BitVec.ofNat 16 (bits (w 0) 63 48), model := BitVec.ofNat 16 (bits (w 0) 47 32), sclass := BitVec.ofNat 3 (bits (w 0) 21 19),
    latency := bit (w 0) 17, postn := BitVec.ofNat 4 (bits (w 0) 16 13), deadline := BitVec.ofNat 64 (w 1),
    expect := BitVec.ofNat 17 (bits (w 2) 51 35), maxLen := BitVec.ofNat 17 (bits (w 2) 34 18), stopset := BitVec.ofNat 16 (bits (w 3) 63 48),
    btab := BitVec.ofNat 48 (w 3), tokLog := BitVec.ofNat 48 (w 4), outRing := BitVec.ofNat 8 (bits (w 5) 63 56),
    prompt := BitVec.ofNat 17 (bits (w 5) 55 39), cookie := BitVec.ofNat 32 (w 5), user := BitVec.ofNat 63 (w 7),
    switched := bit (w 0) 18, stopReq := bit (w 7) 63 }

/-- The parameters of PART_SET (Table 14.18). -/
def partSetOf (w : Nat → Nat) : PartSetP :=
  { part := BitVec.ofNat 4 (w 0), tagCnt := BitVec.ofNat 7 (bits (w 1) 28 22), tagBase := BitVec.ofNat 6 (bits (w 1) 21 16),
    semCnt := BitVec.ofNat 7 (bits (w 1) 12 6), semBase := BitVec.ofNat 6 (w 1), ptW := BitVec.ofNat 64 (w 2), ptE := BitVec.ofNat 64 (w 3),
    te := BitVec.ofNat 64 (w 4), uu := BitVec.ofNat 8 (bits (w 5) 39 32), su := BitVec.ofNat 32 (w 5), share := BitVec.ofNat 16 (w 6),
    sliceMs := BitVec.ofNat 8 (bits (w 7) 31 24), killLimit := BitVec.ofNat 4 (bits (w 7) 23 20) }

/-- The start parameters of IMP_RUN and STEP. -/
def runOf (w : Nat → Nat) : RunP :=
  { handle := BitVec.ofNat 4 (w 0), wEntry := BitVec.ofNat 32 (w 1), eEntry := BitVec.ofNat 32 (bits (w 1) 63 32), start := BitVec.ofNat 64 (w 2) }

/-- The command a checked packet holds. What a command reads of host memory as it is carried out comes with it; a bulk
command that waits in the execute queue reads when it starts, but for an INLINE image. -/
def packetCmd (m : Memory) (h : Hdr) (pkt : List Byte) : Option Instr :=
  let w (k : Nat) : Nat := imgNum pkt (32 + 8 * k) 8
  let w64 (k : Nat) : W64 := BitVec.ofNat 64 (w k)
  let w48 (k : Nat) : W48 := BitVec.ofNat 48 (w k)
  let a := w 0
  let b16 : W16 := BitVec.ofNat 16 a
  match imgNum pkt 0 1 with
  | 0x01 => some (.capQuery h (w64 0))
  | 0x02 => some (.levelSet h (BitVec.ofNat 8 a))
  | 0x03 => some (.nopCmd h)
  | 0x10 => some (.ctxCreate h
      { part := BitVec.ofNat 4 a, latency := bit a 8, rbwFault := bit a 9, seedLo := w64 1, seedHi := w64 2, spillHa := w64 3,
        spillBytes := w64 4, parkHa := w64 5, parkBytes := w64 6 })
  | 0x11 => some (.ctxDestroy h)
  | 0x12 => some (.ctxQuery h (w64 0))
  | 0x13 => some (.ctxMove h (BitVec.ofNat 4 a) (bit a 8))
  | 0x14 => some (.vfBind h (BitVec.ofNat 9 a))
  | 0x15 => some (.oringSet h
      { ring := BitVec.ofNat 8 a, kind := bit a 8, log2 := BitVec.ofNat 5 (bits a 20 16), vector := BitVec.ofNat 12 (bits a 43 32),
        ha := w64 1, wb := w64 2 })
  | 0x18 =>
    let g := w 2
    some (.mapPages h (w64 0) (w64 1)
      { place := BitVec.ofNat 4 g, salt := BitVec.ofNat 4 (bits g 7 4), keysel := bit g 8, pair := bit g 9, ro := bit g 10,
        pset := BitVec.ofNat 12 (bits g 27 16) })
  | 0x19 => some (.unmapPages h (w64 0) (w64 1))
  | 0x1A => some (.grantModel h b16 (BitVec.ofNat 10 (bits a 25 16)) (w64 1))
  | 0x20 => some (.modelLoad h
      { model := b16, pin := bit a 16, srcPeer := bit a 17, peer := BitVec.ofNat 10 (bits a 27 18), addr := w64 1, bytes := w64 2,
        kvPages := w64 3 } [])
  | 0x21 => some (.modelPin h b16 (bit a 16))
  | 0x22 => some (.modelEvict h b16)
  | 0x28 => some (.impLoad h { handle := BitVec.ofNat 4 a, ha := w64 1, bytes := w64 2, va := w64 3 }
      (if h.inln then (pkt.drop 64).take (w 2) else []))
  | 0x29 => some (.impRun h (runOf w))
  | 0x30 => some (.stepCmd h (runOf w) (w48 3))
  | 0x31 => some (.commitCmd h (w48 0))
  | 0x32 => some (.abortCmd h (w48 0))
  | 0x33 => some (.fillDrain h
      { handle := BitVec.ofNat 4 a, m := BitVec.ofNat 16 (bits a 31 16), fwd := BitVec.ofNat 32 (w 1), bwd := BitVec.ofNat 32 (bits (w 1) 63 32),
        start := w64 2, step := w48 3 })
  | 0x38 => some (.ocfgSet h (BitVec.ofNat 8 a) (ocfgOf ((pkt.drop 40).take 64)))
  | 0x39 => some (.lsSet h (BitVec.ofNat 6 a) (BitVec.ofNat 16 (bits a 31 16)))
  | 0x3A => some (.gmodeSet h
      { nstart := BitVec.ofNat 8 a, latLimit := BitVec.ofNat 8 (bits a 15 8), noPerLayer := bit a 16, mib := BitVec.ofNat 16 (bits a 47 32),
        maxNorm := BitVec.ofNat 32 (w 1), normBase := w48 2 })
  | 0x3B => some (.replicaSet h
      { vgroup := BitVec.ofNat 12 a, shards := BitVec.ofNat 11 (bits a 22 12), stragSteps := BitVec.ofNat 4 (bits a 27 24),
        stragMs := BitVec.ofNat 16 (w 1) })
  | 0x40 => some (.proofArm h
      { n := b16, allArr := bit a 16, destPeer := bit a 17, peer := BitVec.ofNat 10 (bits a 27 18), peerCtx := BitVec.ofNat 10 (bits a 37 28),
        evRing := BitVec.ofNat 8 (bits a 45 38), addr := w64 1, psetVa := w48 2, psetCount := w64 3 })
  | 0x41 => some (.checkpoint h (w64 0) (w64 1))
  | 0x42 => some (.ckptLoad h { srcPeer := bit a 0, peer := BitVec.ofNat 10 (bits a 10 1), addr := w64 1, bytes := w64 2 } [])
  | 0x43 => some (.captureArm h
      { step := w48 0, tokVa := w48 1, tokCount := w64 2, areaVa := w48 3, areaBytes := w64 4, psetVa := w48 5, psetCount := w64 6 })
  | 0x44 => some (.reprint h (w64 0))
  | 0x45 => some (.proofRecv h
      { destVa := bit a 0, source := BitVec.ofNat 10 (bits a 10 1), evRing := BitVec.ofNat 8 (bits a 18 11), addr := w64 1, bytes := w64 2 })
  | 0x48 => some (.streamOpen h (streamOpenOf w))
  | 0x49 => some (.streamClose h b16)
  | 0x4A => some (.streamPark h b16)
  | 0x4B => some (.streamUnpark h b16)
  | 0x4C => some (.streamQuery h b16 (w64 1))
  | 0x4D => some (.stopsetSet h b16 (w64 1) ((pkt.drop 48).take 192))
  | 0x4E => some (.serve h
      { count := BitVec.ofNat 32 a, decMax := BitVec.ofNat 12 (bits a 43 32), chunk := BitVec.ofNat 13 (bits a 56 44),
        pfMax := BitVec.ofNat 16 (w 1) })
  | 0x50 => some (.partSet h (partSetOf w))
  | 0x51 => some (.preempt h)
  | 0x52 => some (.lockAcquire h (BitVec.ofNat 8 a))
  | 0x53 => some (.lockRelease h (BitVec.ofNat 8 a))
  | 0x58 => some (.domainSet h
      { moduleId := BitVec.ofNat 10 a, dx := BitVec.ofNat 4 (bits a 15 12), dy := BitVec.ofNat 4 (bits a 19 16),
        dz := BitVec.ofNat 4 (bits a 23 20), epoch := BitVec.ofNat 8 (bits a 31 24), root := BitVec.ofNat 10 (bits a 41 32),
        backup := BitVec.ofNat 10 (bits a 51 42), src := BitVec.ofNat 2 (w 1) })
  | 0x60 => some (.overlayApply h (BitVec.ofNat 5 a) (w64 1) (mread m (w 1) 1040))
  | 0x61 => some (.powerLimit h b16 (bit a 16))
  | 0x68 => some (.telemetryRead h
      { block := BitVec.ofNat 8 a, clear := bit a 8, die := Die.ofBit (bits a 9 9), first := BitVec.ofNat 12 (bits a 27 16),
        count := BitVec.ofNat 12 (bits a 43 32), ha := w64 1 })
  | 0x70 => some (.debugUnlock h (bit a 0) (w64 1) (mread m (w 1) 32))
  | _ => none

/-! ### Carrying a packet out -/

/-- The effect of a meaning on the module. -/
def Chip.carry (c : Chip) (f : State → Host.Outcome State Fault Refusal) : Chip :=
  match f { pending := [], chip := c } with
  | .next s => s.chip
  | .fault _ => c
  | .refused _ => c

/-- A command of a packet: a control command is carried out now, an execute command joins its context's queue (R350). -/
def Chip.carryCmd (c : Chip) : Instr → Chip
  | .capQuery h ha => c.carry (execCapQuery h ha)
  | .levelSet h l => c.carry (execLevelSet h l)
  | .nopCmd h => c.carry (execNopCmd h)
  | .ctxCreate h p => c.carry (execCtxCreate h p)
  | .ctxDestroy h => c.carry (execCtxDestroy h)
  | .ctxQuery h ha => c.carry (execCtxQuery h ha)
  | .ctxMove h p l => c.carry (execCtxMove h p l)
  | .vfBind h v => c.carry (execVfBind h v)
  | .oringSet h p => c.carry (execOringSet h p)
  | .mapPages h va n a => c.carry (execMapPages h va n a)
  | .unmapPages h va n => c.carry (execUnmapPages h va n)
  | .grantModel h m g va => c.carry (execGrantModel h m g va)
  | .modelPin h m p => c.carry (execModelPin h m p)
  | .modelEvict h m => c.carry (execModelEvict h m)
  | .impRun h p => c.carry (execImpRun h p)
  | .stepCmd h p k => c.carry (execStepCmd h p k)
  | .commitCmd h k => c.carry (execCommitCmd h k)
  | .abortCmd h k => c.carry (execAbortCmd h k)
  | .fillDrain h p => c.carry (execFillDrain h p)
  | .ocfgSet h i e => c.carry (execOcfgSet h i e)
  | .lsSet h e i => c.carry (execLsSet h e i)
  | .gmodeSet h p => c.carry (execGmodeSet h p)
  | .replicaSet h p => c.carry (execReplicaSet h p)
  | .proofArm h p => c.carry (execProofArm h p)
  | .captureArm h p => c.carry (execCaptureArm h p)
  | .proofRecv h p => c.carry (execProofRecv h p)
  | .streamOpen h p => c.carry (execStreamOpen h p)
  | .streamClose h k => c.carry (execStreamClose h k)
  | .streamPark h k => c.carry (execStreamPark h k)
  | .streamUnpark h k => c.carry (execStreamUnpark h k)
  | .streamQuery h k ha => c.carry (execStreamQuery h k ha)
  | .stopsetSet h i va bs => c.carry (execStopsetSet h i va bs)
  | .serve h p => c.carry (execServe h p)
  | .partSet h p => c.carry (execPartSet h p)
  | .preempt h => c.carry (execPreempt h)
  | .lockAcquire h l => c.carry (execLockAcquire h l)
  | .lockRelease h l => c.carry (execLockRelease h l)
  | .domainSet h p => c.carry (execDomainSet h p)
  | .overlayApply h o ha bs => c.carry (execOverlayApply h o ha bs)
  | .powerLimit h w p => c.carry (execPowerLimit h w p)
  | .telemetryRead h p => c.carry (execTelemetryRead h p)
  | .debugUnlock h p ha bs => c.carry (execDebugUnlock h p ha bs)
  | i => c.enqueue i

/-- A packet that has been read whole: the checks of R340, then its command. -/
def Chip.packet (c : Chip) (h : Hdr) (pkt : List Byte) : Chip :=
  match c.packetCheck h pkt with
  | some e => c.done h e.1 (BitVec.ofNat 32 e.2) 0
  | none =>
    match packetCmd c.host h pkt with
    | some i => c.carryCmd i
    | none => c

/-! ### Fences (R350) -/

/-- The headers of every command taken from a context's rings that has not completed its final run. -/
def Chip.outstanding (c : Chip) (n : Nat) : List Hdr :=
  let queued := c.ctxs.flatMap (fun kv => kv.2.execQ.map (fun x => cmdHdr x.cmd) ++ kv.2.streamReqs.filterMap (fun r =>
    match r.1 with
    | .streamClose h _ => some h
    | .streamPark h _ => some h
    | .streamUnpark h _ => some h
    | _ => none))
  let locks := c.locks.flatMap (fun kv => kv.2.waiters.map (·.2))
  let parts := c.parts.filterMap (fun kv => kv.2.waitSet.map (·.1))
  let ovls := c.boot.ovlWait.filterMap (·.1)
  (queued ++ locks ++ parts ++ ovls).filter (fun h => decide (h.page = n))

/-! ### The take (R336, R337, R349) -/

/-- The firmware takes packets in phases READY and QUIESCE, while the rails are up (R373, R381, R405). -/
def Chip.taking (c : Chip) : Bool := c.pwr.railsOn && (decide (c.boot.phase = 6) || decide (c.boot.phase = 8))

/-- LEVEL and VERSION of the packet at a ring's head are the function's: only then do its other fields mean anything (R12). One of
another level is taken at once and completes with an error. -/
def Chip.levelOk (c : Chip) (n r : Nat) : Bool :=
  let b := imgNum ((c.ring n r).packet c.host 1) 1 1
  decide (b % 16 = (tget {} c.vfs (c.fnOf n)).level) && decide (b / 16 = 1)

/-- A ring has a packet, room for its record, and room in the queue an execute command would join. -/
def Chip.ringReady (c : Chip) (n r : Nat) : Bool :=
  let g := c.ring n r
  let pkt := g.packet c.host 1
  let full := match opRow (imgNum pkt 0 1) false 0 with
    | some o => o.e && decide (64 ≤ (c.ctx (imgNum pkt 4 4 % 1024)).execQ.length)
    | none => false
  g.enable && !g.stopped && decide (g.waiting ≠ 0) && !g.cplFull && g.kept.isEmpty && !(c.levelOk n r && full)

/-- Take the packet at a ring's head: a LEN past TAIL stops the ring, else HEAD moves past it and it is carried out. -/
def Chip.takeAt (c : Chip) (n r : Nat) : Chip :=
  let g := c.ring n r
  let len := g.packetLen c.host
  if g.waiting < len then c.modRing n r Ring.stop
  else
    let pkt := g.packet c.host len
    let c := c.modRing n r (fun g => { g with head := BitVec.ofNat 32 ((g.head.toNat + len) % g.slots), fenceOn := none })
    let c := c.modCtx n (fun x => { x with ringLast := r })
    c.packet (hdrOf (c.fnOf n) n r pkt) pkt

/-- The packet at a ring's head asks for FENCE.
DEDUCED: log entry 27. -/
def Chip.fenced (c : Chip) (n r : Nat) : Bool := c.levelOk n r && bit (imgNum ((c.ring n r).packet c.host 1) 2 2) 0

/-- Take from the first ring of a rotation that has a packet; one at a FENCE begins its wait and is passed over.
DESIGN CHOICE: log entry 15. -/
def Chip.takeFrom (n : Nat) : List Nat → Chip → Chip
  | [], c => c
  | r :: t, c =>
    if !c.ringReady n r || (c.ring n r).fenceOn.isSome then Chip.takeFrom n t c
    else if c.fenced n r && !(c.outstanding n).isEmpty then
      Chip.takeFrom n t (c.modRing n r (fun g => { g with fenceOn := some (c.outstanding n) }))
    else c.takeAt n r

/-- PACKET_TAKE: the next packet of a context's rings, from one past the ring taken from last. -/
def execPacketTake (ctx : Nat) (s : State) : Host.Outcome State Fault Refusal :=
  s.run (fun c =>
    if !c.taking then c
    else Chip.takeFrom ctx ((List.range 8).map (fun i => ((c.ctx ctx).ringLast + 1 + i) % 8)) c)

/-- FENCE_RELEASE: every command the fence waited for has completed its final run. -/
def execFenceRelease (ctx ring : Nat) (s : State) : Host.Outcome State Fault Refusal :=
  s.run (fun c =>
    match (c.ring ctx ring).fenceOn with
    | none => c
    | some l =>
      if !c.taking || !c.ringReady ctx ring || l.any (fun h => (c.outstanding ctx).contains h) then c else c.takeAt ctx ring)

/-! ### The execute queue (R345, R346, R350) -/

/-- The head of a context's queue can start: the context holds its partition, runs nothing, no switch, PART_SET or overlay
is due.
DEDUCED: log entry 16. -/
def Chip.canStart (c : Chip) (n : Nat) : Bool :=
  let x := c.ctx n
  c.taking && decide (x.st = .running) && decide ((c.part x.part).cur = some n) && x.run.isNone && !x.execQ.isEmpty &&
  c.boot.ovlWait.isEmpty && (c.part x.part).waitSet.isNone && !(c.choiceDue x.part && (c.nextCtx x.part).isSome)

/-- A command names an entry for a die its image does not run on (R360). -/
def Image.lacks (i : Image) (wE eE : W32) : Bool :=
  (decide (wE ≠ 0xFFFFFFFF) && i.w.isNone) || (decide (eE ≠ 0xFFFFFFFF) && i.e.isNone)

/-- What refuses a step or image command at its start: an empty handle, a die without sheets, a halted context (R260, R345).
DEDUCED: log entry 19. -/
def Chip.startBad (c : Chip) (n : Nat) (i : Instr) : Option EndStatus :=
  let x := c.ctx n
  let img (h : BitVec 4) : Option Image := tget none x.handles h.toNat
  let absent : Option EndStatus := some { status := 0x0104 }
  let halted : Option EndStatus := some { status := 0x0404, detail := BitVec.ofNat 32 c.vote.firstPset.toNat }
  match i with
  | .impRun _ p => match img p.handle with | some g => if g.lacks p.wEntry p.eEntry then absent else none | none => absent
  | .stepCmd _ p _ =>
    if x.halted then halted else
    match img p.handle with | some g => if g.lacks p.wEntry p.eEntry then absent else none | none => absent
  | .fillDrain _ p => if x.halted then halted else if (img p.handle).isNone then absent else none
  | _ => none

/-- A run begins with nothing of its own yet.
DESIGN CHOICE: log entry 21. -/
def Chip.plainRun (c : Chip) (n : Nat) (start : W64) : Chip :=
  (c.startCommand (c.ctx n).part).modCtx n (fun x => { x with run := some { start := start, began := c.now, lsExp := x.train.exp, ocfg := x.ocfg } })

/-- A load from a peer begins with a read request to it over Purlin (R363, R300). -/
def Chip.askPeer (c : Chip) (n : Nat) (peer : BitVec 10) (addr bytes : W64) : Chip :=
  c.send msgReadRequest peer.toNat (leBytes 2 n ++ leBytes 8 addr.toNat ++ leBytes 8 bytes.toNat)

/-- Start the command at the head of a context's queue. -/
def Chip.startCmd (c : Chip) (n : Nat) (i : Instr) : Chip :=
  match c.startBad n i with
  | some e => (c.plainRun n 0).finish n e
  | none =>
    let b := c.plainRun n 0
    match i with
    | .stepCmd _ _ _ => c.launchHead n 0
    | .fillDrain _ _ => c.launchHead n 0
    | .impRun _ p =>
      match tget none (c.ctx n).handles p.handle.toNat with
      | some img => (c.plainRun n p.start).startStreams n img p.wEntry p.eEntry p.start 0 []
      | none => c
    | .modelLoad h p _ =>
      if p.srcPeer then b.askPeer n p.peer p.addr p.bytes
      else Chip.bulk h (b.modelLoadRun n p (mread b.host p.addr.toNat p.bytes.toNat))
    | .impLoad h p image => Chip.bulk h (b.impLoadRun n p (if h.inln then image else mread b.host p.ha.toNat p.bytes.toNat))
    | .checkpoint h ha avail => Chip.bulk h (b.checkpointRun n ha avail)
    | .ckptLoad h p _ =>
      if p.srcPeer then b.askPeer n p.peer p.addr p.bytes
      else Chip.bulk h (b.ckptLoadRun n p.bytes (mread b.host p.addr.toNat p.bytes.toNat))
    | .reprint h va => Chip.bulk h (b.reprintRun n va)
    | .serve _ p => b.modServing (fun v => { v with decMax := p.decMax, chunk := p.chunk, pfMax := p.pfMax })
    | _ => c

/-- EXECUTE_QUEUE_START: the head starts, with sprint when eligible; the context's slice begins with its first start. -/
def execExecuteQueueStart (ctx : Nat) (s : State) : Host.Outcome State Fault Refusal :=
  s.run (fun c =>
    if !c.canStart ctx then c else
    match (c.ctx ctx).execQ with
    | [] => c
    | x :: _ =>
      let q := (c.ctx ctx).part
      let now := c.now
      let c := (c.trySprint.setStream .w q none).setStream .e q none
      let c := c.modCtx ctx (fun k => { k with sliceStart := some (k.sliceStart.getD now) })
      c.startCmd ctx x.cmd)

/-- How the run at the head of a context's queue has ended; none while it runs (R123, R217, R252, R346). -/
def Chip.ended (c : Chip) (n : Nat) : Option EndStatus :=
  let x := c.ctx n
  match x.run, x.execQ with
  | some r, y :: _ =>
    if !c.streamsEnded n then none else
    match r.finish with
    | some e => some e
    | none =>
      let status := stepStatus x.train r.removed
      let detail : W32 := if 0x0301 ≤ status ∧ status ≤ 0x0304 then BitVec.ofNat 32 x.train.firstPset.toNat else 0
      let done : EndStatus := { status := status, detail := detail, value := lossValue c.lossSum }
      match y.cmd with
      | .impRun _ _ => some { status := 0 }
      | .stepCmd _ _ _ => if r.pastCommit then some done else none
      | .fillDrain _ p => if r.pastCommit && decide (2 * p.m.toNat ≤ r.index + 1) then some done else none
      | _ => none
  | _, _ => none

/-- COMMAND_COMPLETE: the record is posted, the command leaves the queue and its kill count with it; a held kill comes
first unless the commit point is past.
DEDUCED: log entry 18. -/
def Chip.complete (c : Chip) (n : Nat) : Chip :=
  let x := c.ctx n
  let q := x.part
  match c.ended n, x.run, x.execQ with
  | some e, some r, y :: t =>
    if r.heldKill.isSome && (!r.pastCommit || decide (x.st = .tearing)) then c
    else if e.status = 0x0701 then (c.teardown n e).settlePart q
    else
      let c := c.postEnd (cmdHdr y.cmd) e
      (c.modCtx n (fun k => { k with run := none, held := false, execQ := t, st := if t.isEmpty then .idle else k.st })).settlePart q
  | _, _, _ => c

def execCommandComplete (ctx : Nat) (s : State) : Host.Outcome State Fault Refusal := s.run (fun c => c.complete ctx)

end Sys2Proof.Machine
end

