-- ==== Sys2Proof/Machine/Spawn.lean ====
section
/-!
DEFINITION. SPAWN: threads and their bindings, and the built-in programs of the mask ROM (R159 to R163, R170).
-/
namespace Sys2Proof.Machine

/-! ### Threads of a spawn -/

/-- Compositors of a target: LOC and number (R163). -/
def targetSize (t : Nat) : Nat := if t = 0 then 256 else 16

/-- Contexts of a compositor. -/
def threadContexts : Nat := 4096

/-- The lowest free context of a compositor on which no thread waits before. -/
def DieSt.freeContext (m : DieSt) (loc comp : Nat) : Option Nat :=
  if !(tget [] m.spawns (loc * 256 + comp)).isEmpty then none else
  (List.range threadContexts).find? (fun k => (tget none m.threads (loc * 2 ^ 21 + comp * 2 ^ 12 + k)).isNone)

/-- A thread starts on its compositor, or waits there for a context. -/
def Chip.placeThread (c : Chip) (d : Die) (loc comp : Nat) (t : Thread) : Chip :=
  match (c.die d).freeContext loc comp with
  | some k => c.setThread { die := d, loc := loc, comp := comp, ctx := k } (some t)
  | none => c.modDie d (fun m => { m with spawns := tmod [] m.spawns (loc * 256 + comp) (· ++ [t]) })

/-! ### Built-in programs (Table 7.4); arithmetic as R165, every operation rounded once -/

def v1 (f : W32 → FlW32) (a : W32) : W32 := (f a).1
def v2 (f : W32 → W32 → FlW32) (a b : W32) : W32 := (f a b).1
/-- The FP32 value nearest a decimal number of millionths. -/
def micro (n : Nat) : W32 := (quotF32 ⟨false, n, 1000000, 0⟩).1
def two32 : W32 := 0x40000000
def half32 : W32 := 0x3F000000
def unit32 : W32 := 0x3F800000

/-- σ(x) = 1 ÷ (1 + e^-x). -/
def sigmoid (x : W32) : W32 := v2 fdiv32 unit32 (v2 fadd32 unit32 (v1 fexp32 (fneg32 x)))

def actSilu (x : W32) : W32 := v2 fmul32 x (sigmoid x)

/-- tanh(u) = 1 - 2 ÷ (e^(2u) + 1). -/
def tanhOf (u : W32) : W32 := v2 fsub32 unit32 (v2 fdiv32 two32 (v2 fadd32 (v1 fexp32 (v2 fmul32 two32 u)) unit32))

def actGelu (x : W32) : W32 :=
  let cube := v2 fmul32 (v2 fmul32 x x) x
  let u := v2 fadd32 (v2 fmul32 (micro 797885) x) (v2 fmul32 (micro 35677) cube)
  v2 fmul32 (v2 fmul32 half32 x) (v2 fadd32 unit32 (tanhOf u))

/-- Gate values of a record's entries in ascending expert index, by rule (R104, R170). -/
def gateValues (rule : Nat) (r : SelRecord) : List W32 :=
  let es := sortBy (fun a b => decide (a.2.toNat < b.2.toNat)) r.entries
  let ss := es.map (·.1)
  let m := ss.foldl (fun a s => v2 fmax32 a s) (ss.headD 0)
  let sum (l : List W32) : W32 := l.foldl (fun a s => v2 fadd32 a s) 0
  match rule with
  | 0 =>
    let e := ss.map (fun s => v1 fexp32 (v2 fsub32 s m))
    e.map (fun x => v2 fdiv32 x (sum e))
  | 1 => ss.map (fun s => v1 fexp32 (v2 fsub32 s r.lse))
  | 2 =>
    let e := ss.map sigmoid
    e.map (fun x => v2 fdiv32 x (sum e))
  | _ => ss

/-- One row of RMSNORM. -/
def rmsRow (eps : W32) (xs gs : List W32) : List W32 :=
  let n : W32 := (toF32 .near (.fin (Dy.ofInt xs.length))).1
  let ss := xs.foldl (fun a x => v2 fadd32 a (v2 fmul32 x x)) 0
  let r := v1 frsq32 (v2 fadd32 (v2 fdiv32 ss n) eps)
  (xs.zip gs).map (fun p => v2 fmul32 (v2 fmul32 p.1 p.2) r)

/-- An element group's size in a descriptor (R163). -/
def Desc.bindGroup (g : Desc) : Nat := if g.scaled then g.group else 32

/-- All elements of a tensor as FP32, in element order. -/
def Tensor.fps (t : Tensor) : List W32 :=
  (List.range t.g.ext1).flatMap (fun j => (List.range t.g.ext0).map (fun i => (t.fp i j).1))

/-- The elements `lo` to `lo + n` of outer row `j` as a tensor of one row. -/
def Desc.slice (g : Desc) (j lo n : Nat) : Desc :=
  { g with addr := g.addr + g.bitOff (fmtWidth g.fmt) lo j / 8, saddr := g.saddr + g.scaleOff lo j, ext0 := n, ext1 := 1 }

/-- Elements `s` to `e` of a tensor in element order, cut at its rows: row, first element, number. -/
def Desc.span (g : Desc) (s e : Nat) : List (Nat × Nat × Nat) :=
  let w := max 1 g.ext0
  (List.range (ceilDiv e w - s / w)).filterMap (fun k =>
    let j := s / w + k
    let lo := max s (j * w)
    let hi := min e ((j + 1) * w)
    if lo < hi then some (j, lo - j * w, hi - lo) else none)

/-- Programs whose threads take a row each; the others take an element group each (Table 7.4). -/
def romRows (prog : Nat) : Bool := decide (prog ≤ 0xF003) || decide (prog = 0xF030)

/-- The elements of a thread's input. -/
def romSpan (prog : Nat) (g : Desc) (i : Nat) : List (Nat × Nat × Nat) :=
  if romRows prog then [(i, 0, g.ext0)] else g.span (i * g.bindGroup) (min ((i + 1) * g.bindGroup) (g.ext0 * g.ext1))

/-- A stack compositor reaches only pages placed on its own stack (Table 7.3). -/
def Chip.romReach (c : Chip) (u : UnitRef) (target : Nat) (g : Desc) : Bool :=
  decide (target = 0) || decide (g.space ≠ 0) ||
  ((g.runs ++ g.scaleRuns).all (fun r => c.ownStack (c.ctxOf u.die u.part) (u.die.num * 4 + (target - 1)) r.1 r.2))

/-- Read a tensor for a thread of a target. -/
def Chip.romRead (c : Chip) (u : UnitRef) (target : Nat) (g : Desc) : Chip × Except AccFault Tensor :=
  if c.romReach u target g then c.readTensor u g else (c, .error (af g.addr))

/-- Read the parts of a tensor one after another. -/
def Chip.romParts (c : Chip) (u : UnitRef) (target : Nat) (g : Desc) : List (Nat × Nat × Nat) → List Tensor → Chip × Except AccFault (List Tensor)
  | [], acc => (c, .ok acc)
  | s :: t, acc =>
    let r := c.romRead u target (g.slice s.1 s.2.1 s.2.2)
    match r.2 with
    | .error f => (r.1, .error f)
    | .ok x => r.1.romParts u target g t (acc ++ [x])

/-- The values a thread of a built-in program forms from the parts of its input. -/
def romValues (prog : Nat) (xs : List Tensor) (gamma : List W32) (eps : W32) : List W32 :=
  let fs := xs.flatMap Tensor.fps
  match prog with
  | 0xF010 => fs.map actSilu
  | 0xF011 => fs.map actGelu
  | 0xF020 => fs
  | 0xF030 => rmsRow eps fs gamma
  | p => gateValues (p - 0xF000) (recordOf (xs.flatMap (fun x => x.rows.flatten)))

/-- The values of the threads 0 to count - 1 in order; a fault names its thread and descriptor. -/
def Chip.romThreads (c : Chip) (u : UnitRef) (prog target : Nat) (ds : List Desc) (eps : W32) : List Nat → List (List W32) →
    Chip × Except (Nat × Nat × AccFault) (List (List W32))
  | [], acc => (c, .ok acc)
  | i :: t, acc =>
    let g := ds.getD 0 default
    let x := c.romParts u target g (romSpan prog g i) []
    match x.2 with
    | .error f => (x.1, .error (i, 0, f))
    | .ok xs =>
      let y : Chip × Except AccFault (List W32) :=
        if prog = 0xF030 then
          let r := x.1.romRead u target (ds.getD 1 default)
          (r.1, match r.2 with | .ok z => .ok z.fps | .error f => .error f)
        else (x.1, .ok [])
      match y.2 with
      | .error f => (y.1, .error (i, 1, f))
      | .ok gamma => y.1.romThreads u prog target ds eps t (acc ++ [romValues prog xs gamma eps])

/-- Write a row of values at an output, converted to its format with dynamic scales; a scaled row that is no whole number of groups is
out of range (R43). -/
def Chip.romRow (c : Chip) (u : UnitRef) (target : Nat) (g : Desc) (j : Nat) (vs : List W32) : Chip × Option AccFault :=
  if (g.scaled ∧ g.ext0 % g.group ≠ 0) ∨ !c.romReach u target (g.slice j 0 vs.length) then (c, some (af g.addr)) else
  let r := convRow g none (List.replicate vs.length .near) vs
  let w := c.writeRow u g j r.codes
  match w.2 with
  | some f => (w.1, some f)
  | none => if r.scs.isEmpty then (w.1, none) else w.1.writeScales u g j r.scs

/-- Write the values row by row, the output's rows with the threads they come from; the first row that fails names its thread. -/
def Chip.romWrite (c : Chip) (u : UnitRef) (target : Nat) (g : Desc) : Nat → List (Nat × List W32) → Chip × Option (Nat × AccFault)
  | _, [] => (c, none)
  | j, (i, vs) :: t =>
    let r := c.romRow u target g j vs
    match r.2 with
    | some f => (r.1, some (i, f))
    | none => r.1.romWrite u target g (j + 1) t

/-- The rows of an output: one a thread, or the values of the threads in element order. -/
def romOut (prog group : Nat) (g : Desc) (vs : List (List W32)) : List (Nat × List W32) :=
  if romRows prog then vs.zipIdx.map (fun x => (x.2, x.1))
  else (chunks (max 1 g.ext0) vs.flatten).zipIdx.map (fun x => (x.2 * g.ext0 / max 1 group, x.1))

/-- A fault of thread `i` of a built-in program (R171). Its compositor follows from its number; the context and the instruction it
stood at are not stated: the context of threads that start in ascending order, and a free offset.
DEDUCED: log entry 37. -/
def Chip.romFault (c : Chip) (u : UnitRef) (prog i desc : Nat) (target : Nat) (f : AccFault) : Chip :=
  let n := targetSize target
  let w := c.freeWord
  let t : Thread := { part := u.part, spawn := u.pos - 118, tid := i, prog := BitVec.ofNat 16 prog, pc := w.1.toNat % 2 ^ 16 }
  (w.2.compFault { die := u.die, loc := target, comp := i % n, ctx := i / n % threadContexts } t 2).opFault u desc f

/-- A built-in program under another binding than Table 7.4 states: what it leaves in its output is not stated, free bytes.
DEDUCED: log entry 37. -/
def Chip.romUnbound (c : Chip) (u : UnitRef) (o : Op) : Chip :=
  (o.outs.foldl (fun c x => c.scrambleOut (c.ctxOf u.die u.part) u.die u.pos x) c).opDone u 0

/-- A built-in program does its threads' work: descriptor 0 the input, the last one the output, RMSNORM's descriptor 1 its
factors.
DEDUCED: log entry 37. -/
def Chip.romRun (c : Chip) (u : UnitRef) (o : Op) (ds : List Desc) : Chip :=
  let v := o.e.slot.toNat
  let prog := spProg v
  let target := spTarget v
  if spBind v ≠ (if romRows prog then 1 else 0) then c.romUnbound u o else
  let oi := if prog = 0xF030 then 2 else 1
  let e := c.freeWord
  let c := if prog = 0xF030 then e.2 else c
  let r := c.romThreads u prog target ds (e.1.extractLsb' 0 32) (List.range (spCount v)) []
  match r.2 with
  | .error (i, d, f) => r.1.romFault u prog i d target f
  | .ok vs =>
    let g := ds.getD oi default
    let w := r.1.romWrite u target g 0 (romOut prog (ds.getD 0 default).bindGroup g vs)
    match w.2 with
    | some (i, f) => w.1.romFault u prog i oi target f
    | none => w.1.opDone u 0

/-! ### SPAWN -/

/-- Bound values of a spawn's threads (R163). -/
def bindValues (bind count : Nat) (g : Desc) (words : List Byte) : List W64 :=
  (List.range count).map (fun i =>
    match bind with
    | 0 => BitVec.ofNat 64 (i * g.bindGroup)
    | 1 => BitVec.ofNat 64 i
    | _ => BitVec.ofNat 64 (leNat ((words.drop (4 * i)).take 4)))

/-- The words of a stream binding, or the fault of reading them. -/
def Chip.bindWords (c : Chip) (u : UnitRef) (v : Nat) (g : Desc) : Chip × Except AccFault (List Byte) :=
  if spBind v = 2 then
    let t := c.readTensor u g
    (t.1, match t.2 with | .ok x => .ok x.rows.flatten | .error f => .error f)
  else (c, .ok [])

/-- Start the spawn in progress of a spawn slot. -/
def Chip.spawn (c : Chip) (u : UnitRef) : Chip :=
  match c.stream u.die u.part with
  | none => c
  | some s => c.work u (fun o => decide (slotClass u.pos = .spawn) && decide (o.e.opc = 1) && decide (o.left = 0)) (fun c o =>
    let v := o.e.slot.toNat
    let ds := (viewList (o.descs.getD []) o.wides).map (fun g => if spTarget v = 0 then g else g.inStack (spTarget v))
    let g := ds.getD 0 default
    if romProg (spProg v) then c.romRun u o ds else
    let b := c.bindWords u v g
    match b.2 with
    | .error f => b.1.opFault u 0 f
    | .ok ws =>
      let p := tget {} s.image.progs (spProg v)
      let loc := spTarget v
      let n := targetSize loc
      let c := (bindValues (spBind v) (spCount v) g ws).zipIdx.foldl (fun (c : Chip) x =>
        let t : Thread :=
          { part := u.part, spawn := u.pos - 118, tid := x.2, bval := x.1, count := spCount v, tag := BitVec.ofNat 16 o.e.tag,
            step := o.step, prog := BitVec.ofNat 16 (spProg v), progVa := p.va, progLen := p.len }
        c.placeThread u.die loc (x.2 % n) t) b.1
      c.modOp u (fun o => { o with left := spCount v, busy := true, waiting := false }))

def execSpawn (u : UnitRef) (s : State) : Host.Outcome State Fault Refusal := s.run (fun c => c.spawn u)

end Sys2Proof.Machine
end

