-- ==== Sys2Proof/Machine/Dispatch.lean ====
section
/-!
DEFINITION. The dispatch: one arm per command.
-/
namespace Sys2Proof.Machine

/-- A command carried out on the block, its queue being the rest of the queue. -/
def exec (i : Instr) (s : State) : Host.Outcome State Fault Refusal :=
  match i with
  | .capQuery h ha => Sys2Proof.Machine.execCapQuery h ha s
  | .levelSet h level => Sys2Proof.Machine.execLevelSet h level s
  | .nopCmd h => Sys2Proof.Machine.execNopCmd h s
  | .ctxCreate h p => Sys2Proof.Machine.execCtxCreate h p s
  | .ctxDestroy h => Sys2Proof.Machine.execCtxDestroy h s
  | .ctxQuery h ha => Sys2Proof.Machine.execCtxQuery h ha s
  | .ctxMove h part latency => Sys2Proof.Machine.execCtxMove h part latency s
  | .vfBind h vf => Sys2Proof.Machine.execVfBind h vf s
  | .oringSet h p => Sys2Proof.Machine.execOringSet h p s
  | .mapPages h va pages a => Sys2Proof.Machine.execMapPages h va pages a s
  | .unmapPages h va pages => Sys2Proof.Machine.execUnmapPages h va pages s
  | .grantModel h model grantee va => Sys2Proof.Machine.execGrantModel h model grantee va s
  | .modelLoad h p image => Sys2Proof.Machine.execModelLoad h p image s
  | .modelPin h model pin => Sys2Proof.Machine.execModelPin h model pin s
  | .modelEvict h model => Sys2Proof.Machine.execModelEvict h model s
  | .impLoad h p image => Sys2Proof.Machine.execImpLoad h p image s
  | .impRun h p => Sys2Proof.Machine.execImpRun h p s
  | .stepCmd h p step => Sys2Proof.Machine.execStepCmd h p step s
  | .commitCmd h step => Sys2Proof.Machine.execCommitCmd h step s
  | .abortCmd h step => Sys2Proof.Machine.execAbortCmd h step s
  | .fillDrain h p => Sys2Proof.Machine.execFillDrain h p s
  | .ocfgSet h entry e => Sys2Proof.Machine.execOcfgSet h entry e s
  | .lsSet h e interval => Sys2Proof.Machine.execLsSet h e interval s
  | .gmodeSet h p => Sys2Proof.Machine.execGmodeSet h p s
  | .replicaSet h p => Sys2Proof.Machine.execReplicaSet h p s
  | .proofArm h p => Sys2Proof.Machine.execProofArm h p s
  | .checkpoint h ha avail => Sys2Proof.Machine.execCheckpoint h ha avail s
  | .ckptLoad h p image => Sys2Proof.Machine.execCkptLoad h p image s
  | .captureArm h p => Sys2Proof.Machine.execCaptureArm h p s
  | .reprint h areaVa => Sys2Proof.Machine.execReprint h areaVa s
  | .proofRecv h p => Sys2Proof.Machine.execProofRecv h p s
  | .streamOpen h p => Sys2Proof.Machine.execStreamOpen h p s
  | .streamClose h stream => Sys2Proof.Machine.execStreamClose h stream s
  | .streamPark h stream => Sys2Proof.Machine.execStreamPark h stream s
  | .streamUnpark h stream => Sys2Proof.Machine.execStreamUnpark h stream s
  | .streamQuery h stream ha => Sys2Proof.Machine.execStreamQuery h stream ha s
  | .stopsetSet h index va data => Sys2Proof.Machine.execStopsetSet h index va data s
  | .serve h p => Sys2Proof.Machine.execServe h p s
  | .partSet h p => Sys2Proof.Machine.execPartSet h p s
  | .preempt h => Sys2Proof.Machine.execPreempt h s
  | .lockAcquire h lock => Sys2Proof.Machine.execLockAcquire h lock s
  | .lockRelease h lock => Sys2Proof.Machine.execLockRelease h lock s
  | .domainSet h p => Sys2Proof.Machine.execDomainSet h p s
  | .overlayApply h ovl ha image => Sys2Proof.Machine.execOverlayApply h ovl ha image s
  | .powerLimit h watts sprint => Sys2Proof.Machine.execPowerLimit h watts sprint s
  | .telemetryRead h p => Sys2Proof.Machine.execTelemetryRead h p s
  | .debugUnlock h phase ha resp => Sys2Proof.Machine.execDebugUnlock h phase ha resp s
  | .doorbell fn ctx ring tail stores => Sys2Proof.Machine.execDoorbell fn ctx ring tail stores s
  | .ringEnable fn ctx ring value => Sys2Proof.Machine.execRingEnable fn ctx ring value s
  | .packetTake ctx => Sys2Proof.Machine.execPacketTake ctx s
  | .cplHeadWrite fn ctx ring head => Sys2Proof.Machine.execCplHeadWrite fn ctx ring head s
  | .oringHeadWrite fn ctx ring head => Sys2Proof.Machine.execOringHeadWrite fn ctx ring head s
  | .commandComplete ctx => Sys2Proof.Machine.execCommandComplete ctx s
  | .fenceRelease ctx ring => Sys2Proof.Machine.execFenceRelease ctx ring s
  | .executeQueueStart ctx => Sys2Proof.Machine.execExecuteQueueStart ctx s
  | .beatBoundary die => Sys2Proof.Machine.execBeatBoundary die s
  | .sheetFetch die part block => Sys2Proof.Machine.execSheetFetch die part block s
  | .ctrlNop c => Sys2Proof.Machine.execCtrlNop c s
  | .wait c sem half count timeout => Sys2Proof.Machine.execWait c sem half count timeout s
  | .waitTimeout die part => Sys2Proof.Machine.execWaitTimeout die part s
  | .waitu c classes => Sys2Proof.Machine.execWaitu c classes s
  | .ldcnt c cnt value => Sys2Proof.Machine.execLdcnt c cnt value s
  | .loop c cnt target => Sys2Proof.Machine.execLoop c cnt target s
  | .jump c target => Sys2Proof.Machine.execJump c target s
  | .rwait c time => Sys2Proof.Machine.execRwait c time s
  | .widen c tag region => Sys2Proof.Machine.execWiden c tag region s
  | .signal c sem half xdie count => Sys2Proof.Machine.execSignal c sem half xdie count s
  | .ctrlStep c add value => Sys2Proof.Machine.execCtrlStep c add value s
  | .ctrlCommit c => Sys2Proof.Machine.execCtrlCommit c s
  | .halt c => Sys2Proof.Machine.execHalt c s
  | .ctrlTrap c code => Sys2Proof.Machine.execCtrlTrap c code s
  | .slotNop u => Sys2Proof.Machine.execSlotNop u s
  | .platenTile u => Sys2Proof.Machine.execPlatenTile u s
  | .rbclr u => Sys2Proof.Machine.execRbclr u s
  | .thatchTile u => Sys2Proof.Machine.execThatchTile u s
  | .select u => Sys2Proof.Machine.execSelect u s
  | .update u => Sys2Proof.Machine.execUpdate u s
  | .gutOpen u => Sys2Proof.Machine.execGutOpen u s
  | .gutRelease u => Sys2Proof.Machine.execGutRelease u s
  | .reduce u peers => Sys2Proof.Machine.execReduce u peers s
  | .rscat u peers => Sys2Proof.Machine.execRscat u peers s
  | .gather u peers => Sys2Proof.Machine.execGather u peers s
  | .a2a u peers => Sys2Proof.Machine.execA2a u peers s
  | .smerge u peers => Sys2Proof.Machine.execSmerge u peers s
  | .bcast u peers => Sys2Proof.Machine.execBcast u peers s
  | .norm u peers => Sys2Proof.Machine.execNorm u peers s
  | .spawn u => Sys2Proof.Machine.execSpawn u s
  | .opCompletion u => Sys2Proof.Machine.execOpCompletion u s
  | .thatchCompletionRecord u => Sys2Proof.Machine.execThatchCompletionRecord u s
  | .crossDieSignal die => Sys2Proof.Machine.execCrossDieSignal die s
  | .streamTrap u cause code => Sys2Proof.Machine.execStreamTrap u cause code s
  | .trapArrival die part => Sys2Proof.Machine.execTrapArrival die part s
  | .streamHalted die part => Sys2Proof.Machine.execStreamHalted die part s
  | .listFetch u => Sys2Proof.Machine.execListFetch u s
  | .linkTake u desc => Sys2Proof.Machine.execLinkTake u desc s
  | .cacheFill die line => Sys2Proof.Machine.execCacheFill die line s
  | .invalidateSnoop line => Sys2Proof.Machine.execInvalidateSnoop line s
  | .evictionNotice die line => Sys2Proof.Machine.execEvictionNotice die line s
  | .midStreamFault u kind desc addr => Sys2Proof.Machine.execMidStreamFault u kind desc addr s
  | .waitGraphCheck waits => Sys2Proof.Machine.execWaitGraphCheck waits s
  | .add t d a b => Sys2Proof.Machine.execAdd t d a b s
  | .sub t d a b => Sys2Proof.Machine.execSub t d a b s
  | .mul t d a b => Sys2Proof.Machine.execMul t d a b s
  | .divu t d a b => Sys2Proof.Machine.execDivu t d a b s
  | .and t d a b => Sys2Proof.Machine.execAnd t d a b s
  | .or t d a b => Sys2Proof.Machine.execOr t d a b s
  | .xor t d a b => Sys2Proof.Machine.execXor t d a b s
  | .shl t d a b => Sys2Proof.Machine.execShl t d a b s
  | .shr t d a b => Sys2Proof.Machine.execShr t d a b s
  | .sar t d a b => Sys2Proof.Machine.execSar t d a b s
  | .slt t d a b => Sys2Proof.Machine.execSlt t d a b s
  | .sltu t d a b => Sys2Proof.Machine.execSltu t d a b s
  | .addi t d a imm => Sys2Proof.Machine.execAddi t d a imm s
  | .li t d imm => Sys2Proof.Machine.execLi t d imm s
  | .lih t d a imm => Sys2Proof.Machine.execLih t d a imm s
  | .fadd t d a b => Sys2Proof.Machine.execFadd t d a b s
  | .fsub t d a b => Sys2Proof.Machine.execFsub t d a b s
  | .fmul t d a b => Sys2Proof.Machine.execFmul t d a b s
  | .fdiv t d a b => Sys2Proof.Machine.execFdiv t d a b s
  | .fmax t d a b => Sys2Proof.Machine.execFmax t d a b s
  | .fmin t d a b => Sys2Proof.Machine.execFmin t d a b s
  | .famax2 t d a => Sys2Proof.Machine.execFamax2 t d a s
  | .fexp t d a => Sys2Proof.Machine.execFexp t d a s
  | .flog t d a => Sys2Proof.Machine.execFlog t d a s
  | .frsq t d a => Sys2Proof.Machine.execFrsq t d a s
  | .fslt t d a b => Sys2Proof.Machine.execFslt t d a b s
  | .i2f t d a => Sys2Proof.Machine.execI2f t d a s
  | .f2i t d a => Sys2Proof.Machine.execF2i t d a s
  | .cvt2 t d a b fmt rnd => Sys2Proof.Machine.execCvt2 t d a b fmt rnd s
  | .exp2 t d a b fmt => Sys2Proof.Machine.execExp2 t d a b fmt s
  | .tobf t d a rnd => Sys2Proof.Machine.execTobf t d a rnd s
  | .frombf t d a => Sys2Proof.Machine.execFrombf t d a s
  | .ld64 t d a imm => Sys2Proof.Machine.execLd64 t d a imm s
  | .st64 t a b imm => Sys2Proof.Machine.execSt64 t a b imm s
  | .ld32 t d a imm => Sys2Proof.Machine.execLd32 t d a imm s
  | .st32 t a b imm => Sys2Proof.Machine.execSt32 t a b imm s
  | .ld8 t d a imm => Sys2Proof.Machine.execLd8 t d a imm s
  | .st8 t a b imm => Sys2Proof.Machine.execSt8 t a b imm s
  | .aadd t d a b => Sys2Proof.Machine.execAadd t d a b s
  | .acas t d a b => Sys2Proof.Machine.execAcas t d a b s
  | .fence t => Sys2Proof.Machine.execFence t s
  | .arg t d desc word => Sys2Proof.Machine.execArg t d desc word s
  | .spr t d index => Sys2Proof.Machine.execSpr t d index s
  | .ssig t a b half xdie => Sys2Proof.Machine.execSsig t a b half xdie s
  | .stake t a b half xdie => Sys2Proof.Machine.execStake t a b half xdie s
  | .rseed t a b => Sys2Proof.Machine.execRseed t a b s
  | .rnext t d => Sys2Proof.Machine.execRnext t d s
  | .beq t a b imm => Sys2Proof.Machine.execBeq t a b imm s
  | .bne t a b imm => Sys2Proof.Machine.execBne t a b imm s
  | .blt t a b imm => Sys2Proof.Machine.execBlt t a b imm s
  | .jmp t imm => Sys2Proof.Machine.execJmp t imm s
  | .jr t a => Sys2Proof.Machine.execJr t a s
  | .exit t => Sys2Proof.Machine.execExit t s
  | .compTrap t imm => Sys2Proof.Machine.execCompTrap t imm s
  | .threadWake t => Sys2Proof.Machine.execThreadWake t s
  | .instructionFault t => Sys2Proof.Machine.execInstructionFault t s
  | .stackSelection stack unit => Sys2Proof.Machine.execStackSelection stack unit s
  | .gutterRecordArrival die source => Sys2Proof.Machine.execGutterRecordArrival die source s
  | .clipFactorReady u => Sys2Proof.Machine.execClipFactorReady u s
  | .commitPoint ctx => Sys2Proof.Machine.execCommitPoint ctx s
  | .voteReceived ctx votes => Sys2Proof.Machine.execVoteReceived ctx votes s
  | .voteTimeout ctx => Sys2Proof.Machine.execVoteTimeout ctx s
  | .collectiveTimeout die part => Sys2Proof.Machine.execCollectiveTimeout die part s
  | .collectiveAbortReceived die part peer status => Sys2Proof.Machine.execCollectiveAbortReceived die part peer status s
  | .a2aRoundResume u => Sys2Proof.Machine.execA2aRoundResume u s
  | .portDown port => Sys2Proof.Machine.execPortDown port s
  | .portPlug port neighbour nport epoch => Sys2Proof.Machine.execPortPlug port neighbour nport epoch s
  | .laneRetrain port => Sys2Proof.Machine.execLaneRetrain port s
  | .referenceLoss => Sys2Proof.Machine.execReferenceLoss s
  | .referenceReturn phaseErr stepNs => Sys2Proof.Machine.execReferenceReturn phaseErr stepNs s
  | .ridgeUpstreamSwitch => Sys2Proof.Machine.execRidgeUpstreamSwitch s
  | .ridgeNowRead fn => Sys2Proof.Machine.execRidgeNowRead fn s
  | .gutLossSumRead fn die => Sys2Proof.Machine.execGutLossSumRead fn die s
  | .registerReadClear fn bar off size => Sys2Proof.Machine.execRegisterReadClear fn bar off size s
  | .registerWrite fn bar off size value => Sys2Proof.Machine.execRegisterWrite fn bar off size value s
  | .trafficWindow stack channels interleaved => Sys2Proof.Machine.execTrafficWindow stack channels interleaved s
  | .pageMigration stack samples => Sys2Proof.Machine.execPageMigration stack samples s
  | .migrationSwitch stack => Sys2Proof.Machine.execMigrationSwitch stack s
  | .migrationFree stack => Sys2Proof.Machine.execMigrationFree stack s
  | .frequencyControl die watts hotspot currentLimit => Sys2Proof.Machine.execFrequencyControl die watts hotspot currentLimit s
  | .sprintEnd => Sys2Proof.Machine.execSprintEnd s
  | .gatingPeriod stack temp => Sys2Proof.Machine.execGatingPeriod stack temp s
  | .thermalTrip => Sys2Proof.Machine.execThermalTrip s
  | .droopCorrection die platen => Sys2Proof.Machine.execDroopCorrection die platen s
  | .droopRelax die platen => Sys2Proof.Machine.execDroopRelax die platen s
  | .emergencyHold die platen => Sys2Proof.Machine.execEmergencyHold die platen s
  | .clipAdaptWindow ctx die tag => Sys2Proof.Machine.execClipAdaptWindow ctx die tag s
  | .serveStepLaunch ctx => Sys2Proof.Machine.execServeStepLaunch ctx s
  | .stopDetection ctx durationNs => Sys2Proof.Machine.execStopDetection ctx durationNs s
  | .parkComplete die => Sys2Proof.Machine.execParkComplete die s
  | .unparkComplete die => Sys2Proof.Machine.execUnparkComplete die s
  | .proofShipmentDone ctx => Sys2Proof.Machine.execProofShipmentDone ctx s
  | .proofReceive source ctx image => Sys2Proof.Machine.execProofReceive source ctx image s
  | .proofRefused ctx => Sys2Proof.Machine.execProofRefused ctx s
  | .schedulerChoice part => Sys2Proof.Machine.execSchedulerChoice part s
  | .sliceExpiry part => Sys2Proof.Machine.execSliceExpiry part s
  | .classKill part => Sys2Proof.Machine.execClassKill part s
  | .kill ctx status => Sys2Proof.Machine.execKill ctx status s
  | .killHeldRelease ctx => Sys2Proof.Machine.execKillHeldRelease ctx s
  | .contextSwitch part => Sys2Proof.Machine.execContextSwitch part s
  | .storeZeroing part => Sys2Proof.Machine.execStoreZeroing part s
  | .contextTeardown ctx status => Sys2Proof.Machine.execContextTeardown ctx status s
  | .pageFirstWrite ctx va => Sys2Proof.Machine.execPageFirstWrite ctx va s
  | .bar4Access fn off data len => Sys2Proof.Machine.execBar4Access fn off data len s
  | .functionLevelReset fn => Sys2Proof.Machine.execFunctionLevelReset fn s
  | .perstAssert => Sys2Proof.Machine.execPerstAssert s
  | .linkTraining => Sys2Proof.Machine.execLinkTraining s
  | .powerInputRise => Sys2Proof.Machine.execPowerInputRise s
  | .inputBrownout => Sys2Proof.Machine.execInputBrownout s
  | .phaseTimeout => Sys2Proof.Machine.execPhaseTimeout s
  | .ident primW primE bootSrc => Sys2Proof.Machine.execIdent primW primE bootSrc s
  | .primaryElection exchanged => Sys2Proof.Machine.execPrimaryElection exchanged s
  | .dieLinkFailure => Sys2Proof.Machine.execDieLinkFailure s
  | .baseConfigLoad => Sys2Proof.Machine.execBaseConfigLoad s
  | .bootldFetch image => Sys2Proof.Machine.execBootldFetch image s
  | .selftest r => Sys2Proof.Machine.execSelftest r s
  | .ready => Sys2Proof.Machine.execReady s
  | .buttonShortPress => Sys2Proof.Machine.execButtonShortPress s
  | .locateExpiry => Sys2Proof.Machine.execLocateExpiry s
  | .quiesce => Sys2Proof.Machine.execQuiesce s
  | .quiesceEnd => Sys2Proof.Machine.execQuiesceEnd s
  | .forcedManagementReset => Sys2Proof.Machine.execForcedManagementReset s
  | .bypass tdi => Sys2Proof.Machine.execBypass tdi s
  | .idcode => Sys2Proof.Machine.execIdcode s
  | .samplePreload pins preload => Sys2Proof.Machine.execSamplePreload pins preload s
  | .extest => Sys2Proof.Machine.execExtest s
  | .dbgacc dr => Sys2Proof.Machine.execDbgacc dr s
  | .colprog image => Sys2Proof.Machine.execColprog image s
  | .dbgHalt die halt => Sys2Proof.Machine.execDbgHalt die halt s
  | .dbgStep die n => Sys2Proof.Machine.execDbgStep die n s
  | .compositorBreakpointHit t => Sys2Proof.Machine.execCompositorBreakpointHit t s
  | .dbgCresume die bp => Sys2Proof.Machine.execDbgCresume die bp s
  | .dbgMdataRd die => Sys2Proof.Machine.execDbgMdataRd die s
  | .dbgMdataWr die data => Sys2Proof.Machine.execDbgMdataWr die data s
  | .unlockChallenge => Sys2Proof.Machine.execUnlockChallenge s
  | .unlockResponse => Sys2Proof.Machine.execUnlockResponse s
  | .challengeLapse => Sys2Proof.Machine.execChallengeLapse s
  | .sidebandOffsetWrite off => Sys2Proof.Machine.execSidebandOffsetWrite off s
  | .sidebandRead len => Sys2Proof.Machine.execSidebandRead len s
  | .ridgeLockAcquired => Sys2Proof.Machine.execRidgeLockAcquired s
  | .droopSensorRecovery die platen => Sys2Proof.Machine.execDroopSensorRecovery die platen s
  | .neighbourEpochReport port neighbour nport epoch => Sys2Proof.Machine.execNeighbourEpochReport port neighbour nport epoch s
  | .peerReadRequest ctx va len => Sys2Proof.Machine.execPeerReadRequest ctx va len s

end Sys2Proof.Machine
end

