-- ==== Sys2Proof/Machine/PacketBytes.lean ====
section
/-!
DEFINITION. The other direction of Machine/Packet.lean: the bytes of the packet that carries a command, laid out by
Table 14.3 and Table 14.5, with every reserved bit zero.
-/
namespace Sys2Proof.Machine

/-- A packet (Table 14.3): LEVEL 1, VERSION 1, the flags, LEN in slots; the parameters from byte 32 on; zeros to the end of
its last slot. -/
def packetOf (op : Nat) (h : Hdr) (words : List Nat) (more : List Byte) : List Byte :=
  let body := words.flatMap (leBytes 8) ++ more
  let slots := ceilDiv body.length 32
  leBytes 1 op ++ leBytes 1 0x11 ++ leBytes 2 (b2n h.fence + 2 * b2n h.hold + 4 * b2n h.inln) ++ leBytes 4 h.ctx ++
  leBytes 4 h.seq.toNat ++ leBytes 2 (1 + slots) ++ leBytes 18 0 ++ body ++ List.replicate (32 * slots - body.length) 0

/-- The eight words of an optimiser configuration entry (Table 9.3). -/
def ocfgWords (e : Ocfg) : List Nat :=
  [e.rule.toNat + 2 ^ 4 * b2n e.nest + 2 ^ 5 * b2n e.bc + 2 ^ 6 * e.rnd.toNat + 2 ^ 8 * e.wfmt.toNat + 2 ^ 12 * e.wscl.toNat + 2 ^ 16 * b2n e.valid,
   e.lr.toNat + 2 ^ 32 * e.wd.toNat, e.b1.toNat + 2 ^ 32 * e.b2.toNat, e.eps.toNat + 2 ^ 32 * e.absurd.toNat, 0, 0, 0, 0]

/-- Words 0 to 7 of a stream (Table 11.1), the fields the command supplies. -/
def streamOpenWords (p : StreamOpenP) : List Nat :=
  [2 ^ 13 * p.postn.toNat + 2 ^ 17 * b2n p.latency + 2 ^ 18 * b2n p.switched + 2 ^ 19 * p.sclass.toNat + 2 ^ 32 * p.model.toNat +
     2 ^ 48 * p.fallback.toNat,
   p.deadline.toNat, 2 ^ 18 * p.maxLen.toNat + 2 ^ 35 * p.expect.toNat, p.btab.toNat + 2 ^ 48 * p.stopset.toNat, p.tokLog.toNat,
   p.cookie.toNat + 2 ^ 39 * p.prompt.toNat + 2 ^ 56 * p.outRing.toNat, 0, p.user.toNat + 2 ^ 63 * b2n p.stopReq]

/-- The eight words of PART_SET (Table 14.18). -/
def partSetWords (p : PartSetP) : List Nat :=
  [p.part.toNat, p.semBase.toNat + 2 ^ 6 * p.semCnt.toNat + 2 ^ 16 * p.tagBase.toNat + 2 ^ 22 * p.tagCnt.toNat, p.ptW.toNat, p.ptE.toNat,
   p.te.toNat, p.su.toNat + 2 ^ 32 * p.uu.toNat, p.share.toNat, 2 ^ 20 * p.killLimit.toNat + 2 ^ 24 * p.sliceMs.toNat]

/-- HANDLE, the entries and the start time (IMP_RUN, STEP). -/
def runWords (p : RunP) : List Nat := [p.handle.toNat, p.wEntry.toNat + 2 ^ 32 * p.eEntry.toNat, p.start.toNat]

/-- The packet of a command of Table 14.5; none for the other rows. -/
def packetBytes : Instr → Option (List Byte)
  | .capQuery h ha => some (packetOf 0x01 h [ha.toNat] [])
  | .levelSet h level => some (packetOf 0x02 h [level.toNat] [])
  | .nopCmd h => some (packetOf 0x03 h [] [])
  | .ctxCreate h p => some (packetOf 0x10 h
      [p.part.toNat + 2 ^ 8 * b2n p.latency + 2 ^ 9 * b2n p.rbwFault, p.seedLo.toNat, p.seedHi.toNat, p.spillHa.toNat, p.spillBytes.toNat,
       p.parkHa.toNat, p.parkBytes.toNat] [])
  | .ctxDestroy h => some (packetOf 0x11 h [] [])
  | .ctxQuery h ha => some (packetOf 0x12 h [ha.toNat] [])
  | .ctxMove h part latency => some (packetOf 0x13 h [part.toNat + 2 ^ 8 * b2n latency] [])
  | .vfBind h vf => some (packetOf 0x14 h [vf.toNat] [])
  | .oringSet h p => some (packetOf 0x15 h
      [p.ring.toNat + 2 ^ 8 * b2n p.kind + 2 ^ 16 * p.log2.toNat + 2 ^ 32 * p.vector.toNat, p.ha.toNat, p.wb.toNat] [])
  | .mapPages h va pages a => some (packetOf 0x18 h
      [va.toNat, pages.toNat, a.place.toNat + 2 ^ 4 * a.salt.toNat + 2 ^ 8 * b2n a.keysel + 2 ^ 9 * b2n a.pair + 2 ^ 10 * b2n a.ro +
         2 ^ 16 * a.pset.toNat] [])
  | .unmapPages h va pages => some (packetOf 0x19 h [va.toNat, pages.toNat] [])
  | .grantModel h model g va => some (packetOf 0x1A h [model.toNat + 2 ^ 16 * g.toNat, va.toNat] [])
  | .modelLoad h p _ => some (packetOf 0x20 h
      [p.model.toNat + 2 ^ 16 * b2n p.pin + 2 ^ 17 * b2n p.srcPeer + 2 ^ 18 * p.peer.toNat, p.addr.toNat, p.bytes.toNat, p.kvPages.toNat] [])
  | .modelPin h model pin => some (packetOf 0x21 h [model.toNat + 2 ^ 16 * b2n pin] [])
  | .modelEvict h model => some (packetOf 0x22 h [model.toNat] [])
  | .impLoad h p image => some (packetOf 0x28 h [p.handle.toNat, p.ha.toNat, p.bytes.toNat, p.va.toNat] image)
  | .impRun h p => some (packetOf 0x29 h (runWords p) [])
  | .stepCmd h p step => some (packetOf 0x30 h (runWords p ++ [step.toNat]) [])
  | .commitCmd h step => some (packetOf 0x31 h [step.toNat] [])
  | .abortCmd h step => some (packetOf 0x32 h [step.toNat] [])
  | .fillDrain h p => some (packetOf 0x33 h
      [p.handle.toNat + 2 ^ 16 * p.m.toNat, p.fwd.toNat + 2 ^ 32 * p.bwd.toNat, p.start.toNat, p.step.toNat] [])
  | .ocfgSet h entry e => some (packetOf 0x38 h (entry.toNat :: ocfgWords e) [])
  | .lsSet h e interval => some (packetOf 0x39 h [e.toNat + 2 ^ 16 * interval.toNat] [])
  | .gmodeSet h p => some (packetOf 0x3A h
      [p.nstart.toNat + 2 ^ 8 * p.latLimit.toNat + 2 ^ 16 * b2n p.noPerLayer + 2 ^ 32 * p.mib.toNat, p.maxNorm.toNat, p.normBase.toNat] [])
  | .replicaSet h p => some (packetOf 0x3B h
      [p.vgroup.toNat + 2 ^ 12 * p.shards.toNat + 2 ^ 24 * p.stragSteps.toNat, p.stragMs.toNat] [])
  | .proofArm h p => some (packetOf 0x40 h
      [p.n.toNat + 2 ^ 16 * b2n p.allArr + 2 ^ 17 * b2n p.destPeer + 2 ^ 18 * p.peer.toNat + 2 ^ 28 * p.peerCtx.toNat + 2 ^ 38 * p.evRing.toNat,
       p.addr.toNat, p.psetVa.toNat, p.psetCount.toNat] [])
  | .checkpoint h ha avail => some (packetOf 0x41 h [ha.toNat, avail.toNat] [])
  | .ckptLoad h p _ => some (packetOf 0x42 h [b2n p.srcPeer + 2 * p.peer.toNat, p.addr.toNat, p.bytes.toNat] [])
  | .captureArm h p => some (packetOf 0x43 h
      [p.step.toNat, p.tokVa.toNat, p.tokCount.toNat, p.areaVa.toNat, p.areaBytes.toNat, p.psetVa.toNat, p.psetCount.toNat] [])
  | .reprint h va => some (packetOf 0x44 h [va.toNat] [])
  | .proofRecv h p => some (packetOf 0x45 h [b2n p.destVa + 2 * p.source.toNat + 2 ^ 11 * p.evRing.toNat, p.addr.toNat, p.bytes.toNat] [])
  | .streamOpen h p => some (packetOf 0x48 h (streamOpenWords p) [])
  | .streamClose h k => some (packetOf 0x49 h [k.toNat] [])
  | .streamPark h k => some (packetOf 0x4A h [k.toNat] [])
  | .streamUnpark h k => some (packetOf 0x4B h [k.toNat] [])
  | .streamQuery h k ha => some (packetOf 0x4C h [k.toNat, ha.toNat] [])
  | .stopsetSet h index va data => some (packetOf 0x4D h [index.toNat, va.toNat] data)
  | .serve h p => some (packetOf 0x4E h
      [p.count.toNat + 2 ^ 32 * p.decMax.toNat + 2 ^ 44 * p.chunk.toNat, p.pfMax.toNat] [])
  | .partSet h p => some (packetOf 0x50 h (partSetWords p) [])
  | .preempt h => some (packetOf 0x51 h [] [])
  | .lockAcquire h lock => some (packetOf 0x52 h [lock.toNat] [])
  | .lockRelease h lock => some (packetOf 0x53 h [lock.toNat] [])
  | .domainSet h p => some (packetOf 0x58 h
      [p.moduleId.toNat + 2 ^ 12 * p.dx.toNat + 2 ^ 16 * p.dy.toNat + 2 ^ 20 * p.dz.toNat + 2 ^ 24 * p.epoch.toNat + 2 ^ 32 * p.root.toNat +
         2 ^ 42 * p.backup.toNat, p.src.toNat] [])
  | .overlayApply h ovl ha _ => some (packetOf 0x60 h [ovl.toNat, ha.toNat] [])
  | .powerLimit h watts sprint => some (packetOf 0x61 h [watts.toNat + 2 ^ 16 * b2n sprint] [])
  | .telemetryRead h p => some (packetOf 0x68 h
      [p.block.toNat + 2 ^ 8 * b2n p.clear + 2 ^ 9 * p.die.num + 2 ^ 16 * p.first.toNat + 2 ^ 32 * p.count.toNat, p.ha.toNat] [])
  | .debugUnlock h phase ha _ => some (packetOf 0x70 h [b2n phase, ha.toNat] [])
  | _ => none

/-- The header of a command of Table 14.5. -/
def packetHdr : Instr → Hdr
  | .capQuery h _ => h
  | .levelSet h _ => h
  | .nopCmd h => h
  | .ctxCreate h _ => h
  | .ctxDestroy h => h
  | .ctxQuery h _ => h
  | .ctxMove h _ _ => h
  | .vfBind h _ => h
  | .oringSet h _ => h
  | .mapPages h _ _ _ => h
  | .unmapPages h _ _ => h
  | .grantModel h _ _ _ => h
  | .modelLoad h _ _ => h
  | .modelPin h _ _ => h
  | .modelEvict h _ => h
  | .impLoad h _ _ => h
  | .impRun h _ => h
  | .stepCmd h _ _ => h
  | .commitCmd h _ => h
  | .abortCmd h _ => h
  | .fillDrain h _ => h
  | .ocfgSet h _ _ => h
  | .lsSet h _ _ => h
  | .gmodeSet h _ => h
  | .replicaSet h _ => h
  | .proofArm h _ => h
  | .checkpoint h _ _ => h
  | .ckptLoad h _ _ => h
  | .captureArm h _ => h
  | .reprint h _ => h
  | .proofRecv h _ => h
  | .streamOpen h _ => h
  | .streamClose h _ => h
  | .streamPark h _ => h
  | .streamUnpark h _ => h
  | .streamQuery h _ _ => h
  | .stopsetSet h _ _ _ => h
  | .serve h _ => h
  | .partSet h _ => h
  | .preempt h => h
  | .lockAcquire h _ => h
  | .lockRelease h _ => h
  | .domainSet h _ => h
  | .overlayApply h _ _ _ => h
  | .powerLimit h _ _ => h
  | .telemetryRead h _ => h
  | .debugUnlock h _ _ _ => h
  | _ => default

/-- What of a command's operands the packet does not hold stands where the command reads it: host memory for an overlay or
an unlock response, the packet itself for an INLINE image, nothing yet for a bulk command that reads when it starts. -/
def packetCarried (m : Memory) : Instr → Prop
  | .modelLoad _ _ image => image = []
  | .ckptLoad _ _ image => image = []
  | .impLoad h p image => if h.inln then p.ha = 0 ∧ p.bytes.toNat = image.length else image = []
  | .overlayApply _ _ ha image => image = mread m ha.toNat 1040
  | .debugUnlock _ _ ha resp => resp = mread m ha.toNat 32
  | _ => True

/-- Every word of the packet that holds a context virtual address is below 2^48 (R344). -/
def vaWordsOk : Instr → Prop
  | .mapPages _ va _ _ => va.toNat < 2 ^ 48
  | .unmapPages _ va _ => va.toNat < 2 ^ 48
  | .grantModel _ _ _ va => va.toNat < 2 ^ 48
  | .modelLoad _ p _ => p.srcPeer = true → p.addr.toNat < 2 ^ 48
  | .impLoad _ p _ => p.va.toNat < 2 ^ 48
  | .proofArm _ p => p.destPeer = true → p.addr.toNat < 2 ^ 48
  | .ckptLoad _ p _ => p.srcPeer = true → p.addr.toNat < 2 ^ 48
  | .reprint _ va => va.toNat < 2 ^ 48
  | .proofRecv _ p => p.destVa = true → p.addr.toNat < 2 ^ 48
  | .stopsetSet _ _ va _ => va.toNat < 2 ^ 48
  | _ => True

end Sys2Proof.Machine
end

