-- ==== Sys2Proof/WellFormed.lean ====
section
/-!
DEFINITION. Which commands are well formed: the ranges of operands that the table's columns and the address maps leave
narrower than the operand's type.
-/
namespace Sys2Proof

/-- A header's numbers: functions 0 to 511, contexts 0 to 1023, rings 0 to 7 (R332, R336, R340). -/
def Hdr.wf (h : Hdr) : Bool :=
  decide (h.fn < 512) && decide (h.page < 1024) && decide (h.ring < 8) && decide (h.ctx < 1024)

/-- A control slot stands in one of sixteen partitions (R310). -/
def Ctl.wf (c : Ctl) : Bool := decide (c.part < 16)

/-- A unit of a partition whose slot position lies in a range of Table 5.2. -/
def UnitRef.within (u : UnitRef) (lo hi : Nat) : Bool := decide (u.part < 16) && decide (lo ≤ u.pos) && decide (u.pos < hi)

/-- A thread: 256 compositors on a die, 16 in each of its four stacks, 4,096 contexts each (R159, Table 7.1). -/
def ThreadRef.wf (t : ThreadRef) : Bool :=
  decide (t.loc ≤ 4) && decide (t.comp < if t.loc = 0 then 256 else 16) && decide (t.ctx < 4096)

/-- A participant of a collective op: at most 1,024 (R234, R235). -/
def Peer.wf (p : Peer) : Bool := decide (p.index < 1024)

/-- A voter's index in its group. -/
def Vote.wf (v : Vote) : Bool := decide (v.index < 1024)

/-- The register windows are BAR0 and BAR2 (Table 14.1). -/
def barOk (bar : Nat) : Bool := decide (bar = 0) || decide (bar = 2)

/-- The operands of a command are in range.
DESIGN CHOICE: log entry 89. -/
def Instr.wf : Instr → Bool
  | .capQuery h _ => h.wf
  | .levelSet h _ => h.wf
  | .nopCmd h => h.wf
  | .ctxCreate h _ => h.wf
  | .ctxDestroy h => h.wf
  | .ctxQuery h _ => h.wf
  | .ctxMove h _ _ => h.wf
  | .vfBind h _ => h.wf
  | .oringSet h _ => h.wf
  | .mapPages h _ _ _ => h.wf
  | .unmapPages h _ _ => h.wf
  | .grantModel h _ _ _ => h.wf
  | .modelLoad h _ _ => h.wf
  | .modelPin h _ _ => h.wf
  | .modelEvict h _ => h.wf
  | .impLoad h _ _ => h.wf
  | .impRun h _ => h.wf
  | .stepCmd h _ _ => h.wf
  | .commitCmd h _ => h.wf
  | .abortCmd h _ => h.wf
  | .fillDrain h _ => h.wf
  | .ocfgSet h _ _ => h.wf
  | .lsSet h _ _ => h.wf
  | .gmodeSet h _ => h.wf
  | .replicaSet h _ => h.wf
  | .proofArm h _ => h.wf
  | .checkpoint h _ _ => h.wf
  | .ckptLoad h _ _ => h.wf
  | .captureArm h _ => h.wf
  | .reprint h _ => h.wf
  | .proofRecv h _ => h.wf
  | .streamOpen h _ => h.wf
  | .streamClose h _ => h.wf
  | .streamPark h _ => h.wf
  | .streamUnpark h _ => h.wf
  | .streamQuery h _ _ => h.wf
  | .stopsetSet h _ _ data => h.wf && decide (data.length = 192)
  | .serve h _ => h.wf
  | .partSet h _ => h.wf
  | .preempt h => h.wf
  | .lockAcquire h _ => h.wf
  | .lockRelease h _ => h.wf
  | .domainSet h _ => h.wf
  | .overlayApply h _ _ image => h.wf && decide (image.length ≤ 1040)
  | .powerLimit h _ _ => h.wf
  | .telemetryRead h _ => h.wf
  | .debugUnlock h _ _ resp => h.wf && decide (resp.length = 32)
  | .doorbell fn ctx ring _ stores => decide (fn < 512) && decide (ctx < 1024) && decide (ring < 8) && stores.all (fun p => decide (p.1 < 2 ^ 64))
  | .ringEnable fn ctx ring _ => decide (fn < 512) && decide (ctx < 1024) && decide (ring < 8)
  | .packetTake ctx => decide (ctx < 1024)
  | .cplHeadWrite fn ctx ring _ => decide (fn < 512) && decide (ctx < 1024) && decide (ring < 8)
  | .oringHeadWrite fn ctx ring _ => decide (fn < 512) && decide (ctx < 1024) && decide (ring < 256)
  | .commandComplete ctx => decide (ctx < 1024)
  | .fenceRelease ctx ring => decide (ctx < 1024) && decide (ring < 8)
  | .executeQueueStart ctx => decide (ctx < 1024)
  | .beatBoundary _ => true
  | .sheetFetch _ part block => decide (part < 16) && decide (block < 2 ^ 17)
  | .ctrlNop c => c.wf
  | .wait c _ _ _ _ => c.wf
  | .waitTimeout _ part => decide (part < 16)
  | .waitu c _ => c.wf
  | .ldcnt c _ _ => c.wf
  | .loop c _ _ => c.wf
  | .jump c _ => c.wf
  | .rwait c _ => c.wf
  | .widen c _ _ => c.wf
  | .signal c _ _ _ _ => c.wf
  | .ctrlStep c _ _ => c.wf
  | .ctrlCommit c => c.wf
  | .halt c => c.wf
  | .ctrlTrap c _ => c.wf
  | .slotNop u => u.within 0 126
  | .platenTile u => u.within 0 64
  | .rbclr u => u.within 0 64
  | .thatchTile u => u.within 64 96
  | .select u => u.within 96 112
  | .update u => u.within 112 116
  | .gutOpen u => u.within 116 117
  | .gutRelease u => u.within 116 117
  | .reduce u peers => u.within 117 118 && peers.all Peer.wf
  | .rscat u peers => u.within 117 118 && peers.all Peer.wf
  | .gather u peers => u.within 117 118 && peers.all Peer.wf
  | .a2a u peers => u.within 117 118 && peers.all Peer.wf
  | .smerge u peers => u.within 117 118 && peers.all Peer.wf
  | .bcast u peers => u.within 117 118 && peers.all Peer.wf
  | .norm u peers => u.within 117 118 && peers.all Peer.wf
  | .spawn u => u.within 118 126
  | .opCompletion u => u.within 0 126
  | .thatchCompletionRecord u => u.within 64 96
  | .crossDieSignal _ => true
  | .streamTrap u _ _ => u.within 0 128
  | .trapArrival _ part => decide (part < 16)
  | .streamHalted _ part => decide (part < 16)
  | .listFetch u => u.within 0 126
  | .linkTake u desc => u.within 0 126 && decide (desc < 1024)
  | .cacheFill _ line => decide (line < 2 ^ 31)
  | .invalidateSnoop line => decide (line < 2 ^ 31)
  | .evictionNotice _ line => decide (line < 2 ^ 31)
  | .midStreamFault u _ _ _ => u.within 0 128
  | .waitGraphCheck waits => waits.all (fun p => decide (p.1 < 1024) && decide (p.2 < 1024))
  | .add t _ _ _ => t.wf
  | .sub t _ _ _ => t.wf
  | .mul t _ _ _ => t.wf
  | .divu t _ _ _ => t.wf
  | .and t _ _ _ => t.wf
  | .or t _ _ _ => t.wf
  | .xor t _ _ _ => t.wf
  | .shl t _ _ _ => t.wf
  | .shr t _ _ _ => t.wf
  | .sar t _ _ _ => t.wf
  | .slt t _ _ _ => t.wf
  | .sltu t _ _ _ => t.wf
  | .addi t _ _ _ => t.wf
  | .li t _ _ => t.wf
  | .lih t _ _ _ => t.wf
  | .fadd t _ _ _ => t.wf
  | .fsub t _ _ _ => t.wf
  | .fmul t _ _ _ => t.wf
  | .fdiv t _ _ _ => t.wf
  | .fmax t _ _ _ => t.wf
  | .fmin t _ _ _ => t.wf
  | .famax2 t _ _ => t.wf
  | .fexp t _ _ => t.wf
  | .flog t _ _ => t.wf
  | .frsq t _ _ => t.wf
  | .fslt t _ _ _ => t.wf
  | .i2f t _ _ => t.wf
  | .f2i t _ _ => t.wf
  | .cvt2 t _ _ _ _ _ => t.wf
  | .exp2 t _ _ _ _ => t.wf
  | .tobf t _ _ _ => t.wf
  | .frombf t _ _ => t.wf
  | .ld64 t _ _ _ => t.wf
  | .st64 t _ _ _ => t.wf
  | .ld32 t _ _ _ => t.wf
  | .st32 t _ _ _ => t.wf
  | .ld8 t _ _ _ => t.wf
  | .st8 t _ _ _ => t.wf
  | .aadd t _ _ _ => t.wf
  | .acas t _ _ _ => t.wf
  | .fence t => t.wf
  | .arg t _ _ _ => t.wf
  | .spr t _ _ => t.wf
  | .ssig t _ _ _ _ => t.wf
  | .stake t _ _ _ _ => t.wf
  | .rseed t _ _ => t.wf
  | .rnext t _ => t.wf
  | .beq t _ _ _ => t.wf
  | .bne t _ _ _ => t.wf
  | .blt t _ _ _ => t.wf
  | .jmp t _ => t.wf
  | .jr t _ => t.wf
  | .exit t => t.wf
  | .compTrap t _ => t.wf
  | .threadWake t => t.wf
  | .instructionFault t => t.wf
  | .stackSelection stack unit => decide (stack < 8) && decide (unit < 2)
  | .gutterRecordArrival _ source => decide (source ≤ 8)
  | .clipFactorReady u => u.within 112 116
  | .commitPoint ctx => decide (ctx < 1024)
  | .voteReceived ctx votes => decide (ctx < 1024) && votes.all Vote.wf
  | .voteTimeout ctx => decide (ctx < 1024)
  | .collectiveTimeout _ part => decide (part < 16)
  | .collectiveAbortReceived _ part _ _ => decide (part < 16)
  | .a2aRoundResume u => u.within 117 118
  | .portDown port => decide (port < 8)
  | .portPlug port _ _ _ => decide (port < 8)
  | .laneRetrain port => decide (port < 8)
  | .referenceLoss => true
  | .referenceReturn _ _ => true
  | .ridgeUpstreamSwitch => true
  | .ridgeNowRead fn => decide (fn < 512)
  | .gutLossSumRead fn _ => decide (fn < 512)
  | .registerReadClear fn bar _ size => decide (fn < 512) && barOk bar && decide (size ≤ 16)
  | .registerWrite fn bar _ size _ => decide (fn < 512) && barOk bar && decide (size ≤ 16)
  | .trafficWindow stack channels _ => decide (stack < 8) && decide (channels.length ≤ 16)
  | .pageMigration stack _ => decide (stack < 8)
  | .migrationSwitch stack => decide (stack < 8)
  | .migrationFree stack => decide (stack < 8)
  | .frequencyControl _ _ _ _ => true
  | .sprintEnd => true
  | .gatingPeriod stack _ => decide (stack < 8)
  | .thermalTrip => true
  | .droopCorrection _ platen => decide (platen < 64)
  | .droopRelax _ platen => decide (platen < 64)
  | .emergencyHold _ platen => decide (platen < 64)
  | .clipAdaptWindow ctx _ _ => decide (ctx < 1024)
  | .serveStepLaunch ctx => decide (ctx < 1024)
  | .stopDetection ctx _ => decide (ctx < 1024)
  | .parkComplete _ => true
  | .unparkComplete _ => true
  | .proofShipmentDone ctx => decide (ctx < 1024)
  | .proofReceive _ ctx _ => decide (ctx < 1024)
  | .proofRefused ctx => decide (ctx < 1024)
  | .schedulerChoice part => decide (part < 16)
  | .sliceExpiry part => decide (part < 16)
  | .classKill part => decide (part < 16)
  | .kill ctx _ => decide (ctx < 1024)
  | .killHeldRelease ctx => decide (ctx < 1024)
  | .contextSwitch part => decide (part < 16)
  | .storeZeroing part => decide (part < 16)
  | .contextTeardown ctx _ => decide (ctx < 1024)
  | .pageFirstWrite ctx _ => decide (ctx < 1024)
  | .bar4Access fn _ _ _ => decide (fn < 512)
  | .functionLevelReset fn => decide (fn < 512)
  | .perstAssert => true
  | .linkTraining => true
  | .powerInputRise => true
  | .inputBrownout => true
  | .phaseTimeout => true
  | .ident _ _ _ => true
  | .primaryElection _ => true
  | .dieLinkFailure => true
  | .baseConfigLoad => true
  | .bootldFetch _ => true
  | .selftest _ => true
  | .ready => true
  | .buttonShortPress => true
  | .locateExpiry => true
  | .quiesce => true
  | .quiesceEnd => true
  | .forcedManagementReset => true
  | .bypass _ => true
  | .idcode => true
  | .samplePreload _ _ => true
  | .extest => true
  | .dbgacc _ => true
  | .colprog _ => true
  | .dbgHalt _ _ => true
  | .dbgStep _ _ => true
  | .compositorBreakpointHit t => t.wf
  | .dbgCresume _ _ => true
  | .dbgMdataRd _ => true
  | .dbgMdataWr _ _ => true
  | .unlockChallenge => true
  | .unlockResponse => true
  | .challengeLapse => true
  | .sidebandOffsetWrite _ => true
  | .sidebandRead _ => true
  | .ridgeLockAcquired => true
  | .droopSensorRecovery _ platen => decide (platen < 64)
  | .neighbourEpochReport port _ _ _ => decide (port < 8)
  | .peerReadRequest k _ _ => decide (k.ctx < 1024)

end Sys2Proof
end

