-- ==== Sys2Proof/Safety.lean ====
section
/-!
DEFINITION. The terms the claims are stated in: a command that its function may issue, a thread that may execute an
instruction, a stream that may issue, an op ready for its work, stores in canonical form, and what a safe run of the block is.
-/
namespace Sys2Proof.Machine

/-- A run is safe at a state when a step from it answers a next state: the block goes on. -/
def Safe (s : State) : Prop := ∃ t, step s = .next t

/-- Every waiting command is well formed. -/
def PendingWf (s : State) : Prop := ∀ i ∈ s.pending, i.wf = true

/-- Every byte store of the module is in its canonical form. -/
def StoresWf (c : Chip) : Prop :=
  Memory.wf c.host = true ∧ Memory.wf c.dram = true ∧ Memory.wf c.platenMem = true ∧ Memory.wf c.engineMem = true ∧
  Memory.wf c.sharedMem = true

/-- A taken command passes steps 4 and 5 of R340: the PF may issue every opcode, a VF only those marked "any" for its bound
context (R333); and the context it acts for is not free where the opcode asks for one. -/
def Taken (c : Chip) (h : Hdr) (pfOnly needCtx : Bool) : Prop :=
  (h.fn = 0 ∨ (pfOnly = false ∧ c.boundCtx h.fn = some h.ctx)) ∧ (needCtx = true → (c.ctx h.ctx).st ≠ .free)

/-- A thread issues its next instruction (R159, R162, R398, R400): its compositor runs, its rotation comes to it, it stands within its program, no
breakpoint stands before the instruction but the one it goes past, and the instruction's line is in the compositor's cache. -/
def ThreadIssues (c : Chip) (t : ThreadRef) (x : Thread) : Prop :=
  c.thread t = some x ∧ c.standsStill t x = false ∧ (c.die t.die).nextReady t = some t.ctx ∧ x.pc < x.progLen ∧ (x.pass = true ∨ (c.die t.die).breakpoint x = none) ∧
  c.codeLine t x ∈ tget [] (c.die t.die).icache (compKey t)

/-- A stream may issue at its present sheet (R113, R121, R124, R136, R310, R398, R399): it has neither stopped nor halted, no trap has
reached it, it waits for nothing and has no delay left, its first sheet's start time has come, its die has issued no sheet in the beat and
is in a beat, and no breakpoint stands at the sheet but the one it goes past. -/
def StreamIssues (c : Chip) (d : Die) (q : Nat) (s : Stream) : Prop :=
  c.stream d q = some s ∧ s.stopped = false ∧ s.halted = false ∧ s.trapDue = false ∧ s.wait = .none ∧ s.delay = 0 ∧
  (s.begun = true ∨ s.start.toNat ≤ (c.die d).beatAt.toNat) ∧ (c.die d).issued = false ∧ (c.die d).dbg.frozen = false ∧
  (s.skipBp = true ∨ (c.die d).sheetBp q (c.imp d q).pc = none)

/-- An op is in progress on a unit and may work: its opcode, its list fetched, its links taken, its work not done, the unit's clock
running (R398).
DEDUCED: log entry 59. -/
def OpReady (c : Chip) (u : UnitRef) (o : Op) (opc : Nat) : Prop :=
  c.op u = some o ∧ o.ready = true ∧ o.e.opc = opc ∧ c.clockStopped u = false

end Sys2Proof.Machine
end

