-- ==== Sys2Proof/Certificates/Slice0/Obligations.lean ====
section
/-!
DEFINITION. The statements for the provers: what the rules of the manual say the commands do to the module.
-/
section
open Sys2Proof Sys2Proof.Machine

/-! ### The block -/

/-- Step carries out the command at the front of the queue with the rest as the queue (the model's queue, log entry 1). -/
def Obligations.StepRunsTheFrontCommand : Prop :=
  ∀ (i : Instr) (rest : List Instr) (c : Chip),
    step { pending := i :: rest, chip := c } = exec i { pending := rest, chip := c }

/-- No command stops the block or touches the queue: every command answers a next state with the waiting commands as they
were, and so every step is safe and keeps the waiting commands well formed.
It also states the model's own choices of log entries 1 and 11. -/
def Obligations.EveryStepIsSafeAndKeepsTheQueue : Prop :=
  (∀ (i : Instr) (p : List Instr) (c : Chip), ∃ c', exec i { pending := p, chip := c } = .next { pending := p, chip := c' }) ∧
  ∀ s, Safe s ∧ (PendingWf s → ∀ t, step s = .next t → PendingWf t ∧ t.pending = s.pending.tail)

/-- The block after reset: no command waits, the stores list nothing and are canonical, partition 0 holds every unit, tag,
pair and page (R309), both dies run at 1,800 MHz (R369), no context exists, the power limit is 1,500 W (R364), and bring-up
stands in phase 1.
It also states the model's own choices of log entries 2 and 9. -/
def Obligations.ResetState : Prop :=
  State.reset.pending = [] ∧ PendingWf State.reset ∧ StoresWf Chip.reset ∧
  (Chip.reset.part 0).ptW = BitVec.allOnes 64 ∧ (Chip.reset.part 0).ptE = BitVec.allOnes 64 ∧
  (Chip.reset.part 0).te = BitVec.allOnes 64 ∧ (Chip.reset.part 0).su = BitVec.allOnes 32 ∧ (Chip.reset.part 0).uu = 0xFF ∧
  (Chip.reset.part 0).tagCnt = 64 ∧ (Chip.reset.part 0).semCnt = 64 ∧ (Chip.reset.part 0).share = 32768 ∧
  Chip.reset.w.mhz = 1800 ∧ Chip.reset.e.mhz = 1800 ∧ Chip.reset.live = [] ∧ Chip.reset.pwr.limit = 1500 ∧
  Chip.reset.boot.phase = 1 ∧ (∀ n, (Chip.reset.ctx n).st = .free)

/-- A store reads back what was written to it, leaves every other byte alone and stays canonical, for one byte and for a run
of bytes; equal contents in canonical form are equal data (R5 orders the bytes of a number).
A page's first write zeroes its copy and keeps the stack memory canonical (R327): every byte of the copy reads zero, every
byte at a device address that is no part of it reads as before.
It also states the model's own choices of log entries 4 and 74. -/
def Obligations.StoresReadBack : Prop :=
  ((∀ (m : Memory) (a : Nat) (bs : List Byte), m.wf = true →
    (mwrite m a bs).wf = true ∧ mread (mwrite m a bs) a bs.length = bs ∧
    ∀ k, k < a ∨ a + bs.length ≤ k → mget (mwrite m a bs) k = mget m k) ∧
  (∀ (m m' : Memory), m.wf = true → m'.wf = true → (∀ a, mget m a = mget m' a) → m = m') ∧
  (∀ (n v : Nat), v < 256 ^ n → leNat (leBytes n v) = v ∧ (leBytes n v).length = n)) ∧
  (∀ (m : Memory) (stack slice : Nat) (salt : BitVec 4) (hash : Nat) (w : Bool), m.wf = true →
    let k : PageCopy := { phys := .pinned stack slice, salt := salt, hash := hash, written := w }
    (zeroCopy m k).wf = true ∧ (∀ po, po < pageSize → mget (zeroCopy m k) (k.dev po) = 0) ∧
    ∀ a, (∀ po, po < pageSize → a ≠ k.dev po) → mget (zeroCopy m k) a = mget m a)

/-! ### Command packets (chapter 14) -/

/-- The packet of a command, laid out by Tables 14.3 and 14.5, is read as exactly that command, with every operand at every
value the layout admits; its header is read as the header, and it fills whole slots.
It also states the model's own choices of log entry 25. -/
def Obligations.PacketDecodeOfEncode : Prop :=
  ∀ (m : Memory) (i : Instr) (pkt : List Byte), i.wf = true → packetCarried m i → packetBytes i = some pkt →
    hdrOf (packetHdr i).fn (packetHdr i).page (packetHdr i).ring pkt = packetHdr i ∧
    packetCmd m (packetHdr i) pkt = some i ∧ pkt.length % 32 = 0

/-- A packet so laid out passes every check of R340 that hangs on the packet alone, when its function stands at level 1 and
may issue the opcode, its context is not free where the opcode asks for one, its VA words hold 48-bit addresses, its HOLD and
INLINE flags fit its opcode, and it fits LEN: no reserved bit is set, and LEN is at least the opcode's minimum.
It also states the model's own choices of log entries 23, 24, 25 and 26. -/
def Obligations.EncodedPacketPassesItsChecks : Prop :=
  ∀ (c : Chip) (i : Instr) (pkt : List Byte), i.wf = true → packetBytes i = some pkt → packetCarried c.host i → vaWordsOk i →
    pkt.length ≤ 32 * 32768 →
    (tget {} c.vfs (packetHdr i).fn : Vf).level = 1 →
    (∀ r, opRow (imgNum pkt 0 1) (packetHdr i).inln (imgNum pkt 32 8) = some r → Taken c (packetHdr i) r.pf r.needCtx) →
    ((packetHdr i).hold = true → imgNum pkt 0 1 = 0x30 ∨ imgNum pkt 0 1 = 0x33) → ((packetHdr i).inln = true → imgNum pkt 0 1 = 0x28) →
    c.packetCheck (packetHdr i) pkt = none

/-- A take at the head of a ring reads the packet of a control command that stands there, moves HEAD past it and carries
that command out (R336): one whole slot, all of it before TAIL.
It also states the model's own choices of log entry 15. -/
def Obligations.TakeCarriesOutThePacket : Prop :=
  ∀ (c : Chip) (n r : Nat) (i : Instr) (pkt : List Byte),
    let g := c.ring n r
    packetBytes i = some pkt → pkt.length = 32 → i.wf = true → packetCarried c.host i →
    packetHdr i = { packetHdr i with fn := c.fnOf n, page := n, ring := r } →
    g.packet c.host 1 = pkt → 1 ≤ g.waiting →
    let c1 := (c.modRing n r (fun g => { g with head := BitVec.ofNat 32 ((g.head.toNat + 1) % g.slots), fenceOn := none })).modCtx n
      (fun x => { x with ringLast := r })
    c1.packetCheck (packetHdr i) pkt = none → c.takeAt n r = c1.carryCmd i

/-- A posted status record (R338, R341): with room on the completion ring, its sixteen bytes stand at the tail before the
write-back block counts them, the tail moves on by one, and with INTR the vector is raised after; nothing else changes.
A record that finds no free record on the completion ring, or a ring out of use, is kept and posted later (R338): host
memory stays as it is, and the ring keeps its records in order.
It also states the model's own choices of log entry 65. -/
def Obligations.StatusRecords : Prop :=
  (∀ (c : Chip) (n r : Nat) (x : Record),
    let g := c.ring n r
    g.enable = true → g.kept = [] → g.cplFull = false →
    let g' : Ring := { g with cplTail := BitVec.ofNat 32 ((g.cplTail.toNat + 1) % g.cplSlots) }
    let host := mwrite (mwrite c.host (g.cplBase.toNat + 16 * (g.cplTail.toNat % g.cplSlots)) x.bytes) g.wb.toNat
      (leBytes 4 g'.head.toNat ++ leBytes 4 g'.cplTail.toNat)
    let c' : Chip := { c.modRing n r (fun _ => g') with host := host }
    c.post n r x = (if g.intr then c'.raise (c'.fnOf n) g.vector.toNat else c') ∧ x.bytes.length = 16) ∧
  (∀ (c : Chip) (n r : Nat) (x : Record),
    let g := c.ring n r
    g.cplFull = true ∨ g.enable = false →
    (c.post n r x).host = c.host ∧ (c.post n r x).ring n r = { g with kept := g.kept ++ [x] })

/-- Rights (R333): the check that every command of a packet goes through turns away, with status 0x0603 and no other effect, one on a
VF ring that does not name the bound context or whose opcode only the PF may issue; so for the three commands below and, from any VF,
for every command of the PF alone.
CAP_QUERY completes with VALUE 64 and writes the 64 bytes of Table 14.6 to the host address (R343). LEVEL_SET (R342) of level 1
completes with VALUE 1 and leaves the function at level 1; of level 0 with 0x0105, of any other with 0x0102, both with the byte offset
of LEVEL and the function as it was. NOP completes with VALUE 0 and does nothing else.
It also states the model's own choices of log entry 26. -/
def Obligations.RightsCapabilityLevelAndNop : Prop :=
  (∀ (c : Chip) (h : Hdr) (pf need : Bool) (f : Chip → Chip), h.fn ≠ 0 → (pf = true ∨ c.boundCtx h.fn ≠ some h.ctx) →
    c.command h pf need f = c.done h 0x0603 0 0) ∧
  (∀ (p : List Instr) (c : Chip) (h : Hdr), h.fn ≠ 0 →
    let refused (i : Instr) : Prop := exec i ⟨p, c⟩ = .next ⟨p, c.done h 0x0603 0 0⟩
    (c.boundCtx h.fn ≠ some h.ctx → (∀ ha, refused (.capQuery h ha)) ∧ (∀ l, refused (.levelSet h l)) ∧ refused (.nopCmd h)) ∧
    (∀ a, refused (.ctxCreate h a)) ∧ refused (.ctxDestroy h) ∧ (∀ q l, refused (.ctxMove h q l)) ∧ (∀ v, refused (.vfBind h v)) ∧
    (∀ m g va, refused (.grantModel h m g va)) ∧ (∀ a, refused (.partSet h a)) ∧ refused (.preempt h) ∧ (∀ a, refused (.domainSet h a)) ∧
    (∀ o ha b, refused (.overlayApply h o ha b)) ∧ (∀ w s, refused (.powerLimit h w s)) ∧ (∀ k ha b, refused (.debugUnlock h k ha b))) ∧
  (∀ (p : List Instr) (c : Chip) (h : Hdr), h.fn = 0 ∨ c.boundCtx h.fn = some h.ctx →
    (∀ ha : W64, ∃ c1 : Chip, exec (.capQuery h ha) ⟨p, c⟩ = .next ⟨p, c1.ok h 64⟩ ∧ c1 = { c with host := c1.host } ∧
      (c.host.wf = true → mread c1.host ha.toNat 64 = c.capBlock ∧
        ∀ a, a < ha.toNat ∨ ha.toNat + 64 ≤ a → mget c1.host a = mget c.host a)) ∧
    (Tab.wf ({} : Vf) c.vfs = true → ∃ c1 : Chip, exec (.levelSet h 1) ⟨p, c⟩ = .next ⟨p, c1.ok h 1⟩ ∧ c1 = { c with vfs := c1.vfs } ∧
      (tget {} c1.vfs h.fn : Vf) = { (tget {} c.vfs h.fn : Vf) with level := 1 } ∧ ∀ k, k ≠ h.fn → tget {} c1.vfs k = tget ({} : Vf) c.vfs k) ∧
    exec (.levelSet h 0) ⟨p, c⟩ = .next ⟨p, c.done h 0x0105 32 0⟩ ∧
    (∀ l : Byte, 1 < l → exec (.levelSet h l) ⟨p, c⟩ = .next ⟨p, c.done h 0x0102 32 0⟩) ∧
    exec (.nopCmd h) ⟨p, c⟩ = .next ⟨p, c.ok h 0⟩) ∧
  (∀ c : Chip, let b := c.capBlock
    b.length = 64 ∧ imgNum b 0 1 = 0x11 ∧ imgNum b 1 1 = Config.fwMajor.toNat ∧ imgNum b 2 1 = Config.fwMinor.toNat ∧
    imgNum b 3 5 = (if c.boot.ident0.part = 1 then 1 else 0) ∧
    imgNum b 8 8 = 1023 + 15 * 2 ^ 11 + 511 * 2 ^ 15 + 7 * 2 ^ 24 + 65536 * 2 ^ 32 ∧
    imgNum b 16 8 = 0x01FF + 512 * 2 ^ 16 + 32768 * 2 ^ 32 ∧ imgNum b 24 8 = 0 ∧
    ∀ k, k < 256 → bit (imgNum b 32 32) k = (opRow k false 0).isSome)

/-- CTX_CREATE takes the lowest free number, gives the context its partition, class, options, a seed that is the command's
when that is not zero, and leaves it idle; VALUE is the number. With no number free it completes with 0x0201 (R306, R291).
CTX_QUERY writes the 32-byte context block (R347); CTX_MOVE changes partition and class of an idle context and no other
(R306); CTX_DESTROY completes and tears the context down (R321).
VF_BIND leaves the context bound to the VF the command names and to no other; VF 0 unbinds it (R333).
It also states the model's own choices of log entries 6, 29 and 48. -/
def Obligations.ContextCommands : Prop :=
  (∀ (p : List Instr) (c : Chip) (h : Hdr) (a : CtxCreateP), Taken c h true false →
    (∀ n, n < 1024 → (c.ctx n).st = .free → (∀ k, k < n → (c.ctx k).st ≠ .free) →
      ∃ c1 t : Chip, exec (.ctxCreate h a) ⟨p, c⟩ = .next ⟨p, t⟩ ∧ t = c1.ok h (BitVec.ofNat 32 n) ∧
        (c1.ctx n).st = .idle ∧ (c1.ctx n).part = a.part.toNat ∧ (c1.ctx n).latency = a.latency ∧
        (c1.ctx n).rbwFault = a.rbwFault ∧ (c1.ctx n).pages = [] ∧ (c1.ctx n).execQ = [] ∧
        (a.seedLo ≠ 0 ∨ a.seedHi ≠ 0 → (c1.ctx n).seed = (a.seedHi ++ a.seedLo : BitVec 128)) ∧ (c1.ctx n).seed ≠ 0 ∧
        ∀ k, k ≠ n → c1.ctx k = c.ctx k) ∧
    ((∀ n, n < 1024 → (c.ctx n).st ≠ .free) → exec (.ctxCreate h a) ⟨p, c⟩ = .next ⟨p, c.done h 0x0201 0 0⟩)) ∧
  (∀ (p : List Instr) (c : Chip) (h : Hdr),
    (∀ ha : W64, Taken c h false true →
      exec (.ctxQuery h ha) ⟨p, c⟩ = .next ⟨p, ({ c with host := mwrite c.host ha.toNat (c.ctxBlock h.ctx) } : Chip).ok h 32⟩ ∧
      (c.ctxBlock h.ctx).length = 32) ∧
    (∀ (part : BitVec 4) (lat : Bool), Taken c h true true →
      ((c.ctx h.ctx).st = .idle → ∃ c1 : Chip, exec (.ctxMove h part lat) ⟨p, c⟩ = .next ⟨p, c1.ok h 0⟩ ∧
        c1.ctx h.ctx = { c.ctx h.ctx with part := part.toNat, latency := lat } ∧ ∀ k, k ≠ h.ctx → c1.ctx k = c.ctx k) ∧
      ((c.ctx h.ctx).st ≠ .idle → exec (.ctxMove h part lat) ⟨p, c⟩ = .next ⟨p, c.done h 0x0105 32 0⟩)) ∧
    (Taken c h true true → exec (.ctxDestroy h) ⟨p, c⟩ = .next ⟨p, (c.ok h 0).requestTeardown h.ctx 0x0703⟩)) ∧
  (∀ (p : List Instr) (c : Chip) (h : Hdr) (vf : BitVec 9), Taken c h true true → Tab.wf ({} : Vf) c.vfs = true →
    ∃ c1 : Chip, exec (.vfBind h vf) ⟨p, c⟩ = .next ⟨p, c1.ok h 0⟩ ∧ (vf ≠ 0 → c1.boundCtx vf.toNat = some h.ctx) ∧
      (∀ k, k ≠ vf.toNat ∨ vf = 0 → c1.boundCtx k ≠ some h.ctx) ∧ c1 = { c with vfs := c1.vfs })

/-- MAP and UNMAP (R312, R426). MAP of a range that is aligned, not empty and nowhere mapped, with room for its pages within the
partition's share, maps every page of it with the command's attributes, unwritten, in the context alone; where spilling other
contexts' pages makes the room, it maps into what they leave. UNMAP of a range that is wholly mapped leaves no page of it mapped and
every other page as it was. While a step of the context runs both are kept for its next launch instead (R352). A misaligned or empty range, one with a mapped page (MAP) or one with a page that is not mapped (UNMAP)
completes with 0x0105 and the offset of the VA word and changes no mapping; a PSET beside PAIR 0 completes a MAP with 0x0102.
It also states the model's own choices of log entries 7 and 82. -/
def Obligations.MapAndUnmap : Prop :=
  ∀ (p : List Instr) (c : Chip) (h : Hdr) (va pages : W64), (h.fn = 0 ∨ c.boundCtx h.fn = some h.ctx) → (c.ctx h.ctx).st ≠ .free →
    va.toNat < 2 ^ 48 →
    let vps := pageRange va.toNat pages.toNat
    let whole (c1 : Chip) (a : MapAttr) : Prop :=
      ∀ vp ∈ vps, ∃ g, tget none (c1.ctx h.ctx).pages vp = some g ∧ g.attr = a ∧ g.copyA.written = false
    let plain := ∀ r, (c.ctx h.ctx).run = some r → r.isStep = false
    let keeps (i : Instr) : Prop := ∀ r, (c.ctx h.ctx).run = some r → r.isStep = true →
      exec i ⟨p, c⟩ = .next ⟨p, (c.modCtx h.ctx (fun x => { x with deferred := x.deferred ++ [i] })).ok h 0⟩
    (plain → ∀ a : MapAttr, a.place.toNat ≤ 8 → (a.pair = true ∨ a.pset = 0) → rangeOk va.toNat pages.toNat = true →
      (∀ vp ∈ vps, tget none (c.ctx h.ctx).pages vp = none) →
      (∀ c1, c.mapMany h.ctx a (c.ctx h.ctx).key (c.ctx h.ctx).hash none vps = some c1 → c1.withinShare (c.ctx h.ctx).part = true →
        exec (.mapPages h va pages a) ⟨p, c⟩ = .next ⟨p, c1.ok h 0⟩ ∧
        (Tab.wf ({} : Ctx) c.ctxs = true → Tab.wf none (c.ctx h.ctx).pages = true → whole c1 a ∧
          (∀ vp, vp ∉ vps → tget none (c1.ctx h.ctx).pages vp = tget none (c.ctx h.ctx).pages vp) ∧ ∀ k, k ≠ h.ctx → c1.ctx k = c.ctx k)) ∧
      (∀ c1, c.tryMap h.ctx va.toNat pages.toNat a = .ok c1 → exec (.mapPages h va pages a) ⟨p, c⟩ = .next ⟨p, c1.ok h 0⟩) ∧
      (∀ e, c.tryMap h.ctx va.toNat pages.toNat a = .error e → exec (.mapPages h va pages a) ⟨p, c⟩ = .next ⟨p, c.done h e 0 0⟩ ∧ e = 0x0202)) ∧
    (∀ a : MapAttr, a.place.toNat ≤ 8 →
      (a.pair = false → a.pset ≠ 0 → exec (.mapPages h va pages a) ⟨p, c⟩ = .next ⟨p, c.done h 0x0102 50 0⟩) ∧
      ((a.pair = true ∨ a.pset = 0) → (rangeOk va.toNat pages.toNat = false ∨ ∃ vp ∈ vps, tget none (c.ctx h.ctx).pages vp ≠ none) →
        exec (.mapPages h va pages a) ⟨p, c⟩ = .next ⟨p, c.done h 0x0105 32 0⟩)) ∧
    (∀ (a : MapAttr) (c1 : Chip), a.place.toNat ≤ 8 → (a.pair = true ∨ a.pset = 0) → rangeOk va.toNat pages.toNat = true →
      (∀ vp ∈ vps, tget none (c.ctx h.ctx).pages vp = none) → c.tryMap h.ctx va.toNat pages.toNat a = .ok c1 → keeps (.mapPages h va pages a)) ∧
    (rangeOk va.toNat pages.toNat = true → (∀ vp ∈ vps, tget none (c.ctx h.ctx).pages vp ≠ none) → keeps (.unmapPages h va pages)) ∧
    (plain → rangeOk va.toNat pages.toNat = true → (∀ vp ∈ vps, tget none (c.ctx h.ctx).pages vp ≠ none) →
      ∃ c1 : Chip, exec (.unmapPages h va pages) ⟨p, c⟩ = .next ⟨p, c1.ok h 0⟩ ∧
        (Tab.wf ({} : Ctx) c.ctxs = true → Tab.wf none (c.ctx h.ctx).pages = true →
          (∀ vp ∈ vps, tget none (c1.ctx h.ctx).pages vp = none) ∧
          (∀ vp, vp ∉ vps → tget none (c1.ctx h.ctx).pages vp = tget none (c.ctx h.ctx).pages vp) ∧ ∀ k, k ≠ h.ctx → c1.ctx k = c.ctx k)) ∧
    ((rangeOk va.toNat pages.toNat = false ∨ ∃ vp ∈ vps, tget none (c.ctx h.ctx).pages vp = none) →
      exec (.unmapPages h va pages) ⟨p, c⟩ = .next ⟨p, c.done h 0x0105 32 0⟩) ∧
    (rangeOk va.toNat pages.toNat = true ↔ va.toNat % pageSize = 0 ∧ 1 ≤ pages.toNat ∧ va.toNat + pages.toNat * pageSize ≤ 2 ^ 48)

/-- MODEL_PIN sets the entry's PIN, MODEL_EVICT removes a resident model that is neither pinned nor used by an active stream
and refuses any other with 0x0205 (R283); GRANT maps a resident model's pages read-only into the grantee, at the same
distances from VA on, and makes it a holder of the model's key (R325).
It also states the model's own choices of log entries 50 and 73. -/
def Obligations.ModelPinEvictGrant : Prop :=
  ∀ (p : List Instr) (c : Chip) (h : Hdr) (model : W16) (i : Nat), c.modelSlot model = some i →
    (∀ pin : Bool, Taken c h false true →
      exec (.modelPin h model pin) ⟨p, c⟩ = .next ⟨p, (c.modModel i (fun m => { m with pin := pin })).ok h 0⟩) ∧
    (Taken c h false true → (c.model i).pin = false → c.modelActive model = false →
      exec (.modelEvict h model) ⟨p, c⟩ = .next ⟨p, (c.evict i).ok h 0⟩) ∧
    (Taken c h false true → ((c.model i).pin = true ∨ c.modelActive model = true) →
      exec (.modelEvict h model) ⟨p, c⟩ = .next ⟨p, c.done h 0x0205 0 0⟩) ∧
    (∀ (g : BitVec 10) (va : W64), Taken c h true true → va.toNat < 2 ^ 48 → va.toNat % pageSize = 0 → (c.ctx g.toNat).st ≠ .free →
      let ps := c.modelPages (c.model i)
      let place (vp : Nat) : Nat := va.toNat / pageSize + (vp - (ps.map (·.1)).headD 0)
      (∀ x ∈ ps, place x.1 < 2 ^ 27 ∧ tget none (c.ctx g.toNat).pages (place x.1) = none) →
      exec (.grantModel h model g va) ⟨p, c⟩ = .next ⟨p,
        ((c.modCtx g.toNat (fun x => { x with pages := ps.foldl (fun t y =>
            tput none t (place y.1) (some { y.2 with granted := true, attr := { y.2.attr with ro := true } })) x.pages })).modModel i
          (fun m => { m with grantees := if m.grantees.contains g.toNat then m.grantees else m.grantees ++ [g.toNat] })).ok h 0⟩)

/-- The bulk commands (kind E) carry their data out and end with a status: the run that waited for the data ends so, else the record is
posted. MODEL_LOAD (R283, R362): a reserved or resident model number and an image that fails a check change nothing; an image that
passes every check, with an empty entry and room, leaves its model in the lowest empty entry, whose number VALUE gives. IMP_LOAD
(R361): an image that passes every check and whose sections lie in pages of the context leaves its sections at their VAs and the image
under its HANDLE; one that fails a check, another HOME or a section outside load nothing. CHECKPOINT (R299, R300): with room the
whole image stands in host memory and VALUE counts its bytes, else 0x0206. CKPT_LOAD: an image that is no checkpoint changes nothing;
one whose PSETs lie in paired pages restores seed and configuration table and clears every ACTIVE bit. REPRINT (R303): a capture that
is not complete leaves result 3, and every readable one ends with status 0.
It also states the model's own choices of log entries 17, 45 and 50. -/
def Obligations.BulkCommands : Prop :=
  ∀ (p : List Instr) (c : Chip) (h : Hdr), (h.fn = 0 ∨ c.boundCtx h.fn = some h.ctx) → (c.ctx h.ctx).st ≠ .free →
    let n := h.ctx
    let ends (i : Instr) (r : Chip × EndStatus) : Prop :=
      (r.1.isHead h = true → exec i ⟨p, c⟩ = .next ⟨p, r.1.finish n r.2⟩) ∧ (r.1.isHead h = false → exec i ⟨p, c⟩ = .next ⟨p, r.1.postEnd h r.2⟩)
    (∀ (a : ModelLoadP) (img : List Byte), (a.srcPeer = true → a.addr.toNat < 2 ^ 48) →
      let fails (st : W16) (off : Nat) : Prop := ends (.modelLoad h a img) (c, { status := st, detail := BitVec.ofNat 32 off })
      (a.model = 0xFFFF → fails 0x0102 32) ∧
      (a.model ≠ 0xFFFF → (∀ i, c.modelSlot a.model = some i → fails 0x0105 32) ∧
        (c.modelSlot a.model = none →
          (∀ off, c.modelCheck n img a.bytes.toNat = some off → fails 0x0104 off) ∧
          (∀ (i : Nat) (c1 : Chip), c.modelCheck n img a.bytes.toNat = none → i < 16 → (c.model i).st = 0 → (∀ j, j < i → (c.model j).st ≠ 0) →
            (∀ s ∈ sectionsOf img, s.placed = true → s.isPaired = false → ∀ vp ∈ s.vps, tget none (c.ctx n).pages vp = none) →
            Chip.placeModel n a img i c = some c1 →
            (servingImage img = none → ends (.modelLoad h a img) (c1, { status := 0, value := BitVec.ofNat 32 i })) ∧
            (∀ c2, c1.serveImage n i img = some (.ok c2) → ends (.modelLoad h a img) (c2, { status := 0, value := BitVec.ofNat 32 i })) ∧
            (Tab.wf ({} : ModelEntry) c.serving.models = true →
              (c1.model i).model = a.model ∧ (c1.model i).pin = a.pin ∧ (c1.model i).owner = n ∧ (c1.model i).st = 2))))) ∧
    (∀ (a : ImpLoadP) (img : List Byte), a.va.toNat < 2 ^ 48 →
      let fails (st : W16) (off : Nat) : Prop := ends (.impLoad h a img) (c, { status := st, detail := BitVec.ofNat 32 off })
      (∀ off, impCheck img a.bytes.toNat = some off → fails 0x0104 off) ∧
      (impCheck img a.bytes.toNat = none →
        (imgNum img 24 8 ≠ a.va.toNat → fails 0x0104 24) ∧
        (imgNum img 24 8 = a.va.toNat →
          (∀ off, c.impTables n img = some off → fails 0x0104 off) ∧
          (c.impTables n img = none → c.homed n (sectionsOf img) = false → fails 0x0111 1) ∧
          (c.impTables n img = none → c.homed n (sectionsOf img) = true → ends (.impLoad h a img)
            ((c.copySections n img (sectionsOf img)).modCtx n
              (fun x => { x with handles := tput none x.handles a.handle.toNat (some (c.imageOf n img)) }), { status := 0 }))))) ∧
    (∀ ha avail : W64, let img := c.checkpointImage n
      (img.length ≤ avail.toNat → ends (.checkpoint h ha avail)
        ({ c with host := mwrite c.host ha.toNat img }, { status := 0, value := BitVec.ofNat 32 img.length })) ∧
      (avail.toNat < img.length → ends (.checkpoint h ha avail) (c, { status := 0x0206 }))) ∧
    (∀ (a : CkptLoadP) (img : List Byte),
      let f (k m : Nat) : Nat := leNat ((img.drop k).take m)
      let r := c.ckptLoadRun n a.bytes img
      ends (.ckptLoad h a img) r ∧
      (img.length ≠ a.bytes.toNat ∨ img.length < 16480 ∨ f 0 4 % 2 ^ 11 ≠ 0x511 → r = (c, { status := 0x0104 })) ∧
      (∀ rs, img.length = a.bytes.toNat → 16480 ≤ img.length → f 0 4 % 2 ^ 11 = 0x511 →
        ckptRecords (c.ctx n).psetOf (f 4 4) (img.drop 16480) = some rs →
        (∀ k, k < 256 → (ocfgOf (img.drop (96 + 64 * k))).valid = true → ocfgBad (ocfgOf (img.drop (96 + 64 * k))) = none) →
        (∀ y ∈ rs, ∀ z ∈ y.2.1.addrs.zip y.2.1.sizes, z.1 ≠ 0 → (c.ctx n).pairedRange y.1 z.1 z.2 = none) →
        r.2 = { status := 0 } ∧ (Tab.wf ({} : Ctx) c.ctxs = true →
          (r.1.ctx n).seed = BitVec.ofNat 128 (f 64 16) ∧ (r.1.ctx n).train.active = [] ∧ (r.1.ctx n).train.written = [] ∧
          ∀ k, k < 256 → tget default (r.1.ctx n).ocfg k = ocfgOf (img.drop (96 + 64 * k))))) ∧
    (∀ va : W64, va.toNat < 2 ^ 48 → let r := c.reprintRun n va
      ends (.reprint h va) r ∧
      (c.fetchVa n va.toNat 12288 = none → r = (c, { status := 0x0111, detail := 1 })) ∧
      (∀ hd, c.fetchVa n va.toNat 12288 = some hd → r.2.status = 0 ∧
        (leNat ((hd.drop 64).take 1) ≠ 2 → r.1 = c.modCtx n (fun x => { x with proof :=
          { x.proof with repFirst := 0, repMiss := 0, repResult := 3 } }))))

/-- The execute commands of the step and serve paths join their context's queue, behind what waits there, and an idle context
becomes ready (R307, R350). A start time that is zero or gone by becomes the take time plus 2 µs (R345).
It also states the model's own choices of log entries 14 and 22. -/
def Obligations.StepAndServeCommandsJoinTheQueue : Prop :=
  ∀ (p : List Instr) (c : Chip) (h : Hdr), Taken c h false true → (c.ctx h.ctx).execQ.length < 64 →
    let join (i : Instr) : Chip := c.modCtx h.ctx (fun x =>
      { x with execQ := x.execQ ++ [{ cmd := i }], st := if x.st = .idle then .ready else x.st })
    let at' (rt : W64) : W64 := if rt = 0 ∨ rt < c.now then c.now + 2000 else rt
    (∀ a : RunP, exec (.impRun h a) ⟨p, c⟩ = .next ⟨p, join (.impRun h { a with start := at' a.start })⟩) ∧
    (∀ (a : RunP) (k : W48), exec (.stepCmd h a k) ⟨p, c⟩ = .next ⟨p, join (.stepCmd h { a with start := at' a.start } k)⟩) ∧
    (∀ a : FillDrainP, exec (.fillDrain h a) ⟨p, c⟩ = .next ⟨p, join (.fillDrain h { a with start := at' a.start })⟩) ∧
    (∀ a : ServeP, (∀ k ∈ c.modelsOf h.ctx, a.decMax.toNat + 1 + a.pfMax.toNat ≤ (c.model k).hdr.decMaxArea) →
      exec (.serve h a) ⟨p, c⟩ = .next ⟨p, join (.serve h a)⟩)

/-- COMMIT and ABORT for a step that has completed complete at once, ABORT with VALUE 1; for a step that has not run yet they
are kept for its launch and complete with VALUE 0; a second one for the same step completes with 0x0105 (R351).
OCFG_SET stores an entry that Table 9.3 allows (R205), LS_SET an exponent of at most 32 with an interval of at least 100
and clears CLEAN (R219), GMODE_SET the gradient settings (R231), REPLICA_SET the vote's (R259): each completes with VALUE 0
and changes nothing else.
It also states the model's own choices of log entries 40 and 82. -/
def Obligations.CommitAbortAndTrainingSettings : Prop :=
  (∀ (p : List Instr) (c : Chip) (h : Hdr) (step : W48), Taken c h false true →
    let c1 := c.modCtx h.ctx (fun x => { x with acked := step :: x.acked })
    ((c.ctx h.ctx).acked.contains step = false → (c.ctx h.ctx).doneSteps.contains step = true →
      exec (.commitCmd h step) ⟨p, c⟩ = .next ⟨p, c1.ok h 0⟩ ∧ exec (.abortCmd h step) ⟨p, c⟩ = .next ⟨p, c1.ok h 1⟩) ∧
    ((c.ctx h.ctx).acked.contains step = false → (c.ctx h.ctx).doneSteps.contains step = false → (c.ctx h.ctx).run = none →
      exec (.commitCmd h step) ⟨p, c⟩ =
        .next ⟨p, (c1.modCtx h.ctx (fun x => { x with keptAcks := x.keptAcks ++ [(step, false)] })).ok h 0⟩ ∧
      exec (.abortCmd h step) ⟨p, c⟩ =
        .next ⟨p, (c1.modCtx h.ctx (fun x => { x with keptAcks := x.keptAcks ++ [(step, true)] })).ok h 0⟩) ∧
    ((c.ctx h.ctx).acked.contains step = true →
      exec (.commitCmd h step) ⟨p, c⟩ = .next ⟨p, c.done h 0x0105 32 0⟩ ∧ exec (.abortCmd h step) ⟨p, c⟩ = .next ⟨p, c.done h 0x0105 32 0⟩)) ∧
  (∀ (p : List Instr) (c : Chip) (h : Hdr), Taken c h false true →
    (∀ (k : Byte) (e : Ocfg), e.rule.toNat < 4 → e.rnd ≠ 3 → (e.wfmt = 2 ∨ e.wfmt = 3) → (e.wscl = 1 ∨ e.wscl = 2 ∨ e.wscl = 3 ∨ e.wscl = 5 ∨ e.wscl = 6 ∨ e.wscl = 7) →
      exec (.ocfgSet h k e) ⟨p, c⟩ = .next ⟨p, (c.modCtx h.ctx (fun x => { x with ocfg := tput default x.ocfg k.toNat e })).ok h 0⟩) ∧
    (∀ (e : BitVec 6) (n : W16), e.toNat ≤ 32 → 100 ≤ n.toNat → (c.ctx h.ctx).run = none →
      exec (.lsSet h e n) ⟨p, c⟩ =
        .next ⟨p, (c.modCtx h.ctx (fun x => { x with train := { x.train with exp := e, interval := n, clean := 0 } })).ok h 0⟩) ∧
    (∀ a : GmodeP, a.mib ≠ 0 → a.normBase.toNat % 16 = 0 →
      exec (.gmodeSet h a) ⟨p, c⟩ = .next ⟨p, (c.modCtx h.ctx (fun x => { x with train :=
        { x.train with nstart := a.nstart, latLimit := a.latLimit, noPerLayer := a.noPerLayer, mib := a.mib, maxNorm := a.maxNorm,
                       normBase := a.normBase } })).ok h 0⟩) ∧
    (∀ a : ReplicaP, a.shards ≠ 0 → a.stragSteps ≠ 0 → 1 ≤ a.stragMs.toNat → a.stragMs.toNat ≤ 10000 →
      exec (.replicaSet h a) ⟨p, c⟩ = .next ⟨p, ({ c with vote :=
        { c.vote with vgroup := a.vgroup, shards := a.shards, stragSteps := a.stragSteps, stragMs := a.stragMs } } : Chip).ok h 0⟩))

/-- PROOF_ARM arms a proof for the next COUNT steps with the PSETs its list names, and disarms with an empty list (R294);
CAPTURE_ARM arms a capture whose area holds the regions of Table 12.5 and sets CTX_CAP to armed (R301); PROOF_RECV registers a
receiver for its source in place of the last one, and BYTES 0 removes it (R297).
A shipment whose last byte has gone stands at its host address, its event 1 is posted and its pin ends once the event ring
has room (R295, R296, R348); a refused one ends with event 5. A receiver takes an image that fits, stores it and posts event 4;
without a registration for its source, or too small a one, it sends a refusal and stores nothing (R297).
It also states the model's own choices of log entries 44, 45 and 46. -/
def Obligations.ProofCommandsAndShipments : Prop :=
  (∀ (p : List Instr) (c : Chip) (h : Hdr), Taken c h false true →
    let x := c.ctx h.ctx
    (∀ (a : ProofArmP) (l : List Nat), a.n ≠ 0 → (a.destPeer = true → a.addr.toNat < 2 ^ 48) → a.psetCount.toNat ≤ 4096 → a.psetCount ≠ 0 →
      c.psetList h.ctx a.psetVa.toNat a.psetCount.toNat = some l →
      exec (.proofArm h a) ⟨p, c⟩ =
        .next ⟨p, (c.modCtx h.ctx (fun x => { x with proof := { x.proof with arm := some { p := a, psets := l } } })).ok h 0⟩) ∧
    (∀ a : ProofArmP, a.n ≠ 0 → (a.destPeer = true → a.addr.toNat < 2 ^ 48) → a.psetCount = 0 →
      exec (.proofArm h a) ⟨p, c⟩ = .next ⟨p, (c.modCtx h.ctx (fun x => { x with proof := { x.proof with arm := none } })).ok h 0⟩) ∧
    (∀ (a : CaptureP) (l : List Nat), a.psetCount.toNat ≤ 64 → a.tokCount.toNat < 2 ^ 46 →
      c.psetList h.ctx a.psetVa.toNat a.psetCount.toNat = some l → (∀ ps ∈ l, (x.psetOf ps).p ≠ 0) →
      x.plainRange true a.areaVa.toNat a.areaBytes.toNat = true →
      (capRegions a.tokCount.toNat (l.map x.psetOf)).total ≤ a.areaBytes.toNat →
      exec (.captureArm h a) ⟨p, c⟩ = .next ⟨p, ((c.modCtx h.ctx (fun x => { x with proof :=
        { x.proof with capture := some { p := a, psets := l }, capStep := a.step, capPsets := 0, capState := 1 } })).capHeader
          h.ctx { p := a, psets := l } 0 0).ok h 0⟩) ∧
    (∀ a : ProofRecvP, let rest := x.proof.recv.filter (fun r => decide (r.source ≠ a.source))
      (a.bytes = 0 → exec (.proofRecv h a) ⟨p, c⟩ =
        .next ⟨p, (c.modCtx h.ctx (fun x => { x with proof := { x.proof with recv := rest } })).ok h 0⟩) ∧
      (a.bytes ≠ 0 → (x.oring a.evRing.toNat).set = true → (x.oring a.evRing.toNat).kind = true →
        (a.destVa = true → a.addr.toNat < 2 ^ 48 ∧ x.plainRange false a.addr.toNat a.bytes.toNat = true) →
        exec (.proofRecv h a) ⟨p, c⟩ =
          .next ⟨p, (c.modCtx h.ctx (fun x => { x with proof := { x.proof with recv := rest ++ [a] } })).ok h 0⟩))) ∧
  (∀ (p : List Instr) (c : Chip) (n : Nat) (s : Shipment), (c.ctx n).proof.ship = some s → s.endCode = 0 →
    let ended (c : Chip) (code : Nat) : Chip :=
      (c.modCtx n (fun x => { x with proof := { x.proof with ship := some { s with endCode := code } } })).tryShipEnd n
    (s.p.destPeer = false → exec (.proofShipmentDone n) ⟨p, c⟩ =
      .next ⟨p, ended { c with host := mwrite c.host s.p.addr.toNat s.image } 1⟩) ∧
    (s.p.destPeer = true → exec (.proofShipmentDone n) ⟨p, c⟩ =
      .next ⟨p, ended (c.send 3 s.p.peer.toNat (leBytes 2 s.p.peerCtx.toNat ++ s.image)) 1⟩) ∧
    exec (.proofRefused n) ⟨p, c⟩ = .next ⟨p, ended c 5⟩ ∧
    (∀ (m : Nat) (src : BitVec 10) (img : List Byte),
      (∀ r ∈ (c.ctx m).proof.recv, r.source ≠ src) →
      exec (.proofReceive src m img) ⟨p, c⟩ = .next ⟨p, c.send 4 src.toNat (leBytes 2 m)⟩) ∧
    (∀ (m : Nat) (src : BitVec 10) (img : List Byte) (r : ProofRecvP),
      (c.ctx m).proof.recv.find? (fun r => decide (r.source = src)) = some r →
      (r.bytes.toNat < img.length → exec (.proofReceive src m img) ⟨p, c⟩ = .next ⟨p, c.send 4 src.toNat (leBytes 2 m)⟩) ∧
      (img.length ≤ r.bytes.toNat → r.destVa = false → exec (.proofReceive src m img) ⟨p, c⟩ =
        .next ⟨p, ({ c with host := mwrite c.host r.addr.toNat img } : Chip).output m r.evRing.toNat
          (eventRecord 4 (leNat ((img.drop 8).take 6)) c.now.toNat)⟩)))

/-- STREAM_OPEN makes the lowest free entry of the Stream Table a prefilling stream of the context, zeroes its block table and
completes with its index (R265, R269); with every entry in use it completes with 0x0203. STREAM_CLOSE, STREAM_PARK and
STREAM_UNPARK of a stream of the context wait for the next serve-step boundary (R277); STREAM_QUERY writes the 64 bytes of the
entry; a stream that is not the context's completes with 0x0104. STOPSET_SET stores a well-formed stop set at its place.
It also states the model's own choices of log entries 51 and 52. -/
def Obligations.StreamCommands : Prop :=
  ∀ (p : List Instr) (c : Chip) (h : Hdr), Taken c h false true →
    (∀ (a : StreamOpenP) (k i : Nat), a.prompt ≠ 0 → a.prompt.toNat ≤ a.maxLen.toNat → a.tokLog.toNat % 256 = 0 →
      c.modelSlot a.model = some k → (c.model k).serves = true → a.sclass.toNat < (c.model k).hdr.sclasses →
      a.btab.toNat % 256 = 0 → (c.ctx h.ctx).plainRange false a.btab.toNat ((openEntry a h.ctx).tableBytes (c.model k).hdr) = true →
      ((c.entry i).st = .free → i < 65536 → (∀ j, j < i → (c.entry j).st ≠ .free) →
        exec (.streamOpen h a) ⟨p, c⟩ = .next ⟨p,
          ((c.fwStore h.ctx a.btab.toNat (List.replicate ((openEntry a h.ctx).tableBytes (c.model k).hdr) 0)).modEntry i
            (fun x => { openEntry a h.ctx with gen := x.gen })).ok h (BitVec.ofNat 32 i)⟩) ∧
      ((∀ j, j < 65536 → (c.entry j).st ≠ .free) → exec (.streamOpen h a) ⟨p, c⟩ = .next ⟨p, c.done h 0x0203 0 0⟩)) ∧
    (∀ k : W16, (c.entry k.toNat).st ≠ .free → (c.entry k.toNat).ctx.toNat = h.ctx →
      let join (i : Instr) : Chip := c.modCtx h.ctx (fun x => { x with streamReqs := x.streamReqs ++ [(i, (c.entry k.toNat).gen)] })
      exec (.streamClose h k) ⟨p, c⟩ = .next ⟨p, join (.streamClose h k)⟩ ∧
      exec (.streamPark h k) ⟨p, c⟩ = .next ⟨p, join (.streamPark h k)⟩ ∧
      exec (.streamUnpark h k) ⟨p, c⟩ = .next ⟨p, join (.streamUnpark h k)⟩ ∧
      ∀ ha : W64, exec (.streamQuery h k ha) ⟨p, c⟩ =
        .next ⟨p, ({ c with host := mwrite c.host ha.toNat (c.entry k.toNat).bytes } : Chip).ok h 64⟩) ∧
    (∀ (k : W16) (ha : W64), (c.entry k.toNat).st = .free ∨ (c.entry k.toNat).ctx.toNat ≠ h.ctx →
      exec (.streamClose h k) ⟨p, c⟩ = .next ⟨p, c.done h 0x0104 0 0⟩ ∧ exec (.streamPark h k) ⟨p, c⟩ = .next ⟨p, c.done h 0x0104 0 0⟩ ∧
      exec (.streamUnpark h k) ⟨p, c⟩ = .next ⟨p, c.done h 0x0104 0 0⟩ ∧ exec (.streamQuery h k ha) ⟨p, c⟩ = .next ⟨p, c.done h 0x0104 0 0⟩) ∧
    (∀ (k : W16) (va : W64) (data : List Byte) (c1 : Chip), va.toNat < 2 ^ 48 → k ≠ 0xFFFF → stopsetBad data = none →
      c.writeVa h.ctx (va.toNat + 192 * k.toNat) data = (c1, none) →
      exec (.stopsetSet h k va data) ⟨p, c⟩ =
        .next ⟨p, (c1.modCtx h.ctx (fun x => { x with stopVa := some (va.extractLsb' 0 48) })).ok h 0⟩)

/-- PART_SET of resources that clash with no other partition's, on a partition without a running command and with no overlay
waiting, takes effect at once (R309, R427); a clash completes with 0x0101.
LOCK_ACQUIRE of a lock nobody waits for is granted at once when it is free, with 0x0020 where it is poisoned, and waits
while it is held, by beat of arrival and then by context number (R322, R323); LOCK_RELEASE by the holder frees it, and by
another context completes with 0x0103.
It also states the model's own choices of log entries 39 and 49. -/
def Obligations.PartitionSetAndLocks : Prop :=
  (∀ (p : List Instr) (c : Chip) (h : Hdr) (a : PartSetP), Taken c h true true → partRange a = none → Tab.wf ({} : Partition) c.parts = true →
    (c.partConflict a = false → (c.part a.part.toNat).waitSet = none → c.partBusy a.part.toNat = false → c.boot.ovlWait = [] →
      ∃ c1 : Chip, exec (.partSet h a) ⟨p, c⟩ = .next ⟨p, c1.ok h 0⟩ ∧
        c1.part a.part.toNat = { c.part a.part.toNat with
          sliceMs := a.sliceMs, killLimit := a.killLimit, tagBase := a.tagBase, tagCnt := a.tagCnt, semBase := a.semBase, semCnt := a.semCnt,
          ptW := a.ptW, ptE := a.ptE, te := a.te, uu := a.uu, su := a.su, share := a.share, waitSet := none } ∧
        (∀ q, q ≠ a.part.toNat → c1.part q = c.part q) ∧ { c1 with parts := c.parts } = c) ∧
    (c.partConflict a = true → exec (.partSet h a) ⟨p, c⟩ = .next ⟨p, c.done h 0x0101 0 0⟩)) ∧
  (∀ (p : List Instr) (c : Chip) (h : Hdr) (k : Byte), Taken c h false true → Tab.wf ({} : Lock) c.locks = true →
    let l := tget {} c.locks k.toNat
    (l.held = false → l.waiters = [] → ∃ c1 : Chip,
      exec (.lockAcquire h k) ⟨p, c⟩ = .next ⟨p, c1.done h (if l.poisoned then 0x0020 else 0) 0 0⟩ ∧
      tget {} c1.locks k.toNat = ({ held := true, owner := h.ctx } : Lock) ∧ (∀ j, j ≠ k.toNat → tget {} c1.locks j = tget {} c.locks j) ∧
      { c1 with locks := c.locks } = c) ∧
    (l.held = true → exec (.lockAcquire h k) ⟨p, c⟩ =
      .next ⟨p, { c with locks := tput {} c.locks k.toNat { l with waiters := insertBy waitsBefore (c.w.beats, h) l.waiters } }⟩) ∧
    (l.held = true → l.owner = h.ctx →
      let c1 : Chip := { c with locks := tput {} c.locks k.toNat { l with held := false, owner := 0 } }
      exec (.lockRelease h k) ⟨p, c⟩ = .next ⟨p, (c1.grantNext k.toNat).ok h 0⟩ ∧
      (l.waiters = [] → c1.grantNext k.toNat = c1)) ∧
    (l.held = false ∨ l.owner ≠ h.ctx → exec (.lockRelease h k) ⟨p, c⟩ = .next ⟨p, c.done h 0x0103 0 0⟩))

/-- The commands on the module. ORING_SET puts an output ring in use as the command describes it, with both indices zero (R348).
DOMAIN_SET takes the identity and the Ridge source, its root and backup (R232, R391); SRC 3 completes with 0x0102. OVERLAY_APPLY (R353,
R392) of a good overlay while no command runs applies its records and its number at once; with a command running it waits; a bad overlay
completes with 0x0104, a reserved number with 0x0102. POWER_LIMIT sets the limit from 600 to 1,500 W and ends a sprint with SPRINT 0
(R364, R371). TELEMETRY_READ writes the entries of a block that the function may read and that the block has, clears their counters when
it is asked to, and VALUE counts the bytes (R354, R355). DEBUG_UNLOCK writes a challenge of 32 bytes, and takes the keyed digest of a live
challenge; where unlocking is shut, and for any other response, it completes with 0x0604 (R403).
It also states the model's own choices of log entries 48, 60, 67 and 68. -/
def Obligations.ModuleCommands : Prop :=
  ∀ (p : List Instr) (c : Chip) (h : Hdr),
    (∀ a : OringP, (h.fn = 0 ∨ c.boundCtx h.fn = some h.ctx) → (c.ctx h.ctx).st ≠ .free →
      let r := a.ring.toNat
      let c1 := c.modCtx h.ctx (fun x => { x with orings := tmod {} x.orings r (fun g =>
          { set := true, kind := a.kind, log2 := a.log2, vector := a.vector, ha := a.ha, wb := a.wb, delayed := g.delayed }) })
      exec (.oringSet h a) ⟨p, c⟩ = .next ⟨p, ((c1.drainOring h.ctx r).tryShipEnd h.ctx).ok h 0⟩ ∧
      (Tab.wf ({} : Ctx) c.ctxs = true → Tab.wf ({} : Oring) (c.ctx h.ctx).orings = true →
        let g := (c1.ctx h.ctx).oring r
        g.set = true ∧ g.head = 0 ∧ g.tail = 0 ∧ g.kind = a.kind ∧ g.log2 = a.log2 ∧ g.ha = a.ha ∧ g.wb = a.wb ∧ g.vector = a.vector ∧
        (∀ k, k ≠ r → (c1.ctx h.ctx).oring k = (c.ctx h.ctx).oring k) ∧
        (((c.ctx h.ctx).oring r).delayed = [] → (c.ctx h.ctx).proof.ship = none →
          exec (.oringSet h a) ⟨p, c⟩ = .next ⟨p, c1.ok h 0⟩))) ∧
    (∀ a : DomainP, h.fn = 0 → (c.ctx h.ctx).st ≠ .free →
      (a.src = 3 → exec (.domainSet h a) ⟨p, c⟩ = .next ⟨p, c.done h 0x0102 40 0⟩) ∧
      (a.src ≠ 3 → domainBad a = none →
        exec (.domainSet h a) ⟨p, c⟩ = .next ⟨p, (c.setDomain a).ok h 0⟩ ∧
        (c.setDomain a).domain = { moduleId := a.moduleId, dx := a.dx, dy := a.dy, dz := a.dz, epoch := a.epoch, set := true,
                                   routes := (c.setDomain a).domain.routes } ∧
        (c.setDomain a).ridge.root = a.root ∧ (c.setDomain a).ridge.backup = a.backup ∧
        (c.setDomain a).ridge.src = if a.src = 1 ∧ a.moduleId = a.root then 0 else a.src)) ∧
    (∀ (ovl : BitVec 5) (ha : W64) (img : List Byte), h.fn = 0 → (c.ctx h.ctx).st ≠ .free →
      let bs := if ha = 0 then tget [] c.boot.overlays ovl.toNat else img
      (ovl.toNat ≤ 5 → overlayOk ovl.toNat bs = true → c.boot.ovlWait = [] →
        (c.busy = false → exec (.overlayApply h ovl ha img) ⟨p, c⟩ = .next ⟨p, (c.applyOverlay ovl.toNat bs).ok h 0⟩ ∧
          (ovl.toNat < 5 → (c.applyOverlay ovl.toNat bs).boot.mode = ovl.toNat) ∧
          (ovl.toNat = 5 → (c.applyOverlay ovl.toNat bs).boot.ovl5 = true)) ∧
        (c.busy = true → exec (.overlayApply h ovl ha img) ⟨p, c⟩ =
          .next ⟨p, { c with boot := { c.boot with ovlWait := [(some h, ovl.toNat, bs)] } }⟩)) ∧
      (ovl.toNat ≤ 5 → overlayOk ovl.toNat bs = false → exec (.overlayApply h ovl ha img) ⟨p, c⟩ = .next ⟨p, c.done h 0x0104 0 0⟩) ∧
      (5 < ovl.toNat → ovl ≠ 0x15 → exec (.overlayApply h ovl ha img) ⟨p, c⟩ = .next ⟨p, c.done h 0x0102 32 0⟩)) ∧
    (∀ (watts : W16) (sprint : Bool), h.fn = 0 → (c.ctx h.ctx).st ≠ .free →
      (600 ≤ watts.toNat → watts.toNat ≤ 1500 →
        let c1 : Chip := { c with pwr := { c.pwr with limit := watts, sprintEn := sprint } }
        exec (.powerLimit h watts sprint) ⟨p, c⟩ = .next ⟨p, (if sprint then c1 else c1.endSprint).ok h 0⟩ ∧
        (c1.endSprint.pwr.sprinting = false ∧ c1.endSprint.pwr.limit = watts)) ∧
      (watts.toNat < 600 ∨ 1500 < watts.toNat → exec (.powerLimit h watts sprint) ⟨p, c⟩ = .next ⟨p, c.done h 0x0105 32 0⟩)) ∧
    (∀ (a : TelemetryP) (size : Nat), (h.fn = 0 ∨ c.boundCtx h.fn = some h.ctx) → (c.ctx h.ctx).st ≠ .free → telemetrySize a.block.toNat = some size →
      (h.fn ≠ 0 → 6 < a.block.toNat → exec (.telemetryRead h a) ⟨p, c⟩ = .next ⟨p, c.done h 0x0603 0 0⟩) ∧
      ((h.fn = 0 ∨ a.block.toNat ≤ 6) → a.first.toNat + a.count.toNat ≤ size →
        let idx := (List.range a.count.toNat).map (· + a.first.toNat)
        let bs := idx.flatMap (fun i => c.telemetryEntry h.ctx a.block.toNat a.die i)
        let c1 : Chip := { c with host := mwrite c.host a.ha.toNat bs }
        (a.clear = false → exec (.telemetryRead h a) ⟨p, c⟩ = .next ⟨p, c1.ok h (BitVec.ofNat 32 bs.length)⟩) ∧
        (a.clear = true → exec (.telemetryRead h a) ⟨p, c⟩ =
          .next ⟨p, (idx.foldl (fun (k : Chip) i => k.telemetryClear h.ctx a.block.toNat i) c1).ok h (BitVec.ofNat 32 bs.length)⟩))) ∧
    (∀ (ha : W64) (resp : List Byte), h.fn = 0 → (c.ctx h.ctx).st ≠ .free →
      let shut := c.boot.dbgKey = 0 ∨ c.port.fails = 3
      let refused : Chip := { c with port := { c.port with result := 3 } }
      let good := hmac (leBytes 32 c.boot.dbgKey.toNat) c.port.challenge
      (shut → exec (.debugUnlock h false ha resp) ⟨p, c⟩ = .next ⟨p, refused.done h 0x0604 0 0⟩) ∧
      (¬shut → ∃ c1 : Chip, exec (.debugUnlock h false ha resp) ⟨p, c⟩ = .next ⟨p, c1.ok h 0⟩ ∧ c1.port.challenge.length = 32 ∧
        c1.port.chalTime = c.now ∧ c1.port.unlocked = c.port.unlocked ∧ (c.host.wf = true → mread c1.host ha.toNat 32 = c1.port.challenge)) ∧
      ((shut ∨ c.challengeLive = false) → exec (.debugUnlock h true ha resp) ⟨p, c⟩ =
        .next ⟨p, ({ c with port := { c.port with result := 3, challenge := [] } } : Chip).done h 0x0604 0 0⟩) ∧
      (¬shut → c.challengeLive = true → resp = good → exec (.debugUnlock h true ha resp) ⟨p, c⟩ =
        .next ⟨p, ({ c with port := { c.port with result := 2, challenge := [], unlocked := true } } : Chip).done h 0 0 0⟩) ∧
      (¬shut → c.challengeLive = true → resp ≠ good → exec (.debugUnlock h true ha resp) ⟨p, c⟩ =
        .next ⟨p, ({ c with port := { c.port with result := 3, challenge := [], fails := c.port.fails + 1 } } : Chip).done h 0x0604 0 0⟩))

/-- Ring registers written from the host (R332, R336 to R338, R348): DOORBELL stores TAIL after the host's own stores, and a
TAIL at or above the ring's size stops a ring in use with ERR and BADOFF the slot at HEAD; RING_ENABLE from 0 to 1 zeroes the
indices of both rings; a new HEAD of a completion or output ring lets its waiting records out; a VF's access to a page of
another context changes nothing but the host's stores.
It also states the model's own choices of log entry 64. -/
def Obligations.RingRegisters : Prop :=
  ∀ (p : List Instr) (c : Chip) (fn ctx ring : Nat),
    (∀ (n : Nat) (tail : W32) (stores : List (Nat × Byte)), c.pageOf fn ctx = some n → ring < 8 →
      Tab.wf ({} : Ctx) c.ctxs = true → Tab.wf ({} : Ring) (c.ctx n).rings = true →
      let c1 : Chip := { c with host := stores.foldl (fun (m : Memory) (x : Nat × Byte) => mput m x.1 x.2) c.host }
      ∃ c2 : Chip, exec (.doorbell fn ctx ring tail stores) ⟨p, c⟩ = .next ⟨p, c2⟩ ∧ c2.host = c1.host ∧
        (tail.toNat < (c.ring n ring).slots → c2.ring n ring = { c.ring n ring with tail := tail }) ∧
        ((c.ring n ring).slots ≤ tail.toNat → (c.ring n ring).enable = true → (c.ring n ring).stopped = false →
          c2.ring n ring = { c.ring n ring with
            tail := tail, stopped := true, err := true, badoff := BitVec.ofNat 8 (c.ring n ring).head.toNat }) ∧
        ∀ m r, m ≠ n ∨ r ≠ ring → c2.ring m r = c.ring m r) ∧
    (∀ (n : Nat) (v : W32), c.pageOf fn ctx = some n → ring < 8 →
      exec (.ringEnable fn ctx ring v) ⟨p, c⟩ =
        .next ⟨p, ((c.modRing n ring (fun r => r.control v.toNat)).drainRing n ring).tryShipEnd n⟩ ∧
      (bit v.toNat 0 = true → (c.ring n ring).enable = false →
        let g := (c.ring n ring).control v.toNat
        g.enable = true ∧ g.head = 0 ∧ g.tail = 0 ∧ g.cplHead = 0 ∧ g.cplTail = 0 ∧ g.stopped = false)) ∧
    (∀ (n : Nat) (v : W32), c.pageOf fn ctx = some n → ring < 8 → exec (.cplHeadWrite fn ctx ring v) ⟨p, c⟩ =
      .next ⟨p, (c.modRing n ring (fun r => { r with cplHead := v })).drainRing n ring⟩) ∧
    (∀ (n : Nat) (v : W32), c.pageOf fn ctx = some n → ring < 256 → exec (.oringHeadWrite fn ctx ring v) ⟨p, c⟩ =
      .next ⟨p, ((c.modCtx n (fun x => { x with orings := tmod {} x.orings ring (fun g => { g with head := v }) })).drainOring
        n ring).tryShipEnd n⟩) ∧
    (∀ v : W32, c.pageOf fn ctx = none →
      exec (.ringEnable fn ctx ring v) ⟨p, c⟩ = .next ⟨p, c⟩ ∧ exec (.cplHeadWrite fn ctx ring v) ⟨p, c⟩ = .next ⟨p, c⟩ ∧
      exec (.oringHeadWrite fn ctx ring v) ⟨p, c⟩ = .next ⟨p, c⟩ ∧ exec (.doorbell fn ctx ring v []) ⟨p, c⟩ = .next ⟨p, c⟩) ∧
    (fn = 0 → ctx < 1024 → c.pageOf fn ctx = some ctx) ∧ (fn ≠ 0 → c.pageOf fn ctx = c.boundCtx fn)

/-- Commands leave the rings and run (R336, R345, R346, R350). PACKET_TAKE takes from the ring after the one last taken from
when it has a packet that is no fenced one; FENCE_RELEASE takes the fenced packet once no command it waits for is outstanding;
EXECUTE_QUEUE_START starts the head of the queue of the context that holds its partition; COMMAND_COMPLETE posts the record of
a run that has ended, takes its command off the queue and leaves the context idle when that was the last.
It also states the model's own choices of log entries 15, 16, 18, 19 and 27. -/
def Obligations.CommandsAreTakenAndRun : Prop :=
  ∀ (p : List Instr) (c : Chip) (n : Nat),
    (∀ r, r = ((c.ctx n).ringLast + 1) % 8 → c.taking = true → c.ringReady n r = true → (c.ring n r).fenceOn = none → c.fenced n r = false →
      exec (.packetTake n) ⟨p, c⟩ = .next ⟨p, c.takeAt n r⟩) ∧
    (∀ (r : Nat) (l : List Hdr), (c.ring n r).fenceOn = some l → c.taking = true → c.ringReady n r = true →
      ((∀ h ∈ l, h ∉ c.outstanding n) → exec (.fenceRelease n r) ⟨p, c⟩ = .next ⟨p, c.takeAt n r⟩) ∧
      ((∃ h ∈ l, h ∈ c.outstanding n) → exec (.fenceRelease n r) ⟨p, c⟩ = .next ⟨p, c⟩)) ∧
    (∀ (y : ExecCmd) (t : List ExecCmd), (c.ctx n).execQ = y :: t → c.canStart n = true →
      exec (.executeQueueStart n) ⟨p, c⟩ = .next ⟨p,
        ((((c.trySprint.setStream .w (c.ctx n).part none).setStream .e (c.ctx n).part none).modCtx n
          (fun k => { k with sliceStart := some (k.sliceStart.getD c.now) })).startCmd n y.cmd)⟩) ∧
    (∀ (r : Run) (e : EndStatus) (y : ExecCmd) (t : List ExecCmd), (c.ctx n).run = some r → (c.ctx n).execQ = y :: t →
      c.ended n = some e → r.heldKill = none → e.status ≠ 0x0701 →
      ∃ c1 : Chip, exec (.commandComplete n) ⟨p, c⟩ = .next ⟨p, c1.settlePart (c.ctx n).part⟩ ∧
        (c1.ctx n).run = none ∧ (c1.ctx n).execQ = t ∧ (t = [] → (c1.ctx n).st = .idle) ∧ (t ≠ [] → (c1.ctx n).st = (c.ctx n).st) ∧
        c1 = (c.postEnd (cmdHdr y.cmd) e).modCtx n
          (fun k => { k with run := none, held := false, execQ := t, st := if t.isEmpty then .idle else k.st }))

/-! ### Imposition streams (chapter 5) -/

/-- The control operations of Table 5.8 on a stream that may issue: the sheet issues, the next one stands three units of 16 bytes on
and issues no earlier than D beats later, D = 0 counted as 1 (R121), then NOP does nothing more, LDCNT loads a counter, LOOP counts down and branches while the
counter is not zero, JUMP branches, WAIT, WAITU and RWAIT make the stream wait, SIGNAL adds to a pair, STEP sets or advances the
step register, COMMIT does nothing outside a step and in one issues the die's COMMIT, HALT halts, TRAP raises trap cause 0x0E with its CODE.
A zero count, a second COMMIT, a REGION of zero, or a pair or tag outside the partition's ranges raises its trap before
the sheet issues: cause 0x07 for the first three (Table 5.9), 0x14 for a range (R311).
It also states the model's own choices of log entries 31 and 34. -/
def Obligations.ControlSlots : Prop :=
  (∀ (p : List Instr) (c : Chip) (k : Ctl) (s : Stream), StreamIssues c k.die k.part s →
    let d := k.die
    let q := k.part
    let off := (c.imp d q).pc
    let b := c.ctlBase d q k.delay.toNat (off + 3)
    (Tab.wf none (c.die d).streams = true → Tab.wf ({} : Ctx) c.ctxs = true →
      b.stream d q = some { s with delay := max k.delay.toNat 1, begun := true, wait := .none, met := false, seen := false, skipBp := false,
                                   lastPc := off } ∧ b.imp d q = { c.imp d q with pc := off + 3, waitKind := 0, state := 1 }) ∧
    exec (.ctrlNop k) ⟨p, c⟩ = .next ⟨p, b⟩ ∧
    (∀ (i : BitVec 3) (v : W32), exec (.ldcnt k i v) ⟨p, c⟩ =
      .next ⟨p, b.modStream d q (fun s => { s with cnt := tput 0 s.cnt i.toNat v })⟩) ∧
    (∀ (i : BitVec 3) (t : BitVec 24),
      (tget 0 s.cnt i.toNat = 0 → exec (.loop k i t) ⟨p, c⟩ = .next ⟨p, b⟩) ∧
      (tget 0 s.cnt i.toNat ≠ 0 → exec (.loop k i t) ⟨p, c⟩ =
        .next ⟨p, (b.modStream d q (fun x => { x with cnt := tput 0 x.cnt i.toNat (tget 0 s.cnt i.toNat - 1) })).modImp d q
          (fun x => { x with pc := branchTo off t })⟩)) ∧
    (∀ t : BitVec 24, exec (.jump k t) ⟨p, c⟩ = .next ⟨p, b.modImp d q (fun x => { x with pc := branchTo off t })⟩) ∧
    (∀ (i : BitVec 12) (half : Bool) (n : W16) (to' : BitVec 20), n ≠ 0 → c.semOk q i.toNat = true →
      exec (.wait k i half n to') ⟨p, c⟩ =
        .next ⟨p, (b.setWait d q (.wait i half n (if to' = 0 then none else some (c.ridgeOf d + to'.zeroExtend 64 * 1000)))).modStream d q
          (fun s => { s with met := c.semHas d (c.pair q i.toNat) half n.toNat })⟩) ∧
    (∀ cls : BitVec 7, exec (.waitu k cls) ⟨p, c⟩ = .next ⟨p, b.setWait d q (.waitu cls)⟩) ∧
    (∀ t : W64, exec (.rwait k t) ⟨p, c⟩ = .next ⟨p, b.setWait d q (.rwait t)⟩) ∧
    (∀ (i : BitVec 12) (half x : Bool) (n : W16), n ≠ 0 → c.semOk q i.toNat = true →
      exec (.signal k i half x n) ⟨p, c⟩ = .next ⟨p, b.signal d q i.toNat half x n.toNat (b.knownTo (b.ctxOf d q) (.stream d))⟩) ∧
    (∀ (add : Bool) (v : W48), exec (.ctrlStep k add v) ⟨p, c⟩ =
      .next ⟨p, b.modImp d q (fun x => { x with step := if add then x.step + v else v })⟩) ∧
    ((c.ctx s.ctx).inStep = false → c.commitIssued (c.ctxOf d q) d = false → exec (.ctrlCommit k) ⟨p, c⟩ = .next ⟨p, b⟩) ∧
    (∀ r, (c.ctx s.ctx).run = some r → r.isStep = true → r.pastCommit = false → (match d with | .w => r.issuedW | .e => r.issuedE) = false →
      exec (.ctrlCommit k) ⟨p, c⟩ = .next ⟨p, b.ctlCommit d q⟩ ∧
      (Tab.wf ({} : Ctx) c.ctxs = true → ∃ r', ((b.ctlCommit d q).ctx s.ctx).run = some r' ∧
        (match d with | .w => r'.issuedW | .e => r'.issuedE) = true)) ∧
    exec (.halt k) ⟨p, c⟩ = .next ⟨p, b.modStream d q (fun s => { s with halted := true })⟩ ∧
    (∀ code : W16, exec (.ctrlTrap k code) ⟨p, c⟩ = .next ⟨p, c.raiseTrap d q 126 0x0E code.toNat off⟩)) ∧
  (∀ (p : List Instr) (c : Chip) (k : Ctl) (s : Stream), StreamIssues c k.die k.part s →
    let trap (cause : Nat) : Chip := c.raiseTrap k.die k.part 126 cause 0 (c.imp k.die k.part).pc
    (∀ (i : BitVec 12) (half x : Bool) (to' : BitVec 20),
      exec (.wait k i half 0 to') ⟨p, c⟩ = .next ⟨p, trap 0x07⟩ ∧ exec (.signal k i half x 0) ⟨p, c⟩ = .next ⟨p, trap 0x07⟩) ∧
    (∀ (i : BitVec 12) (half x : Bool) (n : W16) (to' : BitVec 20), n ≠ 0 → c.semOk k.part i.toNat = false →
      exec (.wait k i half n to') ⟨p, c⟩ = .next ⟨p, trap 0x14⟩ ∧ exec (.signal k i half x n) ⟨p, c⟩ = .next ⟨p, trap 0x14⟩) ∧
    (∀ t : W16, exec (.widen k t 0) ⟨p, c⟩ = .next ⟨p, trap 0x07⟩) ∧
    (∀ t r : W16, r ≠ 0 → c.tagOk k.part t.toNat = false → exec (.widen k t r) ⟨p, c⟩ = .next ⟨p, trap 0x14⟩) ∧
    (c.commitIssued (c.ctxOf k.die k.part) k.die = true → exec (.ctrlCommit k) ⟨p, c⟩ = .next ⟨p, trap 0x07⟩))

/-- WIDEN (R76): where the clip share of the tag reaches its threshold the branch is taken: the region's sheets run, the tag's
widen bit is set and its COUNT gains one; else the region is skipped by the LEN of its sheets, and one that leaves the sheet section
traps with cause 0x0D (R121). Either way the window of R376
counts one execution.
It also states the model's own choices of log entry 43. -/
def Obligations.WidenBranch : Prop :=
  ∀ (p : List Instr) (c : Chip) (k : Ctl) (s : Stream) (tag region : W16), StreamIssues c k.die k.part s → region ≠ 0 →
    c.tagOk k.part tag.toNat = true →
    let d := k.die
    let q := k.part
    let off := (c.imp d q).pc
    let b := c.ctlBase d q k.delay.toNat (off + 3)
    let w : WidenEntry := tget {} (c.side s.ctx d).widen (tag.toNat % 4096)
    let put (f : WidenEntry → WidenEntry) : Chip :=
      b.modSide s.ctx d (fun x => { x with widen := tmod {} x.widen (tag.toNat % 4096) f })
    (w.takes = true → exec (.widen k tag region) ⟨p, c⟩ = .next ⟨p, put (fun k =>
      { k with widened := true, count := satAdd k.count 1, execs := k.execs + 1, taken := k.taken + 1 })⟩) ∧
    (w.takes = false → ∀ o, (put (fun k => { k with execs := k.execs + 1 })).skipRegion s.ctx s.image region.toNat (off + 3) = .ok o →
      exec (.widen k tag region) ⟨p, c⟩ =
        .next ⟨p, (put (fun k => { k with execs := k.execs + 1 })).modImp d q (fun x => { x with pc := o })⟩) ∧
    (w.takes = false → ∀ o, (put (fun k => { k with execs := k.execs + 1 })).skipRegion s.ctx s.image region.toNat (off + 3) = .error o →
      exec (.widen k tag region) ⟨p, c⟩ = .next ⟨p, (put (fun k => { k with execs := k.execs + 1 })).raiseTrap d q 127 0x0D 0 o⟩) ∧
    (w.takes = true ↔ w.enable = true ∧ w.thresh.toNat * w.decConv < w.decClip * 2 ^ 24)

/-- A beat boundary ends the beat in progress and, on a die that is neither halted nor asked to halt, begins the next one: it stops what
was told to stop, and issues (R124, R135, R157). With HALT set or halted and no step left the die stands still from this boundary on,
while it stands no beat ends (R398); each step of a halted die begins one beat, which the next boundary ends; and with the press
clocks off there is no boundary (R373).
Events of a stream: a block of the sheet section that lies in the window around the next sheet and can be read joins the buffer (R135), one
that cannot be read is a mid-stream fault at position 127 (R156), one outside the window changes nothing; a halted stream whose ops have all completed stops and shows state 3 (R123); a WAIT not
met by its deadline traps with cause 0x0F (R131); a trap or fault of the other die that arrives stops the stream at its die's next
boundary (R136); a trap raised at a slot position is a stream trap there, of the sheet the op in progress came from.
It also states the model's own choices of log entries 31, 32, 59 and 78. -/
def Obligations.BeatsAndStreamEvents : Prop :=
  (∀ (p : List Instr) (c : Chip) (d : Die),
    let g := (c.die d).dbg
    let c0 := if g.frozen then c else c.closeBeat d
    let stands : Chip := c0.modDie d (fun m => { m with dbg := { m.dbg with halted := true, frozen := true } })
    (c.pressOn = true → g.halted = false → g.halt = false → exec (.beatBoundary d) ⟨p, c⟩ = .next ⟨p, (c0.runBeat d).showHalt d⟩) ∧
    (c.pressOn = true → g.stepsLeft = 0 → (g.halt = true ∨ g.halted = true) → exec (.beatBoundary d) ⟨p, c⟩ = .next ⟨p, stands.showHalt d⟩ ∧
      (stands.die d).dbg.halted = true ∧ ∀ u : UnitRef, u.die = d → slotClass u.pos ≠ .thatch →
        (stands.ctx (stands.ctxOf d u.part)).killHeld = false → stands.clockStopped u = true) ∧
    (c.pressOn = true → g.halted = true → g.stepsLeft ≠ 0 → exec (.beatBoundary d) ⟨p, c⟩ =
      .next ⟨p, ((c0.modDie d (fun m => { m with dbg := m.dbg.stepTaken })).runBeat d).showHalt d⟩) ∧
    (c.pressOn = false → exec (.beatBoundary d) ⟨p, c⟩ = .next ⟨p, c⟩) ∧
    (c.pressOn = true ↔ c.pwr.railsOn = true ∧ c.boot.phase ≠ 9)) ∧
  (∀ (p : List Instr) (c : Chip) (d : Die) (q : Nat) (s : Stream), c.stream d q = some s →
    (∀ b, s.stopped = false → b * 4096 < s.image.sheetSize →
      let lo := b * 4096
      let len := min 4096 (s.image.sheetSize - lo)
      let k := max 1 (c.die d).running
      let pc := (c.imp d q).pc.toNat * 16
      let near := lo < pc + 393216 / k ∧ pc - 131072 / k < lo + len
      (near → ∀ (c1 : Chip) (bs : List Byte), c.readVa s.ctx (s.image.sheetVa.toNat + lo) len = (c1, .ok bs) →
        ∃ f : Stream → Stream, exec (.sheetFetch d q b) ⟨p, c⟩ = .next ⟨p, c1.modStream d q f⟩ ∧
          (∀ x, f x = { x with image := (f x).image, bufLo := (f x).bufLo, bufHi := (f x).bufHi }) ∧
          (s.bufLo = s.bufHi → pc - 131072 / k ≤ lo → lo + len ≤ pc + 393216 / k → (f s).bufLo = lo ∧ (f s).bufHi = lo + len)) ∧
      (near → ∀ (c1 : Chip) (f : AccFault), c.readVa s.ctx (s.image.sheetVa.toNat + lo) len = (c1, .error f) →
        exec (.sheetFetch d q b) ⟨p, c⟩ = .next ⟨p, c.midFault d q 127 0 0 f⟩) ∧
      (¬near → exec (.sheetFetch d q b) ⟨p, c⟩ = .next ⟨p, c⟩)) ∧
    (s.halted = true → s.stopped = false → s.allIdle = true → exec (.streamHalted d q) ⟨p, c⟩ =
      .next ⟨p, ((c.modStream d q (fun s => { s with stopped := true, units := [], wait := .none })).modImp d q
        (fun i => { i with state := 3, waitKind := 0 })).afterHalt s.ctx⟩) ∧
    (∀ (i : BitVec 12) (half : Bool) (n : W16) (t : W64), s.wait = .wait i half n (some t) → s.stopped = false → t < c.ridgeOf d → s.met = false →
      exec (.waitTimeout d q) ⟨p, c⟩ = .next ⟨p, c.raiseTrap d q 126 0x0F 0 s.lastPc⟩) ∧
    (∀ t, s.trapComing = some t → s.stopped = false → exec (.trapArrival d q) ⟨p, c⟩ =
      .next ⟨p, c.modStream d q (fun s => { s with trapDue := true })⟩) ∧
    (∀ (pos : Nat) (cause : Byte) (code : W16), let u : UnitRef := { die := d, part := q, pos := pos }
      (c.op u = none → exec (.streamTrap u cause code) ⟨p, c⟩ = .next ⟨p, c.raiseTrap d q pos cause.toNat code.toNat (c.imp d q).pc⟩) ∧
      (∀ o, c.op u = some o → exec (.streamTrap u cause code) ⟨p, c⟩ = .next ⟨p, c.raiseTrap d q pos cause.toNat code.toNat o.e.pc⟩)))

/-! ### Ops, lists and links (chapters 5 and 6) -/

/-- Completions, of ops of a stream that no trap has reached, in a beat of its die: a NOP's is recorded with no action (R120); an op whose work is done
completes, a thatch op's completion being recorded later and every other one's at once (R133), while a platen that holds issue keeps its
tile open (R83), a die that stands still under a halt completes nothing but the work of thatch ops (R398), and the completion of a thatch op makes the rows it filled in its stack's logits ring readable (R107). A recorded
completion of an op with more executions to come adds its signal after what it touched is kept (R132, R150); the oldest signal on its way
to a die is added there (R133).
It also states the model's own choices of log entries 59, 76, 77, 79, 93 and 94. -/
def Obligations.OpCompletions : Prop :=
  (∀ (p : List Instr) (c : Chip) (u : UnitRef) (o : Op), c.op u = some o → (∀ s, c.stream u.die u.part = some s → s.trapDue = false) →
    (o.e.opc = 0 → o.recorded = false → c.noBeat u.die u.part = false → exec (.slotNop u) ⟨p, c⟩ = .next ⟨p, c.recordOp u⟩) ∧
    (o.worked = true → o.completed = false →
      (slotClass u.pos ≠ .thatch → ¬(u.pos < 64 ∧ o.e.opc = 1 ∧ (c.platen u.die u.pos).hold = true) → c.noBeat u.die u.part = false →
        exec (.opCompletion u) ⟨p, c⟩ = .next ⟨p, c.recordOp u⟩) ∧
      (slotClass u.pos ≠ .thatch → c.noBeat u.die u.part = true → exec (.opCompletion u) ⟨p, c⟩ = .next ⟨p, c⟩) ∧
      (u.pos < 64 → o.e.opc = 1 → (c.platen u.die u.pos).hold = true → exec (.opCompletion u) ⟨p, c⟩ = .next ⟨p, c⟩) ∧
      (slotClass u.pos = .thatch → ∃ c1 : Chip, exec (.opCompletion u) ⟨p, c⟩ = .next ⟨p, c1.modOp u (fun o => { o with completed := true })⟩ ∧
        c1 = { c with stks := c1.stks } ∧ (Tab.wf ({} : StackSt) c.stks = true → ∀ k, c1.stk k =
          if k = stackOfTe u.die (u.pos - 64) then { c.stk k with logits := (c.stk k).logits.map (fun e =>
            if e.writer = some u.pos then { e with writer := none, readable := decide (e.len ≤ e.scores.length) } else e) } else c.stk k))) ∧
    (slotClass u.pos = .thatch → o.completed = true → o.recorded = false → c.noBeat u.die u.part = false →
      exec (.thatchCompletionRecord u) ⟨p, c⟩ = .next ⟨p, c.recordOp u⟩) ∧
    (o.fin = none → (o.descs.getD []).all (fun ws => !(descOf ws).lvalid) = true → o.e.i < o.e.rep →
      let n := c.ctxOf u.die u.part
      let c1 := (c.modOp u (fun o => { o with worked := true, completed := true, recorded := true })).keepWrites n u o
      let ids := c1.opKnows u
      let c2 := (c1.learn n (.unit u.die u.pos) ids).learn n (.cls u.die (slotClass u.pos).index) ids
      c.recordOp u = if slotSig o.e.slot.toNat then
          c2.signal u.die u.part (slotSem o.e.slot.toNat) (slotHalf o.e.slot.toNat) (slotXdie o.e.slot.toNat) 1 ids
        else c2)) ∧
  (∀ (p : List Instr) (c : Chip) (d : Die) (x : CrossSig) (t : List CrossSig), (c.die d).cross = x :: t → exec (.crossDieSignal d) ⟨p, c⟩ =
    .next ⟨p, (c.modDie d (fun m => { m with cross := t })).semSignal d (c.pair x.part x.pair.toNat) x.half x.count x.knows⟩)

/-- A signal adds its count to one half of a pair, saturating at 65,535, and leaves the other half and every other pair of the
die alone, where nobody waits on the half; a take takes exactly its count (R149). A signal across the link waits on its way, behind those
before it, and changes no pair until it is recorded (R133).
It also states the model's own choices of log entries 84 and 93. -/
def Obligations.SemaphoreAddAndTake : Prop :=
  ∀ (c : Chip) (d : Die) (pair n : Nat) (half : Bool), Tab.wf ({} : Sem) (c.die d).sems = true →
    let s := (c.die d).sem pair
    let s' := ((c.semAdd d pair half n).die d).sem pair
    let t' := ((c.semTake d pair half n).die d).sem pair
    (s'.half half).toNat = min 65535 ((s.half half).toNat + n) ∧ s'.half (!half) = s.half (!half) ∧
    (∀ k, k ≠ pair → ((c.semAdd d pair half n).die d).sem k = (c.die d).sem k) ∧
    ((c.semAdd d pair half n).die d.other).sems = (c.die d.other).sems ∧
    (c.waiters d pair half = [] → ∀ ids, ((c.semSignal d pair half n ids).die d).sems = ((c.semAdd d pair half n).die d).sems) ∧
    (∀ (q i : Nat) (ids : List Nat), let t := c.signal d.other q i half true n ids
      (t.die d).cross = (c.die d).cross ++ [{ part := q, pair := BitVec.ofNat 12 i, half := half, count := n, knows := ids }] ∧
      ∀ m, (t.die m).sems = (c.die m).sems) ∧
    (c.semHas d pair half n = true → (t'.half half).toNat + n = (s.half half).toNat ∧ t'.half (!half) = s.half (!half) ∧
      (∀ k, k ≠ pair → ((c.semTake d pair half n).die d).sem k = (c.die d).sem k)) ∧
    (c.semHas d pair half n = true ↔ n ≤ (s.half half).toNat)

/-- Lists and links, on a stream that has not stopped. A list that reads and checks is held by the op in progress, or where that op
has its list by the entry at the head of the queue, with the page selectors of the fetch; a list of no descriptor traps with cause 0x07 and a
rule that the list breaks with the cause of that rule; an address that is no multiple of 64 and memory that cannot be read are a
mid-stream fault (R138, R143, R144). A linked descriptor takes its count before the first access, from the empty half for a destination and
the full half for an operand: with enough in the half the link is taken, exactly the count goes and the op waits no longer; else the take
waits at the half and so does the op (R148, R150). The clip factor of a deferred UPDATE is the link of its last descriptor, taken while
the entry waits at the head of its queue (R224).
It also states the model's own choices of log entries 33 and 76. -/
def Obligations.ListsAndLinks : Prop :=
  (∀ (p : List Instr) (c : Chip) (u : UnitRef) (s : Stream), c.stream u.die u.part = some s → s.stopped = false →
    let fetches (e : Entry) (held : Chip → List (List W64) → List Nat → List Nat → List Out → Chip) : Prop :=
      (∀ (c1 : Chip) (dl : List (List W64)) (ws ds : List Nat) (os : List Out), c.fetchList u e = (c1, .ok dl ws ds os) →
        exec (.listFetch u) ⟨p, c⟩ = .next ⟨p, (held c1 dl ws ds os).feed u⟩ ∧
        (64 ≤ u.pos → (held c1 dl ws ds os).feed u = held c1 dl ws ds os)) ∧
      (∀ (c1 : Chip) (cause : Nat), c.fetchList u e = (c1, .trap cause) →
        exec (.listFetch u) ⟨p, c⟩ = .next ⟨p, c1.raiseTrap u.die u.part u.pos cause 0 e.pc⟩) ∧
      (∀ (c1 : Chip) (k : Nat) (f : AccFault), c.fetchList u e = (c1, .fault k f) →
        exec (.listFetch u) ⟨p, c⟩ = .next ⟨p, c1.midFault u.die u.part u.pos k e.dlist f⟩) ∧
      (let t := (tget 0 s.image.dlists e.dlist : W64).toNat
       (bits t 57 48 = 0 → exec (.listFetch u) ⟨p, c⟩ = .next ⟨p, c.raiseTrap u.die u.part u.pos 0x07 0 e.pc⟩) ∧
       (bits t 57 48 ≠ 0 → bits t 47 0 % 64 ≠ 0 →
         exec (.listFetch u) ⟨p, c⟩ = .next ⟨p, c.midFault u.die u.part u.pos 0 e.dlist (af (bits t 47 0))⟩))
    (∀ o, c.op u = some o → o.e.noList u.pos = false → o.descs = none →
      fetches o.e (fun c1 dl ws ds os => c1.modOp u (fun o =>
        { o with descs := some dl, view := some { sel := (c1.ctx s.ctx).train.active }, wides := ws, dests := ds, outs := os }))) ∧
    (∀ (e : Entry) (t : List Entry), (s.unit u.pos).queue = e :: t → e.noList u.pos = false → e.descs = none →
      (∀ o, c.op u = some o → o.e.noList u.pos = true ∨ o.descs ≠ none) →
      fetches e (fun c1 dl ws ds os => c1.modStream u.die u.part (fun s => s.modUnit u.pos (fun k =>
        { k with queue := { e with descs := some dl, view := some { sel := (c1.ctx s.ctx).train.active }, wides := ws, dests := ds, outs := os } :: t }))))) ∧
  (∀ (p : List Instr) (c : Chip) (u : UnitRef) (s : Stream) (i : Nat) (ws : List W64), c.stream u.die u.part = some s → (descOf ws).lvalid = true →
    let g := descOf ws
    let d := if g.lxdie then u.die.other else u.die
    let pr := c.pair u.part g.lpair
    let ask (dest ahead : Bool) : Ask := { u := u, desc := i, pair := pr, empty := dest, n := g.lcount, ahead := ahead }
    let c0 (dest ahead : Bool) : Chip := c.modDie d (fun m => { m with asks := m.asks.erase (ask dest ahead) })
    let taken (dest ahead : Bool) : Chip :=
      ((((c0 dest ahead).turn d pr dest ((c0 dest ahead).contested d pr dest g.lcount) (unitRequester d u)).granted d (.link (ask dest ahead))).semTake
        d pr dest g.lcount).feed u
    let asks (dest ahead : Bool) : Chip := (c0 dest ahead).modDie d (fun m => { m with asks := m.asks ++ [ask dest ahead] })
    (∀ o, (s.unit u.pos).op = some o → (o.descs.getD [])[i]? = some ws → o.links.contains i = false → o.worked = false →
      let dest := o.dests.contains i
      (c.semHas d pr dest g.lcount = true → exec (.linkTake u i) ⟨p, c⟩ = .next ⟨p, taken dest false⟩ ∧
        (∃ o', (taken dest false).op u = some o' ∧ o'.links = o.links ++ [i] ∧ o'.waiting = false) ∧
        (Tab.wf ({} : Sem) (c.die d).sems = true → ∀ k, ((taken dest false).die d).sem k =
          if k = pr then ((c.die d).sem pr).setHalf dest (((c.die d).sem pr).half dest - BitVec.ofNat 16 g.lcount) else (c.die d).sem k)) ∧
      (c.semHas d pr dest g.lcount = false → exec (.linkTake u i) ⟨p, c⟩ = .next ⟨p, (asks dest false).opWaits u⟩)) ∧
    (∀ (e : Entry) (t : List Entry) (dl : List (List W64)), slotClass u.pos = .update → (s.unit u.pos).op = none → (s.unit u.pos).queue = e :: t →
      e.deferred u.pos = true → e.descs = some dl → dl[i]? = some ws → i + 1 = dl.length → e.links.contains i = false →
      (c.semHas d pr false g.lcount = true → exec (.clipFactorReady u) ⟨p, c⟩ = .next ⟨p, taken false true⟩ ∧
        exec (.linkTake u i) ⟨p, c⟩ = .next ⟨p, taken false true⟩ ∧
        ∃ s', (taken false true).stream u.die u.part = some s' ∧ ∃ e', (s'.unit u.pos).queue = e' :: t ∧ e'.links = e.links ++ [i] ∧
          e'.mayStart u.pos = true) ∧
      (c.semHas d pr false g.lcount = false → exec (.clipFactorReady u) ⟨p, c⟩ = .next ⟨p, asks false true⟩)))

/-! ### Tiles, selection, the Gutter, updates (chapters 3, 4, 8, 9) -/

/-- A TILE on a platen that does not hold issue or on a thatch engine, once its list is fetched and its links are taken, and while no page
that it writes is being copied: bytes it races for with other ops become free bytes (R132); then with its operands, the
parameter block of a loss, VOCAB or ROUTE tile and its static scales read, it does its work; operands that cannot be read are a
mid-stream fault of their descriptor (R156), a platen that holds issue does nothing yet (R83). The work of a plain tile is the product of
header and operands by the path of R45, the epilogue, and, row by row, the conversion and the write of its destination (R77); its flags and
counts are raised and it has then done its work in the cycles of R65 and R89. A VOCAB or ROUTE tile whose logits ring has no room for its
rows waits (R107), and so does a loss tile whose packets are not all in the Gutter.
RBCLR writes +0 over the range its first descriptor names, row by row, and has then done its work (R120).
It also states the model's own choices of log entries 36, 76 and 77. -/
def Obligations.TileWork : Prop :=
  (∀ (p : List Instr) (c : Chip) (u : UnitRef) (o : Op) (s : Stream), OpReady c u o 1 → c.stream u.die u.part = some s → c.blocked u o = false →
    let dl := o.descs.getD []
    let ds := viewList dl o.wides
    let t := o.e.tileSlot u.pos
    let h := tileHdr (dl.getD 0 [])
    let cr := c.raceBytes u o.id o.outs (o.ins u.pos)
    let runs (c' : Chip) : Prop :=
      (slotClass u.pos = .platen → (c.platen u.die u.pos).hold = false → exec (.platenTile u) ⟨p, c⟩ = .next ⟨p, c'⟩) ∧
      (slotClass u.pos = .thatch → exec (.thatchTile u) ⟨p, c⟩ = .next ⟨p, c'⟩)
    (∀ (c1 c2 c3 : Chip) (a w : Tensor) (side : SideOps) (bs : List Byte) (static : Option Tensor),
      cr.readTile u t ds = (c1, .ok (a, w, side)) →
      (t.loss = false ∧ t.vocab = false ∧ t.route = false ∧ c2 = c1 ∧ bs = [] ∨
        (t.loss = true ∨ t.vocab = true ∨ t.route = true) ∧
          let g9 := ds.getD (ds.findIdx (fun g => decide (g.role = 9))) default
          c1.readSpace u 9 g9.space g9.addr 64 = (c2, .ok bs)) →
      (static = none ∧ c3 = c2 ∧ (∀ g, findRole ds 3 = some g → g.sstat = true → t.wide = true) ∨
        ∃ g scs, findRole ds 3 = some g ∧ g.sstat = true ∧ t.wide = false ∧ static = some { g := g, rows := [], scs := scs } ∧
          c2.readRuns u 3 g.space false g.scaleRuns [] = (c3, .ok scs)) →
      runs (c3.tileWork u o s t h ds a w side static (wordsOf bs))) ∧
    (∀ (c1 : Chip) (i : Nat) (f : AccFault),
      cr.readTile u t ds = (c1, .error (i, f)) → runs (c1.opFault u i f)) ∧
    (∀ (c1 : Chip) (a w : Tensor) (side : SideOps) (static : Option Tensor) (ws : List W64),
      let rows := if t.stream then t.t else h.rows
      let e := epiRows t h side (formeTile a w t.dq t.cmp rows h.cols h.k) (epiLanes (c1.ctx s.ctx).seed 1 t.maskTile o.step.toNat)
      let q := pairsPerPass a.g.fmt w.g.fmt
      let cyc := if t.stream then streamCycles h.cols h.k rows q (fmtWidth w.g.fmt) w.g.group
        else stationaryCycles t rows h.k q (epiCycles t ((findRole ds 3).map (destForm t)) (lossBlock ws).phase)
      (t.loss = false → t.vocab = false → t.route = false → t.rbm = 0 → ∀ g, findRole ds 3 = some g →
        ((destForm t g).scaled = true → (destForm t g).ext0 % (destForm t g).group = 0) →
        let run := e.1.zipIdx.foldl (fun (r : TileRun) (x : List FlW32 × Nat) =>
            r.destRow u (roleIdx ds 3) (destForm t g) static t.rnd x.2 (x.1.map (fun (v : FlW32) => v.1)))
          { c := c1, lanes := epiLanes (c1.ctx s.ctx).seed 0 t.tile o.step.toNat, f := rowsFlags e.1 }
        (run.fail = none → c1.tileWork u o s t h ds a w side static ws =
          (((run.c.raiseFlags u.die (raiseOrder u.pos) s.ctx o.e.tag run.f run.clip run.conv).modCtx s.ctx (fun x =>
            { x with proof := (x.proof.laneOver 0 t.tile run.lanes).laneOver 1 t.maskTile e.2 })).opDone u cyc).drained u) ∧
        (∀ b, run.fail = some b → c1.tileWork u o s t h ds a w side static ws = run.c.opFault u b.1 b.2)) ∧
      (∀ g, t.vocab = true → t.route = false → findRole ds 3 = some g →
        (∃ r, r < e.1.length ∧ ringAdmits (c1.stk (stackOfTe u.die (u.pos - 64))).logits
          ((ringPlace s.image u g).2.1 + r) (ringPlace s.image u g).2.2 u.part = false) →
        c1.tileWork u o s t h ds a w side static ws = c1.opWaits u) ∧
      (t.loss = true → t.vocab = false → t.route = false →
        (c1.die u.die).gut.readRows u.part (lossBlock ws).tokBase (List.range rows) [] = .error .wait →
        c1.tileWork u o s t h ds a w side static ws = c1.opWaits u))) ∧
  (∀ (p : List Instr) (c : Chip) (u : UnitRef) (o : Op), OpReady c u o 2 → slotClass u.pos = .platen →
    let g := descOf ((o.descs.getD []).getD 0 [])
    let run := (List.range g.ext1).foldl (fun (r : TileRun) j => r.initRow u 0 g j (List.replicate g.ext0 0)) { c := c, lanes := [] }
    (run.fail = none → exec (.rbclr u) ⟨p, c⟩ = .next ⟨p, run.c.opDone u (ceilDiv (g.ext0 * g.ext1 * 4) 2048)⟩) ∧
    (∀ e, run.fail = some e → exec (.rbclr u) ⟨p, c⟩ = .next ⟨p, run.c.opFault u e.1 e.2⟩))

/-- T2 codes and E8M0 scale codes. T2 codes read as Table 2.2 defines, 0b10 as zero with BADCODE, and whatever is converted to T2
is written as 0b00, 0b01 or 0b11 (R33). An E8M0 scale code c up to 0xFE has the value 2^(c - 127); 0xFF is NaN, every element of its
group reads as NaN, and the read sets NAN (R41). -/
def Obligations.TernaryAndScaleCodes : Prop :=
  elemVal 1 0 = (.fin ⟨0, 0⟩, {}) ∧ elemVal 1 1 = (.fin ⟨1, 0⟩, {}) ∧ elemVal 1 2 = (.fin ⟨0, 0⟩, { badcode := true }) ∧
  elemVal 1 3 = (.fin ⟨-1, 0⟩, {}) ∧
  (∀ (mode : Rnd) (x s : Val), (convert 1 mode x s).1 = 0 ∨ (convert 1 mode x s).1 = 1 ∨ (convert 1 mode x s).1 = 3) ∧
  (∀ (sf : Bool) (modes : List Rnd) (xs : List Val), ∀ k ∈ (convertDyn 1 sf modes xs).2.1, k.1 = 0 ∨ k.1 = 1 ∨ k.1 = 3) ∧
  (∀ c : Byte, c ≠ 0xFF → scaleVal false c = (.fin ⟨1, (c.toNat : Int) - 127⟩, {})) ∧
  scaleVal false 0xFF = (.nan, { nan := true }) ∧
  (∀ e : Val × Flags, (scaled e (scaleVal false 0xFF)).1 = .nan ∧ (scaled e (scaleVal false 0xFF)).2.nan = true)

/-- SELECT, once its list is fetched and while no page that it writes is being copied, reads its parameter block and, unless it merges
records, its scores, makes one record for each row (R176 to R179), raises their flags and has then done its work. A stack's selection unit
turns the oldest readable row of its logits ring that is its own into a record and frees the ring entry: for ROUTE the record goes to its
place in the shared store; else it asks the Gutter of the destination die for credit: with credit it goes onto the stack's lane, without it
the ring entry stays (R104, R107, R180, R182). With no such row the unit does nothing.
It also states the model's own choices of log entries 35 and 36. -/
def Obligations.SelectAndStackSelection : Prop :=
  ∀ (p : List Instr) (c : Chip),
    (∀ (u : UnitRef) (o : Op), OpReady c u o 1 → slotClass u.pos = .selection → c.blocked u o = false →
      let ds := viewList (o.descs.getD []) o.wides
      let gi := ds.getD 1 default
      let cr := c.raceBytes u o.id o.outs (o.ins u.pos)
      ∀ (c1 : Chip) (bs : List Byte), cr.readSpace u 9 (ds.getD 0 default).space (ds.getD 0 default).addr 64 = (c1, .ok bs) →
        let q := selParams (wordsOf bs)
        let n := cr.ctxOf u.die u.part
        ∀ (c2 : Chip) (t : Option Tensor),
          ((q.src = true ∨ gi.ext1 = 0) ∧ c2 = c1 ∧ t = none) ∨
            (q.src = false ∧ gi.ext1 ≠ 0 ∧ ∃ x, c1.readTensor u gi = (c2, .ok x) ∧ t = some x) →
          ∀ (c3 : Chip) (f : Flags) (cyc : Nat),
            c2.selRows u o q gi (ds.getD 2 default) t (cr.ctx n).seed (List.range gi.ext1) {} 0 = (c3, .ok (f, cyc)) →
            exec (.select u) ⟨p, c⟩ = .next ⟨p, (c3.raiseFlags u.die (raiseOrder u.pos) n o.e.tag f 0 0).opDone u cyc⟩) ∧
    (∀ (stack unit : Nat) (e : LogitsEntry), nextEntry unit (c.stk stack).logits = some e →
      let q := selParams e.params
      let x := selTop q (scoreInput q (e.scores.map (fun z => (z, {})))) q.k e.part e.row
      let sent (c : Chip) : Chip := (c.modStk stack (fun k => { k with logits := k.logits.erase e })).raiseFlags
        (if stack < 4 then .w else .e) (stackRaiseOrder stack unit) e.ctx e.tag.toNat x.2 0 0
      let a := (c.die q.dest).gut.ask stack x.1
      let c1 := c.modDie q.dest (fun m => { m with gut := a.2 })
      (e.route = true → exec (.stackSelection stack unit) ⟨p, c⟩ = .next ⟨p, { sent c with
        sharedMem := mwrite c.sharedMem (sharedKey stack e.dest) (x.1.bytes x.1.entries.length q.k) }⟩) ∧
      (e.route = false → a.1 = true → exec (.stackSelection stack unit) ⟨p, c⟩ = .next ⟨p, (sent c1).modDie q.dest (fun m =>
        { m with gut := { m.gut with lanes := tmod [] m.gut.lanes stack (· ++ [x.1]) } })⟩) ∧
      (e.route = false → a.1 = false → exec (.stackSelection stack unit) ⟨p, c⟩ = .next ⟨p, c1⟩)) ∧
    (∀ (stack unit : Nat), nextEntry unit (c.stk stack).logits = none → exec (.stackSelection stack unit) ⟨p, c⟩ = .next ⟨p, c⟩)

/-- The Gutter (R183, R187): OPEN, once its list is fetched, opens the range of its slot and source block, whose tokens are released ones no
more. An arriving record of a stack that is accepted leaves its lane and joins its token's merge entry, and the packet is stored when
every expected record is there; a record of another module is accepted when the open range names its group and the merge stage gives
credit. On a die that stands still under a halt no record arrives (R398). RELEASE frees the packets of its range and has then done its work.
Freed packets (R187): after RELEASE no packet of the range is stored, its tokens count as released, every other packet stands as before,
and the count of freed packets never falls.
It also states the model's own choices of log entries 36 and 59. -/
def Obligations.GutterOps : Prop :=
  (∀ (p : List Instr) (c : Chip),
    (∀ (u : UnitRef) (o : Op) (c1 : Chip) (bs : List Byte), OpReady c u o 1 → u.pos = 116 →
      tget none (c.die u.die).gut.ranges u.part = none →
      c.readSpace u 9 (descOf ((o.descs.getD []).getD 0 [])).space (descOf ((o.descs.getD []).getD 0 [])).addr 64 = (c1, .ok bs) →
      let w0 := wordOf (wordsOf bs) 0
      let r : OpenRange :=
        { first := BitVec.ofNat 32 o.e.token, count := gutCount o.e.slot.toNat, k := gutK o.e.slot.toNat, tag := BitVec.ofNat 16 o.e.tag,
          stks := BitVec.ofNat 8 (bits w0 7 0), remote := bits w0 11 8, group := bits w0 23 12 }
      exec (.gutOpen u) ⟨p, c⟩ = .next ⟨p, c1.modDie u.die (fun m => { m with gut := { m.gut with
        ranges := tput none m.gut.ranges u.part (some r)
        released := tfilter (fun k _ => !(decide (k / 2 ^ 32 = u.part) && r.covers (k % 2 ^ 32))) m.gut.released } })⟩) ∧
    (∀ (u : UnitRef) (o : Op), c.op u = some o → o.worked = false → u.pos = 116 → o.e.opc = 2 → c.clockStopped u = false →
      exec (.gutRelease u) ⟨p, c⟩ = .next ⟨p, (c.modDie u.die (fun m =>
        { m with gut := m.gut.free true u.part o.e.token (gutCount o.e.slot.toNat) })).opDone u 0⟩) ∧
    (∀ (d : Die) (src : Nat) (x : SelRecord) (r : OpenRange), src ≠ 8 → (c.die d).dbg.frozen = false →
      let g := (c.die d).gut
      (laneHeads (tget [] g.lanes src)).find? (g.accepts src) = some x → tget none g.ranges x.part.toNat = some r →
      let recs := g.records x.part.toNat x.token.toNat ++ [(src, x)]
      let c1 := (c.modDie d (fun m => { m with gut :=
        { m.gut with lanes := tput [] m.gut.lanes src ((tget [] g.lanes src).erase x)
                     merge := tput none m.gut.merge (gutKey x.part.toNat x.token.toNat) (some { records := recs }) } })).modOp
        (openUnit d x.part.toNat) (fun o => { o with busy := true })
      exec (.gutterRecordArrival d src) ⟨p, c⟩ =
        .next ⟨p, if r.complete recs then c1.storePacket d x.part.toNat x.token.toNat r recs else c1⟩ ∧
      (r.complete recs = true → kMismatch r recs = false →
        ((c1.storePacket d x.part.toNat x.token.toNat r recs).die d).gut.packets =
          tput none g.packets (gutKey x.part.toNat x.token.toNat) (some (mergePacket r x.token.toNat recs).1))) ∧
    (∀ (d : Die) (x : Nat × SelRecord),
      let g := (c.die d).gut
      (c.die d).dbg.frozen = false → (remoteHeads g.remote).find? g.acceptsRemote = some x →
      let a := g.ask 8 x.2
      (a.1 = true → exec (.gutterRecordArrival d 8) ⟨p, c⟩ =
        .next ⟨p, (c.modDie d (fun m => { m with gut := { a.2 with remote := g.remote.erase x } })).recordTaken d 8 x.2⟩) ∧
      (a.1 = false → exec (.gutterRecordArrival d 8) ⟨p, c⟩ = .next ⟨p, c.modDie d (fun m => { m with gut := a.2 })⟩)) ∧
    (∀ (d : Die) (src : Nat), (c.die d).dbg.frozen = true → exec (.gutterRecordArrival d src) ⟨p, c⟩ = .next ⟨p, c⟩)) ∧
  (∀ (g : Gutter) (mark : Bool) (part first count : Nat), first + count ≤ 2 ^ 32 → Tab.wf (none : Option Packet) g.packets = true →
    Tab.wf false g.released = true →
    let g' := g.free mark part first count
    (∀ i, i < count → tget none g'.packets (gutKey part (first + i)) = none ∧
      (mark = true → tget false g'.released (gutKey part (first + i)) = true)) ∧
    (∀ k, (∀ i, i < count → k ≠ gutKey part (first + i)) → tget none g'.packets k = tget none g.packets k ∧
      tget false g'.released k = tget false g.released k) ∧
    (mark = false → g'.released = g.released) ∧
    g.freed.toNat ≤ g'.freed.toNat ∧ g'.merge = g.merge ∧ g'.ranges = g.ranges)

/-- UPDATE (R202, R203, R207, R214 to R216, R296), once its list is fetched and while no page that it writes is being copied, works with the
page selectors its list was fetched under. Outside a run, or as a skip, it only passes its set by, in 8 press cycles; it is a skip when it
started as one, and when it has waited and COMMITTABLE is clear. Of a PSET pinned by a shipment it waits and CTX_PROOF shows HELD. A second
one of the same PSET in a step traps with cause 0x12; else it runs once, and its PSET counts as updated.
It also states the model's own choices of log entries 47 and 77. -/
def Obligations.UpdateOp : Prop :=
  (∀ (p : List Instr) (c c1 : Chip) (u : UnitRef) (o : Op) (bs : List Byte), OpReady c u o 1 → slotClass u.pos = .update → c.blocked u o = false →
    let ds := viewList (o.descs.getD []) o.wides
    let n := c.ctxOf u.die u.part
    (c.raceBytes u o.id o.outs (o.ins u.pos)).readSpace u 9 (ds.getD 0 default).space (ds.getD 0 default).addr 64 = (c1, .ok bs) →
    exec (.update u) ⟨p, c⟩ = .next ⟨p, c1.underSel u n (fun k => k.updateOp u o n (wordsOf bs) ds)⟩) ∧
  (∀ (c : Chip) (u : UnitRef) (o : Op) (n : Nat) (ws : List W64) (ds : List Desc),
    let ps := bits (wordOf ws 0) 11 0
    let t := c.updateOp u o n ws ds
    let skip := o.skip = true ∨ (o.waiting = true ∧ (c.ctx n).train.committable = false)
    ((c.ctx n).run = none → t = c.updateSkip u o ps {}) ∧
    (∀ r, (c.ctx n).run = some r →
      (¬skip → (c.ctx n).pinned ps = true →
        t = (c.opWaits u).modCtx n (fun x => { x with proof := { x.proof with held := true } })) ∧
      (skip ∨ (c.ctx n).pinned ps = false →
        (r.isStep = true → ps ∈ r.updated → t = c.opTrap u 0x12) ∧
        (r.isStep = false ∨ ps ∉ r.updated →
          let c2 := c.modRun n (fun k => { k with updated := ps :: k.updated })
          (skip → t = c2.updateSkip u o ps {}) ∧ (¬skip → t = c2.updateRun u o r ws ds)))) ∧
    (∀ g : Partial, c.updateSkip u o ps g =
      ((c.capRecord (c.ctxOf u.die u.part) ps (updOcfg o.e.slot.toNat) true o.e.tile 0 0 0).opDone u 8).modOp u (fun k =>
        { k with skip := true, fin := some { gauge := { gsq := g.gsq, nonfin := g.nonfin, step := o.step } } })))

/-! ### Collectives (chapter 10) -/

/-- The integer path (R46): while no partial sum of a run leaves the signed 32-bit range the cell is the exact dot product
times the two elements' weights, rounded once to FP32; the operands of the path are two unscaled integers (R45).
Reductions have one fixed order (R239): an element of a group of one participant is that participant's own value, and the
order in which the participants' messages are listed does not change what an op reads of each. -/
def Obligations.SumsHaveOneOrder : Prop :=
  ((∀ (e : Int) (as ws : List Int), as.length = ws.length →
    (∀ k, -(2 ^ 31 : Int) ≤ ((as.take k).zip (ws.take k)).foldl (fun t y => t + y.1 * y.2) 0 ∧
      ((as.take k).zip (ws.take k)).foldl (fun t y => t + y.1 * y.2) 0 < 2 ^ 31) →
    ∀ q, 0 < q →
      dotInt q e (as.map (fun m => (.fin ⟨m, 0⟩, {}))) (ws.map (fun m => (.fin ⟨m, 0⟩, {}))) =
        toF32 .near (.fin ⟨(as.zip ws).foldl (fun t y => t + y.1 * y.2) 0, e⟩)) ∧
  (∀ (a w : Desc) (dq : Bool), formePath a w dq = .int ↔ fmtIsInt a.fmt = true ∧ fmtIsInt w.fmt = true ∧ a.scaled = false ∧ w.scaled = false)) ∧
  ((∀ (g : Group) (n e : Nat) (x : Nat → Nat → FlW32), g.p = 1 → g.l0 = 1 → g.l1 = 1 → g.l2 = 1 → reduceElem g n x e = x 0 e) ∧
  (∀ (peers peers' : List Peer) (i k : Nat), peers.Perm peers' → (peers.map (·.index)).Nodup → peerBuf peers i k = peerBuf peers' i k))

/-- The seven collectives at position 117, once the list is fetched and while no page that the op writes is being copied: what came from
other modules joins what the engine holds; the parameter block is read; this participant's data goes out once to those that need it
(R237, R240); a participant's first exchange that differs aborts the op with cause 3 and status 0x0403; while data it needs has not come by the
deadline the op waits; else it is carried out, and what came for it is dropped once it has done its work. In bucketed mode a REDUCE or RSCAT
of a step is held instead (R230).
An A2A that waits between rounds goes on once the consumer's count is back (R251); a collective past its deadline aborts with
status 0x0401, one that receives an abort with that abort's status (R246): CE_ABORT keeps the first one, the command's part at
position 117 fails with that status, the die's stream stops and the other die is told.
It also states the model's own choices of log entries 42, 72, 77 and 87. -/
def Obligations.Collectives : Prop :=
  (∀ (p : List Instr) (c : Chip) (u : UnitRef) (o : Op) (s : Stream) (peers : List Peer) (opc : Nat), u.pos = 117 →
    let ca := peers.foldl (fun c p => c.arriveRemote u.die u.part p) c
    let cr := ca.raceBytes u o.id o.outs (o.ins u.pos)
    OpReady ca u o opc → o.paused = false → ca.stream u.die u.part = some s → ca.blocked u o = false →
    let ds := viewList (o.descs.getD []) o.wides
    ∀ (c1 : Chip) (bs : List Byte), cr.readSpace u 9 (ds.getD 0 default).space (ds.getD 0 default).addr 64 = (c1, .ok bs) →
    let ws := wordsOf bs
    let runs (i : Instr) : Prop :=
      (opc ≠ 1 ∧ opc ≠ 2 ∨ c1.runMode s.ctx 2 = false →
        exec i ⟨p, c⟩ = .next ⟨p, ((c1.colWork u o s ws ds).colSettle u).bucketStep u.die u.part⟩) ∧
      (opc = 1 ∨ opc = 2 → c1.runMode s.ctx 2 = true →
        exec i ⟨p, c⟩ = .next ⟨p, (c1.hold u o (bits (wordOf ws 0) 31 0)).bucketStep u.die u.part⟩)
    (opc = 1 → runs (.reduce u peers)) ∧ (opc = 2 → runs (.rscat u peers)) ∧ (opc = 3 → runs (.gather u peers)) ∧
    (opc = 4 → runs (.a2a u peers)) ∧ (opc = 5 → runs (.smerge u peers)) ∧ (opc = 6 → runs (.bcast u peers)) ∧
    (opc = 7 → runs (.norm u peers))) ∧
  (∀ (c c2 : Chip) (u : UnitRef) (o : Op) (s : Stream) (ws : List W64) (ds : List Desc),
    let g : Group := tget {} s.image.groups o.group
    let self := c.selfIndex u.die g
    let opc := o.e.opc
    let t := c.colWork u o s ws ds
    let peers := c2.colPeers u o
    let others := peers.filter (fun p => decide (p.index ≠ self))
    (∀ i f, c.sendOwn u o s.ctx g self ws ds = (c2, some (i, f)) → t = c2.opFault u i f) ∧
    (c.sendOwn u o s.ctx g self ws ds = (c2, none) →
      (∀ q, others.find? (c2.mismatch g opc ws) = some q → t = c2.colAbort u.die u.part o.group 3 0x0403 q.index) ∧
      (others.find? (c2.mismatch g opc ws) = none →
        (haveAll opc g.p self (bits (wordOf ws 1) 41 32) peers = false → t = c2.opWaits u) ∧
        (haveAll opc g.p self (bits (wordOf ws 1) 41 32) peers = true →
          (opc = 1 → t = c2.reduceRun u o s.ctx true g self ws ds peers) ∧ (opc = 2 → t = c2.reduceRun u o s.ctx false g self ws ds peers) ∧
          (opc = 3 → t = c2.gatherRun u g ws ds peers) ∧ (opc = 4 → t = c2.a2aRun u o g self ws ds peers) ∧
          (opc = 5 → t = c2.smergeRun u o g self ws ds peers) ∧ (opc = 6 → t = c2.bcastRun u self ws ds peers) ∧
          (opc = 7 → t = c2.normRun u o s.ctx g ds peers))))) ∧
  (∀ (p : List Instr) (c : Chip) (u : UnitRef) (o : Op) (s : Stream), c.op u = some o → u.pos = 117 → c.stream u.die u.part = some s →
    (o.e.opc = 4 → o.round ≠ 0 → o.worked = false →
      let g := descOf ((o.descs.getD []).getD 3 [])
      (g.lvalid = true → exec (.a2aRoundResume u) ⟨p, c⟩ = exec (.linkTake u 3) ⟨p, c⟩) ∧
      (g.lvalid = false → exec (.a2aRoundResume u) ⟨p, c⟩ = .next ⟨p, c.modOp u (fun o => { o with waiting := false, paused := false })⟩)) ∧
    (o.e.opc ≠ 0 → o.completed = false → o.deadline < (c.ridgeOf u.die).toNat →
      exec (.collectiveTimeout u.die u.part) ⟨p, c⟩ = .next ⟨p, c.freeWord.2.colAbort u.die u.part o.group 1 0x0401 c.freeWord.1.toNat⟩) ∧
    o.deadline = o.startNs.toNat + (if colTimeout o.e.slot.toNat = 0 then 50 else colTimeout o.e.slot.toNat) * 1000000 ∧
    (o.e.opc ≠ 0 → o.completed = false → ∀ (peer : BitVec 10) (status : W16),
      exec (.collectiveAbortReceived u.die u.part peer status) ⟨p, c⟩ = .next ⟨p,
        ((((c.modDie u.die (fun m => { m with ce := m.ce.abort 4 (colGroup o.e.slot.toNat) peer.toNat (c.ridgeOf u.die) })).fail s.ctx
          { status := status, fdie := decide (u.die = .e), first := 117, beatAt := (c.die u.die).beatAt }).stopStream u.die u.part 3
            status.toNat).tellOther u.die u.part)⟩))

/-! ### Compositors (chapter 7) -/

/-- Register results (R160, R166): the destination holds the value unless it is g0, which still reads as zero; every other
register is unchanged; the four flags are joined; the pc advances by one; nothing else of the thread changes. -/
def Obligations.ThreadResultFrame : Prop :=
  ∀ (t : Thread) (d : Reg) (v : W64) (f : Flags), Tab.wf (0 : W64) t.regs = true →
    let t' := t.result d v f
    (d ≠ 0 → t'.reg d = v) ∧ t'.reg 0 = 0 ∧ (∀ r, r ≠ d → t'.reg r = t.reg r) ∧ (d = 0 → t'.regs = t.regs) ∧
    t' = { t with regs := t'.regs, pc := t.pc + 1, ovf := t.ovf || f.ovf, nan := t.nan || f.nan, clip := t.clip || f.clip,
                  badcode := t.badcode || f.badcode }

/-- The integer instructions of Table 7.2 (R164) on 64-bit registers, each for a thread that issues (R159, R162) and whose next word, with OP in
bits 31:25, D 24:21, A 20:17, B 16:13 and IMM 12:0, is that instruction: each writes its result, leaves flags and memory alone and
goes on to the next instruction, and the compositor's rotation goes past the thread; shifts take the low six bits of b, DIVU by zero gives
all ones, SLT and SLTU give 1 or 0, and IMM is sign-extended but for LIH, which shifts a left 13 places and puts IMM into the low bits.
It also states the model's own choice of log entry 99. -/
def Obligations.IntegerInstructions : Prop :=
  ∀ (p : List Instr) (c : Chip) (t : ThreadRef) (x0 : Thread), ThreadIssues c t x0 →
    let x : Thread := { x0 with pass := false }
    let cr := c.rotate t (c.codeLine t x0)
    let gives (word : Nat) (i : Instr) (d : Reg) (v : W64) : Prop :=
      c.wordAt t x0 = word → exec i ⟨p, c⟩ = .next ⟨p, cr.setThread t (some (x.result d v {}))⟩
    (∀ d a b : Reg,
      let w (op : Nat) : Nat := op * 2 ^ 25 + d.toNat * 2 ^ 21 + a.toNat * 2 ^ 17 + b.toNat * 2 ^ 13
      gives (w 0x01) (.add t d a b) d (x.reg a + x.reg b) ∧ gives (w 0x02) (.sub t d a b) d (x.reg a - x.reg b) ∧
      gives (w 0x03) (.mul t d a b) d (x.reg a * x.reg b) ∧
      gives (w 0x04) (.divu t d a b) d (if x.reg b = (0 : W64) then (0xFFFFFFFFFFFFFFFF : W64) else x.reg a / x.reg b : W64) ∧
      gives (w 0x05) (.and t d a b) d (x.reg a &&& x.reg b) ∧ gives (w 0x06) (.or t d a b) d (x.reg a ||| x.reg b) ∧
      gives (w 0x07) (.xor t d a b) d (x.reg a ^^^ x.reg b) ∧
      gives (w 0x08) (.shl t d a b) d (x.reg a <<< ((x.reg b).toNat % 64)) ∧ gives (w 0x09) (.shr t d a b) d (x.reg a >>> ((x.reg b).toNat % 64)) ∧
      gives (w 0x0A) (.sar t d a b) d ((x.reg a).sshiftRight ((x.reg b).toNat % 64)) ∧
      gives (w 0x0B) (.slt t d a b) d (if (x.reg a).toInt < (x.reg b).toInt then 1 else 0) ∧
      gives (w 0x0C) (.sltu t d a b) d (if (x.reg a).toNat < (x.reg b).toNat then 1 else 0)) ∧
    (∀ (d a : Reg) (i : BitVec 13),
      let w (op : Nat) (a : Reg) : Nat := op * 2 ^ 25 + d.toNat * 2 ^ 21 + a.toNat * 2 ^ 17 + i.toNat
      gives (w 0x0D a) (.addi t d a i) d (x.reg a + i.signExtend 64) ∧ gives (w 0x0E 0) (.li t d i) d (i.signExtend 64) ∧
      gives (w 0x0F a) (.lih t d a i) d ((x.reg a <<< 13) ||| i.zeroExtend 64)) ∧
    (∀ m, m ≠ t.die → cr.die m = c.die m) ∧
    (cr.die t.die) = { c.die t.die with rota := (cr.die t.die).rota, icache := (cr.die t.die).icache } ∧
    ((t.ctx + 1) % 4096 ≠ 0 → tget 0 (cr.die t.die).rota (compKey t) = (t.ctx + 1) % 4096)

/-- The FP32 instructions of Table 7.2 (R165), each for a thread that issues and whose next word is that instruction, work on low halves
and write a result with a zero high half, but for FAMAX2 and I2F, which keep the high half of d; every result and its flags are those of
the arithmetic of chapter 2. F2I rounds toward zero and saturates, and F2I of a NaN gives 0 with NAN.
It also states the model's own choices of log entries 12 and 99. -/
def Obligations.FloatInstructions : Prop :=
  ∀ (p : List Instr) (c : Chip) (t : ThreadRef) (x0 : Thread), ThreadIssues c t x0 →
    let x : Thread := { x0 with pass := false }
    let cr := c.rotate t (c.codeLine t x0)
    let lo (r : Reg) : W32 := (x.reg r).extractLsb' 0 32
    let hi (r : Reg) : W32 := (x.reg r).extractLsb' 32 32
    let gives (word : Nat) (i : Instr) (d : Reg) (v : W64) (f : Flags) : Prop :=
      c.wordAt t x0 = word → exec i ⟨p, c⟩ = .next ⟨p, cr.setThread t (some (x.result d v f))⟩
    let single (word : Nat) (i : Instr) (d : Reg) (v : FlW32) : Prop := gives word i d (v.1.zeroExtend 64) v.2
    let kept (word : Nat) (i : Instr) (d : Reg) (v : FlW32) : Prop := gives word i d (hi d ++ v.1 : BitVec 64) v.2
    (∀ d a b : Reg,
      let w (op : Nat) : Nat := cword op d a b 0
      single (w 0x20) (.fadd t d a b) d (fadd32 (lo a) (lo b)) ∧ single (w 0x21) (.fsub t d a b) d (fsub32 (lo a) (lo b)) ∧
      single (w 0x22) (.fmul t d a b) d (fmul32 (lo a) (lo b)) ∧ single (w 0x23) (.fdiv t d a b) d (fdiv32 (lo a) (lo b)) ∧
      single (w 0x24) (.fmax t d a b) d (fmax32 (lo a) (lo b)) ∧ single (w 0x25) (.fmin t d a b) d (fmin32 (lo a) (lo b)) ∧
      gives (w 0x2A) (.fslt t d a b) d (if (flt32 (lo a) (lo b)).1 then 1 else 0) (flt32 (lo a) (lo b)).2) ∧
    (∀ d a : Reg,
      let w (op : Nat) : Nat := cword op d a 0 0
      single (w 0x27) (.fexp t d a) d (fexp32 (lo a)) ∧ single (w 0x28) (.flog t d a) d (flog32 (lo a)) ∧
      single (w 0x29) (.frsq t d a) d (frsq32 (lo a)) ∧
      kept (w 0x26) (.famax2 t d a) d (foldAbs (lo d) (lo a) (hi a)) ∧ kept (w 0x2B) (.i2f t d a) d (toF32 .near (.fin ⟨(x.reg a).toInt, 0⟩)) ∧
      gives (w 0x2C) (.f2i t d a) d (f2i (lo a)).1 (f2i (lo a)).2 ∧
      ((f32 (lo a)).1 = .nan → (f2i (lo a)).1 = 0 ∧ (f2i (lo a)).2.nan = true) ∧
      (∀ v, (f32 (lo a)).1 = .fin v → (f2i (lo a)).2 = (f32 (lo a)).2 ∧
        (0 ≤ v.e → 2 ^ 63 ≤ v.m * (2 ^ v.e.toNat : Nat) → (f2i (lo a)).1 = 0x7FFFFFFFFFFFFFFF) ∧
        (0 ≤ v.e → v.m * (2 ^ v.e.toNat : Nat) ≤ -(2 ^ 63 : Nat) → (f2i (lo a)).1 = 0x8000000000000000)))

/-- The conversions (R166), each for a thread that issues and whose next word is that instruction: CVT2 and EXP2 for the formats of Table
2.1, TOBF and FROMBF; CVT2 and TOBF round to nearest or toward zero, or with a draw each, a.lo first, where the generator has been seeded. A
reserved format or rounding mode, or a stochastic one with no seed, is an instruction fault (R171).
It also states the model's own choice of log entry 99. -/
def Obligations.ConversionInstructions : Prop :=
  ∀ (p : List Instr) (c : Chip) (t : ThreadRef) (x0 : Thread), ThreadIssues c t x0 →
    let x : Thread := { x0 with pass := false }
    let cr := c.rotate t (c.codeLine t x0)
    let lo (r : Reg) : W32 := (x.reg r).extractLsb' 0 32
    let hi (r : Reg) : W32 := (x.reg r).extractLsb' 32 32
    let runs (word : Nat) (i : Instr) (c' : Chip) : Prop := c.wordAt t x0 = word → exec i ⟨p, c⟩ = .next ⟨p, c'⟩
    let set (y : Thread) : Chip := cr.setThread t (some y)
    let cvt (d a b : Reg) (fmt rnd : Nat) : Nat := cword 0x30 d a b (rnd * 16 + fmt)
    (∀ (d a b : Reg) (fmt : BitVec 4) (rnd : BitVec 2), fmt.toNat ≤ 8 →
      let w := fmtWidth fmt.toNat
      let q (m : Rnd) := convertAny fmt.toNat m (f32 (lo a)).1 (f32 (lo b)).1
      let r (m : Rnd) := convertAny fmt.toNat m (f32 (hi a)).1 (f32 (lo b)).1
      let packed (y : Thread) (m n : Rnd) : Thread := y.result d (BitVec.ofNat 64 (((x.reg d).toNat <<< (2 * w)) ||| ((r n).1 <<< w) ||| (q m).1))
        (((q m).2.join (r n).2).join ((f32 (lo b)).2.join ((f32 (lo a)).2.join (f32 (hi a)).2)))
      (rnd = 0 → runs (cvt d a b fmt.toNat 0) (.cvt2 t d a b fmt rnd) (set (packed x .near .near))) ∧
      (rnd = 2 → runs (cvt d a b fmt.toNat 2) (.cvt2 t d a b fmt rnd) (set (packed x .zero .zero))) ∧
      (rnd = 1 → ∀ (u v : W16) (y z : Thread), x.draw = some (u, y) → y.draw = some (v, z) →
        runs (cvt d a b fmt.toNat 1) (.cvt2 t d a b fmt rnd) (set (packed z (.stoch u) (.stoch v))))) ∧
    (∀ (d a b : Reg) (fmt : BitVec 4), fmt.toNat ≤ 8 →
      let w := fmtWidth fmt.toNat
      let q := expandOne fmt.toNat ((x.reg a).toNat % 2 ^ w) (f32 (lo b))
      let r := expandOne fmt.toNat ((x.reg a).toNat / 2 ^ w % 2 ^ w) (f32 (lo b))
      runs (cword 0x31 d a b fmt.toNat) (.exp2 t d a b fmt) (set (x.result d (r.1 ++ q.1 : BitVec 64) (q.2.join r.2)))) ∧
    (∀ (d a : Reg) (rnd : BitVec 2),
      let v (m : Rnd) := toBf16 m (lo a)
      let put (y : Thread) (m : Rnd) : Thread := y.result d ((v m).1.zeroExtend 64) (v m).2
      (rnd = 0 ∨ rnd = 2 → runs (cword 0x32 d a 0 (rnd.toNat * 16)) (.tobf t d a rnd) (set (put x (if rnd = 0 then .near else .zero)))) ∧
      (rnd = 1 → ∀ (u : W16) (y : Thread), x.draw = some (u, y) → runs (cword 0x32 d a 0 16) (.tobf t d a rnd) (set (put y (.stoch u))))) ∧
    (∀ d a : Reg, let v := ofBf16 ((x.reg a).extractLsb' 0 16)
      runs (cword 0x33 d a 0 0) (.frombf t d a) (set (x.result d (hi d ++ v.1 : BitVec 64) v.2))) ∧
    (∀ (d a b : Reg) (fmt : BitVec 4) (rnd : BitVec 2), 8 < fmt.toNat ∨ rnd = 3 ∨ (rnd = 1 ∧ x.gen = none) →
      runs (cvt d a b fmt.toNat rnd.toNat) (.cvt2 t d a b fmt rnd) (cr.instrFault t x) ∧
      (8 < fmt.toNat → runs (cword 0x31 d a b fmt.toNat) (.exp2 t d a b fmt) (cr.instrFault t x)) ∧
      (rnd = 3 ∨ (rnd = 1 ∧ x.gen = none) → runs (cword 0x32 d a 0 (rnd.toNat * 16)) (.tobf t d a rnd) (cr.instrFault t x)))

/-- Loads and atomics (R159, R161, R167, R168), each for a thread that issues and whose next word is that instruction: an address that Table
7.3 places is read as a whole, the register takes the little-endian value, zero-extended, and the thread waits for its data; an atomic
releases what the thread stored before, stores the sum, or b when the old value equals d, and returns the old value. An address that Table
7.3 does not place is a memory fault (R171). An atomic on a page that is being copied waits (R101); where another thread's unreleased
store meets its bytes they are free (R168).
It also states the model's own choices of log entries 85 and 99. -/
def Obligations.LoadsAndAtomics : Prop :=
  ∀ (p : List Instr) (c : Chip) (t : ThreadRef) (x0 : Thread), ThreadIssues c t x0 →
    let x : Thread := { x0 with pass := false }
    let cr := c.rotate t (c.codeLine t x0)
    let runs (word : Nat) (i : Instr) (c' : Chip) : Prop := c.wordAt t x0 = word → exec i ⟨p, c⟩ = .next ⟨p, c'⟩
    let n := cr.ctxOf t.die x.part
    let waits (c : Chip) (y : Thread) (d : Reg) (v : W64) : Chip := c.setThread t (some { y.result d v {} with wait := .memory })
    (∀ (d a : Reg) (imm : BitVec 13),
      let ea := (x.reg a + imm.signExtend 64).toNat
      let load (op : Nat) (i : Instr) (k : Nat) : Prop :=
        (∀ (pl : Place) (c1 : Chip) (bs : List Byte), cr.place t x ea k false = some pl → cr.placeRead n t.die k pl = (c1, .ok bs) →
          runs (cword op d a 0 imm.toNat) i (waits c1 x d (BitVec.ofNat 64 (leNat bs)))) ∧
        (∀ (pl : Place) (c1 : Chip) (f : AccFault), cr.place t x ea k false = some pl → cr.placeRead n t.die k pl = (c1, .error f) →
          runs (cword op d a 0 imm.toNat) i (c1.memFault t x f)) ∧
        (cr.place t x ea k false = none → runs (cword op d a 0 imm.toNat) i (cr.memFault t x (addrFault ea)))
      load 0x40 (.ld64 t d a imm) 8 ∧ load 0x42 (.ld32 t d a imm) 4 ∧ load 0x44 (.ld8 t d a imm) 1) ∧
    (∀ d a b : Reg,
      let ea := (x.reg a).toNat
      (∀ (pl : Place) (c1 : Chip) (bs : List Byte), cr.place t x ea 8 true = some pl → cr.placeRead n t.die 8 pl = (c1, .ok bs) →
        let old : W64 := BitVec.ofNat 64 (leNat bs)
        let c2 := c1.synced t.die x
        let y : Thread := { x with acquired := c2.syncs }
        let stores (op : Nat) (i : Instr) (v : W64) : Prop :=
          ∀ (o : Out), pl.out x.tid 8 = some o →
            (o.space = 0 → c2.copying (c2.ctxOf t.die x.part) o.addr o.len = true →
              runs (cword op d a b 0) i (c2.setThread t (some { y with wait := .memory }))) ∧
            (o.space ≠ 0 ∨ c2.copying (c2.ctxOf t.die x.part) o.addr o.len = false →
              ∀ c3, (c2.stored t y o (leBytes 8 v.toNat)).1.placeWrite (c2.ctxOf t.die x.part) t.die (c2.stored t y o (leBytes 8 v.toNat)).2 pl = (c3, none) →
                runs (cword op d a b 0) i (waits (c3.modOp (x.unit t.die) (fun k => { k with outs := k.outs ++ [o] })) y d old)) ∧
            ((List.range 8).any (c2.races t y o) = false → c2.stored t y o (leBytes 8 v.toNat) = (c2, leBytes 8 v.toNat))
        stores 0x46 (.aadd t d a b) (old + x.reg b) ∧ (old = x.reg d → stores 0x47 (.acas t d a b) (x.reg b)) ∧
        (old ≠ x.reg d → runs (cword 0x47 d a b 0) (.acas t d a b) (waits c2 y d old))) ∧
      (cr.place t x ea 8 true = none →
        runs (cword 0x46 d a b 0) (.aadd t d a b) (cr.memFault t x (addrFault ea)) ∧
        runs (cword 0x47 d a b 0) (.acas t d a b) (cr.memFault t x (addrFault ea))))

/-- Stores (R161, R168), each for a thread that issues and whose next word is that instruction: the low bytes of b go to a + IMM,
little-endian, and the thread goes on; where another thread's unreleased store meets them they are free bytes. In a platen's region 5 and in
a stack's shared store they land there, and no other byte of the module's stores changes; in a written page of context memory no other
byte of device memory changes. A store to a page that is being copied waits (R101); an address that Table 7.3 does not place is a memory
fault (R171).
It also states the model's own choices of log entries 85 and 99. -/
def Obligations.Stores : Prop :=
  ∀ (p : List Instr) (c : Chip) (t : ThreadRef) (x0 : Thread) (a b : Reg) (imm : BitVec 13), ThreadIssues c t x0 → StoresWf c →
    let x : Thread := { x0 with pass := false }
    let cr := c.rotate t (c.codeLine t x0)
    let runs (word : Nat) (i : Instr) (c' : Chip) : Prop := c.wordAt t x0 = word → exec i ⟨p, c⟩ = .next ⟨p, c'⟩
    let n := cr.ctxOf t.die x.part
    let ea := (x.reg a + imm.signExtend 64).toNat
    let store (op : Nat) (i : Instr) (k : Nat) : Prop :=
      let word := cword op 0 a b imm.toNat
      let bs := leBytes k (x.reg b).toNat
      (∀ (pl : Place) (o : Out), cr.place t x ea k true = some pl → pl.out x.tid k = some o →
        (o.space = 0 → cr.copying n o.addr o.len = true → runs word i (cr.setThread t (some { x with wait := .memory }))) ∧
        (o.space ≠ 0 ∨ cr.copying n o.addr o.len = false →
          ∀ c1 : Chip, (cr.stored t x o bs).1.placeWrite n t.die (cr.stored t x o bs).2 pl = (c1, none) →
            let done := (c1.modOp (x.unit t.die) (fun k => { k with outs := k.outs ++ [o] })).setThread t (some x.advance)
            runs word i done ∧
            ((List.range k).any (cr.races t x o) = false → cr.stored t x o bs = (cr, bs) ∧
              (∀ pt off, pl = .platen pt off → mread done.platenMem (platenKey t.die pt off) k = bs ∧
                (∀ j, j < platenKey t.die pt off ∨ platenKey t.die pt off + k ≤ j → mget done.platenMem j = mget c.platenMem j) ∧
                done.host = c.host ∧ done.dram = c.dram ∧ done.engineMem = c.engineMem ∧ done.sharedMem = c.sharedMem) ∧
              (∀ st off, pl = .shared st off → mread done.sharedMem (sharedKey st off) k = bs ∧
                (∀ j, j < sharedKey st off ∨ sharedKey st off + k ≤ j → mget done.sharedMem j = mget c.sharedMem j) ∧
                done.host = c.host ∧ done.dram = c.dram ∧ done.engineMem = c.engineMem ∧ done.platenMem = c.platenMem) ∧
              (∀ (va : Nat) (g : Page), pl = .va va → (cr.ctx n).page va = some g →
                let h := g.copy (g.useB (cr.ctx n) .active)
                h.written = true → (∀ j, (∀ m, m < k → j ≠ h.dev (va % pageSize + m)) → mget done.dram j = mget c.dram j) ∧
                done.host = c.host ∧ done.platenMem = c.platenMem ∧ done.engineMem = c.engineMem ∧ done.sharedMem = c.sharedMem)))) ∧
      (∀ e byte, cr.place t x ea k true = some (.entry e byte) →
        runs word i ((cr.placeWrite n t.die bs (.entry e byte)).1.setThread t (some x.advance))) ∧
      (cr.place t x ea k true = none → runs word i (cr.memFault t x (addrFault ea)))
    store 0x41 (.st64 t a b imm) 8 ∧ store 0x43 (.st32 t a b imm) 4 ∧ store 0x45 (.st8 t a b imm) 1

/-- ARG, SPR, SSIG, STAKE, RSEED, RNEXT and FENCE (R148, R149, R166 to R169, R293, R311), each for a thread that issues and whose next word is
that instruction: ARG reads a word of the argument list, SPR a special register of Table 7.1; SSIG releases what the thread stored before and
adds b to a pair; STAKE takes b from a pair, and the rotation of a contested half goes past the thread's compositor, or waits until it
can; RSEED seeds the thread's generator with the context's seed, RNEXT gives its next output; FENCE waits. A pair outside the
partition's range traps with cause 0x14; an argument or special register that does not exist, a reserved stream of RSEED and an RNEXT before
any RSEED are instruction faults.
It also states the model's own choices of log entries 84, 85 and 99. -/
def Obligations.SpecialInstructions : Prop :=
  ∀ (p : List Instr) (c : Chip) (t : ThreadRef) (x0 : Thread), ThreadIssues c t x0 →
    let x : Thread := { x0 with pass := false }
    let cr := c.rotate t (c.codeLine t x0)
    let runs (word : Nat) (i : Instr) (c' : Chip) : Prop := c.wordAt t x0 = word → exec i ⟨p, c⟩ = .next ⟨p, c'⟩
    let set (y : Thread) : Chip := cr.setThread t (some y)
    let u := x.unit t.die
    (∀ (d : Reg) (k : BitVec 10) (w : BitVec 3),
      let word := cword 0x50 d 0 0 (k.toNat * 8 + w.toNat)
      (∀ v, cr.argWord t x k.toNat w.toNat = some v → runs word (.arg t d k w) (set (x.result d v {}))) ∧
      (cr.argWord t x k.toNat w.toNat = none → runs word (.arg t d k w) (cr.instrFault t x))) ∧
    (∀ (d : Reg) (i : BitVec 13),
      (∀ v, x.spr t (c.die t.die).ridge i.toNat = some v → runs (cword 0x51 d 0 0 i.toNat) (.spr t d i) (set (x.result d v {}))) ∧
      (i.toNat ≤ 9 → ∃ v, x.spr t (c.die t.die).ridge i.toNat = some v) ∧
      (9 < i.toNat → runs (cword 0x51 d 0 0 i.toNat) (.spr t d i) (cr.instrFault t x))) ∧
    (∀ (a b : Reg) (half xd : Bool),
      let i := (x.reg a).toNat
      let m := if xd then t.die.other else t.die
      let pr := cr.pair x.part (BitVec.ofNat 12 i).toNat
      let n := (x.reg b).toNat
      let ssig := cword 0x58 0 a b (b2n half + 2 * b2n xd)
      let stake := cword 0x59 0 a b (b2n half + 2 * b2n xd)
      let sync := cr.synced t.die x
      let heard := sync.hears (.unit t.die u.pos) m pr half
      (cr.semOk x.part i = true →
        runs ssig (.ssig t a b half xd) ((sync.setThread t (some { x.advance with acquired := sync.syncs })).signal t.die x.part i half xd n
          (sync.opKnows u)) ∧
        (cr.semHas m pr half n = true → runs stake (.stake t a b half xd)
          (((heard.setThread t (some { x.advance with wait := .ready, acquired := heard.syncs })).turn m pr half (cr.contested m pr half n)
            (threadRequester t m)).semTake m pr half n)) ∧
        (cr.semHas m pr half n = false → runs stake (.stake t a b half xd) (set { x with wait := .stake (BitVec.ofNat 12 i) half xd (x.reg b) }))) ∧
      (cr.semOk x.part i = false →
        runs ssig (.ssig t a b half xd) (cr.raiseTrap t.die x.part u.pos 0x14 0 (cr.opPc u)) ∧
        runs stake (.stake t a b half xd) (cr.raiseTrap t.die x.part u.pos 0x14 0 (cr.opPc u)))) ∧
    (∀ a b : Reg,
      ((x.reg a).toNat < 2 ^ 22 → (x.reg b).toNat < 2 ^ 16 → runs (cword 0x5C 0 a b 0) (.rseed t a b) (set { x.advance with
        gen := some (Lane.seed (cr.ctx (cr.ctxOf t.die x.part)).seed ((x.reg a).toNat / 2 ^ 20) ((x.reg a).toNat % 2 ^ 20) (x.reg b).toNat
          x.step.toNat).g, draws := [] })) ∧
      (2 ^ 22 ≤ (x.reg a).toNat ∨ 2 ^ 16 ≤ (x.reg b).toNat → runs (cword 0x5C 0 a b 0) (.rseed t a b) (cr.instrFault t x))) ∧
    (∀ (d : Reg) (g : W64 × W64), x.gen = some g →
      runs (cword 0x5D d 0 0 0) (.rnext t d) (set { x.result d (rngNext g).1 {} with gen := some (rngNext g).2, draws := [] })) ∧
    (∀ d : Reg, x.gen = none → runs (cword 0x5D d 0 0 0) (.rnext t d) (cr.instrFault t x)) ∧
    runs (cword 0x48 0 0 0 0) (.fence t) (set { x.advance with wait := .fence })

/-- Branches, EXIT and TRAP (R160, R163, R170, R171), each for a thread that issues and whose next word is that instruction: a taken branch
adds its signed IMM to the pc, one not taken goes on; JR goes to a; EXIT frees the context for the compositor's next waiting thread and the
spawn's last EXIT ends its work; TRAP raises trap cause 0x0E with CODE IMM and keeps the first failing thread.
It also states the model's own choice of log entry 99. -/
def Obligations.ControlInstructions : Prop :=
  ∀ (p : List Instr) (c : Chip) (t : ThreadRef) (x0 : Thread), ThreadIssues c t x0 →
    let x : Thread := { x0 with pass := false }
    let cr := c.rotate t (c.codeLine t x0)
    let runs (word : Nat) (i : Instr) (c' : Chip) : Prop := c.wordAt t x0 = word → exec i ⟨p, c⟩ = .next ⟨p, c'⟩
    let go (pc : Nat) : Chip := cr.setThread t (some { x with pc := pc })
    (∀ (a b : Reg) (imm : BitVec 13), 0 ≤ (x.pc : Int) + imm.toInt →
      let target := ((x.pc : Int) + imm.toInt).toNat
      let w (op : Nat) (a b : Reg) : Nat := cword op 0 a b imm.toNat
      runs (w 0x60 a b) (.beq t a b imm) (go (if x.reg a = x.reg b then target else x.pc + 1)) ∧
      runs (w 0x61 a b) (.bne t a b imm) (go (if x.reg a ≠ x.reg b then target else x.pc + 1)) ∧
      runs (w 0x62 a b) (.blt t a b imm) (go (if (x.reg a).toInt < (x.reg b).toInt then target else x.pc + 1)) ∧
      runs (w 0x63 0 0) (.jmp t imm) (go target)) ∧
    (∀ a : Reg, runs (cword 0x64 0 a 0 0) (.jr t a) (go (x.reg a).toNat)) ∧
    (let k := t.loc * 256 + t.comp
     let fin (c : Chip) : Chip := c.modOp (x.unit t.die) (fun o => { o with left := o.left - 1, worked := o.worked || decide (o.left ≤ 1) })
     (tget [] (c.die t.die).spawns k = [] → runs (cword 0x65 0 0 0 0) (.exit t) (fin (cr.setThread t none))) ∧
     (∀ y r, tget [] (c.die t.die).spawns k = y :: r → runs (cword 0x65 0 0 0 0) (.exit t)
       (fin ((cr.setThread t (some y)).modDie t.die (fun m => { m with spawns := tput [] m.spawns k r }))))) ∧
    (∀ imm : BitVec 13, runs (cword 0x66 0 0 0 imm.toNat) (.compTrap t imm)
      ((cr.compFault t x 3).raiseTrap t.die x.part (x.unit t.die).pos 0x0E imm.toNat (cr.opPc (x.unit t.die))))

/-- Events of threads (R159, R162, R164, R171, R400): a thread that waits for memory or for its earlier accesses becomes ready; one that waits
for its instructions does once their line can be read into the compositor's cache, and faults where it cannot; one in STAKE does when its take
succeeds and waits on while it does not. A thread whose pc left its program, or whose next word is no listed instruction, is an
instruction fault; a thread whose line is not in the cache waits for it; a ready thread at an enabled breakpoint stops there. A thread
that its compositor's rotation does not come to, such as one that is not ready, executes nothing, nor does one of a compositor that stands
still with its die (R398); a compositor of a stack never does.
SPAWN (R162, R163), once its list is fetched and while no page that it writes is being copied: a spawn of a program of the program table
places COUNT threads in order of TID, thread i on compositor i modulo the target's number of compositors, with its bound value, and waits
for their EXITs; a built-in program, under its own binding, does its threads' work at once (R170).
It also states the model's own choices of log entries 37, 59, 77, 85 and 99. -/
def Obligations.ThreadsAndSpawns : Prop :=
  (∀ (p : List Instr) (c : Chip) (t : ThreadRef) (x : Thread), c.thread t = some x →
    (x.wait = .memory ∨ x.wait = .fence →
      exec (.threadWake t) ⟨p, c⟩ = .next ⟨p, c.setThread t (some { x with wait := .ready })⟩) ∧
    (x.wait = .fetch →
      let line := (x.progVa.toNat + 4 * x.pc) / 256
      (∀ c1 bs, c.readVa (c.ctxOf t.die x.part) (line * 256) 256 = (c1, .ok bs) → exec (.threadWake t) ⟨p, c⟩ =
        .next ⟨p, (c1.useLine t (c.codeLine t x)).setThread t (some { x with wait := .ready })⟩) ∧
      (∀ c1 f, c.readVa (c.ctxOf t.die x.part) (line * 256) 256 = (c1, .error f) →
        exec (.threadWake t) ⟨p, c⟩ = .next ⟨p, c1.memFault t x f⟩)) ∧
    (∀ (i : BitVec 12) (half xd : Bool) (n : W64), x.wait = .stake i half xd n →
      let m := if xd then t.die.other else t.die
      let pr := c.pair x.part i.toNat
      let heard := (c.synced t.die x).hears (.unit t.die (x.unit t.die).pos) m pr half
      (c.semHas m pr half n.toNat = true → exec (.threadWake t) ⟨p, c⟩ =
        .next ⟨p, ((heard.setThread t (some { x.advance with wait := .ready, acquired := heard.syncs })).turn m pr half
          (c.contested m pr half n.toNat) (threadRequester t m)).semTake m pr half n.toNat⟩) ∧
      (c.semHas m pr half n.toNat = false → exec (.threadWake t) ⟨p, c⟩ = .next ⟨p, c.setThread t (some x)⟩)) ∧
    ((c.die t.die).nextReady t = some t.ctx → c.standsStill t x = false →
      (x.progLen ≤ x.pc → exec (.instructionFault t) ⟨p, c⟩ = .next ⟨p, c.instrFault t x⟩) ∧
      (x.pc < x.progLen → (x.pass = true ∨ (c.die t.die).breakpoint x = none) →
        (c.codeLine t x ∉ tget [] (c.die t.die).icache (compKey t) → ∀ (d a b : Reg),
          exec (.add t d a b) ⟨p, c⟩ = .next ⟨p, c.setThread t (some { x with wait := .fetch })⟩ ∧
          exec (.instructionFault t) ⟨p, c⟩ = .next ⟨p, c.setThread t (some { x with wait := .fetch })⟩) ∧
        (c.codeLine t x ∈ tget [] (c.die t.die).icache (compKey t) →
          (wordOk (c.wordAt t x) = false → exec (.instructionFault t) ⟨p, c⟩ = .next ⟨p, c.instrFault t x⟩) ∧
          (wordOk (c.wordAt t x) = true → exec (.instructionFault t) ⟨p, c⟩ = .next ⟨p, c⟩)))) ∧
    (∀ n, x.wait = .ready → x.pass = false → c.standsStill t x = false → (c.die t.die).breakpoint x = some n →
      exec (.compositorBreakpointHit t) ⟨p, c⟩ = .next ⟨p, c.stopThread t x n⟩) ∧
    (t.loc ≠ 0 → c.standsStill t x = false) ∧
    (x.wait ≠ .ready → Tab.wf (none : Option Thread) (c.die t.die).threads = true → (c.die t.die).nextReady t ≠ some t.ctx) ∧
    ((c.die t.die).nextReady t ≠ some t.ctx ∨ c.standsStill t x = true → ∀ (d a b : Reg), exec (.add t d a b) ⟨p, c⟩ = .next ⟨p, c⟩ ∧ exec (.exit t) ⟨p, c⟩ = .next ⟨p, c⟩)) ∧
  (∀ (p : List Instr) (c : Chip) (u : UnitRef) (o : Op) (s : Stream), OpReady c u o 1 → slotClass u.pos = .spawn → o.left = 0 →
    c.stream u.die u.part = some s → c.blocked u o = false →
    let v := o.e.slot.toNat
    let prog := spProg v
    let cr := c.raceBytes u o.id o.outs (o.ins u.pos)
    let ds := (viewList (o.descs.getD []) o.wides).map (fun g => if spTarget v = 0 then g else g.inStack (spTarget v))
    let g := ds.getD 0 default
    (romProg prog = true → exec (.spawn u) ⟨p, c⟩ = .next ⟨p, cr.romRun u o ds⟩ ∧
      (spBind v = (if romRows prog then 1 else 0) →
        let e := cr.freeWord
        let c0 := if prog = 0xF030 then e.2 else cr
        let oi := if prog = 0xF030 then 2 else 1
        ∀ (c1 c2 : Chip) (vs : List (List W32)),
          c0.romThreads u prog (spTarget v) ds (e.1.extractLsb' 0 32) (List.range (spCount v)) [] = (c1, .ok vs) →
          c1.romWrite u (spTarget v) (ds.getD oi default) 0 (romOut prog g.bindGroup (ds.getD oi default) vs) = (c2, none) →
          exec (.spawn u) ⟨p, c⟩ = .next ⟨p, c2.opDone u 0⟩)) ∧
    (romProg prog = false → ∀ (c1 : Chip) (ws : List Byte),
      (spBind v ≠ 2 ∧ c1 = cr ∧ ws = []) ∨ (spBind v = 2 ∧ ∃ x, cr.readTensor u g = (c1, .ok x) ∧ ws = x.rows.flatten) →
      let pr := tget {} s.image.progs prog
      exec (.spawn u) ⟨p, c⟩ = .next ⟨p, ((bindValues (spBind v) (spCount v) g ws).zipIdx.foldl (fun (c : Chip) b =>
        c.placeThread u.die (spTarget v) (b.2 % targetSize (spTarget v))
          { part := u.part, spawn := u.pos - 118, tid := b.2, bval := b.1, count := spCount v, tag := BitVec.ofNat 16 o.e.tag,
            step := o.step, prog := BitVec.ofNat 16 prog, progVa := pr.va, progLen := pr.len }) c1).modOp u
        (fun o => { o with left := spCount v, busy := true, waiting := false })⟩))

/-! ### The weight cache and faults (chapter 6) -/

/-- The weight cache (R151 to R153): a fill in flight puts its line into its set as the last used one, in a free way or in that of the least
recently used line, whose eviction notice goes on its way, and sets the line's presence bit for the die; a write's snoop drops the line
from both dies and clears its presence bits; an eviction notice that reaches the home clears the die's bit, and one that is not on its way
changes nothing.
It also states the model's own choices of log entry 91. -/
def Obligations.WeightCache : Prop :=
  ∀ (p : List Instr) (c : Chip) (d : Die) (line : Nat), line / 2 ^ 28 < 8 →
    let presence (c : Chip) : BitVec 2 := tget 0 (c.stk (line / 2 ^ 28)).presence line
    (∀ key, (c.die d).fills.find? (fun f => decide (f.1 = line)) = some (line, key) →
      ∃ c1 : Chip, exec (.cacheFill d line) ⟨p, c⟩ = .next ⟨p, c1⟩ ∧
        (∃ l ∈ tget [] (c1.die d).cache (line % 24576), l.line = line ∧ l.key = key ∧ l.used = (c.die d).uses) ∧
        (c1.die d).uses = (c.die d).uses + 1 ∧
        (c1.die d).fills = (c.die d).fills.filter (fun x => decide (x ≠ (line, key))) ∧
        (let set := tget [] (c.die d).cache (line % 24576)
         (set.length < 16 → (tget [] (c1.die d).cache (line % 24576)).length = set.length + 1 ∧
           (c1.die d).notices = (c.die d).notices.filter (fun x => decide (x ≠ line))) ∧
         (16 ≤ set.length → ∃ v ∈ set, (∀ l ∈ set, v.used ≤ l.used) ∧ (tget [] (c1.die d).cache (line % 24576)).length = set.length ∧
           (c1.die d).notices = (c.die d).notices.filter (fun x => decide (x ≠ line)) ++ [v.line])) ∧
        presence c1 = presence c ||| presenceBit d) ∧
    (Tab.wf ([] : List CacheLine) c.w.cache = true → Tab.wf ([] : List CacheLine) c.e.cache = true → Tab.wf ({} : StackSt) c.stks = true →
      Tab.wf (0 : BitVec 2) (c.stk (line / 2 ^ 28)).presence = true → presence c ≠ 0 →
      ∃ c1 : Chip, exec (.invalidateSnoop line) ⟨p, c⟩ = .next ⟨p, c1⟩ ∧
        (∀ m, ∀ l ∈ tget [] (c1.die m).cache (line % 24576), l.line ≠ line) ∧ presence c1 = 0 ∧ c1.dram = c.dram) ∧
    (line ∈ (c.die d).notices → exec (.evictionNotice d line) ⟨p, c⟩ = .next ⟨p,
      (c.modDie d (fun m => { m with notices := m.notices.erase line })).modStk
        (line / 2 ^ 28) (fun x => { x with presence := tmod 0 x.presence line (· &&& ~~~(presenceBit d)) })⟩) ∧
    (line ∉ (c.die d).notices → exec (.evictionNotice d line) ⟨p, c⟩ = .next ⟨p, c⟩)

/-- A trap of a stream that has not stopped, at a unit's slot: the first one of the context's die is kept in CTX_IMP_TRAP with its cause, slot
position, CODE and offset, and later ones overwrite nothing; the command's run then has an end of status 0x0110, or 0x0406 for cause 0x0F;
the stream stops, in state 4, at its die's next boundary (R136, R137, R157).
A mid-stream fault of a unit's descriptor is recorded once in CTX_FAULT, fails the command with its status and stops the
stream at its die's next boundary (R156, R157); an uncorrectable error marks its 256-byte unit of device memory. On a stream that has
stopped neither has any further effect.
It also states the model's own choices of log entry 32. -/
def Obligations.TrapsAndFaultsAreRecorded : Prop :=
  (∀ (c : Chip) (d : Die) (q slot cause code : Nat) (pc : W32) (s : Stream) (r : Run), Tab.wf ({} : Ctx) c.ctxs = true →
    c.stream d q = some s → s.stopped = false → (c.ctx s.ctx).run = some r → slot < 126 →
    let t := c.raiseTrap d q slot cause code pc
    let i := (t.side s.ctx d).imp
    ((c.side s.ctx d).imp.trapValid = false → i.trapValid = true ∧ i.trapCause = BitVec.ofNat 8 cause ∧
      i.trapSlot = BitVec.ofNat 7 slot ∧ i.trapCode = BitVec.ofNat 16 code ∧ i.trapPc = pc) ∧
    ((c.side s.ctx d).imp.trapValid = true → i = (c.side s.ctx d).imp) ∧
    (r.finish = none → ∃ e r', (t.ctx s.ctx).run = some r' ∧ r'.finish = some e ∧ e.status = (if cause = 0x0F then 0x0406 else 0x0110) ∧
      e.first = BitVec.ofNat 7 slot ∧ e.nparts = 1) ∧
    ∃ s', t.stream d q = some s' ∧ s'.trapDue = true ∧ s'.stopSt = 4) ∧
  (∀ (c : Chip) (d : Die) (q slot cause code : Nat) (pc : W32) (s : Stream), c.stream d q = some s → s.stopped = true →
    c.raiseTrap d q slot cause code pc = c) ∧
  (∀ (p : List Instr) (c : Chip) (u : UnitRef) (s : Stream) (kind : BitVec 4) (desc : BitVec 10) (addr : BitVec 52),
    Tab.wf ({} : Ctx) c.ctxs = true → c.stream u.die u.part = some s →
    let c0 : Chip := { c with ecc := if kind = 2 ∧ addr.toNat < 2 ^ 39 then tput false c.ecc (addr.toNat / 256) true else c.ecc }
    let t := c0.opFault u desc.toNat ⟨kind, addr⟩
    exec (.midStreamFault u kind desc addr) ⟨p, c⟩ = .next ⟨p, t⟩ ∧ (s.stopped = true → t = c0) ∧
    (s.stopped = false →
      ((c.side s.ctx u.die).fault.valid = false →
        let f := (t.side s.ctx u.die).fault
        f.valid = true ∧ f.kind = kind ∧ f.unit = BitVec.ofNat 7 u.pos ∧ f.desc = desc ∧ f.addr = addr) ∧
      (∀ r, (c.ctx s.ctx).run = some r → r.finish = none → ∃ e r', (t.ctx s.ctx).run = some r' ∧ r'.finish = some e ∧
        e.status = faultStatus kind ∧ e.first = BitVec.ofNat 7 u.pos ∧ e.nparts = 1) ∧
      ∃ s', t.stream u.die u.part = some s' ∧ s'.trapDue = true) ∧
    faultStatus 1 = 0x0111 ∧ faultStatus 2 = 0x0701 ∧ faultStatus 3 = 0x0601 ∧ faultStatus 4 = 0x0602)

/-! ### Contexts, kills and switches (chapter 13) -/

/-- The wait-graph check (R155): a sample keeps its waits between running commands, each counted on from the sample before where that showed
the same two commands; a cycle of waits that ten samples in a row have shown is broken, a cycle of one command ending it with 0x0112 and
a longer one by killing the youngest command with 0x0503, and the waits of that command end.
Kills (R315, R318 to R320): a kill of a running command that is neither past its commit point nor ended drops its streams,
leaves the command at the head of its queue with one kill more and its context ready, counts in CTX_KILLS and makes a switch due;
a command that waits on a remote module holds the kill instead, and KILL_HELD_RELEASE carries it out when the wait is over; past
the commit point the kill only makes the switch due. PREEMPT kills with 0x0502, the class rule with 0x0501, and not a protected
command.
It also states the model's own choices of log entries 28 and 30. -/
def Obligations.KillsAndWaitCycles : Prop :=
  (∀ (p : List Instr) (c : Chip) (ws : List (Nat × Nat)),
    let c0 : Chip := { c with wgWaits := ws.eraseDups.filterMap c.wgSample }
    let cyc := cycleOf ((c0.wgWaits.filter (fun w => decide (10 ≤ w.samples))).map (fun w => (w.src, w.dst)))
    let then' (n : Nat) (k : Chip) : Chip :=
      ({ k with wgWaits := k.wgWaits.filter (fun w => decide (w.src ≠ n) && decide (w.dst ≠ n)) } : Chip).breakCycles (ws.length - 1)
    (∀ (m n : Nat) (a b : Run), (c.ctx m).run = some a → (c.ctx n).run = some b → ∃ k, c.wgSample (m, n) =
      some { src := m, dst := n, srcAt := a.began, dstAt := b.began, samples := k } ∧
        ((∀ x ∈ c.wgWaits, ¬(x.src = m ∧ x.dst = n ∧ x.srcAt = a.began ∧ x.dstAt = b.began)) → k = 1) ∧
        (∀ x, c.wgWaits.find? (fun x => decide (x.src = m) && decide (x.dst = n) && decide (x.srcAt = a.began) && decide (x.dstAt = b.began)) = some x →
          k = x.samples + 1)) ∧
    (∀ m n, (c.ctx m).run = none ∨ (c.ctx n).run = none → c.wgSample (m, n) = none) ∧
    (cyc = [] → exec (.waitGraphCheck ws) ⟨p, c⟩ = .next ⟨p, c0⟩) ∧
    (∀ n, cyc = [n] → exec (.waitGraphCheck ws) ⟨p, c⟩ = .next ⟨p, then' n ((c0.finish n { status := 0x0112 }).dropStreams n 0x0407)⟩) ∧
    (∀ n, 2 ≤ cyc.length → c0.youngest cyc = some n → exec (.waitGraphCheck ws) ⟨p, c⟩ =
      .next ⟨p, then' n (((c0.countWgKill n).requestKill n 0x0503).settlePart (c0.ctx n).part)⟩)) ∧
  (∀ (p : List Instr) (c : Chip) (n : Nat) (r : Run) (x : ExecCmd) (t : List ExecCmd), (c.ctx n).run = some r → (c.ctx n).execQ = x :: t →
    let q := (c.ctx n).part
    let kill (status : W16) : Chip := (c.doKill n status).settlePart q
    let hold (status : W16) : Chip := c.modCtx n (fun k => { k with held := true, run := some { r with heldKill := some status } })
    let due : Chip := c.modPart q (fun p => { p with switchDue := true })
    (∀ status : W16, let k := (c.doKill n status).ctx n
      k.run = none ∧ k.st = .ready ∧ k.held = false ∧ k.killCount = satAdd (c.ctx n).killCount 1 ∧
      k.execQ = { x with kills := x.kills + 1, stepsDone := x.stepsDone + r.serveSteps } :: t ∧
      ((c.doKill n status).part q).switchDue = true) ∧
    (∀ status : W16, 0x0501 ≤ status.toNat → status.toNat ≤ 0x0504 →
      (r.pastCommit = false → r.finish = none → c.waitsRemote n = false → exec (.kill n status) ⟨p, c⟩ = .next ⟨p, kill status⟩) ∧
      (r.pastCommit = false → r.finish = none → c.waitsRemote n = true →
        exec (.kill n status) ⟨p, c⟩ = .next ⟨p, (hold status).settlePart q⟩) ∧
      (r.pastCommit = true ∨ r.finish ≠ none → exec (.kill n status) ⟨p, c⟩ = .next ⟨p, due.settlePart q⟩)) ∧
    (∀ h : Hdr, h.ctx = n → Taken c h true true → r.pastCommit = false → r.finish = none → c.waitsRemote n = false →
      exec (.preempt h) ⟨p, c⟩ = .next ⟨p, (kill 0x0502).ok h 0⟩) ∧
    ((c.part q).cur = some n → (c.ctx n).latency = false →
      (c.latencyReady q = true → c.isProtected n = false → r.pastCommit = false → r.finish = none → c.waitsRemote n = false →
        exec (.classKill q) ⟨p, c⟩ = .next ⟨p, kill 0x0501⟩) ∧
      (c.latencyReady q = false ∨ c.isProtected n = true → exec (.classKill q) ⟨p, c⟩ = .next ⟨p, c⟩)) ∧
    (∀ status, r.heldKill = some status → (c.ctx n).st ≠ .tearing →
      (c.waitsRemote n = true → exec (.killHeldRelease n) ⟨p, c⟩ = .next ⟨p, c⟩) ∧
      (c.waitsRemote n = false → r.pastCommit = false → exec (.killHeldRelease n) ⟨p, c⟩ = .next ⟨p, kill status⟩) ∧
      (c.waitsRemote n = false → r.pastCommit = true → exec (.killHeldRelease n) ⟨p, c⟩ = .next ⟨p,
        (c.modCtx n (fun k => { k with held := false, run := some { r with heldKill := none } })).modPart q
          (fun p => { p with switchDue := true })⟩)))

/-- The scheduler (R308, R313, R314, R316, R328): a choice makes a ready context loading, a latency-critical one before any
other, and the outgoing one ready or idle; STORE_ZEROING leaves no byte in the platen and engine stores of the partition's units;
the switch makes the loading context the partition's running one, with its slice not begun; SLICE_EXPIRY marks a slice that has
lasted SLICE_MS.
It also states the model's own choices of log entries 38, 49 and 75. -/
def Obligations.Switching : Prop :=
  ∀ (p : List Instr) (c : Chip) (q : Nat),
    (∀ n, c.choiceDue q = true → c.nextCtx q = some n → ((c.part q).cur ≠ some n) →
      ∃ c1 : Chip, exec (.schedulerChoice q) ⟨p, c⟩ = .next ⟨p, c1⟩ ∧ c1.ctx n = { c.ctx n with st := .loading } ∧
        (c.ctx n).st = .ready ∧ ((∃ m ∈ c.ctxsOf q, (c.ctx m).st = .ready ∧ (c.ctx m).latency = true) → (c.ctx n).latency = true) ∧
        (∀ m, (c.part q).cur = some m → (c.ctx m).st = .running →
          c1.ctx m = { c.ctx m with st := if (c.ctx m).execQ = [] then .idle else .ready }) ∧
        ∀ k, k ≠ n → (c.part q).cur ≠ some k → c1.ctx k = c.ctx k) ∧
    (∀ n t, (c.part q).cur = some n → (c.ctx n).sliceStart = some t →
      (t.toNat + (c.part q).sliceMs.toNat * 1000000 ≤ c.now.toNat → exec (.sliceExpiry q) ⟨p, c⟩ =
        .next ⟨p, c.modCtx n (fun x => { x with sliceDone := true })⟩) ∧
      (c.now.toNat < t.toNat + (c.part q).sliceMs.toNat * 1000000 → exec (.sliceExpiry q) ⟨p, c⟩ = .next ⟨p, c⟩)) ∧
    (c.partBusy q = false → (∃ n ∈ c.ctxsOf q, (c.ctx n).st = .loading) →
      ∃ c1 : Chip, exec (.storeZeroing q) ⟨p, c⟩ = .next ⟨p, c1⟩ ∧ (c1.part q).zeroed = true ∧
        (∀ pt a, a < 2 ^ 23 → pt < 64 → bit (c.part q).ptW.toNat pt = true → mget c1.platenMem (platenKey .w pt a) = 0) ∧
        (∀ pt a, a < 2 ^ 23 → pt < 64 → bit (c.part q).ptE.toNat pt = true → mget c1.platenMem (platenKey .e pt a) = 0) ∧
        (∀ d te a, a < 2 ^ 20 → te < 32 → bit (c.part q).te.toNat (d.num * 32 + te) = true → mget c1.engineMem (engineKey d te a) = 0) ∧
        c1.host = c.host ∧ c1.dram = c.dram ∧ c1.ctxs = c.ctxs) ∧
    (∀ n, c.partBusy q = false → (c.ctxsOf q).find? (fun n => decide ((c.ctx n).st = .loading)) = some n →
      ∃ c1 : Chip, exec (.contextSwitch q) ⟨p, c⟩ = .next ⟨p, c1⟩ ∧ (c1.part q).cur = some n ∧ (c1.part q).switchDue = false ∧
        (c1.ctx n).st = .running ∧ (c1.ctx n).sliceStart = none ∧ (c1.ctx n).sliceDone = false)

/-- Tear-down and resets (R319, R321, R334): CONTEXT_TEARDOWN for one of its three causes tears the context down, or holds it
while its command waits on a remote module; afterwards the context is free and has no page. A reset of a VF unbinds it and takes
its context's ring pages; a reset of the PF leaves no VF bound and no ring enabled.
It also states the model's own choices of log entry 29. -/
def Obligations.TeardownAndReset : Prop :=
  ∀ (p : List Instr) (c : Chip) (n : Nat) (status : W16), tearStatus status = true → Tab.wf ({} : Ctx) c.ctxs = true →
    (c.waitsRemote n = false → (c.ctx n).st ≠ .free →
      exec (.contextTeardown n status) ⟨p, c⟩ = .next ⟨p, (c.teardown n { status := status }).settlePart (c.ctx n).part⟩ ∧
      let x := (c.teardown n { status := status }).ctx n
      x.st = .free ∧ x.pages = [] ∧ x.execQ = [] ∧ x.run = none) ∧
    (∀ r, (c.ctx n).run = some r → c.waitsRemote n = true → exec (.contextTeardown n status) ⟨p, c⟩ =
      .next ⟨p, c.modCtx n (fun x => { x with st := .tearing, held := true, run := some { r with heldKill := some status } })⟩) ∧
    (tearStatus status = true ↔ status = 0x0701 ∨ status = 0x0703 ∨ status = 0x0405) ∧
    (∀ fn, fn ≠ 0 → Tab.wf ({} : Vf) c.vfs = true →
      exec (.functionLevelReset fn) ⟨p, c⟩ = .next ⟨p, c.resetVf fn⟩ ∧ (c.resetVf fn).boundCtx fn = none) ∧
    (exec (.functionLevelReset 0) ⟨p, c⟩ = .next ⟨p, c.hotReset⟩ ∧ c.hotReset.vfs = [] ∧ ∀ k r, (c.hotReset.ring k r).enable = false)

/-! ### Steps and serving (chapters 9 to 11) -/

/-- The commit point (R202, R296): a step that is ready for it waits while a shipment pins it, with HELD set, else it passes it.
A vote that is complete and agrees lets it pass with RESULT 1 (R260); a vote of different steps fails the step with 0x0403, and sends
the PSET digests where they differ; an incomplete vote waits, and at its timeout fails the step with 0x0401 and RESULT 6 (R259).
It also states the model's own choices of log entries 41 and 47. -/
def Obligations.CommitAndVote : Prop :=
  ∀ (p : List Instr) (c : Chip) (n : Nat) (r : Run), (c.ctx n).run = some r →
    (c.commitReady n = true → (c.ctx n).commitPinned = false →
      exec (.commitPoint n) ⟨p, c⟩ = .next ⟨p, c.commitNow n r⟩ ∧
      ∃ r', ((c.commitNow n r).ctx n).run = some r' ∧ r'.pastCommit = true ∧
        ((c.commitNow n r).ctx n).doneSteps = r.step :: (c.ctx n).doneSteps ∧
        ((c.ctx n).train.committable = false → ((c.commitNow n r).ctx n).train.active = (c.ctx n).train.active)) ∧
    (c.commitReady n = true → (c.ctx n).commitPinned = true →
      ∃ c1 : Chip, exec (.commitPoint n) ⟨p, c⟩ = .next ⟨p, c1⟩ ∧ (c1.ctx n).proof.held = true ∧
        (c1.ctx n).train = (c.ctx n).train ∧ ∃ r', (c1.ctx n).run = some r' ∧ r'.pastCommit = r.pastCommit) ∧
    (c.commitReady n = false → exec (.commitPoint n) ⟨p, c⟩ = .next ⟨p, c⟩) ∧
    (c.voting n = true →
      (∀ votes vs, let g := c.voteGroup n
        let own := c.ownVotes n g r
        let c0 : Chip := { c with vote := c.vote.straggle g vs c.now }
        allVotes g.p own votes = some vs →
        (voteOutcome c0.vote g (own.map (·.index)) vs (vs.all (·.committable)) = .mismatch →
          exec (.voteReceived n votes) ⟨p, c⟩ = .next ⟨p,
            (if vs.all (·.committable) && !agree c0.vote.shards.toNat vs then c0.sendPsets g own else c0).stepFail n 0x0403 0⟩) ∧
        (voteOutcome c0.vote g (own.map (·.index)) vs (vs.all (·.committable)) = .agreed →
          ∃ c1 : Chip, exec (.voteReceived n votes) ⟨p, c⟩ = .next ⟨p, c1⟩ ∧ c1.vote = { c0.vote with result := 1 } ∧
            ∃ r', (c1.ctx n).run = some r' ∧ r'.voteDone = true)) ∧
      (∀ votes, allVotes (c.voteGroup n).p (c.ownVotes n (c.voteGroup n) r) votes = none →
        exec (.voteReceived n votes) ⟨p, c⟩ = .next ⟨p, c⟩) ∧
      exec (.voteTimeout n) ⟨p, c⟩ = .next ⟨p, ({ c with vote := { c.vote with result := 6 } } : Chip).stepFail n 0x0401 0⟩)

/-- A serve step (R270, R271, R346): at the boundary between steps the waiting stream commands are done, absent models' streams
and deadlines are dealt with, and the batches are formed; with none the command ends with VALUE its count of steps, else the
batches are written and their serving images start. When every entry has completed the step counts. A park or an unpark in flight
on a die ends with its stream parked, or back in the state it held (R278, R279).
It also states the model's own choices of log entries 51, 52, 53 and 54. -/
def Obligations.ServeSteps : Prop :=
  ∀ (p : List Instr) (c : Chip) (n : Nat),
    (c.betweenSteps n = true →
      let c1 := ((c.streamRequests n).absentModels n).autoUnpark n
      let f := ((c1.streamsOf n).foldl (fun c i => c.monitorOne i) c1).formBatches n
      (f.2 = [] → exec (.serveStepLaunch n) ⟨p, c⟩ =
        .next ⟨p, f.1.finish n { status := 0, value := BitVec.ofNat 32 (f.1.ctx n).stepsServed }⟩) ∧
      (f.2 ≠ [] → exec (.serveStepLaunch n) ⟨p, c⟩ = .next ⟨p,
        ((f.2.foldl (fun (k : Chip) b => (k.writeBatch n (k.model b.1).hdr b.2 (f.1.ctx n).serveStep).classLists n b.1 b.2) f.1).modRun n
          (fun r => { r with serveOpen := true, serveQ := f.2.map (·.1), batches := f.2,
                             step := BitVec.ofNat 48 (f.1.ctx n).serveStep })).startServe n⟩)) ∧
    (c.betweenSteps n = false → exec (.serveStepLaunch n) ⟨p, c⟩ = .next ⟨p, c⟩) ∧
    (∀ (r : Run) (h : Hdr) (a : ServeP) (x : ExecCmd) (t : List ExecCmd) (ns : Nat),
      (c.ctx n).run = some r → (c.ctx n).execQ = x :: t → x.cmd = .serve h a → r.serveOpen = true → r.serveQ = [] →
      c.streamsEnded n = true → r.finish = none →
      let c0 := r.batches.foldl (fun (k : Chip) b => (k.stopRows n b.1 b.2).modModel b.1 (fun m =>
        { m with stepNs := stepNsAfter m.stepNs ns, last := c.now })) c
      let c1 := (c0.modRun n (fun r => { r with serveOpen := false, serveSteps := r.serveSteps + 1, batches := [] })).modCtx n
        (fun x => { x with serveStep := x.serveStep + 1 })
      (a.count ≠ 0 → a.count.toNat ≤ (c1.ctx n).stepsServed → exec (.stopDetection n ns) ⟨p, c⟩ =
        .next ⟨p, c1.finish n { status := 0, value := BitVec.ofNat 32 (c1.ctx n).stepsServed }⟩) ∧
      (a.count = 0 ∨ (c1.ctx n).stepsServed < a.count.toNat → exec (.stopDetection n ns) ⟨p, c⟩ = .next ⟨p, c1⟩)) ∧
    (∀ (d : Die) (i : Nat), c.moveOn d = some i →
      ((c.entry i).unparking = false → exec (.parkComplete d) ⟨p, c⟩ = .next ⟨p, c.parkEnd i⟩ ∧
        ((c.parkEnd i).entry i).st = .parked ∧ ((c.parkEnd i).entry i).blocks = [] ∧ exec (.unparkComplete d) ⟨p, c⟩ = .next ⟨p, c⟩) ∧
      ((c.entry i).unparking = true → exec (.unparkComplete d) ⟨p, c⟩ = .next ⟨p, c.unparkEnd i⟩ ∧
        ((c.entry i).back ≠ .free → ((c.unparkEnd i).entry i).st = (c.entry i).back) ∧
        exec (.parkComplete d) ⟨p, c⟩ = .next ⟨p, c⟩))

/-! ### Ridge, ports and registers (chapters 1, 10, 16) -/

/-- With no command waiting a step is one tick of the Ridge clock: the three copies of Ridge time gain 1 ns and nothing else
changes, but for the phase error of a slew in progress (R22, R23; that the empty queue ticks is the model's choice, log entry 1).
Purlin ports and the Ridge reference (R23, R24, R26, R233, R247, R391). A live port that loses signal goes to state 1, counts
once, its margin reads 0; a port with no signal that gets one settles as live, held down for a lower epoch, or held down for a
wrong neighbour. A lost reference sets HOLDOVER and clears LOCKED. Once the counters have been locked, a reference that returns with
an error that may not be stepped, at most 1 µs after a holdover, is taken under lock and slewed; before that, or with a larger error
after a holdover, every counter of the module steps by the same amount, and lock follows.
It also states the model's own choices of log entries 1, 66 and 67. -/
def Obligations.PortsAndRidge : Prop :=
  (∀ (c : Chip), step { pending := [], chip := c } = .next { pending := [], chip := c.tick } ∧
    c.tick.w.ridge = c.w.ridge + 1 ∧ c.tick.e.ridge = c.e.ridge + 1 ∧
    c.tick.ridge.now = c.ridge.now + 1 ∧ (c.ridge.slew = false → c.tick.ridge = { c.ridge with now := c.ridge.now + 1 }) ∧
    { c.tick with ridge := c.ridge, w := c.w, e := c.e } = c) ∧
  (∀ (p : List Instr) (c : Chip) (port : Nat),
    ((c.pport port).st = 3 → exec (.portDown port) ⟨p, c⟩ = .next ⟨p, c.portFalls port 1⟩ ∧
      exec (.laneRetrain port) ⟨p, c⟩ = .next ⟨p, c.portFalls port 6⟩ ∧
      ∀ st, st = 1 ∨ st = 6 → (c.portFalls port st).pport port =
        { c.pport port with st := st, down := (c.pport port).down.event c.now, margin := 0 }) ∧
    ((c.pport port).st = 4 ∨ (c.pport port).st = 5 →
      exec (.portDown port) ⟨p, c⟩ = .next ⟨p, c.modPort port (fun x => { x with st := 1 })⟩) ∧
    (∀ (m : BitVec 10) (k : BitVec 3) (e : Byte),
      ((c.pport port).st = 1 → ∃ c1 : Chip, exec (.portPlug port m k e) ⟨p, c⟩ = .next ⟨p, c1⟩ ∧
        (c1.pport port).neighbour = m ∧ (c1.pport port).epoch = e ∧
        (e < c.domain.epoch → (c1.pport port).st = 4) ∧
        (c.domain.epoch ≤ e → c.fits port m.toNat k.toNat = false → (c1.pport port).st = 5) ∧
        (c.domain.epoch ≤ e → c.fits port m.toNat k.toNat = true → (c1.pport port).st = 3)) ∧
      ((c.pport port).st ≠ 1 → exec (.portPlug port m k e) ⟨p, c⟩ = .next ⟨p, c⟩) ∧
      (2 ≤ (c.pport port).st.toNat → exec (.neighbourEpochReport port m k e) ⟨p, c⟩ =
        .next ⟨p, (c.setNeighbour port m k e).settlePort port⟩)) ∧
    (c.ridge.src ≠ 2 → c.ridge.holdover = false → ∃ c1 : Chip, exec .referenceLoss ⟨p, c⟩ = .next ⟨p, c1⟩ ∧
      c1 = { c with ridge := c1.ridge } ∧ c1.ridge.holdover = true ∧ c1.ridge.locked = false ∧ c1.ridge.now = c.ridge.now ∧
      (c.ridge.lossNotice = false → c1.ridge.lossNotice = true ∧ c1.ridge.lossCount = 1 ∧ c1.ridge.lossTime = c.ridge.now) ∧
      (c.ridge.lossNotice = true → c1.ridge.lossCount = satAdd c.ridge.lossCount 1 ∧ c1.ridge.lossTime = c.ridge.lossTime)) ∧
    (∀ (err : W16) (ns : Int), c.ridge.src ≠ 2 → c.ridge.locked = false → c.ridge.hasSource = true →
      (c.ridge.everLocked = true → c.ridge.holdover = false ∨ ns.natAbs ≤ 1000 → exec (.referenceReturn err ns) ⟨p, c⟩ =
        .next ⟨p, { c with ridge := { c.ridge with
          holdover := false, locked := true, srcActive := c.ridge.src, phaseErr := err, slew := decide (4 ≤ err.toInt.natAbs) } }⟩) ∧
      (c.ridge.everLocked = false ∨ (c.ridge.holdover = true ∧ 1000 < ns.natAbs) → ∃ c1 : Chip, exec (.referenceReturn err ns) ⟨p, c⟩ = .next ⟨p, c1⟩ ∧ c1.ridge.locked = false ∧
        c1.ridge.holdover = false ∧ c1.ridge.now = c.ridge.now + BitVec.ofInt 64 ns ∧ c1.w.ridge = c.w.ridge + BitVec.ofInt 64 ns ∧
        c1.e.ridge = c.e.ridge + BitVec.ofInt 64 ns)) ∧
    (c.ridge.holdover = false → c.ridge.locked = false → c.ridge.hasSource = true →
      exec .ridgeLockAcquired ⟨p, c⟩ = .next ⟨p, { c with ridge := { c.ridge with
        locked := true, everLocked := c.ridge.everLocked || decide (c.ridge.src ≠ 2), slew := decide (4 ≤ c.ridge.phaseErr.toInt.natAbs) } }⟩) ∧
    (c.ridge.src = 1 → c.ridge.holdover = true → c.ridge.upstream = 0xF → ∀ (k n : Nat) (root : BitVec 10), c.upstreamOf = some (k, n, root) →
      exec .ridgeUpstreamSwitch ⟨p, c⟩ = .next ⟨p, { c with ridge := { c.ridge with
        upstream := BitVec.ofNat 4 k, hops := BitVec.ofNat 5 n, rootInUse := root } }⟩))

/-- RIDGE_NOW (R26): a read of its low half returns bits 31:0 of the management-domain counter and latches bits 63:32; a following
read at offset 0x0002_0054 returns the latched half, whatever happened to the counter; a 64-bit read returns both halves of one
instant; writes change nothing. -/
def Obligations.RidgeNowRegister : Prop :=
  ∀ (p : List Instr) (c : Chip) (fn : Nat),
    let latched : Chip := { c with ridge := { c.ridge with latch := c.ridge.now.extractLsb' 32 32 } }
    exec (.ridgeNowRead fn) ⟨p, c⟩ = .next ⟨p, { latched with rdata := leBytes 4 (c.ridge.now.toNat % 2 ^ 32) }⟩ ∧
    exec (.registerReadClear fn 0 0x20050 4) ⟨p, c⟩ = .next ⟨p, { latched with rdata := leBytes 4 (c.ridge.now.toNat % 2 ^ 32) }⟩ ∧
    (∀ c1 : Chip, c1.ridge.latch = c.ridge.now.extractLsb' 32 32 →
      exec (.registerReadClear fn 0 0x20054 4) ⟨p, c1⟩ = .next ⟨p, { c1 with rdata := leBytes 4 (c.ridge.now.toNat / 2 ^ 32) }⟩) ∧
    exec (.registerReadClear fn 0 0x20050 8) ⟨p, c⟩ = .next ⟨p, { latched with rdata := leBytes 8 c.ridge.now.toNat }⟩ ∧
    (∀ w : BitVec 128, exec (.registerWrite fn 0 0x20050 4 w) ⟨p, c⟩ = .next ⟨p, c⟩ ∧
      exec (.registerWrite fn 0 0x20054 4 w) ⟨p, c⟩ = .next ⟨p, c⟩ ∧ exec (.registerWrite fn 0 0x20050 8 w) ⟨p, c⟩ = .next ⟨p, c⟩)

/-- Registers of each access type (R7, R191): a read answers with the register's bytes; a read of GUT_LOSS_SUM's low half latches
its high half; a read of a counter that clears on read returns the count and leaves zero there; a write of 1 to a notice bit clears
the notice with its count and time, a write of 0 leaves them; a selector takes the value written.
It also states the model's own choices of log entry 62. -/
def Obligations.RegisterAccess : Prop :=
  ∀ (p : List Instr) (c : Chip),
    (∀ fn bar off size : Nat, exec (.registerReadClear fn bar off size) ⟨p, c⟩ =
      .next ⟨p, { (c.regRead fn bar off size).1 with rdata := (c.regRead fn bar off size).2 }⟩) ∧
    (∀ d : Die, exec (.gutLossSumRead 0 d) ⟨p, c⟩ = .next ⟨p, { (c.modDie d (fun m =>
        { m with gut := { m.gut with lossLatch := BitVec.ofNat 64 ((c.die d).gut.lossSum.toNat / 2 ^ 64) } })) with
          rdata := leBytes 8 ((c.die d).gut.lossSum.toNat % 2 ^ 64) }⟩) ∧
    (let n := c.ctxSel.toNat
     let k := c.side n .w
     exec (.registerReadClear 0 0 0x30008 4) ⟨p, c⟩ = .next ⟨p, { (c.modSide n .w (fun k =>
        { k with flags := tmod {} k.flags k.flagSel.toNat (fun e => { e with ovf := 0 }) })) with
          rdata := leBytes 4 (tget {} k.flags k.flagSel.toNat : FlagCounts).ovf.toNat }⟩ ∧
     ∀ w : BitVec 128, exec (.registerWrite 0 0 0x30000 4 w) ⟨p, c⟩ =
       .next ⟨p, c.modSide n .w (fun k => { k with flagSel := w.extractLsb' 0 12 })⟩) ∧
    (∀ w : BitVec 128,
      (bit w.toNat 2 = true → exec (.registerWrite 0 0 0x20040 4 w) ⟨p, c⟩ =
        .next ⟨p, { c with ridge := { c.ridge with lossNotice := false, lossCount := 0, lossTime := 0 } }⟩) ∧
      (bit w.toNat 2 = false → exec (.registerWrite 0 0 0x20040 4 w) ⟨p, c⟩ = .next ⟨p, c⟩))

/-! ### Memory, stacks and power (chapters 4, 14, 15) -/

/-- Memory from outside (R201, R327, R363): the first write to a page leaves it zero and written; a BAR4 read of a function with a
context returns the bytes at BAR4_BASE and the offset, a write stores them there, or, on a page that the one migration in flight
copies, waits with it for the switch (R101); a read from another module is answered with the bytes, sent to it by the port its route
leaves by, or with nothing where the read fails.
It also states the model's own choices of log entries 70, 71, 74 and 87. -/
def Obligations.MemoryFromOutside : Prop :=
  ∀ (p : List Instr) (c : Chip) (n : Nat),
    (∀ (va : W48) (g : Page), (c.ctx n).page va.toNat = some g →
      exec (.pageFirstWrite n va) ⟨p, c⟩ = .next ⟨p, c.firstWrite n va.toNat (g.useB (c.ctx n) .active)⟩ ∧
      ((g.copy (g.useB (c.ctx n) .active)).written = true → exec (.pageFirstWrite n va) ⟨p, c⟩ = .next ⟨p, c⟩) ∧
      ((g.copy (g.useB (c.ctx n) .active)).written = false →
        let k := g.copy (g.useB (c.ctx n) .active)
        (c.firstWrite n va.toNat (g.useB (c.ctx n) .active)).dram = zeroCopy c.dram k ∧
        ∃ g', ((c.firstWrite n va.toNat (g.useB (c.ctx n) .active)).ctx n).page va.toNat = some g' ∧
          (g'.copy (g.useB (c.ctx n) .active)).written = true)) ∧
    (∀ (fn : Nat) (off : BitVec 38), c.shown fn = some n →
      let va := (c.ctx n).bar4Base.toNat * 2 ^ 38 + off.toNat
      (∀ (len : Nat) (c1 : Chip) (bs : List Byte), c.readVa n va len = (c1, .ok bs) →
        exec (.bar4Access fn off none len) ⟨p, c⟩ = .next ⟨p, { c1 with rdata := bs }⟩) ∧
      (∀ bs : List Byte, c.copying n va bs.length = false →
        exec (.bar4Access fn off (some bs) bs.length) ⟨p, c⟩ = .next ⟨p, (c.writeVa n va bs).1⟩) ∧
      (∀ (bs : List Byte) (st : Nat) (m : Migration), c.stks = [(st, c.stk st)] → (c.stk st).mig = some m → st < 8 →
        c.copying n va bs.length = true → Tab.wf ({} : StackSt) c.stks = true →
        ∃ c1 : Chip, exec (.bar4Access fn off (some bs) bs.length) ⟨p, c⟩ = .next ⟨p, c1⟩ ∧ c1 = { c with stks := c1.stks } ∧
          (c1.stk st).mig = some { m with held := m.held ++ [(n, va, bs)] })) ∧
    (∀ (src : BitVec 10) (va : W48) (len : Nat) (c1 : Chip),
      (∀ bs, c.readVa n va.toNat len = (c1, .ok bs) → exec (.peerReadRequest ⟨src, n⟩ va len) ⟨p, c⟩ =
        .next ⟨p, { c1 with sent := c1.sent ++ [{ kind := 5, dest := src.toNat, data := bs, port := (c1.domain.route src.toNat).map (·.1) }] }⟩) ∧
      (∀ f, c.readVa n va.toNat len = (c1, .error f) → exec (.peerReadRequest ⟨src, n⟩ va len) ⟨p, c⟩ = .next ⟨p, c1⟩))

/-- Stacks (R99 to R102, R372). A window out of balance counts, and the thousandth in a row makes the stack hot; a hundred
balanced ones end it. A hot stack that may migrate moves the page chosen to free space, or counts a skip; the switch gives the
page its new place under SALT + 1 and counts, and what waited for it is written; the old space is free, and its bytes gone, once no
unit uses a list fetched before the switch. The gating level rises by one in a period at 95 °C or
more, up to 7, and falls by one below 92 °C.
It also states the model's own choices of log entries 69 and 70. -/
def Obligations.StackEvents : Prop :=
  ∀ (p : List Instr) (c : Chip) (st : Nat),
    (∀ ch inter : List Nat, sumNat ch ≠ 0 → exec (.trafficWindow st ch inter) ⟨p, c⟩ =
      .next ⟨p, c.modStk st (fun k => k.window st ch inter ((busiest ch).1 * 256 / sumNat ch) c.now)⟩) ∧
    (∀ (k : StackSt) (ch inter : List Nat) (ratio : Nat) (now : W64),
      let k' := k.window st ch inter ratio now
      let bad := chanImbalance ch || stackImbalance st inter
      (bad = true → k'.badRun = k.badRun + 1 ∧ k'.goodRun = 0) ∧ (bad = false → k'.badRun = 0 ∧ k'.goodRun = k.goodRun + 1) ∧
      (bad = true → 999 ≤ k.badRun → k'.chanHot = true ∨ k'.stackHot = true) ∧
      (bad = false → 99 ≤ k.goodRun → k'.chanHot = false ∧ k'.stackHot = false)) ∧
    (∀ (samples : List (Nat × Nat × Nat)) (n vp : Nat) (g : Page) (b : Bool), (c.stk st).mayMigrate c.now = true →
      c.hotPage st samples = some (n, vp) → c.liveCopy n vp = some (g, b) →
      (∀ f, c.findPlace (g.copy b).phys.place = some f → exec (.pageMigration st samples) ⟨p, c⟩ =
        .next ⟨p, ({ c with fresh := c.fresh + 1 } : Chip).modStk st (fun k =>
          { k with mig := some { ctx := n, page := vp, copyB := b, fresh := f }, lastMig := some c.now })⟩) ∧
      (c.findPlace (g.copy b).phys.place = none → exec (.pageMigration st samples) ⟨p, c⟩ =
        .next ⟨p, c.modStk st (fun k => { k with skipped := satAdd k.skipped 1 })⟩)) ∧
    (∀ (m : Migration) (g : Page), (c.stk st).mig = some m → tget none (c.ctx m.ctx).pages m.page = some g → g.spilled = false →
      g.granted = false → (g.copy m.copyB).phys.place = m.fresh.place →
      let old := g.copy m.copyB
      let new : PageCopy := { old with phys := m.fresh, salt := old.salt + 1 }
      let c1 := ((c.modStk st (fun k => { k with mig := none })).copyOver old new).redirect old new
      let c2 := (((c1.modDie .w (·.keep m.fresh old)).modDie .e (·.keep m.fresh old)).modStk st (fun k =>
        { k with old := [old.phys], done := satAdd k.done 1 }))
      exec (.migrationSwitch st) ⟨p, c⟩ = .next ⟨p, c2.landHeld m⟩ ∧
      (Tab.wf ({} : Ctx) c.ctxs = true → Tab.wf none (c.ctx m.ctx).pages = true →
        ∃ g', tget none (c2.ctx m.ctx).pages m.page = some g' ∧ g'.copy m.copyB = new)) ∧
    ((∃ k ∈ (c.stk st).old, c.w.viewUses k = true ∨ c.e.viewUses k = true) → exec (.migrationFree st) ⟨p, c⟩ = .next ⟨p, c⟩) ∧
    (∀ old : Phys, (c.stk st).old = [old] → c.w.viewUses old = false → c.e.viewUses old = false →
      Tab.wf ({} : StackSt) c.stks = true → ∃ c1 : Chip,
        exec (.migrationFree st) ⟨p, c⟩ = .next ⟨p, c1⟩ ∧ (c1.stk st).old = [] ∧ c1.ctxs = c.ctxs ∧
        c1.dram = zeroCopy c.dram { phys := old, salt := 0, hash := 0, written := false }) ∧
    (∀ t : Byte, st < 8 → Tab.wf ({} : StackSt) c.stks = true → ∃ c1 : Chip, exec (.gatingPeriod st t) ⟨p, c⟩ = .next ⟨p, c1⟩ ∧
      let g := (c.stk st).gate
      c1.stk st = { c.stk st with temp := t, gate :=
        if 95 ≤ t.toNat then (if g = 7 then 7 else g + 1) else if t.toNat < 92 then (if g = 0 then 0 else g - 1) else g } ∧
      (∀ m, m ≠ st → c1.stk m = c.stk m))

/-- Power (R368, R370, R371, R373, R376). The control rules in their order give the target; a hotspot of 110 °C or more sends it
to 900 MHz whatever else holds. A sprint ends after 250 ms or at 100 °C. Droop moves a platen's offset by one between −8 and +15
and a hold, once set, ends at its sensor's recovery; a clip window of 1,024 executions adapts the threshold; a trip switches every rail but
VMGMT off, loses every context and is stored.
It also states the model's own choices of log entries 43 and 55. -/
def Obligations.PowerEvents : Prop :=
  ∀ (p : List Instr) (c : Chip) (d : Die),
    (∀ (w : W16) (hot : Byte) (lim : Bool), ∃ c1 : Chip, exec (.frequencyControl d w hot lim) ⟨p, c⟩ = .next ⟨p, c1⟩ ∧
      c1.pwr.watts = w ∧ (c1.die d).hotspot = hot ∧ (110 ≤ hot.toNat → (c1.die d).target = 900 ∧ (c1.die d).emergency = true) ∧
      (100 ≤ hot.toNat → hot.toNat < 110 → (c1.die d).target.toNat = max 900 ((c.die d).target.toNat - 50)) ∧
      (100 ≤ hot.toNat → c1.pwr.sprinting = false)) ∧
    (∀ (watts ceiling hot : Nat) (above sprinting rise : Bool) (t : Nat), 900 ≤ t →
      let r := freqRule watts ceiling hot above sprinting rise t
      900 ≤ r.2 ∧ r.2 ≤ max t (if sprinting then 2100 else 1800) ∧ (hot < 100 → above = true → r.2 = max 900 (t - 50)) ∧
      (t < r.2 → above = false ∧ watts + 30 ≤ ceiling ∧ hot ≤ 95 ∧ rise = true ∧ r.2 ≤ t + 50)) ∧
    (c.sprintOver = true → exec .sprintEnd ⟨p, c⟩ = .next ⟨p, c.endSprint⟩ ∧ c.endSprint.pwr.sprinting = false) ∧
    (c.sprintOver = false → exec .sprintEnd ⟨p, c⟩ = .next ⟨p, c⟩) ∧
    (∀ pt, pt < 64 →
      exec (.droopCorrection d pt) ⟨p, c⟩ = .next ⟨p, c.modPlaten d pt (fun x => { x with offset := min 15 (x.offset + 1) })⟩ ∧
      exec (.droopRelax d pt) ⟨p, c⟩ = .next ⟨p, c.modPlaten d pt (fun x => { x with offset := max (-8) (x.offset - 1) })⟩ ∧
      exec (.emergencyHold d pt) ⟨p, c⟩ = .next ⟨p, c.modPlaten d pt (fun x => { x with hold := true, heldBeat := true })⟩ ∧
      exec (.droopSensorRecovery d pt) ⟨p, c⟩ = .next ⟨p, c.modPlaten d pt (fun x => { x with hold := false })⟩) ∧
    (∀ (n : Nat) (tag : BitVec 12), let k : WidenEntry := tget {} (c.side n d).widen tag.toNat
      c.pwr.clipAdapt = true → c.boot.mode = 1 → (c.ctx n).st = .running → k.enable = true → 1024 ≤ k.execs →
      exec (.clipAdaptWindow n d tag) ⟨p, c⟩ =
        .next ⟨p, c.modSide n d (fun x => { x with widen := tmod {} x.widen tag.toNat (·.adapt c.pwr.clipMax.toNat) })⟩) ∧
    (c.pwr.railsOn = true → (115 ≤ (c.die d).hotspot.toNat ∨ ∃ st, st < 8 ∧ 110 ≤ (c.stk st).temp.toNat) →
      ∃ c1 : Chip, exec .thermalTrip ⟨p, c⟩ = .next ⟨p, c1⟩ ∧ c1.pwr.railsOn = false ∧ c1.pwr.tripped = true ∧ c1.boot.norTrip = true ∧
        c1.boot.linkUp = false ∧ c1.live = [] ∧ c1.host = c.host ∧ c1.boot.phase = c.boot.phase)

/-! ### Bring-up and debug (chapters 16, 17) -/

/-- Bring-up (R381 to R395, R382): IDENT, the election, the base configuration, the self-test and READY follow one another through
phases 2 to 6; an election without the other die enters HOLD with code 1, no good configuration with code 2, a phase past its
limit with code 3, a critical self-test failure with code 4.
It also states the model's own choices of log entries 56, 57 and 83. -/
def Obligations.BringUp : Prop :=
  ∀ (p : List Instr) (c : Chip),
    let b := c.boot
    let hold (c : Chip) (code : Byte) : Chip := { c with boot := { c.boot with phase := 7, holdCode := code } }
    (∀ sw se sb : Bool, c.pwr.railsOn = true → b.phase = 1 ∨ b.phase = 2 → ∃ c1 : Chip,
      exec (.ident sw se sb) ⟨p, c⟩ = .next ⟨p, c1⟩ ∧ c1.boot.phase = 2 ∧ c1.boot.strapW = sw ∧ c1.boot.strapE = se ∧ c1.boot.strapBoot = sb ∧
        c1.boot.colW = b.colW ∧ c1.boot.governing = govOf b.colW ∧ (b.norTrip = true → c1.boot.prev = 3 ∧ c1.boot.norTrip = false)) ∧
    (b.phase = 2 →
      exec (.primaryElection false) ⟨p, c⟩ = .next ⟨p, hold c 1⟩ ∧
      ∃ c1 : Chip, exec (.primaryElection true) ⟨p, c⟩ = .next ⟨p, c1⟩ ∧ c1.boot.phase = 3 ∧
        c1.boot.prim = (if b.claims .e && !b.claims .w then .e else .w) ∧
        (b.claims .w = b.claims .e → c1.boot.primFault = true ∧ c1.boot.attention = true) ∧
        c1.boot.governing = govOf (b.col c1.boot.prim) ∧
        c1.pwr.limit = (if c1.boot.governing.limitW = 0 then 1500 else c1.boot.governing.limitW)) ∧
    (c.pwr.railsOn = true → 3 ≤ b.phase.toNat → b.phase ≠ 7 →
      exec .linkTraining ⟨p, c⟩ = .next ⟨p, { c with boot := { b with linkUp := true, perst := false } }⟩) ∧
    (b.phase = 3 → let c1 : Chip := { c with boot := { b with phase := 4 } }
      (c.boot.fromHost = true → exec .baseConfigLoad ⟨p, c⟩ = .next ⟨p, c1⟩) ∧
      (b.fromHost = false → (∀ k, configOf b.norA = some k → exec .baseConfigLoad ⟨p, c⟩ = .next ⟨p, c1.applyConfig k 1⟩) ∧
        (∀ k, configOf b.norA = none → configOf b.norB = some k → exec .baseConfigLoad ⟨p, c⟩ = .next ⟨p, c1.applyConfig k 2⟩) ∧
        (configOf b.norA = none → configOf b.norB = none → exec .baseConfigLoad ⟨p, c⟩ = .next ⟨p, hold c1 2⟩))) ∧
    (∀ (img : List Byte) (k : BaseConfig), b.phase = 4 → b.fromHost = true → b.src = 0 → img ≠ [] → configOf img = some k →
      exec (.bootldFetch img) ⟨p, c⟩ =
        .next ⟨p, ({ c with boot := { b with ldLen := BitVec.ofNat 23 img.length } } : Chip).applyConfig k 3⟩) ∧
    (∀ r : SelfTestResult, b.phase = 4 → b.src ≠ 0 →
      let c1 : Chip := { c with boot := { (b.tested r b.governing.fullTest) with phase := 5 } }
      exec (.selftest r) ⟨p, c⟩ = .next ⟨p, if r.criticalFail then hold c1 4 else c1.applyOverlay b.defOvl (tget [] b.overlays b.defOvl)⟩) ∧
    (b.phase = 5 → b.stDone = true → exec .ready ⟨p, c⟩ = .next ⟨p, { c with boot := { b with phase := 6 } }⟩) ∧
    (b.phase ≠ 5 → exec .ready ⟨p, c⟩ = .next ⟨p, c⟩) ∧
    (b.phase.toNat ≤ 5 → (b.phase = 4 → b.fromHost = false) → exec .phaseTimeout ⟨p, c⟩ = .next ⟨p, hold c 3⟩)

/-- Loss of power, resets and the button (R379, R388, R406 to R415): each reset leaves no context, keeps the Colophon copies, the
SPI NOR device and host memory, and starts bring-up again at its phase with its PREV code; PERST# takes the link down; QUIESCE
runs from READY to phase 8 and after QUIESCE_S seconds, 0 standing for 60, ends in phase 9 with the boost counts stored; COLPROG writes the next generation of both copies.
It also states the model's own choices of log entry 58. -/
def Obligations.ResetsAndButton : Prop :=
  ∀ (p : List Instr) (c : Chip),
    let b := c.boot
    let fresh (i : Instr) (phase prev : BitVec 4) : Prop := ∃ c1 : Chip, exec i ⟨p, c⟩ = .next ⟨p, c1⟩ ∧ c1.live = [] ∧ c1.host = c.host ∧
      c1.dram = [] ∧ c1.boot.colW = b.colW ∧ c1.boot.colE = b.colE ∧ c1.boot.norA = b.norA ∧ c1.boot.norB = b.norB ∧
      c1.boot.phase = phase ∧ c1.boot.prev = prev ∧ c1.ridge = {}
    (c.pwr.inputOn = false → fresh .powerInputRise 1 0) ∧ (c.pwr.inputOn = true → fresh .inputBrownout 1 0) ∧
    (c.pwr.inputOn = true → c.pwr.tripped = false → fresh .forcedManagementReset 2 1) ∧
    (c.pwr.inputOn = true → c.pwr.tripped = true → fresh .forcedManagementReset 1 1) ∧
    (let c1 := if 6 ≤ b.phase.toNat then c.hotReset else c
     exec .perstAssert ⟨p, c⟩ = .next ⟨p, { c1 with boot := { c1.boot with perst := true, linkUp := false } }⟩) ∧
    (6 ≤ b.phase.toNat → b.phase ≠ 7 → ∃ c1 : Chip, exec .dieLinkFailure ⟨p, c⟩ = .next ⟨p, c1⟩ ∧ c1.boot.phase = 7 ∧ c1.boot.holdCode = 1 ∧
      c1.boot.linkUp = false ∧ c1.ctxs = []) ∧
    (c.pwr.inputOn = true → b.phase ≠ 7 → ∃ c1 : Chip, exec .buttonShortPress ⟨p, c⟩ = .next ⟨p, c1⟩ ∧
      c1.boot.shorts = satAdd b.shorts 1 ∧ c1.boot.pressed = false ∧
      (c.led = .attention → c1.boot.ack = true ∧ c1.boot.attention = false ∧ c1.boot.locate = b.locate) ∧
      (c.led ≠ .attention → c1.boot.locate = (!b.locate) ∧ c1.boot.locateStart = c.now)) ∧
    (b.locate = true → b.locateStart.toNat + 60000000000 ≤ c.now.toNat →
      exec .locateExpiry ⟨p, c⟩ = .next ⟨p, { c with boot := { b with locate := false } }⟩) ∧
    (b.phase = 6 → exec .quiesce ⟨p, c⟩ =
      .next ⟨p, ({ c with boot := { b with phase := 8, pressed := true, quiesceStart := c.now } } : Chip).raise 0 0⟩) ∧
    (b.phase = 8 → b.quiesceStart.toNat + (if b.governing.quiesceS = 0 then 60 else b.governing.quiesceS.toNat) * 1000000000 ≤ c.now.toNat →
      let c1 := (List.range 16).foldl (fun (k : Chip) q => k.settlePart q) (c.live.foldl (fun k n => k.teardown n { status := 0x0702 }) c)
      exec .quiesceEnd ⟨p, c⟩ = .next ⟨p, { c1 with boot :=
        { c1.boot with norBoostW := c1.w.boost, norBoostE := c1.e.boost, phase := 9 } }⟩) ∧
    (∀ img : List Byte, let n := max b.colW.length b.colE.length
      let c1 : Chip := { c with port := { c.port with ir := if b.governing.dbgOff then 0xFF else 0x11, driving := false } }
      (c.colprogOpen = true → n < 4 → colImageOk n img = true → exec (.colprog img) ⟨p, c⟩ =
        .next ⟨p, { c1 with boot := { b with colW := b.colW ++ [colOf n img], colE := b.colE ++ [colOf n img] } }⟩) ∧
      (c.colprogOpen = false ∨ 4 ≤ n ∨ colImageOk n img = false → exec (.colprog img) ⟨p, c⟩ = .next ⟨p, c1⟩))

/-- The debug port and the debug registers (R396 to R404, R419): each instruction of the test access port gives its register and
lets the pins go, but for EXTEST, which drives them only while no context lives; DBGACC reads and writes BAR0, and in HOLD is refused what lies on no die; HALT asks for a halt
and its clearing ends what CAUSE recorded; a step count is taken on a halted die; writes through the memory window are refused
while locked; an unlock takes the keyed digest of a live challenge, and a challenge lapses after 60 s.
It also states the model's own choices of log entries 59, 61 and 81. -/
def Obligations.DebugAccess : Prop :=
  ∀ (p : List Instr) (c : Chip),
    let port := c.port
    let g := c.boot.governing
    let ir (i : Byte) : DebugPort := { port with ir := i, driving := false }
    (∀ tdi : Bool, exec (.bypass tdi) ⟨p, c⟩ =
      .next ⟨p, { c with rdata := [BitVec.ofNat 8 (b2n port.bypassBit)], port := { (ir 0xFF) with bypassBit := tdi } }⟩) ∧
    exec .idcode ⟨p, c⟩ = .next ⟨p, { c with rdata := leBytes 4 c.idcode, port := ir 0x01 }⟩ ∧
    (∀ pins pre : List Bool, exec (.samplePreload pins pre) ⟨p, c⟩ =
      .next ⟨p, { c with rdata := pins.map (fun b => BitVec.ofNat 8 (b2n b)), port := { (ir 0x02) with chain := pre } }⟩) ∧
    (c.extestOpen = true → g.dbgOff = false → exec .extest ⟨p, c⟩ = .next ⟨p, { c with port := { port with ir := 0, driving := true } }⟩) ∧
    (c.extestOpen = false ∨ g.dbgOff = true → exec .extest ⟨p, c⟩ = .next ⟨p, { c with port := ir 0xFF }⟩) ∧
    (∀ dr : BitVec 96, let o := bits dr.toNat 86 64 * 8
      let c1 : Chip := { c with port := ir 0x10 }
      let put (c : Chip) (data status : Nat) : Chip :=
        { c with port := { c.port with dr := drAfter dr data status }, rdata := leBytes 12 (drAfter dr data status).toNat }
      2 ≤ c.boot.phase.toNat → c.boot.phase ≠ 7 → g.dbgOff = false →
        (bit dr.toNat 87 = true → exec (.dbgacc dr) ⟨p, c⟩ =
          .next ⟨p, put (c1.regWrite 0 0 o (leBytes 8 (bits dr.toNat 63 0))) (bits dr.toNat 63 0) 0⟩) ∧
        (bit dr.toNat 87 = false → exec (.dbgacc dr) ⟨p, c⟩ =
          .next ⟨p, put (c1.regRead 0 0 o 8).1 (leNat (c1.regRead 0 0 o 8).2) 0⟩)) ∧
    (∀ dr : BitVec 96, c.boot.phase = 7 → g.dbgOff = false → onDie (bits dr.toNat 86 64 * 8) = false →
      exec (.dbgacc dr) ⟨p, c⟩ = .next ⟨p, { c with
        port := { (ir 0x10) with dr := drAfter dr (bits dr.toNat 63 0) 2 }, rdata := leBytes 12 (drAfter dr (bits dr.toNat 63 0) 2).toNat }⟩) ∧
    (∀ d : Die, let k := (c.die d).dbg
      (k.halt = false → k.cause = 0 → exec (.dbgHalt d true) ⟨p, c⟩ = .next ⟨p, c.modDie d (fun m =>
        { m with dbg := { m.dbg with halt := true, cause := 1, index := 0, hitTime := m.ridge } })⟩) ∧
      (k.halt = false → k.cause ≠ 0 → exec (.dbgHalt d true) ⟨p, c⟩ =
        .next ⟨p, c.modDie d (fun m => { m with dbg := { m.dbg with halt := true } })⟩) ∧
      (k.halt = true → exec (.dbgHalt d true) ⟨p, c⟩ = .next ⟨p, c⟩) ∧
      exec (.dbgHalt d false) ⟨p, c⟩ = .next ⟨p, (c.modDie d (fun m => { m with dbg :=
        { m.dbg with halt := false, halted := false, stepsLeft := 0, cause := 0, index := 0, hitTime := 0 } })).showHalt d⟩ ∧
      (∀ n : Byte, exec (.dbgStep d n) ⟨p, c⟩ = .next ⟨p, c.modDie d (fun m =>
        { m with dbg := { m.dbg with stepReg := n, stepsLeft := if k.halted then n else k.stepsLeft } })⟩) ∧
      (∀ bp : BitVec 6, ∃ c1 : Chip, exec (.dbgCresume d bp) ⟨p, c⟩ = .next ⟨p, c1⟩ ∧ (c1.die d).dbg = { k with cresume := bp } ∧
        ∀ (t : ThreadRef) (x : Thread), Tab.wf (none : Option Thread) (c.die d).threads = true → t.die = d → c.thread t = some x → c1.thread t =
          some (if x.wait = .breakpoint bp.toNat then { x with wait := .ready, pass := true } else x)) ∧
      exec (.dbgMdataRd d) ⟨p, c⟩ = .next ⟨p, { (c.mdataRead d).1 with rdata := (c.mdataRead d).2 }⟩ ∧
      (port.unlocked = false → k.space = 2 ∨ k.space = 3 ∨ k.space = 4 ∨ k.space = 5 → c.mdataRead d = (c, List.replicate 8 0)) ∧
      (∀ w : W64, (port.unlocked = false → exec (.dbgMdataWr d w) ⟨p, c⟩ = .next ⟨p, c.modDie d (fun m =>
          { m with dbg := { m.dbg with mrefused := true, mdataWr := w } })⟩) ∧
        (port.unlocked = true → exec (.dbgMdataWr d w) ⟨p, c⟩ = .next ⟨p, c.mdataWrite d w⟩))) ∧
    (let c0 : Chip := { c with port := { port with cmd := 1 } }
     exec .unlockChallenge ⟨p, c⟩ = .next ⟨p, c0.challenge.1⟩ ∧ (c0.unlockShut = true → c0.challenge.1 = { c0 with port := { c0.port with result := 3 } }) ∧
     (c0.unlockShut = false → c0.challenge.1.port.result = 1 ∧ c0.challenge.1.port.chalTime = c.now ∧ c0.challenge.1.port.challenge.length = 32)) ∧
    (let c0 : Chip := { c with port := { port with cmd := 2 } }
     let resp := (List.range 4).flatMap (fun i => leBytes 8 (tget 0 port.resp i : W64).toNat)
     exec .unlockResponse ⟨p, c⟩ = .next ⟨p, (c0.respond resp).1⟩ ∧
     (c0.unlockShut = false → c.challengeLive = true →
       (resp = hmac (leBytes 32 c.boot.dbgKey.toNat) port.challenge → (c0.respond resp).1.port.unlocked = true) ∧
       (resp ≠ hmac (leBytes 32 c.boot.dbgKey.toNat) port.challenge →
         (c0.respond resp).1 = { c0 with port := { c0.port with result := 3, challenge := [], fails := port.fails + 1 } })) ∧
     (c0.unlockShut = true ∨ c.challengeLive = false → (c0.respond resp).1.port.unlocked = port.unlocked)) ∧
    (port.challenge ≠ [] → port.chalTime.toNat + 60000000000 ≤ c.now.toNat → exec .challengeLapse ⟨p, c⟩ =
      .next ⟨p, { c with port := { port with challenge := [], result := if port.result = 1 then 0 else port.result } }⟩) ∧
    (c.sideOn = true →
      (∀ o : W16, exec (.sidebandOffsetWrite o) ⟨p, c⟩ = .next ⟨p, { c with port := { port with sideOff := o } }⟩) ∧
      (∀ len : Nat, exec (.sidebandRead len) ⟨p, c⟩ =
        .next ⟨p, { c with rdata := (List.range len).map (fun i => c.sideByte (port.sideOff.toNat + i)) }⟩))

/-- The byte stores stay in canonical form under the commands that write them from outside and from compositors (an invariant of
the module's memory): stores and atomics of a thread, the host's doorbell stores and BAR4 writes, first writes, blocks written to
host memory and the debug window.
It also states the model's own choices of log entry 4. -/
def Obligations.StoresStayCanonical : Prop :=
  ∀ (p : List Instr) (c : Chip), StoresWf c →
    let keeps (i : Instr) : Prop := ∀ s, exec i ⟨p, c⟩ = .next s → StoresWf s.chip
    (∀ (t : ThreadRef) (a b : Reg) (imm : BitVec 13), keeps (.st64 t a b imm) ∧ keeps (.st32 t a b imm) ∧ keeps (.st8 t a b imm)) ∧
    (∀ (t : ThreadRef) (d a b : Reg), keeps (.aadd t d a b) ∧ keeps (.acas t d a b)) ∧
    (∀ (fn ctx ring : Nat) (tail : W32) (stores : List (Nat × Byte)), keeps (.doorbell fn ctx ring tail stores)) ∧
    (∀ (fn : Nat) (off : BitVec 38) (data : Option (List Byte)) (len : Nat), keeps (.bar4Access fn off data len)) ∧
    (∀ (n : Nat) (va : W48), keeps (.pageFirstWrite n va)) ∧
    (∀ (h : Hdr) (ha : W64), keeps (.capQuery h ha) ∧ keeps (.ctxQuery h ha)) ∧
    (∀ (d : Die) (w : W64), keeps (.dbgMdataWr d w)) ∧ (∀ q : Nat, keeps (.storeZeroing q)) ∧ keeps .thermalTrip ∧ keeps .powerInputRise

end
end

