-- ==== Sys2Proof/Laws/Tab.lean ====
section
/-!
SUPPORT. Laws of sparse tables and byte stores: what a table reads after an update, and that every update keeps the canonical
form.
-/
namespace Sys2Proof.Machine

variable {α : Type} [DecidableEq α] {d : α}

omit [DecidableEq α] in
@[simp] theorem tget_nil (n : Nat) : tget d [] n = d := rfl

/-- Another key reads as before an update, whatever the table's form. -/
theorem tget_tput_ne {t : Tab α} {n m : Nat} {v : α} (h : m ≠ n) : tget d (tput d t n v) m = tget d t m := by
  have hs : ¬ n = m := fun e => h e.symm
  induction t with
  | nil => by_cases hv : v = d <;> simp [tput, tget, hv, hs]
  | cons kx t ih =>
    obtain ⟨k, x⟩ := kx
    unfold tput
    by_cases h1 : n < k
    · by_cases hv : v = d <;> simp [tget, h1, hv, hs]
    · by_cases h2 : n = k
      · subst h2
        by_cases hv : v = d <;> simp [tget, hv, hs]
      · simp [tget, h1, h2, ih]

/-- A key reads as a value that is not the default one, whatever the table's form. -/
theorem tget_tput_of_ne_default {t : Tab α} {n : Nat} {v : α} (hv : v ≠ d) : tget d (tput d t n v) n = v := by
  induction t with
  | nil => simp [tput, tget, hv]
  | cons kx t ih =>
    obtain ⟨k, x⟩ := kx
    unfold tput
    by_cases h1 : n < k
    · simp [tget, h1, hv]
    · by_cases h2 : n = k
      · simp [tget, h2, hv]
      · have h3 : ¬ k = n := fun e => h2 e.symm
        simp [tget, h1, h2, h3, ih]

theorem wfFrom_mono {t : Tab α} {lo lo' : Nat} (h : lo' ≤ lo) (hw : Tab.wfFrom d lo t = true) : Tab.wfFrom d lo' t = true := by
  cases t with
  | nil => rfl
  | cons kx t =>
    obtain ⟨k, x⟩ := kx
    simp only [Tab.wfFrom, Bool.and_eq_true, decide_eq_true_eq] at hw ⊢
    exact ⟨⟨Nat.le_trans h hw.1.1, hw.1.2⟩, hw.2⟩

/-- Below its bound a table lists nothing. -/
theorem tget_of_lt_wfFrom {t : Tab α} {lo n : Nat} (hw : Tab.wfFrom d lo t = true) (h : n < lo) : tget d t n = d := by
  induction t generalizing lo with
  | nil => rfl
  | cons kx t ih =>
    obtain ⟨k, x⟩ := kx
    simp only [Tab.wfFrom, Bool.and_eq_true, decide_eq_true_eq] at hw
    have : ¬ k = n := by omega
    simp only [tget, this, if_false]
    exact ih hw.2 (by omega)

theorem wfFrom_tput {t : Tab α} {lo n : Nat} {v : α} (hn : lo ≤ n) (hw : Tab.wfFrom d lo t = true) :
    Tab.wfFrom d lo (tput d t n v) = true := by
  induction t generalizing lo with
  | nil => by_cases hv : v = d <;> simp [tput, hv, Tab.wfFrom, hn]
  | cons kx t ih =>
    obtain ⟨k, x⟩ := kx
    simp only [Tab.wfFrom, Bool.and_eq_true, decide_eq_true_eq] at hw
    unfold tput
    by_cases h1 : n < k
    · by_cases hv : v = d
      · simp [h1, hv, Tab.wfFrom, hw.1.1, hw.1.2, hw.2]
      · have : n + 1 ≤ k := h1
        simp [h1, hv, Tab.wfFrom, hn, hw.1.2, hw.2, this]
    · by_cases h2 : n = k
      · subst h2
        by_cases hv : v = d
        · simp only [Nat.lt_irrefl, if_false, if_true, hv]
          exact wfFrom_mono (by omega) hw.2
        · simp [hv, Tab.wfFrom, hn, hw.2]
      · have h3 : k + 1 ≤ n := by omega
        simp [h1, h2, Tab.wfFrom, hw.1.1, hw.1.2, ih h3 hw.2]

/-- An update keeps the canonical form. -/
theorem wf_tput {t : Tab α} {n : Nat} {v : α} (hw : Tab.wf d t = true) : Tab.wf d (tput d t n v) = true :=
  wfFrom_tput (Nat.zero_le _) hw

theorem tget_tput_same_from {t : Tab α} {lo n : Nat} {v : α} (hw : Tab.wfFrom d lo t = true) : tget d (tput d t n v) n = v := by
  by_cases hv : v = d
  · induction t generalizing lo with
    | nil => simp [tput, hv]
    | cons kx t ih =>
      obtain ⟨k, x⟩ := kx
      simp only [Tab.wfFrom, Bool.and_eq_true, decide_eq_true_eq] at hw
      unfold tput
      by_cases h1 : n < k
      · have h3 : ¬ k = n := by omega
        simp only [h1, if_true, hv, tget, h3, if_false]
        exact tget_of_lt_wfFrom hw.2 (by omega)
      · by_cases h2 : n = k
        · subst h2
          simp only [Nat.lt_irrefl, if_false, if_true, hv]
          exact tget_of_lt_wfFrom hw.2 (by omega)
        · have h3 : ¬ k = n := fun e => h2 e.symm
          simp only [h1, h2, if_false, tget, h3]
          exact ih hw.2
  · exact tget_tput_of_ne_default hv

/-- In a canonical table a key reads as the value put there. -/
theorem tget_tput_same {t : Tab α} {n : Nat} {v : α} (hw : Tab.wf d t = true) : tget d (tput d t n v) n = v :=
  tget_tput_same_from hw

theorem tget_tput {t : Tab α} {n m : Nat} {v : α} (hw : Tab.wf d t = true) :
    tget d (tput d t n v) m = if m = n then v else tget d t m := by
  by_cases h : m = n
  · subst h; simp [tget_tput_same hw]
  · simp [h, tget_tput_ne h]

theorem tget_tmod_ne {t : Tab α} {n m : Nat} {f : α → α} (h : m ≠ n) : tget d (tmod d t n f) m = tget d t m := tget_tput_ne h

theorem tget_tmod_same {t : Tab α} {n : Nat} {f : α → α} (hw : Tab.wf d t = true) : tget d (tmod d t n f) n = f (tget d t n) :=
  tget_tput_same hw

theorem tget_tmod_of_ne_default {t : Tab α} {n : Nat} {f : α → α} (hv : f (tget d t n) ≠ d) :
    tget d (tmod d t n f) n = f (tget d t n) := tget_tput_of_ne_default hv

theorem wf_tmod {t : Tab α} {n : Nat} {f : α → α} (hw : Tab.wf d t = true) : Tab.wf d (tmod d t n f) = true := wf_tput hw

/-- A map of all entries gives a canonical table, whatever it maps. -/
theorem wf_tmap {f : Nat → α → α} {t : Tab α} : Tab.wf d (tmap d f t) = true := by
  have h : ∀ (l : Tab α) (acc : Tab α), Tab.wf d acc = true → Tab.wf d (l.foldl (fun a kv => tput d a kv.1 (f kv.1 kv.2)) acc) = true := by
    intro l
    induction l with
    | nil => intro acc ha; exact ha
    | cons x l ih => intro acc ha; exact ih _ (wf_tput ha)
  exact h t [] rfl

theorem tget_foldl_tput {f : Nat → α → α} (hd : ∀ k, f k d = d) {t : Tab α} {lo n : Nat} (hw : Tab.wfFrom d lo t = true) (acc : Tab α)
    (ha : Tab.wf d acc = true) (hacc : ∀ k, lo ≤ k → tget d acc k = d) :
    tget d (t.foldl (fun a kv => tput d a kv.1 (f kv.1 kv.2)) acc) n = if lo ≤ n then f n (tget d t n) else tget d acc n := by
  induction t generalizing lo acc with
  | nil =>
    simp only [List.foldl_nil, tget_nil, hd]
    by_cases h : lo ≤ n <;> simp [h, hacc]
  | cons kx t ih =>
    obtain ⟨k, x⟩ := kx
    simp only [Tab.wfFrom, Bool.and_eq_true, decide_eq_true_eq] at hw
    have hk := hw.1.1
    simp only [List.foldl_cons]
    rw [ih hw.2 _ (wf_tput ha) (fun j hj => by rw [tget_tput_ne (by omega)]; exact hacc j (by omega))]
    by_cases h1 : k + 1 ≤ n
    · have h2 : lo ≤ n := by omega
      have h3 : ¬ k = n := by omega
      simp [h1, h2, tget, h3]
    · rw [if_neg h1, tget_tput ha]
      by_cases h2 : n = k
      · subst h2; simp [tget, hk]
      · have h3 : ¬ k = n := fun e => h2 e.symm
        by_cases h4 : lo ≤ n
        · have h5 : n < k + 1 := by omega
          simp [h2, h4, tget, h3, tget_of_lt_wfFrom hw.2 h5, hd, hacc]
        · simp [h2, h4]

/-- A map of a canonical table reads as the map of what the table reads. -/
theorem tget_tmap {f : Nat → α → α} (hd : ∀ k, f k d = d) {t : Tab α} {n : Nat} (hw : Tab.wf d t = true) :
    tget d (tmap d f t) n = f n (tget d t n) := by
  have h := tget_foldl_tput (n := n) hd hw [] rfl (fun _ _ => rfl)
  simpa [tmap] using h

theorem wfFrom_filter {p : Nat → α → Bool} {t : Tab α} {lo : Nat} (hw : Tab.wfFrom d lo t = true) :
    Tab.wfFrom d lo (t.filter (fun kv => p kv.1 kv.2)) = true := by
  induction t generalizing lo with
  | nil => rfl
  | cons kx t ih =>
    obtain ⟨k, x⟩ := kx
    simp only [Tab.wfFrom, Bool.and_eq_true, decide_eq_true_eq] at hw
    by_cases hp : p k x = true
    · simp [hp, Tab.wfFrom, hw.1.1, hw.1.2, ih hw.2]
    · simp only [List.filter_cons, hp]
      exact wfFrom_mono (by omega) (ih hw.2)

/-- A filter keeps the canonical form. -/
theorem wf_tfilter {p : Nat → α → Bool} {t : Tab α} (hw : Tab.wf d t = true) : Tab.wf d (tfilter p t) = true := wfFrom_filter hw

/-! ### Byte stores -/

theorem mget_mput_ne {m : Memory} {a k : Nat} {b : Byte} (h : k ≠ a) : mget (mput m a b) k = mget m k := tget_tput_ne h

theorem mget_mput_same {m : Memory} {a : Nat} {b : Byte} (hw : m.wf = true) : mget (mput m a b) a = b := tget_tput_same hw

/-- Writing a byte keeps the canonical form. -/
theorem wf_mput {m : Memory} {a : Nat} {b : Byte} (hw : m.wf = true) : (mput m a b).wf = true := wf_tput hw

/-- Writing bytes keeps the canonical form. -/
theorem wf_mwrite {m : Memory} {a : Nat} {bs : List Byte} (hw : m.wf = true) : (mwrite m a bs).wf = true := by
  induction bs generalizing m a with
  | nil => exact hw
  | cons b bs ih => exact ih (wf_mput hw)

/-- Dropping a range of bytes keeps the canonical form. -/
theorem wf_mfilter {m : Memory} {p : Nat → Byte → Bool} (hw : m.wf = true) : Memory.wf (tfilter p m) = true := wf_tfilter hw

end Sys2Proof.Machine
end

