-- ==== Sys2Proof/Laws/State.lean ====
section
/-!
SUPPORT. One lemma per field per update of the module: what each of the updates of Machine/Ops leaves as it was, and what
the updated entry reads as. A proof rewrites with these and never unfolds a record update.
-/
namespace Sys2Proof.Machine

/-! ### modCtx -/

@[simp] theorem modCtx_rdata (c : Chip) (n : Nat) (f : Ctx → Ctx) : (c.modCtx n f).rdata = c.rdata := rfl
@[simp] theorem modCtx_sent (c : Chip) (n : Nat) (f : Ctx → Ctx) : (c.modCtx n f).sent = c.sent := rfl
@[simp] theorem modCtx_rnd (c : Chip) (n : Nat) (f : Ctx → Ctx) : (c.modCtx n f).rnd = c.rnd := rfl
@[simp] theorem modCtx_fresh (c : Chip) (n : Nat) (f : Ctx → Ctx) : (c.modCtx n f).fresh = c.fresh := rfl
@[simp] theorem modCtx_serials (c : Chip) (n : Nat) (f : Ctx → Ctx) : (c.modCtx n f).serials = c.serials := rfl
@[simp] theorem modCtx_syncs (c : Chip) (n : Nat) (f : Ctx → Ctx) : (c.modCtx n f).syncs = c.syncs := rfl
@[simp] theorem modCtx_host (c : Chip) (n : Nat) (f : Ctx → Ctx) : (c.modCtx n f).host = c.host := rfl
@[simp] theorem modCtx_dram (c : Chip) (n : Nat) (f : Ctx → Ctx) : (c.modCtx n f).dram = c.dram := rfl
@[simp] theorem modCtx_platenMem (c : Chip) (n : Nat) (f : Ctx → Ctx) : (c.modCtx n f).platenMem = c.platenMem := rfl
@[simp] theorem modCtx_engineMem (c : Chip) (n : Nat) (f : Ctx → Ctx) : (c.modCtx n f).engineMem = c.engineMem := rfl
@[simp] theorem modCtx_sharedMem (c : Chip) (n : Nat) (f : Ctx → Ctx) : (c.modCtx n f).sharedMem = c.sharedMem := rfl
@[simp] theorem modCtx_ecc (c : Chip) (n : Nat) (f : Ctx → Ctx) : (c.modCtx n f).ecc = c.ecc := rfl
@[simp] theorem modCtx_msix (c : Chip) (n : Nat) (f : Ctx → Ctx) : (c.modCtx n f).msix = c.msix := rfl
@[simp] theorem modCtx_parts (c : Chip) (n : Nat) (f : Ctx → Ctx) : (c.modCtx n f).parts = c.parts := rfl
@[simp] theorem modCtx_locks (c : Chip) (n : Nat) (f : Ctx → Ctx) : (c.modCtx n f).locks = c.locks := rfl
@[simp] theorem modCtx_vfs (c : Chip) (n : Nat) (f : Ctx → Ctx) : (c.modCtx n f).vfs = c.vfs := rfl
@[simp] theorem modCtx_ctxSel (c : Chip) (n : Nat) (f : Ctx → Ctx) : (c.modCtx n f).ctxSel = c.ctxSel := rfl
@[simp] theorem modCtx_partSel (c : Chip) (n : Nat) (f : Ctx → Ctx) : (c.modCtx n f).partSel = c.partSel := rfl
@[simp] theorem modCtx_lockSel (c : Chip) (n : Nat) (f : Ctx → Ctx) : (c.modCtx n f).lockSel = c.lockSel := rfl
@[simp] theorem modCtx_w (c : Chip) (n : Nat) (f : Ctx → Ctx) : (c.modCtx n f).w = c.w := rfl
@[simp] theorem modCtx_e (c : Chip) (n : Nat) (f : Ctx → Ctx) : (c.modCtx n f).e = c.e := rfl
@[simp] theorem modCtx_stks (c : Chip) (n : Nat) (f : Ctx → Ctx) : (c.modCtx n f).stks = c.stks := rfl
@[simp] theorem modCtx_ridge (c : Chip) (n : Nat) (f : Ctx → Ctx) : (c.modCtx n f).ridge = c.ridge := rfl
@[simp] theorem modCtx_domain (c : Chip) (n : Nat) (f : Ctx → Ctx) : (c.modCtx n f).domain = c.domain := rfl
@[simp] theorem modCtx_ports (c : Chip) (n : Nat) (f : Ctx → Ctx) : (c.modCtx n f).ports = c.ports := rfl
@[simp] theorem modCtx_vote (c : Chip) (n : Nat) (f : Ctx → Ctx) : (c.modCtx n f).vote = c.vote := rfl
@[simp] theorem modCtx_serving (c : Chip) (n : Nat) (f : Ctx → Ctx) : (c.modCtx n f).serving = c.serving := rfl
@[simp] theorem modCtx_pwr (c : Chip) (n : Nat) (f : Ctx → Ctx) : (c.modCtx n f).pwr = c.pwr := rfl
@[simp] theorem modCtx_boot (c : Chip) (n : Nat) (f : Ctx → Ctx) : (c.modCtx n f).boot = c.boot := rfl
@[simp] theorem modCtx_port (c : Chip) (n : Nat) (f : Ctx → Ctx) : (c.modCtx n f).port = c.port := rfl
@[simp] theorem modCtx_wgWaits (c : Chip) (n : Nat) (f : Ctx → Ctx) : (c.modCtx n f).wgWaits = c.wgWaits := rfl

/-! ### modPart -/

@[simp] theorem modPart_rdata (c : Chip) (q : Nat) (f : Partition → Partition) : (c.modPart q f).rdata = c.rdata := rfl
@[simp] theorem modPart_sent (c : Chip) (q : Nat) (f : Partition → Partition) : (c.modPart q f).sent = c.sent := rfl
@[simp] theorem modPart_rnd (c : Chip) (q : Nat) (f : Partition → Partition) : (c.modPart q f).rnd = c.rnd := rfl
@[simp] theorem modPart_fresh (c : Chip) (q : Nat) (f : Partition → Partition) : (c.modPart q f).fresh = c.fresh := rfl
@[simp] theorem modPart_serials (c : Chip) (q : Nat) (f : Partition → Partition) : (c.modPart q f).serials = c.serials := rfl
@[simp] theorem modPart_syncs (c : Chip) (q : Nat) (f : Partition → Partition) : (c.modPart q f).syncs = c.syncs := rfl
@[simp] theorem modPart_host (c : Chip) (q : Nat) (f : Partition → Partition) : (c.modPart q f).host = c.host := rfl
@[simp] theorem modPart_dram (c : Chip) (q : Nat) (f : Partition → Partition) : (c.modPart q f).dram = c.dram := rfl
@[simp] theorem modPart_platenMem (c : Chip) (q : Nat) (f : Partition → Partition) : (c.modPart q f).platenMem = c.platenMem := rfl
@[simp] theorem modPart_engineMem (c : Chip) (q : Nat) (f : Partition → Partition) : (c.modPart q f).engineMem = c.engineMem := rfl
@[simp] theorem modPart_sharedMem (c : Chip) (q : Nat) (f : Partition → Partition) : (c.modPart q f).sharedMem = c.sharedMem := rfl
@[simp] theorem modPart_ecc (c : Chip) (q : Nat) (f : Partition → Partition) : (c.modPart q f).ecc = c.ecc := rfl
@[simp] theorem modPart_msix (c : Chip) (q : Nat) (f : Partition → Partition) : (c.modPart q f).msix = c.msix := rfl
@[simp] theorem modPart_ctxs (c : Chip) (q : Nat) (f : Partition → Partition) : (c.modPart q f).ctxs = c.ctxs := rfl
@[simp] theorem modPart_locks (c : Chip) (q : Nat) (f : Partition → Partition) : (c.modPart q f).locks = c.locks := rfl
@[simp] theorem modPart_vfs (c : Chip) (q : Nat) (f : Partition → Partition) : (c.modPart q f).vfs = c.vfs := rfl
@[simp] theorem modPart_ctxSel (c : Chip) (q : Nat) (f : Partition → Partition) : (c.modPart q f).ctxSel = c.ctxSel := rfl
@[simp] theorem modPart_partSel (c : Chip) (q : Nat) (f : Partition → Partition) : (c.modPart q f).partSel = c.partSel := rfl
@[simp] theorem modPart_lockSel (c : Chip) (q : Nat) (f : Partition → Partition) : (c.modPart q f).lockSel = c.lockSel := rfl
@[simp] theorem modPart_w (c : Chip) (q : Nat) (f : Partition → Partition) : (c.modPart q f).w = c.w := rfl
@[simp] theorem modPart_e (c : Chip) (q : Nat) (f : Partition → Partition) : (c.modPart q f).e = c.e := rfl
@[simp] theorem modPart_stks (c : Chip) (q : Nat) (f : Partition → Partition) : (c.modPart q f).stks = c.stks := rfl
@[simp] theorem modPart_ridge (c : Chip) (q : Nat) (f : Partition → Partition) : (c.modPart q f).ridge = c.ridge := rfl
@[simp] theorem modPart_domain (c : Chip) (q : Nat) (f : Partition → Partition) : (c.modPart q f).domain = c.domain := rfl
@[simp] theorem modPart_ports (c : Chip) (q : Nat) (f : Partition → Partition) : (c.modPart q f).ports = c.ports := rfl
@[simp] theorem modPart_vote (c : Chip) (q : Nat) (f : Partition → Partition) : (c.modPart q f).vote = c.vote := rfl
@[simp] theorem modPart_serving (c : Chip) (q : Nat) (f : Partition → Partition) : (c.modPart q f).serving = c.serving := rfl
@[simp] theorem modPart_pwr (c : Chip) (q : Nat) (f : Partition → Partition) : (c.modPart q f).pwr = c.pwr := rfl
@[simp] theorem modPart_boot (c : Chip) (q : Nat) (f : Partition → Partition) : (c.modPart q f).boot = c.boot := rfl
@[simp] theorem modPart_port (c : Chip) (q : Nat) (f : Partition → Partition) : (c.modPart q f).port = c.port := rfl
@[simp] theorem modPart_wgWaits (c : Chip) (q : Nat) (f : Partition → Partition) : (c.modPart q f).wgWaits = c.wgWaits := rfl

/-! ### modStk -/

@[simp] theorem modStk_rdata (c : Chip) (n : Nat) (f : StackSt → StackSt) : (c.modStk n f).rdata = c.rdata := rfl
@[simp] theorem modStk_sent (c : Chip) (n : Nat) (f : StackSt → StackSt) : (c.modStk n f).sent = c.sent := rfl
@[simp] theorem modStk_rnd (c : Chip) (n : Nat) (f : StackSt → StackSt) : (c.modStk n f).rnd = c.rnd := rfl
@[simp] theorem modStk_fresh (c : Chip) (n : Nat) (f : StackSt → StackSt) : (c.modStk n f).fresh = c.fresh := rfl
@[simp] theorem modStk_serials (c : Chip) (n : Nat) (f : StackSt → StackSt) : (c.modStk n f).serials = c.serials := rfl
@[simp] theorem modStk_syncs (c : Chip) (n : Nat) (f : StackSt → StackSt) : (c.modStk n f).syncs = c.syncs := rfl
@[simp] theorem modStk_host (c : Chip) (n : Nat) (f : StackSt → StackSt) : (c.modStk n f).host = c.host := rfl
@[simp] theorem modStk_dram (c : Chip) (n : Nat) (f : StackSt → StackSt) : (c.modStk n f).dram = c.dram := rfl
@[simp] theorem modStk_platenMem (c : Chip) (n : Nat) (f : StackSt → StackSt) : (c.modStk n f).platenMem = c.platenMem := rfl
@[simp] theorem modStk_engineMem (c : Chip) (n : Nat) (f : StackSt → StackSt) : (c.modStk n f).engineMem = c.engineMem := rfl
@[simp] theorem modStk_sharedMem (c : Chip) (n : Nat) (f : StackSt → StackSt) : (c.modStk n f).sharedMem = c.sharedMem := rfl
@[simp] theorem modStk_ecc (c : Chip) (n : Nat) (f : StackSt → StackSt) : (c.modStk n f).ecc = c.ecc := rfl
@[simp] theorem modStk_msix (c : Chip) (n : Nat) (f : StackSt → StackSt) : (c.modStk n f).msix = c.msix := rfl
@[simp] theorem modStk_ctxs (c : Chip) (n : Nat) (f : StackSt → StackSt) : (c.modStk n f).ctxs = c.ctxs := rfl
@[simp] theorem modStk_parts (c : Chip) (n : Nat) (f : StackSt → StackSt) : (c.modStk n f).parts = c.parts := rfl
@[simp] theorem modStk_locks (c : Chip) (n : Nat) (f : StackSt → StackSt) : (c.modStk n f).locks = c.locks := rfl
@[simp] theorem modStk_vfs (c : Chip) (n : Nat) (f : StackSt → StackSt) : (c.modStk n f).vfs = c.vfs := rfl
@[simp] theorem modStk_ctxSel (c : Chip) (n : Nat) (f : StackSt → StackSt) : (c.modStk n f).ctxSel = c.ctxSel := rfl
@[simp] theorem modStk_partSel (c : Chip) (n : Nat) (f : StackSt → StackSt) : (c.modStk n f).partSel = c.partSel := rfl
@[simp] theorem modStk_lockSel (c : Chip) (n : Nat) (f : StackSt → StackSt) : (c.modStk n f).lockSel = c.lockSel := rfl
@[simp] theorem modStk_w (c : Chip) (n : Nat) (f : StackSt → StackSt) : (c.modStk n f).w = c.w := rfl
@[simp] theorem modStk_e (c : Chip) (n : Nat) (f : StackSt → StackSt) : (c.modStk n f).e = c.e := rfl
@[simp] theorem modStk_ridge (c : Chip) (n : Nat) (f : StackSt → StackSt) : (c.modStk n f).ridge = c.ridge := rfl
@[simp] theorem modStk_domain (c : Chip) (n : Nat) (f : StackSt → StackSt) : (c.modStk n f).domain = c.domain := rfl
@[simp] theorem modStk_ports (c : Chip) (n : Nat) (f : StackSt → StackSt) : (c.modStk n f).ports = c.ports := rfl
@[simp] theorem modStk_vote (c : Chip) (n : Nat) (f : StackSt → StackSt) : (c.modStk n f).vote = c.vote := rfl
@[simp] theorem modStk_serving (c : Chip) (n : Nat) (f : StackSt → StackSt) : (c.modStk n f).serving = c.serving := rfl
@[simp] theorem modStk_pwr (c : Chip) (n : Nat) (f : StackSt → StackSt) : (c.modStk n f).pwr = c.pwr := rfl
@[simp] theorem modStk_boot (c : Chip) (n : Nat) (f : StackSt → StackSt) : (c.modStk n f).boot = c.boot := rfl
@[simp] theorem modStk_port (c : Chip) (n : Nat) (f : StackSt → StackSt) : (c.modStk n f).port = c.port := rfl
@[simp] theorem modStk_wgWaits (c : Chip) (n : Nat) (f : StackSt → StackSt) : (c.modStk n f).wgWaits = c.wgWaits := rfl

/-! ### modPort -/

@[simp] theorem modPort_rdata (c : Chip) (n : Nat) (f : Port → Port) : (c.modPort n f).rdata = c.rdata := rfl
@[simp] theorem modPort_sent (c : Chip) (n : Nat) (f : Port → Port) : (c.modPort n f).sent = c.sent := rfl
@[simp] theorem modPort_rnd (c : Chip) (n : Nat) (f : Port → Port) : (c.modPort n f).rnd = c.rnd := rfl
@[simp] theorem modPort_fresh (c : Chip) (n : Nat) (f : Port → Port) : (c.modPort n f).fresh = c.fresh := rfl
@[simp] theorem modPort_serials (c : Chip) (n : Nat) (f : Port → Port) : (c.modPort n f).serials = c.serials := rfl
@[simp] theorem modPort_syncs (c : Chip) (n : Nat) (f : Port → Port) : (c.modPort n f).syncs = c.syncs := rfl
@[simp] theorem modPort_host (c : Chip) (n : Nat) (f : Port → Port) : (c.modPort n f).host = c.host := rfl
@[simp] theorem modPort_dram (c : Chip) (n : Nat) (f : Port → Port) : (c.modPort n f).dram = c.dram := rfl
@[simp] theorem modPort_platenMem (c : Chip) (n : Nat) (f : Port → Port) : (c.modPort n f).platenMem = c.platenMem := rfl
@[simp] theorem modPort_engineMem (c : Chip) (n : Nat) (f : Port → Port) : (c.modPort n f).engineMem = c.engineMem := rfl
@[simp] theorem modPort_sharedMem (c : Chip) (n : Nat) (f : Port → Port) : (c.modPort n f).sharedMem = c.sharedMem := rfl
@[simp] theorem modPort_ecc (c : Chip) (n : Nat) (f : Port → Port) : (c.modPort n f).ecc = c.ecc := rfl
@[simp] theorem modPort_msix (c : Chip) (n : Nat) (f : Port → Port) : (c.modPort n f).msix = c.msix := rfl
@[simp] theorem modPort_ctxs (c : Chip) (n : Nat) (f : Port → Port) : (c.modPort n f).ctxs = c.ctxs := rfl
@[simp] theorem modPort_parts (c : Chip) (n : Nat) (f : Port → Port) : (c.modPort n f).parts = c.parts := rfl
@[simp] theorem modPort_locks (c : Chip) (n : Nat) (f : Port → Port) : (c.modPort n f).locks = c.locks := rfl
@[simp] theorem modPort_vfs (c : Chip) (n : Nat) (f : Port → Port) : (c.modPort n f).vfs = c.vfs := rfl
@[simp] theorem modPort_ctxSel (c : Chip) (n : Nat) (f : Port → Port) : (c.modPort n f).ctxSel = c.ctxSel := rfl
@[simp] theorem modPort_partSel (c : Chip) (n : Nat) (f : Port → Port) : (c.modPort n f).partSel = c.partSel := rfl
@[simp] theorem modPort_lockSel (c : Chip) (n : Nat) (f : Port → Port) : (c.modPort n f).lockSel = c.lockSel := rfl
@[simp] theorem modPort_w (c : Chip) (n : Nat) (f : Port → Port) : (c.modPort n f).w = c.w := rfl
@[simp] theorem modPort_e (c : Chip) (n : Nat) (f : Port → Port) : (c.modPort n f).e = c.e := rfl
@[simp] theorem modPort_stks (c : Chip) (n : Nat) (f : Port → Port) : (c.modPort n f).stks = c.stks := rfl
@[simp] theorem modPort_ridge (c : Chip) (n : Nat) (f : Port → Port) : (c.modPort n f).ridge = c.ridge := rfl
@[simp] theorem modPort_domain (c : Chip) (n : Nat) (f : Port → Port) : (c.modPort n f).domain = c.domain := rfl
@[simp] theorem modPort_vote (c : Chip) (n : Nat) (f : Port → Port) : (c.modPort n f).vote = c.vote := rfl
@[simp] theorem modPort_serving (c : Chip) (n : Nat) (f : Port → Port) : (c.modPort n f).serving = c.serving := rfl
@[simp] theorem modPort_pwr (c : Chip) (n : Nat) (f : Port → Port) : (c.modPort n f).pwr = c.pwr := rfl
@[simp] theorem modPort_boot (c : Chip) (n : Nat) (f : Port → Port) : (c.modPort n f).boot = c.boot := rfl
@[simp] theorem modPort_port (c : Chip) (n : Nat) (f : Port → Port) : (c.modPort n f).port = c.port := rfl
@[simp] theorem modPort_wgWaits (c : Chip) (n : Nat) (f : Port → Port) : (c.modPort n f).wgWaits = c.wgWaits := rfl

/-! ### modServing -/

@[simp] theorem modServing_rdata (c : Chip) (f : Serving → Serving) : (c.modServing f).rdata = c.rdata := rfl
@[simp] theorem modServing_sent (c : Chip) (f : Serving → Serving) : (c.modServing f).sent = c.sent := rfl
@[simp] theorem modServing_rnd (c : Chip) (f : Serving → Serving) : (c.modServing f).rnd = c.rnd := rfl
@[simp] theorem modServing_fresh (c : Chip) (f : Serving → Serving) : (c.modServing f).fresh = c.fresh := rfl
@[simp] theorem modServing_serials (c : Chip) (f : Serving → Serving) : (c.modServing f).serials = c.serials := rfl
@[simp] theorem modServing_syncs (c : Chip) (f : Serving → Serving) : (c.modServing f).syncs = c.syncs := rfl
@[simp] theorem modServing_host (c : Chip) (f : Serving → Serving) : (c.modServing f).host = c.host := rfl
@[simp] theorem modServing_dram (c : Chip) (f : Serving → Serving) : (c.modServing f).dram = c.dram := rfl
@[simp] theorem modServing_platenMem (c : Chip) (f : Serving → Serving) : (c.modServing f).platenMem = c.platenMem := rfl
@[simp] theorem modServing_engineMem (c : Chip) (f : Serving → Serving) : (c.modServing f).engineMem = c.engineMem := rfl
@[simp] theorem modServing_sharedMem (c : Chip) (f : Serving → Serving) : (c.modServing f).sharedMem = c.sharedMem := rfl
@[simp] theorem modServing_ecc (c : Chip) (f : Serving → Serving) : (c.modServing f).ecc = c.ecc := rfl
@[simp] theorem modServing_msix (c : Chip) (f : Serving → Serving) : (c.modServing f).msix = c.msix := rfl
@[simp] theorem modServing_ctxs (c : Chip) (f : Serving → Serving) : (c.modServing f).ctxs = c.ctxs := rfl
@[simp] theorem modServing_parts (c : Chip) (f : Serving → Serving) : (c.modServing f).parts = c.parts := rfl
@[simp] theorem modServing_locks (c : Chip) (f : Serving → Serving) : (c.modServing f).locks = c.locks := rfl
@[simp] theorem modServing_vfs (c : Chip) (f : Serving → Serving) : (c.modServing f).vfs = c.vfs := rfl
@[simp] theorem modServing_ctxSel (c : Chip) (f : Serving → Serving) : (c.modServing f).ctxSel = c.ctxSel := rfl
@[simp] theorem modServing_partSel (c : Chip) (f : Serving → Serving) : (c.modServing f).partSel = c.partSel := rfl
@[simp] theorem modServing_lockSel (c : Chip) (f : Serving → Serving) : (c.modServing f).lockSel = c.lockSel := rfl
@[simp] theorem modServing_w (c : Chip) (f : Serving → Serving) : (c.modServing f).w = c.w := rfl
@[simp] theorem modServing_e (c : Chip) (f : Serving → Serving) : (c.modServing f).e = c.e := rfl
@[simp] theorem modServing_stks (c : Chip) (f : Serving → Serving) : (c.modServing f).stks = c.stks := rfl
@[simp] theorem modServing_ridge (c : Chip) (f : Serving → Serving) : (c.modServing f).ridge = c.ridge := rfl
@[simp] theorem modServing_domain (c : Chip) (f : Serving → Serving) : (c.modServing f).domain = c.domain := rfl
@[simp] theorem modServing_ports (c : Chip) (f : Serving → Serving) : (c.modServing f).ports = c.ports := rfl
@[simp] theorem modServing_vote (c : Chip) (f : Serving → Serving) : (c.modServing f).vote = c.vote := rfl
@[simp] theorem modServing_pwr (c : Chip) (f : Serving → Serving) : (c.modServing f).pwr = c.pwr := rfl
@[simp] theorem modServing_boot (c : Chip) (f : Serving → Serving) : (c.modServing f).boot = c.boot := rfl
@[simp] theorem modServing_port (c : Chip) (f : Serving → Serving) : (c.modServing f).port = c.port := rfl
@[simp] theorem modServing_wgWaits (c : Chip) (f : Serving → Serving) : (c.modServing f).wgWaits = c.wgWaits := rfl

/-! ### modDie -/

@[simp] theorem modDie_rdata (c : Chip) (d : Die) (f : DieSt → DieSt) : (c.modDie d f).rdata = c.rdata := by cases d <;> rfl
@[simp] theorem modDie_sent (c : Chip) (d : Die) (f : DieSt → DieSt) : (c.modDie d f).sent = c.sent := by cases d <;> rfl
@[simp] theorem modDie_rnd (c : Chip) (d : Die) (f : DieSt → DieSt) : (c.modDie d f).rnd = c.rnd := by cases d <;> rfl
@[simp] theorem modDie_fresh (c : Chip) (d : Die) (f : DieSt → DieSt) : (c.modDie d f).fresh = c.fresh := by cases d <;> rfl
@[simp] theorem modDie_serials (c : Chip) (d : Die) (f : DieSt → DieSt) : (c.modDie d f).serials = c.serials := by cases d <;> rfl
@[simp] theorem modDie_syncs (c : Chip) (d : Die) (f : DieSt → DieSt) : (c.modDie d f).syncs = c.syncs := by cases d <;> rfl
@[simp] theorem modDie_host (c : Chip) (d : Die) (f : DieSt → DieSt) : (c.modDie d f).host = c.host := by cases d <;> rfl
@[simp] theorem modDie_dram (c : Chip) (d : Die) (f : DieSt → DieSt) : (c.modDie d f).dram = c.dram := by cases d <;> rfl
@[simp] theorem modDie_platenMem (c : Chip) (d : Die) (f : DieSt → DieSt) : (c.modDie d f).platenMem = c.platenMem := by cases d <;> rfl
@[simp] theorem modDie_engineMem (c : Chip) (d : Die) (f : DieSt → DieSt) : (c.modDie d f).engineMem = c.engineMem := by cases d <;> rfl
@[simp] theorem modDie_sharedMem (c : Chip) (d : Die) (f : DieSt → DieSt) : (c.modDie d f).sharedMem = c.sharedMem := by cases d <;> rfl
@[simp] theorem modDie_ecc (c : Chip) (d : Die) (f : DieSt → DieSt) : (c.modDie d f).ecc = c.ecc := by cases d <;> rfl
@[simp] theorem modDie_msix (c : Chip) (d : Die) (f : DieSt → DieSt) : (c.modDie d f).msix = c.msix := by cases d <;> rfl
@[simp] theorem modDie_ctxs (c : Chip) (d : Die) (f : DieSt → DieSt) : (c.modDie d f).ctxs = c.ctxs := by cases d <;> rfl
@[simp] theorem modDie_parts (c : Chip) (d : Die) (f : DieSt → DieSt) : (c.modDie d f).parts = c.parts := by cases d <;> rfl
@[simp] theorem modDie_locks (c : Chip) (d : Die) (f : DieSt → DieSt) : (c.modDie d f).locks = c.locks := by cases d <;> rfl
@[simp] theorem modDie_vfs (c : Chip) (d : Die) (f : DieSt → DieSt) : (c.modDie d f).vfs = c.vfs := by cases d <;> rfl
@[simp] theorem modDie_ctxSel (c : Chip) (d : Die) (f : DieSt → DieSt) : (c.modDie d f).ctxSel = c.ctxSel := by cases d <;> rfl
@[simp] theorem modDie_partSel (c : Chip) (d : Die) (f : DieSt → DieSt) : (c.modDie d f).partSel = c.partSel := by cases d <;> rfl
@[simp] theorem modDie_lockSel (c : Chip) (d : Die) (f : DieSt → DieSt) : (c.modDie d f).lockSel = c.lockSel := by cases d <;> rfl
@[simp] theorem modDie_stks (c : Chip) (d : Die) (f : DieSt → DieSt) : (c.modDie d f).stks = c.stks := by cases d <;> rfl
@[simp] theorem modDie_ridge (c : Chip) (d : Die) (f : DieSt → DieSt) : (c.modDie d f).ridge = c.ridge := by cases d <;> rfl
@[simp] theorem modDie_domain (c : Chip) (d : Die) (f : DieSt → DieSt) : (c.modDie d f).domain = c.domain := by cases d <;> rfl
@[simp] theorem modDie_ports (c : Chip) (d : Die) (f : DieSt → DieSt) : (c.modDie d f).ports = c.ports := by cases d <;> rfl
@[simp] theorem modDie_vote (c : Chip) (d : Die) (f : DieSt → DieSt) : (c.modDie d f).vote = c.vote := by cases d <;> rfl
@[simp] theorem modDie_serving (c : Chip) (d : Die) (f : DieSt → DieSt) : (c.modDie d f).serving = c.serving := by cases d <;> rfl
@[simp] theorem modDie_pwr (c : Chip) (d : Die) (f : DieSt → DieSt) : (c.modDie d f).pwr = c.pwr := by cases d <;> rfl
@[simp] theorem modDie_boot (c : Chip) (d : Die) (f : DieSt → DieSt) : (c.modDie d f).boot = c.boot := by cases d <;> rfl
@[simp] theorem modDie_port (c : Chip) (d : Die) (f : DieSt → DieSt) : (c.modDie d f).port = c.port := by cases d <;> rfl
@[simp] theorem modDie_wgWaits (c : Chip) (d : Die) (f : DieSt → DieSt) : (c.modDie d f).wgWaits = c.wgWaits := by cases d <;> rfl

/-! ### Reading an entry after an update -/

@[simp] theorem die_modDie (c : Chip) (d : Die) (f : DieSt → DieSt) : (c.modDie d f).die d = f (c.die d) := by cases d <;> rfl

@[simp] theorem die_modDie_other (c : Chip) (d : Die) (f : DieSt → DieSt) : (c.modDie d f).die d.other = c.die d.other := by
  cases d <;> rfl

theorem die_modDie_ne (c : Chip) {d m : Die} (f : DieSt → DieSt) (h : m ≠ d) : (c.modDie d f).die m = c.die m := by
  cases d <;> cases m <;> first | rfl | exact absurd rfl h

@[simp] theorem die_modCtx (c : Chip) (n : Nat) (f : Ctx → Ctx) (d : Die) : (c.modCtx n f).die d = c.die d := by cases d <;> rfl
@[simp] theorem die_modPart (c : Chip) (q : Nat) (f : Partition → Partition) (d : Die) : (c.modPart q f).die d = c.die d := by
  cases d <;> rfl
@[simp] theorem die_modStk (c : Chip) (n : Nat) (f : StackSt → StackSt) (d : Die) : (c.modStk n f).die d = c.die d := by cases d <;> rfl
@[simp] theorem die_modPort (c : Chip) (n : Nat) (f : Port → Port) (d : Die) : (c.modPort n f).die d = c.die d := by cases d <;> rfl
@[simp] theorem die_modServing (c : Chip) (f : Serving → Serving) (d : Die) : (c.modServing f).die d = c.die d := by cases d <;> rfl

@[simp] theorem ctx_modDie (c : Chip) (d : Die) (f : DieSt → DieSt) (n : Nat) : (c.modDie d f).ctx n = c.ctx n := by cases d <;> rfl
@[simp] theorem ctx_modPart (c : Chip) (q : Nat) (f : Partition → Partition) (n : Nat) : (c.modPart q f).ctx n = c.ctx n := rfl
@[simp] theorem ctx_modStk (c : Chip) (q : Nat) (f : StackSt → StackSt) (n : Nat) : (c.modStk q f).ctx n = c.ctx n := rfl
@[simp] theorem ctx_modPort (c : Chip) (q : Nat) (f : Port → Port) (n : Nat) : (c.modPort q f).ctx n = c.ctx n := rfl
@[simp] theorem ctx_modServing (c : Chip) (f : Serving → Serving) (n : Nat) : (c.modServing f).ctx n = c.ctx n := rfl

theorem ctx_modCtx_ne (c : Chip) {n m : Nat} (f : Ctx → Ctx) (h : m ≠ n) : (c.modCtx n f).ctx m = c.ctx m := tget_tmod_ne h
theorem ctx_modCtx_of_ne_default (c : Chip) {n : Nat} {f : Ctx → Ctx} (h : f (c.ctx n) ≠ {}) : (c.modCtx n f).ctx n = f (c.ctx n) :=
  tget_tmod_of_ne_default h
theorem ctx_modCtx_same (c : Chip) {n : Nat} {f : Ctx → Ctx} (h : Tab.wf ({} : Ctx) c.ctxs = true) : (c.modCtx n f).ctx n = f (c.ctx n) :=
  tget_tmod_same h
theorem wf_modCtx {c : Chip} {n : Nat} {f : Ctx → Ctx} (h : Tab.wf ({} : Ctx) c.ctxs = true) : Tab.wf ({} : Ctx) (c.modCtx n f).ctxs = true :=
  wf_tmod h

theorem part_modPart_ne (c : Chip) {n m : Nat} (f : Partition → Partition) (h : m ≠ n) : (c.modPart n f).part m = c.part m := tget_tmod_ne h
theorem part_modPart_of_ne_default (c : Chip) {n : Nat} {f : Partition → Partition} (h : f (c.part n) ≠ {}) :
    (c.modPart n f).part n = f (c.part n) := tget_tmod_of_ne_default h
theorem part_modPart_same (c : Chip) {n : Nat} {f : Partition → Partition} (h : Tab.wf ({} : Partition) c.parts = true) :
    (c.modPart n f).part n = f (c.part n) := tget_tmod_same h

theorem stk_modStk_ne (c : Chip) {n m : Nat} (f : StackSt → StackSt) (h : m ≠ n) : (c.modStk n f).stk m = c.stk m := tget_tmod_ne h
theorem stk_modStk_of_ne_default (c : Chip) {n : Nat} {f : StackSt → StackSt} (h : f (c.stk n) ≠ {}) : (c.modStk n f).stk n = f (c.stk n) :=
  tget_tmod_of_ne_default h
theorem stk_modStk_same (c : Chip) {n : Nat} {f : StackSt → StackSt} (h : Tab.wf ({} : StackSt) c.stks = true) :
    (c.modStk n f).stk n = f (c.stk n) := tget_tmod_same h

theorem pport_modPort_ne (c : Chip) {n m : Nat} (f : Port → Port) (h : m ≠ n) : (c.modPort n f).pport m = c.pport m := tget_tmod_ne h
theorem pport_modPort_of_ne_default (c : Chip) {n : Nat} {f : Port → Port} (h : f (c.pport n) ≠ {}) :
    (c.modPort n f).pport n = f (c.pport n) := tget_tmod_of_ne_default h

/-- A partition's stream after a change of it. -/
theorem stream_modStream (c : Chip) (d : Die) (q : Nat) (f : Stream → Stream) {s : Stream} (h : c.stream d q = some s) :
    (c.modStream d q f).stream d q = some (f s) := by
  have e : (tget none (c.die d).streams q).map f = some (f s) := by
    have : tget none (c.die d).streams q = some s := h
    rw [this]; rfl
  have hn : (tget none (c.die d).streams q).map f ≠ none := by rw [e]; simp
  unfold Chip.stream Chip.modStream
  rw [die_modDie]
  simp only [tmod]
  rw [tget_tput_of_ne_default hn, e]

/-- Another partition's stream is not touched. -/
theorem stream_modStream_ne (c : Chip) (d : Die) {q r : Nat} (f : Stream → Stream) (h : r ≠ q) :
    (c.modStream d q f).stream d r = c.stream d r := by
  unfold Chip.stream Chip.modStream
  rw [die_modDie]
  exact tget_tmod_ne h

/-- A thread that was put into its place reads back. -/
theorem thread_setThread (c : Chip) (t : ThreadRef) (x : Thread) : (c.setThread t (some x)).thread t = some x := by
  unfold Chip.thread Chip.setThread
  rw [die_modDie]
  exact tget_tput_of_ne_default (by simp)

end Sys2Proof.Machine
end

