-- ==== Sys2Proof/Laws/Ops.lean ====
section
/-!
SUPPORT. One lemma per shared operation that says what it can do: which parts of the module it may change, and what it
answers. Later proofs cite these and do not unfold the operations.
-/
namespace Sys2Proof.Machine

@[simp] theorem run_eq (s : State) (f : Chip → Chip) : s.run f = .next { s with chip := f s.chip } := rfl

/-! ### Commands: steps 4 and 5 of R340 -/

/-- A taken command has its effect. -/
theorem command_taken {c : Chip} {h : Hdr} {pf need : Bool} {f : Chip → Chip} (ht : Taken c h pf need) : c.command h pf need f = f c := by
  unfold Chip.command Chip.rightsOk
  obtain ⟨h1, h2⟩ := ht
  rcases h1 with h1 | ⟨h1, h3⟩
  · simp [h1]; intro a b; exact absurd b (h2 a)
  · simp [h1, h3]; intro a b; exact absurd b (h2 a)

/-- A command has its effect, or a record of status 0x0603 or 0x0104 and nothing else. -/
theorem command_cases (c : Chip) (h : Hdr) (pf need : Bool) (f : Chip → Chip) :
    c.command h pf need f = f c ∨ c.command h pf need f = c.done h 0x0603 0 0 ∨ c.command h pf need f = c.done h 0x0104 0 0 := by
  unfold Chip.command
  by_cases h1 : c.rightsOk h pf = true
  · by_cases h2 : (need && decide ((c.ctx h.ctx).st = .free)) = true
    · right; right; simp [h1, h2]
    · left
      simp only [h1, h2, Bool.not_true, Bool.false_eq_true, if_false]
  · right; left; simp [h1]

/-! ### Records, output records, messages -/

/-- Draining a ring touches host memory, the ring's context and the raised vectors. -/
theorem drainRing_frame (c : Chip) (n r : Nat) :
    ∃ m x v, c.drainRing n r = { c with host := m, ctxs := x, msix := v } := by
  unfold Chip.drainRing
  simp only
  split
  · exact ⟨c.host, c.ctxs, c.msix, rfl⟩
  · split
    · exact ⟨_, _, _, rfl⟩
    · exact ⟨_, _, c.msix, rfl⟩

/-- Posting a record touches host memory, the context of the ring and the raised vectors. -/
theorem post_frame (c : Chip) (n r : Nat) (x : Record) : ∃ m y v, c.post n r x = { c with host := m, ctxs := y, msix := v } := by
  obtain ⟨m, y, v, h⟩ := drainRing_frame (c.modRing n r (fun g => { g with kept := g.kept ++ [x] })) n r
  exact ⟨m, y, v, h⟩

theorem done_frame (c : Chip) (h : Hdr) (status : W16) (detail value : W32) :
    ∃ m y v, c.done h status detail value = { c with host := m, ctxs := y, msix := v } := by
  unfold Chip.done
  split
  · exact ⟨c.host, c.ctxs, c.msix, rfl⟩
  · exact post_frame c _ _ _

theorem ok_frame (c : Chip) (h : Hdr) (value : W32) : ∃ m y v, c.ok h value = { c with host := m, ctxs := y, msix := v } :=
  done_frame c h 0 0 value

/-- Draining an output ring touches host memory, its context and the raised vectors. -/
theorem drainOring_frame (c : Chip) (n r : Nat) : ∃ m x v, c.drainOring n r = { c with host := m, ctxs := x, msix := v } := by
  unfold Chip.drainOring
  simp only
  split
  · exact ⟨c.host, c.ctxs, c.msix, rfl⟩
  · exact ⟨_, _, _, rfl⟩

theorem output_frame (c : Chip) (n r : Nat) (x : BitVec 128) : ∃ m y v, c.output n r x = { c with host := m, ctxs := y, msix := v } := by
  unfold Chip.output
  split
  · exact ⟨c.host, c.ctxs, c.msix, rfl⟩
  · obtain ⟨m, y, v, h⟩ := drainOring_frame (c.modCtx n (fun k => { k with orings := tmod {} k.orings r (fun g => { g with delayed := g.delayed ++ [x] }) })) n r
    exact ⟨m, y, v, h⟩

/-! ### Memory -/

/-- Reads of context virtual memory count unwritten pages and touch nothing else. -/
theorem readVaAs_frame (c : Chip) (n : Nat) (w : Copy) (va len : Nat) : ∃ y, (c.readVaAs n w va len).1 = { c with ctxs := y } := by
  unfold Chip.readVaAs
  split
  · exact ⟨c.ctxs, rfl⟩
  · unfold Chip.countRbw
    simp only
    split
    · exact ⟨c.ctxs, rfl⟩
    · exact ⟨_, rfl⟩

/-- A snoop touches the presence bits of the stacks and the weight caches of the dies. -/
theorem snoop_frame (c : Chip) (u : Nat) : ∃ k v w, c.snoop u = { c with stks := k, w := v, e := w } := by
  unfold Chip.snoop
  simp only
  split
  · exact ⟨c.stks, c.w, c.e, rfl⟩
  · exact ⟨_, _, _, rfl⟩

theorem foldl_snoop_frame (l : List Nat) (c : Chip) : ∃ k v w, l.foldl (fun c u => c.snoop u) c = { c with stks := k, w := v, e := w } := by
  induction l generalizing c with
  | nil => exact ⟨c.stks, c.w, c.e, rfl⟩
  | cons u l ih =>
    obtain ⟨k, v, w, h⟩ := snoop_frame c u
    obtain ⟨k', v', w', h'⟩ := ih { c with stks := k, w := v, e := w }
    exact ⟨k', v', w', by rw [List.foldl_cons, h, h']⟩

theorem snoopCopy_frame (c : Chip) (k : PageCopy) : ∃ s v w, c.snoopCopy k = { c with stks := s, w := v, e := w } := foldl_snoop_frame _ c

/-- A first write touches the page's copy, its written bit and what the weight caches hold of it. -/
theorem firstWrite_frame (c : Chip) (n va : Nat) (useB : Bool) :
    ∃ y m x s v w, c.firstWrite n va useB = { c with ctxs := y, dram := m, ecc := x, stks := s, w := v, e := w } := by
  unfold Chip.firstWrite
  split
  · exact ⟨c.ctxs, c.dram, c.ecc, c.stks, c.w, c.e, rfl⟩
  · simp only
    split
    · exact ⟨c.ctxs, c.dram, c.ecc, c.stks, c.w, c.e, rfl⟩
    · obtain ⟨s, v, w, h⟩ := snoopCopy_frame _ _
      exact ⟨_, _, _, s, v, w, h⟩

/-- Zeroing a copy keeps the store's canonical form. -/
theorem zeroCopy_wf {m : Memory} {k : PageCopy} (h : m.wf = true) : (zeroCopy m k).wf = true := by
  unfold zeroCopy
  split
  · rename_i stack slice _
    exact wfFrom_filter (p := fun a _ => !(decide (stack * 2 ^ 36 + slice * 2 ^ 18 ≤ a) && decide (a < stack * 2 ^ 36 + slice * 2 ^ 18 + pageSize))) h
  · rename_i slices _
    exact wfFrom_filter (p := fun a _ => !(decide (a / 2 ^ 36 < 8) && decide ((a % 2 ^ 36) / 2 ^ 18 = slices.getD (a / 2 ^ 36) 0))) h

theorem foldl_snoop_dram (l : List Nat) (c : Chip) : (l.foldl (fun c u => c.snoop u) c).dram = c.dram := by
  obtain ⟨k, v, w, h⟩ := foldl_snoop_frame l c
  rw [h]

theorem snoopCopy_dram (c : Chip) (k : PageCopy) : (c.snoopCopy k).dram = c.dram := foldl_snoop_dram _ c

theorem firstWrite_dram_wf {c : Chip} {n va : Nat} {useB : Bool} (h : c.dram.wf = true) : (c.firstWrite n va useB).dram.wf = true := by
  unfold Chip.firstWrite
  split
  · exact h
  · simp only
    split
    · exact h
    · rw [snoopCopy_dram]
      exact zeroCopy_wf h

theorem wf_foldl_mput {l : List Nat} {f : Nat → Nat} {g : Nat → Byte} {m : Memory} (h : m.wf = true) :
    Memory.wf (l.foldl (fun m i => mput m (f i) (g i)) m) = true := by
  induction l generalizing m with
  | nil => exact h
  | cons x l ih => exact ih (wf_mput h)

/-- Storing bytes at a place of a copy keeps the device memory canonical. -/
theorem pokeCopy_dram_wf {c : Chip} {k : PageCopy} {po : Nat} {bs : List Byte} (h : c.dram.wf = true) : (c.pokeCopy k po bs).dram.wf = true := by
  unfold Chip.pokeCopy
  simp only
  rw [foldl_snoop_dram]
  exact wf_foldl_mput h

theorem pokePiece_dram_wf {c : Chip} {n va : Nat} {useB : Bool} {bs : List Byte} (h : c.dram.wf = true) :
    (c.pokePiece n useB va bs).dram.wf = true := by
  unfold Chip.pokePiece
  have h1 := firstWrite_dram_wf (n := n) (va := va) (useB := useB) h
  simp only
  split
  · exact h1
  · exact pokeCopy_dram_wf h1

/-! ### Semaphores -/

theorem debugHit_sems (m : DieSt) (cause : BitVec 4) (index : Nat) (time : W64) (halt : Bool) :
    (m.debugHit cause index time halt).sems = m.sems := rfl

theorem ite_sems {p : Prop} [Decidable p] {a b : DieSt} (h : a.sems = b.sems) : (if p then a else b).sems = b.sems := by
  split
  · exact h
  · rfl

theorem watch_sems (m : DieSt) (pair : Nat) (empty take : Bool) (time : W64) : (m.watch pair empty take time).sems = m.sems := by
  unfold DieSt.watch
  generalize List.range 8 = l
  induction l generalizing m with
  | nil => rfl
  | cons n l ih =>
    rw [List.foldl_cons, ih]
    exact ite_sems rfl

/-- A take writes exactly the pair it takes from. -/
theorem semTake_sems (c : Chip) (d : Die) (pair : Nat) (empty : Bool) (n : Nat) :
    ((c.semTake d pair empty n).die d).sems =
      tput {} (c.die d).sems pair (((c.die d).sem pair).setHalf empty (((c.die d).sem pair).half empty - BitVec.ofNat 16 n)) := by
  unfold Chip.semTake
  rw [die_modDie, watch_sems]

end Sys2Proof.Machine
end

