-- ==== Sys2Proof/Laws/Memory.lean ====
section
/-!
SUPPORT. Every operation on the byte stores keeps all of them in canonical form; what the order of a run's ops may touch.
-/
namespace Sys2Proof.Machine

/-! ### The order of a run's ops -/

/-- Learning touches contexts alone. -/
theorem learn_frame (c : Chip) (n : Nat) (h : Holder) (ids : List Nat) : ∃ x, c.learn n h ids = { c with ctxs := x } := by
  unfold Chip.learn
  split
  · exact ⟨c.ctxs, rfl⟩
  · exact ⟨_, rfl⟩

theorem hears_frame (c : Chip) (h : Holder) (d : Die) (pair : Nat) (empty : Bool) : ∃ x, c.hears h d pair empty = { c with ctxs := x } := by
  unfold Chip.hears
  split
  · exact learn_frame c _ _ _
  · exact ⟨c.ctxs, rfl⟩

/-! ### Canonical stores -/

/-- Only the byte stores matter. -/
theorem storesWf_congr {c c' : Chip} (h : StoresWf c) (h1 : c'.host = c.host) (h2 : c'.dram = c.dram) (h3 : c'.platenMem = c.platenMem)
    (h4 : c'.engineMem = c.engineMem) (h5 : c'.sharedMem = c.sharedMem) : StoresWf c' := by
  unfold StoresWf
  rw [h1, h2, h3, h4, h5]
  exact h

theorem storesWf_dram {c : Chip} {m : Memory} (h : StoresWf c) (hm : m.wf = true) : StoresWf { c with dram := m } :=
  ⟨h.1, hm, h.2.2.1, h.2.2.2.1, h.2.2.2.2⟩

theorem storesWf_platenMem {c : Chip} {m : Memory} (h : StoresWf c) (hm : m.wf = true) : StoresWf { c with platenMem := m } :=
  ⟨h.1, h.2.1, hm, h.2.2.2.1, h.2.2.2.2⟩

theorem storesWf_engineMem {c : Chip} {m : Memory} (h : StoresWf c) (hm : m.wf = true) : StoresWf { c with engineMem := m } :=
  ⟨h.1, h.2.1, h.2.2.1, hm, h.2.2.2.2⟩

theorem storesWf_sharedMem {c : Chip} {m : Memory} (h : StoresWf c) (hm : m.wf = true) : StoresWf { c with sharedMem := m } :=
  ⟨h.1, h.2.1, h.2.2.1, h.2.2.2.1, hm⟩

/-- A fold keeps the stores canonical where each of its steps does. -/
theorem storesWf_foldl {α : Type} {l : List α} {f : Chip → α → Chip} (hf : ∀ c x, StoresWf c → StoresWf (f c x)) {c : Chip} (h : StoresWf c) :
    StoresWf (l.foldl f c) := by
  induction l generalizing c with
  | nil => exact h
  | cons x l ih => exact ih (hf c x h)

theorem storesWf_modDie {c : Chip} {d : Die} {f : DieSt → DieSt} (h : StoresWf c) : StoresWf (c.modDie d f) :=
  storesWf_congr h (by simp) (by simp) (by simp) (by simp) (by simp)

theorem storesWf_snoop {c : Chip} {u : Nat} (h : StoresWf c) : StoresWf (c.snoop u) := by
  obtain ⟨k, v, w, e⟩ := snoop_frame c u
  rw [e]; exact storesWf_congr h rfl rfl rfl rfl rfl

theorem storesWf_snoopCopy {c : Chip} {k : PageCopy} (h : StoresWf c) : StoresWf (c.snoopCopy k) :=
  storesWf_foldl (fun _ _ h => storesWf_snoop h) h

theorem storesWf_firstWrite {c : Chip} {n va : Nat} {b : Bool} (h : StoresWf c) : StoresWf (c.firstWrite n va b) := by
  have hd := firstWrite_dram_wf (n := n) (va := va) (useB := b) h.2.1
  obtain ⟨y, m, x, s, v, w, e⟩ := firstWrite_frame c n va b
  rw [e] at hd ⊢
  exact ⟨h.1, hd, h.2.2.1, h.2.2.2.1, h.2.2.2.2⟩

theorem storesWf_pokeCopy {c : Chip} {k : PageCopy} {po : Nat} {bs : List Byte} (h : StoresWf c) : StoresWf (c.pokeCopy k po bs) := by
  unfold Chip.pokeCopy
  exact storesWf_foldl (fun _ _ h => storesWf_snoop h) ⟨h.1, wf_foldl_mput h.2.1, h.2.2⟩

theorem storesWf_pokePiece {c : Chip} {n va : Nat} {b : Bool} {bs : List Byte} (h : StoresWf c) : StoresWf (c.pokePiece n b va bs) := by
  have h1 := storesWf_firstWrite (n := n) (va := va) (b := b) h
  unfold Chip.pokePiece
  simp only
  split
  · exact h1
  · exact storesWf_pokeCopy h1

theorem storesWf_pokeVa {c : Chip} {n va : Nat} {w : Copy} {bs : List Byte} (h : StoresWf c) : StoresWf (c.pokeVa n w va bs) := by
  unfold Chip.pokeVa
  generalize piecesOf va bs.length = l
  induction l generalizing c bs with
  | nil => exact h
  | cons x l ih => exact ih (storesWf_pokePiece h)

theorem storesWf_spoil {c : Chip} {n va len : Nat} (h : StoresWf c) : StoresWf (c.spoil n va len) := by
  have step {c : Chip} (s : Option Stream) (p : Stream → Bool) (d : Die) (q : Nat) (f : Stream → Stream → Stream) (h : StoresWf c) :
      StoresWf (match s with
        | none => c
        | some s => if !p s then c else { c.modStream d q (f s) with fresh := c.fresh + 1 }) := by
    split
    · exact h
    · split
      · exact h
      · exact storesWf_congr (storesWf_modDie (d := d) h) rfl rfl rfl rfl rfl
  unfold Chip.spoil
  exact step _ _ .e _ _ (step _ _ .w _ _ h)

/-- A checked write keeps every store canonical, whoever writes. -/
theorem storesWf_writeVaAs {c : Chip} {n : Nat} {wr : Writer} {va : Nat} {bs : List Byte} (h : StoresWf c) :
    StoresWf (c.writeVaAs n wr va bs).1 := by
  unfold Chip.writeVaAs
  split
  · exact h
  · split
    · exact storesWf_pokeVa (storesWf_spoil h)
    · exact storesWf_pokeVa h
    · exact storesWf_pokeVa (storesWf_pokeVa h)

theorem storesWf_writeVa {c : Chip} {n va : Nat} {bs : List Byte} (h : StoresWf c) : StoresWf (c.writeVa n va bs).1 := storesWf_writeVaAs h

theorem storesWf_putSpace {c : Chip} {n : Nat} {d : Die} {pos space addr : Nat} {bs : List Byte} (h : StoresWf c) :
    StoresWf (c.putSpace n d pos space addr bs) := by
  unfold Chip.putSpace
  split
  · exact storesWf_writeVa h
  · split
    · exact storesWf_platenMem h (wf_mwrite h.2.2.1)
    · split
      · exact storesWf_engineMem h (wf_mwrite h.2.2.2.1)
      · exact storesWf_platenMem h (wf_mwrite h.2.2.1)
  · exact storesWf_sharedMem h (wf_mwrite h.2.2.2.2)

/-- Bytes made free keep every store canonical (R132, R136, R156). -/
theorem storesWf_scrambleOut {c : Chip} {n : Nat} {d : Die} {pos : Nat} {o : Out} (h : StoresWf c) : StoresWf (c.scrambleOut n d pos o) := by
  unfold Chip.scrambleOut
  have h' : StoresWf (c.freeBytes o.len).2 := storesWf_congr h rfl rfl rfl rfl rfl
  simp only
  split
  · exact storesWf_writeVaAs h'
  · exact storesWf_putSpace h'

theorem storesWf_scramble {c : Chip} {n : Nat} {d : Die} {pos : Nat} {o : Op} (h : StoresWf c) : StoresWf (c.scramble n d pos o) := by
  unfold Chip.scramble
  split
  · exact h
  · exact storesWf_foldl (fun _ _ h => storesWf_scrambleOut h) h

theorem storesWf_scrambleRun {c : Chip} {n : Nat} (h : StoresWf c) : StoresWf (c.scrambleRun n) := by
  unfold Chip.scrambleRun
  split
  · exact h
  · exact storesWf_congr (storesWf_foldl (fun c w h => by
      split
      · exact h
      · exact storesWf_scrambleOut h) h) rfl rfl rfl rfl rfl

theorem storesWf_raceBytes {c : Chip} {u : UnitRef} {id : Nat} {outs ins : List Out} (h : StoresWf c) : StoresWf (c.raceBytes u id outs ins) := by
  unfold Chip.raceBytes
  simp only
  split
  · exact h
  · exact storesWf_foldl (fun _ _ h => storesWf_scrambleOut h) h

theorem wf_foldl_mput_by {α : Type} {l : List α} {f : α → Nat} {g : α → Byte} {m : Memory} (h : m.wf = true) :
    Memory.wf (l.foldl (fun m x => mput m (f x) (g x)) m) = true := by
  induction l generalizing m with
  | nil => exact h
  | cons x l ih => exact ih (wf_mput h)

/-- A page that moves, by a spill (R317) or a migration (R101), keeps every store canonical. -/
theorem storesWf_moveCopy {c : Chip} {old new : PageCopy} (h : StoresWf c) : StoresWf (c.moveCopy old new) :=
  ⟨h.1, wf_foldl_mput_by (zeroCopy_wf (zeroCopy_wf h.2.1)), h.2.2⟩

theorem storesWf_copyOver {c : Chip} {old new : PageCopy} (h : StoresWf c) : StoresWf (c.copyOver old new) :=
  ⟨h.1, wf_foldl_mput_by (zeroCopy_wf h.2.1), h.2.2⟩

theorem storesWf_migrationFree {c : Chip} {st : Nat} (h : StoresWf c) : StoresWf (c.migrationFree st) := by
  unfold Chip.migrationFree
  simp only
  split
  · exact h
  · refine storesWf_congr (storesWf_foldl (l := (c.stk st).old) (fun c p h => ?_) h) rfl rfl rfl rfl rfl
    exact storesWf_snoopCopy (storesWf_dram h (zeroCopy_wf h.2.1))

/-- The zeroing of a partition's stores keeps every store canonical (R328). -/
theorem storesWf_zeroStores {c : Chip} {q : Nat} (h : StoresWf c) : StoresWf (c.zeroStores q) := by
  unfold Chip.zeroStores
  refine ⟨h.1, h.2.1, ?_, ?_, h.2.2.2.2⟩
  · exact wf_mfilter (p := fun k _ => !bit (if k / 2 ^ 29 = 0 then (c.part q).ptW.toNat else (c.part q).ptE.toNat) (k % 2 ^ 29 / 2 ^ 23)) h.2.2.1
  · exact wf_mfilter (p := fun k _ => !bit (c.part q).te.toNat (k / 2 ^ 20)) h.2.2.2.1

theorem storesWf_clearErr {c : Chip} {d : Die} {q : Nat} {img : DieImage} (h : StoresWf c) : StoresWf (c.clearErr d q img) := by
  unfold Chip.clearErr
  refine storesWf_foldl (fun c' p h => ?_) h
  have keep (b : Prop) [Decidable b] (f : Nat → Byte → Bool) : StoresWf (if b then { c' with platenMem := tfilter f c'.platenMem } else c') := by
    split
    · exact ⟨h.1, h.2.1, wf_mfilter h.2.2.1, h.2.2.2⟩
    · exact h
  exact keep _ _

theorem storesWf_writeErrs {c : Chip} {d : Die} {ps : List (Option (Nat × Nat))} {es : List W32} (h : StoresWf c) :
    StoresWf (c.writeErrs d ps es) := by
  refine storesWf_platenMem h ?_
  have hm := h.2.2.1
  generalize ps.zip es = l
  generalize c.platenMem = m at hm ⊢
  induction l generalizing m with
  | nil => exact hm
  | cons x l ih =>
    refine ih _ ?_
    simp only
    split
    · split
      · exact wf_mwrite hm
      · exact hm
    · exact hm

end Sys2Proof.Machine
end

