-- ==== Sys2Proof/Tests/Slice0.lean ====
section
/-!
SUPPORT. The author's own tests: an ill-formed term for each check of WellFormed, single steps whose results the manual's
words and tables give, and for each statement with hypotheses a state and operands that meet them.
-/
namespace Sys2Proof.Tests
set_option Elab.async false
open Sys2Proof Sys2Proof.Machine

/-- What a command leaves of the module. -/
def after (i : Instr) (c : Chip) : Chip :=
  match exec i ⟨[], c⟩ with
  | .next s => s.chip
  | _ => c

/-! ### WellFormed refuses -/

/-- A header that names ring 0 of context 5 on the PF. -/
def tHdr : Hdr := { fn := 0, page := 5, ring := 0, seq := 7, ctx := 5, fence := false, hold := false, inln := false }

theorem test_wf_header : (Instr.nopCmd tHdr).wf = true ∧ (Instr.nopCmd { tHdr with fn := 512 }).wf = false ∧
    (Instr.nopCmd { tHdr with page := 1024 }).wf = false ∧ (Instr.nopCmd { tHdr with ring := 8 }).wf = false ∧
    (Instr.nopCmd { tHdr with ctx := 1024 }).wf = false := by decide
theorem test_wf_lengths : (Instr.stopsetSet tHdr 0 0 []).wf = false ∧
    (Instr.debugUnlock tHdr false 0 []).wf = false := by decide
theorem test_wf_overlay (bs : List Byte) (h : bs.length = 1041) : (Instr.overlayApply tHdr 0 0 bs).wf = false := by simp [Instr.wf, h]
theorem test_wf_rings : (Instr.doorbell 512 0 0 0 []).wf = false ∧ (Instr.doorbell 0 1024 0 0 []).wf = false ∧
    (Instr.doorbell 0 0 8 0 []).wf = false ∧ (Instr.doorbell 0 0 0 0 [(2 ^ 64, 0)]).wf = false ∧ (Instr.oringHeadWrite 0 0 256 0).wf = false ∧
    (Instr.ringEnable 512 0 0 0).wf = false ∧ (Instr.cplHeadWrite 0 0 8 0).wf = false ∧ (Instr.packetTake 1024).wf = false ∧
    (Instr.fenceRelease 0 8).wf = false := by decide
theorem test_wf_control : (Instr.ctrlNop ⟨.w, 16, 0⟩).wf = false ∧ (Instr.sheetFetch .w 16 0).wf = false ∧
    (Instr.sheetFetch .w 0 (2 ^ 17)).wf = false ∧ (Instr.waitTimeout .w 16).wf = false := by decide
theorem test_wf_units : (Instr.slotNop ⟨.w, 0, 126⟩).wf = false ∧ (Instr.platenTile ⟨.w, 0, 64⟩).wf = false ∧
    (Instr.thatchTile ⟨.w, 0, 96⟩).wf = false ∧ (Instr.select ⟨.w, 0, 95⟩).wf = false ∧ (Instr.update ⟨.w, 0, 116⟩).wf = false ∧
    (Instr.gutOpen ⟨.w, 0, 117⟩).wf = false ∧ (Instr.reduce ⟨.w, 0, 116⟩ []).wf = false ∧ (Instr.spawn ⟨.w, 16, 118⟩).wf = false ∧
    (Instr.linkTake ⟨.w, 0, 0⟩ 1024).wf = false ∧ (Instr.streamTrap ⟨.w, 0, 128⟩ 0 0).wf = false ∧
    (Instr.norm ⟨.w, 0, 117⟩ [{ (default : Peer) with index := 1024 }]).wf = false := by decide
theorem test_wf_threads : (Instr.exit ⟨.w, 5, 0, 0⟩).wf = false ∧ (Instr.exit ⟨.w, 1, 16, 0⟩).wf = false ∧
    (Instr.exit ⟨.w, 0, 256, 0⟩).wf = false ∧ (Instr.exit ⟨.w, 0, 0, 4096⟩).wf = false ∧ (Instr.exit ⟨.e, 0, 255, 4095⟩).wf = true := by decide
theorem test_wf_memory : (Instr.cacheFill .w (2 ^ 31)).wf = false ∧ (Instr.waitGraphCheck [(1024, 0)]).wf = false ∧
    (Instr.pageFirstWrite 1024 0).wf = false ∧ (Instr.bar4Access 512 0 none 1).wf = false ∧ (Instr.peerReadRequest ⟨0, 1024⟩ 0 1).wf = false := by decide
theorem test_wf_registers : (Instr.registerWrite 0 1 0 4 0).wf = false ∧ (Instr.registerReadClear 0 0 0 17).wf = false ∧
    (Instr.registerReadClear 512 0 0 4).wf = false ∧ (Instr.ridgeNowRead 512).wf = false ∧ (Instr.gutLossSumRead 512 .w).wf = false := by decide
theorem test_wf_parts : (Instr.schedulerChoice 16).wf = false ∧ (Instr.portDown 8).wf = false ∧ (Instr.pageMigration 8 []).wf = false ∧
    (Instr.trafficWindow 0 (List.replicate 17 0) []).wf = false ∧ (Instr.droopRelax .w 64).wf = false ∧ (Instr.stackSelection 0 2).wf = false ∧
    (Instr.gutterRecordArrival .w 9).wf = false ∧ (Instr.voteReceived 0 [⟨1024, 0, false, false, 0, 0, []⟩]).wf = false ∧
    (Instr.kill 1024 0).wf = false ∧ (Instr.functionLevelReset 512).wf = false := by decide

/-! ### States the tests stand on -/

/-- A context of partition 0 with one page, and command ring 0 in use. -/
def tPage : Page :=
  { attr := { place := 8, salt := 0, keysel := false, pair := false, ro := false, pset := 0 },
    copyA := { phys := .pinned 0 8, salt := 0, hash := 0, written := true }, copyB := none, key := 1 }
def tRing : Ring := { base := 0x1000, cplBase := 0x2000, wb := 0x3000, enable := true }
def tCtx : Ctx := { st := .idle, key := 1, pages := [(2, some tPage)], rings := [(0, tRing)] }

/-- Context 5 exists and is idle. -/
def tIdle : Chip := { Chip.reset with ctxs := [(5, tCtx)], serials := 1 }

/-- Context 5 runs a command on partition 0. -/
def tRun : Chip :=
  { tIdle with ctxs := [(5, { tCtx with st := .running, run := some {}, execQ := [{ cmd := .impRun tHdr default }] })]
               parts := [(0, { Partition.whole with cur := some 5 })] }

/-- The command's stream on Die W, with an image that holds one sheet. -/
def tStream : Stream := { ctx := 5, image := { sheetVa := 0x400000, sheetSize := 64 } }
def tFlow : Chip := tRun.setStream .w 0 (some tStream)

/-- A unit of that stream with an op in progress. -/
def tOpAt (pos opc : Nat) (slot : BitVec 128) (descs : List (List W64)) : Chip :=
  let o : Op := { e := { slot := slot ||| BitVec.ofNat 128 (opc * 2 ^ 124), rep := 1, i := 1 }, descs := some descs, wides := [] }
  tRun.setStream .w 0 (some { tStream with units := [(pos, { op := some o })] })

/-- A compositor thread of the command, at the first of four instructions, whose line is in the instruction cache. -/
def tThread : Thread := { prog := 1, progVa := 0x400000, progLen := 4, regs := [(1, 5), (2, 0xFFFFFFFFFFFFFFFD), (3, 7)], pc := 0 }
def tRef : ThreadRef := ⟨.w, 0, 0, 0⟩
def tComp : Chip := (tFlow.setThread tRef (some tThread)).useLine tRef (1, 0x4000)
/-- The thread's next instruction word stands in memory. -/
def tWord (w : Nat) (c : Chip) : Chip := (c.writeVa 5 0x400000 (leBytes 4 w)).1

/-! ### Number formats (chapter 2) -/

/-- Table 2.3 and Table 2.4: F4 0x7 is 6, E4M3 0x7E is 448, E5M2 0x7B is 57,344; T2 0b10 is zero with BADCODE (Table 2.2). -/
theorem test_element_values : (elemVal 3 7).1 = .fin ⟨3, 1⟩ ∧ (elemVal 5 0x7E).1 = .fin ⟨14, 5⟩ ∧ (elemVal 6 0x7B).1 = .fin ⟨7, 13⟩ ∧
    elemVal 1 2 = (.fin ⟨0, 0⟩, { badcode := true }) ∧ (elemVal 0 2).1 = .fin ⟨-2, 0⟩ := by decide
/-- R41: E8M0 code 0x80 is 2. -/
theorem test_scale_code : (scaleVal false 0x80).1 = .fin ⟨1, 1⟩ := by decide
/-- Table 2.9: with DQ = 0 each pass's +1 on 2^24 is a tie that goes to even; with +2 the sum is representable (R48). -/
theorem test_tie_to_even : (fadd32 0x4B800000 0x3F800000).1 = 0x4B800000 ∧ (fadd32 0x4B800000 0x40000000).1 = 0x4B800001 := by decide
/-- R32: I4 saturates symmetrically at ±7, with CLIP. -/
theorem test_convert_saturates : (convert 2 .near (.fin ⟨9, 0⟩) (.fin ⟨1, 0⟩)).1 = 7 ∧ (convert 2 .near (.fin ⟨-9, 0⟩) (.fin ⟨1, 0⟩)).1 = 9 ∧
    (convert 2 .near (.fin ⟨9, 0⟩) (.fin ⟨1, 0⟩)).2.clip = true := by decide
/-- §12.2: the worked lane position of an update op with TILE 0x4005, lane 17, step 1,234. -/
theorem test_lane_position : rngPos 3 0x4005 0x11 0x4D2 = 0x000000304005001100000004D2000000 := by decide

/-! ### Command packets (chapter 14) -/

/-- Table 14.3: LEVEL_SET (0x02) of level 1, header level and version 1, context 5, SEQ 7, two slots; Table 14.5 puts LEVEL at
byte 32. -/
def tLevelPacket : List Byte :=
  [0x02, 0x11, 0, 0, 5, 0, 0, 0, 7, 0, 0, 0, 2, 0, 0, 0] ++ List.replicate 16 0 ++ [1] ++ List.replicate 31 0
theorem test_packet_read : hdrOf 0 5 0 tLevelPacket = tHdr ∧ packetCmd [] tHdr tLevelPacket = some (.levelSet tHdr 1) ∧
    tIdle.packetCheck tHdr tLevelPacket = none := by decide
theorem test_packet_version : tIdle.packetCheck tHdr (tLevelPacket.set 1 0x21) ≠ none := by decide
/-- R340, R358: an unassigned opcode gives 0x0102; LEN below the minimum 0x0105. -/
theorem test_packet_opcode : (tIdle.packetCheck tHdr (tLevelPacket.set 0 0x04)).map (·.1) = some 0x0102 ∧
    (tIdle.packetCheck tHdr (tLevelPacket.set 12 1)).map (·.1) = some 0x0105 := by decide
/-- Table 14.4: the record of NOP on ring 0 is SEQ 7 with status 0, then the write-back block counts it. -/
theorem test_nop_record : mread (after (.nopCmd tHdr) tIdle).host 0x2000 16 = [0, 0, 0, 0, 7, 0, 0, 0, 0, 0, 0, 0, 0, 0, 0, 0] ∧
    mread (after (.nopCmd tHdr) tIdle).host 0x3000 8 = [0, 0, 0, 0, 1, 0, 0, 0] := by decide
theorem test_level_refused : mread (after (.levelSet tHdr 2) tIdle).host 0x2000 4 = [0x02, 0x01, 0, 0] := by decide
/-- CTX_CREATE for partition 0 with the seed 1. -/
def tCreate : CtxCreateP :=
  { part := 0, latency := false, rbwFault := false, seedLo := 1, seedHi := 0, spillHa := 0, spillBytes := 0, parkHa := 0, parkBytes := 0 }
set_option maxRecDepth 4000 in
theorem test_ctxCreate : ((after (.ctxCreate tHdr tCreate) tIdle).ctx 0).st = .idle ∧
    ((after (.ctxCreate tHdr tCreate) tIdle).ctx 0).seed = 1 := by decide
set_option maxRecDepth 20000 in
theorem test_ctxDestroy : ((after (.ctxDestroy tHdr) tIdle).ctx 5).st = .free := by decide
/-- One page attribute: any stack, no special hash. -/
def tAttr : MapAttr := { place := 8, salt := 0, keysel := false, pair := false, ro := false, pset := 0 }
theorem test_map_misaligned : mread (after (.mapPages tHdr 0x800001 1 tAttr) tIdle).host 0x2000 2 = [0x05, 0x01] := by decide
theorem test_powerLimit : (after (.powerLimit tHdr 600 false) tIdle).pwr.limit = 600 ∧ (after (.powerLimit tHdr 599 false) tIdle).pwr.limit = 1500 := by
  decide
/-- R351: of a COMMIT and an ABORT of one step the second completes with 0x0105. -/
theorem test_abort_then_commit :
    let c := after (.commitCmd tHdr 4120) (after (.abortCmd tHdr 4120) tIdle)
    mread c.host 0x2000 2 = [0, 0] ∧ mread c.host 0x2010 2 = [0x05, 0x01] := by decide
theorem test_lsSet : mread (after (.lsSet tHdr 33 100) tIdle).host 0x2000 2 = [0x05, 0x01] ∧
    ((after (.lsSet tHdr 32 100) tIdle).ctx 5).train.exp = 32 := by decide
theorem test_lock :
    let c := after (.lockAcquire tHdr 9) tIdle
    (tget {} c.locks 9 : Lock).owner = 5 ∧ (tget {} (after (.lockRelease tHdr 9) c).locks 9 : Lock).held = false := by decide
theorem test_preempt : ((after (.preempt tHdr) tRun).ctx 5).st = .ready ∧ ((after (.preempt tHdr) tRun).ctx 5).killCount = 1 := by decide
theorem test_doorbell_bad : ((after (.doorbell 0 5 0 64 []) tIdle).ring 5 0).err = true ∧
    ((after (.doorbell 0 5 0 63 []) tIdle).ring 5 0).err = false := by decide

/-! ### Streams (chapter 5) -/

/-- Table 5.8: LOOP counts down and branches by its signed TARGET; at zero it falls through to the next sheet. -/
theorem test_loop :
    let c := tRun.setStream .w 0 (some { tStream with cnt := [(2, 3)] })
    (tget 0 ((after (.loop ⟨.w, 0, 0⟩ 2 0xFFFFFD) (c.modImp .w 0 (fun i => { i with pc := 9 }))).stream .w 0).get!.cnt 2) = 2 ∧
    ((after (.loop ⟨.w, 0, 0⟩ 2 0xFFFFFD) (c.modImp .w 0 (fun i => { i with pc := 9 }))).imp .w 0).pc = 6 ∧
    ((after (.loop ⟨.w, 0, 0⟩ 1 0xFFFFFD) c).imp .w 0).pc = 3 := by decide
theorem test_jump : ((after (.jump ⟨.w, 0, 0⟩ 30) tFlow).imp .w 0).pc = 30 := by decide
theorem test_ctrlStep : ((after (.ctrlStep ⟨.w, 0, 0⟩ true 2) tFlow).imp .w 0).step = 2 := by decide
theorem test_signal : (((after (.signal ⟨.w, 0, 0⟩ 5 false false 7) tFlow).w).sem 5).full = 7 := by decide
theorem test_signal_zero : ((after (.signal ⟨.w, 0, 0⟩ 5 true false 0) tFlow).side 5 .w).imp.trapCause = 7 := by decide
theorem test_halt : ((after (.halt ⟨.w, 0, 0⟩) tFlow).stream .w 0).map (·.halted) = some true := by decide
theorem test_trap : ((after (.ctrlTrap ⟨.w, 0, 0⟩ 0x1234) tFlow).side 5 .w).imp.trapCode = 0x1234 := by decide
/-- R149: counts saturate at 65,535. -/
theorem test_semaphore_saturates : (((tFlow.semAdd .w 5 true 65535).semAdd .w 5 true 1).w.sem 5).empty = 65535 := by decide

/-! ### Compositors (chapter 7) -/

/-- What a register of the thread holds after the instruction of a word (R164): r1 = 5, r2 = -3, r3 = 7 before. -/
def tReg (w : Nat) (i : Instr) (r : Reg) : W64 := match (after i (tWord w tComp)).thread tRef with | some x => x.reg r | none => 0xDEAD
theorem test_integer : tReg 0x02826000 (.add tRef 4 1 3) 4 = 12 ∧ tReg 0x04826000 (.sub tRef 4 1 3) 4 = 0xFFFFFFFFFFFFFFFE ∧ tReg 0x06846000 (.mul tRef 4 2 3) 4 = 0xFFFFFFFFFFFFFFEB ∧
    tReg 0x08862000 (.divu tRef 4 3 1) 4 = 1 ∧ tReg 0x08860000 (.divu tRef 4 3 0) 4 = 0xFFFFFFFFFFFFFFFF := by
  decide +kernel
theorem test_logic : tReg 0x0A826000 (.and tRef 4 1 3) 4 = 5 ∧ tReg 0x0C826000 (.or tRef 4 1 3) 4 = 7 ∧ tReg 0x0E826000 (.xor tRef 4 1 3) 4 = 2 := by
  decide +kernel
theorem test_shifts : tReg 0x10826000 (.shl tRef 4 1 3) 4 = 640 ∧ tReg 0x12842000 (.shr tRef 4 2 1) 4 = 0x07FFFFFFFFFFFFFF ∧ tReg 0x14842000 (.sar tRef 4 2 1) 4 = 0xFFFFFFFFFFFFFFFF := by
  decide +kernel
theorem test_compare : tReg 0x16842000 (.slt tRef 4 2 1) 4 = 1 ∧ tReg 0x18842000 (.sltu tRef 4 2 1) 4 = 0 := by
  decide +kernel
theorem test_immediates : tReg 0x1A821FFF (.addi tRef 4 1 0x1FFF) 4 = 4 ∧ tReg 0x1C801000 (.li tRef 4 0x1000) 4 = 0xFFFFFFFFFFFFF000 ∧
    tReg 0x1E821FFF (.lih tRef 4 1 0x1FFF) 4 = 0xBFFF ∧ tReg 0x1C000009 (.li tRef 0 9) 0 = 0 := by
  decide +kernel
/-- A thread whose r1 is 1.0, r2 is 2.0, r3 is -0.0. -/
def tFloat : Chip := tComp.setThread tRef (some { tThread with regs := [(1, 0x3F800000), (2, 0x40000000), (3, 0x80000000)] })
def tFreg (w : Nat) (i : Instr) (r : Reg) : W64 := match (after i (tWord w tFloat)).thread tRef with | some x => x.reg r | none => 0xDEAD
theorem test_float : tFreg 0x40824000 (.fadd tRef 4 1 2) 4 = 0x40400000 ∧ tFreg 0x42824000 (.fsub tRef 4 1 2) 4 = 0xBF800000 ∧ tFreg 0x44844000 (.fmul tRef 4 2 2) 4 = 0x40800000 ∧
    tFreg 0x46824000 (.fdiv tRef 4 1 2) 4 = 0x3F000000 ∧ tFreg 0x48824000 (.fmax tRef 4 1 2) 4 = 0x40000000 ∧ tFreg 0x4A824000 (.fmin tRef 4 1 2) 4 = 0x3F800000 := by
  decide +kernel
/-- R38: negative zero acts as +0, so 1 / -0 saturates to the largest positive number. -/
theorem test_negative_zero : tFreg 0x46826000 (.fdiv tRef 4 1 3) 4 = 0x7F7FFFFF ∧ tFreg 0x44826000 (.fmul tRef 4 1 3) 4 = 0 := by
  decide +kernel
theorem test_float_one : tFreg 0x52820000 (.frsq tRef 4 1) 4 = 0x3F800000 ∧ tFreg 0x54824000 (.fslt tRef 4 1 2) 4 = 1 ∧ tFreg 0x58840000 (.f2i tRef 4 2) 4 = 2 ∧
    tReg 0x56840000 (.i2f tRef 4 2) 4 = 0xC0400000 := by
  decide +kernel
theorem test_transcendental : tFreg 0x4E800000 (.fexp tRef 4 0) 4 = 0x3F800000 ∧ tFreg 0x50820000 (.flog tRef 4 1) 4 = 0 := by
  decide +kernel
theorem test_famax2 : tFreg 0x4C240000 (.famax2 tRef 1 2) 1 = 0x40000000 := by
  decide +kernel
theorem test_bf16 : tFreg 0x64840000 (.tobf tRef 4 2 0) 4 = 0x4000 ∧ tFreg 0x66800000 (.frombf tRef 4 0) 4 = 0 := by
  decide +kernel
/-- R166: CVT2 shifts d left and inserts two codes; both halves of r1 are converted under the scale 1.0 of r1. -/
theorem test_cvt2 : tFreg 0x60842002 (.cvt2 tRef 4 2 1 2 0) 4 = 2 ∧ tFreg 0x62802002 (.exp2 tRef 4 0 1 2) 4 = 0 := by
  decide +kernel
theorem test_branches :
    let pc (w : Nat) (i : Instr) : Nat := ((after i (tWord w tComp)).thread tRef).elim 99 (·.pc)
    pc 0xC0022003 (.beq tRef 1 1 3) = 3 ∧ pc 0xC0024003 (.beq tRef 1 2 3) = 1 ∧ pc 0xC2024002 (.bne tRef 1 2 2) = 2 ∧ pc 0xC4042003 (.blt tRef 2 1 3) = 3 ∧ pc 0xC6000002 (.jmp tRef 2) = 2 ∧ pc 0xC8060000 (.jr tRef 3) = 7 := by
  decide +kernel
theorem test_exit : (after (.exit tRef) (tWord 0xCA000000 tComp)).thread tRef = none := by
  decide +kernel
/-- An ST64 into region 5 of platen 0 lands there, low byte first (R5, R161); a misaligned one is a memory fault. -/
def tPlaten : Chip := (tComp.modPlaten .w 0 (fun x => { x with regions := List.replicate 5 {} ++ [{ base := 0, limit := 1 }] })).setThread tRef
  (some { tThread with regs := [(1, 0x1000000000000100), (2, 0x1122334455667788)] })
theorem test_store : mread (after (.st64 tRef 1 2 8) (tWord 0x82024008 tPlaten)).platenMem (platenKey .w 0 0x108) 2 = [0x88, 0x77] ∧
    (after (.st64 tRef 1 2 4) (tWord 0x82024004 tPlaten)).platenMem = [] := by
  decide +kernel
theorem test_load : ((after (.ld8 tRef 4 1 9) ((tWord 0x88820009 (after (.st64 tRef 1 2 8) (tWord 0x82024008 tPlaten))).modDie .w (fun m => { m with threads := tmap none (fun _ x => x.map (fun y => { y with pc := 0 })) m.threads }))).thread tRef).map (·.reg 4) = some 0x77 := by
  decide +kernel
/-- Table 7.1: index 2 is COUNT, index 3 the compositor; index 10 is an instruction fault. -/
theorem test_spr : tReg 0xA2800002 (.spr tRef 4 2) 4 = 0 ∧ tReg 0xA2800003 (.spr ⟨.w, 0, 0, 0⟩ 4 3) 4 = 0 ∧
    ((after (.spr tRef 4 10) (tWord 0xA280000A tComp)).side 5 .w).compFault.valid = true := by
  decide +kernel

/-! ### States and operands that meet the hypotheses of the statements -/

/-- A read that succeeds. -/
def okB {ε α : Type} (r : Chip × Except ε α) : Bool := match r.2 with | .ok _ => true | .error _ => false
/-- A read that fails. -/
def noB {ε α : Type} (r : Chip × Except ε α) : Bool := !okB r
/-- An attempt that succeeds. -/
def okE {ε α : Type} (r : Except ε α) : Bool := match r with | .ok _ => true | .error _ => false

/-- The context without its page. -/
def tBare : Chip := { Chip.reset with ctxs := [(5, { tCtx with pages := [] })] }

theorem witness_Taken : Taken tIdle tHdr true true ∧ Taken tRun tHdr true true ∧ Taken tBare tHdr true true := by unfold Taken; decide
theorem witness_EveryStepIsSafeAndKeepsTheQueue : PendingWf ⟨[.packetTake 1023, .packetTake 0], tIdle⟩ := by unfold PendingWf; decide
theorem witness_StoresReadBack : Memory.wf [(1, 2), (7, 9)] = true ∧ 255 < 256 ^ 1 := by decide
theorem witness_PacketDecodeOfEncode : (Instr.levelSet tHdr 1).wf = true ∧ packetCarried [] (.levelSet tHdr 1) ∧
    packetBytes (.levelSet tHdr 1) = some tLevelPacket := by refine ⟨by decide, trivial, by decide⟩
theorem witness_EncodedPacketPassesItsChecks : vaWordsOk (.levelSet tHdr 1) ∧ (tget {} tIdle.vfs 0 : Vf).level = 1 ∧
    (∀ r, opRow 0x02 false 1 = some r → Taken tIdle tHdr r.pf r.needCtx) := by
  refine ⟨trivial, by decide, ?_⟩
  intro r h; cases h; unfold Taken; decide
/-- Ring 0 of context 5 holds a NOP packet at its head. -/
def tWaiting : Chip :=
  { tIdle with
    boot := { tIdle.boot with phase := 6 }
    host := mwrite [] 0x1000 ((packetBytes (.nopCmd tHdr)).getD [])
    ctxs := [(5, { tCtx with rings := [(0, { tRing with tail := 1 })] })] }
theorem witness_TakeCarriesOutThePacket : (packetBytes (.nopCmd tHdr)).map (·.length) = some 32 ∧ (Instr.nopCmd tHdr).wf = true ∧
    tHdr = { tHdr with fn := tWaiting.fnOf 5, page := 5, ring := 0 } ∧
    some ((tWaiting.ring 5 0).packet tWaiting.host 1) = packetBytes (.nopCmd tHdr) ∧ 1 ≤ (tWaiting.ring 5 0).waiting ∧
    tWaiting.packetCheck tHdr ((tWaiting.ring 5 0).packet tWaiting.host 1) = none := by decide
theorem witness_StatusRecords : (tIdle.ring 5 0).enable = true ∧ (tIdle.ring 5 0).kept = [] ∧ (tIdle.ring 5 0).cplFull = false ∧
    (tIdle.ring 5 1).enable = false ∧ ({ tRing with cplTail := 63 } : Ring).cplFull = true := by decide
theorem witness_RightsCapabilityLevelAndNop : ({ tHdr with fn := 1 } : Hdr).fn ≠ 0 ∧ tIdle.boundCtx 1 ≠ some 5 ∧ (1 : Byte) < 2 := by decide
/-- Contexts 0 to m - 1 are in use. -/
def tFull : Nat → Chip
  | 0 => Chip.reset
  | m + 1 => (tFull m).modCtx m (fun _ => tCtx)
theorem tFull_wf (m : Nat) : Tab.wf ({} : Ctx) (tFull m).ctxs = true := by
  induction m with
  | zero => rfl
  | succ m ih => simp only [tFull, Chip.modCtx]; exact wf_tmod ih
theorem tFull_ctx (m n : Nat) (h : n < m) : (tFull m).ctx n = tCtx := by
  induction m with
  | zero => omega
  | succ m ih =>
    simp only [tFull, Chip.modCtx, Chip.ctx]
    by_cases e : n = m
    · subst e; exact tget_tmod_same (tFull_wf n)
    · exact (tget_tmod_ne e).trans (ih (by omega))
theorem witness_ContextCommands_none_free (n : Nat) (h : n < 1024) : ((tFull 1024).ctx n).st ≠ .free := by
  rw [tFull_ctx _ _ h]; decide
theorem witness_ContextCommands : (tIdle.ctx 0).st = .free ∧ (∀ k, k < 0 → (tIdle.ctx k).st ≠ .free) ∧ (tCreate.seedLo ≠ 0 ∨ tCreate.seedHi ≠ 0) ∧
    (tIdle.ctx 5).st = .idle ∧ (tRun.ctx 5).st ≠ .idle ∧ Tab.wf ({} : Vf) tIdle.vfs = true := by decide
theorem witness_MapAndUnmap : (tBare.ctx 5).run = none ∧ tAttr.place.toNat ≤ 8 ∧ (tAttr.pair = true ∨ tAttr.pset = 0) ∧
    rangeOk 0x800000 1 = true ∧ (∀ vp ∈ pageRange 0x800000 1, tget none (tBare.ctx 5).pages vp = none) ∧
    okE (tBare.tryMap 5 0x800000 1 tAttr) = true ∧ rangeOk 0x400000 1 = true ∧
    (∀ vp ∈ pageRange 0x400000 1, tget none (tIdle.ctx 5).pages vp ≠ none) ∧ rangeOk 1 1 = false := by decide
/-- Model 3 is resident, owned by context 5 under the key of its page; stream 0 of it decodes for context 5. -/
def tModel (st : StreamSt) : Chip :=
  { tIdle with serving := { tIdle.serving with
      models := [(0, { model := 3, st := 2, key := 1, owner := 5, hdr := { sclasses := 1, decMaxArea := 4096, serveW := 0 },
                       image := some { w := some {} } })]
      streams := [(0, { model := 3, ctx := 5, st := st })] } }
theorem witness_ModelPinEvictGrant : (tModel .parked).modelSlot 3 = some 0 ∧ ((tModel .parked).model 0).pin = false ∧
    (tModel .parked).modelActive 3 = false ∧ (tModel .decode).modelActive 3 = true ∧
    (∀ x ∈ (tModel .parked).modelPages ((tModel .parked).model 0), 4 + (x.1 - 2) < 2 ^ 27 ∧ tget none ((tModel .parked).ctx 5).pages (4 + (x.1 - 2)) = none) := by
  decide
/-- An imposition image of one data section of one byte at VA 0x400000 (Tables 14.13 and 14.14). -/
def tImage : List Byte :=
  [0x11, 0x01, 0, 0, 1, 0, 0, 0, 1, 1, 0, 0, 0, 0, 0, 0, 0xD3, 0x6C, 0x11, 0x26, 0, 0, 0, 0, 0, 0, 0x40, 0, 0, 0, 0, 0] ++ List.replicate 96 0 ++
  [8, 0, 2, 0, 0, 0, 0, 0, 0, 1, 0, 0, 0, 0, 0, 0, 1, 0, 0, 0, 0, 0, 0, 0, 0, 0, 0x40, 0, 0, 0, 0, 0] ++ List.replicate 96 0 ++ [0x2A]
def tLoad : ImpLoadP := { handle := 0, ha := 0, bytes := 257, va := 0x400000 }
set_option maxRecDepth 20000 in
theorem witness_BulkCommands : impCheck tImage 257 = none ∧ imgNum tImage 24 8 = 0x400000 ∧ tIdle.impTables 5 tImage = none ∧
    tIdle.homed 5 (sectionsOf tImage) = true ∧ tIdle.isHead tHdr = false := by decide +kernel
theorem witness_BulkCommands_imp_load : ((tIdle.copySections 5 tImage (sectionsOf tImage)).modCtx 5
    (fun x => { x with handles := tput none x.handles 0 (some (tIdle.imageOf 5 tImage)) })).isHead tHdr = false := by decide +kernel
theorem witness_BulkCommands_checkpoint : (tIdle.checkpointImage 5).length ≤ 2 ^ 20 := by
  obtain ⟨z, hz, h⟩ : ∃ z, (tIdle.imageHeader 5 1 true [] 0 0).length = z ∧ z ≤ 4096 := ⟨_, rfl, by decide +kernel⟩
  have k : (ocfgBytes default).length = 64 := by decide
  have e : tIdle.checkpointImage 5 = tIdle.imageHeader 5 1 true [] 0 0 ++ (tIdle.ctx 5).stateBlock ++ [] := rfl
  have f : (tIdle.ctx 5).stateBlock = leBytes 16 0 ++ leBytes 4 ({} : TrainRegs).interval.toNat ++ List.replicate 12 0 ++
    (List.range 256).flatMap (fun _ => ocfgBytes default) := rfl
  have g : ∀ l : List Nat, (l.flatMap (fun _ => ocfgBytes default)).length = 64 * l.length := by
    intro l; induction l with
    | nil => rfl
    | cons a l ih => rw [List.flatMap_cons, List.length_append, ih, k, List.length_cons]; omega
  have p : (leBytes 16 0).length = 16 ∧ (leBytes 4 ({} : TrainRegs).interval.toNat).length = 4 := by decide
  rw [e, f]
  simp only [List.length_append, g, List.length_range, List.length_replicate, List.length_nil, p.1, p.2, hz]
  omega
theorem witness_BulkCommands_rest : (tIdle.modelLoadRun 5 default []).1.isHead tHdr = false ∧ (tIdle.ckptLoadRun 5 0 []).1.isHead tHdr = false ∧
    (tIdle.reprintRun 5 0x400000).1.isHead tHdr = false := by decide +kernel
/-- A model image with one data section of one byte at VA 0x400000 and, when asked for, the imposition image as its serving image. -/
def tModelImage (serve : Bool) : List Byte :=
  let entry (type : Byte) (off size va : Nat) : List Byte := [type, 0, 2, 0, 0, 0, 0, 0] ++ leBytes 8 off ++ leBytes 8 size ++ leBytes 8 va
  let body := if serve then entry 8 256 1 0x400000 ++ entry 0x13 512 257 0 ++ List.replicate 64 0 ++ [0x2A] ++ List.replicate 255 0 ++ tImage
    else entry 8 256 1 0x400000 ++ List.replicate 96 0 ++ [0x2A]
  [0x11, 2, 0, 0, if serve then 2 else 1, 0, 0, 0] ++ leBytes 8 (128 + body.length) ++ leBytes 4 (crc32 body).toNat ++ List.replicate 12 0 ++
    [1, 0, 0, 0, 1, 0, 1, 0, 1, 1, 0, 0, 1, 0, 0, 0] ++ List.replicate 16 0 ++ [1, 0, 0, 0] ++ List.replicate 60 0 ++ body
def tModelP : ModelLoadP := { (default : ModelLoadP) with model := 9 }
set_option maxRecDepth 20000 in
theorem witness_BulkCommands_model (serve : Bool) : tBare.modelCheck 5 (tModelImage serve) (if serve then 769 else 257) = none ∧
    tBare.modelSlot 9 = none ∧ (tBare.model 0).st = 0 ∧ (servingImage (tModelImage serve)).isSome = serve ∧
    (∀ s ∈ sectionsOf (tModelImage serve), s.placed = true → s.isPaired = false → ∀ vp ∈ s.vps, tget none (tBare.ctx 5).pages vp = none) := by
  cases serve <;> decide +kernel
set_option maxRecDepth 20000 in
theorem witness_BulkCommands_placed (serve : Bool) : (match Chip.placeModel 5 tModelP (tModelImage serve) 0 tBare with
    | none => false
    | some c => !serve || (match c.serveImage 5 0 (tModelImage serve) with | some (.ok _) => true | _ => false)) = true := by
  cases serve <;> decide +kernel
theorem witness_BulkCommands_refused : tIdle.modelCheck 5 [] 0 = some 0 ∧ (tModel .parked).modelSlot 3 = some 0 ∧ impCheck [] 0 = some 0 ∧
    imgNum tImage 24 8 ≠ (0x600000 : W64).toNat ∧ tBare.impTables 5 tImage = none ∧ tBare.homed 5 (sectionsOf tImage) = false := by decide +kernel
/-- A command that waits for its data is the head of its queue. -/
theorem witness_BulkCommands_head : tRun.isHead tHdr = true := by decide
set_option maxRecDepth 20000 in
/-- A checkpoint image without PSETs. -/
theorem witness_BulkCommands_ckpt : let img : List Byte := leBytes 4 0x511 ++ List.replicate 16476 0
    img.length = 16480 ∧ leNat ((img.drop 0).take 4) % 2 ^ 11 = 0x511 ∧ ckptRecords (tIdle.ctx 5).psetOf 0 (img.drop 16480) = some [] ∧
    ckptRecords (tIdle.ctx 5).psetOf 1 [] ≠ some [] := by
  refine ⟨?_, by decide +kernel, by decide +kernel, by decide⟩
  rw [List.length_append, List.length_replicate]; decide
theorem witness_BulkCommands_reprint : (tIdle.fetchVa 5 0x400000 12288).isSome = true ∧ tIdle.fetchVa 5 0x800000 12288 = none := by decide +kernel
theorem witness_StepAndServeCommandsJoinTheQueue : (tIdle.ctx 5).execQ.length < 64 ∧
    (∀ k ∈ (tModel .decode).modelsOf 5, 0 + 1 + 0 ≤ ((tModel .decode).model k).hdr.decMaxArea) := by decide
theorem witness_CommitAbortAndTrainingSettings : (tIdle.ctx 5).acked.contains 9 = false ∧ (tIdle.ctx 5).doneSteps.contains 9 = false ∧
    (tIdle.ctx 5).run = none ∧ ({ tCtx with doneSteps := [9] } : Ctx).doneSteps.contains 9 = true ∧
    ((after (.commitCmd tHdr 9) tIdle).ctx 5).acked.contains 9 = true ∧ (32 : BitVec 6).toNat ≤ 32 ∧ 100 ≤ (100 : W16).toNat ∧
    (16 : W48).toNat % 16 = 0 ∧ (default : Ocfg).rule.toNat < 4 := by decide
/-- Context 5 has output ring 2 of KIND 1, a PSET of one parameter, a receiver for module 7 and a shipment of a byte. -/
def tProof (peer : Bool) : Chip :=
  { tIdle with ctxs := [(5, { tCtx with
      orings := [(2, { set := true, kind := true, log2 := 8, ha := 0x4000, wb := 0x5000 })]
      proof := { ship := some { image := [1], p := { (default : ProofArmP) with destPeer := peer, addr := 0x6000, evRing := 2 } }
                 recv := [{ (default : ProofRecvP) with source := 7, evRing := 2, bytes := 4, addr := 0x7000 }] } })] }
theorem witness_ProofCommandsAndShipments : ((tProof false).ctx 5).proof.ship.isSome = true ∧ ((tProof true).ctx 5).proof.ship.isSome = true ∧
    (∀ r ∈ ((tProof false).ctx 5).proof.recv, r.source ≠ 8) ∧
    (((tProof false).ctx 5).proof.recv.find? (fun r => decide (r.source = 7))).map (·.bytes) = some 4 ∧
    (((tProof false).ctx 5).oring 2).set = true ∧ (((tProof false).ctx 5).oring 2).kind = true := by decide
theorem witness_ProofCommandsAndShipments_capture : okE (match tIdle.psetList 5 0x400000 0 with | some l => Except.ok l | none => .error ()) = true ∧
    ((tIdle.ctx 5).plainRange true 0x400000 0x4000) = true ∧ (capRegions 1 []).total ≤ 0x4000 ∧
    tIdle.psetList 5 0x400000 1 = some [0] := by decide +kernel
theorem witness_StreamCommands : (tModel .decode).modelSlot 3 = some 0 ∧ ((tModel .decode).model 0).serves = true ∧
    0 < ((tModel .decode).model 0).hdr.sclasses ∧ ((tModel .decode).entry 1).st = .free ∧ (∀ j, j < 1 → ((tModel .decode).entry j).st ≠ .free) ∧
    ((tModel .decode).ctx 5).plainRange false 0x400000 4096 = true ∧ stopsetBad (List.replicate 192 0) = none ∧
    ((tModel .decode).entry 0).ctx.toNat = 5 ∧ ((tModel .decode).entry 9).st = .free := by decide +kernel
/-- Streams 0 to m - 1 are in use. -/
def tStreams : Nat → Chip
  | 0 => tIdle
  | m + 1 => (tStreams m).modEntry m (fun _ => { st := .parked })
theorem tStreams_wf (m : Nat) : Tab.wf ({} : StreamEntry) (tStreams m).serving.streams = true := by
  induction m with
  | zero => rfl
  | succ m ih => simp only [tStreams, Chip.modEntry, Chip.modServing]; exact wf_tmod ih
theorem tStreams_entry (m n : Nat) (h : n < m) : (tStreams m).entry n = { st := .parked } := by
  induction m with
  | zero => omega
  | succ m ih =>
    simp only [tStreams, Chip.modEntry, Chip.modServing, Chip.entry]
    by_cases e : n = m
    · subst e; exact tget_tmod_same (tStreams_wf n)
    · exact (tget_tmod_ne e).trans (ih (by omega))
theorem witness_StreamCommands_none_free (n : Nat) (h : n < 65536) : ((tStreams 65536).entry n).st ≠ .free := by
  rw [tStreams_entry _ _ h]; decide
/-- PART_SET of partition 1 with no resources, one slice of 1 ms and kill limit 1. -/
def tPart : PartSetP := { (default : PartSetP) with part := 1, sliceMs := 1, killLimit := 1 }
theorem witness_PartitionSetAndLocks : partRange tPart = none ∧ Tab.wf ({} : Partition) tBare.parts = true ∧ tBare.partConflict tPart = false ∧
    (tBare.part 1).waitSet = none ∧ tBare.partBusy 1 = false ∧ tBare.boot.ovlWait = [] ∧ tBare.partConflict { tPart with ptW := 1 } = true ∧
    Tab.wf ({} : Lock) tBare.locks = true ∧ (tget {} tBare.locks 255 : Lock).held = false ∧ (tget {} tBare.locks 255 : Lock).waiters = [] ∧
    (tget {} (after (.lockAcquire tHdr 9) tIdle).locks 9 : Lock).held = true ∧ (tget {} (after (.lockAcquire tHdr 9) tIdle).locks 9 : Lock).owner = 5 := by
  decide +kernel
theorem witness_ModuleCommands : domainBad { (default : DomainP) with src := 2 } = none ∧
    overlayOk 0 ([0x11, 0, 0, 0] ++ List.replicate 12 0) = true ∧ tIdle.busy = false ∧ tIdle.boot.ovlWait = [] ∧
    overlayOk 0 [] = false ∧ (5 : BitVec 5).toNat ≤ 5 ∧ 600 ≤ (600 : W16).toNat ∧ (1500 : W16).toNat ≤ 1500 := by decide +kernel
/-- The debug key is 1, and a challenge is live. -/
def tUnlock : Chip := { tIdle with boot := { tIdle.boot with colW := [{ dbgKey := 1 }] }, port := { tIdle.port with challenge := [0] } }
theorem witness_ModuleCommands_unlock : tUnlock.challenge.2 = true ∧ tUnlock.unlockShut = false ∧ tUnlock.challengeLive = true ∧
    (tUnlock.respond []).2 = false := by decide +kernel
theorem witness_ModuleCommands_unlocks : (tUnlock.respond (hmac (leBytes 32 1) [0])).2 = true := by decide +kernel
theorem witness_RingRegisters : tIdle.pageOf 0 5 = some 5 ∧ tIdle.pageOf 1 5 = none ∧ Tab.wf ({} : Ctx) tIdle.ctxs = true ∧
    Tab.wf ({} : Ring) (tIdle.ctx 5).rings = true ∧ (63 : W32).toNat < (tIdle.ring 5 0).slots ∧ (tIdle.ring 5 0).slots ≤ (64 : W32).toNat ∧
    (tIdle.ring 5 0).stopped = false ∧ bit 1 0 = true ∧ (tIdle.ring 5 7).enable = false := by decide
theorem witness_CommandsAreTakenAndRun : tWaiting.taking = true ∧ tWaiting.ringReady 5 0 = true ∧ ((tWaiting.ctx 5).ringLast + 1) % 8 = 0 ∧
    (tWaiting.ring 5 0).fenceOn = none ∧ tWaiting.fenced 5 0 = false := by decide +kernel
theorem witness_CommandsAreTakenAndRun_fence :
    let c := tWaiting.modRing 5 0 (fun g => { g with fenceOn := some [] })
    (c.ring 5 0).fenceOn = some [] ∧ c.ringReady 5 0 = true ∧ tRun.outstanding 5 = [tHdr] := by decide +kernel
/-- Context 5 holds partition 0 and its first command waits to start; then that command has run and its stream is gone. -/
def tStart : Chip := { tRun with boot := { tRun.boot with phase := 6 }, ctxs := tRun.ctxs.map (fun x => (x.1, { x.2 with run := none })) }
theorem witness_CommandsAreTakenAndRun_start : tStart.canStart 5 = true ∧ tRun.ended 5 = some { status := 0 } ∧ (tRun.ctx 5).execQ.length = 1 := by
  decide +kernel

/-- Partition 0 has no semaphore pairs and no tags. -/
def tPoor : Chip := { tFlow with parts := [(0, { Partition.whole with cur := some 5, semCnt := 0, tagCnt := 0 })] }
theorem witness_StreamIssues : StreamIssues tFlow .w 0 tStream ∧ StreamIssues tPoor .w 0 tStream := by unfold StreamIssues; decide
theorem witness_ControlSlots : tFlow.semOk 0 4095 = true ∧ tPoor.semOk 0 0 = false ∧ tFlow.commitIssued (tFlow.ctxOf .w 0) .w = false ∧
    tPoor.tagOk 0 0 = false ∧ tFlow.tagOk 0 4095 = true := by decide
theorem witness_ControlSlots_second_commit :
    let c := tFlow.modRun 5 (fun r => { r with isStep := true, issuedW := true })
    c.commitIssued (c.ctxOf .w 0) .w = true := by decide
theorem witness_WidenBranch : ({ decClip := 1, decConv := 1 } : WidenEntry).takes = true ∧ ({} : WidenEntry).takes = false ∧
    okE (tFlow.skipRegion 5 tStream.image 1 3) = true := by decide +kernel
theorem witness_BeatsAndStreamEvents : tFlow.pressOn = true ∧ tFlow.w.dbg.halted = false ∧ tFlow.w.dbg.halt = false ∧ ({ halted := true, stepsLeft := 1 } : Dbg).halted = true ∧
    ({ tFlow with boot := { tFlow.boot with phase := 9 } } : Chip).pressOn = false ∧ tStream.stopped = false ∧ 0 * 4096 < tStream.image.sheetSize ∧
    okB (tFlow.readVa 5 0x400000 64) = true ∧ noB (tFlow.readVa 5 0x600000 64) = true ∧ ({ tStream with halted := true } : Stream).allIdle = true ∧
    (0 : W64) < ({ tFlow with w := { tFlow.w with ridge := 1 } } : Chip).ridgeOf .w ∧ tFlow.op { die := .w, part := 0, pos := 0 } = none := by decide +kernel
theorem witness_OpCompletions : ((tOpAt 0 0 0 []).op ⟨.w, 0, 0⟩).map (fun o => (o.e.opc, o.recorded)) = some (0, false) ∧
    ((tOpAt 64 1 0 []).op ⟨.w, 0, 64⟩).map (fun o => (o.worked, o.completed)) = some (false, false) ∧
    (((tOpAt 64 1 0 []).modOp ⟨.w, 0, 64⟩ (fun o => { o with worked := true })).op ⟨.w, 0, 64⟩).map (·.worked) = some true ∧
    (((tOpAt 64 1 0 []).modOp ⟨.w, 0, 64⟩ (fun o => { o with completed := true })).op ⟨.w, 0, 64⟩).map (fun o => (o.completed, o.recorded)) =
      some (true, false) ∧
    ((tOpAt 0 2 0 []).op ⟨.w, 0, 0⟩).map (fun o => (o.fin, decide (o.e.i < o.e.rep))) = some (none, false) ∧
    (after (.signal ⟨.w, 0, 0⟩ 5 false true 7) tFlow).e.cross.length = 1 := by decide
/-- The op is at the first of two executions. -/
theorem witness_OpCompletions_again : (((tOpAt 0 2 0 []).modOp ⟨.w, 0, 0⟩ (fun o => { o with e := { o.e with i := 0 } })).op ⟨.w, 0, 0⟩).map
    (fun o => (o.fin, decide (o.e.i < o.e.rep))) = some (none, true) := by decide
theorem witness_SemaphoreAddAndTake : Tab.wf ({} : Sem) tFlow.w.sems = true ∧ (tFlow.semAdd .w 4095 true 65535).semHas .w 4095 true 65535 = true ∧
    tFlow.semHas .w 0 false 1 = false := by decide
/-- Platen 0 of Die W runs an RBCLR whose list names 16 elements of its reduction buffer. -/
def tClear : List W64 := [0x4088000000000000, 0, 0x0000000100000010, 16, 0, 0, 0, 0]
def tListed (addr : W64) : Chip :=
  let c := (tOpAt 0 2 0 []).modOp ⟨.w, 0, 0⟩ (fun o => { o with descs := none })
  let c := c.modStream .w 0 (fun s => { s with image := { s.image with dlists := [(0, (1 <<< 48) ||| addr)] } })
  (c.writeVa 5 0x400000 (tClear.flatMap (fun w => leBytes 8 w.toNat))).1
theorem witness_ListsAndLinks :
    (match ((tListed 0x400000).fetchList ⟨.w, 0, 0⟩ { slot := BitVec.ofNat 128 (2 * 2 ^ 124) }).2 with | .ok _ _ _ _ => true | _ => false) = true ∧
    (match ((tListed 0x400040).fetchList ⟨.w, 0, 0⟩ { slot := BitVec.ofNat 128 (2 * 2 ^ 124) }).2 with | .trap _ => true | _ => false) = true ∧
    (match ((tListed 0x400001).fetchList ⟨.w, 0, 0⟩ { slot := BitVec.ofNat 128 (2 * 2 ^ 124) }).2 with | .fault _ _ => true | _ => false) = true ∧
    ((tListed 0x400000).op ⟨.w, 0, 0⟩).map (fun o => (o.e.noList 0, o.descs)) = some (false, none) := by decide +kernel
/-- A descriptor with a link of one on pair 5. -/
def tLinked : List W64 := [0x0088000000400000, 0, 0x0000000100000010, 0x0000600500000010, 0, 0, 0, 0]
theorem witness_ListsAndLinks_link : (descOf tLinked).lvalid = true ∧ (descOf tLinked).lcount = 1 ∧ (descOf tLinked).lpair = 5 ∧
    ((tOpAt 112 1 (1 <<< 35) [tLinked]).op ⟨.w, 0, 112⟩).map (fun o => (o.links, o.worked, updDefer o.e.slot.toNat)) = some ([], false, true) ∧
    (tFlow.semAdd .w 5 false 1).semHas .w (tFlow.pair 0 5) false 1 = true ∧ tFlow.semHas .w (tFlow.pair 0 5) false 1 = false := by decide
/-- A tile of one row, one column and K 8: header, activations and weights in I8, all in the context's page. -/
def tTile (va : W64) : List (List W64) :=
  [[0, 0x0000000100000008, 1, 0, 0, 0, 0, 0], [0x0041000000000000 ||| va, 0, 0x0000000100000008, 8, 0, 0, 0, 0],
   [0x0042000000000000 ||| va, 0, 0x0000000100000008, 8, 0, 0, 0, 0], [0x0083000000000000 ||| va, 0, 0x0000000100000001, 1, 0, 0, 0, 0]]
theorem witness_TileWork : OpReady (tOpAt 0 1 0 (tTile 0x400000)) ⟨.w, 0, 0⟩ (((tOpAt 0 1 0 (tTile 0x400000)).op ⟨.w, 0, 0⟩).get!) 1 ∧
    OpReady (tOpAt 64 1 0 (tTile 0x400000)) ⟨.w, 0, 64⟩ (((tOpAt 64 1 0 (tTile 0x400000)).op ⟨.w, 0, 64⟩).get!) 1 := by unfold OpReady; decide +kernel
theorem witness_TileWork_reads :
    okB ((tOpAt 0 1 0 (tTile 0x400000)).readTile ⟨.w, 0, 0⟩ (Entry.tileSlot { slot := 0 } 0) (viewList (tTile 0x400000) [])) = true ∧
    noB ((tOpAt 0 1 0 (tTile 0x600000)).readTile ⟨.w, 0, 0⟩ (Entry.tileSlot { slot := 0 } 0) (viewList (tTile 0x600000) [])) = true ∧
    (Entry.tileSlot { slot := 0 } 0).loss = false ∧ (Entry.tileSlot { slot := 0 } 0).vocab = false ∧ (Entry.tileSlot { slot := 0 } 0).route = false ∧
    (∀ g, findRole (viewList (tTile 0x400000) []) 3 = some g → g.sstat = false) := by
  refine ⟨by decide +kernel, by decide +kernel, by decide, by decide, by decide, ?_⟩
  intro g h; cases h; decide
/-- A static scale, a parameter block, and a logits ring and a Gutter that make a tile wait (R77, R107, R199). -/
theorem witness_TileWork_waits : ringAdmits [{ slot := 0, readable := true }] 0 0 0 = false ∧
    (match ({ ranges := [(0, some { first := 0, count := 1, k := 1, stks := 1 })] } : Gutter).readRows 0 0 [0] [] with | .error .wait => true | _ => false) = true ∧
    okB (tFlow.readSpace ⟨.w, 0, 0⟩ 9 0 0x400000 64) = true ∧
    okB (tFlow.readRuns ⟨.w, 0, 0⟩ 3 0 false (({ descOf ((tTile 0x400000).getD 3 []) with scl := 1, sstat := true, saddr := 0x400000 } : Desc).scaleRuns) []) = true := by
  decide +kernel
theorem witness_TileWork_rbclr : OpReady (tOpAt 0 2 0 [tClear]) ⟨.w, 0, 0⟩ (((tOpAt 0 2 0 [tClear]).op ⟨.w, 0, 0⟩).get!) 2 := by unfold OpReady; decide
theorem witness_SelectAndStackSelection :
    OpReady (tOpAt 96 1 0 [[0x0049000000400000, 0, 0x0000000100000040, 0, 0, 0, 0, 0], [0, 0, 0, 0, 0, 0, 0, 0]]) ⟨.w, 0, 96⟩
      (((tOpAt 96 1 0 [[0x0049000000400000, 0, 0x0000000100000040, 0, 0, 0, 0, 0], [0, 0, 0, 0, 0, 0, 0, 0]]).op ⟨.w, 0, 96⟩).get!) 1 ∧
    okB (tFlow.readSpace ⟨.w, 0, 96⟩ 9 0 0x400000 64) = true ∧ nextEntry 1 [{ unit := 1, readable := true }] = some { unit := 1, readable := true } ∧
    nextEntry 0 [{ route := true, readable := true }] = some { route := true, readable := true } := by unfold OpReady; decide +kernel
theorem witness_SelectAndStackSelection_rows :
    okB (tFlow.selRows ⟨.w, 0, 96⟩ (({ e := { slot := 0 } } : Op)) (selParams []) (descOf []) (descOf []) none 0 (List.range 0) {} 0) = true := by
  decide +kernel
/-- A range of one token and one contributing stack, whose record arrives. -/
def tGutter : Gutter := { ranges := [(0, some { first := 7, count := 1, k := 1, stks := 1 })], lanes := [(0, [{ token := 7, count := 1 }])] }
theorem witness_GutterOps : OpReady (tOpAt 116 1 0 [tClear]) ⟨.w, 0, 116⟩ (((tOpAt 116 1 0 [tClear]).op ⟨.w, 0, 116⟩).get!) 1 ∧
    tget none (tOpAt 116 1 0 [tClear]).w.gut.ranges 0 = none ∧ okB (tFlow.readSpace ⟨.w, 0, 116⟩ 9 0 0x400000 64) = true ∧
    (laneHeads (tget [] tGutter.lanes 0)).find? (tGutter.accepts 0) = some { token := 7, count := 1 } ∧
    tget none tGutter.ranges 0 = some { first := 7, count := 1, k := 1, stks := 1 } ∧ 0xFFFFFFFF + 1 ≤ 2 ^ 32 ∧
    Tab.wf (none : Option Packet) tGutter.packets = true := by unfold OpReady; decide +kernel
/-- An update unit of a step. -/
def tUpd (f : Run → Run) : Chip := ((tOpAt 112 1 0 [[0x0049000000400000, 0, 0x0000000100000040, 0, 0, 0, 0, 0]]).modRun 5 f)
theorem witness_UpdateOp : OpReady (tUpd id) ⟨.w, 0, 112⟩ (((tUpd id).op ⟨.w, 0, 112⟩).get!) 1 ∧
    okB ((tUpd id).readSpace ⟨.w, 0, 112⟩ 9 0 0x400000 64) = true ∧ ((tUpd id).ctx 5).run.isSome = true ∧ ((tUpd id).ctx 5).pinned 0 = false ∧
    ((tUpd (fun r => { r with isStep := true, updated := [0] })).ctx 5).run.map (·.updated) = some [0] ∧
    (({ tCtx with proof := { ship := some { psets := [0] } } } : Ctx).pinned 0) = true ∧ (tIdle.ctx 5).run = none := by unfold OpReady; decide +kernel
theorem witness_SumsHaveOneOrder : (∀ k, k ≤ 2 → -(2 ^ 31 : Int) ≤ ((([3, -2] : List Int).take k).zip [1, 1]).foldl (fun t y => t + y.1 * y.2) 0 ∧
    ((([3, -2] : List Int).take k).zip [1, 1]).foldl (fun t y => t + y.1 * y.2) 0 < 2 ^ 31) ∧
    (({ p := 1, l0 := 1, l1 := 1, l2 := 1 } : Group).p = 1) ∧
    ([(default : Peer), { (default : Peer) with index := 1 }].map (·.index)).Nodup := by decide
/-- A REDUCE whose group has one participant, and a peer that differs in its epoch. -/
def tCol (opc : Nat) : Chip := tOpAt 117 opc 0 (List.replicate 4 [0x0049000000400000, 0, 0x0000000100000040, 0, 0, 0, 0, 0])
theorem witness_Collectives : (∀ opc ∈ [1, 2, 3, 4, 5, 6, 7], ((tCol opc).op ⟨.w, 0, 117⟩).map (fun o => (o.ready, o.e.opc)) = some (true, opc)) ∧
    okB ((tCol 1).readSpace ⟨.w, 0, 117⟩ 9 0 0x400000 64) = true ∧
    (needed 1 1 0 0).all (fun _ => false) = true ∧ (needed 1 2 0 0).all (fun _ => false) = false ∧
    (tCol 1).mismatch {} 1 [] { (default : Peer) with epoch := 1 } = true ∧
    (tCol 1).mismatch {} 1 [] { (default : Peer) with fingerprint := ({} : Group).fingerprint, opcode := 1 } = false := by decide +kernel
theorem witness_Collectives_waits : (((tCol 4).modOp ⟨.w, 0, 117⟩ (fun o => { o with round := 1, waiting := true })).op ⟨.w, 0, 117⟩).map
      (fun o => (o.e.opc, o.round, o.waiting, o.worked)) = some (4, 1, true, false) ∧
    ((tCol 1).op ⟨.w, 0, 117⟩).map (fun o => (o.startNs.toNat + 50 * 1000000, o.completed)) = some (50000000, false) ∧
    50000000 ≤ (({ tCol 1 with w := { (tCol 1).w with ridge := 50000000 } } : Chip).ridgeOf .w).toNat := by decide

theorem witness_ThreadResultFrame : Tab.wf (0 : W64) tThread.regs = true := by decide
theorem witness_ThreadIssues : ThreadIssues tComp tRef tThread ∧ ThreadIssues tPlaten tRef ((tPlaten.thread tRef).get!) := by
  unfold ThreadIssues; decide
theorem witness_FloatInstructions : (f32 0x7FC00000).1 = .nan ∧ (f32 0x5F000000).1 = .fin ⟨2 ^ 23, 40⟩ ∧ (2 : Int) ^ 63 ≤ 2 ^ 23 * (2 ^ 40 : Nat) := by decide
theorem witness_ConversionInstructions : (8 : BitVec 4).toNat ≤ 8 ∧ 8 < (9 : BitVec 4).toNat ∧ tThread.gen = none := by decide
theorem witness_LoadsAndAtomics : tPlaten.place tRef {} 0x1000000000000100 8 true = some (.platen 0 0x100) ∧
    okB (tPlaten.placeRead 5 .w 8 (.platen 0 0x100)) = true ∧ (tPlaten.placeWrite 5 .w (leBytes 8 1) (.platen 0 0x100)).2 = none ∧
    tPlaten.place tRef {} 0x1000000000000101 8 false = none ∧ tPlaten.place tRef {} 0x4000000000000000 8 false = none := by decide +kernel
theorem witness_Stores : StoresWf tPlaten ∧ tPlaten.place tRef {} 0x2000000000000000 8 true = some (.shared 0 0) ∧
    tPlaten.place tRef {} 0x1000000000001000 1 true = none := by unfold StoresWf; decide +kernel
theorem witness_SpecialInstructions : tComp.argWord tRef tThread 0 0 = none ∧ tThread.spr tRef 0 9 = some 0 ∧ tThread.spr tRef 0 10 = none ∧
    tFlow.semOk 0 5 = true ∧ tPoor.semOk 0 5 = false ∧ tFlow.semHas .w 5 false 0 = true ∧ tFlow.semHas .w 5 false 7 = false ∧
    ({ tThread with gen := some (1, 2) } : Thread).gen = some (1, 2) ∧ (tThread.reg 1).toNat < 2 ^ 16 := by decide
theorem witness_SpecialInstructions_arg :
    ((tOpAt 118 1 0 [tClear]).setThread tRef (some tThread)).argWord tRef tThread 0 7 = some 0 := by decide
theorem witness_ControlInstructions : 0 ≤ (tThread.pc : Int) + (4095 : BitVec 13).toInt ∧ tget [] tComp.w.spawns 0 = [] ∧
    tget [] ({ tComp with w := { tComp.w with spawns := [(0, [tThread])] } } : Chip).w.spawns 0 = [tThread] := by decide
theorem witness_ThreadsAndSpawns : tComp.thread tRef = some tThread ∧ ({ tThread with wait := .memory } : Thread).wait = .memory ∧ tThread.pc < tThread.progLen ∧
    tComp.wordAt tRef tThread = 0 ∧ wordOk 0 = false ∧
    ({ cbp := [(63, 0x8000000000000001)] } : Dbg).cbp.length = 1 ∧
    ({ tComp.w with dbg := { tComp.w.dbg with cbp := [(63, 0x8000000000000001)] } } : DieSt).breakpoint tThread = some 63 := by decide +kernel
/-- A word the table lists. -/
theorem witness_ThreadsAndSpawns_word : ∃ w, wordOk w = true := ⟨0x02000000, by decide⟩
/-- SPAWN of program 0 with one thread, and of the built-in program 0xF000. -/
theorem witness_ThreadsAndSpawns_spawn : OpReady (tOpAt 118 1 (1 <<< 28) [tClear]) ⟨.w, 0, 118⟩ (((tOpAt 118 1 (1 <<< 28) [tClear]).op ⟨.w, 0, 118⟩).get!) 1 ∧
    romProg (spProg (1 <<< 28)) = false ∧ spBind (1 <<< 28) ≠ 2 ∧ romProg (spProg (0xF000 <<< 48)) = true ∧ spBind (2 <<< 26) = 2 ∧
    okB (tFlow.readTensor ⟨.w, 0, 118⟩ (descOf ((tTile 0x400000).getD 1 []))) = true := by unfold OpReady; decide +kernel
theorem witness_WeightCache : (2 ^ 31 - 1) / 2 ^ 28 < 8 ∧
    ({ tFlow.w with fills := [(9, 1)] } : DieSt).fills.find? (fun f => decide (f.1 = 9)) = some (9, 1) ∧
    Tab.wf ([] : List CacheLine) tFlow.w.cache = true ∧ (tget 0 ({ presence := [(9, 1)] } : StackSt).presence 9 : BitVec 2) ≠ 0 := by decide
theorem witness_TrapsAndFaultsAreRecorded : Tab.wf ({} : Ctx) tFlow.ctxs = true ∧ tFlow.stream .w 0 = some tStream ∧ (tFlow.ctx 5).run = some {} ∧
    (tFlow.side 5 .w).imp.trapValid = false ∧ 125 < 126 ∧ (tFlow.side 5 .w).fault.valid = false := by decide

/-- Context 6 is ready beside context 5. -/
def tTwo (latency : Bool) : Chip :=
  { tRun with ctxs := tRun.ctxs ++ [(6, { tCtx with st := .ready, latency := latency, execQ := [{ cmd := .impRun tHdr default }] })] }
theorem witness_KillsAndWaitCycles : cycleOf [] = [] ∧ cycleOf [(5, 5)] = [5] ∧ cycleOf [(5, 6), (6, 5)] = [5, 6] ∧ tRun.youngest [5, 6] = some 6 ∧
    (tRun.ctx 5).run = some {} ∧ (tRun.ctx 5).execQ = [{ cmd := .impRun tHdr default }] ∧ tRun.waitsRemote 5 = false ∧
    0x0501 ≤ (0x0504 : W16).toNat ∧ (tRun.part 0).cur = some 5 ∧ (tRun.ctx 5).latency = false ∧ tRun.latencyReady 0 = false ∧
    (tTwo true).latencyReady 0 = true ∧ (tTwo true).isProtected 5 = false := by decide +kernel
/-- A collective op of the command is in progress, so it waits on a remote module. -/
theorem witness_KillsAndWaitCycles_remote :
    ((tCol 1).modStream .w 0 (fun s => { s with image := { s.image with groups := [(0, { p := 2 })] } })).waitsRemote 5 = true := by decide +kernel
theorem witness_KillsAndWaitCycles_protected :
    ({ tRun with ctxs := [(5, { tCtx with execQ := [{ cmd := .impRun tHdr default, kills := 14 }] })] } : Chip).isProtected 5 = true := by decide +kernel
/-- No context holds partition 0 and context 6 is ready; then it is loading. -/
def tFree : Chip := { tTwo true with parts := [(0, Partition.whole)], ctxs := [(6, { tCtx with st := .ready, latency := true })] }
theorem witness_Switching : tFree.choiceDue 0 = true ∧ tFree.nextCtx 0 = some 6 ∧ (tFree.part 0).cur ≠ some 6 ∧
    (after (.schedulerChoice 0) tFree).partBusy 0 = false ∧ 6 ∈ (after (.schedulerChoice 0) tFree).ctxsOf 0 ∧
    ((after (.schedulerChoice 0) tFree).ctx 6).st = .loading ∧
    ((after (.schedulerChoice 0) tFree).ctxsOf 0).find? (fun n => decide (((after (.schedulerChoice 0) tFree).ctx n).st = .loading)) = some 6 ∧
    (0 : W64).toNat + (tRun.part 0).sliceMs.toNat * 1000000 ≤ (2 ^ 40 : W64).toNat := by decide +kernel
theorem witness_Switching_slice :
    let c := tRun.modCtx 5 (fun x => { x with sliceStart := some 0 })
    (c.part 0).cur = some 5 ∧ (c.ctx 5).sliceStart = some 0 ∧ c.now.toNat < (0 : W64).toNat + (c.part 0).sliceMs.toNat * 1000000 := by decide
theorem witness_TeardownAndReset : tearStatus 0x0703 = true ∧ Tab.wf ({} : Ctx) tRun.ctxs = true ∧ tRun.waitsRemote 5 = false ∧
    (tRun.ctx 5).st ≠ .free ∧ Tab.wf ({} : Vf) tRun.vfs = true ∧ (tRun.ctx 5).run = some {} := by decide
/-- A step whose two dies have issued their COMMIT; then one that must vote in a group of two. -/
def tStep : Chip := tFlow.modRun 5 (fun r => { r with isStep := true, commitW := true, commitE := true })
def tVote : Chip := tStep.modStream .w 0 (fun s => { s with image := { s.image with groups := [(0, { p := 2, plist := [0, 1] })] } })
theorem witness_CommitAndVote : tStep.commitReady 5 = true ∧ (tStep.ctx 5).commitPinned = false ∧ tFlow.commitReady 5 = false ∧ tVote.voting 5 = true ∧
    allVotes (tVote.voteGroup 5).p (tVote.ownVotes 5 (tVote.voteGroup 5) ((tVote.ctx 5).run.get!)) [] = none ∧
    (allVotes (tVote.voteGroup 5).p (tVote.ownVotes 5 (tVote.voteGroup 5) ((tVote.ctx 5).run.get!)) [{ (default : Vote) with index := 1 }]).isSome = true ∧
    (({ tCtx with proof := { ship := some { flips := 1 } } } : Ctx).commitPinned) = true := by decide +kernel
theorem witness_CommitAndVote_outcomes :
    voteOutcome {} { p := 2 } [0] [{ (default : Vote) with step := 1 }, { (default : Vote) with index := 1 }] true = .mismatch ∧
    voteOutcome {} { p := 2 } [0] [default, { (default : Vote) with index := 1 }] true = .agreed := by decide +kernel
/-- A SERVE is between its steps; a park of stream 0 is under way. -/
def tServe : Chip := { tRun with ctxs := tRun.ctxs.map (fun x => (x.1, { x.2 with execQ := [{ cmd := .serve tHdr { count := 1, decMax := 0, chunk := 0, pfMax := 0 } }] })) }
theorem witness_ServeSteps : tServe.betweenSteps 5 = true ∧ tRun.betweenSteps 5 = false ∧ tServe.streamsEnded 5 = true ∧
    ((tServe.modRun 5 (fun r => { r with serveOpen := true })).ctx 5).run = some { serveOpen := true } ∧
    (({ tServe with serving := { tServe.serving with moveW := some 0 } } : Chip).moveOn .w) = some 0 ∧
    ({ st := .moving } : StreamEntry).unparking = false ∧ (1 : W32).toNat ≤ 0 + 1 := by decide +kernel
theorem witness_ServeSteps_batch : (((tModel .decode).modEntry 0 (fun e => { e with pos := 1, target := 1 })).formBatches 5).2.length ≤ 1 := by decide +kernel
/-- Port 0 in a state, and a Ridge register bank. -/
def tPort (st : BitVec 4) : Chip := { tIdle with ports := [(0, { st := st })] }
theorem witness_PortsAndRidge : ((tPort 3).pport 0).st = 3 ∧ ((tPort 4).pport 0).st = 4 ∧ ((tPort 1).pport 0).st = 1 ∧ 2 ≤ ((tPort 2).pport 0).st.toNat ∧
    (0 : Byte) < ({ tIdle with domain := { epoch := 1 } } : Chip).domain.epoch ∧ (tPort 1).domain.epoch ≤ (255 : Byte) ∧ (tPort 1).fits 0 9 0 = true ∧
    ({ tIdle with domain := { set := true } } : Chip).fits 6 9 0 = false ∧
    tIdle.ridge.src ≠ 2 ∧ tIdle.ridge.holdover = false ∧ tIdle.ridge.lossNotice = false ∧ tIdle.ridge.locked = false ∧ tIdle.ridge.hasSource = true ∧
    (1000 : Int).natAbs ≤ 1000 ∧ 1000 < (-1001 : Int).natAbs := by decide +kernel
theorem witness_PortsAndRidge_upstream :
    let c : Chip := { tIdle with ridge := { src := 1, holdover := true }, domain := { routes := [(0, 17)] } }
    c.ridge.src = 1 ∧ c.ridge.holdover = true ∧ c.ridge.upstream = 0xF ∧ c.upstreamOf = some (0, 1, 0) := by decide
theorem witness_RidgeNowRegister : ({ tIdle with ridge := { latch := tIdle.ridge.now.extractLsb' 32 32 } } : Chip).ridge.latch = tIdle.ridge.now.extractLsb' 32 32 := rfl
theorem witness_RegisterAccess : bit (4 : BitVec 128).toNat 2 = true ∧ bit (3 : BitVec 128).toNat 2 = false := by decide
theorem witness_MemoryFromOutside : (tIdle.ctx 5).page 0x5FFFFF = some tPage ∧ (tPage.copy (tPage.useB (tIdle.ctx 5) .active)).written = true ∧
    ({ tPage.copyA with written := false } : PageCopy).written = false ∧ ({ tIdle with ctxSel := 5 } : Chip).shown 0 = some 5 ∧
    okB (tIdle.readVa 5 0x400000 8) = true ∧ noB (tIdle.readVa 5 0x800000 8) = true := by decide +kernel
/-- Stack 0 is hot, and its page in context 5 is the one sampled, read-only to it. -/
def tHot : Chip := { tIdle with stks := [(0, { chanHot := true })], ctxs := [(5, { tCtx with pages := [(2, some { tPage with attr := { tPage.attr with place := 0, ro := true } })] })] }
theorem witness_StackEvents : sumNat [1] ≠ 0 ∧ (tHot.stk 0).mayMigrate tHot.now = true ∧ tHot.hotPage 0 [(5, 2, 0)] = some (5, 2) ∧
    (tHot.liveCopy 5 2).isSome = true ∧ tPage.spilled = false ∧ tPage.granted = false ∧
    chanImbalance (3000000 :: List.replicate 15 0) = true ∧ stackImbalance 0 [1, 1] = false ∧
    Tab.wf ({} : StackSt) tHot.stks = true ∧ 95 ≤ (95 : Byte).toNat ∧ (91 : Byte).toNat < 92 := by decide +kernel
theorem tHot_used (s : Nat) (h : s % 8 = 0) (h8 : s ≠ 8) (k : Nat) (hk : k < 8) : tHot.usedSlots.contains (0, s + k) = false := by
  have e : tHot.usedSlots = (List.range 8).map (fun i => (0, 8 + i)) := by decide
  rw [e, Bool.eq_false_iff]
  simp only [ne_eq, List.contains_iff_mem, List.mem_map, List.mem_range, Prod.mk.injEq, true_and, not_exists, not_and]
  intro i hi; omega
/-- One page is used: a free place is found wherever the search begins. -/
theorem witness_StackEvents_place : (tHot.findPlace 0).isSome = true := by
  have n : tHot.usedSlots.length = 8 := by decide
  have c : stackSlices / 8 = 32768 := by decide
  simp only [Chip.findPlace, Nat.zero_lt_succ, if_true, Option.isSome_map, searchSlice, n, c, List.find?_isSome]
  generalize Config.allocHint tHot.fresh = h
  have ok : ∀ s, s % 8 = 0 → s ≠ 8 → (List.range 8).all (fun k => !tHot.usedSlots.contains (0, s + k)) = true := by
    intro s h0 h1; rw [List.all_eq_true]; intro k hk
    rw [tHot_used s h0 h1 k (List.mem_range.mp hk)]; rfl
  by_cases q : h % 32768 = 1
  · exact ⟨(h + 1) % 32768 * 8, List.mem_map.mpr ⟨1, List.mem_range.mpr (by omega), rfl⟩, ok _ (by omega) (by omega)⟩
  · exact ⟨(h + 0) % 32768 * 8, List.mem_map.mpr ⟨0, List.mem_range.mpr (by omega), rfl⟩, ok _ (by omega) (by omega)⟩
/-- Every slice of stack 0 is in use. -/
def tUsed : StackSt := { old := (List.range 32768).map (fun i => Phys.pinned 0 (8 * i)) }
def tNoRoom : Chip := { tHot with stks := tHot.stks ++ [(1, tUsed)] }
theorem witness_StackEvents_full : tNoRoom.findPlace 0 = none ∧ (tNoRoom.stk 0).mayMigrate tNoRoom.now = true ∧
    tNoRoom.hotPage 0 [(5, 2, 0)] = some (5, 2) := by
  refine ⟨?_, by decide, by decide⟩
  have c : stackSlices / 8 = 32768 := by decide
  simp only [Chip.findPlace, Nat.zero_lt_succ, if_true, Option.map_eq_none_iff, searchSlice, c, List.find?_eq_none, List.mem_map]
  rintro s ⟨i, -, rfl⟩
  rw [Bool.not_eq_true, List.all_eq_false]
  refine ⟨0, List.mem_range.mpr (by omega), ?_⟩
  generalize hj : (Config.allocHint tNoRoom.fresh + i) % 32768 = j
  have lt : j < 32768 := by rw [← hj]; exact Nat.mod_lt _ (by decide)
  have q : Phys.pinned 0 (8 * j) ∈ tUsed.old := by
    have e : tUsed.old = (List.range 32768).map (fun i => Phys.pinned 0 (8 * i)) := by simp only [tUsed]
    rw [e]; exact List.mem_map_of_mem (List.mem_range.mpr lt)
  have p : (0, j * 8 + 0) ∈ (Phys.pinned 0 (8 * j)).slots := List.mem_map.mpr ⟨0, List.mem_range.mpr (by omega), by simp [Nat.mul_comm]⟩
  have m : (0, j * 8 + 0) ∈ tNoRoom.usedSlots := by
    simp only [Chip.usedSlots, List.mem_append, List.mem_flatMap]
    exact .inr ⟨(1, tUsed), List.mem_append_right _ (List.Mem.head _), .inl ⟨_, q, p⟩⟩
  simpa using m
theorem witness_StackEvents_switch :
    let m : Migration := { ctx := 5, page := 2, copyB := false, fresh := .pinned 0 16 }
    (({ tHot with stks := [(0, { chanHot := true, mig := some m })] } : Chip).stk 0).mig = some m ∧ (tPage.copy false).phys.place = m.fresh.place := by decide
theorem witness_PowerEvents : 110 ≤ (110 : Byte).toNat ∧ 100 ≤ (109 : Byte).toNat ∧ tIdle.sprintOver = false ∧
    ({ tIdle with w := { tIdle.w with hotspot := 100 } } : Chip).sprintOver = true ∧ 900 ≤ 900 ∧ 63 < 64 ∧ tIdle.pwr.railsOn = true ∧
    115 ≤ (115 : Byte).toNat ∧ 110 ≤ (({ tIdle with stks := [(7, { temp := 110 })] } : Chip).stk 7).temp.toNat := by decide
theorem witness_PowerEvents_adapt :
    let c : Chip := ({ tRun with pwr := { tRun.pwr with clipAdapt := true }, boot := { tRun.boot with mode := 1 } } : Chip).modSide 5 .w
      (fun k => { k with widen := [(0, { execs := 1024 })] })
    c.pwr.clipAdapt = true ∧ c.boot.mode = 1 ∧ (c.ctx 5).st = .running ∧ (tget {} (c.side 5 .w).widen 0 : WidenEntry).enable = true ∧
    1024 ≤ (tget {} (c.side 5 .w).widen 0 : WidenEntry).execs := by decide
/-- A base configuration with its four required sections (R393). -/
def tConfig : List Byte :=
  let e (t o n : Byte) : List Byte := [t, 0, 0, 0, o, 1, 0, 0, n, 0, 0, 0, 0, 0, 0, 0]
  [0x11, 0, 0, 0, 0x1D, 1, 0, 0] ++ leBytes 4 0x43147358 ++ [0, 0, 0, 0] ++ e 1 0x10 3 ++ e 2 0x13 1 ++ e 3 0x14 8 ++ e 10 0x1C 1 ++ List.replicate 192 0 ++
    [16, 0, 1, 1, 1, 0, 0, 0, 0, 0, 0, 0, 0]
set_option maxRecDepth 20000 in
theorem witness_BringUp : tIdle.pwr.railsOn = true ∧ tIdle.boot.phase = 1 ∧ (configOf tConfig).isSome = true ∧ configOf [] = none ∧ tConfig ≠ [] ∧
    tIdle.boot.src = 0 ∧ tIdle.boot.claims .w = tIdle.boot.claims .w ∧ tIdle.boot.norTrip = false := by decide +kernel
theorem witness_BringUp_fromHost : ({ tIdle.boot with strapBoot := true } : Boot).fromHost = true ∧ tIdle.boot.fromHost = false ∧
    ({ tIdle.boot with stDone := true, phase := 5 } : Boot).stDone = true ∧ ({ tIdle.boot with src := 1 } : Boot).src ≠ 0 := by decide
theorem witness_ResetsAndButton : tIdle.pwr.inputOn = true ∧ tIdle.pwr.tripped = false ∧ ({ tIdle.pwr with inputOn := false } : Pwr).inputOn = false ∧
    6 ≤ (9 : BitVec 4).toNat ∧ tIdle.led ≠ .attention ∧ ({ tIdle with boot := { tIdle.boot with phase := 6, attention := true, stFault := true } } : Chip).led = .attention ∧
    (0 : W64).toNat + 60000000000 ≤ (60000000000 : W64).toNat ∧ ({ Chip.reset with boot := { Chip.reset.boot with phase := 6 } } : Chip).colprogOpen = true ∧
    tIdle.colprogOpen = false := by decide +kernel
theorem witness_DebugAccess : Chip.reset.extestOpen = true ∧ tIdle.extestOpen = false ∧ Chip.reset.boot.governing.dbgOff = false ∧
    bit (2 ^ 87 : BitVec 96).toNat 87 = true ∧ tUnlock.unlockShut = false ∧ tUnlock.challengeLive = true ∧ tIdle.unlockShut = true ∧
    tUnlock.port.challenge ≠ [] ∧ ({ tIdle with boot := { tIdle.boot with phase := 2 } } : Chip).sideOn = true ∧ tIdle.port.unlocked = false ∧
    ({ maddr := 2 <<< 60 } : Dbg).space = 2 ∧ Tab.wf (none : Option Thread) tComp.w.threads = true ∧ tComp.thread tRef = some tThread := by decide +kernel
/-- Die W stands still under a halt, and one of its steps is still to run. -/
def tHalted : Chip := { tFlow with w := { tFlow.w with dbg := { halt := true, halted := true, frozen := true, stepsLeft := 1 } } }
theorem witness_DebugHalt : tHalted.noBeat .w 0 = true ∧ tFlow.noBeat .w 0 = false ∧ tHalted.clockStopped ⟨.w, 0, 0⟩ = true ∧
    tHalted.clockStopped ⟨.w, 0, 64⟩ = false ∧ (tHalted.ctx (tHalted.ctxOf .w 0)).killHeld = false ∧ tHalted.pressOn = true ∧
    tHalted.standsStill tRef tThread = true ∧ tHalted.standsStill { tRef with loc := 1 } tThread = false ∧ tHalted.w.dbg.stepsLeft ≠ 0 ∧
    ({ tHalted with w := { tHalted.w with dbg := tHalted.w.dbg.stepTaken } } : Chip).w.dbg.stepsLeft = 0 ∧ onDie 0 = false := by decide
/-- A step of a halted die begins a beat (R398). -/
theorem test_halted_step_begins : let m := (after (.beatBoundary .w) tHalted).w
    (m.dbg.frozen, m.dbg.stepsLeft, m.beats) = (false, 0, tHalted.w.beats) := by decide +kernel
/-- The boundary after the last step of a halted die ends its beat, and the die stands still (R398). -/
theorem test_halted_step_ends : let m := (after (.beatBoundary .w) { tHalted with w := { tHalted.w with dbg := { halt := true, halted := true } } }).w
    (m.dbg.frozen, m.beats) = (true, tHalted.w.beats + 1) := by decide +kernel
theorem witness_ResetsAndButton_quiesce : ({} : ColGen).grace = 60 ∧ (0 : W64).toNat + 60 * 1000000000 ≤ (60000000000 : W64).toNat := by decide
theorem witness_StoresStayCanonical : StoresWf tIdle := by unfold StoresWf; decide

/-- Context 5 without a page runs a step. -/
def tBareStep : Chip := (tBare.modCtx 5 (fun x => { x with run := some { isStep := true } }))
theorem witness_RightsCapabilityLevelAndNop_bound : tHdr.fn = 0 ∧ ({ tIdle with vfs := [(1, { bound := some 5 })] } : Chip).boundCtx 1 = some 5 := by decide
theorem witness_MapAndUnmap_kept : (tBareStep.ctx 5).run.map (·.isStep) = some true ∧ okE (tBareStep.tryMap 5 0x800000 1 tAttr) = true ∧
    (tStep.ctx 5).run.map (·.isStep) = some true ∧ (∀ vp ∈ pageRange 0x400000 1, tget none (tStep.ctx 5).pages vp ≠ none) := by decide +kernel
theorem witness_MapAndUnmap_room : ((tBare.mapMany 5 tAttr (tBare.ctx 5).key (tBare.ctx 5).hash none (pageRange 0x800000 1)).map
      (fun c => c.withinShare 0)) = some true ∧
    okE (({ tBare with parts := [(0, { Partition.whole with share := 0 })] } : Chip).tryMap 5 0x800000 1 tAttr) = false ∧
    ({ tAttr with pset := 1 } : MapAttr).pair = false := by decide +kernel
theorem witness_ControlSlots_commit : StreamIssues tStep .w 0 tStream ∧
    (tStep.ctx 5).run.map (fun r => (r.isStep, r.pastCommit, r.issuedW)) = some (true, false, false) ∧ (tFlow.ctx 5).inStep = false := by
  unfold StreamIssues; decide +kernel
theorem witness_ControlSlots_count : let s : Stream := { tStream with cnt := [(2, 3)] }
    StreamIssues (tRun.setStream .w 0 (some s)) .w 0 s ∧ (tget 0 s.cnt 2 : W32) ≠ 0 ∧ (tget 0 s.cnt 7 : W32) = 0 := by unfold StreamIssues; decide
theorem witness_WidenBranch_left : okE (tFlow.skipRegion 5 tStream.image 1 4) = false := by decide +kernel
/-- Block 0 lies around the sheet at offset 0; block 200 of a sheet section of 1 MiB does not. -/
theorem witness_BeatsAndStreamEvents_window : 0 < 0 * 16 + 393216 / 1 ∧ 0 * 16 - 131072 / 1 < 0 + 64 ∧ ¬(200 * 4096 < 0 * 16 + 393216 / 1) ∧
    tStream.bufLo = tStream.bufHi ∧ tFlow.w.running ≤ 1 ∧ (tFlow.imp .w 0).pc = 0 ∧
    ({ tStream with wait := .wait 5 false 1 (some 0) } : Stream).met = false ∧ ({ tStream with trapComing := some 9 } : Stream).trapComing = some 9 ∧
    ({ dbg := { halt := true } } : DieSt).dbg.halt = true ∧ tFlow.op ⟨.w, 0, 3⟩ = none ∧ ((tOpAt 3 1 0 []).op ⟨.w, 0, 3⟩).isSome = true := by decide +kernel
theorem witness_OpCompletions_held : tStream.trapDue = false ∧
    (((tOpAt 0 1 0 []).modPlaten .w 0 (fun x => { x with hold := true })).platen .w 0).hold = true ∧
    ((tOpAt 0 1 0 []).platen .w 0).hold = false ∧ slotClass 63 = .platen ∧ slotClass 64 = .thatch ∧ slotClass 95 = .thatch ∧ slotClass 96 ≠ .thatch := by decide
theorem witness_SemaphoreAddAndTake_nobody : tFlow.waiters .w 4095 true = [] := by decide
/-- The RBCLR stands at the head of the queue; its unit has no op. -/
def tQueued (addr : W64) : Chip :=
  let c := tRun.setStream .w 0 (some { tStream with
    image := { tStream.image with dlists := [(0, (1 <<< 48) ||| addr)] }
    units := [(0, { queue := [{ slot := BitVec.ofNat 128 (2 * 2 ^ 124), rep := 1, i := 1 }] })] })
  (c.writeVa 5 0x400000 (tClear.flatMap (fun w => leBytes 8 w.toNat))).1
theorem witness_ListsAndLinks_queue :
    (match ((tQueued 0x400000).fetchList ⟨.w, 0, 0⟩ { slot := BitVec.ofNat 128 (2 * 2 ^ 124), rep := 1, i := 1 }).2 with | .ok _ _ _ _ => true | _ => false) = true ∧
    (tQueued 0x400000).op ⟨.w, 0, 0⟩ = none ∧ bits (tget 0 tStream.image.dlists 0 : W64).toNat 57 48 = 0 := by decide +kernel
/-- A deferred UPDATE at the head of its queue, with its clip link on pair 5. -/
theorem witness_ListsAndLinks_clip : let e : Entry := { slot := BitVec.ofNat 128 (2 ^ 124 + 2 ^ 35), rep := 1, i := 1, descs := some [tClear, tLinked] }
    (e.deferred 112, e.mayStart 112, (descOf tLinked).lvalid) = (true, false, true) ∧ slotClass 112 = .update := by decide
theorem witness_TileWork_free : (tOpAt 0 1 0 (tTile 0x400000)).blocked ⟨.w, 0, 0⟩ (((tOpAt 0 1 0 (tTile 0x400000)).op ⟨.w, 0, 0⟩).get!) = false ∧
    okB (((tOpAt 0 1 0 (tTile 0x400000)).raceBytes ⟨.w, 0, 0⟩ 0 [] []).readTile ⟨.w, 0, 0⟩ (Entry.tileSlot { slot := 0 } 0) (viewList (tTile 0x400000) [])) = true := by
  decide +kernel
theorem witness_SelectAndStackSelection_credit : (({ tGutter with lanes := [] } : Gutter).ask 0 { token := 7, count := 1 }).1 = true ∧ (tGutter.ask 0 { token := 8 }).1 = false ∧
    nextEntry 0 [] = none := by decide +kernel
/-- A range that takes one record of another module, whose record waits with its group. -/
def tRemote : Gutter := { ranges := [(0, some { first := 7, count := 1, k := 1, remote := 1, group := 3 })], remote := [(3, { token := 7, count := 1 })] }
theorem witness_GutterOps_remote : (remoteHeads tRemote.remote).find? tRemote.acceptsRemote = some (3, { token := 7, count := 1 }) ∧
    (tRemote.ask 8 { token := 7, count := 1 }).1 = true ∧
    (({ tRemote with asking := [(0, { token := 7, part := 1 })], ranges := tRemote.ranges ++ [(1, some { first := 7, count := 1, stks := 1 })] } : Gutter).ask 8
      { token := 7, count := 1 }).1 = true ∧
    OpReady (tOpAt 116 2 0 []) ⟨.w, 0, 116⟩ (((tOpAt 116 2 0 []).op ⟨.w, 0, 116⟩).get!) 2 ∧
    ({ first := 7, count := 1, k := 1, stks := 1 } : OpenRange).complete [(0, { token := 7, count := 1 })] = true ∧
    kMismatch { first := 7, count := 1, k := 1, stks := 1 } [(0, { token := 7, count := 1, k := 1 })] = false := by
  unfold OpReady; decide +kernel
theorem witness_UpdateOp_free : (tUpd id).blocked ⟨.w, 0, 112⟩ (((tUpd id).op ⟨.w, 0, 112⟩).get!) = false ∧
    (({ tCtx with train := { tCtx.train with committable := true } } : Ctx).train.committable) = true ∧
    (({ tCtx with train := { tCtx.train with committable := false } } : Ctx).train.committable) = false := by decide +kernel
theorem witness_Collectives_none_come : OpReady (tCol 1) ⟨.w, 0, 117⟩ (((tCol 1).op ⟨.w, 0, 117⟩).get!) 1 ∧
    (((tCol 1).op ⟨.w, 0, 117⟩).map (fun o => (o.paused, o.sent))) = some (false, false) ∧
    (tCol 1).blocked ⟨.w, 0, 117⟩ (((tCol 1).op ⟨.w, 0, 117⟩).get!) = false ∧ (tCol 1).runMode 5 2 = false ∧
    ((tCol 1).modRun 5 (fun r => { r with isStep := true, mode := 2 })).runMode 5 2 = true ∧
    haveAll 1 2 0 0 [{ (default : Peer) with index := 1 }] = true ∧ haveAll 1 2 0 0 [] = false := by unfold OpReady; decide +kernel
theorem witness_Collectives_own : ((tCol 1).sendOwn ⟨.w, 0, 117⟩ { e := { slot := 0 }, sent := true } 5 {} 0 [] []).2 = none ∧
    ((tCol 3).sendOwn ⟨.w, 0, 117⟩ (((tCol 3).op ⟨.w, 0, 117⟩).get!) 5 { p := 2, plist := [0, 1] } 0 (List.replicate 8 0)
      (List.replicate 4 (descOf [0x0049000000600000, 0, 0x0000000100000040, 0, 0, 0, 0, 0]))).2.isSome = true := by decide +kernel
theorem witness_IntegerInstructions : (tWord 0x02826000 tComp).wordAt tRef tThread = 0x01 * 2 ^ 25 + 4 * 2 ^ 21 + 1 * 2 ^ 17 + 3 * 2 ^ 13 ∧
    (tRef.ctx + 1) % 4096 ≠ 0 := by decide +kernel
theorem witness_Stores_places : (tPlaten.stored tRef tThread { space := 1, addr := 0x100, len := 8 } (leBytes 8 1)).2 = leBytes 8 1 ∧
    tFlow.copying 5 0x400000 8 = false := by decide +kernel
theorem witness_ThreadsAndSpawns_line : tComp.w.nextReady tRef = some 0 ∧ tComp.codeLine tRef tThread ∈ tget [] tComp.w.icache (compKey tRef) ∧
    tComp.codeLine tRef tThread ∉ tget [] tFlow.w.icache (compKey tRef) ∧ okB (tComp.readVa 5 0x400000 256) = true ∧
    noB (tComp.readVa 5 0x800000 256) = true ∧ (tComp.setThread tRef (some { tThread with wait := .fetch })).w.nextReady tRef = none := by decide +kernel
theorem witness_ThreadsAndSpawns_rom : okB (tFlow.romThreads ⟨.w, 0, 118⟩ 0xF000 0 [] 0 (List.range 0) []) = true ∧
    (tFlow.romWrite ⟨.w, 0, 118⟩ 0 (descOf tClear) 0 []).2 = none ∧ bits 0 27 26 = (if romRows 0xF000 then 1 else 0) ∨ romRows 0xF000 = true := by decide +kernel
theorem witness_WeightCache_full : (List.replicate 16 ({ line := 9, key := 1, used := 0 } : CacheLine)).length = 16 ∧ 9 ∈ ({ notices := [9] } : DieSt).notices ∧
    9 ∉ tFlow.w.notices := by decide
theorem witness_TrapsAndFaultsAreRecorded_kept : let c := tFlow.modSide 5 .w (fun k => { k with imp := { k.imp with trapValid := true } })
    (c.side 5 .w).imp.trapValid = true ∧ ({ tStream with stopped := true } : Stream).stopped = true := by decide
/-- The tenth sample that shows the wait of context 5 on itself, and of contexts 5 and 6 on one another. -/
def tCycle (ws : List (Nat × Nat)) : Chip :=
  { tRun with ctxs := tRun.ctxs ++ [(6, { tCtx with st := .running, run := some {} })], wgWaits := ws.map (fun w => ⟨w.1, w.2, 0, 0, 9⟩) }
theorem witness_KillsAndWaitCycles_tenth :
    cycleOf ((([(5, 5)].eraseDups.filterMap (tCycle [(5, 5)]).wgSample).filter (fun w => decide (10 ≤ w.samples))).map (fun w => (w.src, w.dst))) = [5] ∧
    cycleOf ((([(5, 6), (6, 5)].eraseDups.filterMap (tCycle [(5, 6), (6, 5)]).wgSample).filter (fun w => decide (10 ≤ w.samples))).map
      (fun w => (w.src, w.dst))) = [5, 6] ∧ (tCycle []).wgSample (5, 6) = some ⟨5, 6, 0, 0, 1⟩ ∧ (tCycle []).wgSample (5, 7) = none := by decide +kernel
theorem witness_PortsAndRidge_returns : ({ src := 0, everLocked := true } : Ridge).hasSource = true ∧
    ({ src := 0, everLocked := true, holdover := true } : Ridge).locked = false ∧ ({ locked := false } : Ridge).src ≠ 2 := by decide
/-- Stack 0 copies the page of context 5. -/
def tCopying : Chip := { tIdle with ctxSel := 5, stks := [(0, { mig := some { ctx := 5, page := 2, copyB := false, fresh := .pinned 0 16 } })] }
theorem witness_MemoryFromOutside_copying : tCopying.shown 0 = some 5 ∧ tCopying.copying 5 0x400000 8 = true ∧ tCopying.stks = [(0, tCopying.stk 0)] ∧
    Tab.wf ({} : StackSt) tCopying.stks = true ∧ tIdle.copying 5 0x400000 8 = false := by decide +kernel
theorem witness_StackEvents_old : ({ tHot with stks := [(0, { old := [.pinned 0 8] })] } : Chip).w.viewUses (.pinned 0 8) = false ∧
    (tFlow.setStream .w 0 (some { tStream with units := [(0, { op := some { e := { slot := 0 }, view := some { old := [(.pinned 0 16, tPage.copyA)] } } })] })).w.viewUses
      (.pinned 0 8) = true := by decide +kernel
theorem witness_CommitAndVote_disagree : agree 1 [{ (default : Vote) with digest := 0 }, { (default : Vote) with index := 1, digest := 1 }] = false := by decide +kernel

end Sys2Proof.Tests
end

section
/-!
PROOFS. RIDGE_NOW as R26 has it: an access to BAR0 that stays within one register, what stands at the offsets of RIDGE_NOW,
and from these each read and write of it.
-/
namespace Sys2Proof.Machine

/-! ### Byte strings -/

/-- `n` bytes show a number modulo `2 ^ (8 * n)` only. -/
theorem leBytes_mod (n v : Nat) : leBytes n (v % 2 ^ (8 * n)) = leBytes n v := by
  induction n generalizing v with
  | zero => rfl
  | succ n ih =>
    have hpow : 2 ^ (8 * (n + 1)) = 256 * 2 ^ (8 * n) := by rw [Nat.mul_succ, Nat.pow_add, Nat.mul_comm]
    have hbyte : BitVec.ofNat 8 (v % (256 * 2 ^ (8 * n))) = BitVec.ofNat 8 v :=
      BitVec.eq_of_toNat_eq (by simp)
    have hrest : v % (256 * 2 ^ (8 * n)) / 256 = v / 256 % 2 ^ (8 * n) := Nat.mod_mul_right_div_self ..
    rw [hpow, leBytes, leBytes, hbyte, hrest, ih]

@[simp] theorem leBytes_length (n v : Nat) : (leBytes n v).length = n := by
  induction n generalizing v with
  | zero => rfl
  | succ n ih => simp [leBytes, ih]

/-! ### Accesses to BAR0 within one register -/

theorem bar0Read_zero (fn f : Nat) (c : Chip) (o : Nat) : Chip.bar0Read fn f c o 0 = (c, []) := by
  cases f <;> simp [Chip.bar0Read]

theorem bar0Write_nil (fn f : Nat) (c : Chip) (o : Nat) : Chip.bar0Write fn f c o [] = c := by
  cases f <;> simp [Chip.bar0Write]

/-- A read that ends inside the register it starts in is one read of that register. -/
theorem regRead_within {c : Chip} {fn o b bytes v len : Nat} (hstart : c.bar0Start fn o = some b)
    (hval : c.bar0Val fn b = (c, some (bytes, v))) (hpos : 0 < len) (hlen : len ≤ bytes - (o - b)) :
    c.regRead fn 0 o len =
      (let x := if fn = 0 ∨ b = 0x20050 then c.readLatch b (o - b) v else (c, v)
       (x.1.bar0Clear fn b (o - b) (o - b + len - 1), leBytes len (x.2 / 2 ^ (8 * (o - b))))) := by
  obtain ⟨f, rfl⟩ := Nat.exists_eq_succ_of_ne_zero hpos.ne'
  simp [Chip.regRead, Chip.bar0Read, hstart, hval, Nat.min_eq_left hlen, bar0Read_zero]

/-- A write that ends inside the register it starts in is one write of that register. -/
theorem regWrite_within {c : Chip} {fn o b bytes v : Nat} {bs : List Byte} (hstart : c.bar0Start fn o = some b)
    (hval : c.bar0Val fn b = (c, some (bytes, v))) (hpos : bs ≠ []) (hlen : bs.length ≤ bytes - (o - b)) :
    c.regWrite fn 0 o bs = c.bar0Put fn b (o - b) bs := by
  obtain ⟨x, xs, rfl⟩ := List.exists_cons_of_ne_nil hpos
  simp [Chip.regWrite, Chip.bar0Write, hstart, hval, List.take_of_length_le hlen, List.drop_eq_nil_of_le hlen, bar0Write_nil]

/-! ### The register RIDGE_NOW -/

theorem bar0At_ridgeNow : bar0At 0x20050 = some (.mod (.ridge 0x50)) := by decide

theorem bar0At_ridgeNowHigh : bar0At 0x20054 = some (.mod (.ridge 0x54)) := by decide

/-- Every function reads the 64 bits of the counter (Table 14.1). -/
theorem bar0Val_ridgeNow (c : Chip) (fn : Nat) : c.bar0Val fn 0x20050 = (c, some (8, c.ridge.now.toNat)) := by
  have hnow : c.ridge.now.toNat % 2 ^ 64 = c.ridge.now.toNat := Nat.mod_eq_of_lt c.ridge.now.isLt
  simp only [Chip.bar0Val, bar0At_ridgeNow, ModReg.forVf, Chip.modRegVal, Ridge.reg, r8, hnow]
  simp

/-- No register starts at the high half. -/
theorem bar0Val_ridgeNowHigh (c : Chip) (fn : Nat) : c.bar0Val fn 0x20054 = (c, none) := by
  simp [Chip.bar0Val, bar0At_ridgeNowHigh, Chip.modRegVal, Ridge.reg]

theorem bar0Start_ridgeNow (c : Chip) (fn : Nat) : c.bar0Start fn 0x20050 = some 0x20050 := by
  simp [Chip.bar0Start, bar0Val_ridgeNow]

theorem bar0Start_ridgeNowHigh (c : Chip) (fn : Nat) : c.bar0Start fn 0x20054 = some 0x20050 := by
  simp [Chip.bar0Start, bar0Val_ridgeNow, bar0Val_ridgeNowHigh]

/-- A read clears nothing of it. -/
theorem bar0Clear_ridgeNow (c : Chip) (fn lo hi : Nat) : c.bar0Clear fn 0x20050 lo hi = c := by
  simp [Chip.bar0Clear, bar0At_ridgeNow, Chip.modRegClear]

/-- It is read-only. -/
theorem bar0Put_ridgeNow (c : Chip) (fn lo : Nat) (bs : List Byte) : c.bar0Put fn 0x20050 lo bs = c := by
  simp [Chip.bar0Put, bar0At_ridgeNow, Chip.modRegWrite, Ridge.regWrite]

/-- The module once a read of the low half has latched the high half. -/
def Chip.latchRidge (c : Chip) : Chip := { c with ridge := { c.ridge with latch := c.ridge.now.extractLsb' 32 32 } }

theorem readLatch_ridgeNow (c : Chip) : c.readLatch 0x20050 0 c.ridge.now.toNat = (c.latchRidge, c.ridge.now.toNat) := by
  have hlatch : BitVec.ofNat 32 (c.ridge.now.toNat / 2 ^ 32) = c.ridge.now.extractLsb' 32 32 := by
    rw [BitVec.extractLsb', Nat.shiftRight_eq_div_pow]
  rw [Chip.readLatch, bar0At_ridgeNow]
  simp only [hlatch, Chip.latchRidge, Nat.zero_lt_succ, if_true]

theorem readLatch_ridgeNowHigh (c : Chip) (v : Nat) : c.readLatch 0x20050 4 v = (c, c.ridge.latch.toNat * 2 ^ 32) := by
  simp [Chip.readLatch, bar0At_ridgeNow]

/-! ### Reads and writes of RIDGE_NOW (R26) -/

/-- A read from the start on, the low half or all of it: bytes of one instant of the counter, and its high half is latched. -/
theorem regRead_ridgeNow (c : Chip) (fn : Nat) {len : Nat} (hpos : 0 < len) (hlen : len ≤ 8) :
    c.regRead fn 0 0x20050 len = (c.latchRidge, leBytes len c.ridge.now.toNat) := by
  rw [regRead_within (bar0Start_ridgeNow c fn) (bar0Val_ridgeNow c fn) hpos hlen]
  simp [readLatch_ridgeNow, bar0Clear_ridgeNow]

/-- A read of the high half: the latched half, the counter untouched. -/
theorem regRead_ridgeNowHigh (c : Chip) (fn : Nat) : c.regRead fn 0 0x20054 4 = (c, leBytes 4 c.ridge.latch.toNat) := by
  rw [regRead_within (bar0Start_ridgeNowHigh c fn) (bar0Val_ridgeNow c fn) (by decide) (by decide)]
  simp [readLatch_ridgeNowHigh, bar0Clear_ridgeNow]

/-- A write that starts in RIDGE_NOW and ends in it changes nothing. -/
theorem regWrite_ridgeNow {c : Chip} {fn o : Nat} {bs : List Byte} (hstart : c.bar0Start fn o = some 0x20050) (hpos : bs ≠ [])
    (hlen : bs.length ≤ 8 - (o - 0x20050)) : c.regWrite fn 0 o bs = c := by
  rw [regWrite_within hstart (bar0Val_ridgeNow c fn) hpos hlen, bar0Put_ridgeNow]

theorem exec_registerWrite_ridgeNow (p : List Instr) {c : Chip} {fn o size : Nat} (w : BitVec 128)
    (hstart : c.bar0Start fn o = some 0x20050) (hpos : 0 < size) (hlen : size ≤ 8 - (o - 0x20050)) :
    exec (.registerWrite fn 0 o size w) ⟨p, c⟩ = .next ⟨p, c⟩ := by
  have hsize : min size 16 = size := by omega
  have hbs : leBytes size w.toNat ≠ [] := List.ne_nil_of_length_pos (by simpa using hpos)
  have hwrite : c.regWrite fn 0 o (leBytes size w.toNat) = c := regWrite_ridgeNow hstart hbs (by simpa using hlen)
  rw [exec, execRegisterWrite, run_eq, hsize, hwrite]

/-- The latched half is the counter divided by `2 ^ 32`. -/
theorem toNat_extractLsb'_high (v : W64) : (v.extractLsb' 32 32).toNat = v.toNat / 2 ^ 32 := by
  rw [BitVec.extractLsb'_toNat, Nat.shiftRight_eq_div_pow]
  exact Nat.mod_eq_of_lt (by omega)

/-- Settles O52: RIDGE_NOW is one 8-byte register of BAR0, so each access is one access within it; a read from its low half latches,
a read from its high half answers with the latch. -/
theorem ridgeNowRegister : Obligations.RidgeNowRegister := by
  unfold Obligations.RidgeNowRegister
  intro p c fn
  have hlow : c.regRead fn 0 0x20050 4 = (c.latchRidge, leBytes 4 (c.ridge.now.toNat % 2 ^ 32)) := by
    rw [regRead_ridgeNow c fn (by decide) (by decide), ← leBytes_mod 4]
  refine ⟨?low, ?lowRead, ?high, ?whole, fun w => ⟨?_, ?_, ?_⟩⟩
  case low => simp only [exec, execRidgeNowRead, run_eq, hlow, Chip.latchRidge]
  case lowRead => simp only [exec, execRegisterReadClear, run_eq, hlow, Chip.latchRidge]
  case high =>
    intro c1 hlatch
    simp only [exec, execRegisterReadClear, run_eq, regRead_ridgeNowHigh, hlatch, toNat_extractLsb'_high]
  case whole =>
    simp only [exec, execRegisterReadClear, run_eq, regRead_ridgeNow c fn (len := 8) (by decide) (by decide), Chip.latchRidge]
  · exact exec_registerWrite_ridgeNow p w (bar0Start_ridgeNow c fn) (by decide) (by decide)
  · exact exec_registerWrite_ridgeNow p w (bar0Start_ridgeNowHigh c fn) (by decide) (by decide)
  · exact exec_registerWrite_ridgeNow p w (bar0Start_ridgeNow c fn) (by decide) (by decide)

end Sys2Proof.Machine
end

section
/-!
PROOFS. The codes of R33 and R41: a magnitude that is not above a bound on its grid is rounded to no more than the bound, so what a
conversion writes in T2 is a sign and a magnitude of at most one.
-/
namespace Sys2Proof.Machine

/-! ### Rounding does not cross a point of the grid (R53, R54) -/

theorem roundNat_le_succ (mode : Rnd) (num den : Nat) : roundNat mode num den ≤ num / den + 1 := by
  cases mode with
  | near => simp only [roundNat]; split_ifs <;> omega
  | stoch r => simp only [roundNat]; split_ifs <;> omega
  | zero => exact Nat.le_succ _

/-- An exact quotient is never moved, in any mode. -/
theorem roundNat_of_mod_eq_zero (mode : Rnd) {num den : Nat} (h : num % den = 0) : roundNat mode num den = num / den := by
  cases mode with
  | near =>
    obtain rfl | hden := den.eq_zero_or_pos
    · simp [roundNat, h]
    · simp [roundNat, h, hden]
  | stoch r => simp [roundNat, h]
  | zero => rfl

/-- A quotient of at most `m` is rounded to at most `m`: below `m` one step up does not pass it, and `m` itself is exact. -/
theorem roundNat_le (mode : Rnd) {num den m : Nat} (h : num ≤ m * den) : roundNat mode num den ≤ m := by
  have hq : num / den ≤ m := Nat.div_le_of_le_mul (by rwa [Nat.mul_comm])
  obtain hlt | heq := hq.lt_or_eq
  · exact (roundNat_le_succ mode num den).trans hlt
  · have hexact : num % den = 0 := by
      have hdiv := Nat.div_add_mod' num den
      rw [heq] at hdiv
      omega
    rw [roundNat_of_mod_eq_zero mode hexact, heq]

/-- A magnitude that is not above a point of the grid is not rounded above it. -/
theorem Quot.onGrid_le {q : Quot} {m : Nat} {e : Int} (mode : Rnd) (h : q.gt m e = false) : q.onGrid e mode ≤ m := by
  simp only [Quot.gt, Quot.onGrid] at h ⊢
  split_ifs at h ⊢ <;> exact roundNat_le mode (Nat.le_of_not_lt (of_decide_eq_false h))

/-! ### What is written in T2 (R33) -/

/-- The codes that the module writes in T2. -/
def IsWrittenT2 (k : Nat) : Prop := k = 0 ∨ k = 1 ∨ k = 3

theorem isWrittenT2_zero : IsWrittenT2 0 := .inl rfl

theorem isWrittenT2_narrowMax (neg : Bool) : IsWrittenT2 (narrowMax 1 neg) := by
  cases neg
  · exact .inr (.inl rfl)
  · exact .inr (.inr rfl)

/-- A magnitude of zero or one is written with its sign, in two's complement of two bits. -/
theorem isWrittenT2_narrowCode (neg : Bool) {k : Nat} (g : Int) (hk : k ≤ 1) : IsWrittenT2 (narrowCode 1 neg k g) := by
  obtain rfl | rfl : k = 0 ∨ k = 1 := by omega
  · exact isWrittenT2_zero
  · cases neg
    · exact .inr (.inl rfl)
    · exact .inr (.inr rfl)

/-- What does not saturate is at most 1, the largest T2 value, and T2's grid has step 1. -/
theorem isWrittenT2_narrowOfQuot (mode : Rnd) (q : Quot) : IsWrittenT2 (narrowOfQuot 1 mode q).1 := by
  by_cases hzero : q.num = 0
  · simpa [narrowOfQuot, hzero] using isWrittenT2_zero
  · cases hgt : q.gt 1 0 with
    | true => simpa [narrowOfQuot, hzero, maxMag, hgt] using isWrittenT2_narrowMax q.neg
    | false => simpa [narrowOfQuot, hzero, maxMag, hgt, narrowGrid] using isWrittenT2_narrowCode q.neg 0 (Quot.onGrid_le mode hgt)

/-- T2 has no NaN code, so a NaN is written as zero. -/
theorem isWrittenT2_convert (mode : Rnd) (x s : Val) : IsWrittenT2 (convert 1 mode x s).1 := by
  cases s with
  | nan => exact isWrittenT2_zero
  | fin sc =>
    cases x with
    | nan => exact isWrittenT2_zero
    | fin d =>
      simp only [convert]
      split_ifs
      · exact isWrittenT2_zero
      · exact isWrittenT2_narrowMax _
      · exact isWrittenT2_narrowOfQuot mode _

theorem isWrittenT2_of_mem_convertGroup {sf : Bool} {sc : Byte} {modes : List Rnd} {xs : List Val} {k : Nat × Flags}
    (hk : k ∈ convertGroup 1 sf sc modes xs) : IsWrittenT2 k.1 := by
  obtain ⟨⟨x, mode⟩, -, rfl⟩ := List.mem_map.1 hk
  exact isWrittenT2_convert mode x _

theorem isWrittenT2_of_mem_convertDyn {sf : Bool} {modes : List Rnd} {xs : List Val} {k : Nat × Flags}
    (hk : k ∈ (convertDyn 1 sf modes xs).2.1) : IsWrittenT2 k.1 := by
  simp only [convertDyn] at hk
  split at hk
  · obtain ⟨x, -, rfl⟩ := List.mem_map.1 hk
    exact isWrittenT2_zero
  · exact isWrittenT2_of_mem_convertGroup hk

/-! ### E8M0 scale codes (R41) -/

theorem scaleVal_e8m0_nan : scaleVal false 0xFF = (.nan, fNan) := rfl

theorem scaleVal_e8m0_of_ne {c : Byte} (hc : c ≠ 0xFF) : scaleVal false c = (.fin ⟨1, (c.toNat : Int) - 127⟩, {}) := by
  have hne : c.toNat ≠ 255 := fun h => hc (BitVec.eq_of_toNat_eq h)
  simp [scaleVal, hne]

/-- Under a NaN scale the element's code does not matter. -/
theorem scaled_nan_scale (e : Val × Flags) (f : Flags) : scaled e (.nan, f) = (.nan, fNan.join (e.2.join f)) := rfl

/-- Settles O29: T2 reads by its four codes; a conversion to T2 rounds a magnitude of at most one to at most one; a scale code is
NaN or not by its comparison with 0xFF. -/
theorem ternaryAndScaleCodes : Obligations.TernaryAndScaleCodes := by
  unfold Obligations.TernaryAndScaleCodes
  refine ⟨rfl, rfl, rfl, rfl, isWrittenT2_convert, fun _ _ _ _ hk => isWrittenT2_of_mem_convertDyn hk,
    fun _ hc => scaleVal_e8m0_of_ne hc, scaleVal_e8m0_nan, fun e => ?_⟩
  rw [scaleVal_e8m0_nan, scaled_nan_scale]
  exact ⟨rfl, rfl⟩

end Sys2Proof.Machine
end

section
/-!
PROOFS. Command packets: the numbers that stand in a packet laid out by Tables 14.3 and 14.5, and from these that the packet of a
command is read as that command.
-/
namespace Sys2Proof.Machine

/-! ### Numbers in byte strings (R5) -/

theorem leNat_leBytes (n v : Nat) : leNat (leBytes n v) = v % 256 ^ n := by
  induction n generalizing v with
  | zero => simp [leBytes, leNat, Nat.mod_one]
  | succ n ih =>
    have hstep : v % 256 ^ (n + 1) = v % 256 + 256 * (v / 256 % 256 ^ n) := by
      rw [Nat.pow_succ, Nat.mul_comm, Nat.mod_mul]
    simp [leBytes, leNat, ih, hstep]

theorem imgNum_append_right (xs ys : List Byte) (o n : Nat) : imgNum (xs ++ ys) (xs.length + o) n = imgNum ys o n := by
  simp [imgNum]

/-- Past a laid-out number. -/
theorem imgNum_leBytes_skip (m v o n : Nat) (ys : List Byte) : imgNum (leBytes m v ++ ys) (m + o) n = imgNum ys o n := by
  simpa using imgNum_append_right (leBytes m v) ys o n

/-- A laid-out number reads back. -/
theorem imgNum_leBytes (n v : Nat) (ys : List Byte) : imgNum (leBytes n v ++ ys) 0 n = v % 256 ^ n := by
  rw [imgNum, List.drop_zero, List.take_left' (leBytes_length n v), leNat_leBytes]

/-- Word `k` of laid-out words reads back. -/
theorem imgNum_words {words : List Nat} {k : Nat} (ys : List Byte) (hk : k < words.length) :
    imgNum (words.flatMap (leBytes 8) ++ ys) (8 * k) 8 = words.getD k 0 % 2 ^ 64 := by
  induction words generalizing k with
  | nil => exact absurd hk (Nat.not_lt_zero k)
  | cons w words ih =>
    rw [List.flatMap_cons, List.append_assoc]
    cases k with
    | zero => exact imgNum_leBytes 8 w _
    | succ k =>
      rw [Nat.mul_succ, Nat.add_comm, imgNum_leBytes_skip]
      simpa using ih (Nat.lt_of_succ_lt_succ hk)

theorem length_flatMap_leBytes (words : List Nat) : (words.flatMap (leBytes 8)).length = 8 * words.length := by
  simp [List.length_flatMap, Nat.mul_comm]

/-! ### The packet (Table 14.3) -/

/-- The parameters of a packet: its words, then what follows them. -/
def packetBody (words : List Nat) (more : List Byte) : List Byte := words.flatMap (leBytes 8) ++ more

/-- The slots the parameters fill. -/
def packetSlots (words : List Nat) (more : List Byte) : Nat := ceilDiv (packetBody words more).length 32

/-- A packet, its 32 header bytes field by field. -/
theorem packetOf_eq (op : Nat) (h : Hdr) (words : List Nat) (more : List Byte) :
    packetOf op h words more = leBytes 1 op ++ (leBytes 1 0x11 ++ (leBytes 2 (b2n h.fence + 2 * b2n h.hold + 4 * b2n h.inln) ++
      (leBytes 4 h.ctx ++ (leBytes 4 h.seq.toNat ++ (leBytes 2 (1 + packetSlots words more) ++ (leBytes 18 0 ++
      (words.flatMap (leBytes 8) ++ (more ++ List.replicate (32 * packetSlots words more - (packetBody words more).length) 0)))))))) := by
  simp [packetOf, packetBody, packetSlots, List.append_assoc]

section
variable (op : Nat) (h : Hdr) (words : List Nat) (more : List Byte)

theorem packetOf_length : (packetOf op h words more).length = 32 * (1 + packetSlots words more) := by
  have hbody : (packetBody words more).length ≤ 32 * packetSlots words more := by
    simp only [packetSlots, ceilDiv]; omega
  rw [packetOf_eq]
  simp [packetBody] at hbody ⊢
  omega

theorem packetOf_op : imgNum (packetOf op h words more) 0 1 = op % 256 := by
  rw [packetOf_eq, imgNum_leBytes, Nat.pow_one]

theorem packetOf_level : imgNum (packetOf op h words more) 1 1 = 0x11 := by
  rw [packetOf_eq]
  exact (imgNum_leBytes_skip 1 _ 0 _ _).trans (imgNum_leBytes _ _ _)

theorem packetOf_flags : imgNum (packetOf op h words more) 2 2 = b2n h.fence + 2 * b2n h.hold + 4 * b2n h.inln := by
  have hlt : b2n h.fence + 2 * b2n h.hold + 4 * b2n h.inln < 256 ^ 2 := by
    cases h.fence <;> cases h.hold <;> cases h.inln <;> decide
  rw [packetOf_eq]
  refine Eq.trans ?_ (Nat.mod_eq_of_lt hlt)
  rw [← imgNum_leBytes 2 _ _]
  exact (imgNum_leBytes_skip 1 _ 1 _ _).trans (imgNum_leBytes_skip 1 _ 0 _ _)

theorem packetOf_ctx : imgNum (packetOf op h words more) 4 4 = h.ctx % 2 ^ 32 := by
  rw [packetOf_eq]
  refine (imgNum_leBytes_skip 1 _ 3 _ _).trans ((imgNum_leBytes_skip 1 _ 2 _ _).trans ((imgNum_leBytes_skip 2 _ 0 _ _).trans ?_))
  exact imgNum_leBytes _ _ _

theorem packetOf_seq : imgNum (packetOf op h words more) 8 4 = h.seq.toNat := by
  rw [packetOf_eq]
  refine (imgNum_leBytes_skip 1 _ 7 _ _).trans ((imgNum_leBytes_skip 1 _ 6 _ _).trans ((imgNum_leBytes_skip 2 _ 4 _ _).trans
    ((imgNum_leBytes_skip 4 _ 0 _ _).trans ?_)))
  rw [imgNum_leBytes]
  exact Nat.mod_eq_of_lt h.seq.isLt

/-- Word `k` of the parameters. -/
theorem packetOf_word {k : Nat} (hk : k < words.length) :
    imgNum (packetOf op h words more) (32 + 8 * k) 8 = words.getD k 0 % 2 ^ 64 := by
  rw [packetOf_eq, ← imgNum_words _ hk]
  simp only [← List.append_assoc]
  simpa [List.append_assoc] using imgNum_append_right (leBytes 1 op ++ leBytes 1 0x11 ++ leBytes 2 (b2n h.fence + 2 * b2n h.hold + 4 * b2n h.inln) ++
    leBytes 4 h.ctx ++ leBytes 4 h.seq.toNat ++ leBytes 2 (1 + packetSlots words more) ++ leBytes 18 0) (words.flatMap (leBytes 8) ++ _) (8 * k) 8

/-- What follows the words. -/
theorem packetOf_more : ((packetOf op h words more).drop (32 + 8 * words.length)).take more.length = more := by
  rw [packetOf_eq]
  simp only [← List.append_assoc]
  rw [List.append_assoc, List.drop_left' (by simp; omega), List.take_left' rfl]

end

/-- The header of a packet that names a context reads back. -/
theorem hdrOf_packetOf (op : Nat) {h : Hdr} (hw : h.wf = true) (words : List Nat) (more : List Byte) :
    hdrOf h.fn h.page h.ring (packetOf op h words more) = h := by
  obtain ⟨fn, page, ring, seq, ctx, fence, hold, inln⟩ := h
  have hctx : ctx < 1024 := by simp [Hdr.wf] at hw; exact hw.2
  have hmod : ctx % 2 ^ 32 % 1024 = ctx := by omega
  simp only [hdrOf, packetOf_seq, packetOf_ctx, packetOf_flags, hmod, BitVec.ofNat_toNat, BitVec.setWidth_eq]
  cases fence <;> cases hold <;> cases inln <;> rfl

/-! ### Parts of a number in a byte string -/

theorem leNat_take (bs : List Byte) (n : Nat) : leNat (bs.take n) = leNat bs % 256 ^ n := by
  induction bs generalizing n with
  | nil => simp [leNat]
  | cons b bs ih =>
    cases n with
    | zero => simp [leNat, Nat.mod_one]
    | succ n =>
      have hb : b.toNat < 256 := b.isLt
      have hlow : (b.toNat + 256 * leNat bs) % 256 = b.toNat := by omega
      have hhigh : (b.toNat + 256 * leNat bs) / 256 = leNat bs := by omega
      rw [List.take_succ_cons, leNat, leNat, ih, Nat.pow_succ, Nat.mul_comm (256 ^ n), Nat.mod_mul, hlow, hhigh]

theorem leNat_drop (bs : List Byte) (n : Nat) : leNat (bs.drop n) = leNat bs / 256 ^ n := by
  induction bs generalizing n with
  | nil => simp [leNat]
  | cons b bs ih =>
    cases n with
    | zero => simp
    | succ n =>
      have hb : b.toNat < 256 := b.isLt
      have hhigh : (b.toNat + 256 * leNat bs) / 256 = leNat bs := by omega
      rw [List.drop_succ_cons, ih, leNat, Nat.pow_succ, Nat.mul_comm (256 ^ n), ← Nat.div_div_eq_div_mul, hhigh]

theorem imgNum_eq (bs : List Byte) (o n : Nat) : imgNum bs o n = leNat bs / 256 ^ o % 256 ^ n := by
  rw [imgNum, leNat_take, leNat_drop]

theorem imgNum_low (bs : List Byte) (o m n : Nat) : imgNum bs o m = imgNum bs o (m + n) % 256 ^ m := by
  rw [imgNum_eq, imgNum_eq, Nat.pow_add, Nat.mod_mul_right_mod]

theorem imgNum_high (bs : List Byte) (o m n : Nat) : imgNum bs (o + m) n = imgNum bs o (m + n) / 256 ^ m := by
  rw [imgNum_eq, imgNum_eq, Nat.pow_add, Nat.pow_add, ← Nat.div_div_eq_div_mul, Nat.mod_mul_right_div_self]

/-! ### Fields of a word -/

theorem bits_eq (v hi lo : Nat) : bits v hi lo = v / 2 ^ lo % 2 ^ (hi + 1 - lo) := by rw [bits, Nat.shiftRight_eq_div_pow]

/-- A flag is a one-bit number, so its bound is that of every field. -/
theorem b2n_eq (b : Bool) : b2n b = (BitVec.ofBool b).toNat := by cases b <;> rfl

theorem bit_eq_iff (v k : Nat) (b : Bool) : bit v k = b ↔ v / 2 ^ k % 2 = (BitVec.ofBool b).toNat := by
  have hbit : bit v k = decide (v / 2 ^ k % 2 = 1) := Nat.testBit_eq_decide_div_mod_eq
  cases b <;> simp [hbit]

theorem die_num_le (d : Die) : d.num ≤ 1 := by cases d <;> decide

theorem ofBit_of_mod_eq_num {d : Die} {n : Nat} (h : n % 2 = d.num) : Die.ofBit n = d := by
  cases d <;> simp_all [Die.ofBit, Die.num]

/-- Bytes that follow the words may be words themselves. -/
theorem packetOf_append_words (op : Nat) (h : Hdr) (words more : List Nat) :
    packetOf op h (words ++ more) [] = packetOf op h words (more.flatMap (leBytes 8)) := by
  simp [packetOf]

/-! ### Reading the command (R339, R344) -/

/-- An entry laid out in its eight words is read as that entry (Table 9.3). -/
theorem ocfgOf_ocfgWords (e : Ocfg) : ocfgOf ((ocfgWords e).flatMap (leBytes 8)) = e := by
  have hword (k : Nat) (hk : k < 8) : imgNum ((ocfgWords e).flatMap (leBytes 8)) (8 * k) 8 = (ocfgWords e).getD k 0 % 2 ^ 64 := by
    simpa using imgNum_words (words := ocfgWords e) [] hk
  have hlow (k : Nat) (hk : k < 8) := (imgNum_low ((ocfgWords e).flatMap (leBytes 8)) (8 * k) 4 4).trans (congrArg (· % 256 ^ 4) (hword k hk))
  have hhigh (k : Nat) (hk : k < 8) := (imgNum_high ((ocfgWords e).flatMap (leBytes 8)) (8 * k) 4 4).trans (congrArg (· / 256 ^ 4) (hword k hk))
  have hw := hword 0 (by decide)
  have hlr := hlow 1 (by decide)
  have hwd := hhigh 1 (by decide)
  have hb1 := hlow 2 (by decide)
  have hb2 := hhigh 2 (by decide)
  have heps := hlow 3 (by decide)
  have habsurd := hhigh 3 (by decide)
  obtain ⟨⟩ := e
  simp only [imgNum, Nat.reduceMul, Nat.reduceAdd, List.drop_zero] at hw hlr hwd hb1 hb2 heps habsurd
  simp only [ocfgOf, hw, hlr, hwd, hb1, hb2, heps, habsurd]
  simp [ocfgWords, bits_eq, b2n_eq, bit_eq_iff, ← BitVec.toNat_inj, -BitVec.toNat_ofBool]
  and_intros <;> omega

/-- An image that follows the words of an INLINE packet is read back whole. -/
theorem packetCmd_impLoad (m : Memory) {h : Hdr} {p : ImpLoadP} {image : List Byte}
    (hc : if h.inln then p.ha = 0 ∧ p.bytes.toNat = image.length else image = []) :
    packetCmd m h (packetOf 0x28 h [p.handle.toNat, p.ha.toNat, p.bytes.toNat, p.va.toNat] image) = some (.impLoad h p image) := by
  have hmore := packetOf_more 0x28 h [p.handle.toNat, p.ha.toNat, p.bytes.toNat, p.va.toNat] image
  obtain ⟨handle, ha, bytes, va⟩ := p
  have hbytes : bytes.toNat % 2 ^ 64 = bytes.toNat := Nat.mod_eq_of_lt bytes.isLt
  simp only [packetCmd, packetOf_op]
  cases hin : h.inln with
  | false =>
    have himage : image = [] := by simpa [hin] using hc
    simp [↓packetOf_word, ← BitVec.toNat_inj, himage]
    omega
  | true =>
    have hlen : bytes.toNat = image.length := by simp [hin] at hc; exact hc.2
    simp only [hlen] at hbytes hmore ⊢
    simp [↓packetOf_word, ← BitVec.toNat_inj, hlen] at hmore hbytes ⊢
    rw [Nat.mod_eq_of_lt hbytes, hmore]
    exact ⟨by omega, rfl⟩

/-- A stop set follows the words of its packet. -/
theorem packetCmd_stopsetSet (m : Memory) (h : Hdr) (index : W16) (va : W64) {data : List Byte} (hlen : data.length = 192) :
    packetCmd m h (packetOf 0x4D h [index.toNat, va.toNat] data) = some (.stopsetSet h index va data) := by
  have hmore := packetOf_more 0x4D h [index.toNat, va.toNat] data
  simp [packetCmd, packetOf_op, ↓packetOf_word, ← BitVec.toNat_inj, hlen] at hmore ⊢
  exact ⟨by omega, by omega, hmore⟩

theorem packetCmd_ocfgSet (m : Memory) (h : Hdr) (entry : Byte) (e : Ocfg) :
    packetCmd m h (packetOf 0x38 h (entry.toNat :: ocfgWords e) []) = some (.ocfgSet h entry e) := by
  have hbody : ((packetOf 0x38 h (entry.toNat :: ocfgWords e) []).drop 40).take 64 = (ocfgWords e).flatMap (leBytes 8) := by
    have hmore := packetOf_more 0x38 h [entry.toNat] ((ocfgWords e).flatMap (leBytes 8))
    rw [← packetOf_append_words] at hmore
    simpa [length_flatMap_leBytes, ocfgWords] using hmore
  simp [packetCmd, packetOf_op, ↓packetOf_word, ← BitVec.toNat_inj, hbody, ocfgOf_ocfgWords]
  omega

theorem packetCmd_packetBytes {m : Memory} {i : Instr} {pkt : List Byte} (hw : i.wf = true) (hc : packetCarried m i)
    (hp : packetBytes i = some pkt) : packetCmd m (packetHdr i) pkt = some i := by
  cases i <;> simp only [packetBytes, Option.some.injEq, reduceCtorEq] at hp <;> subst hp
  case impLoad h p image => exact packetCmd_impLoad m hc
  case ocfgSet h entry e => exact packetCmd_ocfgSet m h entry e
  case stopsetSet h index va data =>
    have hlen : data.length = 192 := by simp [Instr.wf] at hw; exact hw.2
    exact packetCmd_stopsetSet m h index va hlen
  case overlayApply h ovl ha image => 
    simp [packetHdr, packetCarried, packetCmd, packetOf_op, ↓packetOf_word, ← BitVec.toNat_inj] at hc ⊢
    exact ⟨by omega, by omega, by rw [Nat.mod_eq_of_lt ha.isLt, hc]⟩
  case debugUnlock h phase ha resp =>
    simp [packetHdr, packetCarried, packetCmd, packetOf_op, ↓packetOf_word, ← BitVec.toNat_inj, bit_eq_iff, b2n_eq, -BitVec.toNat_ofBool] at hc ⊢
    exact ⟨by omega, by omega, by rw [Nat.mod_eq_of_lt ha.isLt, hc]⟩
  case telemetryRead h p =>
    obtain ⟨block, clear, die, first, count, ha⟩ := p
    have hdie := die_num_le die
    simp [packetHdr, packetCmd, packetOf_op, ↓packetOf_word, ← BitVec.toNat_inj, bits_eq, bit_eq_iff, b2n_eq, -BitVec.toNat_ofBool]
    refine ⟨?_, ?_, ofBit_of_mod_eq_num ?_, ?_, ?_, ?_⟩ <;> omega
  case modelLoad h p image | ckptLoad h p image =>
    obtain ⟨⟩ := p
    obtain rfl : image = [] := hc
    simp [packetHdr, packetCmd, packetOf_op, ↓packetOf_word, bits_eq, b2n_eq, bit_eq_iff, ← BitVec.toNat_inj, -BitVec.toNat_ofBool]
    and_intros <;> omega
  case ctxCreate h p | oringSet h p | impRun h p | stepCmd h p step | fillDrain h p | gmodeSet h p | replicaSet h p | proofArm h p
      | captureArm h p | proofRecv h p | streamOpen h p | serve h p | partSet h p | domainSet h p | mapPages h va pages p =>
    obtain ⟨⟩ := p
    simp [packetHdr, packetCmd, packetOf_op, ↓packetOf_word, runWords, runOf, streamOpenWords, streamOpenOf, partSetOf, partSetWords,
      bits_eq, b2n_eq, bit_eq_iff, ← BitVec.toNat_inj, -BitVec.toNat_ofBool]
    and_intros <;> omega
  case nopCmd | ctxDestroy | preempt => simp [packetHdr, packetCmd, packetOf_op]
  all_goals
    simp [packetHdr, packetCmd, packetOf_op, ↓packetOf_word, bits_eq, b2n_eq, bit_eq_iff, ← BitVec.toNat_inj, -BitVec.toNat_ofBool]
    omega

/-- The packet of a command is laid out under its header. -/
theorem packetBytes_eq_packetOf {i : Instr} {pkt : List Byte} (hp : packetBytes i = some pkt) :
    ∃ op words more, pkt = packetOf op (packetHdr i) words more := by
  cases i <;> simp only [packetBytes, Option.some.injEq, reduceCtorEq] at hp <;> exact ⟨_, _, _, hp.symm⟩

theorem packetHdr_wf {i : Instr} {pkt : List Byte} (hw : i.wf = true) (hp : packetBytes i = some pkt) : (packetHdr i).wf = true := by
  cases i <;> simp only [packetBytes, reduceCtorEq] at hp <;> simp_all [Instr.wf, packetHdr]

/-- Settles O5: each word of the packet is read back at its place, and each field at its bits of the word. -/
theorem packetDecodeOfEncode : Obligations.PacketDecodeOfEncode := by
  unfold Obligations.PacketDecodeOfEncode
  intro m i pkt hw hc hp
  obtain ⟨op, words, more, rfl⟩ := packetBytes_eq_packetOf hp
  refine ⟨hdrOf_packetOf op (packetHdr_wf hw hp) words more, packetCmd_packetBytes hw hc hp, ?_⟩
  rw [packetOf_length, Nat.mul_mod_right]

end Sys2Proof.Machine
end

section
/-!
PROOFS. The checks of R340 on a packet laid out by the tables: a reserved bit stands in no field, and the packet fills the slots that
its opcode asks for.
-/
namespace Sys2Proof.Machine

/-! ### Named bits -/

/-- Every bit of a number is one of the named ones. -/
def Named (named v : Nat) : Prop := ∀ i, v.testBit i = true → named.testBit i = true

theorem Named.le {a v : Nat} (h : Named a v) : v ≤ a := Nat.le_of_testBit h

theorem Named.mono {a b v : Nat} (h : Named a v) (hab : a &&& b = a) : Named b v := by
  intro i hi
  have hboth : (a &&& b).testBit i = true := by rw [hab]; exact h i hi
  simp at hboth
  exact hboth.2

theorem named_zero (a : Nat) : Named a 0 := by intro i hi; simp at hi

theorem named_of_lt {v k : Nat} (h : v < 2 ^ k) : Named (2 ^ k - 1) v := by
  intro i hi
  simp only [Nat.testBit_two_pow_sub_one, decide_eq_true_eq]
  by_contra hge
  rw [Nat.testBit_lt_two_pow (h.trans_le (Nat.pow_le_pow_right (by decide) (Nat.le_of_not_lt hge)))] at hi
  exact Bool.false_ne_true hi

theorem named_toNat {w : Nat} (x : BitVec w) : Named (2 ^ w - 1) x.toNat := named_of_lt x.isLt

theorem named_b2n (b : Bool) : Named 1 (b2n b) := by rw [b2n_eq]; exact named_toNat (BitVec.ofBool b)

theorem named_num (d : Die) : Named 1 d.num := by
  cases d with
  | w => exact named_zero 1
  | e => exact fun _ hi => hi

theorem Named.shift {a v : Nat} (k : Nat) (h : Named a v) : Named (2 ^ k * a) (2 ^ k * v) := by
  intro i hi
  simp only [Nat.testBit_two_pow_mul, Bool.and_eq_true, decide_eq_true_eq] at hi ⊢
  exact ⟨hi.1, h _ hi.2⟩

/-- A field above those below it. -/
theorem Named.add {a b v w : Nat} (k : Nat) (hv : Named a v) (hw : Named b w) (ha : a < 2 ^ k) : Named (2 ^ k * b ||| a) (v + 2 ^ k * w) := by
  intro i hi
  rw [Nat.add_comm, Nat.two_pow_add_eq_or_of_lt (hv.le.trans_lt ha), Nat.testBit_or, Bool.or_eq_true] at hi
  rw [Nat.testBit_or, Bool.or_eq_true]
  exact hi.imp (hw.shift k i) (hv i)

/-! ### Reserved fields (R340 step 7) -/

theorem reservedField_of_named {a v : Nat} (h : Named a (v % 2 ^ 64)) : reservedField a v = none := by
  have hnone : (List.range 64).find? (fun i => bit v i && !bit a i) = none := by
    rw [List.find?_eq_none]
    intro i hi
    have hbit := h i
    simp only [Nat.testBit_mod_two_pow, List.mem_range.1 hi, decide_true, Bool.true_and] at hbit
    simpa [bit] using hbit
  simp [reservedField, hnone]

theorem Named.mod {a v k : Nat} (h : Named a v) : Named a (v % 2 ^ k) := by
  intro i hi
  simp only [Nat.testBit_mod_two_pow, Bool.and_eq_true] at hi
  exact h i hi.2

theorem named_allBits (v : Nat) : Named allBits (v % 2 ^ 64) := named_of_lt (Nat.mod_lt _ (by decide))

/-- Words of named bits alone, with whole words after them, hold no reserved bit. -/
theorem paramReserved_packetOf (op : Nat) (h : Hdr) {words names : List Nat} (more : List Byte) (k : Nat)
    (hn : List.Forall₂ Named names words) : paramReserved (packetOf op h words more) (names ++ List.replicate k allBits) = none := by
  rw [paramReserved, List.findSome?_eq_none_iff]
  rintro ⟨a, j⟩ hj
  obtain ⟨hjlt, ha⟩ := List.mem_zipIdx_iff_getElem?.1 hj |> List.getElem?_eq_some_iff.1
  simp only [Option.map_eq_none_iff]
  apply reservedField_of_named
  by_cases hlt : j < words.length
  · rw [packetOf_word _ _ _ _ hlt, Nat.mod_mod]
    have hltn : j < names.length := by rw [hn.length_eq]; exact hlt
    have hget := (List.forall₂_iff_get.1 hn).2 j hltn hlt
    simp [List.getElem_append_left, hltn] at ha hget
    subst ha
    simpa [List.getD, hlt] using hget.mod (k := 64)
  · have hge : names.length ≤ j := by rw [hn.length_eq]; omega
    simp [List.getElem_append_right, hge] at ha
    subst ha
    exact named_allBits _

/-! ### The header (Table 14.3) -/

section
variable (op : Nat) (h : Hdr) (words : List Nat) (more : List Byte)

theorem packetOf_len : imgNum (packetOf op h words more) 12 2 = (1 + packetSlots words more) % 2 ^ 16 := by
  rw [packetOf_eq]
  refine (imgNum_leBytes_skip 1 _ 11 _ _).trans ((imgNum_leBytes_skip 1 _ 10 _ _).trans ((imgNum_leBytes_skip 2 _ 8 _ _).trans
    ((imgNum_leBytes_skip 4 _ 4 _ _).trans ((imgNum_leBytes_skip 4 _ 0 _ _).trans ?_))))
  exact imgNum_leBytes _ _ _

theorem packetOf_reserved : imgNum (packetOf op h words more) 14 18 = 0 := by
  rw [packetOf_eq]
  refine (imgNum_leBytes_skip 1 _ 13 _ _).trans ((imgNum_leBytes_skip 1 _ 12 _ _).trans ((imgNum_leBytes_skip 2 _ 10 _ _).trans
    ((imgNum_leBytes_skip 4 _ 6 _ _).trans ((imgNum_leBytes_skip 4 _ 2 _ _).trans ((imgNum_leBytes_skip 2 _ 0 _ _).trans ?_)))))
  exact imgNum_leBytes _ _ _

end

theorem headReserved_packetOf (op : Nat) {h : Hdr} (hw : h.wf = true) (words : List Nat) (more : List Byte) :
    headReserved (packetOf op h words more) = none := by
  have hctx : h.ctx < 1024 := by simp [Hdr.wf] at hw; exact hw.2
  have hctx' : h.ctx % 2 ^ 32 / 1024 = 0 := by omega
  have hflags : (b2n h.fence + 2 * b2n h.hold + 4 * b2n h.inln) / 8 = 0 := by
    cases h.fence <;> cases h.hold <;> cases h.inln <;> rfl
  have hlow := imgNum_low (packetOf op h words more) 14 2 16
  have hhigh := imgNum_high (packetOf op h words more) 14 2 16
  rw [packetOf_reserved] at hlow hhigh
  simp only [headReserved, packetOf_flags, packetOf_ctx, hctx', hflags, hlow, hhigh]
  rfl

/-! ### The packet of a command (Table 14.5) -/

/-- An address word is a context address where a flag of word 0 says so, else any address (R344). -/
theorem named_addrWord (op : Nat) (h : Hdr) {words : List Nat} {more : List Byte} {w k : Nat} {b : Bool} {addr : W64}
    (hb : w % 2 ^ 64 / 2 ^ k % 2 = (BitVec.ofBool b).toNat) (ha : b = true → addr.toNat < 2 ^ 48) :
    Named (if bit (imgNum (packetOf op h (w :: words) more) 32 8) k then vaBits else allBits) addr.toNat := by
  have hbit : bit (imgNum (packetOf op h (w :: words) more) 32 8) k = b := by
    rw [bit_eq_iff]
    exact (congrArg (· / 2 ^ k % 2) (packetOf_word op h (w :: words) more (k := 0) (by simp))).trans hb
  rw [hbit]
  cases b with
  | false => exact named_toNat addr
  | true => exact named_of_lt (ha rfl)

/-- A packet laid out for an opcode of Table 14.5: the named bits of the opcode's row cover the packet's words, and the whole words the row
has beyond them follow the packet's words. -/
def LaidOut (h : Hdr) (pkt : List Byte) : Prop :=
  ∃ op words more r names k, pkt = packetOf op h words more ∧ op < 256 ∧ opRow op h.inln (imgNum pkt 32 8) = some r ∧
    r.words = names ++ List.replicate k allBits ∧ List.Forall₂ Named names words ∧ 8 * k ≤ more.length

theorem laidOut_of_words {op : Nat} {h : Hdr} {words : List Nat} {more : List Byte} {r : OpRow} 
    (hrow : opRow op h.inln (imgNum (packetOf op h words more) 32 8) = some r) (hn : List.Forall₂ Named r.words words)
    (hop : op < 256 := by decide) : LaidOut h (packetOf op h words more) :=
  ⟨op, words, more, r, r.words, 0, rfl, hop, hrow, (List.append_nil _).symm, hn, Nat.zero_le _⟩

/-- The packet of a command is laid out for its opcode. -/
theorem packetBytes_laidOut {m : Memory} {i : Instr} {pkt : List Byte} (hw : i.wf = true) (hc : packetCarried m i) (hva : vaWordsOk i)
    (hp : packetBytes i = some pkt) : LaidOut (packetHdr i) pkt := by
  cases i <;> simp only [packetBytes, Option.some.injEq, reduceCtorEq] at hp <;> subst hp
  case capQuery h ha | ctxQuery h ha => exact laidOut_of_words rfl (.cons (named_toNat ha) .nil)
  case levelSet h level => exact laidOut_of_words rfl (.cons (named_toNat level) .nil)
  case nopCmd | ctxDestroy | preempt => exact laidOut_of_words rfl .nil
  case ctxCreate h p =>
    exact laidOut_of_words rfl (.cons ((((named_toNat p.part).add 8 (named_b2n p.latency) (by decide)).add 9 (named_b2n p.rbwFault) (by decide)).mono rfl)
      (.cons (named_toNat _) (.cons (named_toNat _) (.cons (named_toNat _) (.cons (named_toNat _) (.cons (named_toNat _)
        (.cons (named_toNat _) .nil)))))))
  case ctxMove h part latency => exact laidOut_of_words rfl (.cons (((named_toNat part).add 8 (named_b2n latency) (by decide)).mono rfl) .nil)
  case vfBind h vf => exact laidOut_of_words rfl (.cons (named_toNat vf) .nil)
  case oringSet h p =>
    exact laidOut_of_words rfl (.cons (((((named_toNat p.ring).add 8 (named_b2n p.kind) (by decide)).add 16 (named_toNat p.log2) (by decide)).add 32
      (named_toNat p.vector) (by decide)).mono rfl) (.cons (named_toNat _) (.cons (named_toNat _) .nil)))
  case mapPages h va pages a =>
    exact laidOut_of_words rfl (.cons (named_of_lt hva) (.cons (named_toNat _) (.cons (((((((named_toNat a.place).add 4 (named_toNat a.salt)
      (by decide)).add 8 (named_b2n a.keysel) (by decide)).add 9 (named_b2n a.pair) (by decide)).add 10 (named_b2n a.ro) (by decide)).add 16
      (named_toNat a.pset) (by decide)).mono rfl) .nil)))
  case unmapPages h va pages => exact laidOut_of_words rfl (.cons (named_of_lt hva) (.cons (named_toNat _) .nil))
  case grantModel h model g va =>
    exact laidOut_of_words rfl (.cons (((named_toNat model).add 16 (named_toNat g) (by decide)).mono rfl) (.cons (named_of_lt hva) .nil))
  case modelLoad h p image =>
    exact laidOut_of_words rfl (.cons (((((named_toNat p.model).add 16 (named_b2n p.pin) (by decide)).add 17 (named_b2n p.srcPeer)
      (by decide)).add 18 (named_toNat p.peer) (by decide)).mono rfl) (.cons (named_addrWord _ h (by simp only [b2n_eq]; omega) hva)
      (.cons (named_toNat _) (.cons (named_toNat _) .nil))))
  case modelPin h model pin => exact laidOut_of_words rfl (.cons (((named_toNat model).add 16 (named_b2n pin) (by decide)).mono rfl) .nil)
  case modelEvict h model => exact laidOut_of_words rfl (.cons (named_toNat model) .nil)
  case streamClose h k | streamPark h k | streamUnpark h k => exact laidOut_of_words rfl (.cons (named_toNat k) .nil)
  case impLoad h p image =>
    refine laidOut_of_words rfl (.cons (named_toNat p.handle) (.cons ?_ (.cons (named_toNat _) (.cons (named_of_lt hva) .nil))))
    cases hin : h.inln with
    | false => simp only [packetHdr, hin]; exact named_toNat p.ha
    | true =>
      have hha : p.ha = 0 := by simp [packetCarried, hin] at hc; exact hc.1
      rw [hha]
      exact named_zero _
  case impRun h p =>
    exact laidOut_of_words rfl (.cons (named_toNat p.handle) (.cons (((named_toNat p.wEntry).add 32 (named_toNat p.eEntry) (by decide)).mono rfl)
      (.cons (named_toNat _) .nil)))
  case stepCmd h p step =>
    exact laidOut_of_words rfl (.cons (named_toNat p.handle) (.cons (((named_toNat p.wEntry).add 32 (named_toNat p.eEntry) (by decide)).mono rfl)
      (.cons (named_toNat _) (.cons (named_toNat step) .nil))))
  case commitCmd h step | abortCmd h step => exact laidOut_of_words rfl (.cons (named_toNat step) .nil)
  case fillDrain h p =>
    exact laidOut_of_words rfl (.cons (((named_toNat p.handle).add 16 (named_toNat p.m) (by decide)).mono rfl)
      (.cons (((named_toNat p.fwd).add 32 (named_toNat p.bwd) (by decide)).mono rfl) (.cons (named_toNat _) (.cons (named_toNat p.step) .nil))))
  case ocfgSet h entry e =>
    exact laidOut_of_words rfl (.cons (named_toNat entry) (.cons ((((((((named_toNat e.rule).add 4 (named_b2n e.nest) (by decide)).add 5
      (named_b2n e.bc) (by decide)).add 6 (named_toNat e.rnd) (by decide)).add 8 (named_toNat e.wfmt) (by decide)).add 12
      (named_toNat e.wscl) (by decide)).add 16 (named_b2n e.valid) (by decide)).mono rfl)
      (.cons (((named_toNat e.lr).add 32 (named_toNat e.wd) (by decide)).mono rfl) (.cons (((named_toNat e.b1).add 32 (named_toNat e.b2)
      (by decide)).mono rfl) (.cons (((named_toNat e.eps).add 32 (named_toNat e.absurd) (by decide)).mono rfl) (.cons (named_zero 0)
      (.cons (named_zero 0) (.cons (named_zero 0) (.cons (named_zero 0) .nil)))))))))
  case lsSet h e interval =>
    exact laidOut_of_words rfl (.cons (((named_toNat e).add 16 (named_toNat interval) (by decide)).mono rfl) .nil)
  case gmodeSet h p =>
    exact laidOut_of_words rfl (.cons (((((named_toNat p.nstart).add 8 (named_toNat p.latLimit) (by decide)).add 16 (named_b2n p.noPerLayer)
      (by decide)).add 32 (named_toNat p.mib) (by decide)).mono rfl) (.cons (named_toNat p.maxNorm) (.cons (named_toNat p.normBase) .nil)))
  case replicaSet h p =>
    exact laidOut_of_words rfl (.cons ((((named_toNat p.vgroup).add 12 (named_toNat p.shards) (by decide)).add 24 (named_toNat p.stragSteps)
      (by decide)).mono rfl) (.cons (named_toNat p.stragMs) .nil))
  case proofArm h p =>
    exact laidOut_of_words rfl (.cons (((((((named_toNat p.n).add 16 (named_b2n p.allArr) (by decide)).add 17 (named_b2n p.destPeer)
      (by decide)).add 18 (named_toNat p.peer) (by decide)).add 28 (named_toNat p.peerCtx) (by decide)).add 38 (named_toNat p.evRing)
      (by decide)).mono rfl) (.cons (named_addrWord _ h (by simp only [b2n_eq]; omega) hva) (.cons (named_toNat p.psetVa)
      (.cons (named_toNat _) .nil))))
  case checkpoint h ha avail => exact laidOut_of_words rfl (.cons (named_toNat ha) (.cons (named_toNat avail) .nil))
  case ckptLoad h p image =>
    exact laidOut_of_words rfl (.cons (((named_b2n p.srcPeer).add 1 (named_toNat p.peer) (by decide)).mono rfl)
      (.cons (named_addrWord _ h (by simp only [b2n_eq]; omega) hva) (.cons (named_toNat _) .nil)))
  case captureArm h p =>
    exact laidOut_of_words rfl (.cons (named_toNat p.step) (.cons (named_toNat p.tokVa) (.cons (named_toNat _) (.cons (named_toNat p.areaVa)
      (.cons (named_toNat _) (.cons (named_toNat p.psetVa) (.cons (named_toNat _) .nil)))))))
  case reprint h va => exact laidOut_of_words rfl (.cons (named_of_lt hva) .nil)
  case proofRecv h p =>
    exact laidOut_of_words rfl (.cons ((((named_b2n p.destVa).add 1 (named_toNat p.source) (by decide)).add 11 (named_toNat p.evRing)
      (by decide)).mono rfl) (.cons (named_addrWord _ h (by simp only [b2n_eq]; omega) hva) (.cons (named_toNat _) .nil)))
  case streamOpen h p =>
    exact laidOut_of_words rfl (.cons ((((((((named_toNat p.postn).shift 13).add 17 (named_b2n p.latency) (by decide)).add 18
      (named_b2n p.switched) (by decide)).add 19 (named_toNat p.sclass) (by decide)).add 32 (named_toNat p.model) (by decide)).add 48
      (named_toNat p.fallback) (by decide)).mono rfl) (.cons (named_toNat _) (.cons ((((named_toNat p.maxLen).shift 18).add 35
      (named_toNat p.expect) (by decide)).mono rfl) (.cons (((named_toNat p.btab).add 48 (named_toNat p.stopset) (by decide)).mono rfl)
      (.cons ((named_toNat p.tokLog).mono rfl) (.cons ((((named_toNat p.cookie).add 39 (named_toNat p.prompt) (by decide)).add 56
      (named_toNat p.outRing) (by decide)).mono rfl) (.cons (named_zero _) (.cons (((named_toNat p.user).add 63 (named_b2n p.stopReq)
      (by decide)).mono rfl) .nil))))))))
  case streamQuery h k ha => exact laidOut_of_words rfl (.cons (named_toNat k) (.cons (named_toNat ha) .nil))
  case stopsetSet h index va data =>
    have hlen : data.length = 192 := by simp [Instr.wf] at hw; exact hw.2
    exact ⟨_, _, _, _, [0xFFFF, vaBits], 24, rfl, by decide, rfl, rfl, .cons (named_toNat index) (.cons (named_of_lt hva) .nil), by omega⟩
  case serve h p =>
    exact laidOut_of_words rfl (.cons ((((named_toNat p.count).add 32 (named_toNat p.decMax) (by decide)).add 44 (named_toNat p.chunk)
      (by decide)).mono rfl) (.cons (named_toNat p.pfMax) .nil))
  case partSet h p =>
    exact laidOut_of_words rfl (.cons (named_toNat p.part) (.cons (((((named_toNat p.semBase).add 6 (named_toNat p.semCnt) (by decide)).add 16
      (named_toNat p.tagBase) (by decide)).add 22 (named_toNat p.tagCnt) (by decide)).mono rfl) (.cons (named_toNat p.ptW)
      (.cons (named_toNat p.ptE) (.cons (named_toNat p.te) (.cons (((named_toNat p.su).add 32 (named_toNat p.uu) (by decide)).mono rfl)
      (.cons (named_toNat p.share) (.cons ((((named_toNat p.killLimit).shift 20).add 24 (named_toNat p.sliceMs) (by decide)).mono rfl)
      .nil))))))))
  case lockAcquire h lock | lockRelease h lock => exact laidOut_of_words rfl (.cons (named_toNat lock) .nil)
  case domainSet h p =>
    exact laidOut_of_words rfl (.cons ((((((((named_toNat p.moduleId).add 12 (named_toNat p.dx) (by decide)).add 16 (named_toNat p.dy)
      (by decide)).add 20 (named_toNat p.dz) (by decide)).add 24 (named_toNat p.epoch) (by decide)).add 32 (named_toNat p.root)
      (by decide)).add 42 (named_toNat p.backup) (by decide)).mono rfl) (.cons (named_toNat p.src) .nil))
  case overlayApply h ovl ha image => exact laidOut_of_words rfl (.cons (named_toNat ovl) (.cons (named_toNat ha) .nil))
  case powerLimit h watts sprint =>
    exact laidOut_of_words rfl (.cons (((named_toNat watts).add 16 (named_b2n sprint) (by decide)).mono rfl) .nil)
  case telemetryRead h p =>
    exact laidOut_of_words rfl (.cons ((((((named_toNat p.block).add 8 (named_b2n p.clear) (by decide)).add 9 (named_num p.die) (by decide)).add 16
      (named_toNat p.first) (by decide)).add 32 (named_toNat p.count) (by decide)).mono rfl) (.cons (named_toNat p.ha) .nil))
  case debugUnlock h phase ha resp => exact laidOut_of_words rfl (.cons (named_b2n phase) (.cons (named_toNat ha) .nil))

/-! ### The checks (R340) -/

theorem rightsOk_of_taken {c : Chip} {h : Hdr} {pf need : Bool} (ht : Taken c h pf need) : c.rightsOk h pf = true := by
  obtain ⟨hpf | ⟨hpf, hbound⟩, -⟩ := ht
  · simp [Chip.rightsOk, hpf]
  · simp [Chip.rightsOk, hpf, hbound]

theorem minLen_le_of_laidOut {names words : List Nat} {k : Nat} {more : List Byte} {r : OpRow} (hr : r.words = names ++ List.replicate k allBits)
    (hn : List.Forall₂ Named names words) (hk : 8 * k ≤ more.length) : r.minLen ≤ 1 + packetSlots words more := by
  have hlen := hn.length_eq
  simp only [OpRow.minLen, hr, packetSlots, packetBody, ceilDiv, List.length_append, List.length_replicate, length_flatMap_leBytes]
  omega

/-- A laid-out packet passes the checks when its function and its flags let it. -/
theorem packetCheck_of_laidOut {c : Chip} {h : Hdr} {pkt : List Byte} (hl : LaidOut h pkt) (hw : h.wf = true)
    (hlen : pkt.length ≤ 32 * 32768) (hlevel : (tget {} c.vfs h.fn : Vf).level = 1)
    (htaken : ∀ r, opRow (imgNum pkt 0 1) h.inln (imgNum pkt 32 8) = some r → Taken c h r.pf r.needCtx)
    (hhold : h.hold = true → imgNum pkt 0 1 = 0x30 ∨ imgNum pkt 0 1 = 0x33) (hinln : h.inln = true → imgNum pkt 0 1 = 0x28) :
    c.packetCheck h pkt = none := by
  obtain ⟨op, words, more, r, names, k, rfl, hop, hrow, hwords, hn, hk⟩ := hl
  have hop' : imgNum (packetOf op h words more) 0 1 = op := by rw [packetOf_op, Nat.mod_eq_of_lt hop]
  rw [hop'] at htaken hhold hinln
  have ht := htaken r hrow
  have hfree : (r.needCtx && decide ((c.ctx h.ctx).st = .free)) = false := by
    cases hneed : r.needCtx with
    | false => rfl
    | true => simpa using ht.2 hneed
  have hslots : (1 + packetSlots words more) % 2 ^ 16 = 1 + packetSlots words more ∧ 1 + packetSlots words more ≤ 32768 := by
    rw [packetOf_length] at hlen; omega
  have hmin : ¬ 1 + packetSlots words more < r.minLen := Nat.not_lt.2 (minLen_le_of_laidOut hwords hn hk)
  have hparam : paramReserved (packetOf op h words more) r.words = none := by
    rw [hwords]; exact paramReserved_packetOf op h more k hn
  have hflags : ((h.hold && decide (op ≠ 0x30) && decide (op ≠ 0x33)) || (h.inln && decide (op ≠ 0x28))) = false := by
    have hholdOk : h.hold = false ∨ op = 0x30 ∨ op = 0x33 := (Bool.eq_false_or_eq_true h.hold).symm.imp_right hhold
    have hinlnOk : h.inln = false ∨ op = 0x28 := (Bool.eq_false_or_eq_true h.inln).symm.imp_right hinln
    simp only [Bool.or_eq_false_iff, Bool.and_eq_false_iff, decide_eq_false_iff_not, not_not]
    exact ⟨or_assoc.2 hholdOk, hinlnOk⟩
  simp only [Chip.packetCheck, hop', hrow, packetOf_level, packetOf_len, hslots.1, hlevel, rightsOk_of_taken ht, hfree, hmin,
    headReserved_packetOf op hw, hparam, hflags, Nat.not_lt.2 hslots.2]
  simp

/-- Settles O6: the packet is laid out for its opcode, so it has no reserved bit, the slots it needs, and what R340 asks for besides is assumed. -/
theorem encodedPacketPassesItsChecks : Obligations.EncodedPacketPassesItsChecks := by
  unfold Obligations.EncodedPacketPassesItsChecks
  intro c i pkt hw hp hc hva hlen hlevel htaken hhold hinln
  exact packetCheck_of_laidOut (packetBytes_laidOut hw hc hva hp) (packetHdr_wf hw hp) hlen hlevel htaken hhold hinln

end Sys2Proof.Machine
end

section
/-!
PROOFS. A take reads the packet at the head of a ring (R336).
-/
namespace Sys2Proof.Machine

/-- The take of a packet that fills one slot, all of it before TAIL. -/
theorem takeAt_of_oneSlot {c : Chip} {n r : Nat} {i : Instr} {pkt : List Byte} (hp : packetBytes i = some pkt) (hlen : pkt.length = 32)
    (hpkt : (c.ring n r).packet c.host 1 = pkt) (hwait : 1 ≤ (c.ring n r).waiting) :
    c.takeAt n r = ((c.modRing n r (fun g => { g with head := BitVec.ofNat 32 ((g.head.toNat + 1) % g.slots), fenceOn := none })).modCtx n
      (fun x => { x with ringLast := r })).packet (hdrOf (c.fnOf n) n r pkt) pkt := by
  have hone : (c.ring n r).packetLen c.host = 1 := by
    obtain ⟨op, words, more, rfl⟩ := packetBytes_eq_packetOf hp
    have hslots : packetSlots words more = 0 := by rw [packetOf_length] at hlen; omega
    rw [Ring.packetLen, hpkt, packetOf_len, hslots]
    rfl
  simp only [Chip.takeAt, hone, hpkt, Nat.not_lt.2 hwait, if_false]
  rfl

theorem hdrOf_packetBytes {i : Instr} {pkt : List Byte} {fn page ring : Nat} (hw : i.wf = true) (hp : packetBytes i = some pkt)
    (hh : packetHdr i = { packetHdr i with fn := fn, page := page, ring := ring }) : hdrOf fn page ring pkt = packetHdr i := by
  have hhdr := packetHdr_wf hw hp
  obtain ⟨op, words, more, rfl⟩ := packetBytes_eq_packetOf hp
  have hread := hdrOf_packetOf op hhdr words more
  rw [hh] at hread ⊢
  exact hread

/-- Settles O7: the packet at HEAD is the command's, so it is read as the command and carried out. -/
theorem takeCarriesOutThePacket : Obligations.TakeCarriesOutThePacket := by
  unfold Obligations.TakeCarriesOutThePacket
  intro c n r i pkt g hp hlen hw hc hh hpkt hwait c1 hcheck
  have hcmd : packetCmd c1.host (packetHdr i) pkt = some i := packetCmd_packetBytes hw hc hp
  rw [takeAt_of_oneSlot hp hlen hpkt hwait, hdrOf_packetBytes hw hp hh]
  change c1.packet (packetHdr i) pkt = c1.carryCmd i
  simp only [Chip.packet, hcheck, hcmd]

end Sys2Proof.Machine
end

section
/-!
PROOFS. Byte stores: what a written run of bytes reads as, when two stores are the same, and what a zeroed page reads as.
-/
namespace Sys2Proof.Machine

/-! ### Written bytes -/

theorem mget_mwrite_outside {m : Memory} {a k : Nat} {bs : List Byte} (h : k < a ∨ a + bs.length ≤ k) :
    mget (mwrite m a bs) k = mget m k := by
  induction bs generalizing m a with
  | nil => rfl
  | cons b bs ih =>
    rw [List.length_cons] at h
    rw [mwrite, ih (by omega), mget_mput_ne (by omega)]

theorem mget_mwrite_inside {m : Memory} {a i : Nat} {bs : List Byte} (hw : m.wf = true) (hi : i < bs.length) :
    mget (mwrite m a bs) (a + i) = bs[i] := by
  induction bs generalizing m a i with
  | nil => exact absurd hi (Nat.not_lt_zero i)
  | cons b bs ih =>
    cases i with
    | zero => rw [mwrite, mget_mwrite_outside (by omega)]; exact mget_mput_same hw
    | succ i =>
      rw [mwrite, show a + (i + 1) = a + 1 + i by omega]
      simpa using ih (wf_mput hw) (Nat.lt_of_succ_lt_succ hi)

/-- Written bytes read back. -/
theorem mread_mwrite {m : Memory} (hw : m.wf = true) (a : Nat) (bs : List Byte) : mread (mwrite m a bs) a bs.length = bs := by
  refine List.ext_getElem (by simp [mread]) fun i hi _ => ?_
  have hlt : i < bs.length := by simpa [mread] using hi
  simp [mread, mget_mwrite_inside hw hlt]

/-! ### The canonical form is unique -/

section
variable {α : Type} [DecidableEq α] {d : α}

omit [DecidableEq α] in
theorem tget_cons_self {k : Nat} {v : α} {t : Tab α} : tget d ((k, v) :: t) k = v := by simp [tget]

/-- The first key of a canonical table is the least that a table of the same contents lists. -/
theorem key_le_of_tget_eq {t t' : Tab α} {lo k k' : Nat} {v v' : α} (hw : Tab.wfFrom d lo ((k, v) :: t) = true)
    (hw' : Tab.wfFrom d lo ((k', v') :: t') = true) (h : ∀ n, tget d ((k, v) :: t) n = tget d ((k', v') :: t') n) : k' ≤ k := by
  by_contra hlt
  have hrest : Tab.wfFrom d k' ((k', v') :: t') = true := by
    simp only [Tab.wfFrom, Bool.and_eq_true, decide_eq_true_eq] at hw' ⊢
    exact ⟨⟨le_refl k', hw'.1.2⟩, hw'.2⟩
  have hv : v = d := by
    have hk := h k
    rwa [tget_cons_self, tget_of_lt_wfFrom hrest (by omega)] at hk
  simp [Tab.wfFrom, hv] at hw

/-- Canonical tables of the same contents are equal. -/
theorem eq_of_tget_eq {t t' : Tab α} {lo : Nat} (hw : Tab.wfFrom d lo t = true) (hw' : Tab.wfFrom d lo t' = true)
    (h : ∀ n, tget d t n = tget d t' n) : t = t' := by
  have hnil {lo : Nat} {k : Nat} {v : α} {t : Tab α} (hw : Tab.wfFrom d lo ((k, v) :: t) = true) (h : ∀ n, tget d ((k, v) :: t) n = d) :
      False := by
    have hv := (tget_cons_self (d := d) (t := t) (v := v)).symm.trans (h k)
    simp [Tab.wfFrom, hv] at hw
  induction t generalizing t' lo with
  | nil =>
    cases t' with
    | nil => rfl
    | cons kv t' => exact (hnil hw' fun n => (h n).symm).elim
  | cons kv t ih =>
    obtain ⟨k, v⟩ := kv
    cases t' with
    | nil => exact (hnil hw h).elim
    | cons kv' t' =>
      obtain ⟨k', v'⟩ := kv'
      obtain rfl : k = k' := le_antisymm (key_le_of_tget_eq hw' hw fun n => (h n).symm) (key_le_of_tget_eq hw hw' h)
      obtain rfl : v = v' := by simpa [tget] using h k
      simp only [Tab.wfFrom, Bool.and_eq_true] at hw hw'
      rw [ih hw.2 hw'.2 fun n => ?_]
      by_cases hn : n = k
      · subst hn
        rw [tget_of_lt_wfFrom hw.2 (Nat.lt_succ_self n), tget_of_lt_wfFrom hw'.2 (Nat.lt_succ_self n)]
      · have hne : ¬ k = n := fun e => hn e.symm
        simpa [tget, hne] using h n

omit [DecidableEq α] in
/-- A table cut down to some keys. -/
theorem tget_filter (q : Nat → Bool) (t : Tab α) (n : Nat) : tget d (t.filter (fun kv => q kv.1)) n = if q n then tget d t n else d := by
  induction t with
  | nil => simp
  | cons kv t ih =>
    obtain ⟨k, v⟩ := kv
    by_cases hq : q k = true
    · by_cases hk : k = n
      · subst hk; simp [hq, tget]
      · simp [hq, tget, hk, ih]
    · by_cases hk : k = n
      · subst hk; simp [hq, ih]
      · simp [hq, tget, hk, ih]

end

/-! ### A zeroed page (R327) -/

theorem mget_filter_run (m : Memory) (b n a : Nat) :
    mget (m.filter (fun kv => !(decide (b ≤ kv.1) && decide (kv.1 < b + n)))) a = if b ≤ a ∧ a < b + n then 0 else mget m a := by
  rw [mget, tget_filter (fun k => !(decide (b ≤ k) && decide (k < b + n)))]
  by_cases hin : b ≤ a ∧ a < b + n
  · rw [if_pos hin, if_neg (by simp [hin])]
  · rw [if_neg hin, if_pos (by simp; omega), mget]

/-- A copy on one stack is one run of bytes. -/
theorem mget_zeroCopy_pinned (m : Memory) (stack slice : Nat) (salt : BitVec 4) (hash : Nat) (w : Bool) (a : Nat) :
    mget (zeroCopy m { phys := .pinned stack slice, salt := salt, hash := hash, written := w }) a =
      if stack * 2 ^ 36 + slice * 2 ^ 18 ≤ a ∧ a < stack * 2 ^ 36 + slice * 2 ^ 18 + pageSize then 0 else mget m a :=
  mget_filter_run m _ pageSize a

/-- Settles O4: each byte written is read at its place; canonical tables are determined by what they read; a copy on one stack is a run
of bytes, which a first write makes zero. -/
theorem storesReadBack : Obligations.StoresReadBack := by
  unfold Obligations.StoresReadBack
  refine ⟨⟨fun m a bs hw => ⟨wf_mwrite hw, mread_mwrite hw a bs, fun k hk => mget_mwrite_outside hk⟩,
    fun m m' hw hw' h => eq_of_tget_eq hw hw' h, fun n v hv => ⟨?_, leBytes_length n v⟩⟩, ?_⟩
  · rw [leNat_leBytes, Nat.mod_eq_of_lt hv]
  · intro m stack slice salt hash w hw k
    refine ⟨zeroCopy_wf hw, fun po hpo => ?_, fun a ha => ?_⟩
    · rw [mget_zeroCopy_pinned]
      exact if_pos ⟨Nat.le_add_right _ _, Nat.add_lt_add_left hpo _⟩
    · rw [mget_zeroCopy_pinned]
      refine if_neg fun hin => ha (a - (stack * 2 ^ 36 + slice * 2 ^ 18)) (by omega) ?_
      change a = stack * 2 ^ 36 + slice * 2 ^ 18 + _
      omega

end Sys2Proof.Machine
end

section
/-!
PROOFS. Rings: an update of a ring read back, two updates of one ring, and what posting a status record does (R338, R341).
-/
namespace Sys2Proof.Machine

/-! ### Two updates of one entry -/

section
variable {α : Type} [DecidableEq α] {d : α}

/-- Of two updates of one key the second counts. -/
theorem tput_tput {t : Tab α} {n : Nat} {v v' : α} (hv : v ≠ d) : tput d (tput d t n v) n v' = tput d t n v' := by
  induction t with
  | nil => simp [tput, hv]
  | cons kx t ih =>
    obtain ⟨k, x⟩ := kx
    by_cases hlt : n < k
    · simp [tput, hlt, hv]
    · by_cases heq : n = k
      · subst heq; simp [tput, hv]
      · simp [tput, hlt, heq, ih]

theorem tmod_tmod {t : Tab α} {n : Nat} {f g : α → α} (hf : f (tget d t n) ≠ d) : tmod d (tmod d t n f) n g = tmod d t n (fun x => g (f x)) := by
  rw [tmod, tmod, tget_tput_of_ne_default hf, tput_tput hf, tmod]

end

theorem modCtx_modCtx {c : Chip} {n : Nat} {f g : Ctx → Ctx} (hf : f (c.ctx n) ≠ {}) :
    (c.modCtx n f).modCtx n g = c.modCtx n (fun x => g (f x)) := by
  have htab : tmod {} (tmod {} c.ctxs n f) n g = tmod {} c.ctxs n (fun x => g (f x)) := tmod_tmod hf
  simp only [Chip.modCtx, htab]

/-! ### Updates of a ring -/

/-- A context with a ring that is not as at reset is not as at reset. -/
theorem ctx_ne_default_of_ring {x : Ctx} {r : Nat} (h : x.ring r ≠ {}) : x ≠ {} := by
  rintro rfl
  exact h rfl

theorem ring_tmod {x : Ctx} {r : Nat} {f : Ring → Ring} (h : f (x.ring r) ≠ {}) : ({ x with rings := tmod {} x.rings r f } : Ctx).ring r = f (x.ring r) :=
  tget_tmod_of_ne_default h

theorem ring_modRing {c : Chip} {n r : Nat} {f : Ring → Ring} (h : f (c.ring n r) ≠ {}) : (c.modRing n r f).ring n r = f (c.ring n r) := by
  have hring := ring_tmod h
  rw [Chip.ring, Chip.modRing, ctx_modCtx_of_ne_default c (ctx_ne_default_of_ring (r := r) (by rw [hring]; exact h)), hring, Chip.ring]

theorem modRing_modRing {c : Chip} {n r : Nat} {f g : Ring → Ring} (h : f (c.ring n r) ≠ {}) :
    (c.modRing n r f).modRing n r g = c.modRing n r (fun x => g (f x)) := by
  have hring := ring_tmod h
  have hne : ({ c.ctx n with rings := tmod {} (c.ctx n).rings r f } : Ctx) ≠ {} := ctx_ne_default_of_ring (r := r) (by rw [hring]; exact h)
  have htab : tmod {} (tmod {} (c.ctx n).rings r f) r g = tmod {} (c.ctx n).rings r (fun x => g (f x)) := tmod_tmod h
  rw [Chip.modRing, Chip.modRing, modCtx_modCtx hne]
  simp only [Chip.modRing, Chip.modCtx, tmod] at htab ⊢
  simp only [Chip.ctx] at htab
  rw [htab]

/-! ### Posting (R338) -/

theorem record_bytes_length (x : Record) : x.bytes.length = 16 := by simp [Record.bytes]

/-- A ring that keeps one record more. -/
def Ring.keeping (x : Record) (g : Ring) : Ring := { g with kept := g.kept ++ [x] }

theorem keeping_ne_default (x : Record) (g : Ring) : g.keeping x ≠ {} := by
  intro h
  have hk := congrArg Ring.kept h
  simp [Ring.keeping] at hk

theorem post_eq (c : Chip) (n r : Nat) (x : Record) : c.post n r x = (c.modRing n r (Ring.keeping x)).drainRing n r := rfl

/-- A ring that keeps records and has no room, or is out of use, keeps them. -/
theorem postKept_of_stuck {g : Ring} (h : g.cplFull = true ∨ g.enable = false) (n : Nat) (m : Memory) : postKept n m g = (m, g) := by
  cases n with
  | zero => rfl
  | succ n =>
    cases hk : g.kept with
    | nil => simp [postKept, hk]
    | cons x t => rcases h with h | h <;> simp [postKept, hk, h]

theorem drainRing_of_stuck {c : Chip} {n r : Nat} (h : (c.ring n r).cplFull = true ∨ (c.ring n r).enable = false) : c.drainRing n r = c := by
  simp [Chip.drainRing, postKept_of_stuck h]

/-- A ring with room posts the one record it keeps. -/
theorem postKept_of_room {g : Ring} (he : g.enable = true) (hk : g.kept = []) (hf : g.cplFull = false) (m : Memory) (x : Record) :
    postKept 1 m { g with kept := [x] } = (mwrite m (g.cplBase.toNat + 16 * (g.cplTail.toNat % g.cplSlots)) x.bytes,
      { g with cplTail := BitVec.ofNat 32 ((g.cplTail.toNat + 1) % g.cplSlots) }) := by
  have hf' : ({ g with kept := [x] } : Ring).cplFull = false := hf
  obtain ⟨⟩ := g
  obtain rfl := hk
  obtain rfl := he
  simp only [postKept, hf', Bool.not_true, Bool.or_self, Bool.false_eq_true, if_false]
  rfl

theorem post_of_room {c : Chip} {n r : Nat} {g : Ring} (hg : c.ring n r = g) (he : g.enable = true) (hk : g.kept = []) (hf : g.cplFull = false)
    (x : Record) :
    let g' : Ring := { g with cplTail := BitVec.ofNat 32 ((g.cplTail.toNat + 1) % g.cplSlots) }
    let host := mwrite (mwrite c.host (g.cplBase.toNat + 16 * (g.cplTail.toNat % g.cplSlots)) x.bytes) g.wb.toNat
      (leBytes 4 g'.head.toNat ++ leBytes 4 g'.cplTail.toNat)
    let c' : Chip := { c.modRing n r (fun _ => g') with host := host }
    c.post n r x = (if g.intr then c'.raise (c'.fnOf n) g.vector.toNat else c') := by
  subst hg
  have hring := ring_modRing (c := c) (n := n) (r := r) (keeping_ne_default x _)
  have hkept : (c.ring n r).keeping x = { c.ring n r with kept := [x] } := by rw [Ring.keeping, hk]; rfl
  have hlen : ¬ (c.ring n r).kept.length = 1 := by simp [hk]
  rw [post_eq, Chip.drainRing, hring, hkept]
  simp only [List.length_singleton, postKept_of_room he hk hf, modRing_modRing (keeping_ne_default x _), hlen, if_false]
  rfl

theorem post_of_stuck {c : Chip} {n r : Nat} (h : (c.ring n r).cplFull = true ∨ (c.ring n r).enable = false) (x : Record) :
    c.post n r x = c.modRing n r (Ring.keeping x) := by
  rw [post_eq]
  refine drainRing_of_stuck ?_
  rw [ring_modRing (keeping_ne_default x _)]
  exact h

/-- Settles O8: a ring with room posts the record it has just been given; one without keeps it. -/
theorem statusRecords : Obligations.StatusRecords := by
  unfold Obligations.StatusRecords
  refine ⟨?room, ?stuck⟩
  case room =>
    intro c n r x g he hk hf
    exact ⟨post_of_room rfl he hk hf x, record_bytes_length x⟩
  case stuck =>
    intro c n r x g h
    rw [post_of_stuck h]
    exact ⟨rfl, ring_modRing (keeping_ne_default x g)⟩

end Sys2Proof.Machine
end

section
/-!
PROOFS. The block: a command answers a next state and leaves the queue, so every step is safe; the state after reset; register results.
-/
namespace Sys2Proof.Machine

/-- A meaning that changes the module alone. -/
def ChangesChip (f : State → Host.Outcome State Fault Refusal) : Prop :=
  ∀ (p : List Instr) (c : Chip), ∃ c', f { pending := p, chip := c } = .next { pending := p, chip := c' }

theorem exec_changesChip (i : Instr) : ChangesChip (exec i) := by
  intro p c
  cases i <;> exact ⟨_, rfl⟩

/-- Settles O1: the step is defined so. -/
theorem stepRunsTheFrontCommand : Obligations.StepRunsTheFrontCommand := fun _ _ _ => rfl

/-- With no command waiting a step is a tick of the Ridge clock, else the command at the front. -/
theorem step_next (s : State) : ∃ c', step s = .next { pending := s.pending.tail, chip := c' } := by
  obtain ⟨p, c⟩ := s
  cases p with
  | nil => exact ⟨c.tick, rfl⟩
  | cons i rest => exact exec_changesChip i rest c

/-- Settles O2: every command is a change of the module. -/
theorem everyStepIsSafeAndKeepsTheQueue : Obligations.EveryStepIsSafeAndKeepsTheQueue := by
  unfold Obligations.EveryStepIsSafeAndKeepsTheQueue
  refine ⟨exec_changesChip, fun s => ?_⟩
  obtain ⟨c', hs⟩ := step_next s
  refine ⟨⟨_, hs⟩, fun hw t ht => ?_⟩
  obtain rfl : _ = t := Host.Outcome.next.inj (hs.symm.trans ht)
  exact ⟨fun i hi => hw i (List.mem_of_mem_tail hi), rfl⟩

/-- Settles O3: each value is what the reset state says. -/
theorem resetState : Obligations.ResetState := by
  unfold Obligations.ResetState
  refine ⟨rfl, fun i hi => absurd hi List.not_mem_nil, ⟨rfl, rfl, rfl, rfl, rfl⟩, rfl, rfl, rfl, rfl, rfl, rfl, rfl, rfl,
    rfl, rfl, rfl, rfl, rfl, fun _ => rfl⟩

/-! ### Register results (R160) -/

theorem reg_setReg_same {t : Thread} {d : Reg} {v : W64} (hw : Tab.wf (0 : W64) t.regs = true) (hd : d ≠ 0) : (t.setReg d v).reg d = v := by
  rw [Thread.setReg, if_neg hd, Thread.reg, if_neg hd]
  exact tget_tput_same hw

theorem reg_setReg_ne {t : Thread} {d r : Reg} {v : W64} (h : r ≠ d) : (t.setReg d v).reg r = t.reg r := by
  have hn : r.toNat ≠ d.toNat := fun e => h (BitVec.eq_of_toNat_eq e)
  by_cases hd : d = 0
  · rw [Thread.setReg, if_pos hd]
  · rw [Thread.setReg, if_neg hd, Thread.reg, Thread.reg, tget_tput_ne hn]

theorem setReg_eq (t : Thread) (d : Reg) (v : W64) : t.setReg d v = { t with regs := (t.setReg d v).regs } := by
  by_cases hd : d = 0
  · rw [Thread.setReg, if_pos hd]
  · rw [Thread.setReg, if_neg hd]

/-- Settles O35: a result sets its register, then joins the flags and goes on. -/
theorem threadResultFrame : Obligations.ThreadResultFrame := by
  unfold Obligations.ThreadResultFrame
  intro t d v f hw t'
  refine ⟨fun hd => reg_setReg_same hw hd, rfl, fun r hr => reg_setReg_ne hr, ?_, ?_⟩
  · rintro rfl; rfl
  · change ((t.setReg d v).join f).advance = _
    rw [setReg_eq t d v]
    rfl

end Sys2Proof.Machine
end

section
/-!
PROOFS. The commands on contexts (R306, R321, R333, R347).
-/
namespace Sys2Proof.Machine

/-! ### Commands of a packet -/

/-- A taken command is its effect on the module. -/
theorem run_command {c : Chip} {h : Hdr} {pf need : Bool} {f : Chip → Chip} (ht : Taken c h pf need) (p : List Instr) :
    State.run ⟨p, c⟩ (fun c => c.command h pf need f) = .next ⟨p, f c⟩ := by
  rw [run_eq, command_taken ht]

/-! ### CTX_CREATE -/

/-- The numbers a table reads as something are among its keys. -/
theorem mem_keys_of_tget_ne {α : Type} {d : α} {t : Tab α} {n : Nat} (h : tget d t n ≠ d) : n ∈ t.map (·.1) := by
  induction t with
  | nil => exact absurd rfl h
  | cons kv t ih =>
    obtain ⟨k, v⟩ := kv
    by_cases hk : k = n
    · simp [hk]
    · simp only [tget, hk, if_false] at h
      exact List.mem_cons_of_mem _ (ih h)

/-- A context that is not free is not as at reset. -/
theorem ctx_ne_default_of_st {x : Ctx} (h : x.st ≠ .free) : x ≠ {} := by
  rintro rfl
  exact h rfl

/-- The contexts below the lowest free number are all listed, so that number is at most their count. -/
theorem lowest_free_le {c : Chip} {n : Nat} (hlow : ∀ k, k < n → (c.ctx k).st ≠ .free) : n ≤ c.ctxs.length := by
  have hsub : List.range n ⊆ c.ctxs.map (·.1) := fun k hk =>
    mem_keys_of_tget_ne (ctx_ne_default_of_st (hlow k (List.mem_range.1 hk)))
  simpa using (List.subperm_of_subset List.nodup_range hsub).length_le

theorem find?_lowest_free {c : Chip} {n : Nat} (hn : n < 1024) (hfree : (c.ctx n).st = .free) (hlow : ∀ k, k < n → (c.ctx k).st ≠ .free) :
    (List.range (min 1024 (c.ctxs.length + 1))).find? (fun n => decide ((c.ctx n).st = .free)) = some n := by
  have hlen := lowest_free_le hlow
  rw [List.find?_range_eq_some]
  exact ⟨by simpa using hfree, by simp; omega, fun k hk => by simpa using hlow k hk⟩

theorem find?_free_eq_none {c : Chip} (h : ∀ n, n < 1024 → (c.ctx n).st ≠ .free) :
    (List.range (min 1024 (c.ctxs.length + 1))).find? (fun n => decide ((c.ctx n).st = .free)) = none := by
  rw [List.find?_eq_none]
  intro n hn
  have hlt : n < 1024 := by simp at hn; omega
  simpa using h n hlt

/-- The command's seed, where it is not zero. -/
theorem seedOf_of_ne {c : Chip} {lo hi : W64} (h : lo ≠ 0 ∨ hi ≠ 0) : (c.seedOf lo hi).1 = (hi ++ lo : BitVec 128) := by
  have hs : BitVec.ofNat 128 (lo.toNat + hi.toNat * 2 ^ 64) = (hi ++ lo : BitVec 128) := by
    apply BitVec.eq_of_toNat_eq
    rw [BitVec.toNat_append, BitVec.toNat_ofNat, ← Nat.shiftLeft_add_eq_or_of_lt lo.isLt, Nat.shiftLeft_eq]
    omega
  have hne : (hi ++ lo : BitVec 128) ≠ 0 := by
    rw [← hs]
    intro h0
    have hz := congrArg BitVec.toNat h0
    simp only [BitVec.toNat_ofNat, BitVec.ofNat_eq_ofNat] at hz
    rcases h with h | h <;> exact h (BitVec.eq_of_toNat_eq (by simp; omega))
  simp only [Chip.seedOf, hs]
  rw [if_pos hne]

theorem seedOf_ne_zero (c : Chip) (lo hi : W64) : (c.seedOf lo hi).1 ≠ 0 := by
  simp only [Chip.seedOf]
  split_ifs with h1 h2
  · exact h1
  · exact (by decide : (1 : BitVec 128) ≠ 0)
  · exact h2

theorem seedOf_ctxs (c : Chip) (lo hi : W64) : (c.seedOf lo hi).2.ctxs = c.ctxs := by
  simp only [Chip.seedOf]
  split_ifs <;> rfl

/-- The context that CTX_CREATE makes under a number, with its seed, on a module whose key and hash key come next (R306, R324). -/
def Chip.created (c : Chip) (p : CtxCreateP) (seed : BitVec 128) (n : Nat) : Chip :=
  c.newKey.2.newHash.2.modCtx n (fun x =>
    { rings := x.rings, bar4Base := x.bar4Base, st := .idle, part := p.part.toNat, latency := p.latency, rbwFault := p.rbwFault,
      seed := seed, key := c.newKey.1, hash := c.newKey.2.newHash.1, spillHa := p.spillHa, spillBytes := p.spillBytes, parkHa := p.parkHa,
      parkBytes := p.parkBytes, train := { nstart := c.boot.defNstart, latLimit := c.boot.defLat } })

theorem seedOf_boot (c : Chip) (lo hi : W64) : (c.seedOf lo hi).2.boot = c.boot := by
  simp only [Chip.seedOf]
  split_ifs <;> rfl

theorem create_eq {c : Chip} {h : Hdr} {p : CtxCreateP} {n : Nat} (hn : n < 1024) (hfree : (c.ctx n).st = .free)
    (hlow : ∀ k, k < n → (c.ctx k).st ≠ .free) :
    c.create h p = ((c.seedOf p.seedLo p.seedHi).2.created p (c.seedOf p.seedLo p.seedHi).1 n).ok h (BitVec.ofNat 32 n) := by
  simp only [Chip.create, find?_lowest_free hn hfree hlow, Chip.created, seedOf_boot]

theorem ctx_created_ne {c c' : Chip} (hc : c'.ctxs = c.ctxs) (p : CtxCreateP) (seed : BitVec 128) {n k : Nat} (h : k ≠ n) :
    (c'.created p seed n).ctx k = c.ctx k := by
  rw [Chip.created, ctx_modCtx_ne _ _ h, Chip.ctx, Chip.ctx, ← hc]
  rfl

/-- The new context. -/
theorem ctx_created (c : Chip) (p : CtxCreateP) (seed : BitVec 128) (n : Nat) :
    let x := (c.created p seed n).ctx n
    x.st = .idle ∧ x.part = p.part.toNat ∧ x.latency = p.latency ∧ x.rbwFault = p.rbwFault ∧ x.pages = [] ∧ x.execQ = [] ∧ x.seed = seed := by
  intro x
  have hx : x = _ := ctx_modCtx_of_ne_default _ (ctx_ne_default_of_st (by simp))
  rw [hx]
  exact ⟨rfl, rfl, rfl, rfl, rfl, rfl, rfl⟩

/-! ### CTX_MOVE, VF_BIND -/

/-- CTX_MOVE of an idle context. -/
def Chip.moved (c : Chip) (n part : Nat) (latency : Bool) : Chip :=
  (c.modPart (c.ctx n).part (fun p => if p.cur = some n then { p with cur := none } else p)).modCtx n
    (fun x => { x with part := part, latency := latency })

theorem ctx_moved_same {c : Chip} {n : Nat} (h : (c.ctx n).st = .idle) (part : Nat) (latency : Bool) :
    (c.moved n part latency).ctx n = { c.ctx n with part := part, latency := latency } := by
  rw [Chip.moved, ctx_modCtx_of_ne_default _ (ctx_ne_default_of_st (by simp [h])), ctx_modPart]

theorem ctx_moved_ne {c : Chip} {n k : Nat} (hk : k ≠ n) (part : Nat) (latency : Bool) : (c.moved n part latency).ctx k = c.ctx k := by
  rw [Chip.moved, ctx_modCtx_ne _ _ hk, ctx_modPart]

/-- A VF as an unbinding of a context leaves it. -/
def Vf.unbind (n : Nat) (v : Vf) : Vf := if v.bound = some n then { v with bound := none } else v

theorem unbind_bound_ne (n : Nat) (v : Vf) : (v.unbind n).bound ≠ some n := by
  by_cases h : v.bound = some n
  · simp [Vf.unbind, h]
  · simp [Vf.unbind, h]

theorem boundCtx_unbindAll {c : Chip} (hw : Tab.wf ({} : Vf) c.vfs = true) (n k : Nat) :
    ({ c with vfs := tmap {} (fun _ v => v.unbind n) c.vfs } : Chip).boundCtx k ≠ some n := by
  rw [Chip.boundCtx, tget_tmap (fun _ => rfl) hw]
  exact unbind_bound_ne n _

theorem boundCtx_bind_same (c : Chip) (n k : Nat) :
    ({ c with vfs := tmod {} c.vfs k (fun v => { v with bound := some n }) } : Chip).boundCtx k = some n := by
  rw [Chip.boundCtx, tget_tmod_of_ne_default]
  intro h
  have hb : some n = none := congrArg Vf.bound h
  simp at hb

theorem boundCtx_bind_ne (c : Chip) (n : Nat) {j k : Nat} (h : j ≠ k) :
    ({ c with vfs := tmod {} c.vfs k (fun v => { v with bound := some n }) } : Chip).boundCtx j = c.boundCtx j := by
  rw [Chip.boundCtx, tget_tmod_ne h]
  rfl

theorem ctxBlock_length (c : Chip) (n : Nat) : (c.ctxBlock n).length = 32 := by simp [Chip.ctxBlock]

/-- Settles O10: the lowest free number is found among the listed contexts, and each command is its effect on one context or on the
bindings. -/
theorem contextCommands : Obligations.ContextCommands := by
  unfold Obligations.ContextCommands
  refine ⟨fun p c h a ht => ⟨fun n hn hfree hlow => ?create, fun hbusy => ?full⟩,
    fun p c h => ⟨fun ha ht => ⟨run_command ht p, ctxBlock_length c h.ctx⟩, fun part lat ht => ⟨fun hidle => ?move, fun hbusy => ?stay⟩,
      fun ht => run_command ht p⟩,
    fun p c h vf ht hw => ?bind⟩
  case create =>
    obtain ⟨hst, hpart, hlat, hrbw, hpages, hq, hseed⟩ := ctx_created (c.seedOf a.seedLo a.seedHi).2 a (c.seedOf a.seedLo a.seedHi).1 n
    refine ⟨_, _, (run_command ht p).trans ?_, rfl, hst, hpart, hlat, hrbw, hpages, hq, fun hs => ?_, ?_,
      fun k hk => ctx_created_ne (seedOf_ctxs c _ _) a _ hk⟩
    · rw [create_eq hn hfree hlow]
    · rw [hseed, seedOf_of_ne hs]
    · rw [hseed]; exact seedOf_ne_zero c _ _
  case full =>
    refine (run_command ht p).trans ?_
    simp only [Chip.create, find?_free_eq_none hbusy]
  case move =>
    refine ⟨c.moved h.ctx part.toNat lat, (run_command ht p).trans ?_, ctx_moved_same hidle _ _, fun k hk => ctx_moved_ne hk _ _⟩
    rw [if_neg (not_not.2 hidle)]
    rfl
  case stay =>
    refine (run_command ht p).trans ?_
    rw [if_pos hbusy]
    rfl
  case bind =>
    by_cases hvf : vf = 0
    · refine ⟨{ c with vfs := tmap {} (fun _ v => v.unbind h.ctx) c.vfs }, (run_command ht p).trans ?_, fun h0 => absurd hvf h0,
        fun k _ => boundCtx_unbindAll hw h.ctx k, rfl⟩
      rw [if_pos hvf]
      rfl
    · let c0 : Chip := { c with vfs := tmap {} (fun _ v => v.unbind h.ctx) c.vfs }
      refine ⟨{ c0 with vfs := tmod {} c0.vfs vf.toNat (fun v => { v with bound := some h.ctx }) }, (run_command ht p).trans ?_,
        fun _ => boundCtx_bind_same c0 h.ctx vf.toNat, fun k hk => ?_, rfl⟩
      · rw [if_neg hvf]
        rfl
      · rw [boundCtx_bind_ne c0 _ (hk.resolve_right hvf)]
        exact boundCtx_unbindAll hw h.ctx k

end Sys2Proof.Machine
end

section
/-!
PROOFS. MAP and UNMAP (R312, R352, R426): what mapping and unmapping pages does to the page table of a context.
-/
namespace Sys2Proof.Machine

/-! ### The page table of a context -/

/-- A context that is not free reads back after a change that leaves its state. -/
theorem ctx_modCtx_of_st {c : Chip} {n : Nat} {f : Ctx → Ctx} (h : (f (c.ctx n)).st ≠ .free) : (c.modCtx n f).ctx n = f (c.ctx n) :=
  ctx_modCtx_of_ne_default c (ctx_ne_default_of_st h)

theorem newCopy_ctxs {c c' : Chip} {place : Nat} {salt : BitVec 4} {hash : Nat} {k : PageCopy} (h : c.newCopy place salt hash = some (k, c')) :
    k.written = false ∧ c'.ctxs = c.ctxs := by
  simp only [Chip.newCopy, Option.map_eq_some_iff] at h
  obtain ⟨ph, -, h⟩ := h
  cases h
  exact ⟨rfl, rfl⟩

/-- A page of a context put into its table. -/
def Chip.putPage (c : Chip) (n vp : Nat) (g : Option Page) : Chip := c.modCtx n (fun x => { x with pages := tput none x.pages vp g })

theorem ctx_putPage_ne (c : Chip) {n k : Nat} (vp : Nat) (g : Option Page) (h : k ≠ n) : (c.putPage n vp g).ctx k = c.ctx k :=
  ctx_modCtx_ne c _ h

theorem ctx_putPage {c : Chip} {n : Nat} (hst : (c.ctx n).st ≠ .free) (vp : Nat) (g : Option Page) :
    (c.putPage n vp g).ctx n = { c.ctx n with pages := tput none (c.ctx n).pages vp g } := ctx_modCtx_of_st hst

theorem ctx_congr {c c' : Chip} (h : c'.ctxs = c.ctxs) (n : Nat) : c'.ctx n = c.ctx n := by rw [Chip.ctx, Chip.ctx, h]

/-- Mapping a page puts an unwritten page of its attributes into the table of its context, and nothing into another context's. -/
theorem mapOne_some {c c1 : Chip} {n vp key hash : Nat} {a : MapAttr} {m : Option W16} (hst : (c.ctx n).st ≠ .free)
    (h : c.mapOne n vp a key hash m = some c1) : ∃ g : Page, g.attr = a ∧ g.copyA.written = false ∧
      c1.ctx n = { c.ctx n with pages := tput none (c.ctx n).pages vp (some g) } ∧ ∀ k, k ≠ n → c1.ctx k = c.ctx k := by
  cases hA : c.newCopy a.place.toNat a.salt hash with
  | none => simp [Chip.mapOne, hA] at h
  | some ka =>
    obtain ⟨ka, c2⟩ := ka
    obtain ⟨hwritten, hctxs⟩ := newCopy_ctxs hA
    have hst2 : (c2.ctx n).st ≠ .free := by rwa [ctx_congr hctxs]
    let g (kb : Option PageCopy) : Page := { attr := a, copyA := ka, copyB := kb, key := key, model := m }
    have hput1 := ctx_putPage hst2 vp (some (g none))
    cases hp : a.pair with
    | false =>
      simp only [Chip.mapOne, hA, hp, Bool.false_eq_true, if_false, Option.some.injEq] at h
      subst h
      refine ⟨g none, rfl, hwritten, ?_, fun k hk => ?_⟩
      · exact hput1.trans (by rw [ctx_congr hctxs])
      · exact (ctx_putPage_ne c2 vp _ hk).trans (ctx_congr hctxs k)
    | true =>
      cases hB : (c2.putPage n vp (some (g none))).newCopy a.place.toNat a.salt hash with
      | none => simp only [Chip.putPage, g] at hB; simp [Chip.mapOne, hA, hp, hB] at h
      | some kb =>
        obtain ⟨kb, c3⟩ := kb
        obtain ⟨-, hctxs3⟩ := newCopy_ctxs hB
        simp only [Chip.putPage, g] at hB
        simp only [Chip.mapOne, hA, hp, if_true, hB, Option.some.injEq] at h
        subst h
        have hst3 : (c3.ctx n).st ≠ .free := by rwa [ctx_congr hctxs3, hput1]
        refine ⟨g (some kb), rfl, hwritten, ?_, fun k hk => ?_⟩
        · refine (ctx_putPage hst3 vp (some (g (some kb)))).trans ?_
          rw [ctx_congr hctxs3, hput1, tput_tput (Option.some_ne_none _), ctx_congr hctxs]
        · exact (ctx_putPage_ne c3 vp _ hk).trans ((ctx_congr hctxs3 k).trans ((ctx_putPage_ne c2 vp _ hk).trans (ctx_congr hctxs k)))

/-- Mapping pages: each is mapped, unwritten, with the attributes; other pages and other contexts stay. -/
theorem mapMany_some {c c1 : Chip} {n key hash : Nat} {a : MapAttr} {m : Option W16} {vps : List Nat} (hst : (c.ctx n).st ≠ .free)
    (h : c.mapMany n a key hash m vps = some c1) :
    (∀ vp ∈ vps, ∃ g : Page, tget none (c1.ctx n).pages vp = some g ∧ g.attr = a ∧ g.copyA.written = false) ∧
      (∀ vp, vp ∉ vps → tget none (c1.ctx n).pages vp = tget none (c.ctx n).pages vp) ∧ ∀ k, k ≠ n → c1.ctx k = c.ctx k := by
  induction vps generalizing c with
  | nil =>
    obtain rfl : c = c1 := by simpa [Chip.mapMany] using h
    exact ⟨fun vp hvp => absurd hvp List.not_mem_nil, fun _ _ => rfl, fun _ _ => rfl⟩
  | cons vp vps ih =>
    cases hone : c.mapOne n vp a key hash m with
    | none => simp [Chip.mapMany, hone] at h
    | some c2 =>
      simp only [Chip.mapMany, hone] at h
      obtain ⟨g, hattr, hwritten, hctx, hother⟩ := mapOne_some hst hone
      obtain ⟨hin, hout, hothers⟩ := ih (by rwa [hctx]) h
      refine ⟨fun v hv => ?_, fun v hv => ?_, fun k hk => (hothers k hk).trans (hother k hk)⟩
      · by_cases hmem : v ∈ vps
        · exact hin v hmem
        · obtain rfl : v = vp := (List.mem_cons.1 hv).resolve_right hmem
          refine ⟨g, ?_, hattr, hwritten⟩
          rw [hout v hmem, hctx]
          exact tget_tput_of_ne_default (Option.some_ne_none g)
      · rw [hout v (fun hm => hv (List.mem_cons_of_mem _ hm)), hctx]
        exact tget_tput_ne (fun e => hv (e ▸ List.mem_cons_self))

/-- Unmapping pages: none of them is mapped after; other pages and other contexts stay. -/
theorem unmap_spec {c : Chip} {n : Nat} {vps : List Nat} (hst : (c.ctx n).st ≠ .free) (hw : Tab.wf none (c.ctx n).pages = true) :
    (∀ vp ∈ vps, tget none ((c.unmap n vps).ctx n).pages vp = none) ∧
      (∀ vp, vp ∉ vps → tget none ((c.unmap n vps).ctx n).pages vp = tget none (c.ctx n).pages vp) ∧
      ∀ k, k ≠ n → (c.unmap n vps).ctx k = c.ctx k := by
  induction vps generalizing c with
  | nil => exact ⟨fun vp hvp => absurd hvp List.not_mem_nil, fun _ _ => rfl, fun _ _ => rfl⟩
  | cons vp vps ih =>
    obtain ⟨c2, hstep, hpages, hother, hst2, hw2⟩ : ∃ c2 : Chip, c.unmap n (vp :: vps) = c2.unmap n vps ∧
        (∀ v, tget none (c2.ctx n).pages v = if v = vp then none else tget none (c.ctx n).pages v) ∧ (∀ k, k ≠ n → c2.ctx k = c.ctx k) ∧
        (c2.ctx n).st ≠ .free ∧ Tab.wf none (c2.ctx n).pages = true := by
      cases hp : tget none (c.ctx n).pages vp with
      | none =>
        refine ⟨c, by simp [Chip.unmap, hp], fun v => ?_, fun _ _ => rfl, hst, hw⟩
        by_cases hv : v = vp
        · rw [if_pos hv, hv, hp]
        · rw [if_neg hv]
      | some p =>
        obtain ⟨c3, hc3, hctxs⟩ : ∃ c3 : Chip, c3 = (if p.granted then c else c.dropPageLines p) ∧ c3.ctxs = c.ctxs :=
          ⟨_, rfl, by split <;> rfl⟩
        have hctx3 := ctx_congr hctxs n
        have hput := ctx_putPage (c := c3) (n := n) (by rwa [hctx3]) vp none
        rw [hctx3] at hput
        refine ⟨c3.putPage n vp none, by simp [Chip.unmap, hp, hc3, Chip.putPage], fun v => ?_,
          fun k hk => (ctx_putPage_ne c3 vp none hk).trans (ctx_congr hctxs k), by rwa [hput], by rw [hput]; exact wf_tput hw⟩
        rw [hput]
        exact tget_tput hw
    obtain ⟨hin, hout, hothers⟩ := ih hst2 hw2
    rw [hstep]
    refine ⟨fun v hv => ?_, fun v hv => ?_, fun k hk => (hothers k hk).trans (hother k hk)⟩
    · by_cases hmem : v ∈ vps
      · exact hin v hmem
      · obtain rfl : v = vp := (List.mem_cons.1 hv).resolve_right hmem
        rw [hout v hmem, hpages, if_pos rfl]
    · rw [hout v (fun hm => hv (List.mem_cons_of_mem _ hm)), hpages, if_neg (fun (e : v = vp) => hv (e ▸ List.mem_cons_self))]

/-! ### The checks -/

theorem rangeOk_iff (va pages : Nat) : rangeOk va pages = true ↔ va % pageSize = 0 ∧ 1 ≤ pages ∧ va + pages * pageSize ≤ 2 ^ 48 := by
  simp [rangeOk, and_assoc]

section
variable {c : Chip} {n : Nat} {va pages : W64} {a : MapAttr} (hva : va.toNat < 2 ^ 48)
include hva

theorem mapCheck_pset (hpair : a.pair = false) (hpset : a.pset ≠ 0) : c.mapCheck n va pages a = some (0x0102, 50) := by
  have hbad : (!a.pair && decide (a.pset ≠ 0)) = true := by simp only [hpair, decide_eq_true hpset]; rfl
  simp only [Chip.mapCheck, vaOk, decide_eq_true hva, hbad]
  rfl

theorem mapCheck_eq (hplace : a.place.toNat ≤ 8) (hpset : a.pair = true ∨ a.pset = 0) :
    c.mapCheck n va pages a =
      if rangeOk va.toNat pages.toNat = false ∨ ∃ vp ∈ pageRange va.toNat pages.toNat, tget none (c.ctx n).pages vp ≠ none then some (0x0105, 32)
      else none := by
  have hgood : (!a.pair && decide (a.pset ≠ 0)) = false := by rcases hpset with h | h <;> simp [h]
  have hany : ((pageRange va.toNat pages.toNat).any (fun vp => (tget none (c.ctx n).pages vp).isSome) = true) ↔
      ∃ vp ∈ pageRange va.toNat pages.toNat, tget none (c.ctx n).pages vp ≠ none := by
    simp [List.any_eq_true, Option.isSome_iff_ne_none]
  simp only [Chip.mapCheck, vaOk, decide_eq_true hva, hgood, Nat.not_lt.2 hplace, hany, Bool.not_eq_true', Bool.not_true,
    Bool.false_eq_true, if_false]
  by_cases hr : rangeOk va.toNat pages.toNat = false
  · rw [if_pos hr, if_pos (.inl hr)]
  · rw [if_neg hr]
    refine if_congr ?_ rfl rfl
    exact (or_iff_right hr).symm

theorem mapCheck_none (hplace : a.place.toNat ≤ 8) (hpset : a.pair = true ∨ a.pset = 0) (hrange : rangeOk va.toNat pages.toNat = true)
    (hfree : ∀ vp ∈ pageRange va.toNat pages.toNat, tget none (c.ctx n).pages vp = none) : c.mapCheck n va pages a = none := by
  rw [mapCheck_eq hva hplace hpset, if_neg]
  rintro (h | ⟨vp, hvp, h⟩)
  · rw [hrange] at h; exact Bool.noConfusion h
  · exact h (hfree vp hvp)

theorem unmapCmd_eq (h : Hdr) : c.unmapCmd h va pages =
    if rangeOk va.toNat pages.toNat = false ∨ ∃ vp ∈ pageRange va.toNat pages.toNat, tget none (c.ctx h.ctx).pages vp = none then
      c.done h 0x0105 32 0
    else (c.deferOr h.ctx (.unmapPages h va pages) (c.unmap h.ctx (pageRange va.toNat pages.toNat))).ok h 0 := by
  have hany : ((pageRange va.toNat pages.toNat).any (fun vp => (tget none (c.ctx h.ctx).pages vp).isNone) = true) ↔
      ∃ vp ∈ pageRange va.toNat pages.toNat, tget none (c.ctx h.ctx).pages vp = none := by
    simp [List.any_eq_true]
  simp only [Chip.unmapCmd, vaOk, decide_eq_true hva, hany, Bool.not_eq_true', Bool.not_true, Bool.false_eq_true, if_false]
  rfl

end

/-! ### At once, or at the next launch (R352) -/

theorem deferOr_plain {c : Chip} {n : Nat} (h : ∀ r, (c.ctx n).run = some r → r.isStep = false) (i : Instr) (now : Chip) :
    c.deferOr n i now = now := by
  cases hr : (c.ctx n).run with
  | none => simp only [Chip.deferOr, hr]
  | some r => simp only [Chip.deferOr, hr, h r hr, Bool.false_eq_true, if_false]

theorem deferOr_step {c : Chip} {n : Nat} {r : Run} (hr : (c.ctx n).run = some r) (hs : r.isStep = true) (i : Instr) (now : Chip) :
    c.deferOr n i now = c.modCtx n (fun x => { x with deferred := x.deferred ++ [i] }) := by
  simp only [Chip.deferOr, hr, hs, if_true]

/-- A range that fits as it is makes no page spill. -/
theorem tryMap_of_fits {c c1 : Chip} {n va pages : Nat} {a : MapAttr}
    (hm : c.mapMany n a (c.ctx n).key (c.ctx n).hash none (pageRange va pages) = some c1) (hs : c1.withinShare (c.ctx n).part = true) :
    c.tryMap n va pages a = .ok c1 := by
  have huntil {fits : Chip → Bool} (hf : fits c = true) (fuel : Nat) (order : List Nat) : Chip.spillUntil fits fuel order c = some c := by
    cases fuel <;> simp [Chip.spillUntil, hf]
  simp only [Chip.tryMap]
  rw [huntil (by simp only [hm, hs])]
  simp only [hm]

theorem tryMap_error {c : Chip} {n va pages : Nat} {a : MapAttr} {e : W16} (h : c.tryMap n va pages a = .error e) : e = 0x0202 := by
  simp only [Chip.tryMap] at h
  split at h
  · cases h; rfl
  · split at h
    · cases h
    · cases h; rfl

theorem mapCmd_ok {c c1 : Chip} {h : Hdr} {va pages : W64} {a : MapAttr} (hcheck : c.mapCheck h.ctx va pages a = none)
    (hm : c.tryMap h.ctx va.toNat pages.toNat a = .ok c1) :
    c.mapCmd h va pages a = (c.deferOr h.ctx (.mapPages h va pages a) c1).ok h 0 := by
  simp only [Chip.mapCmd, hcheck, hm]

/-- Settles O11: the checks come first; what passes them is mapped page by page, or unmapped page by page, at once or at the next launch. -/
theorem mapAndUnmap : Obligations.MapAndUnmap := by
  unfold Obligations.MapAndUnmap
  intro p c h va pages hfn hst hva vps whole plain keeps
  have ht : Taken c h false true := ⟨hfn.imp_right fun hb => ⟨rfl, hb⟩, fun _ => hst⟩
  have hmap (a : MapAttr) : exec (.mapPages h va pages a) ⟨p, c⟩ = .next ⟨p, c.mapCmd h va pages a⟩ := run_command ht p
  have hunmap : exec (.unmapPages h va pages) ⟨p, c⟩ = .next ⟨p, c.unmapCmd h va pages⟩ := run_command ht p
  have hok {a : MapAttr} {c1 : Chip} (hplain : plain) (hcheck : c.mapCheck h.ctx va pages a = none)
      (hm : c.tryMap h.ctx va.toNat pages.toNat a = .ok c1) : exec (.mapPages h va pages a) ⟨p, c⟩ = .next ⟨p, c1.ok h 0⟩ := by
    rw [hmap, mapCmd_ok hcheck hm, deferOr_plain hplain]
  have hgood (hrange : rangeOk va.toNat pages.toNat = true) (hmapped : ∀ vp ∈ vps, tget none (c.ctx h.ctx).pages vp ≠ none) :
      c.unmapCmd h va pages = (c.deferOr h.ctx (.unmapPages h va pages) (c.unmap h.ctx vps)).ok h 0 := by
    rw [unmapCmd_eq hva, if_neg]
    rintro (hr | ⟨vp, hvp, hn⟩)
    · rw [hrange] at hr; exact Bool.noConfusion hr
    · exact hmapped vp hvp hn
  refine ⟨fun hplain a hplace hpset hrange hfree => ⟨fun c1 hm hs => ⟨?mapped, fun hw hwp => ?pages⟩, fun c1 hm => ?spilled, fun e he => ?full⟩,
    fun a hplace => ⟨fun hpair hpset => ?pset, fun hpset hbad => ?badMap⟩, fun a c1 hplace hpset hrange hfree hm r hr hs => ?keepMap,
    fun hrange hmapped r hr hs => ?keepUnmap, fun hplain hrange hmapped => ?unmapped, fun hbad => ?badUnmap, rangeOk_iff _ _⟩
  case mapped => exact hok hplain (mapCheck_none hva hplace hpset hrange hfree) (tryMap_of_fits hm hs)
  case pages => exact mapMany_some hst hm
  case spilled => exact hok hplain (mapCheck_none hva hplace hpset hrange hfree) hm
  case full =>
    have hcheck := mapCheck_none (c := c) (n := h.ctx) hva hplace hpset hrange hfree
    refine ⟨?_, tryMap_error he⟩
    rw [hmap]
    simp only [Chip.mapCmd, hcheck, he]
  case pset =>
    have hcheck : c.mapCheck h.ctx va pages a = some (0x0102, 50) := mapCheck_pset hva hpair hpset
    rw [hmap]
    simp only [Chip.mapCmd, hcheck]
    rfl
  case badMap =>
    have hcheck : c.mapCheck h.ctx va pages a = some (0x0105, 32) := by rw [mapCheck_eq hva hplace hpset, if_pos hbad]
    rw [hmap]
    simp only [Chip.mapCmd, hcheck]
    rfl
  case keepMap => rw [hmap, mapCmd_ok (mapCheck_none hva hplace hpset hrange hfree) hm, deferOr_step hr hs]
  case keepUnmap => rw [hunmap, hgood hrange hmapped, deferOr_step hr hs]
  case unmapped => exact ⟨_, by rw [hunmap, hgood hrange hmapped, deferOr_plain hplain], fun _ hwp => unmap_spec hst hwp⟩
  case badUnmap => rw [hunmap, unmapCmd_eq hva, if_pos hbad]

end Sys2Proof.Machine
end

section
/-!
PROOFS. Control commands that check their operands and then set something (R205, R219, R231, R259, R283, R325, R351), and execute
commands, which join their queue (R307, R345, R350).
-/
namespace Sys2Proof.Machine

/-! ### Models (R283, R325) -/

theorem grantCmd_eq {c : Chip} {h : Hdr} {model : W16} {g : BitVec 10} {va : W64} {i : Nat} (hi : c.modelSlot model = some i)
    (hva : va.toNat < 2 ^ 48) (hal : va.toNat % pageSize = 0) (hg : (c.ctx g.toNat).st ≠ .free) :
    let ps := c.modelPages (c.model i)
    let place (vp : Nat) : Nat := va.toNat / pageSize + (vp - (ps.map (·.1)).headD 0)
    (∀ x ∈ ps, place x.1 < 2 ^ 27 ∧ tget none (c.ctx g.toNat).pages (place x.1) = none) →
    c.grantCmd h model g va =
      ((c.modCtx g.toNat (fun x => { x with pages := ps.foldl (fun t y =>
          tput none t (place y.1) (some { y.2 with granted := true, attr := { y.2.attr with ro := true } })) x.pages })).modModel i
        (fun m => { m with grantees := if m.grantees.contains g.toNat then m.grantees else m.grantees ++ [g.toNat] })).ok h 0 := by
  intro ps place hplace
  have hany : ps.any (fun x => decide (2 ^ 27 ≤ place x.1) || (tget none (c.ctx g.toNat).pages (place x.1)).isSome) = false := by
    rw [List.any_eq_false]
    intro x hx
    obtain ⟨hlt, hnone⟩ := hplace x hx
    simp only [hnone, Nat.not_le.2 hlt, decide_false, Option.isSome_none, Bool.or_self, Bool.false_eq_true, not_false_eq_true]
  simp only [Chip.grantCmd, vaOk, decide_eq_true hva, hg, hi, Bool.not_true, Bool.false_eq_true, if_false]
  refine if_neg ?_
  rintro (h0 | h0)
  · exact h0 hal
  · exact Bool.false_ne_true (hany.symm.trans h0)

/-- Settles O12: each command is its effect on the entry the model's number names. -/
theorem modelPinEvictGrant : Obligations.ModelPinEvictGrant := by
  unfold Obligations.ModelPinEvictGrant
  intro p c h model i hi
  refine ⟨fun pin ht => (run_command ht p).trans ?_, fun ht hpin hact => (run_command ht p).trans ?_, fun ht hbusy => (run_command ht p).trans ?_,
    ?grant⟩
  · simp only [hi]
  · simp [hi, hpin, hact]
  · have hor : ((c.model i).pin || c.modelActive model) = true := by simpa using hbusy
    simp only [hi, hor, if_true]
  case grant =>
    intro g va ht hva hal hg ps place hplace
    refine (run_command ht p).trans ?_
    rw [grantCmd_eq hi hva hal hg hplace]

/-! ### Execute commands (R345, R350) -/

/-- A command joins a queue that has room. -/
theorem enqueue_of_room {c : Chip} {i : Instr} (h : (c.ctx (cmdHdr i).ctx).execQ.length < 64) :
    c.enqueue i = c.modCtx (cmdHdr i).ctx (fun x =>
      { x with execQ := x.execQ ++ [{ cmd := i }], st := if x.st = .idle then .ready else x.st }) := by
  have hroom : ¬ 64 ≤ (c.ctx (cmdHdr i).ctx).execQ.length := Nat.not_le.2 h
  rw [Chip.enqueue, Chip.modCtx, Chip.modCtx, tmod, tmod]
  simp only [Chip.ctx] at hroom
  rw [if_neg hroom]

/-- Settles O14: a taken execute command is put behind what waits in its queue. -/
theorem stepAndServeCommandsJoinTheQueue : Obligations.StepAndServeCommandsJoinTheQueue := by
  unfold Obligations.StepAndServeCommandsJoinTheQueue
  intro p c h ht hroom join at'
  have hjoin (i : Instr) (hi : (cmdHdr i).ctx = h.ctx) : c.enqueue i = join i := by
    rw [enqueue_of_room (by rw [hi]; exact hroom), hi]
  refine ⟨fun a => (run_command ht p).trans ?_, fun a k => (run_command ht p).trans ?_, fun a => (run_command ht p).trans ?_,
    fun a hfit => (run_command ht p).trans ?_⟩
  · rw [hjoin _ rfl]; rfl
  · rw [hjoin _ rfl]; rfl
  · rw [hjoin _ rfl]; rfl
  · have hany : (c.modelsOf h.ctx).any (fun k => decide ((c.model k).hdr.decMaxArea < a.decMax.toNat + 1 + a.pfMax.toNat)) = false := by
      rw [List.any_eq_false]
      exact fun k hk => by simpa using hfit k hk
    rw [Chip.serveCmd, hany, ← hjoin _ rfl]
    rfl

/-! ### COMMIT and ABORT (R351) -/

theorem ack_done {c : Chip} {h : Hdr} {step : W48} (hacked : (c.ctx h.ctx).acked.contains step = false)
    (hdone : (c.ctx h.ctx).doneSteps.contains step = true) (abort : Bool) :
    c.ack h step abort = (c.modCtx h.ctx (fun x => { x with acked := step :: x.acked })).ok h (if abort then 1 else 0) := by
  simp only [Chip.ack, hacked, hdone, Bool.false_eq_true, if_false, if_true]

theorem ack_kept {c : Chip} {h : Hdr} {step : W48} (hacked : (c.ctx h.ctx).acked.contains step = false)
    (hdone : (c.ctx h.ctx).doneSteps.contains step = false) (hrun : (c.ctx h.ctx).run = none) (abort : Bool) :
    c.ack h step abort = ((c.modCtx h.ctx (fun x => { x with acked := step :: x.acked })).modCtx h.ctx
      (fun x => { x with keptAcks := x.keptAcks ++ [(step, abort)] })).ok h 0 := by
  simp only [Chip.ack, hacked, hdone, hrun, Bool.false_eq_true, if_false]

theorem ack_again {c : Chip} {h : Hdr} {step : W48} (hacked : (c.ctx h.ctx).acked.contains step = true) (abort : Bool) :
    c.ack h step abort = c.done h 0x0105 32 0 := by
  simp only [Chip.ack, hacked, if_true]
  rfl

/-! ### Settings of training -/

/-- An entry that Table 9.3 allows. -/
theorem ocfgBad_eq_none {e : Ocfg} (hrule : e.rule.toNat < 4) (hrnd : e.rnd ≠ 3) (hfmt : e.wfmt = 2 ∨ e.wfmt = 3)
    (hscl : e.wscl = 1 ∨ e.wscl = 2 ∨ e.wscl = 3 ∨ e.wscl = 5 ∨ e.wscl = 6 ∨ e.wscl = 7) : ocfgBad e = none := by
  have hlow : bit e.wscl.toNat 3 = false ∧ e.wscl.toNat % 4 ≠ 0 := by
    rcases hscl with h | h | h | h | h | h <;> rw [h] <;> decide
  have hf : ¬ (e.wfmt ≠ 2 ∧ e.wfmt ≠ 3) := by rcases hfmt with h | h <;> simp [h]
  simp only [ocfgBad, Nat.not_le.2 hrule, hrnd, hf, hlow.1, hlow.2, Bool.false_eq_true, if_false]

/-- Settles O15: an acknowledgement is looked up among those that came and the steps that ended; a setting passes its checks and is stored. -/
theorem commitAbortAndTrainingSettings : Obligations.CommitAbortAndTrainingSettings := by
  unfold Obligations.CommitAbortAndTrainingSettings
  refine ⟨fun p c h step ht => ?_, fun p c h ht => ⟨fun k e hrule hrnd hfmt hscl => ?ocfg, fun e n he hn hrun => ?ls, fun a hmib hbase => ?gmode,
    fun a hshards hsteps hms hms' => ?replica⟩⟩
  · have hcommit : exec (.commitCmd h step) ⟨p, c⟩ = .next ⟨p, c.ack h step false⟩ := run_command ht p
    have habort : exec (.abortCmd h step) ⟨p, c⟩ = .next ⟨p, c.ack h step true⟩ := run_command ht p
    rw [hcommit, habort]
    refine ⟨fun ha hd => ⟨?_, ?_⟩, fun ha hd hr => ⟨?_, ?_⟩, fun ha => ⟨?_, ?_⟩⟩
    · rw [ack_done ha hd]; rfl
    · rw [ack_done ha hd]; rfl
    · rw [ack_kept ha hd hr]
    · rw [ack_kept ha hd hr]
    · rw [ack_again ha]
    · rw [ack_again ha]
  case ocfg =>
    refine (run_command ht p).trans ?_
    simp only [ocfgBad_eq_none hrule hrnd hfmt hscl]
  case ls =>
    refine (run_command ht p).trans ?_
    simp only [Nat.not_lt.2 he, Nat.not_lt.2 hn, if_false]
    rw [deferOr_plain (fun r hr => by simp [hrun] at hr)]
  case gmode =>
    refine (run_command ht p).trans ?_
    simp only [hmib, hbase, ne_eq, not_true_eq_false, if_false]
  case replica =>
    have hms0 : ¬ (a.stragMs = 0 ∨ 10000 < a.stragMs.toNat) := by
      rintro (h0 | h0)
      · rw [h0] at hms; exact absurd hms (by decide)
      · omega
    refine (run_command ht p).trans ?_
    simp only [hshards, hsteps, hms0, if_false]

end Sys2Proof.Machine
end

section
/-!
PROOFS. Rights (R333), and the commands that any function may issue without a context: CAP_QUERY, LEVEL_SET, NOP (R342, R343).
-/
namespace Sys2Proof.Machine

/-! ### Rights -/

theorem command_refused {c : Chip} {h : Hdr} {pf need : Bool} {f : Chip → Chip} (hfn : h.fn ≠ 0) (hr : pf = true ∨ c.boundCtx h.fn ≠ some h.ctx) :
    c.command h pf need f = c.done h 0x0603 0 0 := by
  have hno : c.rightsOk h pf = false := by
    rcases hr with hr | hr
    · simp [Chip.rightsOk, hfn, hr]
    · simp [Chip.rightsOk, hfn, hr]
  simp only [Chip.command, hno, Bool.not_false, if_true]

theorem run_command_refused {c : Chip} {h : Hdr} {pf need : Bool} {f : Chip → Chip} (hfn : h.fn ≠ 0) (hr : pf = true ∨ c.boundCtx h.fn ≠ some h.ctx)
    (p : List Instr) : State.run ⟨p, c⟩ (fun c => c.command h pf need f) = .next ⟨p, c.done h 0x0603 0 0⟩ := by
  rw [run_eq, command_refused hfn hr]

/-! ### The capability block (Table 14.6) -/

/-- A number that sums the powers of two of the keys that meet a test below `n`. -/
def bitsOf (q : Nat → Bool) (n : Nat) : Nat := (List.range n).foldl (fun a k => if q k then a + 2 ^ k else a) 0

theorem bitsOf_succ (q : Nat → Bool) (n : Nat) : bitsOf q (n + 1) = if q n then bitsOf q n + 2 ^ n else bitsOf q n := by
  simp [bitsOf, List.range_succ]

theorem bitsOf_lt (q : Nat → Bool) (n : Nat) : bitsOf q n < 2 ^ n := by
  induction n with
  | zero => exact Nat.one_pos
  | succ n ih =>
    rw [bitsOf_succ, Nat.pow_succ]
    split <;> omega

theorem testBit_bitsOf (q : Nat → Bool) {n k : Nat} (h : k < n) : (bitsOf q n).testBit k = q k := by
  induction n with
  | zero => exact absurd h (Nat.not_lt_zero k)
  | succ n ih =>
    rw [bitsOf_succ]
    have hlt := bitsOf_lt q n
    rcases Nat.lt_succ_iff_lt_or_eq.1 h with hk | rfl
    · split
      · rw [Nat.add_comm, Nat.testBit_two_pow_add_gt hk, ih hk]
      · exact ih hk
    · cases hq : q k with
      | true => rw [if_pos rfl, Nat.add_comm, Nat.testBit_two_pow_add_eq, Nat.testBit_lt_two_pow hlt]; rfl
      | false => rw [if_neg Bool.false_ne_true, Nat.testBit_lt_two_pow hlt]

theorem opcodeBits_eq : opcodeBits = bitsOf (fun k => (opRow k false 0).isSome) 256 := rfl

theorem bit_opcodeBits {k : Nat} (hk : k < 256) : bit opcodeBits k = (opRow k false 0).isSome :=
  (congrArg (Nat.testBit · k) opcodeBits_eq).trans (testBit_bitsOf (fun k => (opRow k false 0).isSome) hk)

theorem capBlock_length (c : Chip) : c.capBlock.length = 64 := by simp [Chip.capBlock]

/-- The words of the block. -/
theorem capBlock_words (c : Chip) :
    imgNum c.capBlock 0 8 = 0x11 + Config.fwMajor.toNat * 2 ^ 8 + Config.fwMinor.toNat * 2 ^ 16 + b2n (decide (c.boot.ident0.part = 1)) * 2 ^ 24 ∧
    imgNum c.capBlock 8 8 = 1023 + 15 * 2 ^ 11 + 511 * 2 ^ 15 + 7 * 2 ^ 24 + 65536 * 2 ^ 32 ∧
    imgNum c.capBlock 16 8 = 0x01FF + 512 * 2 ^ 16 + 32768 * 2 ^ 32 ∧ imgNum c.capBlock 24 8 = 0 ∧ imgNum c.capBlock 32 32 = opcodeBits := by
  have hea := b2n_eq (decide (c.boot.ident0.part = 1))
  simp only [Chip.capBlock, List.append_assoc]
  refine ⟨?_, ?_, ?_, ?_, ?_⟩
  · rw [imgNum_leBytes]; omega
  · rw [imgNum_leBytes_skip 8 _ 0, imgNum_leBytes]; rfl
  · rw [imgNum_leBytes_skip 8 _ 8, imgNum_leBytes_skip 8 _ 0, imgNum_leBytes]; rfl
  · rw [imgNum_leBytes_skip 8 _ 16, imgNum_leBytes_skip 8 _ 8, imgNum_leBytes_skip 8 _ 0, imgNum_leBytes]; rfl
  · rw [imgNum_leBytes_skip 8 _ 24, imgNum_leBytes_skip 8 _ 16, imgNum_leBytes_skip 8 _ 8, imgNum_leBytes_skip 8 _ 0]
    have hread := imgNum_leBytes 32 opcodeBits []
    rw [List.append_nil] at hread
    rw [hread]
    exact Nat.mod_eq_of_lt (bitsOf_lt _ 256)

/-- The fields of the block's first word and its opcode bits (R343). -/
theorem capBlock_fields (c : Chip) :
    imgNum c.capBlock 0 1 = 0x11 ∧ imgNum c.capBlock 1 1 = Config.fwMajor.toNat ∧ imgNum c.capBlock 2 1 = Config.fwMinor.toNat ∧
    imgNum c.capBlock 3 5 = (if c.boot.ident0.part = 1 then 1 else 0) ∧
    ∀ k, k < 256 → bit (imgNum c.capBlock 32 32) k = (opRow k false 0).isSome := by
  obtain ⟨hw, -, -, -, hops⟩ := capBlock_words c
  have hea : b2n (decide (c.boot.ident0.part = 1)) = if c.boot.ident0.part = 1 then 1 else 0 := by simp [b2n]
  have hle : (if c.boot.ident0.part = 1 then 1 else 0) ≤ 1 := by split <;> decide
  have hmajor := Config.fwMajor.isLt
  have hminor := Config.fwMinor.isLt
  rw [hea] at hw
  refine ⟨?_, ?_, ?_, ?_, fun k hk => by rw [hops]; exact bit_opcodeBits hk⟩
  all_goals
    simp only [imgNum_eq] at hw ⊢
    generalize leNat c.capBlock = v at hw ⊢
    generalize (if c.boot.ident0.part = 1 then 1 else 0) = ea at hw hle ⊢
    omega

theorem withHost_host (c : Chip) (m : Memory) : ({ c with host := m } : Chip) = { c with host := ({ c with host := m } : Chip).host } := rfl

/-- Settles O9: the rights come before each command's effect; the capability block is laid out word by word. -/
theorem rightsCapabilityLevelAndNop : Obligations.RightsCapabilityLevelAndNop := by
  unfold Obligations.RightsCapabilityLevelAndNop
  refine ⟨fun c h pf need f hfn hr => command_refused hfn hr, ?refused, fun p c h hfn => ?taken, fun c => ?block⟩
  case refused =>
    intro p c h hfn
    have hpf {f : Chip → Chip} {need : Bool} : State.run ⟨p, c⟩ (fun c => c.command h true need f) = .next ⟨p, c.done h 0x0603 0 0⟩ :=
      run_command_refused hfn (.inl rfl) p
    exact ⟨fun hb => ⟨fun _ => run_command_refused hfn (.inr hb) p, fun _ => run_command_refused hfn (.inr hb) p, run_command_refused hfn (.inr hb) p⟩,
      fun _ => hpf, hpf, fun _ _ => hpf, fun _ => hpf, fun _ _ _ => hpf, fun _ => hpf, hpf, fun _ => hpf, fun _ _ _ => hpf, fun _ _ => hpf,
      fun _ _ _ => hpf⟩
  case taken =>
    have ht : Taken c h false false := ⟨hfn.imp_right fun hb => ⟨rfl, hb⟩, fun h0 => absurd h0 Bool.false_ne_true⟩
    have hsame (hw : Tab.wf ({} : Vf) c.vfs = true) := tget_tmod_same (n := h.fn) (f := fun v => ({ v with level := 1 } : Vf)) hw
    have hother (k : Nat) (hk : k ≠ h.fn) := tget_tmod_ne (d := ({} : Vf)) (t := c.vfs) (f := fun v => ({ v with level := 1 } : Vf)) hk
    refine ⟨fun ha => ⟨{ c with host := mwrite c.host ha.toNat c.capBlock }, run_command ht p, withHost_host c _, fun hw => ?_⟩,
      fun hw => ⟨_, run_command ht p, rfl, hsame hw, hother⟩, run_command ht p, fun l hl => ?_, run_command ht p⟩
    · have hread := mread_mwrite hw ha.toNat c.capBlock
      rw [capBlock_length] at hread
      dsimp only
      refine ⟨hread, fun a ha' => ?_⟩
      exact mget_mwrite_outside (by rwa [capBlock_length])
    · have h0 : l ≠ 0 := by rintro rfl; exact absurd hl (by decide)
      have h1 : l ≠ 1 := by rintro rfl; exact absurd hl (by decide)
      refine (run_command ht p).trans ?_
      rw [if_neg h0, if_pos h1]
      rfl
  case block =>
    obtain ⟨-, h8, h16, h24, -⟩ := capBlock_words c
    obtain ⟨h0, h1, h2, h3, hbits⟩ := capBlock_fields c
    exact ⟨capBlock_length c, h0, h1, h2, h3, h8, h16, h24, hbits⟩

end Sys2Proof.Machine
end

section
/-!
PROOFS. The stream commands and stop sets (R265, R269, R277).
-/
namespace Sys2Proof.Machine

/-- The entries below the lowest free index are all listed, so that index is at most their count. -/
theorem lowest_free_stream_le {c : Chip} {i : Nat} (hlow : ∀ j, j < i → (c.entry j).st ≠ .free) : i ≤ c.serving.streams.length := by
  have hsub : List.range i ⊆ c.serving.streams.map (·.1) := fun j hj =>
    mem_keys_of_tget_ne (d := ({} : StreamEntry)) (fun h0 => hlow j (List.mem_range.1 hj) (congrArg StreamEntry.st h0))
  simpa using (List.subperm_of_subset List.nodup_range hsub).length_le

theorem freeStream_eq_some {c : Chip} {i : Nat} (hi : i < 65536) (hfree : (c.entry i).st = .free)
    (hlow : ∀ j, j < i → (c.entry j).st ≠ .free) : c.freeStream = some i := by
  have hlen := lowest_free_stream_le hlow
  rw [Chip.freeStream, List.find?_range_eq_some]
  exact ⟨by simpa using hfree, by simp; omega, fun j hj => by simpa using hlow j hj⟩

theorem freeStream_eq_none {c : Chip} (h : ∀ j, j < 65536 → (c.entry j).st ≠ .free) : c.freeStream = none := by
  rw [Chip.freeStream, List.find?_eq_none]
  intro j hj
  have hlt : j < 65536 := by simp at hj; omega
  simpa using h j hlt

section
variable {c : Chip} {h : Hdr} {a : StreamOpenP} {k : Nat}

/-- STREAM_OPEN of a stream that fits its model, with a place for its block table, asks for a free entry. -/
theorem openStream_eq (hprompt : a.prompt ≠ 0) (hmax : a.prompt.toNat ≤ a.maxLen.toNat) (hlog : a.tokLog.toNat % 256 = 0)
    (hk : c.modelSlot a.model = some k) (hserves : (c.model k).serves = true) (hclass : a.sclass.toNat < (c.model k).hdr.sclasses)
    (hbtab : a.btab.toNat % 256 = 0)
    (hplain : (c.ctx h.ctx).plainRange false a.btab.toNat ((openEntry a h.ctx).tableBytes (c.model k).hdr) = true) :
    c.openStream h a = match c.freeStream with
      | none => c.done h 0x0203 0 0
      | some i => ((c.fwStore h.ctx a.btab.toNat (List.replicate ((openEntry a h.ctx).tableBytes (c.model k).hdr) 0)).modEntry i
          (fun x => { openEntry a h.ctx with gen := x.gen })).ok h (BitVec.ofNat 32 i) := by
  have hlen : ¬ (a.prompt = 0 ∨ a.maxLen.toNat < a.prompt.toNat) := by
    rintro (h0 | h0)
    · exact hprompt h0
    · omega
  simp only [Chip.openStream]
  rw [if_neg hlen, if_neg (by simpa using hlog), hk]
  simp only [hserves, hplain, hbtab, Nat.not_le.2 hclass, if_false, Bool.not_true, Bool.false_eq_true, or_self, ne_eq, not_true] <;> rfl

/-- A close, park or unpark of a stream of the context joins what waits for the boundary. -/
theorem requestStream_own {w : W16} (hst : (c.entry w.toNat).st ≠ .free) (hctx : (c.entry w.toNat).ctx.toNat = h.ctx) (i : Instr) :
    c.requestStream h w i = c.modCtx h.ctx (fun x => { x with streamReqs := x.streamReqs ++ [(i, (c.entry w.toNat).gen)] }) :=
  if_neg (by rintro (h0 | h0); exacts [hst h0, h0 hctx])

theorem requestStream_other {w : W16} (hw : (c.entry w.toNat).st = .free ∨ (c.entry w.toNat).ctx.toNat ≠ h.ctx) (i : Instr) :
    c.requestStream h w i = c.done h 0x0104 0 0 := if_pos hw

end

/-- Settles O17: the lowest free entry is found because every entry below it is listed. -/
theorem streamCommands : Obligations.StreamCommands := by
  unfold Obligations.StreamCommands
  intro p c h ht
  refine ⟨fun a k i hprompt hmax hlog hk hserves hclass hbtab hplain => ⟨fun hfree hi hlow => ?_, fun hfull => ?_⟩, fun k hst hctx => ?own,
    fun k ha hk => ?other, fun k va data c1 hva hk hbad hwrite => ?_⟩
  · refine (run_command ht p).trans ?_
    rw [openStream_eq hprompt hmax hlog hk hserves hclass hbtab hplain, freeStream_eq_some hi hfree hlow]
  · refine (run_command ht p).trans ?_
    rw [openStream_eq hprompt hmax hlog hk hserves hclass hbtab hplain, freeStream_eq_none hfull]
  case own =>
    intro join
    have hreq (i : Instr) : State.run ⟨p, c⟩ (fun c => c.command h false true (fun c => c.requestStream h k i)) = .next ⟨p, join i⟩ := by
      rw [run_command ht, requestStream_own hst hctx]
    refine ⟨hreq _, hreq _, hreq _, fun ha => (run_command ht p).trans ?_⟩
    rw [if_neg (by rintro (h0 | h0); exacts [hst h0, h0 hctx])]
  case other =>
    have hreq (i : Instr) : State.run ⟨p, c⟩ (fun c => c.command h false true (fun c => c.requestStream h k i)) =
        .next ⟨p, c.done h 0x0104 0 0⟩ := by
      rw [run_command ht, requestStream_other hk]
    exact ⟨hreq _, hreq _, hreq _, (run_command ht p).trans (by rw [if_pos hk])⟩
  · refine (run_command ht p).trans ?_
    have hok : vaOk va = true := by simpa [vaOk] using hva
    simp only [hok, hbad, hwrite, Bool.not_true, Bool.false_eq_true, if_false]
    rw [if_neg hk]

end Sys2Proof.Machine
end

section
/-!
PROOFS. PART_SET saves what an idle last context left in its partition, and forgets that context (R309, R316, R427).
-/
namespace Sys2Proof.Machine

/-- The module as at reset, but that partition 0 last ran context 0, which is idle now. -/
def idleLastChip : Chip :=
  { Chip.reset with
    ctxs := [(0, { st := .idle })]
    parts := tmod {} Chip.reset.parts 0 (fun q => { q with cur := some 0 }) }

/-- A command of the PF for context 0. -/
def pfHdr : Hdr := { fn := 0, page := 0, ring := 0, seq := 0, ctx := 0, fence := false, hold := false, inln := false }

/-- PART_SET of partition 0 with every resource of the module. -/
def wholePart : PartSetP :=
  { part := 0, tagCnt := 64, tagBase := 0, semCnt := 64, semBase := 0, ptW := BitVec.allOnes 64, ptE := BitVec.allOnes 64,
    te := BitVec.allOnes 64, uu := BitVec.allOnes 8, su := BitVec.allOnes 32, share := 0x8000, sliceMs := 10, killLimit := 4 }

theorem taken_idleLastChip : Taken idleLastChip pfHdr true true := ⟨.inl rfl, fun _ => by decide⟩

/-- The command leaves the partition with no last context. -/
theorem partSetCmd_forgets_cur : ((idleLastChip.partSetCmd pfHdr wholePart).part 0).cur = none := by decide +kernel

/-- Refutes O18: PART_SET of a partition whose last context is idle saves that context's state and clears `cur`; the statement keeps `cur`. -/
theorem not_partitionSetAndLocks : ¬ Obligations.PartitionSetAndLocks := by
  unfold Obligations.PartitionSetAndLocks
  rintro ⟨hset, -⟩
  obtain ⟨c1, hexec, hpart, -⟩ := (hset [] idleLastChip pfHdr wholePart taken_idleLastChip (by decide) (by decide)).1
    (by decide +kernel) (by decide) (by decide) (by decide)
  have hrun : idleLastChip.partSetCmd pfHdr wholePart = c1.ok pfHdr 0 := by
    have := (run_command taken_idleLastChip []).symm.trans hexec
    injection this with hs
    exact congrArg State.chip hs
  have hcur : (c1.part 0).cur = none := by
    obtain ⟨m, y, v, hok⟩ := ok_frame c1 pfHdr 0
    have := partSetCmd_forgets_cur
    rwa [hrun, hok] at this
  have hkept : (c1.part 0).cur = some 0 := congrArg Partition.cur hpart
  rw [hcur] at hkept
  cases hkept

end Sys2Proof.Machine
end

section
/-!
PROOFS. Ring registers written from the host (R332, R336 to R338, R348).
-/
namespace Sys2Proof.Machine

section
variable {c : Chip} {n r : Nat} {f : Ring → Ring}

/-- A ring after its update, in canonical tables. -/
theorem ring_modRing_same (hc : Tab.wf ({} : Ctx) c.ctxs = true) (hr : Tab.wf ({} : Ring) (c.ctx n).rings = true) :
    (c.modRing n r f).ring n r = f (c.ring n r) := by
  rw [Chip.ring, Chip.modRing, ctx_modCtx_same _ hc]
  exact tget_tmod_same hr

/-- Another ring, of the context or of another one, is as before. -/
theorem ring_modRing_other (hc : Tab.wf ({} : Ctx) c.ctxs = true) {m k : Nat} (h : m ≠ n ∨ k ≠ r) :
    (c.modRing n r f).ring m k = c.ring m k := by
  by_cases hm : m = n
  · subst hm
    rw [Chip.ring, Chip.modRing, ctx_modCtx_same _ hc]
    exact tget_tmod_ne (h.resolve_left (fun h0 => h0 rfl))
  · rw [Chip.ring, Chip.modRing, ctx_modCtx_ne _ _ hm]
    rfl

end

/-- A TAIL within the ring is only taken. -/
theorem ringTail_of_lt {g : Ring} {tail : W32} (h : tail.toNat < g.slots) : g.ringTail tail = { g with tail := tail } := by
  have hs : ¬ ({ g with tail := tail } : Ring).slots ≤ tail.toNat := Nat.not_le.2 h
  simp only [Ring.ringTail, hs, and_false, if_false]

/-- A TAIL at or above the ring's size stops a ring in use. -/
theorem ringTail_of_le {g : Ring} {tail : W32} (h : g.slots ≤ tail.toNat) (he : g.enable = true) (hs : g.stopped = false) :
    g.ringTail tail = { g with tail := tail, stopped := true, err := true, badoff := BitVec.ofNat 8 g.head.toNat } := by
  have hstop : g.enable = true ∧ (!g.stopped) = true ∧ ({ g with tail := tail } : Ring).slots ≤ tail.toNat := ⟨he, by rw [hs]; rfl, h⟩
  exact if_pos hstop

/-- ENABLE from 0 to 1 zeroes the indices of both rings and restarts the ring. -/
theorem control_enables {g : Ring} {v : Nat} (hv : bit v 0 = true) (he : g.enable = false) :
    g.control v = { g with
      vector := BitVec.ofNat 12 (bits v 15 4), intr := bit v 1, err := g.err && !bit v 3, enable := true,
      head := 0, tail := 0, cplHead := 0, cplTail := 0, stopped := false, fenceOn := none } := by
  simp only [Ring.control, hv, he, Bool.not_false, Bool.and_self, if_true]

/-- Settles O20, by the page that the function reaches. -/
theorem ringRegisters : Obligations.RingRegisters := by
  unfold Obligations.RingRegisters
  intro p c fn ctx ring
  refine ⟨fun n tail stores hpage hring hwf hrings => ?bell, fun n v hpage hring => ⟨?_, fun hv he => ?_⟩, fun n v hpage hring => ?_,
    fun n v hpage hring => ?_, fun v hpage => ?_, fun hfn hctx => ?_, fun hfn => if_neg hfn⟩
  case bell =>
    intro c1
    refine ⟨c1.modRing n ring (fun g => g.ringTail tail), ?_, rfl, fun h => ?_, fun h he hs => ?_, fun m k h => ring_modRing_other hwf h⟩
    · have hbell : c.doorbell fn ctx ring tail stores = c1.modRing n ring (fun g => g.ringTail tail) := by
        have hpage1 : c1.pageOf fn ctx = some n := hpage
        simp only [Chip.doorbell]
        rw [hpage1]
        exact if_pos hring
      exact congrArg (fun k => Host.Outcome.next (State.mk p k)) hbell
    · exact (ring_modRing_same hwf hrings).trans (ringTail_of_lt h)
    · exact (ring_modRing_same hwf hrings).trans (ringTail_of_le h he hs)
  · simp only [exec, execRingEnable, run_eq, hpage, Chip.ringControl, hring, if_true]
  · rw [control_enables hv he]
    exact ⟨rfl, rfl, rfl, rfl, rfl, rfl⟩
  · simp only [exec, execCplHeadWrite, run_eq, hpage, Chip.cplHead, hring, if_true]
  · simp only [exec, execOringHeadWrite, run_eq, hpage, Chip.oringHead, hring, if_true]
  · have hpage0 : ({ c with host := c.host } : Chip).pageOf fn ctx = none := hpage
    simp only [exec, execRingEnable, execCplHeadWrite, execOringHeadWrite, execDoorbell, run_eq, Chip.doorbell, List.foldl_nil, hpage,
      and_self]
  · rw [Chip.pageOf, if_pos hfn, if_pos hctx]

end Sys2Proof.Machine
end

section
/-!
PROOFS. Packets leave the rings, commands start and end (R336, R345, R346, R350).
-/
namespace Sys2Proof.Machine

/-! ### What posting a record leaves of a context -/

/-- Whatever rings a context gets, it is not as at reset. -/
def Ctx.Stays (x : Ctx) : Prop := ∀ R, ({ x with rings := R } : Ctx) ≠ {}

theorem stays_of_execQ {x : Ctx} (h : x.execQ ≠ []) : x.Stays := fun _ h0 => h (congrArg Ctx.execQ h0)

section
variable {c : Chip} {n : Nat}

theorem ctx_modRing_rings (hs : (c.ctx n).Stays) (m r : Nat) (f : Ring → Ring) :
    ∃ R, (c.modRing m r f).ctx n = { c.ctx n with rings := R } := by
  by_cases hm : n = m
  · subst hm
    exact ⟨_, ctx_modCtx_of_ne_default c (hs _)⟩
  · exact ⟨_, ctx_modCtx_ne c _ hm⟩

theorem ctx_drainRing_rings (hs : (c.ctx n).Stays) (m r : Nat) : ∃ R, (c.drainRing m r).ctx n = { c.ctx n with rings := R } := by
  unfold Chip.drainRing
  simp only
  split
  · exact ⟨_, rfl⟩
  · split
    · exact ctx_modRing_rings hs m r _
    · exact ctx_modRing_rings hs m r _

/-- Posting a record changes nothing of a context but its rings. -/
theorem ctx_post_rings (hs : (c.ctx n).Stays) (m r : Nat) (x : Record) : ∃ R, (c.post m r x).ctx n = { c.ctx n with rings := R } := by
  obtain ⟨R, hR⟩ := ctx_modRing_rings hs m r (Ring.keeping x)
  have hs' : ((c.modRing m r (Ring.keeping x)).ctx n).Stays := by rw [hR]; exact fun R' => hs R'
  obtain ⟨R', hR'⟩ := ctx_drainRing_rings hs' m r
  exact ⟨R', by rw [post_eq, hR', hR]⟩

theorem ctx_postEnd_rings (hs : (c.ctx n).Stays) (h : Hdr) (e : EndStatus) : ∃ R, (c.postEnd h e).ctx n = { c.ctx n with rings := R } := by
  unfold Chip.postEnd
  split
  · exact ⟨_, rfl⟩
  · exact ctx_post_rings hs _ _ _

end

/-! ### Taking -/

/-- A take of a rotation whose first ring has a packet that is not fenced takes there. -/
theorem takeFrom_cons_of_ready {c : Chip} {n r : Nat} {t : List Nat} (hready : c.ringReady n r = true) (hfence : (c.ring n r).fenceOn = none)
    (hplain : c.fenced n r = false) : Chip.takeFrom n (r :: t) c = c.takeAt n r := by
  rw [Chip.takeFrom, if_neg (by simp [hready, hfence]), if_neg (by simp [hplain])]

/-- The rotation begins one past the ring last taken from. -/
theorem rotation_eq (l : Nat) :
    (List.range 8).map (fun i => (l + 1 + i) % 8) = (l + 1) % 8 :: (List.range 7).map (fun i => (l + 1 + (i + 1)) % 8) := rfl

/-! ### The end of a run -/

/-- A run that has ended posts its record and leaves its context's queue. -/
theorem complete_of_ended {c : Chip} {n : Nat} {r : Run} {e : EndStatus} {y : ExecCmd} {t : List ExecCmd} (hrun : (c.ctx n).run = some r)
    (hq : (c.ctx n).execQ = y :: t) (he : c.ended n = some e) (hheld : r.heldKill = none) (hst : e.status ≠ 0x0701) :
    c.complete n = ((c.postEnd (cmdHdr y.cmd) e).modCtx n
      (fun k => { k with run := none, held := false, execQ := t, st := if t.isEmpty then .idle else k.st })).settlePart (c.ctx n).part := by
  simp only [Chip.complete, he, hrun, hq, hheld, Option.isSome_none, Bool.false_and, Bool.false_eq_true, if_false]
  rw [if_neg hst]

/-- Settles O21: each event is the one branch of its command that the statement's premises leave. -/
theorem commandsAreTakenAndRun : Obligations.CommandsAreTakenAndRun := by
  unfold Obligations.CommandsAreTakenAndRun
  intro p c n
  refine ⟨fun r hr htaking hready hfence hplain => ?_, fun r l hfence htaking hready => ⟨fun hout => ?_, fun hin => ?_⟩, fun y t hq hstart => ?_,
    fun r e y t hrun hq he hheld hst => ?_⟩
  · simp only [exec, execPacketTake, run_eq, htaking, Bool.not_true, Bool.false_eq_true, if_false]
    rw [rotation_eq, ← hr, takeFrom_cons_of_ready hready hfence hplain]
  · have hany : l.any (fun h => (c.outstanding n).contains h) = false := by simpa using hout
    simp only [exec, execFenceRelease, run_eq, hfence, htaking, hready, hany, Bool.not_true, Bool.or_self, Bool.false_eq_true, if_false]
  · have hany : l.any (fun h => (c.outstanding n).contains h) = true := by simpa using hin
    simp only [exec, execFenceRelease, run_eq, hfence, hany, Bool.or_true, if_true]
  · simp only [exec, execExecuteQueueStart, run_eq, hstart, hq, Bool.not_true, Bool.false_eq_true, if_false]
  · refine ⟨_, congrArg (fun k => Host.Outcome.next (State.mk p k)) (complete_of_ended hrun hq he hheld hst), ?_⟩
    obtain ⟨R, hR⟩ := ctx_postEnd_rings (stays_of_execQ (by rw [hq]; simp)) (cmdHdr y.cmd) e
    have hctx := ctx_modCtx_of_ne_default (c.postEnd (cmdHdr y.cmd) e) (n := n)
      (f := fun k => { k with run := none, held := false, execQ := t, st := if t.isEmpty then .idle else k.st }) (by
        cases t with
        | nil => exact ctx_ne_default_of_st (by simp)
        | cons z t => exact fun h0 => nomatch congrArg Ctx.execQ h0)
    rw [hctx, hR]
    exact ⟨rfl, rfl, fun ht => by simp [ht], fun ht => by simp [ht], rfl⟩

end Sys2Proof.Machine
end

section
/-!
PROOFS. Semaphore pairs: what a signal adds and a take takes (R133, R149).
-/
namespace Sys2Proof.Machine

/-! ### Halves of a pair -/

@[simp] theorem half_setHalf_same (s : Sem) (empty : Bool) (v : W16) : (s.setHalf empty v).half empty = v := by cases empty <;> rfl
@[simp] theorem half_setHalf_not (s : Sem) (empty : Bool) (v : W16) : (s.setHalf empty v).half (!empty) = s.half (!empty) := by cases empty <;> rfl

theorem satAdd_toNat (v : W16) (n : Nat) : (satAdd v n).toNat = min 65535 (v.toNat + n) := by
  rw [satAdd]
  split_ifs with h
  · rw [BitVec.toNat_ofNat]
    omega
  · rw [BitVec.toNat_allOnes]
    omega

/-! ### What adding to a half changes of the dies -/

theorem die_modDie_if (c : Chip) (d m : Die) (f : DieSt → DieSt) : (c.modDie d f).die m = if m = d then f (c.die m) else c.die m := by
  split_ifs with h
  · rw [h, die_modDie]
  · exact die_modDie_ne c f h

theorem ite_dbg {p : Bool} {a b : DieSt} {g : Dbg} (h : a = { b with dbg := g }) :
    ∃ g, (if p then a else b) = { b with dbg := g } := by
  split
  · exact ⟨g, h⟩
  · exact ⟨b.dbg, rfl⟩

theorem foldl_dbg_frame {f : DieSt → Nat → DieSt} (hf : ∀ m n, ∃ g, f m n = { m with dbg := g }) (l : List Nat) (m : DieSt) :
    ∃ g, l.foldl f m = { m with dbg := g } := by
  induction l generalizing m with
  | nil => exact ⟨m.dbg, rfl⟩
  | cons n l ih =>
    obtain ⟨g, hg⟩ := hf m n
    obtain ⟨g', hg'⟩ := ih (f m n)
    exact ⟨g', by rw [List.foldl_cons, hg', hg]⟩

/-- Watches change nothing but the debug registers. -/
theorem watch_frame (m : DieSt) (pair : Nat) (empty take : Bool) (time : W64) : ∃ g, m.watch pair empty take time = { m with dbg := g } := by
  refine foldl_dbg_frame (fun m n => ?_) (List.range 8) m
  exact ite_dbg rfl

/-- The pair of a half that a count is added to, with the watches of the die. -/
def Chip.halfAdded (c : Chip) (d : Die) (pair : Nat) (empty : Bool) (n : Nat) : Chip :=
  c.modDie d (fun m => ({ m with
    sems := tput {} m.sems pair (((c.die d).sem pair).setHalf empty (satAdd (((c.die d).sem pair).half empty) n)) } : DieSt).watch
      pair empty false m.ridge)

/-- The WAITs that a half meets by what it holds. -/
def Chip.waitsMet (c : Chip) (d : Die) (pair : Nat) (empty : Bool) (held : Nat) : Chip :=
  match c.partOfPair pair with
  | some q => c.modStream d q (fun x => x.arrived (pair - c.pair q 0) empty held (c.die d).ridge)
  | none => c

/-- The first saturation of a pair is recorded. -/
def Chip.overflowNoted (c : Chip) (d : Die) (pair sum : Nat) : Chip :=
  if sum < 65536 then c else
  match (c.partOfPair pair).bind (fun q => (c.part q).cur) with
  | none => c
  | some x => c.modSide x d (fun k => if k.semOvf then k else { k with semOvf := true, semOvfPair := BitVec.ofNat 12 pair })

/-- An addition is these three. -/
theorem semAdd_eq (c : Chip) (d : Die) (pair : Nat) (empty : Bool) (n : Nat) :
    c.semAdd d pair empty n = ((c.halfAdded d pair empty n).waitsMet d pair empty
      (min ((((c.die d).sem pair).half empty).toNat + n) 65535)).overflowNoted d pair ((((c.die d).sem pair).half empty).toNat + n) := rfl

theorem waitsMet_parts (c : Chip) (d : Die) (pair : Nat) (empty : Bool) (held : Nat) : (c.waitsMet d pair empty held).parts = c.parts := by
  unfold Chip.waitsMet
  split
  · exact modDie_parts _ _ _
  · rfl

theorem overflowNoted_parts (c : Chip) (d : Die) (pair sum : Nat) : (c.overflowNoted d pair sum).parts = c.parts := by
  unfold Chip.overflowNoted
  split
  · rfl
  · split <;> rfl

theorem overflowNoted_die (c : Chip) (d : Die) (pair sum : Nat) (m : Die) : (c.overflowNoted d pair sum).die m = c.die m := by
  unfold Chip.overflowNoted
  split
  · rfl
  · split
    · rfl
    · exact die_modCtx _ _ _ _

theorem semAdd_parts (c : Chip) (d : Die) (pair : Nat) (empty : Bool) (n : Nat) : (c.semAdd d pair empty n).parts = c.parts := by
  rw [semAdd_eq, overflowNoted_parts, waitsMet_parts]
  exact modDie_parts _ _ _

section
variable {α : Type} {π : DieSt → α} (hπ : ∀ (x : DieSt) (g : Dbg) (st : Tab (Option Stream)), π { x with dbg := g, streams := st } = π x)
include hπ

theorem waitsMet_die (c : Chip) (d : Die) (pair : Nat) (empty : Bool) (held : Nat) (m : Die) :
    π ((c.waitsMet d pair empty held).die m) = π (c.die m) := by
  unfold Chip.waitsMet
  split
  · rw [Chip.modStream, die_modDie_if]
    split_ifs
    · exact hπ _ _ _
    · rfl
  · rfl

theorem halfAdded_die (c : Chip) (d : Die) (pair : Nat) (empty : Bool) (n : Nat) (m : Die) :
    π ((c.halfAdded d pair empty n).die m) = π (if m = d then { c.die m with
      sems := tput {} (c.die m).sems pair (((c.die d).sem pair).setHalf empty (satAdd (((c.die d).sem pair).half empty) n)) } else c.die m) := by
  rw [Chip.halfAdded, die_modDie_if]
  split_ifs
  · obtain ⟨g, hg⟩ := watch_frame _ pair empty false (c.die m).ridge
    rw [hg]
    exact hπ _ _ _
  · rfl

/-- Adding to a half changes its pair, and the debug registers and the streams of the die. -/
theorem semAdd_die (c : Chip) (d : Die) (pair : Nat) (empty : Bool) (n : Nat) (m : Die) :
    π ((c.semAdd d pair empty n).die m) = π (if m = d then { c.die m with
      sems := tput {} (c.die m).sems pair (((c.die d).sem pair).setHalf empty (satAdd (((c.die d).sem pair).half empty) n)) } else c.die m) := by
  rw [semAdd_eq, overflowNoted_die, waitsMet_die hπ, halfAdded_die hπ]

end

/-! ### Those that wait on a half -/

theorem waiters_congr {c c' : Chip} (hp : c'.parts = c.parts) (ha : ∀ m, (c'.die m).asks = (c.die m).asks)
    (ht : ∀ m, (c'.die m).threads = (c.die m).threads) (d : Die) (pair : Nat) (empty : Bool) :
    c'.waiters d pair empty = c.waiters d pair empty := by
  have hstake (td : Die) (t : Thread) : c'.stakeOn d td pair empty t = c.stakeOn d td pair empty t := by
    simp only [Chip.stakeOn, Chip.pair, Chip.part, hp]
    rfl
  simp only [Chip.waiters, ha, ht, hstake]

/-- The run that uses a pair learns what a signal of it comes after. -/
def Chip.signalLearnt (c : Chip) (d : Die) (pair : Nat) (empty : Bool) (ids : List Nat) : Chip :=
  match c.pairCtx pair with
  | some x => c.learn x (.half d pair empty) ids
  | none => c

theorem semSignal_eq (c : Chip) (d : Die) (pair : Nat) (empty : Bool) (n : Nat) (ids : List Nat) :
    c.semSignal d pair empty n ids = ((c.signalLearnt d pair empty ids).semAdd d pair empty n).grant d pair empty := rfl

theorem learn_die_parts (c : Chip) (n : Nat) (h : Holder) (ids : List Nat) :
    (∀ m, (c.learn n h ids).die m = c.die m) ∧ (c.learn n h ids).parts = c.parts := by
  unfold Chip.learn
  split
  · exact ⟨fun _ => rfl, rfl⟩
  · exact ⟨fun _ => die_modCtx _ _ _ _, rfl⟩

theorem signalLearnt_die_parts (c : Chip) (d : Die) (pair : Nat) (empty : Bool) (ids : List Nat) :
    (∀ m, (c.signalLearnt d pair empty ids).die m = c.die m) ∧ (c.signalLearnt d pair empty ids).parts = c.parts := by
  unfold Chip.signalLearnt
  split
  · exact learn_die_parts _ _ _ _
  · exact ⟨fun _ => rfl, rfl⟩

/-- With nobody waiting on the half a signal is its addition, on a module that has learnt what the signal comes after. -/
theorem semSignal_of_no_waiters {c : Chip} {d : Die} {pair : Nat} {empty : Bool} (h : c.waiters d pair empty = []) (n : Nat) (ids : List Nat) :
    ∃ c' : Chip, (∀ m, c'.die m = c.die m) ∧ c.semSignal d pair empty n ids = c'.semAdd d pair empty n := by
  obtain ⟨hdie, hparts⟩ := signalLearnt_die_parts c d pair empty ids
  rw [semSignal_eq]
  generalize c.signalLearnt d pair empty ids = c' at *
  refine ⟨c', hdie, ?_⟩
  have hw : (c'.semAdd d pair empty n).waiters d pair empty = [] := by
    refine (waiters_congr ((semAdd_parts _ _ _ _ _).trans hparts) (fun m => ?_) (fun m => ?_) d pair empty).trans h
    · rw [semAdd_die (π := DieSt.asks) (fun _ _ _ => rfl)]
      split_ifs <;> exact (congrArg DieSt.asks (hdie m) :)
    · rw [semAdd_die (π := DieSt.threads) (fun _ _ _ => rfl)]
      split_ifs <;> exact (congrArg DieSt.threads (hdie m) :)
  rw [Chip.grant, hw]

theorem semAdd_sems (c : Chip) (d : Die) (pair : Nat) (empty : Bool) (n : Nat) (m : Die) :
    ((c.semAdd d pair empty n).die m).sems = if m = d then
      tput {} (c.die m).sems pair (((c.die d).sem pair).setHalf empty (satAdd (((c.die d).sem pair).half empty) n)) else (c.die m).sems := by
  rw [semAdd_die (π := DieSt.sems) (fun _ _ _ => rfl)]
  split_ifs <;> rfl

/-- Settles O26, by the half that an addition or a take puts into its pair. -/
theorem semaphoreAddAndTake : Obligations.SemaphoreAddAndTake := by
  unfold Obligations.SemaphoreAddAndTake
  intro c d pair n half hwf
  have hadd := semAdd_sems c d pair half n
  have hsame : ((c.semAdd d pair half n).die d).sem pair = ((c.die d).sem pair).setHalf half (satAdd (((c.die d).sem pair).half half) n) := by
    rw [DieSt.sem, hadd, if_pos rfl]
    exact tget_tput_same hwf
  have htake : ((c.semTake d pair half n).die d).sem pair =
      ((c.die d).sem pair).setHalf half (((c.die d).sem pair).half half - BitVec.ofNat 16 n) := by
    rw [DieSt.sem, semTake_sems]
    exact tget_tput_same hwf
  refine ⟨?_, ?_, fun k hk => ?_, ?_, fun hnone ids => ?_, fun q i ids => ?cross, fun hhas => ⟨?_, ?_, fun k hk => ?_⟩, ?_⟩
  · rw [hsame, half_setHalf_same, satAdd_toNat]
  · rw [hsame, half_setHalf_not]
  · rw [DieSt.sem, hadd, if_pos rfl]
    exact tget_tput_ne hk
  · rw [hadd, if_neg (by cases d <;> decide)]
  · obtain ⟨c', hdie, hsig⟩ := semSignal_of_no_waiters hnone n ids
    rw [hsig, semAdd_sems, hadd, hdie]
  case cross =>
    have hd : d.other.other = d := by cases d <;> rfl
    intro t
    have ht : t = c.modDie d (fun m => { m with cross := m.cross ++ [{ part := q, pair := BitVec.ofNat 12 i, half := half, count := n, knows := ids }] }) := by
      show c.signal d.other q i half true n ids = _
      rw [Chip.signal, if_pos rfl, hd]
      rfl
    rw [ht]
    refine ⟨by rw [die_modDie], fun m => ?_⟩
    rw [die_modDie_if]
    split_ifs <;> rfl
  · have hle : n ≤ (((c.die d).sem pair).half half).toNat := by simpa [Chip.semHas] using hhas
    rw [htake, half_setHalf_same, BitVec.toNat_sub, BitVec.toNat_ofNat]
    omega
  · rw [htake, half_setHalf_not]
  · rw [DieSt.sem, semTake_sems]
    exact tget_tput_ne hk
  · simp [Chip.semHas]

end Sys2Proof.Machine
end

section
/-!
PROOFS. The orders of sums: integer dot products (R45, R46) and reductions over a group (R239).
-/
namespace Sys2Proof.Machine

/-! ### The integer path -/

/-- One more product on a sum. -/
def addProduct (t : Int) (y : Int × Int) : Int := t + y.1 * y.2

/-- An unscaled integer as it is read. -/
def intVal (m : Int) : Val × Flags := (.fin ⟨m, 0⟩, {})

/-- What an operand counts in the integer accumulator. -/
def intOf (v : Val × Flags) : Int :=
  match v.1 with
  | .fin d => d.m
  | .nan => 0

/-- The integer accumulator after one more pass: its value, whether it is saturated. -/
def accPass (a : Int × Bool) (x : List (Val × Flags) × List (Val × Flags)) : Int × Bool :=
  if a.2 then a else
  let s := (x.1.zip x.2).foldl (fun t y => t + intOf y.1 * intOf y.2) a.1
  if (2 ^ 31 : Nat) ≤ s then ((2 ^ 31 : Nat) - 1, true)
  else if s < -((2 ^ 31 : Nat) : Int) then (-((2 ^ 31 : Nat) : Int), true) else (s, false)

theorem dotInt_eq (p : Nat) (e : Int) (as ws : List (Val × Flags)) :
    dotInt p e as ws = let r := ((chunks p as).zip (chunks p ws)).foldl accPass (0, false)
      let v := toF32 .near (.fin ⟨r.1, e⟩)
      (v.1, v.2.join (if r.2 then fOvf else {})) := rfl

/-- The partial sums from `t` on stay in the signed 32-bit range. -/
def SumsInRange (t : Int) (as ws : List Int) : Prop :=
  ∀ k, -(2 ^ 31 : Int) ≤ ((as.take k).zip (ws.take k)).foldl addProduct t ∧ ((as.take k).zip (ws.take k)).foldl addProduct t < 2 ^ 31

theorem foldl_intVal (as ws : List Int) (t : Int) :
    ((as.map intVal).zip (ws.map intVal)).foldl (fun t y => t + intOf y.1 * intOf y.2) t = (as.zip ws).foldl addProduct t := by
  rw [List.zip_map, List.foldl_map]
  rfl

/-- A pass whose sum stays in the range adds its products. -/
theorem accPass_of_inRange {t : Int} {as ws : List Int} {q : Nat} (h : SumsInRange t as ws) :
    accPass (t, false) ((as.map intVal).take q, (ws.map intVal).take q) = (((as.take q).zip (ws.take q)).foldl addProduct t, false) := by
  obtain ⟨hlo, hhi⟩ := h q
  have hsum : ((((as.map intVal).take q, (ws.map intVal).take q) : List (Val × Flags) × List (Val × Flags)).1.zip
      (((as.map intVal).take q, (ws.map intVal).take q) : List (Val × Flags) × List (Val × Flags)).2).foldl
        (fun t y => t + intOf y.1 * intOf y.2) t = ((as.take q).zip (ws.take q)).foldl addProduct t := by
    rw [← List.map_take, ← List.map_take, foldl_intVal]
  simp only [accPass, hsum, Bool.false_eq_true, if_false]
  rw [if_neg (by push_cast; omega), if_neg (by push_cast; omega)]

theorem take_zip_take_add {as ws : List Int} (h : as.length = ws.length) (q k : Nat) :
    (as.take (q + k)).zip (ws.take (q + k)) = (as.take q).zip (ws.take q) ++ ((as.drop q).take k).zip ((ws.drop q).take k) := by
  rw [List.take_add, List.take_add, List.zip_append (by simp [h])]

theorem SumsInRange.drop {t : Int} {as ws : List Int} (hlen : as.length = ws.length) (h : SumsInRange t as ws) (q : Nat) :
    SumsInRange (((as.take q).zip (ws.take q)).foldl addProduct t) (as.drop q) (ws.drop q) := by
  intro k
  have := h (q + k)
  rwa [take_zip_take_add hlen, List.foldl_append] at this

/-- Passes whose sums stay in the range add up all products. -/
theorem foldl_accPass {q : Nat} (hq : 0 < q) (f : Nat) {t : Int} {as ws : List Int} (hlen : as.length = ws.length) (hf : as.length ≤ f)
    (h : SumsInRange t as ws) :
    ((chunksAux q f (as.map intVal)).zip (chunksAux q f (ws.map intVal))).foldl accPass (t, false) = ((as.zip ws).foldl addProduct t, false) := by
  induction f generalizing t as ws with
  | zero =>
    obtain rfl : as = [] := List.length_eq_zero_iff.1 (Nat.le_zero.1 hf)
    rfl
  | succ f ih =>
    match as, ws, hlen with
    | [], [], _ => rfl
    | a :: as, w :: ws, hlen =>
      have hpass := accPass_of_inRange (q := q) h
      have hrest := ih (as := (a :: as).drop q) (ws := (w :: ws).drop q) (by simp [hlen]) (by simp at hf ⊢; omega) (h.drop hlen q)
      have hall : ((a :: as).zip (w :: ws)) = ((a :: as).take q).zip ((w :: ws).take q) ++ ((a :: as).drop q).zip ((w :: ws).drop q) := by
        rw [← List.zip_append (by simp only [List.length_take, hlen]), List.take_append_drop, List.take_append_drop]
      simp only [List.map_cons] at hpass
      simp only [List.map_drop, List.map_cons] at hrest
      simp only [List.map_cons, chunksAux, List.zip_cons_cons, List.foldl_cons]
      rw [hpass, hrest, ← List.foldl_append, ← hall]
      rfl

theorem dotInt_of_inRange {as ws : List Int} (hlen : as.length = ws.length) (h : SumsInRange 0 as ws) {q : Nat} (hq : 0 < q) (e : Int) :
    dotInt q e (as.map intVal) (ws.map intVal) = toF32 .near (.fin ⟨(as.zip ws).foldl addProduct 0, e⟩) := by
  have hfold := foldl_accPass hq as.length hlen le_rfl h
  have hw : chunks q (ws.map intVal) = chunksAux q as.length (ws.map intVal) := by rw [chunks, List.length_map, hlen]
  rw [dotInt_eq, chunks, List.length_map, hw, hfold]
  simp [Flags.join]

/-! ### Reductions -/

theorem reduceElem_one {g : Group} (hp : g.p = 1) (h0 : g.l0 = 1) (h1 : g.l1 = 1) (h2 : g.l2 = 1) (n e : Nat) (x : Nat → Nat → FlW32) :
    reduceElem g n x e = x 0 e := by
  have hl : g.levels = [(1, 1), (1, 1), (1, 1), (1, 1)] := by simp [Group.levels, hp, h0, h1, h2]
  simp [reduceElem, hl, redPart, withCoord, Nat.mod_one]

/-- Where no two messages have one index, the message of an index is the one found. -/
theorem find?_index {peers : List Peer} (hn : (peers.map (·.index)).Nodup) {p : Peer} (hp : p ∈ peers) :
    peers.find? (fun x => decide (x.index = p.index)) = some p := by
  cases hf : peers.find? (fun x => decide (x.index = p.index)) with
  | none => simpa using List.find?_eq_none.1 hf p hp
  | some x =>
    have hx : x.index = p.index := by simpa using List.find?_some hf
    rw [List.inj_on_of_nodup_map hn (List.mem_of_find?_eq_some hf) hp hx]

theorem find?_index_perm {peers peers' : List Peer} (h : peers.Perm peers') (hn : (peers.map (·.index)).Nodup) (i : Nat) :
    peers.find? (fun x => decide (x.index = i)) = peers'.find? (fun x => decide (x.index = i)) := by
  cases hf : peers.find? (fun x => decide (x.index = i)) with
  | none =>
    refine (List.find?_eq_none.2 fun x hx => ?_).symm
    exact List.find?_eq_none.1 hf x (h.mem_iff.2 hx)
  | some p =>
    have hi : p.index = i := by simpa using List.find?_some hf
    subst hi
    exact (find?_index ((h.map _).nodup_iff.1 hn) (h.mem_iff.1 (List.mem_of_find?_eq_some hf))).symm

/-- Settles O33: passes by induction on the operands, messages by the uniqueness of their indices. -/
theorem sumsHaveOneOrder : Obligations.SumsHaveOneOrder := by
  unfold Obligations.SumsHaveOneOrder
  refine ⟨⟨fun e as ws hlen hsum q hq => dotInt_of_inRange hlen hsum hq e, fun a w dq => ?_⟩,
    fun g n e x hp h0 h1 h2 => reduceElem_one hp h0 h1 h2 n e x, fun peers peers' i k hperm hn => ?_⟩
  · simp only [formePath]
    cases fmtIsInt a.fmt <;> cases fmtIsInt w.fmt <;> cases a.scaled <;> cases w.scaled <;> cases dq <;> simp
  · rw [peerBuf, peerBuf, find?_index_perm hperm hn]

end Sys2Proof.Machine
end

section
/-!
PROOFS. The Gutter (R183, R187).
-/
namespace Sys2Proof.Machine

/-! ### Changes of a die -/

theorem modDie_modDie (c : Chip) (d : Die) (f g : DieSt → DieSt) : (c.modDie d f).modDie d g = c.modDie d (fun m => g (f m)) := by
  cases d <;> rfl

theorem modDie_congr {c : Chip} {d : Die} {f g : DieSt → DieSt} (h : f (c.die d) = g (c.die d)) : c.modDie d f = c.modDie d g := by
  cases d
  · exact congrArg (fun m => ({ c with w := m } : Chip)) h
  · exact congrArg (fun m => ({ c with e := m } : Chip)) h

theorem modOp_gut (c : Chip) (u : UnitRef) (f : Op → Op) (m : Die) : ((c.modOp u f).die m).gut = (c.die m).gut := by
  rw [Chip.modOp, Chip.modStream, die_modDie_if]
  split_ifs <;> rfl

theorem raiseFlags_gut (c : Chip) (d : Die) (order n tag : Nat) (f : Flags) (clip conv : Nat) (m : Die) :
    ((c.raiseFlags d order n tag f clip conv).die m).gut = (c.die m).gut := by
  unfold Chip.raiseFlags
  split
  · rfl
  · rw [die_modDie_if]
    split_ifs
    · dsimp only
      split <;> rfl
    · rfl

/-! ### OPEN and RELEASE -/

/-- OPEN opens the range that its slot and its source block describe. -/
theorem gutOpen_of_ready {c c1 : Chip} {u : UnitRef} {o : Op} {bs : List Byte} (ho : OpReady c u o 1) (hpos : u.pos = 116)
    (hrange : tget none (c.die u.die).gut.ranges u.part = none)
    (hread : c.readSpace u 9 (descOf ((o.descs.getD []).getD 0 [])).space (descOf ((o.descs.getD []).getD 0 [])).addr 64 = (c1, .ok bs)) :
    let w0 := wordOf (wordsOf bs) 0
    let r : OpenRange :=
      { first := BitVec.ofNat 32 o.e.token, count := gutCount o.e.slot.toNat, k := gutK o.e.slot.toNat, tag := BitVec.ofNat 16 o.e.tag,
        stks := BitVec.ofNat 8 (bits w0 7 0), remote := bits w0 11 8, group := bits w0 23 12 }
    c.gutOpen u = c1.modDie u.die (fun m => { m with gut := { m.gut with
      ranges := tput none m.gut.ranges u.part (some r)
      released := tfilter (fun k _ => !(decide (k / 2 ^ 32 = u.part) && r.covers (k % 2 ^ 32))) m.gut.released } }) := by
  obtain ⟨hop, hready, hopc, hclock⟩ := ho
  intro w0 r
  simp only [Chip.gutOpen, hop]
  rw [if_neg (by simp [hready, hopc, hclock, hpos, hrange])]
  simp only [hread]
  rfl

theorem gutRelease_eq {c : Chip} {u : UnitRef} {o : Op} (hop : c.op u = some o) (hworked : o.worked = false) (hpos : u.pos = 116)
    (hopc : o.e.opc = 2) (hclock : c.clockStopped u = false) :
    c.gutRelease u = (c.modDie u.die (fun m =>
      { m with gut := m.gut.free true u.part o.e.token (gutCount o.e.slot.toNat) })).opDone u 0 := by
  simp only [Chip.gutRelease, hop]
  rw [if_neg (by simp [hworked, hclock, hpos, hopc])]

/-! ### Arriving records -/

/-- A record that is taken joins its token's entry; the last one makes the packet. -/
theorem recordTaken_eq {c : Chip} {d : Die} {source : Nat} {x : SelRecord} {r : OpenRange}
    (hr : tget none (c.die d).gut.ranges x.part.toNat = some r) :
    let recs := (c.die d).gut.records x.part.toNat x.token.toNat ++ [(source, x)]
    let c1 := (c.modDie d (fun m => { m with gut := m.gut.hold source x })).modOp (openUnit d x.part.toNat) (fun o => { o with busy := true })
    c.recordTaken d source x = if r.complete recs then c1.storePacket d x.part.toNat x.token.toNat r recs else c1 := by
  simp only [Chip.recordTaken, hr]

/-- The packet of a complete merge stands in the buffer. -/
theorem storePacket_packets {r : OpenRange} {recs : List (Nat × SelRecord)} (hk : kMismatch r recs = false) (c : Chip) (d : Die)
    (part token : Nat) :
    ((c.storePacket d part token r recs).die d).gut.packets =
      tput none (c.die d).gut.packets (gutKey part token) (some (mergePacket r token recs).1) := by
  simp only [Chip.storePacket, hk, Bool.false_eq_true, if_false]
  split
  · rw [Chip.opDone, modOp_gut, raiseFlags_gut, die_modDie]
  · rw [modOp_gut, raiseFlags_gut, die_modDie]

/-- An accepted record of a stack leaves its lane. -/
theorem recordArrival_lane {c : Chip} {d : Die} {src : Nat} {x : SelRecord} (hsrc : src ≠ 8) (hf : (c.die d).dbg.frozen = false)
    (hx : (laneHeads (tget [] (c.die d).gut.lanes src)).find? ((c.die d).gut.accepts src) = some x) :
    c.recordArrival d src = (c.modDie d (fun m => { m with gut :=
      { m.gut with lanes := tput [] m.gut.lanes src ((tget [] (c.die d).gut.lanes src).erase x) } })).recordTaken d src x := by
  simp only [Chip.recordArrival, hf, hsrc, hx, Bool.false_eq_true, if_false]

theorem recordArrival_remote {c : Chip} {d : Die} {x : Nat × SelRecord} (hf : (c.die d).dbg.frozen = false)
    (hx : (remoteHeads (c.die d).gut.remote).find? (c.die d).gut.acceptsRemote = some x) :
    c.recordArrival d 8 = if ((c.die d).gut.ask 8 x.2).1
      then (c.modDie d (fun m => { m with gut := { ((c.die d).gut.ask 8 x.2).2 with remote := (c.die d).gut.remote.erase x } })).recordTaken d 8 x.2
      else c.modDie d (fun m => { m with gut := ((c.die d).gut.ask 8 x.2).2 }) := by
  simp only [Chip.recordArrival, hf, hx, Bool.false_eq_true, if_false, if_true]

/-! ### Freed packets -/

theorem gutKey_inj {part a b : Nat} (ha : a < 2 ^ 32) (hb : b < 2 ^ 32) (h : gutKey part a = gutKey part b) : a = b := by
  rw [gutKey, gutKey, Nat.mod_eq_of_lt ha, Nat.mod_eq_of_lt hb] at h
  omega

theorem le_satAdd (v : W32) (n : Nat) : v.toNat ≤ (satAdd v n).toNat := by
  have := v.isLt
  rw [satAdd]
  split_ifs with h
  · rw [BitVec.toNat_ofNat, Nat.mod_eq_of_lt h]
    omega
  · rw [BitVec.toNat_allOnes]
    omega

/-- The step of RELEASE for one token. -/
def Gutter.freeOne (g : Gutter) (mark : Bool) (part token : Nat) : Gutter :=
  { g with
    packets := tput none g.packets (gutKey part token) none
    released := if mark then tput false g.released (gutKey part token) true else g.released
    freed := if (tget none g.packets (gutKey part token)).isSome then satAdd g.freed 1 else g.freed }

theorem free_succ (g : Gutter) (mark : Bool) (part first count : Nat) :
    g.free mark part first (count + 1) = (g.free mark part first count).freeOne mark part (first + count) := by
  rw [Gutter.free, List.range_succ, List.foldl_append]
  rfl

/-- Freeing keeps the tables canonical, the merge table and the open ranges, and its count does not fall. -/
theorem free_frame (g : Gutter) (mark : Bool) (part first count : Nat) :
    let g' := g.free mark part first count
    (Tab.wf (none : Option Packet) g.packets = true → Tab.wf (none : Option Packet) g'.packets = true) ∧
    (Tab.wf false g.released = true → Tab.wf false g'.released = true) ∧
    (mark = false → g'.released = g.released) ∧ g.freed.toNat ≤ g'.freed.toNat ∧ g'.merge = g.merge ∧ g'.ranges = g.ranges := by
  induction count with
  | zero => exact ⟨id, id, fun _ => rfl, le_rfl, rfl, rfl⟩
  | succ count ih =>
    obtain ⟨hp, hr, hm, hf, hmerge, hranges⟩ := ih
    rw [free_succ]
    refine ⟨fun h => wf_tput (hp h), fun h => ?_, fun h => ?_, hf.trans ?_, hmerge, hranges⟩
    · unfold Gutter.freeOne
      cases mark with
      | true => exact wf_tput (hr h)
      | false => exact hr h
    · rw [← hm h, h]
      rfl
    · unfold Gutter.freeOne
      dsimp only
      split_ifs
      · exact le_satAdd _ _
      · exact le_rfl

/-- A key of no freed token reads as before. -/
theorem free_other {g : Gutter} {mark : Bool} {part first count k : Nat} (h : ∀ i, i < count → k ≠ gutKey part (first + i)) :
    tget none (g.free mark part first count).packets k = tget none g.packets k ∧
    tget false (g.free mark part first count).released k = tget false g.released k := by
  induction count with
  | zero => exact ⟨rfl, rfl⟩
  | succ count ih =>
    obtain ⟨hp, hr⟩ := ih (fun i hi => h i (Nat.lt_succ_of_lt hi))
    have hk := h count (Nat.lt_succ_self _)
    rw [free_succ]
    unfold Gutter.freeOne
    refine ⟨(tget_tput_ne hk).trans hp, ?_⟩
    cases mark with
    | true => exact (tget_tput_ne hk).trans hr
    | false => exact hr

/-- Every token of the range is freed. -/
theorem free_inside {g : Gutter} {mark : Bool} {part first count : Nat} (hb : first + count ≤ 2 ^ 32)
    (hp : Tab.wf (none : Option Packet) g.packets = true) (hr : Tab.wf false g.released = true) {i : Nat} (hi : i < count) :
    tget none (g.free mark part first count).packets (gutKey part (first + i)) = none ∧
    (mark = true → tget false (g.free mark part first count).released (gutKey part (first + i)) = true) := by
  induction count with
  | zero => omega
  | succ count ih =>
    rw [free_succ]
    by_cases h : i = count
    · subst h
      obtain ⟨hwp, hwr, -⟩ := free_frame g mark part first i
      refine ⟨tget_tput_same (hwp hp), fun hm => ?_⟩
      subst hm
      exact tget_tput_same (hwr hr)
    · obtain ⟨hpi, hri⟩ := ih (by omega) (by omega)
      have hk : gutKey part (first + i) ≠ gutKey part (first + count) := fun h0 =>
        h (by have := gutKey_inj (by omega) (by omega) h0; omega)
      refine ⟨(tget_tput_ne hk).trans hpi, fun hm => ?_⟩
      subst hm
      exact (tget_tput_ne hk).trans (hri rfl)

/-- Settles O31: the ops and arrivals by their branches, freed packets by induction on the range. -/
theorem gutterOps : Obligations.GutterOps := by
  unfold Obligations.GutterOps
  refine ⟨fun p c => ⟨fun u o c1 bs ho hpos hrange hread => ?_, fun u o hop hworked hpos hopc hclock => ?_, fun d src x r hsrc hf => ?lane,
    fun d x => ?remote, fun d src hf => ?_⟩, fun g mark part first count hb hp hr => ⟨fun i hi => free_inside hb hp hr hi,
    fun k hk => free_other hk, (free_frame g mark part first count).2.2⟩⟩
  · exact congrArg (fun k => Host.Outcome.next (State.mk p k)) (gutOpen_of_ready ho hpos hrange hread)
  · exact congrArg (fun k => Host.Outcome.next (State.mk p k)) (gutRelease_eq hop hworked hpos hopc hclock)
  case lane =>
    intro g hx hr recs c1
    have hr' : tget none ((c.modDie d (fun m => { m with gut :=
        { m.gut with lanes := tput [] m.gut.lanes src ((tget [] g.lanes src).erase x) } })).die d).gut.ranges x.part.toNat = some r := by
      rw [die_modDie]
      exact hr
    have hhold : (c.modDie d (fun m => { m with gut :=
        { m.gut with lanes := tput [] m.gut.lanes src ((tget [] g.lanes src).erase x) } })).modDie d (fun m => { m with gut := m.gut.hold src x }) =
        c.modDie d (fun m => { m with gut := { m.gut with
          lanes := tput [] m.gut.lanes src ((tget [] g.lanes src).erase x)
          merge := tput none m.gut.merge (gutKey x.part.toNat x.token.toNat) (some { records := recs }) } }) := by
      rw [modDie_modDie]
      exact modDie_congr rfl
    have harr : c.recordArrival d src = if r.complete recs then c1.storePacket d x.part.toNat x.token.toNat r recs else c1 := by
      rw [recordArrival_lane hsrc hf hx, recordTaken_eq hr', hhold, die_modDie]
      rfl
    refine ⟨congrArg (fun k => Host.Outcome.next (State.mk p k)) harr, fun _ hk => ?_⟩
    rw [storePacket_packets hk, modOp_gut, die_modDie]
  case remote =>
    intro g hf hx a
    have harr := recordArrival_remote hf hx
    refine ⟨fun ha => ?_, fun ha => ?_⟩
    · exact congrArg (fun k => Host.Outcome.next (State.mk p k)) (harr.trans (if_pos ha))
    · exact congrArg (fun k => Host.Outcome.next (State.mk p k)) (harr.trans (if_neg (Bool.not_eq_true _ ▸ ha)))
  · exact congrArg (fun k => Host.Outcome.next (State.mk p k)) (if_pos hf)

end Sys2Proof.Machine
end

section
/-!
PROOFS. Tiles of platens and thatch engines, and RBCLR (R65, R77, R83, R89, R107, R120).
-/
namespace Sys2Proof.Machine

/-! ### Ops ready for their work -/

/-- An op that is ready, allowed and writes no page that is being copied does its work on what races leave. -/
theorem work_of_ready {c : Chip} {u : UnitRef} {o : Op} {opc : Nat} (ho : OpReady c u o opc) (hb : c.blocked u o = false) {may : Op → Bool}
    (hmay : may o = true) (f : Chip → Op → Chip) : c.work u may f = f (c.raceBytes u o.id o.outs (o.ins u.pos)) o := by
  obtain ⟨hop, hready, hopc, hclock⟩ := ho
  simp [Chip.work, hop, hready, hmay, hclock, hb]

theorem pos_lt_of_platen {pos : Nat} (h : slotClass pos = .platen) : pos < 64 := by
  by_contra hp
  simp only [slotClass, hp, if_false] at h
  split_ifs at h

theorem pos_of_thatch {pos : Nat} (h : slotClass pos = .thatch) : 64 ≤ pos ∧ pos < 96 := by
  constructor
  · by_contra hp
    simp [slotClass, Nat.lt_of_not_le hp] at h
  · by_contra hp
    have h64 : ¬ pos < 64 := by omega
    simp only [slotClass, h64, hp, if_false] at h
    split_ifs at h

/-! ### Rows that have been written -/

/-- The end of an op's row by row work: the fault of the row that failed, or what is done after the last one. -/
def TileRun.ended (r : TileRun) (u : UnitRef) (done : Chip) : Chip :=
  match r.fail with
  | some e => r.c.opFault u e.1 e.2
  | none => done

theorem ended_of_none {r : TileRun} (h : r.fail = none) (u : UnitRef) (done : Chip) : r.ended u done = done := by rw [TileRun.ended, h]

theorem ended_of_some {r : TileRun} {e : Nat × AccFault} (h : r.fail = some e) (u : UnitRef) (done : Chip) :
    r.ended u done = r.c.opFault u e.1 e.2 := by rw [TileRun.ended, h]

/-! ### The reads of a tile -/

/-- The parameter block of a loss, VOCAB or ROUTE tile. -/
def Chip.readParams (c : Chip) (u : UnitRef) (t : TileSlot) (ds : List Desc) : Chip × Except AccFault (List Byte) :=
  if t.loss || t.vocab || t.route then
    let g9 := ds.getD (ds.findIdx (fun g => decide (g.role = 9))) default
    c.readSpace u 9 g9.space g9.addr 64
  else (c, .ok [])

/-- The static scales of a tile's destination. -/
def Chip.readStatic (c : Chip) (u : UnitRef) (t : TileSlot) (ds : List Desc) : Chip × Except (Nat × AccFault) (Option Tensor) :=
  match findRole ds 3 with
  | some g =>
    if g.sstat && !t.wide then
      let x := c.readRuns u 3 g.space false g.scaleRuns []
      (x.1, match x.2 with
        | .ok scs => .ok (some { g := g, rows := [], scs := scs })
        | .error f => .error (roleIdx ds 3, f))
    else (c, .ok none)
  | none => (c, .ok none)

/-- A tile's work, once its op may run: its reads in order, then `tileWork`. -/
def Chip.tileRun (c : Chip) (u : UnitRef) (o : Op) (s : Stream) : Chip :=
  let dl := o.descs.getD []
  let ds := viewList dl o.wides
  let t := o.e.tileSlot u.pos
  let r := c.readTile u t ds
  match r.2 with
  | .error e => r.1.opFault u e.1 e.2
  | .ok (a, w, side) =>
    let pb := r.1.readParams u t ds
    match pb.2 with
    | .error f => pb.1.opFault u (ds.findIdx (fun g => decide (g.role = 9))) f
    | .ok bs =>
      let st := pb.1.readStatic u t ds
      match st.2 with
      | .error e => st.1.opFault u e.1 e.2
      | .ok static => st.1.tileWork u o s t (tileHdr (dl.getD 0 [])) ds a w side static (wordsOf bs)

theorem tile_eq {c : Chip} {u : UnitRef} {s : Stream} (hs : c.stream u.die u.part = some s) :
    c.tile u = c.work u (fun o => decide (u.pos < 96) && decide (o.e.opc = 1) && !c.held u o) (fun c o => c.tileRun u o s) := by
  rw [Chip.tile, hs]
  rfl

/-- A tile runs on a thatch engine, and on a platen that does not hold issue. -/
theorem tile_of_ready {c : Chip} {u : UnitRef} {o : Op} {s : Stream} (ho : OpReady c u o 1) (hs : c.stream u.die u.part = some s)
    (hb : c.blocked u o = false) (hpos : u.pos < 96) (hheld : c.held u o = false) :
    c.tile u = (c.raceBytes u o.id o.outs (o.ins u.pos)).tileRun u o s := by
  obtain ⟨-, -, hopc, -⟩ := id ho
  rw [tile_eq hs, work_of_ready ho hb (by simp [hpos, hopc, hheld])]

/-! ### The work of a plain tile -/

section
variable {c : Chip} {u : UnitRef} {o : Op} {s : Stream} {t : TileSlot} {h : TileHdr} {ds : List Desc} {a w : Tensor} {side : SideOps}
  {static : Option Tensor} {ws : List W64}

/-- The tile's rows after the epilogue, with the mask lanes. -/
def Chip.tileRows (c : Chip) (s : Stream) (o : Op) (t : TileSlot) (h : TileHdr) (a w : Tensor) (side : SideOps) :
    List (List FlW32) × List Lane :=
  epiRows t h side (formeTile a w t.dq t.cmp (if t.stream then t.t else h.rows) h.cols h.k)
    (epiLanes (c.ctx s.ctx).seed 1 t.maskTile o.step.toNat)

/-- The cycles of a tile. -/
def tileCycles (t : TileSlot) (h : TileHdr) (ds : List Desc) (a w : Tensor) (ws : List W64) : Nat :=
  let rows := if t.stream then t.t else h.rows
  let q := pairsPerPass a.g.fmt w.g.fmt
  if t.stream then streamCycles h.cols h.k rows q (fmtWidth w.g.fmt) w.g.group
    else stationaryCycles t rows h.k q (epiCycles t ((findRole ds 3).map (destForm t)) (lossBlock ws).phase)

theorem tileWork_plain (hloss : t.loss = false) (hvocab : t.vocab = false) (hroute : t.route = false) :
    c.tileWork u o s t h ds a w side static ws = c.tileOut u o s.ctx t ds static (c.tileRows s o t h a w side).1
      (c.tileRows s o t h a w side).1 (rowsFlags (c.tileRows s o t h a w side).1) false (c.ctx s.ctx).seed (c.tileRows s o t h a w side).2
      (tileCycles t h ds a w ws) := by
  simp only [Chip.tileWork, hloss, hvocab, hroute, Bool.or_self, Bool.false_eq_true, if_false]
  rfl

/-- The rows of a plain tile are converted and written one by one. -/
theorem tileOut_plain {n : Nat} {keep rows : List (List FlW32)} {f : Flags} {seed : BitVec 128} {mask : List Lane} {cyc : Nat} {g : Desc}
    (hloss : t.loss = false) (hrbm : t.rbm = 0) (hg : findRole ds 3 = some g)
    (hgroup : (destForm t g).scaled = true → (destForm t g).ext0 % (destForm t g).group = 0) :
    let run := rows.zipIdx.foldl (fun (r : TileRun) (x : List FlW32 × Nat) =>
        r.destRow u (roleIdx ds 3) (destForm t g) static t.rnd x.2 (x.1.map (fun (v : FlW32) => v.1)))
      { c := c, lanes := epiLanes seed 0 t.tile o.step.toNat, f := f }
    c.tileOut u o n t ds static keep rows f false seed mask cyc = run.ended u
      ((((run.c.raiseFlags u.die (raiseOrder u.pos) n o.e.tag run.f run.clip run.conv).modCtx n (fun x =>
        { x with proof := (x.proof.laneOver 0 t.tile run.lanes).laneOver 1 t.maskTile mask })).opDone u cyc).drained u) := by
  intro run
  have hfit : ((destForm t g).scaled && decide ((destForm t g).ext0 % (destForm t g).group ≠ 0)) = false := by
    cases hsc : (destForm t g).scaled with
    | false => rfl
    | true => simp [hgroup hsc]
  simp only [Chip.tileOut, hloss, hrbm, hg, hfit, Bool.false_and, Bool.false_eq_true, if_false]
  rfl

/-- A VOCAB tile with a row that finds no room in the logits ring waits. -/
theorem tileWork_vocab_waits {g : Desc} (hvocab : t.vocab = true) (hroute : t.route = false) (hg : findRole ds 3 = some g)
    (hfull : ∃ r, r < (c.tileRows s o t h a w side).1.length ∧ ringAdmits (c.stk (stackOfTe u.die (u.pos - 64))).logits
      ((ringPlace s.image u g).2.1 + r) (ringPlace s.image u g).2.2 u.part = false) :
    c.tileWork u o s t h ds a w side static ws = c.opWaits u := by
  have hall : (List.range (c.tileRows s o t h a w side).1.length).all (fun r => ringAdmits (c.stk (stackOfTe u.die (u.pos - 64))).logits
      ((ringPlace s.image u g).2.1 + r) (ringPlace s.image u g).2.2 u.part) = false := by
    obtain ⟨r, hr, hno⟩ := hfull
    rw [List.all_eq_false]
    exact ⟨r, List.mem_range.2 hr, by simp [hno]⟩
  simp only [Chip.tileRows] at hall
  simp only [Chip.tileWork, hvocab, hroute, hg, Chip.toRing, hall, Bool.true_or, Bool.false_eq_true, Bool.not_false, if_true, if_false]

/-- A loss tile whose packets are not all in the Gutter waits. -/
theorem tileWork_loss_waits (hloss : t.loss = true) (hvocab : t.vocab = false) (hroute : t.route = false)
    (hwait : (c.die u.die).gut.readRows u.part (lossBlock ws).tokBase (List.range (if t.stream then t.t else h.rows)) [] = .error .wait) :
    c.tileWork u o s t h ds a w side static ws = c.opWaits u := by
  simp only [Chip.tileWork, hloss, hvocab, hroute, hwait, Bool.or_self, Bool.false_eq_true, if_true, if_false]

end

/-! ### RBCLR -/

theorem rbclr_of_ready {c : Chip} {u : UnitRef} {o : Op} (ho : OpReady c u o 2) (hpos : u.pos < 64) :
    let g := descOf ((o.descs.getD []).getD 0 [])
    let run := (List.range g.ext1).foldl (fun (r : TileRun) j => r.initRow u 0 g j (List.replicate g.ext0 0)) { c := c, lanes := [] }
    c.rbclr u = run.ended u (run.c.opDone u (ceilDiv (g.ext0 * g.ext1 * 4) 2048)) := by
  obtain ⟨hop, hready, hopc, hclock⟩ := ho
  simp only [Chip.rbclr, hop]
  rw [if_neg (by simp [hready, hopc, hclock]; omega)]
  rfl

/-- Settles O28: the reads of a tile in order, then the branches of its work. -/
theorem tileWork : Obligations.TileWork := by
  unfold Obligations.TileWork
  refine ⟨fun p c u o s ho hs hb => ?tile, fun p c u o ho hclass => ?rbclr⟩
  case tile =>
    intro dl ds t h cr runs
    have hruns {c' : Chip} (hrun : cr.tileRun u o s = c') : runs c' := by
      refine ⟨fun hclass hhold => ?_, fun hclass => ?_⟩
      · have hpos := pos_lt_of_platen hclass
        have htile := tile_of_ready ho hs hb (by omega) (by simp [Chip.held, hhold])
        exact congrArg (fun k => Host.Outcome.next (State.mk p k)) ((if_pos hclass).trans (htile.trans hrun))
      · obtain ⟨hlo, hhi⟩ := pos_of_thatch hclass
        have htile := tile_of_ready ho hs hb hhi (by simp [Chip.held, Nat.not_lt.2 hlo])
        exact congrArg (fun k => Host.Outcome.next (State.mk p k)) ((if_pos hclass).trans (htile.trans hrun))
    refine ⟨fun c1 c2 c3 a w side bs static hread hparams hstatic => hruns ?_, fun c1 i f hread => hruns ?_, fun c1 a w side static ws => ?work⟩
    · have hpb : c1.readParams u t ds = (c2, .ok bs) := by
        rcases hparams with ⟨hl, hv, hr, rfl, rfl⟩ | ⟨hany, hg9⟩
        · simp [Chip.readParams, hl, hv, hr]
        · have hon : (t.loss || t.vocab || t.route) = true := by rcases hany with h | h | h <;> simp [h]
          simpa only [Chip.readParams, hon, if_true] using hg9
      have hst : c2.readStatic u t ds = (c3, .ok static) := by
        rcases hstatic with ⟨rfl, rfl, hnone⟩ | ⟨g, scs, hg, hsst, hwide, rfl, hrd⟩
        · rw [Chip.readStatic]
          split
          next g hg =>
            rw [if_neg (by simpa using hnone g hg)]
          next => rfl
        · simp only [Chip.readStatic, hg, hsst, hwide, hrd, Bool.not_false, Bool.and_self, if_true]
      have hread' : cr.readTile u (o.e.tileSlot u.pos) (viewList (o.descs.getD []) o.wides) = (c1, .ok (a, w, side)) := hread
      simp only [Chip.tileRun, hread']
      rw [hpb]
      simp only
      rw [hst]
    · have hread' : cr.readTile u (o.e.tileSlot u.pos) (viewList (o.descs.getD []) o.wides) = (c1, .error (i, f)) := hread
      simp only [Chip.tileRun, hread']
    case work =>
      intro rows e q cyc
      refine ⟨fun hl hv hr hrbm g hg hgroup => ?plain, fun g hv hr hg hfull => tileWork_vocab_waits hv hr hg hfull,
        fun hl hv hr hwait => tileWork_loss_waits hl hv hr hwait⟩
      intro run
      have hwork := (tileWork_plain (c := c1) (u := u) (o := o) (s := s) (h := h) (ds := ds) (a := a) (w := w) (side := side)
        (static := static) (ws := ws) hl hv hr).trans (tileOut_plain hl hrbm hg hgroup)
      exact ⟨fun hf => hwork.trans (ended_of_none hf _ _), fun b hf => hwork.trans (ended_of_some hf _ _)⟩
  case rbclr =>
    intro g run
    have hrb := rbclr_of_ready ho (pos_lt_of_platen hclass)
    exact ⟨fun hf => congrArg (fun k => Host.Outcome.next (State.mk p k)) (hrb.trans (ended_of_none hf _ _)),
      fun e hf => congrArg (fun k => Host.Outcome.next (State.mk p k)) (hrb.trans (ended_of_some hf _ _))⟩

end Sys2Proof.Machine
end

section
/-!
PROOFS. Compositor instructions that change their thread alone (R160, R164 to R166).
-/
namespace Sys2Proof.Machine

/-! ### Issue -/

/-- A thread that issues and whose next word is the instruction carries it out. -/
theorem issue_of_issues {c : Chip} {t : ThreadRef} {x : Thread} (h : ThreadIssues c t x) {word : Nat} (hw : c.wordAt t x = word)
    (f : Chip → Thread → Chip) : c.issue t word f = f (c.rotate t (c.codeLine t x)) { x with pass := false } := by
  obtain ⟨hthread, hstill, hnext, hpc, hbp, hline⟩ := h
  have hbp' : (if x.pass then none else (c.die t.die).breakpoint x) = none := by
    rcases hbp with hp | hp
    · rw [if_pos hp]
    · rw [hp, ite_self]
  have hline' : (tget [] (c.die t.die).icache (compKey t)).contains (c.codeLine t x) = true := by simpa using hline
  simp only [Chip.issue, hthread]
  rw [if_neg (by simp [hnext, hstill]), if_neg (Nat.not_le.2 hpc), hbp']
  simp only [hline', Bool.not_true, Bool.false_eq_true, if_false]
  rw [if_pos hw]

section
variable {p : List Instr} {c : Chip} {t : ThreadRef} {x : Thread}

/-- An instruction that changes its thread alone. -/
theorem run_local (h : ThreadIssues c t x) {word : Nat} (hw : c.wordAt t x = word) (f : Thread → Thread) :
    State.run ⟨p, c⟩ (fun c => c.local t word f) =
      .next ⟨p, (c.rotate t (c.codeLine t x)).setThread t (some (f { x with pass := false }))⟩ := by
  rw [run_eq, Chip.local, issue_of_issues h hw]

/-- An instruction that changes its thread alone or faults. -/
theorem run_localOr (h : ThreadIssues c t x) {word : Nat} (hw : c.wordAt t x = word) (f : Thread → Option Thread) :
    State.run ⟨p, c⟩ (fun c => c.localOr t word f) = .next ⟨p, match f { x with pass := false } with
      | some y => (c.rotate t (c.codeLine t x)).setThread t (some y)
      | none => (c.rotate t (c.codeLine t x)).instrFault t { x with pass := false }⟩ := by
  rw [run_eq, Chip.localOr, issue_of_issues h hw] <;> rfl

/-- An instruction of any kind. -/
theorem run_issue (h : ThreadIssues c t x) {word : Nat} (hw : c.wordAt t x = word) (f : Chip → Thread → Chip) :
    State.run ⟨p, c⟩ (fun c => c.issue t word f) = .next ⟨p, f (c.rotate t (c.codeLine t x)) { x with pass := false }⟩ := by
  rw [run_eq, issue_of_issues h hw]

end

/-- The word of a register instruction, field by field. -/
theorem word_abc (op : Nat) (d a b : Reg) : op * 2 ^ 25 + d.toNat * 2 ^ 21 + a.toNat * 2 ^ 17 + b.toNat * 2 ^ 13 = cword op d a b 0 := by
  rw [cword, Nat.add_zero]

/-- The word of an immediate instruction with no B. -/
theorem word_imm (op : Nat) (d a : Reg) (i : Nat) : op * 2 ^ 25 + d.toNat * 2 ^ 21 + a.toNat * 2 ^ 17 + i = cword op d a 0 i := by
  have hb : (0 : Reg).toNat * 2 ^ 13 = 0 := Nat.zero_mul _
  rw [cword, hb, Nat.add_zero]

/-! ### The rotation of a compositor -/

theorem rotate_eq (c : Chip) (t : ThreadRef) (l : Nat × Nat) :
    c.rotate t l = c.modDie t.die (fun m => { m with
      rota := tput 0 m.rota (compKey t) ((t.ctx + 1) % 4096)
      icache := tmod [] m.icache (compKey t) (fun x => (l :: x.erase l).take codeLines) }) := by
  rw [Chip.rotate, Chip.useLine, modDie_modDie]

theorem die_rotate (c : Chip) (t : ThreadRef) (l : Nat × Nat) :
    (c.rotate t l).die t.die = { c.die t.die with
      rota := tput 0 (c.die t.die).rota (compKey t) ((t.ctx + 1) % 4096)
      icache := tmod [] (c.die t.die).icache (compKey t) (fun x => (l :: x.erase l).take codeLines) } := by
  rw [rotate_eq, die_modDie]

theorem die_rotate_ne (c : Chip) (t : ThreadRef) (l : Nat × Nat) {m : Die} (h : m ≠ t.die) : (c.rotate t l).die m = c.die m := by
  rw [rotate_eq, die_modDie_ne _ _ h]

/-- A rotation changes the rotation and the instruction cache of the thread's die. -/
theorem die_rotate_frame (c : Chip) (t : ThreadRef) (l : Nat × Nat) :
    (c.rotate t l).die t.die = { c.die t.die with
      rota := ((c.rotate t l).die t.die).rota, icache := ((c.rotate t l).die t.die).icache } := by
  rw [die_rotate]

theorem slt_ite (a b : W64) : (if a.slt b then 1 else 0 : W64) = if a.toInt < b.toInt then 1 else 0 := by
  simp only [BitVec.slt_eq_decide, decide_eq_true_eq]

theorem ult_ite (a b : W64) : (if a.ult b then 1 else 0 : W64) = if a.toNat < b.toNat then 1 else 0 := by
  simp only [BitVec.ult_eq_decide, decide_eq_true_eq]

/-- Settles O36: each instruction is its function of the registers, under one law of issue. -/
theorem integerInstructions : Obligations.IntegerInstructions := by
  unfold Obligations.IntegerInstructions
  intro p c t x0 h x cr gives
  have hop (op : Nat) (d a b : Reg) (f : W64 → W64 → W64)
      (hw : c.wordAt t x0 = op * 2 ^ 25 + d.toNat * 2 ^ 21 + a.toNat * 2 ^ 17 + b.toNat * 2 ^ 13) :
      State.run ⟨p, c⟩ (intOp op t d a b f) = .next ⟨p, cr.setThread t (some (x.result d (f (x.reg a) (x.reg b)) {}))⟩ :=
    run_local h (hw.trans (word_abc op d a b)) _
  have himm (op : Nat) (d a : Reg) (i : BitVec 13) (f : Thread → Thread)
      (hw : c.wordAt t x0 = op * 2 ^ 25 + d.toNat * 2 ^ 21 + a.toNat * 2 ^ 17 + i.toNat) :
      State.run ⟨p, c⟩ (fun c => c.local t (cword op d a 0 i.toNat) f) = .next ⟨p, cr.setThread t (some (f x))⟩ :=
    run_local h (hw.trans (word_imm op d a i.toNat)) f
  refine ⟨fun d a b => ?reg, fun d a i => ?imm, fun m hm => die_rotate_ne _ _ _ hm, die_rotate_frame _ _ _, fun hne => ?_⟩
  case reg =>
    intro w
    refine ⟨hop _ d a b _, hop _ d a b _, hop _ d a b _, hop _ d a b _, hop _ d a b _, hop _ d a b _, hop _ d a b _, hop _ d a b _,
      hop _ d a b _, hop _ d a b _, fun hw => ?_, fun hw => ?_⟩
    · rw [← slt_ite]
      exact hop _ d a b _ hw
    · rw [← ult_ite]
      exact hop _ d a b _ hw
  case imm =>
    intro w
    exact ⟨himm _ d a i _, himm _ d 0 i _, himm _ d a i _⟩
  · show tget 0 ((c.rotate t _).die t.die).rota _ = _
    rw [die_rotate]
    exact tget_tput_of_ne_default hne

/-! ### FP32 -/

theorem f2i_nan {a : W32} (h : (f32 a).1 = .nan) : (f2i a).1 = 0 ∧ (f2i a).2.nan = true := by
  simp only [f2i, h]
  exact ⟨trivial, rfl⟩

/-- A value of at least 2^63 saturates. -/
theorem f2i_high {a : W32} {v : Dy} (h : (f32 a).1 = .fin v) (he : 0 ≤ v.e) (hv : 2 ^ 63 ≤ v.m * (2 ^ v.e.toNat : Nat)) :
    (f2i a).1 = 0x7FFFFFFFFFFFFFFF := by
  simp only [f2i, h]
  rw [if_pos he]
  generalize v.m * (2 ^ v.e.toNat : Nat) = m at hv ⊢
  rw [if_neg (by push_cast; omega), if_pos (by push_cast; omega)]
  rfl

/-- A value of at most -2^63 saturates. -/
theorem f2i_low {a : W32} {v : Dy} (h : (f32 a).1 = .fin v) (he : 0 ≤ v.e) (hv : v.m * (2 ^ v.e.toNat : Nat) ≤ -(2 ^ 63 : Nat)) :
    (f2i a).1 = 0x8000000000000000 := by
  simp only [f2i, h]
  rw [if_pos he]
  generalize v.m * (2 ^ v.e.toNat : Nat) = m at hv ⊢
  rcases lt_or_eq_of_le hv with hlt | heq
  · rw [if_pos hlt]
    rfl
  · subst heq
    rw [if_neg (lt_irrefl _), if_neg (by norm_num)]
    rfl

theorem f2i_flags {a : W32} {v : Dy} (h : (f32 a).1 = .fin v) : (f2i a).2 = (f32 a).2 := by simp only [f2i, h]

/-- Settles O37: the instructions under the law of issue, F2I by the range of the value. -/
theorem floatInstructions : Obligations.FloatInstructions := by
  unfold Obligations.FloatInstructions
  intro p c t x0 h x cr lo hi gives single kept
  have hrun {word : Nat} (f : Thread → Thread) (hw : c.wordAt t x0 = word) :
      State.run ⟨p, c⟩ (fun c => c.local t word f) = .next ⟨p, cr.setThread t (some (f x))⟩ := run_local h hw f
  refine ⟨fun d a b => ?two, fun d a => ?one⟩
  case two =>
    intro w
    exact ⟨hrun _, hrun _, hrun _, hrun _, hrun _, hrun _, hrun _⟩
  case one =>
    intro w
    exact ⟨hrun _, hrun _, hrun _, hrun _, hrun _, hrun _, f2i_nan,
      fun v hv => ⟨f2i_flags hv, fun he hm => f2i_high hv he hm, fun he hm => f2i_low hv he hm⟩⟩

/-! ### Conversions -/

section
variable {x : Thread} {d a b : Reg} {fmt : Nat}

theorem cvt2_of_rnd {y z : Thread} {m n : Rnd} {rnd : Nat} (hf : fmt ≤ 8) (hm : x.rnd rnd = some (m, y)) (hn : y.rnd rnd = some (n, z)) :
    x.cvt2 d a b fmt rnd =
      let q := convertAny fmt m (f32 (lo32 (x.reg a))).1 (f32 (lo32 (x.reg b))).1
      let r := convertAny fmt n (f32 (hi32 (x.reg a))).1 (f32 (lo32 (x.reg b))).1
      some (z.result d (BitVec.ofNat 64 (((x.reg d).toNat <<< (2 * fmtWidth fmt)) ||| (r.1 <<< fmtWidth fmt) ||| q.1))
        ((q.2.join r.2).join ((f32 (lo32 (x.reg b))).2.join ((f32 (lo32 (x.reg a))).2.join (f32 (hi32 (x.reg a))).2)))) := by
  simp only [Thread.cvt2, Nat.not_lt.2 hf, if_false, hm, hn]

theorem rnd_stoch {y : Thread} {u : W16} (h : x.draw = some (u, y)) : x.rnd 1 = some (.stoch u, y) := by rw [Thread.rnd, h]; rfl

/-- A reserved rounding mode, or a stochastic one with no seed, gives no mode. -/
theorem rnd_none {rnd : BitVec 2} (h : rnd = 3 ∨ (rnd = 1 ∧ x.gen = none)) : x.rnd rnd.toNat = none := by
  rcases h with rfl | ⟨rfl, hg⟩
  · rfl
  · show x.draw.map _ = none
    rw [Thread.draw, hg]
    rfl

theorem cvt2_fault {rnd : BitVec 2} (h : 8 < fmt ∨ rnd = 3 ∨ (rnd = 1 ∧ x.gen = none)) : x.cvt2 d a b fmt rnd.toNat = none := by
  rw [Thread.cvt2]
  split_ifs with hf
  · rfl
  · simp only [rnd_none (h.resolve_left hf)]

end

/-- Settles O38: a conversion by the rounding modes that its thread draws. -/
theorem conversionInstructions : Obligations.ConversionInstructions := by
  unfold Obligations.ConversionInstructions
  intro p c t x0 h x cr lo hi runs set cvt
  have hset {word : Nat} {f : Thread → Option Thread} {y : Thread} (hf : f x = some y) (hw : c.wordAt t x0 = word) :
      State.run ⟨p, c⟩ (fun c => c.localOr t word f) = .next ⟨p, set y⟩ := by
    have hrun := run_localOr (p := p) h hw f
    rw [hf] at hrun
    exact hrun
  have hfault {word : Nat} {f : Thread → Option Thread} (hf : f x = none) (hw : c.wordAt t x0 = word) :
      State.run ⟨p, c⟩ (fun c => c.localOr t word f) = .next ⟨p, cr.instrFault t x⟩ := by
    have hrun := run_localOr (p := p) h hw f
    rw [hf] at hrun
    exact hrun
  refine ⟨fun d a b fmt rnd hfmt => ?cvt, fun d a b fmt hfmt => ?exp, fun d a rnd => ?tobf, fun d a => ?frombf, fun d a b fmt rnd hbad => ?bad⟩
  case cvt =>
    intro w q r packed
    refine ⟨fun hr => ?_, fun hr => ?_, fun hr u v y z hy hz => ?_⟩
    · subst hr
      exact hset (cvt2_of_rnd (rnd := 0) hfmt rfl rfl)
    · subst hr
      exact hset (cvt2_of_rnd (rnd := 2) hfmt rfl rfl)
    · subst hr
      exact hset (cvt2_of_rnd (rnd := 1) hfmt (rnd_stoch hy) (rnd_stoch hz))
  case exp =>
    intro w q r
    exact hset (by simp only [Thread.exp2, Nat.not_lt.2 hfmt, if_false]; rfl)
  case tobf =>
    intro v put
    refine ⟨fun hr => ?_, fun hr u y hy => ?_⟩
    · rcases hr with rfl | rfl
      · exact hset rfl
      · exact hset rfl
    · subst hr
      exact hset (by show (x.rnd 1).map _ = _; rw [rnd_stoch hy]; rfl)
  case frombf =>
    intro v hw
    exact run_local h hw _
  case bad =>
    refine ⟨hfault (cvt2_fault hbad), fun hf => hfault (by rw [Thread.exp2, if_pos hf]), fun hr => hfault ?_⟩
    rw [Thread.tobf, rnd_none hr]
    rfl

end Sys2Proof.Machine
end

section
/-!
PROOFS. Loads, atomics and stores of compositors (R101, R159, R161, R167, R168).
-/
namespace Sys2Proof.Machine

/-! ### Loads -/

section
variable {c : Chip} {t : ThreadRef} {x : Thread} {d : Reg} {a k : Nat}

theorem load_of_ok {pl : Place} {c1 : Chip} {bs : List Byte} (hp : c.place t x a k false = some pl)
    (hr : c.placeRead (c.ctxOf t.die x.part) t.die k pl = (c1, .ok bs)) :
    c.load t x d a k = c1.setThread t (some { x.result d (BitVec.ofNat 64 (leNat bs)) {} with wait := .memory }) := by
  simp only [Chip.load, hp, hr]

theorem load_of_error {pl : Place} {c1 : Chip} {f : AccFault} (hp : c.place t x a k false = some pl)
    (hr : c.placeRead (c.ctxOf t.die x.part) t.die k pl = (c1, .error f)) : c.load t x d a k = c1.memFault t x f := by
  simp only [Chip.load, hp, hr]

theorem load_of_no_place (hp : c.place t x a k false = none) : c.load t x d a k = c.memFault t x (addrFault a) := by
  simp only [Chip.load, hp]

end

/-! ### Stores at a place -/

section
variable {c : Chip} {t : ThreadRef} {x y : Thread} {pl : Place} {o : Out} {bs : List Byte}

/-- A store to a page that is being copied waits. -/
theorem storeAt_copying (ho : pl.out x.tid bs.length = some o) (hs : o.space = 0)
    (hc : c.copying (c.ctxOf t.die x.part) o.addr o.len = true) :
    c.storeAt t x y pl bs = c.setThread t (some { x with wait := .memory }) := by
  simp only [Chip.storeAt, ho]
  rw [if_pos (by simp [hs, hc])]

/-- A store that has its place is noted among the writes of the thread's spawn. -/
theorem storeAt_done {c1 : Chip} (ho : pl.out x.tid bs.length = some o)
    (hc : o.space ≠ 0 ∨ c.copying (c.ctxOf t.die x.part) o.addr o.len = false)
    (hw : (c.stored t x o bs).1.placeWrite (c.ctxOf t.die x.part) t.die (c.stored t x o bs).2 pl = (c1, none)) :
    c.storeAt t x y pl bs = (c1.modOp (x.unit t.die) (fun k => { k with outs := k.outs ++ [o] })).setThread t (some y) := by
  simp only [Chip.storeAt, ho, hw]
  rw [if_neg (by rcases hc with h | h <;> simp [h])]

theorem storeAt_entry (e byte : Nat) :
    c.storeAt t x y (.entry e byte) bs = (c.placeWrite (c.ctxOf t.die x.part) t.die bs (.entry e byte)).1.setThread t (some y) := rfl

/-- Bytes that no two threads race for are stored as they are. -/
theorem stored_of_no_race (h : (List.range bs.length).any (c.races t x o) = false) : c.stored t x o bs = (c, bs) := by
  simp only [Chip.stored, h, Bool.false_eq_true, if_false]

end

/-! ### Atomics -/

section
variable {c c1 : Chip} {t : ThreadRef} {x : Thread} {d : Reg} {a : Nat} {pl : Place} {bs : List Byte}

/-- An atomic that has its place and its old value: it stores what `f` gives, or nothing. -/
theorem atomic_of_ok (hp : c.place t x a 8 true = some pl) (hr : c.placeRead (c.ctxOf t.die x.part) t.die 8 pl = (c1, .ok bs))
    (f : W64 → Option W64) :
    let c2 := c1.synced t.die x
    let y : Thread := { x with acquired := c2.syncs }
    let z : Thread := { y.result d (BitVec.ofNat 64 (leNat bs)) {} with wait := .memory }
    c.atomic t x d a f = match f (BitVec.ofNat 64 (leNat bs)) with
      | none => c2.setThread t (some z)
      | some new => c2.storeAt t y z pl (leBytes 8 new.toNat) := by
  simp only [Chip.atomic, hp, hr] <;> rfl

theorem atomic_of_no_place (hp : c.place t x a 8 true = none) (f : W64 → Option W64) :
    c.atomic t x d a f = c.memFault t x (addrFault a) := by
  simp only [Chip.atomic, hp]

end

/-- Settles O39: the law of issue, then the place and the old value of the access. -/
theorem loadsAndAtomics : Obligations.LoadsAndAtomics := by
  unfold Obligations.LoadsAndAtomics
  intro p c t x0 h x cr runs n waits
  have hrun {word : Nat} {f : Chip → Thread → Chip} {c' : Chip} (hf : f cr x = c') (hw : c.wordAt t x0 = word) :
      State.run ⟨p, c⟩ (fun c => c.issue t word f) = .next ⟨p, c'⟩ := by
    rw [run_issue h hw]
    exact congrArg (fun k => Host.Outcome.next (State.mk p k)) hf
  refine ⟨fun d a imm => ?load, fun d a b => ?atomic⟩
  case load =>
    intro ea load
    exact ⟨⟨fun pl c1 bs hp hr => hrun (load_of_ok hp hr), fun pl c1 f hp hr => hrun (load_of_error hp hr), fun hp => hrun (load_of_no_place hp)⟩,
      ⟨fun pl c1 bs hp hr => hrun (load_of_ok hp hr), fun pl c1 f hp hr => hrun (load_of_error hp hr), fun hp => hrun (load_of_no_place hp)⟩,
      fun pl c1 bs hp hr => hrun (load_of_ok hp hr), fun pl c1 f hp hr => hrun (load_of_error hp hr), fun hp => hrun (load_of_no_place hp)⟩
  case atomic =>
    intro ea
    refine ⟨fun pl c1 bs hp hr => ?ok, fun hp => ⟨hrun (atomic_of_no_place hp _), hrun (atomic_of_no_place hp _)⟩⟩
    intro old c2 y stores
    have hstores {op : Nat} {i : Instr} {v : W64} {f : Chip → Thread → Chip}
        (hi : exec i ⟨p, c⟩ = State.run ⟨p, c⟩ (fun c => c.issue t (cword op d a b 0) f))
        (hf : f cr x = c2.storeAt t y { y.result d old {} with wait := .memory } pl (leBytes 8 v.toNat)) : stores op i v := by
      intro o ho
      have hlen : (leBytes 8 v.toNat).length = 8 := by simp
      have ho' : pl.out y.tid (leBytes 8 v.toNat).length = some o := by rw [hlen]; exact ho
      refine ⟨fun hs hc hw => hi.trans (hrun (hf.trans (storeAt_copying ho' hs hc)) hw),
        fun hc c3 hw3 hw => hi.trans (hrun (hf.trans (storeAt_done ho' hc hw3)) hw), fun hno => stored_of_no_race (by rw [hlen]; exact hno)⟩
    have hold {f : W64 → Option W64} {v : W64} (hv : f old = some v) :
        cr.atomic t x d ea f = c2.storeAt t y { y.result d old {} with wait := .memory } pl (leBytes 8 v.toNat) := by
      have := atomic_of_ok (d := d) hp hr f
      rw [show f (BitVec.ofNat 64 (leNat bs)) = some v from hv] at this
      exact this
    refine ⟨hstores rfl (hold rfl), fun heq => hstores rfl (hold (if_pos heq)), fun hne => hrun ?_⟩
    have hat := atomic_of_ok (d := d) hp hr (fun v => if v = x.reg d then some (x.reg b) else none)
    rw [if_neg (show ¬ BitVec.ofNat 64 (leNat bs) = x.reg d from hne)] at hat
    exact hat

/-! ### What a store changes of the module's stores -/

/-- Noting a write and setting a thread touch no store. -/
theorem storeDone_stores (c : Chip) (u : UnitRef) (f : Op → Op) (t : ThreadRef) (x : Option Thread) :
    ((c.modOp u f).setThread t x).host = c.host ∧ ((c.modOp u f).setThread t x).dram = c.dram ∧
    ((c.modOp u f).setThread t x).platenMem = c.platenMem ∧ ((c.modOp u f).setThread t x).engineMem = c.engineMem ∧
    ((c.modOp u f).setThread t x).sharedMem = c.sharedMem := by
  simp [Chip.modOp, Chip.modStream, Chip.setThread]

theorem rotate_stores (c : Chip) (t : ThreadRef) (l : Nat × Nat) :
    (c.rotate t l).host = c.host ∧ (c.rotate t l).dram = c.dram ∧ (c.rotate t l).platenMem = c.platenMem ∧
    (c.rotate t l).engineMem = c.engineMem ∧ (c.rotate t l).sharedMem = c.sharedMem := by
  simp [rotate_eq]

/-- Two modules with the same stores but device memory. -/
def SameButDram (c c' : Chip) : Prop :=
  c'.host = c.host ∧ c'.platenMem = c.platenMem ∧ c'.engineMem = c.engineMem ∧ c'.sharedMem = c.sharedMem

theorem foldl_snoop_same (l : List Nat) (c : Chip) : SameButDram c (l.foldl (fun c u => c.snoop u) c) := by
  obtain ⟨k, v, w, h⟩ := foldl_snoop_frame l c
  rw [h]
  exact ⟨rfl, rfl, rfl, rfl⟩

/-- Storing bytes at a place of a copy touches those bytes alone. -/
theorem mget_pokeCopy_other {c : Chip} {k : PageCopy} {po j : Nat} {bs : List Byte} (h : ∀ m, m < bs.length → j ≠ k.dev (po + m)) :
    mget (c.pokeCopy k po bs).dram j = mget c.dram j := by
  have hfold (l : List Nat) (hl : ∀ m ∈ l, j ≠ k.dev (po + m)) (m : Memory) :
      mget (l.foldl (fun m i => mput m (k.dev (po + i)) (bs.getD i 0)) m) j = mget m j := by
    induction l generalizing m with
    | nil => rfl
    | cons i l ih =>
      rw [List.foldl_cons, ih (fun i' hi' => hl i' (List.mem_cons_of_mem _ hi')), mget_mput_ne (hl i List.mem_cons_self)]
  unfold Chip.pokeCopy
  simp only
  rw [foldl_snoop_dram]
  exact hfold _ (fun m hm => h m (List.mem_range.1 hm)) _

theorem pokeCopy_same (c : Chip) (k : PageCopy) (po : Nat) (bs : List Byte) : SameButDram c (c.pokeCopy k po bs) := by
  unfold Chip.pokeCopy
  simp only
  obtain ⟨h1, h2, h3, h4⟩ := foldl_snoop_same ((List.range ((po + bs.length - 1) / 256 + 1 - po / 256)).map
    (fun i => k.dev ((po / 256 + i) * 256) / 256)) { c with
      dram := (List.range bs.length).foldl (fun m i => mput m (k.dev (po + i)) (bs.getD i 0)) c.dram
      ecc := ((List.range (bs.length / 256 + 2)).filterMap (fun i =>
        let u := (po / 256 + i) * 256
        if po ≤ u ∧ u + 256 ≤ po + bs.length then some (k.dev u / 256) else none)).foldl (fun e u => tput false e u false) c.ecc }
  exact ⟨h1, h2, h3, h4⟩

/-- An access of at most eight bytes that its length divides lies in one page. -/
theorem piecesOf_aligned {va k : Nat} (hk : k = 8 ∨ k = 4 ∨ k = 1) (ha : va % k = 0) : piecesOf va k = [(va, k)] := by
  have hfit : k ≤ pageSize - va % pageSize := by
    rw [pageSize]
    rcases hk with rfl | rfl | rfl <;> omega
  rcases hk with rfl | rfl | rfl <;> simp [piecesOf, pieces, hfit]

/-- Two modules with the same contexts and stores. -/
def SameStores (c c' : Chip) : Prop := c'.ctxs = c.ctxs ∧ c'.dram = c.dram ∧ SameButDram c c'

theorem SameButDram.trans {a b c : Chip} (h : SameButDram a b) (h' : SameButDram b c) : SameButDram a c := by
  obtain ⟨h1, h2, h3, h4⟩ := h
  obtain ⟨h1', h2', h3', h4'⟩ := h'
  exact ⟨h1'.trans h1, h2'.trans h2, h3'.trans h3, h4'.trans h4⟩

theorem SameStores.trans {a b c : Chip} (h : SameStores a b) (h' : SameStores b c) : SameStores a c := by
  obtain ⟨hc, hd, hs⟩ := h
  obtain ⟨hc', hd', hs'⟩ := h'
  exact ⟨hc'.trans hc, hd'.trans hd, hs.trans hs'⟩

/-- What a write keeps of a running sheet section lies in its stream. -/
theorem spoil_same (c : Chip) (n va len : Nat) : SameStores c (c.spoil n va len) := by
  have step (c : Chip) (s : Option Stream) (p : Stream → Bool) (d : Die) (q : Nat) (f : Stream → Stream → Stream) :
      SameStores c (match s with
        | none => c
        | some s => if !p s then c else { c.modStream d q (f s) with fresh := c.fresh + 1 }) := by
    split
    · exact ⟨rfl, rfl, rfl, rfl, rfl, rfl⟩
    · split
      · exact ⟨rfl, rfl, rfl, rfl, rfl, rfl⟩
      · exact ⟨modDie_ctxs _ _ _, modDie_dram _ _ _, modDie_host _ _ _, modDie_platenMem _ _ _, modDie_engineMem _ _ _, modDie_sharedMem _ _ _⟩
  unfold Chip.spoil
  exact (step c _ _ .w _ _).trans (step _ _ _ .e _ _)

/-- Bytes stored in a written page of context memory change those bytes of its copy and no other of the stores. -/
theorem writeVa_written {c c1 : Chip} {n va k : Nat} {bs : List Byte} {g : Page} (hk : k = 8 ∨ k = 4 ∨ k = 1) (hlen : bs.length = k)
    (ha : va % k = 0) (hg : (c.ctx n).page va = some g) (hw : (g.copy (g.useB (c.ctx n) .active)).written = true)
    (h : c.writeVa n va bs = (c1, none)) :
    (∀ j, (∀ m, m < k → j ≠ (g.copy (g.useB (c.ctx n) .active)).dev (va % pageSize + m)) → mget c1.dram j = mget c.dram j) ∧ SameButDram c c1 := by
  obtain ⟨hctxs, hdram, hsame⟩ := spoil_same c n va bs.length
  have hctx : (c.spoil n va bs.length).ctx n = c.ctx n := ctx_congr hctxs n
  have hc1 : c1 = (c.spoil n va bs.length).pokeCopy (g.copy (g.useB (c.ctx n) .active)) (va % pageSize) bs := by
    have hpoke : (c.spoil n va bs.length).pokeVa n .active va bs = c1 := by
      simp only [Chip.writeVa, Chip.writeVaAs] at h
      split at h
      · simp at h
      · exact congrArg Prod.fst h
    have htake : bs.take k = bs := List.take_of_length_le hlen.le
    rw [← hpoke, Chip.pokeVa, hlen, piecesOf_aligned hk ha]
    simp only [List.foldl_cons, List.foldl_nil]
    rw [hlen] at hctx
    rw [hctx, hg, htake]
    simp only [Chip.pokePiece, Chip.firstWrite, hctx, hg, hw, if_true]
  rw [hc1]
  exact ⟨fun j hj => (mget_pokeCopy_other (by rw [hlen]; exact hj)).trans (by rw [hdram]), hsame.trans (pokeCopy_same _ _ _ _)⟩

/-- Only addresses that the access's length divides have a place. -/
theorem aligned_of_place {c : Chip} {t : ThreadRef} {x : Thread} {a n : Nat} {store : Bool} {pl : Place} (h : c.place t x a n store = some pl) :
    a % n = 0 := by
  by_contra hne
  rw [Chip.place, if_pos hne] at h
  cases h

/-- A place in context memory is the address itself. -/
theorem place_va {c : Chip} {t : ThreadRef} {x : Thread} {a n va : Nat} {store : Bool} (h : c.place t x a n store = some (.va va)) : va = a := by
  unfold Chip.place at h
  simp only at h
  split at h
  · cases h
  · split at h
    · split_ifs at h
      exact (Place.va.inj (Option.some.inj h)).symm
    · split_ifs at h
      cases h
    · split_ifs at h <;> cases h
    · split_ifs at h
      cases h
    · cases h

/-- Settles O40: the law of issue, then the place of the store; a written page changes where the bytes lie and nowhere else. -/
theorem stores : Obligations.Stores := by
  unfold Obligations.Stores
  intro p c t x0 a b imm h hwf x cr runs n ea store
  obtain ⟨-, -, hwp, -, hws⟩ := hwf
  obtain ⟨hhost, hdram, hplaten, hengine, hshared⟩ := rotate_stores c t (c.codeLine t x0)
  have hrun {word : Nat} {f : Chip → Thread → Chip} {c' : Chip} (hf : f cr x = c') (hw : c.wordAt t x0 = word) :
      State.run ⟨p, c⟩ (fun c => c.issue t word f) = .next ⟨p, c'⟩ := by
    rw [run_issue h hw]
    exact congrArg (fun k => Host.Outcome.next (State.mk p k)) hf
  have hstore {op : Nat} {i : Instr} {k : Nat} (hk : k = 8 ∨ k = 4 ∨ k = 1)
      (hi : exec i ⟨p, c⟩ = State.run ⟨p, c⟩ (fun c => c.issue t (cword op 0 a b imm.toNat) (fun c x => c.store t x (x.ea a imm) k (x.reg b)))) :
      store op i k := by
    let bs := leBytes k (x.reg b).toNat
    have hlen : bs.length = k := leBytes_length _ _
    have hst {pl : Place} (hp : cr.place t x ea k true = some pl) : cr.store t x (x.ea a imm) k (x.reg b) = cr.storeAt t x x.advance pl bs := by
      rw [Chip.store, show cr.place t x (x.ea a imm) k true = some pl from hp]
    refine ⟨fun pl o hp ho => ?_, fun e byte hp hw => hi.trans (hrun ((hst hp).trans (storeAt_entry e byte)) hw),
      fun hp hw => hi.trans (hrun ?_ hw)⟩
    · rw [← hlen] at ho
      refine ⟨fun hs hc hw => hi.trans (hrun ((hst hp).trans (storeAt_copying ho hs hc)) hw), fun hc c1 hput => ?_⟩
      intro done
      refine ⟨fun hw => hi.trans (hrun ((hst hp).trans (storeAt_done ho hc hput)) hw), fun hno => ?_⟩
      have hsame : cr.stored t x o bs = (cr, bs) := stored_of_no_race (by rw [hlen]; exact hno)
      obtain ⟨dhost, ddram, dplaten, dengine, dshared⟩ := storeDone_stores c1 (x.unit t.die) (fun k => { k with outs := k.outs ++ [o] }) t (some x.advance)
      rw [hsame] at hput
      refine ⟨hsame, fun pt off hpl => ?platen, fun st off hpl => ?shared, fun va g hpl hg => ?page⟩
      case platen =>
        subst hpl
        have hc1 : c1 = { cr with platenMem := mwrite cr.platenMem (platenKey t.die pt off) bs } := (congrArg Prod.fst hput).symm
        have hmem : done.platenMem = mwrite c.platenMem (platenKey t.die pt off) bs := by rw [dplaten, hc1, ← hplaten]
        rw [hmem]
        refine ⟨by simpa only [hlen] using mread_mwrite hwp (platenKey t.die pt off) bs, fun j hj => mget_mwrite_outside (by rw [hlen]; exact hj), ?_, ?_, ?_, ?_⟩
        · rw [dhost, hc1, ← hhost]
        · rw [ddram, hc1, ← hdram]
        · rw [dengine, hc1, ← hengine]
        · rw [dshared, hc1, ← hshared]
      case shared =>
        subst hpl
        have hc1 : c1 = { cr with sharedMem := mwrite cr.sharedMem (sharedKey st off) bs } := (congrArg Prod.fst hput).symm
        have hmem : done.sharedMem = mwrite c.sharedMem (sharedKey st off) bs := by rw [dshared, hc1, ← hshared]
        rw [hmem]
        refine ⟨by simpa only [hlen] using mread_mwrite hws (sharedKey st off) bs, fun j hj => mget_mwrite_outside (by rw [hlen]; exact hj), ?_, ?_, ?_, ?_⟩
        · rw [dhost, hc1, ← hhost]
        · rw [ddram, hc1, ← hdram]
        · rw [dengine, hc1, ← hengine]
        · rw [dplaten, hc1, ← hplaten]
      case page =>
        intro hc hwritten
        subst hpl
        have ha : va % k = 0 := by rw [place_va hp]; exact aligned_of_place hp
        obtain ⟨hother, shost, splaten, sengine, sshared⟩ := writeVa_written hk hlen ha hg hwritten hput
        refine ⟨fun j hj => ?_, dhost.trans (shost.trans hhost), dplaten.trans (splaten.trans hplaten), dengine.trans (sengine.trans hengine),
          dshared.trans (sshared.trans hshared)⟩
        rw [ddram, hother j hj, hdram]
    · rw [Chip.store, show cr.place t x (x.ea a imm) k true = none from hp]
      rfl
  exact ⟨hstore (.inl rfl) rfl, hstore (.inr (.inl rfl)) rfl, hstore (.inr (.inr rfl)) rfl⟩

end Sys2Proof.Machine
end

section
/-!
PROOFS. Special registers, semaphores, generators, branches and events of threads, and SPAWN (R148, R149, R159 to R171, R293, R311).
-/
namespace Sys2Proof.Machine

/-! ### The module after a rotation -/

theorem rotate_ctxOf (c : Chip) (t : ThreadRef) (l : Nat × Nat) (q : Nat) : (c.rotate t l).ctxOf t.die q = c.ctxOf t.die q := by
  have hparts : (c.rotate t l).parts = c.parts := by rw [rotate_eq, modDie_parts]
  simp only [Chip.ctxOf, Chip.stream, Chip.part, die_rotate, hparts]

theorem rotate_ctx (c : Chip) (t : ThreadRef) (l : Nat × Nat) (n : Nat) : (c.rotate t l).ctx n = c.ctx n := by
  rw [rotate_eq, ctx_modDie]

/-! ### Special registers and generators -/

theorem spr_isSome (x : Thread) (t : ThreadRef) (ridge : W64) {i : Nat} (h : i ≤ 9) : ∃ v, x.spr t ridge i = some v := by
  interval_cases i <;> exact ⟨_, rfl⟩

theorem spr_eq_none (x : Thread) (t : ThreadRef) (ridge : W64) {i : Nat} (h : 9 < i) : x.spr t ridge i = none := by
  obtain ⟨k, rfl⟩ := Nat.exists_eq_add_of_le' h
  rfl

/-- RSEED of a stream 0 to 3. -/
theorem rseed_of_lt {x : Thread} {a b : Reg} (ha : (x.reg a).toNat < 2 ^ 22) (hb : (x.reg b).toNat < 2 ^ 16) (seed : BitVec 128) :
    x.rseed seed a b = some { x.advance with
      gen := some (Lane.seed seed ((x.reg a).toNat / 2 ^ 20) ((x.reg a).toNat % 2 ^ 20) (x.reg b).toNat x.step.toNat).g, draws := [] } := by
  have hs : bits (x.reg a).toNat 23 20 = (x.reg a).toNat / 2 ^ 20 := by rw [bits_eq]; omega
  have ht : bits (x.reg a).toNat 19 0 = (x.reg a).toNat % 2 ^ 20 := by rw [bits_eq]; omega
  simp only [Thread.rseed, hs, ht]
  rw [if_neg (by omega)]

theorem rseed_of_le {x : Thread} {a b : Reg} (h : 2 ^ 22 ≤ (x.reg a).toNat ∨ 2 ^ 16 ≤ (x.reg b).toNat) (seed : BitVec 128) :
    x.rseed seed a b = none := by
  have hs : bits (x.reg a).toNat 23 20 = (x.reg a).toNat / 2 ^ 20 % 2 ^ 4 := bits_eq _ _ _
  simp only [Thread.rseed, hs]
  rw [if_pos (by omega)]

/-! ### Takes of a thread -/

section
variable {c : Chip} {t : ThreadRef} {x : Thread} {i : BitVec 12} {half xd : Bool} {n : W64}

/-- A take that its half holds succeeds. -/
theorem tryStake_of_has
    (h : c.semHas (if xd then t.die.other else t.die) (c.pair x.part i.toNat) half n.toNat = true) :
    let m := if xd then t.die.other else t.die
    let pr := c.pair x.part i.toNat
    let heard := (c.synced t.die x).hears (.unit t.die (x.unit t.die).pos) m pr half
    c.tryStake t x i half xd n = ((heard.setThread t (some { x.advance with wait := .ready, acquired := heard.syncs })).turn m pr half
      (c.contested m pr half n.toNat) (threadRequester t m)).semTake m pr half n.toNat := by
  simp only [Chip.tryStake, h, if_true]

theorem tryStake_of_not_has
    (h : c.semHas (if xd then t.die.other else t.die) (c.pair x.part i.toNat) half n.toNat = false) :
    c.tryStake t x i half xd n = c.setThread t (some { x with wait := .stake i half xd n }) := by
  simp only [Chip.tryStake, h, Bool.false_eq_true, if_false]

end

/-- Settles O41: the law of issue, then the branches of each instruction. -/
theorem specialInstructions : Obligations.SpecialInstructions := by
  unfold Obligations.SpecialInstructions
  intro p c t x0 h x cr runs set u
  have hrun {word : Nat} {f : Chip → Thread → Chip} {c' : Chip} (hf : f cr x = c') (hw : c.wordAt t x0 = word) :
      State.run ⟨p, c⟩ (fun c => c.issue t word f) = .next ⟨p, c'⟩ := by
    rw [run_issue h hw]
    exact congrArg (fun k => Host.Outcome.next (State.mk p k)) hf
  have hset {word : Nat} {f : Thread → Option Thread} {y : Thread} (hf : f x = some y) (hw : c.wordAt t x0 = word) :
      State.run ⟨p, c⟩ (fun c => c.localOr t word f) = .next ⟨p, set y⟩ := by
    have hl := run_localOr (p := p) h hw f
    rw [hf] at hl
    exact hl
  have hfault {word : Nat} {f : Thread → Option Thread} (hf : f x = none) (hw : c.wordAt t x0 = word) :
      State.run ⟨p, c⟩ (fun c => c.localOr t word f) = .next ⟨p, cr.instrFault t x⟩ := by
    have hl := run_localOr (p := p) h hw f
    rw [hf] at hl
    exact hl
  have hseed : (cr.ctx (cr.ctxOf t.die x.part)).seed = (c.ctx (c.ctxOf t.die x.part)).seed := by
    rw [rotate_ctxOf, rotate_ctx]
  have hrseed {a b : Reg} : exec (.rseed t a b) ⟨p, c⟩ = State.run ⟨p, c⟩ (fun c' =>
      c'.localOr t (cword 0x5C 0 a b 0) (fun y => y.rseed (c.ctx (c.ctxOf t.die y.part)).seed a b)) := by
    rw [run_eq]
    exact run_eq ⟨p, c⟩ (fun c => c.localOr t (cword 0x5C 0 a b 0) (fun y => y.rseed (c.ctx (c.ctxOf t.die y.part)).seed a b))
  refine ⟨fun d k w => ?arg, fun d i => ?spr, fun a b half xd => ?sem, fun a b => ⟨fun ha hb => ?_, fun hbad => ?_⟩, fun d g hg => ?_,
    fun d hg => ?_, fun hw => run_local h hw _⟩
  case arg =>
    exact ⟨fun v hv => hrun (by simp only [hv]; rfl), fun hv => hrun (by simp only [hv])⟩
  case spr =>
    have hnone {i : Nat} (hi : 9 < i) := spr_eq_none x t (c.die t.die).ridge hi
    exact ⟨fun v hv hw => (hset (f := fun y => (y.spr t (c.die t.die).ridge i.toNat).map (fun v => y.result d v {})) (by rw [hv]; rfl) hw :),
      spr_isSome x t _, fun hi hw =>
        (hfault (f := fun y => (y.spr t (c.die t.die).ridge i.toNat).map (fun v => y.result d v {})) (by rw [hnone hi]; rfl) hw :)⟩
  case sem =>
    intro i m pr n ssig stake sync heard
    refine ⟨fun hok => ⟨hrun ?_, fun hhas => hrun ?_, fun hhas => hrun ?_⟩, fun hok => ⟨hrun ?_, hrun ?_⟩⟩
    · simp only [show cr.semOk x.part (x.reg a).toNat = true from hok, Bool.not_true, Bool.false_eq_true, if_false]
      rfl
    · simp only [show cr.semOk x.part (x.reg a).toNat = true from hok, Bool.not_true, Bool.false_eq_true, if_false]
      exact tryStake_of_has hhas
    · simp only [show cr.semOk x.part (x.reg a).toNat = true from hok, Bool.not_true, Bool.false_eq_true, if_false]
      exact tryStake_of_not_has hhas
    · simp only [show cr.semOk x.part (x.reg a).toNat = false from hok, Bool.not_false, if_true]
      rfl
    · simp only [show cr.semOk x.part (x.reg a).toNat = false from hok, Bool.not_false, if_true]
      rfl
  · intro hw
    rw [hseed]
    have hf := rseed_of_lt (x := x) ha hb (c.ctx (c.ctxOf t.die x.part)).seed
    exact hset (f := fun y => y.rseed (c.ctx (c.ctxOf t.die y.part)).seed a b) hf hw |> hrseed.trans
  · intro hw
    have hf := rseed_of_le (x := x) hbad (c.ctx (c.ctxOf t.die x.part)).seed
    exact hfault (f := fun y => y.rseed (c.ctx (c.ctxOf t.die y.part)).seed a b) hf hw |> hrseed.trans
  · intro hw
    have hf : x.rnext d = some { x.result d (rngNext g).1 {} with gen := some (rngNext g).2, draws := [] } := by rw [Thread.rnext, hg]; rfl
    exact hset (f := fun y => y.rnext d) hf hw
  · intro hw
    have hf : x.rnext d = none := by rw [Thread.rnext, hg]; rfl
    exact hfault (f := fun y => y.rnext d) hf hw

end Sys2Proof.Machine
end

section
/-!
PROOFS. Branches and ends of threads, their events, and SPAWN (R159 to R164, R170, R171, R398, R400).
-/
namespace Sys2Proof.Machine

/-! ### Branches, EXIT and TRAP -/

theorem branch_of_nonneg {x : Thread} {imm : BitVec 13} (h : 0 ≤ (x.pc : Int) + imm.toInt) :
    x.branch imm = { x with pc := ((x.pc : Int) + imm.toInt).toNat } := by
  rw [Thread.branch, if_pos h]

/-- A branch goes to its target or on. -/
theorem branchIf_set {x : Thread} {imm : BitVec 13} (h : 0 ≤ (x.pc : Int) + imm.toInt) {q : Prop} [Decidable q] {b : Bool} (hb : b = true ↔ q) :
    (if b then x.branch imm else x.advance) = { x with pc := if q then ((x.pc : Int) + imm.toInt).toNat else x.pc + 1 } := by
  by_cases hq : q
  · rw [if_pos (hb.2 hq), if_pos hq, branch_of_nonneg h]
  · rw [if_neg (mt hb.1 hq), if_neg hq]
    rfl

/-- Settles O42: the law of issue, then what each instruction does with its thread. -/
theorem controlInstructions : Obligations.ControlInstructions := by
  unfold Obligations.ControlInstructions
  intro p c t x0 h x cr runs go
  have hbranch {op : Nat} {a b : Reg} {imm : BitVec 13} (hpc : 0 ≤ (x.pc : Int) + imm.toInt) {q : Prop} [Decidable q] (f : Thread → Bool)
      (hf : f x = true ↔ q) (hw : c.wordAt t x0 = cword op 0 a b imm.toNat) :
      State.run ⟨p, c⟩ (branchIf op t a b imm f) = .next ⟨p, go (if q then ((x.pc : Int) + imm.toInt).toNat else x.pc + 1)⟩ := by
    have hl := run_local (p := p) h hw (fun y => if f y then y.branch imm else y.advance)
    rw [show (if f x then x.branch imm else x.advance) = _ from branchIf_set hpc hf] at hl
    exact hl
  have hspawns : tget [] (cr.die t.die).spawns (compKey t) = tget [] (c.die t.die).spawns (compKey t) := by rw [die_rotate]
  refine ⟨fun a b imm hpc => ⟨fun hw => ?_, fun hw => ?_, fun hw => ?_, fun hw => ?_⟩, fun a hw => run_local h hw _,
    ⟨fun hnone hw => ?_, fun y r hsome hw => ?_⟩, fun imm hw => run_issue h hw _⟩
  · exact hbranch hpc (fun y => y.reg a == y.reg b) beq_iff_eq hw
  · exact hbranch hpc (fun y => y.reg a != y.reg b) bne_iff_ne hw
  · exact hbranch hpc (fun y => (y.reg a).slt (y.reg b)) (by rw [BitVec.slt_eq_decide, decide_eq_true_eq]) hw
  · exact (hbranch hpc (q := True) (fun _ => true) (iff_of_true rfl trivial) hw).trans (by rw [if_pos trivial])
  · refine (run_issue (p := p) h hw (fun c x => c.endThread t x)).trans ?_
    have hs := hspawns.trans hnone
    simp only [Chip.endThread, hs, cr, x]
  · refine (run_issue (p := p) h hw (fun c x => c.endThread t x)).trans ?_
    have hs := hspawns.trans hsome
    simp only [Chip.endThread, hs, cr, x] <;> rfl

/-! ### Events of threads -/

theorem wordAt_lt (c : Chip) (t : ThreadRef) (x : Thread) : c.wordAt t x < 2 ^ 32 := by
  let bs := (List.range 4).map (fun i => c.peek (c.ctxOf t.die x.part) .active (x.word + i))
  have hlen : bs.take 4 = bs := List.take_of_length_le (by simp [bs])
  have hmod := leNat_take bs 4
  rw [hlen] at hmod
  rw [show c.wordAt t x = leNat bs from rfl, hmod]
  exact Nat.mod_lt _ (by norm_num)

theorem le_of_mem_wfFrom {α : Type} [DecidableEq α] {d : α} {t : Tab α} {lo k : Nat} {v : α} (hw : Tab.wfFrom d lo t = true)
    (h : (k, v) ∈ t) : lo ≤ k := by
  induction t generalizing lo with
  | nil => cases h
  | cons e t ih =>
    simp only [Tab.wfFrom, Bool.and_eq_true, decide_eq_true_eq] at hw
    obtain ⟨⟨hlo, -⟩, ht⟩ := hw
    rcases List.mem_cons.1 h with rfl | hmem
    · exact hlo
    · exact hlo.trans ((Nat.le_succ _).trans (ih ht hmem))

theorem tget_of_mem_wfFrom {α : Type} [DecidableEq α] {d : α} {t : Tab α} {lo k : Nat} {v : α} (hw : Tab.wfFrom d lo t = true)
    (h : (k, v) ∈ t) : tget d t k = v := by
  induction t generalizing lo with
  | nil => cases h
  | cons e t ih =>
    simp only [Tab.wfFrom, Bool.and_eq_true, decide_eq_true_eq] at hw
    obtain ⟨-, ht⟩ := hw
    rcases List.mem_cons.1 h with rfl | hmem
    · exact if_pos rfl
    · have hk : ¬ e.1 = k := Nat.ne_of_lt (le_of_mem_wfFrom ht hmem)
      exact (if_neg hk).trans (ih ht hmem)

/-- The thread that a compositor's rotation comes to is ready. -/
theorem ready_of_nextReady {c : Chip} {t : ThreadRef} {x : Thread} (hx : c.thread t = some x)
    (hw : Tab.wf (none : Option Thread) (c.die t.die).threads = true) (h : (c.die t.die).nextReady t = some t.ctx) : x.wait = .ready := by
  rw [DieSt.nextReady, Option.orElse_eq_some] at h
  have hmem := h.elim List.mem_of_find?_eq_some fun h => List.mem_of_head? h.2
  obtain ⟨⟨k, y⟩, hky, hval⟩ := List.mem_filterMap.1 hmem
  split_ifs at hval with hk
  obtain ⟨z, rfl, hz⟩ := Option.bind_eq_some_iff.1 hval
  split_ifs at hz with hready
  have hkey : k = t.loc * 2 ^ 21 + t.comp * 2 ^ 12 + t.ctx := by
    have := Option.some.inj hz
    omega
  subst hkey
  have hread := tget_of_mem_wfFrom hw hky
  rw [Chip.thread, hread] at hx
  exact Option.some.inj hx ▸ hready

/-- An instruction other than the fault has no effect where the rotation does not come to its thread or its compositor stands still. -/
theorem issue_of_not_next {c : Chip} {t : ThreadRef} {x : Thread} (hx : c.thread t = some x)
    (h : (c.die t.die).nextReady t ≠ some t.ctx ∨ c.standsStill t x = true) (word : Nat) (f : Chip → Thread → Chip) : c.issue t word f = c := by
  simp only [Chip.issue, hx]
  rw [if_pos h]

theorem breakpoint_passed {c : Chip} {t : ThreadRef} {x : Thread} (h : x.pass = true ∨ (c.die t.die).breakpoint x = none) :
    (if x.pass then none else (c.die t.die).breakpoint x) = none := by
  rcases h with hp | hp
  · rw [if_pos hp]
  · rw [hp, ite_self]

section
variable {c : Chip} {t : ThreadRef} {x : Thread} (hx : c.thread t = some x) (hnext : (c.die t.die).nextReady t = some t.ctx)
  (hstill : c.standsStill t x = false)
include hx hnext hstill

theorem issue_of_past_end (h : x.progLen ≤ x.pc) (word : Nat) (f : Chip → Thread → Chip) : c.issue t word f = c.instrFault t x := by
  simp only [Chip.issue, hx]
  rw [if_neg (by simp [hnext, hstill]), if_pos h]

variable (hpc : x.pc < x.progLen) (hbp : x.pass = true ∨ (c.die t.die).breakpoint x = none)
include hpc hbp

theorem issue_of_miss (h : c.codeLine t x ∉ tget [] (c.die t.die).icache (compKey t)) (word : Nat) (f : Chip → Thread → Chip) :
    c.issue t word f = c.setThread t (some { x with wait := .fetch }) := by
  simp only [Chip.issue, hx]
  rw [if_neg (by simp [hnext, hstill]), if_neg (Nat.not_le.2 hpc), breakpoint_passed hbp]
  simp only [show (tget [] (c.die t.die).icache (compKey t)).contains (c.codeLine t x) = false by simpa using h, Bool.not_false, if_true]

theorem issue_of_other_word (h : c.codeLine t x ∈ tget [] (c.die t.die).icache (compKey t)) {word : Nat} (hw : c.wordAt t x ≠ word)
    (f : Chip → Thread → Chip) : c.issue t word f = if wordOk (c.wordAt t x) then c else c.instrFault t x := by
  simp only [Chip.issue, hx]
  rw [if_neg (by simp [hnext, hstill]), if_neg (Nat.not_le.2 hpc), breakpoint_passed hbp]
  simp only [show (tget [] (c.die t.die).icache (compKey t)).contains (c.codeLine t x) = true by simpa using h, Bool.not_true,
    Bool.false_eq_true, if_false]
  rw [if_neg hw]

end

section
variable (p : List Instr) (c : Chip) (t : ThreadRef) (d a b : Reg)

/-- THREAD_WAKE, by what the thread waits for. -/
def Chip.wake (c : Chip) (t : ThreadRef) (x : Thread) : Chip :=
  match x.wait with
  | .memory => c.setThread t (some { x with wait := .ready })
  | .fence => c.setThread t (some { x with wait := .ready })
  | .fetch => c.fetchLine t x
  | .stake i half xdie n => c.tryStake t x i half xdie n
  | .ready => c
  | .breakpoint _ => c

theorem exec_threadWake {x : Thread} (hx : c.thread t = some x) : exec (.threadWake t) ⟨p, c⟩ = .next ⟨p, c.wake t x⟩ := by
  refine congrArg (fun k => Host.Outcome.next (State.mk p k)) (a₁ := ?_) ?_
  simp only [hx] <;> rfl

theorem exec_instructionFault : exec (.instructionFault t) ⟨p, c⟩ = .next ⟨p, c.issue t (2 ^ 32) (fun c _ => c)⟩ := rfl

theorem exec_add : exec (.add t d a b) ⟨p, c⟩ =
    .next ⟨p, c.issue t (cword 1 d a b 0) (fun c x => c.setThread t (some (x.result d (x.reg a + x.reg b) {})))⟩ := rfl

theorem exec_exit : exec (.exit t) ⟨p, c⟩ = .next ⟨p, c.issue t (cword 0x65 0 0 0 0) (fun c x => c.endThread t x)⟩ := rfl

theorem exec_breakpoint {x : Thread} {n : Nat} (hx : c.thread t = some x) (hwait : x.wait = .ready) (hpass : x.pass = false)
    (hstill : c.standsStill t x = false) (hbp : (c.die t.die).breakpoint x = some n) :
    exec (.compositorBreakpointHit t) ⟨p, c⟩ = .next ⟨p, c.stopThread t x n⟩ := by
  refine congrArg (fun k => Host.Outcome.next (State.mk p k)) (a₁ := ?_) ?_
  simp only [hx]
  rw [if_neg (by simp [hwait, hpass, hstill]), hbp]

end

/-! ### SPAWN -/

/-- A spawn places its threads, its bound words once read. -/
def Chip.placeAll (u : UnitRef) (s : Stream) (o : Op) (g : Desc) (b : Chip × Except AccFault (List Byte)) : Chip :=
  let v := o.e.slot.toNat
  match b.2 with
  | .error f => b.1.opFault u 0 f
  | .ok ws =>
    let p := tget {} s.image.progs (spProg v)
    let c := (bindValues (spBind v) (spCount v) g ws).zipIdx.foldl (fun (c : Chip) x =>
      c.placeThread u.die (spTarget v) (x.2 % targetSize (spTarget v))
        { part := u.part, spawn := u.pos - 118, tid := x.2, bval := x.1, count := spCount v, tag := BitVec.ofNat 16 o.e.tag,
          step := o.step, prog := BitVec.ofNat 16 (spProg v), progVa := p.va, progLen := p.len }) b.1
    c.modOp u (fun o => { o with left := spCount v, busy := true, waiting := false })

/-- What a spawn slot's op does. -/
def Chip.spawnWork (u : UnitRef) (s : Stream) (c : Chip) (o : Op) : Chip :=
  let v := o.e.slot.toNat
  let ds := (viewList (o.descs.getD []) o.wides).map (fun g => if spTarget v = 0 then g else g.inStack (spTarget v))
  let g := ds.getD 0 default
  if romProg (spProg v) then c.romRun u o ds else Chip.placeAll u s o g (c.bindWords u v g)

theorem spawn_of_ready {c : Chip} {u : UnitRef} {o : Op} {s : Stream} (ho : OpReady c u o 1) (hpos : slotClass u.pos = .spawn)
    (hleft : o.left = 0) (hs : c.stream u.die u.part = some s) (hb : c.blocked u o = false) :
    c.spawn u = Chip.spawnWork u s (c.raceBytes u o.id o.outs (o.ins u.pos)) o := by
  have hw := work_of_ready ho hb (may := fun o => decide (slotClass u.pos = .spawn) && decide (o.e.opc = 1) && decide (o.left = 0))
    (by simp [hpos, ho.2.2.1, hleft]) (Chip.spawnWork u s)
  rw [← hw, Chip.spawn, hs] <;> rfl

/-- A built-in program under its own binding that reads its inputs and writes its output. -/
theorem romRun_of_written {c : Chip} {u : UnitRef} {o : Op} {ds : List Desc}
    (hbind : spBind o.e.slot.toNat = if romRows (spProg o.e.slot.toNat) then 1 else 0) {c1 c2 : Chip} {vs : List (List W32)}
    (hr : (if spProg o.e.slot.toNat = 0xF030 then c.freeWord.2 else c).romThreads u (spProg o.e.slot.toNat) (spTarget o.e.slot.toNat) ds
      (c.freeWord.1.extractLsb' 0 32) (List.range (spCount o.e.slot.toNat)) [] = (c1, .ok vs))
    (hw : c1.romWrite u (spTarget o.e.slot.toNat) (ds.getD (if spProg o.e.slot.toNat = 0xF030 then 2 else 1) default) 0
      (romOut (spProg o.e.slot.toNat) (ds.getD 0 default).bindGroup
        (ds.getD (if spProg o.e.slot.toNat = 0xF030 then 2 else 1) default) vs) = (c2, none)) : c.romRun u o ds = c2.opDone u 0 := by
  rw [Chip.romRun]
  simp only [hbind, ne_eq, not_true, if_false, hr, hw]

/-- Settles O43: an event of a thread is one branch of the law of issue or of its wake; SPAWN is one work of its unit. -/
theorem threadsAndSpawns : Obligations.ThreadsAndSpawns := by
  unfold Obligations.ThreadsAndSpawns
  refine ⟨fun p c t x hx => ⟨fun hwait => ?memory, fun hwait => ?fetch, fun i half xd n hwait => ?stake, fun hnext hstill => ?issue,
    fun n hwait hpass hstill hbp => ?bp, fun hloc => ?stack, fun hwait hw hnext => hwait (ready_of_nextReady hx hw hnext), fun hno d a b => ?no⟩,
    fun p c u o s ho hpos hleft hs hb => ?spawn⟩
  case memory =>
    rw [exec_threadWake p c t hx]
    rcases hwait with hwait | hwait <;> simp only [Chip.wake, hwait]
  case fetch =>
    intro line
    rw [exec_threadWake p c t hx]
    refine ⟨fun c1 bs hr => ?_, fun c1 f hr => ?_⟩
    all_goals
      have hr' : c.readVa (c.ctxOf t.die x.part) (x.word / 256 * 256) 256 = _ := hr
      simp only [Chip.wake, hwait, Chip.fetchLine, hr']
  case stake =>
    intro m pr heard
    rw [exec_threadWake p c t hx, Chip.wake, hwait]
    refine ⟨fun hhas => ?_, fun hhas => ?_⟩
    · exact congrArg (fun k => Host.Outcome.next (State.mk p k)) (tryStake_of_has hhas)
    · exact congrArg (fun k => Host.Outcome.next (State.mk p k)) ((tryStake_of_not_has hhas).trans (by rw [← hwait]))
  case issue =>
    rw [exec_instructionFault]
    refine ⟨fun h => ?_, fun hpc hbp => ⟨fun hmiss d a b => ⟨?_, ?_⟩, fun hline => ?_⟩⟩
    · rw [issue_of_past_end hx hnext hstill h]
    · rw [exec_add, issue_of_miss hx hnext hstill hpc hbp hmiss]
    · rw [issue_of_miss hx hnext hstill hpc hbp hmiss]
    · rw [issue_of_other_word hx hnext hstill hpc hbp hline (wordAt_lt c t x).ne]
      exact ⟨fun hbad => by rw [if_neg (by simp [hbad])], fun hok => by rw [if_pos hok]⟩
  case bp => exact exec_breakpoint p c t hx hwait hpass hstill hbp
  case stack => simp [Chip.standsStill, hloc]
  case no => rw [exec_add, exec_exit, issue_of_not_next hx hno, issue_of_not_next hx hno]; exact ⟨rfl, rfl⟩
  case spawn =>
    intro v prog cr ds g
    have hspawn : exec (.spawn u) ⟨p, c⟩ = .next ⟨p, c.spawn u⟩ := rfl
    rw [hspawn, spawn_of_ready ho hpos hleft hs hb]
    refine ⟨fun hrom => ⟨?_, fun hbind => ?_⟩, fun hrom c1 ws hws => ?_⟩
    · rw [Chip.spawnWork, if_pos hrom]
    · intro e c0 oi c1 c2 vs hr hw
      rw [Chip.spawnWork, if_pos hrom]
      exact congrArg (fun k => Host.Outcome.next (State.mk p k)) (romRun_of_written hbind hr hw)
    · have hwords : cr.bindWords u v g = (c1, .ok ws) := by
        rcases hws with ⟨h2, rfl, rfl⟩ | ⟨h2, x, hx, rfl⟩
        · rw [Chip.bindWords, if_neg h2]
        · rw [Chip.bindWords, if_pos h2, hx]
      rw [Chip.spawnWork, if_neg (show ¬ romProg (spProg o.e.slot.toNat) = true by simpa using hrom)]
      exact congrArg (fun b => Host.Outcome.next (State.mk p (Chip.placeAll u s o g b))) hwords

end Sys2Proof.Machine
end

section
/-!
PROOFS. The weight cache (R151 to R153).
-/
namespace Sys2Proof.Machine

/-- The line that an eviction takes is one of the set, and none was used before it. -/
theorem lruLine_of_ne_nil {set : List CacheLine} (h : set ≠ []) : ∃ v, lruLine set = some v ∧ v ∈ set ∧ ∀ l ∈ set, v.used ≤ l.used := by
  induction set with
  | nil => exact absurd rfl h
  | cons l t ih =>
    cases t with
    | nil => exact ⟨l, rfl, by simp⟩
    | cons m t =>
      obtain ⟨v, hv, hmem, hle⟩ := ih (by simp)
      rw [lruLine, hv]
      by_cases hlt : v.used < l.used
      · refine ⟨v, by simp only [hlt, if_true], List.mem_cons_of_mem _ hmem, fun k hk => ?_⟩
        rcases List.mem_cons.1 hk with rfl | hk
        · exact hlt.le
        · exact hle k hk
      · refine ⟨l, by simp only [hlt, if_false], List.mem_cons_self, fun k hk => ?_⟩
        rcases List.mem_cons.1 hk with rfl | hk
        · exact le_rfl
        · exact (Nat.not_lt.1 hlt).trans (hle k hk)

theorem fillSet_of_room {set : List CacheLine} (l : CacheLine) (h : set.length < 16) : fillSet set l = (set ++ [l], none) := if_pos h

theorem fillSet_of_full {set : List CacheLine} (l : CacheLine) (h : 16 ≤ set.length) :
    ∃ v ∈ set, (∀ k ∈ set, v.used ≤ k.used) ∧ fillSet set l = (set.map (fun x => if x = v then l else x), some v) := by
  have hne : set ≠ [] := by
    rintro rfl
    exact absurd h (by decide)
  obtain ⟨v, hv, hmem, hle⟩ := lruLine_of_ne_nil hne
  refine ⟨v, hmem, hle, ?_⟩
  simp only [fillSet, Nat.not_lt.2 h, if_false, hv]

/-- The filled line stands in its set. -/
theorem mem_fillSet (set : List CacheLine) (l : CacheLine) : l ∈ (fillSet set l).1 := by
  rcases Nat.lt_or_ge set.length 16 with h | h
  · rw [fillSet_of_room l h]
    exact List.mem_append_right _ (List.mem_singleton.2 rfl)
  · obtain ⟨v, hv, -, hfill⟩ := fillSet_of_full l h
    rw [hfill]
    exact List.mem_map.2 ⟨v, hv, if_pos rfl⟩

/-- A die whose fill of a line under a key has come. -/
def DieSt.filled (m : DieSt) (line key : Nat) : DieSt :=
  let r := fillSet (tget [] m.cache (line % 24576)) { line := line, key := key, used := m.uses }
  { m with
    fills := m.fills.filter (fun x => decide (x ≠ (line, key))), uses := m.uses + 1
    cache := tput [] m.cache (line % 24576) r.1
    notices := m.notices.filter (fun x => decide (x ≠ line)) ++ (match r.2 with | some v => [v.line] | none => []) }

theorem cacheFill_of_find {c : Chip} {d : Die} {line key : Nat}
    (h : (c.die d).fills.find? (fun f => decide (f.1 = line)) = some (line, key)) :
    c.cacheFill d line = (c.modDie d (fun m => m.filled line key)).modStk (line / 2 ^ 28) (fun x =>
      { x with presence := tmod 0 x.presence line (· ||| presenceBit d) }) := by
  simp only [Chip.cacheFill, h] <;> rfl

/-- The set of a filled line. -/
theorem filled_cache (m : DieSt) (line key : Nat) : tget [] (m.filled line key).cache (line % 24576) =
    (fillSet (tget [] m.cache (line % 24576)) { line := line, key := key, used := m.uses }).1 :=
  tget_tput_of_ne_default (List.ne_nil_of_mem (mem_fillSet _ _))

theorem or_presenceBit_ne_zero (b : BitVec 2) (d : Die) : b ||| presenceBit d ≠ 0 := by
  cases d <;> revert b <;> decide

theorem presence_filled (c : Chip) (d : Die) (line : Nat) (st : Nat) :
    tget 0 ((c.modStk st (fun x => { x with presence := tmod 0 x.presence line (· ||| presenceBit d) })).stk st).presence line =
      tget 0 (c.stk st).presence line ||| presenceBit d := by
  have hread : tget 0 (tmod 0 (c.stk st).presence line (· ||| presenceBit d)) line = tget 0 (c.stk st).presence line ||| presenceBit d :=
    tget_tmod_of_ne_default (or_presenceBit_ne_zero _ d)
  rw [stk_modStk_of_ne_default, hread]
  intro hdef
  have hzero := congrArg (fun x : StackSt => tget 0 x.presence line) hdef
  exact or_presenceBit_ne_zero _ d (hread.symm.trans hzero)

/-- A die that drops a line. -/
def DieSt.dropLine (m : DieSt) (line : Nat) : DieSt :=
  { m with cache := tmod [] m.cache (line % 24576) (·.filter (fun l => decide (l.line ≠ line))) }

theorem line_ne_of_dropLine {m : DieSt} {line : Nat} (h : Tab.wf ([] : List CacheLine) m.cache = true) :
    ∀ l ∈ tget [] (m.dropLine line).cache (line % 24576), l.line ≠ line := by
  intro l hl
  rw [DieSt.dropLine, tget_tmod_same h] at hl
  simpa using (List.mem_filter.1 hl).2

theorem snoop_of_present {c : Chip} {line : Nat} (h : tget 0 (c.stk (line / 2 ^ 28)).presence line ≠ 0) :
    c.snoop line = { c.modStk (line / 2 ^ 28) (fun x => { x with presence := tput 0 x.presence line 0 }) with
      w := c.w.dropLine line, e := c.e.dropLine line } := by
  rw [Chip.snoop, if_neg h] <;> rfl

/-- Settles O44: a fill by what it does to its set, a snoop by what it drops from each die. -/
theorem weightCache : Obligations.WeightCache := by
  unfold Obligations.WeightCache
  intro p c d line _ presence
  refine ⟨fun key hfind => ?fill, fun hw he hstks hpres hne => ?snoop, fun hmem => ?notice, fun hmem => ?none⟩
  case fill =>
    have hexec : exec (.cacheFill d line) ⟨p, c⟩ = .next ⟨p, c.cacheFill d line⟩ := rfl
    rw [cacheFill_of_find hfind] at hexec
    refine ⟨_, hexec, ?_⟩
    simp only [die_modStk, die_modDie]
    refine ⟨⟨_, (filled_cache _ line key).symm ▸ mem_fillSet _ _, rfl, rfl, rfl⟩, rfl, rfl, ⟨fun hroom => ?_, fun hfull => ?_⟩, ?_⟩
    · rw [filled_cache, DieSt.filled, fillSet_of_room _ hroom]
      exact ⟨List.length_append, List.append_nil _⟩
    · obtain ⟨v, hv, hle, hfill⟩ := fillSet_of_full { line := line, key := key, used := (c.die d).uses } hfull
      refine ⟨v, hv, hle, ?_⟩
      rw [filled_cache, DieSt.filled, hfill]
      exact ⟨List.length_map _, rfl⟩
    · refine (presence_filled _ d line _).trans ?_
      rw [Chip.stk, modDie_stks]
      rfl
  case snoop =>
    have hexec : exec (.invalidateSnoop line) ⟨p, c⟩ = .next ⟨p, c.snoop line⟩ := rfl
    rw [snoop_of_present hne] at hexec
    refine ⟨_, hexec, fun m => ?_, ?_, rfl⟩
    · cases m
      · exact line_ne_of_dropLine hw
      · exact line_ne_of_dropLine he
    · have hstk := stk_modStk_same c (n := line / 2 ^ 28) (f := fun x => { x with presence := tput 0 x.presence line 0 }) hstks
      refine (congrArg (fun x : StackSt => tget 0 x.presence line) hstk).trans ?_
      exact tget_tput_same hpres
  case notice =>
    exact congrArg (fun k => Host.Outcome.next (State.mk p k)) (if_pos (List.contains_iff_mem.2 hmem))
  case none =>
    exact congrArg (fun k => Host.Outcome.next (State.mk p k)) (if_neg (mt List.contains_iff_mem.1 hmem))

end Sys2Proof.Machine
end

section
/-!
PROOFS. Traps and mid-stream faults (R136, R137, R156, R157).
-/
namespace Sys2Proof.Machine

/-! ### What making bytes free leaves alone -/

/-- Who a module is in its domain, without its routes. -/
def Chip.identity (c : Chip) : Domain := { c.domain with routes := [] }

/-- The functions and the ports of the module, and who it is. -/
def Chip.rim (c : Chip) : Tab Vf × Tab Port × Domain := (c.vfs, c.ports, c.identity)

theorem modDie_rim (c : Chip) (d : Die) (f : DieSt → DieSt) : (c.modDie d f).rim = c.rim := by cases d <;> rfl

/-- Bytes were stored or made free: partitions, functions and ports stand, a context keeps all but its pages and the notes of its run on what was touched, and no
stream went; the contexts' table stays canonical. -/
def Scrambled (c c' : Chip) : Prop :=
  (c'.parts = c.parts ∧ c'.rim = c.rim) ∧
  (Tab.wf ({} : Ctx) c.ctxs = true → Tab.wf ({} : Ctx) c'.ctxs = true) ∧
  (∀ n, ∃ pg rn, c'.ctx n = { c.ctx n with pages := pg, run := rn } ∧ rn.map Run.finish = (c.ctx n).run.map Run.finish) ∧
  ∀ d q, (c.stream d q).isSome = true → (c'.stream d q).isSome = true

theorem Scrambled.refl (c : Chip) : Scrambled c c := ⟨⟨rfl, rfl⟩, id, fun n => ⟨(c.ctx n).pages, (c.ctx n).run, rfl, rfl⟩, fun _ _ h => h⟩

theorem Scrambled.trans {a b c : Chip} (h : Scrambled a b) (h' : Scrambled b c) : Scrambled a c := by
  obtain ⟨hp, hw, hc, hs⟩ := h
  obtain ⟨hp', hw', hc', hs'⟩ := h'
  refine ⟨⟨hp'.1.trans hp.1, hp'.2.trans hp.2⟩, fun h => hw' (hw h), fun n => ?_, fun d q h => hs' d q (hs d q h)⟩
  obtain ⟨pg, rn, he, hf⟩ := hc n
  obtain ⟨pg', rn', he', hf'⟩ := hc' n
  refine ⟨pg', rn', ?_, ?_⟩
  · rw [he', he]
  · rw [hf', he]
    exact hf

/-- Nothing of partitions, contexts and streams changed. -/
theorem scrambled_of_eq {c c' : Chip} (hp : c'.parts = c.parts ∧ c'.rim = c.rim) (hc : c'.ctxs = c.ctxs) (hs : ∀ d, (c'.die d).streams = (c.die d).streams) :
    Scrambled c c' := by
  refine ⟨hp, fun h => hc ▸ h, fun n => ⟨(c.ctx n).pages, (c.ctx n).run, ?_, rfl⟩, fun d q h => ?_⟩
  · rw [Chip.ctx, hc]
    rfl
  · rw [Chip.stream, hs]
    exact h

theorem scrambled_foldl {α : Type} {f : Chip → α → Chip} (hf : ∀ c x, Scrambled c (f c x)) (l : List α) (c : Chip) :
    Scrambled c (l.foldl f c) := by
  induction l generalizing c with
  | nil => exact .refl c
  | cons x l ih => exact (hf c x).trans (ih _)

theorem scrambled_modDie (c : Chip) {d : Die} {f : DieSt → DieSt} (hf : ∀ m, (f m).streams = m.streams) : Scrambled c (c.modDie d f) := by
  refine scrambled_of_eq ⟨modDie_parts _ _ _, modDie_rim _ _ _⟩ (modDie_ctxs _ _ _) fun m => ?_
  rw [die_modDie_if]
  split_ifs
  · exact hf _
  · rfl

theorem scrambled_modStream (c : Chip) (d : Die) (q : Nat) (f : Stream → Stream) : Scrambled c (c.modStream d q f) := by
  refine ⟨⟨modDie_parts _ _ _, modDie_rim _ _ _⟩, fun h => (modDie_ctxs c d _).symm ▸ h,
    fun n => ⟨(c.ctx n).pages, (c.ctx n).run, ?_, rfl⟩, fun m r h => ?_⟩
  · rw [Chip.modStream, ctx_modDie]
  · by_cases hm : m = d
    · by_cases hr : r = q
      · subst hm hr
        obtain ⟨s, hs⟩ := Option.isSome_iff_exists.1 h
        rw [stream_modStream c m r f hs]
        rfl
      · subst hm
        rw [stream_modStream_ne c m f hr]
        exact h
    · rw [Chip.stream, Chip.modStream, die_modDie_ne _ _ hm]
      exact h

theorem scrambled_snoop (c : Chip) (u : Nat) : Scrambled c (c.snoop u) := by
  rw [Chip.snoop]
  split_ifs
  · exact .refl c
  · exact scrambled_of_eq ⟨rfl, rfl⟩ rfl (fun d => by cases d <;> rfl)

theorem scrambled_snoopCopy (c : Chip) (k : PageCopy) : Scrambled c (c.snoopCopy k) := scrambled_foldl scrambled_snoop _ _

/-- An entry of a context's page table is set. -/
theorem scrambled_putPage (c : Chip) (n k : Nat) (p : Page) :
    Scrambled c (c.modCtx n (fun x => { x with pages := tput none x.pages k (some p) })) := by
  refine ⟨⟨rfl, rfl⟩, wf_modCtx, fun j => ?_, fun d _ h => by cases d <;> exact h⟩
  by_cases hj : j = n
  · subst hj
    refine ⟨_, (c.ctx j).run, ctx_modCtx_of_ne_default c fun hdef => ?_, rfl⟩
    have hpage := congrArg (fun x : Ctx => tget none x.pages k) hdef
    rw [tget_tput_of_ne_default (by simp)] at hpage
    cases hpage
  · exact ⟨(c.ctx j).pages, (c.ctx j).run, ctx_modCtx_ne c _ hj, rfl⟩

/-- The first write to a page changes its context's pages alone. -/
theorem scrambled_firstWrite (c : Chip) (n va : Nat) (b : Bool) : Scrambled c (c.firstWrite n va b) := by
  unfold Chip.firstWrite
  split
  · exact .refl c
  · simp only
    split_ifs
    · exact .refl c
    · exact ((scrambled_putPage c n _ _).trans (scrambled_of_eq ⟨rfl, rfl⟩ rfl fun d => by cases d <;> rfl)).trans (scrambled_snoopCopy _ _)

theorem scrambled_pokeCopy (c : Chip) (k : PageCopy) (po : Nat) (bs : List Byte) : Scrambled c (c.pokeCopy k po bs) := by
  unfold Chip.pokeCopy
  exact .trans (scrambled_of_eq ⟨rfl, rfl⟩ rfl (fun d => by cases d <;> rfl)) (scrambled_foldl scrambled_snoop _ _)

theorem scrambled_pokePiece (c : Chip) (n : Nat) (b : Bool) (va : Nat) (bs : List Byte) : Scrambled c (c.pokePiece n b va bs) := by
  unfold Chip.pokePiece
  have h := scrambled_firstWrite c n va b
  simp only
  split
  · exact h
  · exact h.trans (scrambled_pokeCopy _ _ _ _)

theorem scrambled_pokeVa (c : Chip) (n : Nat) (w : Copy) (va : Nat) (bs : List Byte) : Scrambled c (c.pokeVa n w va bs) := by
  unfold Chip.pokeVa
  generalize piecesOf va bs.length = l
  induction l generalizing c bs with
  | nil => exact .refl c
  | cons x l ih => exact (scrambled_pokePiece c n _ x.1 _).trans (ih _ _)

theorem scrambled_spoil (c : Chip) (n va len : Nat) : Scrambled c (c.spoil n va len) := by
  have step (c : Chip) (s : Option Stream) (p : Stream → Bool) (d : Die) (q : Nat) (f : Stream → Stream → Stream) :
      Scrambled c (match s with
        | none => c
        | some s => if !p s then c else { c.modStream d q (f s) with fresh := c.fresh + 1 }) := by
    split
    · exact .refl c
    · split
      · exact .refl c
      · exact (scrambled_modStream c d q _).trans (scrambled_of_eq ⟨rfl, rfl⟩ rfl (fun d => by cases d <;> rfl))
  unfold Chip.spoil
  exact (step c _ _ .w _ _).trans (step _ _ _ .e _ _)

theorem scrambled_writeVaAs (c : Chip) (n : Nat) (wr : Writer) (va : Nat) (bs : List Byte) : Scrambled c (c.writeVaAs n wr va bs).1 := by
  unfold Chip.writeVaAs
  split
  · exact .refl c
  · split
    · exact (scrambled_spoil _ _ _ _).trans (scrambled_pokeVa _ _ _ _ _)
    · exact scrambled_pokeVa _ _ _ _ _
    · exact (scrambled_pokeVa _ _ _ _ _).trans (scrambled_pokeVa _ _ _ _ _)

theorem scrambled_putSpace (c : Chip) (n : Nat) (d : Die) (pos space addr : Nat) (bs : List Byte) :
    Scrambled c (c.putSpace n d pos space addr bs) := by
  have hmem {c' : Chip} (hp : c'.parts = c.parts ∧ c'.rim = c.rim) (hc : c'.ctxs = c.ctxs) (hw : c'.w = c.w) (he : c'.e = c.e) : Scrambled c c' :=
    scrambled_of_eq hp hc (fun d => by cases d <;> simp only [Chip.die, hw, he])
  unfold Chip.putSpace
  split
  · exact scrambled_writeVaAs _ _ _ _ _
  · split_ifs
    · exact hmem ⟨rfl, rfl⟩ rfl rfl rfl
    · exact hmem ⟨rfl, rfl⟩ rfl rfl rfl
    · exact hmem ⟨rfl, rfl⟩ rfl rfl rfl
  · exact hmem ⟨rfl, rfl⟩ rfl rfl rfl

theorem scrambled_scrambleOut (c : Chip) (n : Nat) (d : Die) (pos : Nat) (o : Out) : Scrambled c (c.scrambleOut n d pos o) := by
  have hfree : Scrambled c (c.freeBytes o.len).2 := scrambled_of_eq ⟨rfl, rfl⟩ rfl (fun d => by cases d <;> rfl)
  unfold Chip.scrambleOut
  simp only
  split_ifs
  · exact hfree.trans (scrambled_writeVaAs _ _ _ _ _)
  · exact hfree.trans (scrambled_putSpace _ _ _ _ _ _ _)

theorem scrambled_scramble (c : Chip) (n : Nat) (d : Die) (pos : Nat) (o : Op) : Scrambled c (c.scramble n d pos o) := by
  unfold Chip.scramble
  split_ifs
  · exact .refl c
  · exact scrambled_foldl (fun c x => scrambled_scrambleOut c n d pos x) _ _

theorem scrambled_sendAborts (c : Chip) (d : Die) (s : Stream) (group status : Nat) : Scrambled c (c.sendAborts d s group status) := by
  refine scrambled_foldl (fun c p => ?_) _ _
  split_ifs
  · exact .refl c
  · exact scrambled_of_eq ⟨rfl, rfl⟩ rfl (fun d => by cases d <;> rfl)

theorem scrambled_modRun (c : Chip) (n : Nat) {f : Run → Run} (hrun : (c.ctx n).run.isSome = true) (hf : ∀ r, (f r).finish = r.finish) :
    Scrambled c (c.modRun n f) := by
  obtain ⟨r, hr⟩ := Option.isSome_iff_exists.1 hrun
  refine ⟨⟨rfl, rfl⟩, wf_modCtx, fun m => ?_, fun d q h => by cases d <;> exact h⟩
  by_cases hm : m = n
  · subst hm
    refine ⟨(c.ctx m).pages, (c.ctx m).run.map f, ctx_modCtx_of_ne_default c fun hdef => ?_, ?_⟩
    · have hnone := congrArg Ctx.run hdef
      rw [hr] at hnone
      cases hnone
    · rw [hr]
      exact congrArg some (hf r)
  · exact ⟨(c.ctx m).pages, (c.ctx m).run, ctx_modCtx_ne c _ hm, rfl⟩

theorem Scrambled.run_isSome {c c' : Chip} (h : Scrambled c c') (n : Nat) : (c'.ctx n).run.isSome = (c.ctx n).run.isSome := by
  obtain ⟨pg, rn, he, hf⟩ := h.2.2.1 n
  rw [he, ← Option.isSome_map (f := Run.finish), ← Option.isSome_map (f := Run.finish) (x := (c.ctx n).run)]
  exact congrArg Option.isSome hf

theorem scrambled_scrambleRun (c : Chip) (n : Nat) : Scrambled c (c.scrambleRun n) := by
  unfold Chip.scrambleRun
  split
  · exact .refl c
  case h_2 r hr =>
    have h : Scrambled c (r.wrote.foldl (fun c w => if w.out.red then c else c.scrambleOut n w.die w.pos w.out) c) := by
      refine scrambled_foldl (fun c w => ?_) _ _
      split_ifs
      · exact .refl c
      · exact scrambled_scrambleOut _ _ _ _ _
    refine h.trans (scrambled_modRun _ n ?_ fun _ => rfl)
    rw [h.run_isSome, hr]
    rfl

theorem scrambled_abandonUnit (c : Chip) (d : Die) (q pos : Nat) : Scrambled c (c.abandonUnit d q pos) := by
  have habort (c : Chip) (s : Stream) (g : Option Nat) : Scrambled c (match g with | some g => c.sendAborts d s g 0x0407 | none => c) := by
    split
    · exact scrambled_sendAborts _ _ _ _ _
    · exact .refl c
  have hop (c : Chip) (n : Nat) (o : Option Op) : Scrambled c (match o with | some o => c.scramble n d pos o | none => c) := by
    split
    · exact scrambled_scramble _ _ _ _ _
    · exact .refl c
  have hflow (c : Chip) : Scrambled c (if pos < 64 then c.modPlaten d pos (fun p => { p with flows := [] }) else c) := by
    split_ifs
    · exact scrambled_modDie c (by intro; rfl)
    · exact .refl c
  have hlast (c : Chip) : Scrambled c (
      if pos = 116 then c.modDie d (fun m => { m with gut := m.gut.abandon q })
      else if 118 ≤ pos ∧ pos < 126 then
        let keep (t : Thread) : Bool := !(decide (t.part = q) && decide (t.spawn + 118 = pos))
        c.modDie d (fun m =>
          { m with
            threads := m.threads.filter (fun kv => match kv.2 with | some t => keep t | none => true)
            spawns := tmap [] (fun _ l => l.filter keep) m.spawns })
      else c) := by
    split_ifs
    · exact scrambled_modDie c (by intro; rfl)
    · exact scrambled_modDie c (by intro; rfl)
    · exact .refl c
  unfold Chip.abandonUnit
  split
  · exact .refl c
  case h_2 s _ =>
    have h := (((habort c s (if pos = 117 then s.liveGroup else none)).trans (hop _ s.ctx (s.unit pos).op)).trans (hflow _)).trans
      (scrambled_modStream _ d q (fun s => { s with units := tput {} s.units pos {} }))
    exact h.trans (hlast _)

/-! ### Traps and faults -/

/-- A part that fails stops its unit at once and its stream at the die's next boundary. -/
theorem stopFrom_spec (c : Chip) (d : Die) (q pos : Nat) (st : BitVec 4) :
    Scrambled c (c.stopFrom d q pos st) ∧ ((c.stream d q).isSome = true →
      ∃ s', (c.stopFrom d q pos st).stream d q = some s' ∧ s'.trapDue = true ∧ (st = 4 → s'.stopSt = 4)) := by
  have habandon := scrambled_abandonUnit c d q pos
  refine ⟨(habandon.trans (scrambled_modStream _ _ _ _)).trans (scrambled_modStream _ _ _ _), fun h => ?_⟩
  obtain ⟨s, hs⟩ := Option.isSome_iff_exists.1 (habandon.2.2.2 d q h)
  have hset := stream_modStream _ d q (fun s => { s with trapDue := true, stopSt := if st = 4 then 4 else s.stopSt }) hs
  refine ⟨{ s with trapDue := true, stopSt := if st = 4 then 4 else s.stopSt }, ?_, rfl, fun h4 => if_pos h4⟩
  rw [Chip.stopFrom, Chip.tellOther, Chip.stream, Chip.modStream, die_modDie_ne _ _ (by cases d <;> decide)]
  exact hset

section
variable {c : Chip} (hw : Tab.wf ({} : Ctx) c.ctxs = true)
include hw

theorem side_modSide_same (n : Nat) (d : Die) (f : CtxDie → CtxDie) : (c.modSide n d f).side n d = f (c.side n d) := by
  rw [Chip.side, Chip.modSide, ctx_modCtx_same c hw]
  cases d <;> rfl

theorem run_modSide (n : Nat) (d : Die) (f : CtxDie → CtxDie) : ((c.modSide n d f).ctx n).run = (c.ctx n).run := by
  rw [Chip.modSide, ctx_modCtx_same c hw]
  cases d <;> rfl

theorem fail_side (n m : Nat) (d : Die) (e : EndStatus) : (c.fail n e).side m d = c.side m d := by
  rw [Chip.side, Chip.side, Chip.fail, Chip.modRun]
  by_cases hm : m = n
  · rw [hm, ctx_modCtx_same c hw]
    cases d <;> rfl
  · rw [ctx_modCtx_ne c _ hm]

/-- The first failing part of a run ends it. -/
theorem fail_first {n : Nat} {r : Run} (e : EndStatus) (hrun : (c.ctx n).run = some r) (hfin : r.finish = none) :
    ((c.fail n e).ctx n).run.map Run.finish = some (some { e with nparts := 1 }) := by
  rw [Chip.fail, Chip.modRun, ctx_modCtx_same c hw]
  simp only [hrun, Option.map_some, hfin]

end

theorem Scrambled.side {c c' : Chip} (h : Scrambled c c') (n : Nat) (d : Die) : c'.side n d = c.side n d := by
  obtain ⟨pg, rn, he, -⟩ := h.2.2.1 n
  rw [Chip.side, he]
  cases d <;> rfl

theorem Scrambled.finish {c c' : Chip} (h : Scrambled c c') {n : Nat} {e : EndStatus} (hf : (c.ctx n).run.map Run.finish = some (some e)) :
    ∃ r, (c'.ctx n).run = some r ∧ r.finish = some e := by
  obtain ⟨pg, rn, he, hfin⟩ := h.2.2.1 n
  rw [he]
  exact Option.map_eq_some_iff.1 (hfin.trans hf)

theorem raiseTrap_of_stopped {c : Chip} {d : Die} {q : Nat} {s : Stream} (hs : c.stream d q = some s) (hst : s.stopped = true)
    (slot cause code : Nat) (pc : W32) : c.raiseTrap d q slot cause code pc = c := by
  simp only [Chip.raiseTrap, hs, hst, if_true]

theorem stream_modCtx (c : Chip) (n : Nat) (f : Ctx → Ctx) (d : Die) (q : Nat) : (c.modCtx n f).stream d q = c.stream d q := by
  rw [Chip.stream, die_modCtx]
  rfl

/-- What a trap's part of the command's end shows. -/
def trapEnd (c : Chip) (d : Die) (slot cause code : Nat) : EndStatus :=
  { status := BitVec.ofNat 16 (if cause = 0x0F then 0x0406 else 0x0110)
    detail := BitVec.ofNat 32 (if cause = 0x0F then 0 else cause + code * 256)
    fdie := decide (d = .e), first := BitVec.ofNat 7 slot, beatAt := (c.die d).beatAt }

/-- A trap at a unit's slot. -/
theorem raiseTrap_of_running {c : Chip} {d : Die} {q slot : Nat} {s : Stream} (hs : c.stream d q = some s) (hst : s.stopped = false)
    (hslot : slot < 126) (cause code : Nat) (pc : W32) :
    c.raiseTrap d q slot cause code pc = ((c.modSide s.ctx d (fun k => { k with imp := k.imp.trap slot cause code pc })).fail s.ctx
      (trapEnd c d slot cause code)).stopFrom d q slot 4 := by
  have hbeat : ((c.modSide s.ctx d (fun k => { k with imp := k.imp.trap slot cause code pc })).die d).beatAt = (c.die d).beatAt := by
    rw [Chip.modSide, die_modCtx]
  simp only [Chip.raiseTrap, hs, hst, Bool.false_eq_true, if_false, hslot, if_true, hbeat]
  rfl

theorem midFault_of_stopped {c : Chip} {d : Die} {q : Nat} {s : Stream} (hs : c.stream d q = some s) (hst : s.stopped = true)
    (pos desc list : Nat) (f : AccFault) : c.midFault d q pos desc list f = c := by
  simp only [Chip.midFault, hs, hst, if_true]

/-- A fault that is recorded before its command's part fails. -/
def Chip.faultNoted (c : Chip) (d : Die) (q : Nat) (s : Stream) (pos desc list : Nat) (f : AccFault) : Chip :=
  let first := !(c.side s.ctx d).fault.valid || (decide (pos < s.faultPos) && decide (s.faultPos < 128))
  (c.modSide s.ctx d (fun k =>
    if !first then k else
    { k with
      fault := { valid := true, kind := f.kind, unit := BitVec.ofNat 7 pos, desc := BitVec.ofNat 10 desc,
                 addr := f.addr, list := BitVec.ofNat 16 list } })).modStream d q (fun s => { s with faultPos := if first then pos else s.faultPos })

theorem faultNoted_spec {c : Chip} (hw : Tab.wf ({} : Ctx) c.ctxs = true) {d : Die} {q : Nat} {s : Stream} (hs : c.stream d q = some s)
    (pos desc list : Nat) (f : AccFault) :
    let k := c.faultNoted d q s pos desc list f
    Tab.wf ({} : Ctx) k.ctxs = true ∧ (k.stream d q).isSome = true ∧ (k.ctx s.ctx).run = (c.ctx s.ctx).run ∧
    ((c.side s.ctx d).fault.valid = false → (k.side s.ctx d).fault =
      { valid := true, kind := f.kind, unit := BitVec.ofNat 7 pos, desc := BitVec.ofNat 10 desc, addr := f.addr, list := BitVec.ofNat 16 list }) := by
  intro k
  have hside (n : Nat) (g : CtxDie → CtxDie) (h : Stream → Stream) : (((c.modSide n d g).modStream d q h).side n d) = g (c.side n d) := by
    rw [Chip.side, Chip.modStream, ctx_modDie]
    exact side_modSide_same hw n d g
  refine ⟨?_, ?_, ?_, fun hv => ?_⟩
  · exact (congrArg (Tab.wf ({} : Ctx)) (modDie_ctxs _ _ _)).trans (wf_modCtx hw)
  · exact (scrambled_modStream _ _ _ _).2.2.2 d q (by rw [Chip.modSide, stream_modCtx, hs]; rfl)
  · exact (congrArg Ctx.run (ctx_modDie _ _ _ _)).trans (run_modSide hw _ _ _)
  · refine (congrArg CtxDie.fault (hside s.ctx _ _)).trans ?_
    simp only [hv, Bool.not_false, Bool.true_or, Bool.not_true, Bool.false_eq_true, if_false]

/-- What a fault's part of the command's end shows. -/
def faultEnd (c : Chip) (d : Die) (pos desc : Nat) (f : AccFault) : EndStatus :=
  { status := faultStatus f.kind, detail := BitVec.ofNat 32 (f.kind.toNat + desc * 16), fdie := decide (d = .e), first := BitVec.ofNat 7 pos,
    beatAt := (c.die d).beatAt }

theorem midFault_of_running {c : Chip} {d : Die} {q : Nat} {s : Stream} (hs : c.stream d q = some s) (hst : s.stopped = false)
    (pos desc list : Nat) (f : AccFault) :
    let k := c.faultNoted d q s pos desc list f
    c.midFault d q pos desc list f = ((k.fail s.ctx (faultEnd k d pos desc f)).scrambleRun s.ctx).stopFrom d q pos 3 := by
  simp only [Chip.midFault, hs, hst, Bool.false_eq_true, if_false]
  rfl

/-- Settles O45: what is recorded first, then the end of the part; what a stop does leaves both alone. -/
theorem trapsAndFaultsAreRecorded : Obligations.TrapsAndFaultsAreRecorded := by
  unfold Obligations.TrapsAndFaultsAreRecorded
  refine ⟨fun c d q slot cause code pc s r hw hs hst hrun hslot => ?trap, fun c d q slot cause code pc s hs hst =>
    raiseTrap_of_stopped hs hst slot cause code pc, fun p c u s kind desc addr hw hs => ?fault⟩
  case trap =>
    intro t i
    let c1 := c.modSide s.ctx d (fun k => { k with imp := k.imp.trap slot cause code pc })
    let c2 := c1.fail s.ctx (trapEnd c d slot cause code)
    have hw1 : Tab.wf ({} : Ctx) c1.ctxs = true := wf_modCtx hw
    have ht : t = c2.stopFrom d q slot 4 := raiseTrap_of_running hs hst hslot cause code pc
    obtain ⟨hstop, hdue⟩ := stopFrom_spec c2 d q slot 4
    have hi : i = (c.side s.ctx d).imp.trap slot cause code pc := by
      have hside : t.side s.ctx d = { c.side s.ctx d with imp := (c.side s.ctx d).imp.trap slot cause code pc } := by
        rw [ht, hstop.side, fail_side hw1, side_modSide_same hw]
      exact congrArg CtxDie.imp hside
    refine ⟨fun hv => ?_, fun hv => ?_, fun hfin => ?_, ?_⟩
    · rw [hi, Imp.trap, if_neg (by simp [hv])]
      exact ⟨rfl, rfl, rfl, rfl, rfl⟩
    · rw [hi, Imp.trap, if_pos hv]
    · have hend := fail_first hw1 (trapEnd c d slot cause code) ((run_modSide hw _ _ _).trans hrun) hfin
      obtain ⟨r', hr', hf'⟩ := hstop.finish hend
      refine ⟨_, r', ht ▸ hr', hf', ?_, rfl, rfl⟩
      by_cases h15 : cause = 0x0F
      · simp only [trapEnd, h15, if_true]
        rfl
      · simp only [trapEnd, h15, if_false]
        rfl
    · have hs2 : c2.stream d q = some s := (stream_modCtx _ _ _ _ _).trans ((stream_modCtx _ _ _ _ _).trans hs)
      obtain ⟨s', hs', htrap, h4⟩ := hdue (by rw [hs2]; rfl)
      exact ⟨s', ht ▸ hs', htrap, h4 rfl⟩
  case fault =>
    intro c0 t
    let list := match c0.op u with | some o => o.e.dlist | none => 0
    have hs0 : c0.stream u.die u.part = some s := by
      rw [← hs]
      cases hd : u.die <;> rfl
    have hw0 : Tab.wf ({} : Ctx) c0.ctxs = true := hw
    let k := c0.faultNoted u.die u.part s u.pos desc.toNat list ⟨kind, addr⟩
    let k1 := k.fail s.ctx (faultEnd k u.die u.pos desc.toNat ⟨kind, addr⟩)
    refine ⟨rfl, fun hst => midFault_of_stopped hs0 hst u.pos desc.toNat list _, fun hst => ?_, rfl, rfl, rfl, rfl⟩
    have ht : t = (k1.scrambleRun s.ctx).stopFrom u.die u.part u.pos 3 := midFault_of_running hs0 hst u.pos desc.toNat list _
    obtain ⟨hwk, hsk, hrunk, hfaultk⟩ := faultNoted_spec hw0 hs0 u.pos desc.toNat list ⟨kind, addr⟩
    obtain ⟨hstop, hdue⟩ := stopFrom_spec (k1.scrambleRun s.ctx) u.die u.part u.pos 3
    have hall : Scrambled k1 t := ht ▸ (scrambled_scrambleRun k1 s.ctx).trans hstop
    refine ⟨fun hv => ?_, fun r hrun hfin => ?_, ?_⟩
    · have hf := hfaultk hv
      intro f
      have hfk : f = { valid := true, kind := kind, unit := BitVec.ofNat 7 u.pos, desc := BitVec.ofNat 10 desc.toNat, addr := addr,
                       list := BitVec.ofNat 16 list } := by
        refine (congrArg CtxDie.fault ((hall.side s.ctx u.die).trans (fail_side hwk _ _ _ _))).trans hf
      rw [hfk]
      exact ⟨rfl, rfl, rfl, by simp, rfl⟩
    · have hend := fail_first hwk (faultEnd k u.die u.pos desc.toNat ⟨kind, addr⟩) (hrunk.trans hrun) hfin
      obtain ⟨r', hr', hf'⟩ := hall.finish hend
      exact ⟨_, r', hr', hf', rfl, rfl, rfl⟩
    · obtain ⟨s', hs', htrap, -⟩ := hdue ((scrambled_scrambleRun k1 s.ctx).2.2.2 _ _ (by
        rw [show k1.stream u.die u.part = k.stream u.die u.part from stream_modCtx _ _ _ _ _]
        exact hsk))
      exact ⟨s', ht ▸ hs', htrap⟩

end Sys2Proof.Machine
end

section
/-!
PROOFS. Kills and the wait graph (R155, R315, R318 to R320).
-/
namespace Sys2Proof.Machine

/-! ### What dropping a stream leaves alone -/

/-- A context keeps its queue and its state where a stream was stopped or dropped; the contexts' table stays canonical, and the
functions and ports stand. -/
def Shed (n : Nat) (c c' : Chip) : Prop :=
  c'.rim = c.rim ∧
  (Tab.wf ({} : Ctx) c.ctxs = true → Tab.wf ({} : Ctx) c'.ctxs = true) ∧
  ((c.ctx n).execQ ≠ [] → ∃ pg rn w e, c'.ctx n = { c.ctx n with pages := pg, run := rn, w := w, e := e })

theorem Shed.refl (n : Nat) (c : Chip) : Shed n c c := ⟨rfl, id, fun _ => ⟨(c.ctx n).pages, (c.ctx n).run, (c.ctx n).w, (c.ctx n).e, rfl⟩⟩

theorem Shed.trans {n : Nat} {a b c : Chip} (h : Shed n a b) (h' : Shed n b c) : Shed n a c := by
  obtain ⟨hv, hw, hc⟩ := h
  obtain ⟨hv', hw', hc'⟩ := h'
  refine ⟨hv'.trans hv, fun h => hw' (hw h), fun hq => ?_⟩
  obtain ⟨pg, rn, w, e, hx⟩ := hc hq
  obtain ⟨pg', rn', w', e', hx'⟩ := hc' (by rw [hx]; exact hq)
  exact ⟨pg', rn', w', e', by rw [hx', hx]⟩

theorem shed_foldl {α : Type} {n : Nat} {f : Chip → α → Chip} (hf : ∀ c x, Shed n c (f c x)) (l : List α) (c : Chip) : Shed n c (l.foldl f c) := by
  induction l generalizing c with
  | nil => exact .refl n c
  | cons x l ih => exact (hf c x).trans (ih _)

theorem Scrambled.shed {c c' : Chip} (h : Scrambled c c') (n : Nat) : Shed n c c' := by
  obtain ⟨⟨-, hv⟩, hw, hc, -⟩ := h
  obtain ⟨pg, rn, hx, -⟩ := hc n
  exact ⟨hv, hw, fun _ => ⟨pg, rn, (c.ctx n).w, (c.ctx n).e, hx⟩⟩

theorem shed_of_ctxs {n : Nat} {c c' : Chip} (h : c'.ctxs = c.ctxs) (hv : c'.rim = c.rim) : Shed n c c' := by
  refine ⟨hv, fun hw => h ▸ hw, fun _ => ⟨(c.ctx n).pages, (c.ctx n).run, (c.ctx n).w, (c.ctx n).e, ?_⟩⟩
  rw [Chip.ctx, h]
  rfl

theorem shed_modDie (n : Nat) (c : Chip) (d : Die) (f : DieSt → DieSt) : Shed n c (c.modDie d f) := shed_of_ctxs (modDie_ctxs c d f) (modDie_rim c d f)

theorem shed_modSide (n m : Nat) (c : Chip) (d : Die) (f : CtxDie → CtxDie) : Shed n c (c.modSide m d f) := by
  refine ⟨rfl, wf_modCtx, fun hq => ?_⟩
  by_cases hm : n = m
  · subst hm
    have hne : (c.ctx n).modSide d f ≠ {} := by
      intro hdef
      refine hq ((?_ : _ = _).trans (congrArg Ctx.execQ hdef))
      cases d <;> rfl
    rw [Chip.modSide, ctx_modCtx_of_ne_default c hne]
    cases d
    · exact ⟨_, _, _, _, rfl⟩
    · exact ⟨_, _, _, _, rfl⟩
  · rw [Chip.modSide, ctx_modCtx_ne c _ hm]
    exact ⟨_, _, _, _, rfl⟩

theorem shed_stopStream (n : Nat) (c : Chip) (d : Die) (q : Nat) (st : BitVec 4) (status : Nat) : Shed n c (c.stopStream d q st status) := by
  have hop (c : Chip) (s : Stream) (pos : Nat) (o : Option Op) : Shed n c (match o with | some o => c.scramble s.ctx d pos o | none => c) := by
    split
    · exact (scrambled_scramble _ _ _ _ _).shed n
    · exact .refl n c
  have hflow (c : Chip) (pos : Nat) : Shed n c (if pos < 64 then c.modPlaten d pos (fun p => { p with flows := [] }) else c) := by
    split_ifs
    · exact shed_modDie n c _ _
    · exact .refl n c
  unfold Chip.stopStream
  split
  · exact .refl n c
  case h_2 s _ =>
    have h1 := (shed_foldl (n := n) (fun c g => (scrambled_sendAborts c d s g status).shed n) s.liveGroups c).trans
      (shed_foldl (fun c (kv : Nat × UnitQ) => hop c s kv.1 kv.2.op) s.units _)
    have h2 := h1.trans (shed_foldl (fun c o => (scrambled_scramble c s.ctx d 117 o).shed n) s.bucket _)
    have h3 := h2.trans ((scrambled_modStream _ d q (fun s =>
      { s with
        units := [], bucket := [], wait := .none, stopped := true, trapDue := false, trapComing := none, commitAfter := false })).shed n)
    have h4 := h3.trans (shed_modDie n _ d (fun m => { m.dropThreads q with gut := m.gut.abandon q }))
    have h5 := (h4.trans (shed_modDie n _ .w (fun m => m.dropPart q d))).trans (shed_modDie n _ .e (fun m => m.dropPart q d))
    have h6 := h5.trans (shed_foldl (fun c (kv : Nat × UnitQ) => hflow c kv.1) s.units _)
    exact (h6.trans (shed_of_ctxs rfl rfl)).trans (shed_modSide n s.ctx _ d _)

theorem shed_dropStreams (m : Nat) (c : Chip) (n status : Nat) : Shed m c (c.dropStreams n status) := by
  have one (c : Chip) (q : Nat) (d : Die) : Shed m c (match c.stream d q with
      | none => c
      | some s => if s.ctx ≠ n then c else
        ((c.stopStream d q 0 status).setStream d q none).modDie d (fun m => { m with gut := m.gut.dropPart q })) := by
    split
    · exact .refl m c
    · split_ifs
      · exact .refl m c
      · exact (shed_stopStream m c d q 0 status).trans ((shed_modDie m _ _ _).trans (shed_modDie m _ _ _))
  exact (one c _ .w).trans (one _ _ .e)

/-! ### Kills -/

theorem postEnd_parts (c : Chip) (h : Hdr) (e : EndStatus) : (c.postEnd h e).parts = c.parts := by
  unfold Chip.postEnd
  split_ifs
  · rfl
  · obtain ⟨m, y, v, hp⟩ := post_frame c h.page h.ring (endRecord h e)
    rw [hp]

section
variable {c : Chip} {n : Nat} {r : Run} {x : ExecCmd} {t : List ExecCmd} (hrun : (c.ctx n).run = some r) (hq : (c.ctx n).execQ = x :: t)
include hrun hq

/-- The context of a killed command. -/
theorem doKill_ctx (status : W16) :
    let k := (c.doKill n status).ctx n
    k.run = none ∧ k.st = .ready ∧ k.held = false ∧ k.killCount = satAdd (c.ctx n).killCount 1 ∧
    k.execQ = { x with kills := x.kills + 1, stepsDone := x.stepsDone + r.serveSteps } :: t ∧
    ((c.doKill n status).part (c.ctx n).part).switchDue = true := by
  obtain ⟨pg, rn, w, e, hdrop⟩ := (shed_dropStreams n c n 0x0407).2.2 (by rw [hq]; exact List.cons_ne_nil _ _)
  let killed (k : Ctx) : Ctx :=
    { k with
      run := none, held := false, st := .ready, killCount := satAdd k.killCount 1
      execQ := match k.execQ with
        | y :: t => { y with kills := y.kills + 1, stepsDone := y.stepsDone + r.serveSteps } :: t
        | [] => [] }
  let c1 := (c.dropStreams n 0x0407).modCtx n killed
  let c2 := c1.modPart (c1.ctx n).part (fun p => { p with switchDue := true })
  have hkill : c.doKill n status = c2.postEnd (cmdHdr x.cmd) { status := status } := by
    simp only [Chip.doKill, hrun, hq]
    rfl
  have hqueue : (killed ((c.dropStreams n 0x0407).ctx n)).execQ =
      { x with kills := x.kills + 1, stepsDone := x.stepsDone + r.serveSteps } :: t := by
    simp only [killed, hdrop, hq]
  have h1 : c1.ctx n = killed ((c.dropStreams n 0x0407).ctx n) := by
    refine ctx_modCtx_of_ne_default _ fun hdef => ?_
    rw [hdef] at hqueue
    cases hqueue
  have hpart : (c1.ctx n).part = (c.ctx n).part := by simp only [h1, killed, hdrop]
  have hctx : c2.ctx n = killed ((c.dropStreams n 0x0407).ctx n) := h1
  obtain ⟨R, hR⟩ := ctx_postEnd_rings (c := c2) (n := n) (stays_of_execQ (by rw [hctx, hqueue]; exact List.cons_ne_nil _ _)) (cmdHdr x.cmd)
    { status := status }
  intro k
  have hk : k = { killed ((c.dropStreams n 0x0407).ctx n) with rings := R } := by
    rw [← hctx, ← hR, ← hkill]
  refine ⟨by rw [hk], by rw [hk], by rw [hk], ?_, ?_, ?_⟩
  · rw [hk]
    simp only [killed, hdrop]
  · rw [hk]
    exact hqueue
  · rw [hkill, Chip.part, postEnd_parts, ← hpart]
    have hp : c2.part (c1.ctx n).part = { c1.part (c1.ctx n).part with switchDue := true } :=
      part_modPart_of_ne_default c1 fun hdef => by
        have hdue := congrArg Partition.switchDue hdef
        cases hdue
    exact congrArg Partition.switchDue hp

end

section
variable {c : Chip} {n : Nat} {r : Run} (hrun : (c.ctx n).run = some r) (status : W16)
include hrun

theorem requestKill_now (hpast : r.pastCommit = false) (hfin : r.finish = none) (hremote : c.waitsRemote n = false) :
    c.requestKill n status = c.doKill n status := by
  simp only [Chip.requestKill, hrun, hpast, hfin, hremote, Option.isSome_none, Bool.or_self, Bool.false_eq_true, if_false]

theorem requestKill_held (hpast : r.pastCommit = false) (hfin : r.finish = none) (hremote : c.waitsRemote n = true) :
    c.requestKill n status = c.modCtx n (fun k => { k with held := true, run := some { r with heldKill := some status } }) := by
  simp only [Chip.requestKill, hrun, hpast, hfin, hremote, Option.isSome_none, Bool.or_self, Bool.false_eq_true, if_false, if_true]

theorem requestKill_late (h : r.pastCommit = true ∨ r.finish ≠ none) :
    c.requestKill n status = c.modPart (c.ctx n).part (fun p => { p with switchDue := true }) := by
  have hlate : (r.pastCommit || r.finish.isSome) = true := by
    rcases h with h | h
    · rw [h, Bool.true_or]
    · rw [Option.isSome_iff_ne_none.2 h, Bool.or_true]
  simp only [Chip.requestKill, hrun, hlate, if_true]

end

theorem exec_kill (p : List Instr) (c : Chip) (n : Nat) {status : W16} (hlo : 0x0501 ≤ status.toNat) (hhi : status.toNat ≤ 0x0504) :
    exec (.kill n status) ⟨p, c⟩ = .next ⟨p, (c.requestKill n status).settlePart (c.ctx n).part⟩ :=
  congrArg (fun k => Host.Outcome.next (State.mk p k)) (if_neg (by omega))

/-! ### The wait graph -/

theorem wgSample_of_running {c : Chip} {m n : Nat} {a b : Run} (ha : (c.ctx m).run = some a) (hb : (c.ctx n).run = some b) :
    c.wgSample (m, n) = some
      { src := m, dst := n, srcAt := a.began, dstAt := b.began
        samples := match c.wgWaits.find? (fun x => decide (x.src = m) && decide (x.dst = n) && decide (x.srcAt = a.began) &&
          decide (x.dstAt = b.began)) with | some x => x.samples + 1 | none => 1 } := by
  simp only [Chip.wgSample, ha, hb] <;> rfl

theorem wgSample_of_idle {c : Chip} {m n : Nat} (h : (c.ctx m).run = none ∨ (c.ctx n).run = none) : c.wgSample (m, n) = none := by
  rcases h with h | h
  · simp only [Chip.wgSample, h]
  · cases hm : (c.ctx m).run <;> simp only [Chip.wgSample, hm, h]

/-- The cycle of the waits that ten samples in a row have shown. -/
def Chip.shownCycle (c : Chip) : List Nat := cycleOf ((c.wgWaits.filter (fun w => decide (10 ≤ w.samples))).map (fun w => (w.src, w.dst)))

theorem breakCycles_of_nil {c : Chip} (h : c.shownCycle = []) (f : Nat) : c.breakCycles f = c := by
  cases f with
  | zero => rfl
  | succ f => rw [Chip.breakCycles, if_pos (by rw [show cycleOf _ = _ from h]; rfl)]

theorem breakCycles_succ {c k : Chip} {n : Nat} (h : c.shownCycle ≠ []) (hb : c.breakCycle c.shownCycle = (k, some n)) (f : Nat) :
    c.breakCycles (f + 1) = ({ k with
      wgWaits := k.wgWaits.filter (fun w => decide (w.src ≠ n) && decide (w.dst ≠ n)) } : Chip).breakCycles f := by
  rw [Chip.breakCycles, if_neg (show ¬ (cycleOf _).isEmpty = true from mt List.isEmpty_iff.1 h)]
  simp only [show c.breakCycle (cycleOf _) = (k, some n) from hb]

theorem breakCycle_of_longer {c : Chip} {cyc : List Nat} {n : Nat} (h : 2 ≤ cyc.length) (hy : c.youngest cyc = some n) :
    c.breakCycle cyc = (((c.countWgKill n).requestKill n 0x0503).settlePart (c.ctx n).part, some n) := by
  match cyc, h with
  | a :: b :: t, _ => simp only [Chip.breakCycle, hy]

/-- Waits that were sampled are those of a list that is not empty. -/
theorem length_pos_of_cycle {c : Chip} {ws : List (Nat × Nat)}
    (h : ({ c with wgWaits := ws.eraseDups.filterMap c.wgSample } : Chip).shownCycle ≠ []) : ws.length = ws.length - 1 + 1 := by
  cases ws with
  | nil => exact absurd rfl h
  | cons w ws => rfl

/-- Settles O46: a cycle is broken at the sample that shows it; a kill by the state of the command's run. -/
theorem killsAndWaitCycles : Obligations.KillsAndWaitCycles := by
  unfold Obligations.KillsAndWaitCycles
  refine ⟨fun p c ws => ?cycles, fun p c n r x t hrun hq => ?kills⟩
  case cycles =>
    intro c0 cyc then'
    have hexec : exec (.waitGraphCheck ws) ⟨p, c⟩ = .next ⟨p, c0.breakCycles ws.length⟩ := rfl
    have hbroken {k : Chip} {n : Nat} (hne : cyc ≠ []) (hb : c0.breakCycle cyc = (k, some n)) :
        exec (.waitGraphCheck ws) ⟨p, c⟩ = .next ⟨p, then' n k⟩ := by
      rw [hexec, length_pos_of_cycle (c := c) (ws := ws) hne, breakCycles_succ hne hb]
    refine ⟨fun m n a b ha hb => ⟨_, wgSample_of_running ha hb, fun hnone => ?_, fun x hx => ?_⟩, fun m n h => wgSample_of_idle h,
      fun hcyc => ?_, fun n hcyc => ?_, fun n hlen hy => ?_⟩
    · rw [List.find?_eq_none.2 fun x hx => by simpa [and_assoc] using hnone x hx]
    · rw [hx]
    · rw [hexec, breakCycles_of_nil hcyc]
    · exact hbroken (by rw [hcyc]; exact List.cons_ne_nil _ _) (by rw [hcyc]; rfl)
    · refine hbroken (fun hnil => ?_) (breakCycle_of_longer hlen hy)
      rw [hnil] at hlen
      exact absurd hlen (by decide)
  case kills =>
    intro q kill hold due
    refine ⟨fun status => doKill_ctx hrun hq status, fun status hlo hhi => ⟨fun hpast hfin hrem => ?_, fun hpast hfin hrem => ?_, fun hlate => ?_⟩,
      fun h hh ht hpast hfin hrem => ?_, fun hcur hlat => ⟨fun hready hprot hpast hfin hrem => ?_, fun hno => ?_⟩, fun status hheld hst =>
        ⟨fun hrem => ?_, fun hrem hpast => ?_, fun hrem hpast => ?_⟩⟩
    · rw [exec_kill p c n hlo hhi, requestKill_now hrun status hpast hfin hrem]
    · rw [exec_kill p c n hlo hhi, requestKill_held hrun status hpast hfin hrem]
    · rw [exec_kill p c n hlo hhi, requestKill_late hrun status hlate]
    · refine (run_command ht p).trans ?_
      rw [hh, requestKill_now hrun 0x0502 hpast hfin hrem]
    · refine congrArg (fun k => Host.Outcome.next (State.mk p k)) (a₁ := ?_) ?_
      simp only [hcur]
      rw [if_neg (by simp [hlat, hready, hprot]), requestKill_now hrun 0x0501 hpast hfin hrem]
    · refine congrArg (fun k => Host.Outcome.next (State.mk p k)) (a₁ := ?_) ?_
      simp only [hcur]
      exact if_pos (by simpa using .inr hno)
    all_goals
      refine congrArg (fun k => Host.Outcome.next (State.mk p k)) (a₁ := ?_) ?_
      simp only [Chip.releaseKill, hrun, hheld, hrem, hst, if_true, if_false, Bool.false_eq_true]
    · rw [if_neg (by simp [hpast])]
    · rw [if_pos hpast]

end Sys2Proof.Machine
end

section
/-!
PROOFS. The scheduler's choice, the zeroing of stores and the switch (R308, R313, R314, R316, R328).
-/
namespace Sys2Proof.Machine

section
variable {c : Chip} {q n : Nat}

/-- A choice is a ready context, a latency-critical one where there is any. -/
theorem nextCtx_spec (h : c.nextCtx q = some n) : (c.ctx n).st = .ready ∧
    ((∃ m ∈ c.ctxsOf q, (c.ctx m).st = .ready ∧ (c.ctx m).latency = true) → (c.ctx n).latency = true) := by
  let ready := (c.ctxsOf q).filter (fun n => decide ((c.ctx n).st = .ready))
  let lc := ready.filter (fun n => (c.ctx n).latency)
  let cand := if lc.isEmpty then ready else lc
  have hcand : n ∈ cand := by
    simp only [Chip.nextCtx] at h
    split at h
    case h_1 hfind =>
      cases h
      exact List.mem_of_find?_eq_some hfind
    case h_2 => exact List.mem_of_head? h
  have hready : n ∈ ready := by
    by_cases he : lc.isEmpty
    · rwa [show cand = ready from if_pos he] at hcand
    · rw [show cand = lc from if_neg he] at hcand
      exact (List.mem_filter.1 hcand).1
  refine ⟨by simpa using (List.mem_filter.1 hready).2, fun ⟨m, hm, hst, hlat⟩ => ?_⟩
  have hmem : m ∈ lc := List.mem_filter.2 ⟨List.mem_filter.2 ⟨hm, by simpa using hst⟩, hlat⟩
  have he : ¬ lc.isEmpty = true := fun he => by
    rw [List.isEmpty_iff.1 he] at hmem
    cases hmem
  rw [show cand = lc from if_neg he] at hcand
  exact (List.mem_filter.1 hcand).2

/-- The outgoing context leaves state running. -/
def Ctx.left (x : Ctx) : Ctx := if x.st = .running then { x with st := if x.execQ.isEmpty then .idle else .ready } else x

/-- The context that is on a partition's units leaves state running. -/
def Chip.leave (c : Chip) (q : Nat) : Chip := match (c.part q).cur with
  | some m => c.modCtx m Ctx.left
  | none => c

theorem exec_schedulerChoice (p : List Instr) (hdue : c.choiceDue q = true) (hn : c.nextCtx q = some n) :
    exec (.schedulerChoice q) ⟨p, c⟩ = .next ⟨p, (c.leave q).modCtx n (fun x => { x with st := .loading })⟩ := by
  refine congrArg (fun k => Host.Outcome.next (State.mk p k)) (a₁ := ?_) ?_
  simp only [hdue, hn, Bool.not_true, Bool.false_eq_true, if_false] <;> rfl

theorem leave_ctx_ne {k : Nat} (h : (c.part q).cur ≠ some k) : (c.leave q).ctx k = c.ctx k := by
  unfold Chip.leave
  split
  case h_1 m hm => exact ctx_modCtx_ne c _ fun hk => h (hk ▸ hm)
  case h_2 => rfl

theorem leave_ctx_cur {m : Nat} (h : (c.part q).cur = some m) (hrun : (c.ctx m).st = .running) :
    (c.leave q).ctx m = { c.ctx m with st := if (c.ctx m).execQ = [] then .idle else .ready } := by
  have hleft : (c.ctx m).left = { c.ctx m with st := if (c.ctx m).execQ = [] then .idle else .ready } := by
    simp only [Ctx.left, hrun, if_true, List.isEmpty_iff]
  rw [← hleft]
  simp only [Chip.leave, h]
  refine ctx_modCtx_of_ne_default c fun hdef => ?_
  have hst := congrArg Ctx.st hdef
  rw [hleft] at hst
  by_cases hq : (c.ctx m).execQ = []
  · simp [hq] at hst
  · simp [hq] at hst

/-! ### Zeroing -/

theorem mget_tfilter (f : Nat → Bool) (m : Memory) (a : Nat) : mget (tfilter (fun k _ => f k) m) a = if f a then mget m a else 0 :=
  tget_filter f m a

theorem mget_zeroStores_platen (c : Chip) (q a : Nat) : mget (c.zeroStores q).platenMem a =
    if !bit (if a / 2 ^ 29 = 0 then (c.part q).ptW.toNat else (c.part q).ptE.toNat) (a % 2 ^ 29 / 2 ^ 23) then mget c.platenMem a else 0 :=
  mget_tfilter (fun k => !bit (if k / 2 ^ 29 = 0 then (c.part q).ptW.toNat else (c.part q).ptE.toNat) (k % 2 ^ 29 / 2 ^ 23)) c.platenMem a

theorem mget_zeroStores_engine (c : Chip) (q a : Nat) : mget (c.zeroStores q).engineMem a =
    if !bit (c.part q).te.toNat (a / 2 ^ 20) then mget c.engineMem a else 0 :=
  mget_tfilter (fun k => !bit (c.part q).te.toNat (k / 2 ^ 20)) c.engineMem a

theorem platenKey_parts (d : Die) {pt a : Nat} (hpt : pt < 64) (ha : a < 2 ^ 23) :
    platenKey d pt a / 2 ^ 29 = d.num ∧ platenKey d pt a % 2 ^ 29 / 2 ^ 23 = pt := by
  rw [platenKey]
  omega

theorem engineKey_parts (d : Die) {te a : Nat} (ha : a < 2 ^ 20) : engineKey d te a / 2 ^ 20 = d.num * 32 + te := by
  rw [engineKey]
  omega

end

/-! ### The switch -/

/-- The chosen context takes the partition. -/
def Chip.takesPart (c : Chip) (n q : Nat) : Chip :=
  (c.modCtx n (fun x => { x with st := .running, lastRun := c.now, sliceStart := none, sliceDone := false })).modPart q
    (fun p => { p with
      cur := some n, zeroed := false, switchDue := false
      lastLc := if (c.ctx n).latency then n else p.lastLc
      lastBe := if (c.ctx n).latency then p.lastBe else n })

/-- What a switch does before its context takes the partition: the outgoing one is saved, the stores are zeroed, the streams go, the new one is
streamed in. -/
def Chip.swapped (c : Chip) (q n : Nat) : Chip :=
  let c : Chip := match (c.part q).cur with
    | none => c
    | some m => c.saveState q m
  let c := if (c.part q).zeroed then c else c.zeroStores q
  let c := (c.setStream .w q none).setStream .e q none
  (c.streamIn n).restoreState q n

theorem exec_contextSwitch (p : List Instr) {c : Chip} {q n : Nat} (hbusy : c.partBusy q = false)
    (hfind : (c.ctxsOf q).find? (fun n => decide ((c.ctx n).st = .loading)) = some n) :
    exec (.contextSwitch q) ⟨p, c⟩ = .next ⟨p, (c.swapped q n).takesPart n q⟩ := by
  have hswitch : c.switch q = (c.swapped q n).takesPart n q := by
    unfold Chip.switch
    rw [hfind]
    exact if_neg (by simp [hbusy])
  exact congrArg (fun k => Host.Outcome.next (State.mk p k)) hswitch

theorem switched_part (c : Chip) (n q : Nat) : ((c.takesPart n q).part q).cur = some n ∧ ((c.takesPart n q).part q).switchDue = false := by
  have h : (c.takesPart n q).part q = { c.part q with
      cur := some n, zeroed := false, switchDue := false
      lastLc := if (c.ctx n).latency then n else (c.part q).lastLc
      lastBe := if (c.ctx n).latency then (c.part q).lastBe else n } :=
    part_modPart_of_ne_default _ fun hdef => by cases congrArg Partition.cur hdef
  rw [h]
  exact ⟨rfl, rfl⟩

theorem switched_ctx (c : Chip) (n q : Nat) : ((c.takesPart n q).ctx n).st = .running ∧ ((c.takesPart n q).ctx n).sliceStart = none ∧
    ((c.takesPart n q).ctx n).sliceDone = false := by
  have h : (c.takesPart n q).ctx n = { c.ctx n with st := .running, lastRun := c.now, sliceStart := none, sliceDone := false } :=
    ctx_modCtx_of_ne_default c (f := fun x => { x with st := .running, lastRun := c.now, sliceStart := none, sliceDone := false })
      fun hdef => by cases congrArg Ctx.st hdef
  rw [h]
  exact ⟨rfl, rfl, rfl⟩

/-- Settles O47: a choice changes the states of two contexts, a zeroing empties the stores of the partition's units, a switch ends with the
chosen context running. -/
theorem switching : Obligations.Switching := by
  unfold Obligations.Switching
  intro p c q
  refine ⟨fun n hdue hn hcur => ?choice, fun n t hcur ht => ⟨fun hle => ?_, fun hlt => ?_⟩, fun hbusy hload => ?zero, fun n hbusy hfind => ?switch⟩
  case choice =>
    obtain ⟨hready, hlat⟩ := nextCtx_spec hn
    have hloading : ((c.leave q).modCtx n (fun x => { x with st := .loading })).ctx n = { (c.leave q).ctx n with st := .loading } :=
      ctx_modCtx_of_ne_default _ fun hdef => by cases congrArg Ctx.st hdef
    refine ⟨_, exec_schedulerChoice p hdue hn, ?_, hready, hlat, fun m hm hrun => ?_, fun k hk hck => ?_⟩
    · rw [hloading, leave_ctx_ne hcur]
    · rw [ctx_modCtx_ne _ _ fun h => hcur (hm.trans (congrArg some h)), leave_ctx_cur hm hrun]
    · rw [ctx_modCtx_ne _ _ hk, leave_ctx_ne hck]
  case zero =>
    have hany : (c.ctxsOf q).any (fun n => decide ((c.ctx n).st = .loading)) = true := by simpa using hload
    have hzeroed : ((c.zeroStores q).modPart q (fun p => { p with zeroed := true })).part q = { (c.zeroStores q).part q with zeroed := true } :=
      part_modPart_of_ne_default _ fun hdef => by cases congrArg Partition.zeroed hdef
    have hpt (d : Die) (pt a : Nat) (ha : a < 2 ^ 23) (hpt : pt < 64)
        (hbit : bit (if d.num = 0 then (c.part q).ptW.toNat else (c.part q).ptE.toNat) pt = true) :
        mget (c.zeroStores q).platenMem (platenKey d pt a) = 0 := by
      obtain ⟨hdie, hnum⟩ := platenKey_parts d hpt ha
      rw [mget_zeroStores_platen, hdie, hnum, hbit]
      rfl
    refine ⟨(c.zeroStores q).modPart q (fun p => { p with zeroed := true }), ?_, by rw [hzeroed], fun pt a ha h64 hbit => hpt .w pt a ha h64 hbit,
      fun pt a ha h64 hbit => hpt .e pt a ha h64 hbit, fun d te a ha h32 hbit => ?_, rfl, rfl, rfl⟩
    · exact congrArg (fun k => Host.Outcome.next (State.mk p k)) (if_neg (by simp [hbusy, hany]))
    · refine (mget_zeroStores_engine c q _).trans ?_
      rw [engineKey_parts d ha, hbit]
      rfl
  case switch =>
    obtain ⟨hcur, hdue⟩ := switched_part (c.swapped q n) n q
    exact ⟨_, exec_contextSwitch p hbusy hfind, hcur, hdue, switched_ctx _ n q⟩
  · refine congrArg (fun k => Host.Outcome.next (State.mk p k)) (a₁ := ?_) ?_
    simp only [hcur, ht]
    exact if_neg (Nat.not_lt.2 hle)
  · refine congrArg (fun k => Host.Outcome.next (State.mk p k)) (a₁ := ?_) ?_
    simp only [hcur, ht]
    exact if_pos hlt

end Sys2Proof.Machine
end

section
/-!
PROOFS. Tear-down of contexts and resets of functions (R319, R321, R334).
-/
namespace Sys2Proof.Machine

/-! ### Functions and the canonical form of the contexts' table -/

/-- Functions and ports stand as they were, and the contexts' table stays canonical. -/
def Settles (c c' : Chip) : Prop :=
  c'.rim = c.rim ∧ (Tab.wf ({} : Ctx) c.ctxs = true → Tab.wf ({} : Ctx) c'.ctxs = true)

theorem Settles.refl (c : Chip) : Settles c c := ⟨rfl, id⟩

theorem Settles.trans {a b c : Chip} (h : Settles a b) (h' : Settles b c) : Settles a c := by
  obtain ⟨hv, hw⟩ := h
  obtain ⟨hv', hw'⟩ := h'
  exact ⟨hv'.trans hv, fun h => hw' (hw h)⟩

theorem Shed.settles {n : Nat} {c c' : Chip} (h : Shed n c c') : Settles c c' := ⟨h.1, h.2.1⟩

theorem settles_of_eq {c c' : Chip} (hv : c'.rim = c.rim) (hc : c'.ctxs = c.ctxs) : Settles c c' := ⟨hv, fun h => hc ▸ h⟩

theorem settles_locks (c : Chip) (l : Tab Lock) : Settles c { c with locks := l } := settles_of_eq rfl rfl

theorem settles_modServing (c : Chip) (f : Serving → Serving) : Settles c (c.modServing f) := settles_of_eq rfl rfl

theorem settles_stks (c : Chip) (t : Tab StackSt) : Settles c { c with stks := t } := settles_of_eq rfl rfl

theorem settles_modPart (c : Chip) (q : Nat) (f : Partition → Partition) : Settles c (c.modPart q f) := settles_of_eq rfl rfl

theorem settles_modDie (c : Chip) (d : Die) (f : DieSt → DieSt) : Settles c (c.modDie d f) := settles_of_eq (modDie_rim _ _ _) (modDie_ctxs _ _ _)

theorem settles_dropKey (c : Chip) (key : Nat) : Settles c (c.dropKey key) := settles_of_eq rfl rfl

theorem settles_foldl {α : Type} {f : Chip → α → Chip} (hf : ∀ c x, Settles c (f c x)) (l : List α) (c : Chip) : Settles c (l.foldl f c) := by
  induction l generalizing c with
  | nil => exact .refl c
  | cons x l ih => exact (hf c x).trans (ih _)

theorem settles_modCtx (c : Chip) (n : Nat) (f : Ctx → Ctx) : Settles c (c.modCtx n f) := ⟨rfl, wf_modCtx⟩

/-- A write to the host's memory and an interrupt after it. -/
theorem settles_raised (c : Chip) (m : Memory) (b : Bool) (fn v : Nat) :
    Settles c (if b then ({ c with host := m } : Chip).raise fn v else { c with host := m }) := by
  split_ifs
  · exact settles_of_eq rfl rfl
  · exact settles_of_eq rfl rfl

theorem settles_drainRing (c : Chip) (n r : Nat) : Settles c (c.drainRing n r) := by
  unfold Chip.drainRing
  simp only
  split
  · exact .refl c
  · exact (settles_modCtx c n _).trans (settles_raised _ _ _ _ _)

theorem settles_post (c : Chip) (n r : Nat) (x : Record) : Settles c (c.post n r x) := (settles_modCtx c n _).trans (settles_drainRing _ _ _)

theorem settles_postEnd (c : Chip) (h : Hdr) (e : EndStatus) : Settles c (c.postEnd h e) := by
  unfold Chip.postEnd
  split_ifs
  · exact .refl c
  · exact settles_post _ _ _ _

theorem settles_done (c : Chip) (h : Hdr) (status : W16) (detail value : W32) : Settles c (c.done h status detail value) := by
  unfold Chip.done
  split_ifs
  · exact .refl c
  · exact settles_post _ _ _ _

theorem settles_freeEntry (c : Chip) (i : Nat) : Settles c (c.freeEntry i) := by
  have hgive : Settles c (c.giveBlocks i) := by
    unfold Chip.giveBlocks
    simp only
    split
    · exact settles_of_eq rfl rfl
    · exact settles_of_eq rfl rfl
  exact hgive.trans (settles_of_eq rfl rfl)

theorem settles_evict (c : Chip) (slot : Nat) : Settles c (c.evict slot) := by
  have hkey : Settles c (c.dropKey (c.model slot).key) := settles_of_eq rfl rfl
  exact (hkey.trans (settles_modCtx _ _ _)).trans (settles_modServing _ _)

theorem settles_dropModels (c : Chip) (n : Nat) : Settles c (c.dropModels n) := by
  refine settles_foldl (fun c i => ?_) _ c
  simp only
  split
  · exact .refl c
  · split
    · exact settles_modServing _ _
    · split
      · exact settles_evict c i
      · exact (settles_modServing _ _).trans (settles_modCtx _ _ _)

theorem settles_grantNext (c : Chip) (lock : Nat) : Settles c (c.grantNext lock) := by
  unfold Chip.grantNext
  simp only
  split
  · exact .refl c
  · exact (settles_of_eq rfl rfl).trans (settles_done _ _ _ _ _)

theorem settles_dropLocks (c : Chip) (n : Nat) : Settles c (c.dropLocks n) := by
  refine settles_foldl (fun c i => ?_) _ c
  have hown (c : Chip) (b : Bool) : Settles c (if b then
      ({ c with locks := tmod {} c.locks i (fun l => { l with held := false, poisoned := true, owner := 0 }) }).grantNext i else c) := by
    split_ifs
    · exact (settles_locks _ _).trans (settles_grantNext _ i)
    · exact .refl c
  have hdone (c : Chip) (l : List Hdr) : Settles c (l.foldl (fun c h => c.done h 0x0702 0 0) c) := settles_foldl (fun c h => settles_done c h _ _ _) l c
  exact ((settles_locks _ _).trans (hdone _ _)).trans (hown _ _)

theorem settles_dropMigrations (c : Chip) (n : Nat) :
    Settles c { c with stks := tmap {} (fun _ k => { k with mig := k.mig.filter (fun m => decide (m.ctx ≠ n)) }) c.stks } := settles_stks _ _

/-- A tear-down ends with the context's entry, all that it held gone before. -/
theorem teardown_split {c : Chip} {n : Nat} (hst : (c.ctx n).st ≠ .free) (e : EndStatus) :
    ∃ k, Settles c k ∧ c.teardown n e = k.modCtx n (fun y => { rings := y.rings, bar4Base := y.bar4Base }) := by
  have hends (c : Chip) (l : List ExecCmd) : Settles c (l.foldl (fun c z => c.postEnd (cmdHdr z.cmd) { status := 0x0702 }) c) :=
    settles_foldl (fun c z => settles_postEnd c _ _) l c
  have hcmds (c : Chip) (x : Ctx) : Settles c (match x.run, x.execQ with
      | some r, y :: t => t.foldl (fun c z => c.postEnd (cmdHdr z.cmd) { status := 0x0702 }) (c.postEnd (cmdHdr y.cmd) (r.finish.getD e))
      | _, q => q.foldl (fun c z => c.postEnd (cmdHdr z.cmd) { status := 0x0702 }) c) := by
    split
    · exact (settles_postEnd c _ _).trans (hends _ _)
    · exact hends _ _
  have hreqs (c : Chip) (l : List (Instr × W16)) : Settles c (l.foldl (fun (c : Chip) r =>
      match r.1 with
      | .streamClose h _ => c.done h 0x0702 0 0
      | .streamPark h _ => c.done h 0x0702 0 0
      | .streamUnpark h _ => c.done h 0x0702 0 0
      | _ => c) c) := by
    refine settles_foldl (fun c r => ?_) l c
    split
    · exact settles_done _ _ _ _ _
    · exact settles_done _ _ _ _ _
    · exact settles_done _ _ _ _ _
    · exact .refl c
  have hentries (c : Chip) : Settles c (c.dropEntries n) := settles_foldl (fun c i => settles_freeEntry c i) _ c
  have h1 := ((shed_dropStreams n c n 0x0407).settles.trans (hcmds _ (c.ctx n))).trans (hreqs _ (c.ctx n).streamReqs)
  have h2 := (h1.trans (hentries _)).trans (settles_dropModels _ n)
  have h3 := (h2.trans (settles_dropKey _ (c.ctx n).key)).trans (settles_dropLocks _ n)
  refine ⟨_, (h3.trans (settles_dropMigrations _ n)).trans (settles_modPart _ (c.ctx n).part (fun p => if p.cur = some n then { p with cur := none } else p)), ?_⟩
  unfold Chip.teardown
  exact if_neg hst

theorem settles_teardown (c : Chip) (n : Nat) (e : EndStatus) : Settles c (c.teardown n e) := by
  by_cases hst : (c.ctx n).st = .free
  · rw [show c.teardown n e = c from if_pos hst]
    exact .refl c
  · obtain ⟨k, hk, he⟩ := teardown_split hst e
    rw [he]
    exact hk.trans (settles_modCtx _ _ _)

theorem settles_saveIdle (c : Chip) (q : Nat) : Settles c (c.saveIdle q) := by
  unfold Chip.saveIdle
  split
  · split
    · exact .refl c
    · exact ((settles_modCtx _ _ _).trans (settles_modCtx _ _ _)).trans (settles_modPart _ _ _)
  · exact .refl c

theorem settles_settleSet (c : Chip) (q : Nat) : Settles c (c.settleSet q) := by
  unfold Chip.settleSet
  split
  · split
    · exact .refl c
    · split
      · exact (settles_modPart _ _ _).trans (settles_done _ _ _ _ _)
      · exact ((settles_saveIdle _ _).trans (settles_modPart _ _ _)).trans (settles_done _ _ _ _ _)
  · exact .refl c

theorem settles_setting (c : Chip) (r : Nat × Nat) : Settles c (c.setting r) := by
  unfold Chip.setting
  simp only
  split
  · exact settles_foldl (fun c n => settles_stks c _) _ c
  · exact settles_of_eq rfl rfl
  · exact settles_of_eq rfl rfl
  · exact settles_of_eq rfl rfl
  · exact settles_of_eq rfl rfl
  · exact .refl c

theorem settles_overlayNumber (c : Chip) (ovl : Nat) : Settles c (c.overlayNumber ovl) := by
  unfold Chip.overlayNumber
  split_ifs
  · exact settles_of_eq rfl rfl
  · exact settles_of_eq rfl rfl
  · exact settles_of_eq rfl rfl

theorem settles_settleOverlays (c : Chip) : Settles c c.settleOverlays := by
  have happly (c : Chip) (ovl : Nat) (bs : List Byte) : Settles c (c.applyOverlay ovl bs) :=
    (settles_foldl settles_setting _ _).trans (settles_overlayNumber _ _)
  have hok (c : Chip) (h : Option Hdr) : Settles c (match h with | some h => c.ok h 0 | none => c) := by
    split
    · exact settles_done _ _ _ _ _
    · exact .refl c
  have hboot : Settles c { c with boot := { c.boot with ovlWait := [] } } := settles_of_eq rfl rfl
  unfold Chip.settleOverlays
  split
  · exact .refl c
  · exact hboot.trans (settles_foldl (fun c (o : Option Hdr × Nat × List Byte) => (happly c o.2.1 o.2.2).trans (hok _ o.1)) _ _)

theorem settles_settlePart (c : Chip) (q : Nat) : Settles c (c.settlePart q) := (settles_settleSet c q).trans (settles_settleOverlays _)

theorem settles_requestTeardown (c : Chip) (n : Nat) (status : W16) : Settles c (c.requestTeardown n status) := by
  have hnow : Settles c ((c.teardown n { status := status }).settlePart (c.ctx n).part) :=
    (settles_teardown c n _).trans (settles_settlePart _ _)
  unfold Chip.requestTeardown
  simp only
  split
  · split
    · exact settles_modCtx _ _ _
    · exact hnow
  · exact hnow

/-! ### Tear-down -/

/-- A context after its tear-down. -/
theorem teardown_ctx {c : Chip} {n : Nat} (hw : Tab.wf ({} : Ctx) c.ctxs = true) (hst : (c.ctx n).st ≠ .free) (e : EndStatus) :
    ∃ R b, (c.teardown n e).ctx n = { rings := R, bar4Base := b } := by
  obtain ⟨k, hk, he⟩ := teardown_split hst e
  exact ⟨_, _, by rw [he, ctx_modCtx_same k (hk.2 hw)]⟩

/-- A function whose reset has been carried out for its context. -/
def Chip.unbound (c : Chip) (n : Nat) : Chip :=
  ((c.modCtx n (fun x => { x with gone := true })).requestTeardown n 0x0702).modCtx n (fun x => { x with rings := [], bar4Base := 0 })

theorem settles_unbound (c : Chip) (n : Nat) : Settles c (c.unbound n) :=
  ((settles_modCtx _ _ _).trans (settles_requestTeardown _ _ _)).trans (settles_modCtx _ _ _)

theorem boundCtx_resetVf {c : Chip} (hw : Tab.wf ({} : Vf) c.vfs = true) (fn : Nat) : (c.resetVf fn).boundCtx fn = none := by
  have hstep : Settles c (match c.boundCtx fn with | none => c | some n => c.unbound n) := by
    split
    · exact .refl c
    · exact settles_unbound _ _
  have hvfs : (match c.boundCtx fn with | none => c | some n => c.unbound n).vfs = c.vfs := congrArg Prod.fst hstep.1
  rw [← hvfs] at hw
  have hread : tget {} (c.resetVf fn).vfs fn = ({} : Vf) := tget_tput_same hw
  rw [Chip.boundCtx, hread]

theorem ring_hotReset {c : Chip} (hw : Tab.wf ({} : Ctx) c.ctxs = true) (k r : Nat) : (c.hotReset.ring k r).enable = false := by
  have hfold := (settles_foldl settles_unbound c.live c).2 hw
  have hread : c.hotReset.ctx k = { (c.live.foldl Chip.unbound c).ctx k with rings := [], bar4Base := 0 } :=
    tget_tmap (f := fun _ (x : Ctx) => { x with rings := [], bar4Base := 0 }) (fun _ => rfl) hfold
  rw [Chip.ring, hread]
  rfl

/-- Settles O48: a tear-down by what it leaves of its context, a reset by what it leaves of the functions. -/
theorem teardownAndReset : Obligations.TeardownAndReset := by
  unfold Obligations.TeardownAndReset
  intro p c n status htear hw
  have hexec : exec (.contextTeardown n status) ⟨p, c⟩ = .next ⟨p, c.requestTeardown n status⟩ :=
    congrArg (fun k => Host.Outcome.next (State.mk p k)) (if_pos htear)
  refine ⟨fun hrem hst => ⟨?_, ?_⟩, fun r hrun hrem => ?_, ?_, fun fn hfn hv => ⟨?_, boundCtx_resetVf hv fn⟩, rfl, rfl, fun k r => ring_hotReset hw k r⟩
  · rw [hexec]
    cases hrun : (c.ctx n).run <;> simp only [Chip.requestTeardown, hrun, hrem, Bool.false_eq_true, if_false]
  · obtain ⟨R, b, hctx⟩ := teardown_ctx hw hst { status := status }
    rw [hctx]
    exact ⟨rfl, rfl, rfl, rfl⟩
  · rw [hexec]
    simp only [Chip.requestTeardown, hrun, hrem, if_true]
  · simp only [tearStatus, Bool.or_eq_true, decide_eq_true_eq, or_assoc]
  · exact congrArg (fun k => Host.Outcome.next (State.mk p k)) (if_neg hfn)

end Sys2Proof.Machine
end

section
/-!
PROOFS. The commit point and the vote (R202, R217, R219, R259, R260, R296).
-/
namespace Sys2Proof.Machine

/-! ### The commit point -/

/-- A running context runs on and keeps its completed steps and its page selectors. -/
def KeepsStep (n : Nat) (c c' : Chip) : Prop :=
  (c.ctx n).run.isSome = true → (c'.ctx n).run.isSome = true ∧ (c'.ctx n).doneSteps = (c.ctx n).doneSteps ∧
    (c'.ctx n).train.active = (c.ctx n).train.active

theorem KeepsStep.refl (n : Nat) (c : Chip) : KeepsStep n c c := fun h => ⟨h, rfl, rfl⟩

theorem KeepsStep.trans {n : Nat} {a b c : Chip} (h : KeepsStep n a b) (h' : KeepsStep n b c) : KeepsStep n a c := by
  intro hrun
  obtain ⟨hr, hd, ha⟩ := h hrun
  obtain ⟨hr', hd', ha'⟩ := h' hr
  exact ⟨hr', hd'.trans hd, ha'.trans ha⟩

theorem keepsStep_of_ctxs {n : Nat} {c c' : Chip} (h : c'.ctxs = c.ctxs) : KeepsStep n c c' := by
  have hctx : c'.ctx n = c.ctx n := by
    rw [Chip.ctx, h]
    rfl
  exact fun hrun => by rw [hctx]; exact ⟨hrun, rfl, rfl⟩

theorem keepsStep_foldl {α : Type} {n : Nat} {f : Chip → α → Chip} (hf : ∀ c x, KeepsStep n c (f c x)) (l : List α) (c : Chip) :
    KeepsStep n c (l.foldl f c) := by
  induction l generalizing c with
  | nil => exact .refl n c
  | cons x l ih => exact (hf c x).trans (ih _)

theorem ctx_modCtx_of_run (c : Chip) {n : Nat} {f : Ctx → Ctx} (h : (f (c.ctx n)).run.isSome = true) : (c.modCtx n f).ctx n = f (c.ctx n) := by
  refine ctx_modCtx_of_ne_default c fun hdef => ?_
  rw [hdef] at h
  cases h

theorem keepsStep_modCtx (n m : Nat) (c : Chip) (f : Ctx → Ctx)
    (hf : ∀ x, (f x).run.isSome = x.run.isSome ∧ (f x).doneSteps = x.doneSteps ∧ (f x).train.active = x.train.active) :
    KeepsStep n c (c.modCtx m f) := by
  intro hrun
  by_cases hm : n = m
  · subst hm
    obtain ⟨hr, hd, ha⟩ := hf (c.ctx n)
    rw [ctx_modCtx_of_run c (hr.trans hrun)]
    exact ⟨hr.trans hrun, hd, ha⟩
  · rw [ctx_modCtx_ne c f hm]
    exact ⟨hrun, rfl, rfl⟩

theorem Scrambled.keepsStep {c c' : Chip} (h : Scrambled c c') (n : Nat) : KeepsStep n c c' := by
  intro hrun
  obtain ⟨pg, rn, hx, -⟩ := h.2.2.1 n
  refine ⟨(h.run_isSome n).trans hrun, ?_, ?_⟩
  · rw [hx]
  · rw [hx]

theorem keepsStep_raised (n : Nat) (c : Chip) (m : Memory) (fn v : Nat) : KeepsStep n c (({ c with host := m } : Chip).raise fn v) :=
  keepsStep_of_ctxs rfl

theorem keepsStep_output (n : Nat) (c : Chip) (m r : Nat) (x : BitVec 128) : KeepsStep n c (c.output m r x) := by
  have hdrain (c : Chip) : KeepsStep n c (c.drainOring m r) := by
    unfold Chip.drainOring
    simp only
    split
    · exact .refl n c
    · exact (keepsStep_modCtx n m c _ (by intro; exact ⟨rfl, rfl, rfl⟩)).trans (keepsStep_raised n _ _ _ _)
  unfold Chip.output
  split
  · exact .refl n c
  · exact (keepsStep_modCtx n m c _ (by intro; exact ⟨rfl, rfl, rfl⟩)).trans (hdrain _)

theorem keepsStep_countProof (n : Nat) (c : Chip) (flipped : Bool) (step : W48) : KeepsStep n c (c.countProof n flipped step) := by
  have hship : KeepsStep n c (c.modCtx n (fun x => { x with proof :=
      { x.proof with ship := x.proof.ship.map (fun s => { s with flips := s.flips + 1 }) } })) :=
    keepsStep_modCtx n n c _ fun _ => ⟨rfl, rfl, rfl⟩
  unfold Chip.countProof
  simp only
  split
  · split
    · exact hship.trans (keepsStep_modCtx n n _ _ (by intro; exact ⟨rfl, rfl, rfl⟩))
    · exact hship.trans (keepsStep_modCtx n n _ _ (by intro; exact ⟨rfl, rfl, rfl⟩))
  · exact hship

theorem keepsStep_capConfig (n : Nat) (c : Chip) : KeepsStep n c (c.capConfig n) := by
  unfold Chip.capConfig
  simp only
  split
  · exact keepsStep_foldl (fun c i => (scrambled_writeVaAs c n .unit _ _).keepsStep n) _ c
  · exact .refl n c

theorem keepsStep_capDone (n : Nat) (c : Chip) (v : Byte) :
    KeepsStep n c (c.modCtx n (fun x => { x with proof := { x.proof with capture := none, capState := 2, capPsets := v } })) :=
  keepsStep_modCtx n n c _ (by intro; exact ⟨rfl, rfl, rfl⟩)

theorem keepsStep_capComplete (n : Nat) (c : Chip) : KeepsStep n c (c.capComplete n) := by
  unfold Chip.capComplete
  simp only
  split
  · split
    · exact .refl n c
    · have h (va : Nat) (bs : List Byte) (v : Byte) := ((keepsStep_capConfig n c).trans
        ((scrambled_writeVaAs _ n .unit va bs).keepsStep n)).trans (keepsStep_capDone n _ v)
      split
      · exact (h _ _ _).trans (keepsStep_output n _ _ _ _)
      · exact h _ _ _
  · exact .refl n c

theorem keepsStep_measure (n : Nat) (c : Chip) : KeepsStep n c (c.measure n) :=
  .trans (b := c.probe) (keepsStep_of_ctxs rfl) (keepsStep_modCtx n n _ _ (by intro; exact ⟨rfl, rfl, rfl⟩))

/-- The selectors that flip at a commit point. -/
def Ctx.flips (x : Ctx) : List Nat := if x.train.committable then (x.train.written.filter (·.2)).map (·.1) else []

/-- The step's registers as its commit point leaves them. -/
def Ctx.committed (x : Ctx) (r : Run) (now : W64) : Ctx :=
  { x with train :=
    { (x.train.scale x.train.committable) with
      active := x.flips.foldl (fun t ps => tput false t ps (!(tget false t ps))) x.train.active
      since := if x.train.committable then x.train.since.map (· + 1) else x.train.since
      lastStep := if x.train.committable then x.stepReg r else x.train.lastStep
      lastTime := if x.train.committable then now else x.train.lastTime } }

/-- A run that has passed its commit point. -/
def Ctx.passed (x : Ctx) (r : Run) : Ctx :=
  { x with
    run := some { r with pastCommit := true }, keptAcks := x.keptAcks.filter (fun a => decide (a.1 ≠ r.step))
    doneSteps := r.step :: x.doneSteps }

theorem keepsStep_joined (n : Nat) (c : Chip) (go : Bool) :
    KeepsStep n c (if go then { c with vote := { c.vote with joining := false } } else c) := by
  split_ifs
  · exact keepsStep_of_ctxs rfl
  · exact .refl n c

/-- A commit point sets the step's registers, does what follows from it, and marks the run. -/
theorem commitNow_eq (c : Chip) (n : Nat) (r : Run) : ∃ k, KeepsStep n (c.modCtx n (fun _ => (c.ctx n).committed r c.now)) k ∧
    c.commitNow n r = k.modCtx n (fun x => x.passed r) := by
  refine ⟨_, ((((keepsStep_countProof n _ (!(c.ctx n).flips.isEmpty) ((c.ctx n).stepReg r)).trans (keepsStep_capComplete n _)).trans
    (keepsStep_measure n _)).trans (keepsStep_joined n _ (c.ctx n).train.committable)), ?_⟩
  rfl

/-- A commit point held by a shipment. -/
theorem commitPoint_pinned {c : Chip} {n : Nat} {r : Run} (hrun : (c.ctx n).run = some r) (hready : c.commitReady n = true)
    (hpin : (c.ctx n).commitPinned = true) :
    c.commitPoint n = (c.modCtx n (fun x => { x with proof :=
      { x.proof with held := true, holds := if r.pinHeld then x.proof.holds else satAdd x.proof.holds 1 } })).modRun n
        (fun r => { r with pinHeld := true }) := by
  simp only [Chip.commitPoint, hrun, hready, hpin, Bool.not_true, Bool.false_eq_true, if_false, if_true]

/-! ### The vote -/

/-- The module with the votes' lateness noted, its PSET digests sent where digests differ. -/
def Chip.compared (c : Chip) (g : Group) (own vs : List Vote) : Chip :=
  let c0 : Chip := { c with vote := c.vote.straggle g vs c.now }
  if vs.all (·.committable) && !agree c0.vote.shards.toNat vs then c0.sendPsets g own else c0

/-- Messages were sent. -/
def Sends (c c' : Chip) : Prop := ∃ l, c' = { c with sent := l }

theorem Sends.refl (c : Chip) : Sends c c := ⟨c.sent, rfl⟩

theorem Sends.trans {a b c : Chip} (h : Sends a b) (h' : Sends b c) : Sends a c := by
  obtain ⟨l, rfl⟩ := h
  obtain ⟨l', rfl⟩ := h'
  exact ⟨l', rfl⟩

theorem sends_foldl {α : Type} {f : Chip → α → Chip} (hf : ∀ c x, Sends c (f c x)) (l : List α) (c : Chip) : Sends c (l.foldl f c) := by
  induction l generalizing c with
  | nil => exact .refl c
  | cons x l ih => exact (hf c x).trans (ih _)

theorem sends_send (c : Chip) (kind dest : Nat) (data : List Byte) : Sends c (c.send kind dest data) := ⟨_, rfl⟩

theorem sends_sendPsets (c : Chip) (g : Group) (own : List Vote) : Sends c (c.sendPsets g own) := by
  refine sends_foldl (fun c v => sends_foldl (fun c p => ?_) _ c) _ c
  split_ifs
  · exact .refl c
  · exact sends_send _ _ _ _

theorem sends_compared (c : Chip) (g : Group) (own vs : List Vote) :
    Sends { c with vote := c.vote.straggle g vs c.now } (c.compared g own vs) := by
  unfold Chip.compared
  simp only
  split_ifs
  · exact sends_sendPsets _ _ _
  · exact .refl _

theorem compared_ctxs (c : Chip) (g : Group) (own vs : List Vote) : (c.compared g own vs).ctxs = c.ctxs := by
  obtain ⟨l, hl⟩ := sends_compared c g own vs
  rw [hl]

theorem compared_vote (c : Chip) (g : Group) (own vs : List Vote) : (c.compared g own vs).vote = c.vote.straggle g vs c.now := by
  obtain ⟨l, hl⟩ := sends_compared c g own vs
  rw [hl]

section
variable {c : Chip} {n : Nat} {r : Run} {votes vs : List Vote} (hrun : (c.ctx n).run = some r) (hv : c.voting n = true)
  (hall : allVotes (c.voteGroup n).p (c.ownVotes n (c.voteGroup n) r) votes = some vs)
include hrun hv hall

theorem voteReceived_mismatch
    (ho : voteOutcome (c.vote.straggle (c.voteGroup n) vs c.now) (c.voteGroup n) ((c.ownVotes n (c.voteGroup n) r).map (·.index)) vs
      (vs.all (·.committable)) = .mismatch) :
    c.voteReceived n votes = (c.compared (c.voteGroup n) (c.ownVotes n (c.voteGroup n) r) vs).stepFail n 0x0403 0 := by
  rw [← compared_vote c (c.voteGroup n) (c.ownVotes n (c.voteGroup n) r) vs] at ho
  simp only [Chip.compared] at ho ⊢
  simp only [Chip.voteReceived, hv, Bool.not_true, Bool.false_eq_true, if_false, hrun, hall, ho]

/-- The vote's agreement noted, COMMITTABLE cleared where a participant's is. -/
def Chip.agreed (c : Chip) (n : Nat) (vs : List Vote) : Chip :=
  let c := { c with vote := { c.vote with result := 1 } }
  if vs.all (·.committable) then c else c.clearCommittable n 5 (vs.any (·.ovfSeen)) 0

theorem voteReceived_agreed
    (ho : voteOutcome (c.vote.straggle (c.voteGroup n) vs c.now) (c.voteGroup n) ((c.ownVotes n (c.voteGroup n) r).map (·.index)) vs
      (vs.all (·.committable)) = .agreed) :
    c.voteReceived n votes = (((c.compared (c.voteGroup n) (c.ownVotes n (c.voteGroup n) r) vs).agreed n vs).modCtx n
      (fun x => { x with train := { x.train with ovfSeen := x.train.ovfSeen || vs.any (·.ovfSeen) } })).modRun n (fun r => { r with voteDone := true }) := by
  rw [← compared_vote c (c.voteGroup n) (c.ownVotes n (c.voteGroup n) r) vs] at ho
  simp only [Chip.compared] at ho ⊢
  simp only [Chip.voteReceived, hv, Bool.not_true, Bool.false_eq_true, if_false, hrun, hall, ho, Chip.agreed]

end

theorem agreed_vote (c : Chip) (n : Nat) (vs : List Vote) : (c.agreed n vs).vote = { c.vote with result := 1 } := by
  unfold Chip.agreed
  simp only
  split_ifs <;> rfl

theorem keepsStep_agreed (n : Nat) (c : Chip) (vs : List Vote) : KeepsStep n c (c.agreed n vs) := by
  unfold Chip.agreed
  simp only
  split_ifs
  · exact keepsStep_of_ctxs rfl
  · refine .trans (b := { c with vote := { c.vote with result := 1 } }) (keepsStep_of_ctxs rfl) (keepsStep_modCtx n n _ _ fun x => ?_)
    unfold Ctx.clearCommittable
    split_ifs
    · exact ⟨rfl, rfl, rfl⟩
    · refine ⟨rfl, rfl, ?_⟩
      by_cases hc : x.train.committable = true
      · simp only [if_pos hc]
      · simp only [if_neg hc]

/-- Settles O49: the commit point by what it keeps of the run until it marks it; the vote by its outcome. -/
theorem commitAndVote : Obligations.CommitAndVote := by
  unfold Obligations.CommitAndVote
  intro p c n r hrun
  refine ⟨fun hready hpin => ⟨?_, ?_⟩, fun hready hpin => ?_, fun hready => ?_, fun hv => ⟨fun votes vs => ?_, fun votes hnone => ?_, ?_⟩⟩
  · refine congrArg (fun k => Host.Outcome.next (State.mk p k)) (a₁ := c.commitPoint n) ?_
    simp only [Chip.commitPoint, hrun, hready, hpin, Bool.not_true, Bool.false_eq_true, if_false]
  · obtain ⟨k, hk, hcommit⟩ := commitNow_eq c n r
    have hset : (c.modCtx n (fun _ => (c.ctx n).committed r c.now)).ctx n = (c.ctx n).committed r c.now :=
      ctx_modCtx_of_run c (by rw [Ctx.committed, hrun]; rfl)
    obtain ⟨-, hdone, hact⟩ := hk (by rw [hset, Ctx.committed, hrun]; rfl)
    have hpassed : (c.commitNow n r).ctx n = (k.ctx n).passed r := by
      rw [hcommit]
      exact ctx_modCtx_of_run k rfl
    rw [hpassed]
    refine ⟨{ r with pastCommit := true }, rfl, rfl, ?_, fun hno => ?_⟩
    · exact congrArg (r.step :: ·) (hdone.trans (by rw [hset]; rfl))
    · refine hact.trans ?_
      rw [hset]
      simp only [Ctx.committed, Ctx.flips, hno, Bool.false_eq_true, if_false, List.foldl_nil]
  · let held (x : Ctx) : Ctx := { x with proof := { x.proof with held := true, holds := if r.pinHeld then x.proof.holds else satAdd x.proof.holds 1 } }
    let pinned (x : Ctx) : Ctx := { x with run := x.run.map (fun r => { r with pinHeld := true }) }
    have hheld : (c.modCtx n held).ctx n = held (c.ctx n) := ctx_modCtx_of_run c (by rw [show (held (c.ctx n)).run = _ from hrun]; rfl)
    have hctx : ((c.modCtx n held).modCtx n pinned).ctx n = pinned (held (c.ctx n)) := by
      rw [← hheld]
      refine ctx_modCtx_of_run _ ?_
      rw [hheld, show (pinned (held (c.ctx n))).run = (c.ctx n).run.map _ from rfl, hrun]
      rfl
    refine ⟨_, congrArg (fun k => Host.Outcome.next (State.mk p k)) (commitPoint_pinned hrun hready hpin), ?_⟩
    rw [show (Chip.modRun _ n _).ctx n = _ from hctx]
    exact ⟨rfl, rfl, { r with pinHeld := true }, by rw [show (pinned (held (c.ctx n))).run = (c.ctx n).run.map _ from rfl, hrun]; rfl, rfl⟩
  · refine congrArg (fun k => Host.Outcome.next (State.mk p k)) (a₁ := c.commitPoint n) ?_
    simp only [Chip.commitPoint, hrun, hready, Bool.not_false, if_true]
  · intro g own c0 hall
    refine ⟨fun ho => ?_, fun ho => ?_⟩
    · exact congrArg (fun k => Host.Outcome.next (State.mk p k)) (voteReceived_mismatch hrun hv hall ho)
    · let k := c.compared g own vs
      have hk : KeepsStep n c (k.agreed n vs) := .trans (b := k) (keepsStep_of_ctxs (compared_ctxs c g own vs)) (keepsStep_agreed n k vs)
      refine ⟨_, congrArg (fun k => Host.Outcome.next (State.mk p k)) (voteReceived_agreed hrun hv hall ho), ?_, ?_⟩
      · refine (agreed_vote k n vs).trans ?_
        rw [show k.vote = c0.vote from compared_vote c g own vs]
      · obtain ⟨hrun', -⟩ := (hk.trans (keepsStep_modCtx n n _ (fun x => { x with train := { x.train with
          ovfSeen := x.train.ovfSeen || vs.any (·.ovfSeen) } }) (by intro; exact ⟨rfl, rfl, rfl⟩))) (by rw [hrun]; rfl)
        obtain ⟨r', hr'⟩ := Option.isSome_iff_exists.1 hrun'
        refine ⟨{ r' with voteDone := true }, ?_, rfl⟩
        rw [Chip.modRun, ctx_modCtx_of_run]
        · rw [hr']
          rfl
        · rw [hr']
          rfl
  · refine congrArg (fun k => Host.Outcome.next (State.mk p k)) (a₁ := c.voteReceived n votes) ?_
    simp only [Chip.voteReceived, hv, Bool.not_true, Bool.false_eq_true, if_false, hrun, hnone]
  · exact congrArg (fun k => Host.Outcome.next (State.mk p k)) (if_neg (by simp [hv]))

end Sys2Proof.Machine
end

section
/-!
PROOFS. Time, ports and the Ridge reference (R22 to R26, R233, R234, R247).
-/
namespace Sys2Proof.Machine

/-! ### The Ridge counters -/

theorem slewTick_now (r : Ridge) : r.slewTick.now = r.now := by
  unfold Ridge.slewTick
  split_ifs <;> rfl

theorem slewTick_of_no_slew {r : Ridge} (h : r.slew = false) : r.slewTick = r := by
  unfold Ridge.slewTick
  rw [h, Bool.false_and]
  rfl

/-! ### Ports -/

theorem pport_modPort_of_st (c : Chip) {n : Nat} {f : Port → Port} (h : (f (c.pport n)).st ≠ 0) : (c.modPort n f).pport n = f (c.pport n) :=
  pport_modPort_of_ne_default c fun hdef => h (congrArg Port.st hdef)

theorem pport_of_settles {c c' : Chip} (h : Settles c c') (n : Nat) : c'.pport n = c.pport n := by
  have hp : c'.ports = c.ports := congrArg (·.2.1) h.1
  rw [Chip.pport, hp]
  rfl

theorem settles_colAbort (c : Chip) (d : Die) (q g cause status peer : Nat) : Settles c (c.colAbort d q g cause status peer) := by
  unfold Chip.colAbort
  split
  · exact .refl c
  case h_2 s _ =>
    exact (((settles_modDie c d _).trans (settles_modCtx _ s.ctx _)).trans (shed_stopStream 0 _ d q 3 status).settles).trans
      (settles_modDie _ _ _)

theorem settles_linkAborts (c : Chip) (d : Die) : Settles c (c.linkAborts d) := by
  refine settles_foldl (fun c q => ?_) _ c
  split
  · exact .refl c
  · exact .trans (b := c.freeWord.2) (settles_of_eq rfl rfl) (settles_colAbort _ _ _ _ _ _ _)

theorem settles_ridge (c : Chip) (r : Ridge) : Settles c { c with ridge := r } := settles_of_eq rfl rfl

theorem settles_reroute (c : Chip) : Settles c c.reroute := settles_of_eq rfl rfl

theorem settles_takeUpstream (c : Chip) : Settles c c.takeUpstream := by
  unfold Chip.takeUpstream
  split
  · exact settles_ridge _ _
  · exact settles_ridge _ _

theorem settles_requestOverlay (c : Chip) (h : Option Hdr) (ovl : Nat) (bs : List Byte) : Settles c (c.requestOverlay h ovl bs) :=
  .trans (b := { c with boot := { c.boot with ovlWait := c.boot.ovlWait ++ [(h, ovl, bs)] } }) (settles_of_eq rfl rfl) (settles_settleOverlays _)

/-- A port as its fall leaves it. -/
def Port.fallen (x : Port) (st : BitVec 4) (now : W64) : Port := { x with st := st, down := x.down.event now, margin := 0 }

/-- A fall changes the port; what follows from it leaves the ports alone. -/
theorem settles_portFalls (c : Chip) (p : Nat) (st : BitVec 4) : Settles (c.modPort p (·.fallen st c.now)) (c.portFalls p st) := by
  have hloss (c : Chip) : Settles c (if c.ridge.src = 1 ∧ c.ridge.upstream.toNat = p then
      { c with ridge := { (if c.ridge.holdover then c.ridge else c.ridge.lose) with upstream := 0xF, hops := 0 } } else c) := by
    split_ifs
    · exact settles_ridge _ _
    · exact settles_ridge _ _
    · exact .refl c
  have hovl (c : Chip) : Settles c (if c.cabled p then c.requestOverlay none 5 (tget [] c.boot.overlays 5) else c) := by
    split_ifs
    · exact settles_requestOverlay _ _ _ _
    · exact .refl c
  exact (((settles_linkAborts _ (portDie p)).trans (settles_reroute _)).trans (hloss _)).trans (hovl _)

/-- What follows from a port's fall leaves the port as the fall left it. -/
theorem portFalls_port (c : Chip) (p : Nat) {st : BitVec 4} (hst : st ≠ 0) :
    (c.portFalls p st).pport p = { c.pport p with st := st, down := (c.pport p).down.event c.now, margin := 0 } := by
  rw [pport_of_settles (settles_portFalls c p st)]
  exact pport_modPort_of_st c hst

theorem settles_followRoutes (c : Chip) : Settles c c.followRoutes := by
  unfold Chip.followRoutes
  split_ifs
  · exact (settles_reroute c).trans (settles_takeUpstream _)
  · exact settles_reroute c

theorem setNeighbour_pport {c : Chip} {p : Nat} (h : (c.pport p).st ≠ 0) (m : BitVec 10) (k : BitVec 3) (e : Byte) :
    (c.setNeighbour p m k e).pport p = { c.pport p with neighbour := m, nport := k, epoch := e } := pport_modPort_of_st c h

/-- The state of a trained port with a neighbour's identity and epoch. -/
def Chip.trained (c : Chip) (p : Nat) (m : BitVec 10) (k : BitVec 3) (e : Byte) : BitVec 4 :=
  if e < c.domain.epoch then 4 else if !c.fits p m.toNat k.toNat then 5 else 3

theorem trained_ne_zero (c : Chip) (p : Nat) (m : BitVec 10) (k : BitVec 3) (e : Byte) : c.trained p m k e ≠ 0 := by
  unfold Chip.trained
  split_ifs <;> decide

/-- A plugged port settles with its neighbour's identity in the state that follows from it. -/
theorem plugged_pport {c : Chip} {p : Nat} (h : (c.pport p).st = 1) (m : BitVec 10) (k : BitVec 3) (e : Byte) :
    let x := ((c.setNeighbour p m k e).settlePort p).pport p
    x.neighbour = m ∧ x.epoch = e ∧ x.st = c.trained p m k e := by
  have hset := setNeighbour_pport (c := c) (p := p) (by rw [h]; decide) m k e
  have hst : ((c.setNeighbour p m k e).pport p).st = 1 := by rw [hset]; exact h
  have htrained : (c.setNeighbour p m k e).portState p = c.trained p m k e := by
    rw [Chip.portState, hset]
    rfl
  let g : W16 := Config.eyeMargin c.fresh
  let settled (x : Port) : Port := { x with st := c.trained p m k e, margin := if c.trained p m k e = 3 then g else 0 }
  have hsettle : (c.setNeighbour p m k e).settlePort p =
      (({ c.setNeighbour p m k e with fresh := c.fresh + 1 } : Chip).modPort p settled).followRoutes := by
    rw [Chip.settlePort, hst, htrained]
    rfl
  have hport : ((c.setNeighbour p m k e).settlePort p).pport p = settled ((c.setNeighbour p m k e).pport p) := by
    rw [hsettle, pport_of_settles (settles_followRoutes _)]
    exact pport_modPort_of_st _ (trained_ne_zero c p m k e)
  intro x
  rw [show x = _ from hport, hset]
  exact ⟨rfl, rfl, rfl⟩

/-- Settles O51: the tick by its counters; a port by the update of its entry, which what follows leaves alone; the reference by the branch of
its return. -/
theorem portsAndRidge : Obligations.PortsAndRidge := by
  unfold Obligations.PortsAndRidge
  refine ⟨fun c => ⟨rfl, rfl, rfl, slewTick_now _, fun hslew => slewTick_of_no_slew hslew, rfl⟩, fun p c port => ?_⟩
  refine ⟨fun hst => ⟨?_, ?_, fun st hst' => ?_⟩, fun hst => ?_, fun m k e => ⟨fun hst => ?_, fun hst => ?_, fun hst => ?_⟩, fun hsrc hhold => ?_,
    fun err ns hsrc hlock hhas => ⟨fun hever hstep => ?_, fun hstep => ?_⟩, fun hhold hlock hhas => ?_, fun hsrc hhold hup k n root hroute => ?_⟩
  · exact congrArg (fun k => Host.Outcome.next (State.mk p k)) (if_pos hst)
  · exact congrArg (fun k => Host.Outcome.next (State.mk p k)) (if_pos hst)
  · exact portFalls_port c port (by rcases hst' with rfl | rfl <;> decide)
  · refine congrArg (fun k => Host.Outcome.next (State.mk p k)) (a₁ := c.portDown port) ?_
    unfold Chip.portDown
    rcases hst with h | h <;> simp [h]
  · obtain ⟨hm, he, hs⟩ := plugged_pport hst m k e
    refine ⟨_, congrArg (fun k => Host.Outcome.next (State.mk p k)) (if_pos hst), hm, he, fun hlow => ?_, fun hle hfit => ?_, fun hle hfit => ?_⟩
    · exact hs.trans (if_pos hlow)
    · refine hs.trans ?_
      rw [Chip.trained, if_neg (by simpa using hle), hfit]
      rfl
    · refine hs.trans ?_
      rw [Chip.trained, if_neg (by simpa using hle), hfit]
      rfl
  · exact congrArg (fun k => Host.Outcome.next (State.mk p k)) (if_neg hst)
  · exact congrArg (fun k => Host.Outcome.next (State.mk p k)) (if_pos hst)
  · refine ⟨{ c with ridge := c.ridge.lose },
      congrArg (fun k => Host.Outcome.next (State.mk p k)) (if_neg (by simp [show ¬ c.ridge.src = 2#2 from hsrc, hhold])), rfl, rfl,
      rfl, rfl, fun hn => ⟨rfl, ?_, ?_⟩, fun hn => ⟨?_, ?_⟩⟩
    all_goals simp [Ridge.lose, hn]
  · refine congrArg (fun k => Host.Outcome.next (State.mk p k)) (a₁ := c.referenceReturn err ns) ?_
    have hmay : c.ridge.maySteps ns = false := by
      rw [Ridge.maySteps, hever]
      rcases hstep with h | h
      · rw [h]; rfl
      · simp [h]
    simp [Chip.referenceReturn, show ¬ c.ridge.src = 2#2 from hsrc, hlock, hhas, hmay, Ridge.lock, hever]
  · have hmay : c.ridge.maySteps ns = true := by
      rw [Ridge.maySteps]
      rcases hstep with h | ⟨h, hns⟩
      · rw [h]; rfl
      · simp [h, hns]
    have hret : c.referenceReturn err ns = ({ c with ridge := { c.ridge with
        holdover := false, srcActive := c.ridge.src, phaseErr := err, slew := false } } : Chip).stepRidge ns := by
      simp only [Chip.referenceReturn]
      rw [if_neg (by simp [show ¬ c.ridge.src = 2#2 from hsrc, hlock, hhas]), if_pos hmay]
    exact ⟨_, congrArg (fun k => Host.Outcome.next (State.mk p k)) hret, hlock, rfl, rfl, rfl, rfl⟩
  · exact congrArg (fun k => Host.Outcome.next (State.mk p k)) (if_neg (by simp [hhold, hlock, hhas]))
  · have htake : c.takeUpstream = { c with ridge := { c.ridge with
        upstream := BitVec.ofNat 4 k, hops := BitVec.ofNat 5 n, rootInUse := root } } := by
      rw [Chip.takeUpstream, hroute]
    exact congrArg (fun k => Host.Outcome.next (State.mk p k)) ((if_neg (by simp [hsrc, hhold, hup])).trans htake)

end Sys2Proof.Machine
end

section
/-!
PROOFS. Memory from outside: first writes, BAR4 accesses and reads by other modules (R101, R201, R327, R363).
-/
namespace Sys2Proof.Machine

/-! ### First writes -/

theorem firstWrite_of_written {c : Chip} {n va : Nat} {b : Bool} {g : Page} (hg : (c.ctx n).page va = some g)
    (hw : (g.copy b).written = true) : c.firstWrite n va b = c := by
  simp only [Chip.firstWrite, hg, hw, if_true]

/-- What a first write leaves, but for the lines dropped from the weight caches. -/
def Chip.zeroed (c : Chip) (n va : Nat) (b : Bool) (g : Page) : Chip :=
  { c.modCtx n (fun x => { x with
      pages := tput none x.pages (va / pageSize) (some (g.setCopy b { g.copy b with written := true })) }) with
    dram := zeroCopy c.dram (g.copy b), ecc := zeroEcc c.ecc (g.copy b) }

theorem firstWrite_of_unwritten {c : Chip} {n va : Nat} {b : Bool} {g : Page} (hg : (c.ctx n).page va = some g)
    (hw : (g.copy b).written = false) : c.firstWrite n va b = (c.zeroed n va b g).snoopCopy (g.copy b) := by
  simp only [Chip.firstWrite, hg, hw, Bool.false_eq_true, if_false, Chip.zeroed]

theorem copy_setCopy (g : Page) (b : Bool) (k : PageCopy) : (g.setCopy b k).copy b = k := by
  cases b <;> rfl

theorem snoopCopy_ctxs (c : Chip) (k : PageCopy) : (c.snoopCopy k).ctxs = c.ctxs := by
  obtain ⟨s, v, w, h⟩ := snoopCopy_frame c k
  rw [h]

theorem page_zeroed (c : Chip) (n va : Nat) (b : Bool) (g : Page) :
    ((c.zeroed n va b g).ctx n).page va = some (g.setCopy b { g.copy b with written := true }) := by
  have hput : tget none (tput none (c.ctx n).pages (va / pageSize) (some (g.setCopy b { g.copy b with written := true }))) (va / pageSize) =
      some (g.setCopy b { g.copy b with written := true }) := tget_tput_of_ne_default (by simp)
  have hctx : (c.zeroed n va b g).ctx n = { c.ctx n with
      pages := tput none (c.ctx n).pages (va / pageSize) (some (g.setCopy b { g.copy b with written := true })) } := by
    refine ctx_modCtx_of_ne_default (c := c) (n := n)
      (f := fun x => { x with pages := tput none x.pages (va / pageSize) (some (g.setCopy b { g.copy b with written := true })) }) ?_
    intro h
    have hp := congrArg Ctx.pages h
    simp only at hp
    rw [hp] at hput
    simp at hput
  rw [hctx]
  exact hput

/-! ### Writes from the host -/

/-- A stack without a migration holds nothing up. -/
theorem copying_of_no_migration {c : Chip} {i n va len : Nat} {k : StackSt} (hk : k.mig = none) :
    ({ c with stks := [(i, k)] } : Chip).copying n va len = false := by
  simp [Chip.copying, hk]

theorem find_range_eq {p : Nat → Bool} {m i : Nat} (hi : i < m) (hp : p i = true) (hne : ∀ j, j ≠ i → p j = false) :
    (List.range m).find? p = some i := by
  refine List.find?_eq_some_iff_append.2 ⟨hp, List.range i, (List.range' (i + 1) (m - (i + 1))), ?_, fun j hj => ?_⟩
  · rw [List.range_eq_range', List.range_eq_range', ← List.range'_succ, show m - (i + 1) + 1 = m - i by omega]
    have := List.range'_append (s := 0) (m := i) (n := m - i) (step := 1)
    simp only [Nat.zero_add, Nat.one_mul] at this
    rw [this, show i + (m - i) = m by omega]
  · simp [hne j (by have := List.mem_range.1 hj; omega)]

/-- A host write to a page that the one migration in flight copies waits with it (R101). -/
theorem hostWrite_of_copying {c : Chip} {st n va : Nat} {bs : List Byte} (hst : st < 8) (hone : c.stks = [(st, c.stk st)])
    (hc : c.copying n va bs.length = true) :
    c.hostWrite n va bs = c.modStk st (fun k => { k with mig := k.mig.map (fun m => { m with held := m.held ++ [(n, va, bs)] }) }) := by
  have hself : ({ c with stks := [(st, c.stk st)] } : Chip) = c := by rw [← hone]
  have hfind : (List.range 8).find? (fun i => ({ c with stks := [(i, c.stk i)] } : Chip).copying n va bs.length) = some st := by
    refine find_range_eq hst (by simp only [hself, hc]) fun j hj => copying_of_no_migration ?_
    have : c.stk j = {} := by
      unfold Chip.stk
      rw [hone]
      simp [tget, Ne.symm hj]
    rw [this]
  simp only [Chip.hostWrite, hc, Bool.not_true, Bool.false_eq_true, if_false, hfind]

/-- Settles O54: a first write puts zeros and the written bit; a host access goes to the bytes, or waits with the migration; a read by
another module is answered. -/
theorem memoryFromOutside : Obligations.MemoryFromOutside := by
  unfold Obligations.MemoryFromOutside
  intro p c n
  refine ⟨fun va g hg => ?_, fun fn off hfn => ?_, fun src va len c1 => ⟨fun bs h => ?_, fun f h => ?_⟩⟩
  · have hexec : exec (.pageFirstWrite n va) ⟨p, c⟩ = .next ⟨p, c.firstWrite n va.toNat (g.useB (c.ctx n) .active)⟩ := by
      refine congrArg (fun k => Host.Outcome.next (State.mk p k)) ?_
      simp only [hg]
    refine ⟨hexec, fun hw => ?_, fun hw => ?_⟩
    · rw [hexec, firstWrite_of_written hg hw]
    · rw [firstWrite_of_unwritten hg hw]
      let b := g.useB (c.ctx n) .active
      refine ⟨snoopCopy_dram _ _, g.setCopy b { g.copy b with written := true }, ?_, ?_⟩
      · unfold Chip.ctx
        rw [snoopCopy_ctxs]
        exact page_zeroed c n va.toNat _ g
      · rw [copy_setCopy]
  · refine ⟨fun len c1 bs h => ?_, fun bs h => ?_, fun bs st m hone hm hst hc hwf => ?_⟩
    · refine congrArg (fun k => Host.Outcome.next (State.mk p k)) ?_
      simp only [Chip.bar4, hfn, h]
    · refine congrArg (fun k => Host.Outcome.next (State.mk p k)) ?_
      simp only [Chip.bar4, hfn, Chip.hostWrite, h, Bool.not_false, if_true]
    · have h : c.bar4 fn off.toNat (some bs) bs.length = _ :=
        Eq.trans (by simp only [Chip.bar4, hfn]) (hostWrite_of_copying hst hone hc)
      refine ⟨_, congrArg (fun k => Host.Outcome.next (State.mk p k)) h, rfl, ?_⟩
      · rw [stk_modStk_same c hwf]
        simp only [hm, Option.map_some]
  · refine congrArg (fun k => Host.Outcome.next (State.mk p k)) ?_
    simp only [h, Chip.send, Nat.mod_eq_of_lt src.isLt] <;> rfl
  · refine congrArg (fun k => Host.Outcome.next (State.mk p k)) ?_
    simp only [h]

end Sys2Proof.Machine
end

section
/-!
PROOFS. The byte stores stay canonical: traps and faults, threads' stores and atomics, records in host memory, and the debug window.
-/
namespace Sys2Proof.Machine

/-! ### What leaves the stores as they are -/

theorem storesWf_modCtx {c : Chip} {n : Nat} {f : Ctx → Ctx} (h : StoresWf c) : StoresWf (c.modCtx n f) := h

theorem storesWf_modStream {c : Chip} {d : Die} {q : Nat} {f : Stream → Stream} (h : StoresWf c) : StoresWf (c.modStream d q f) :=
  storesWf_modDie h

theorem storesWf_modPlaten {c : Chip} {d : Die} {k : Nat} {f : Platen → Platen} (h : StoresWf c) : StoresWf (c.modPlaten d k f) :=
  storesWf_modDie h

theorem storesWf_modOp {c : Chip} {u : UnitRef} {f : Op → Op} (h : StoresWf c) : StoresWf (c.modOp u f) :=
  storesWf_modDie h

theorem storesWf_setThread {c : Chip} {r : ThreadRef} {t : Option Thread} (h : StoresWf c) : StoresWf (c.setThread r t) :=
  storesWf_modDie h

theorem storesWf_modSide {c : Chip} {n : Nat} {d : Die} {f : CtxDie → CtxDie} (h : StoresWf c) : StoresWf (c.modSide n d f) := h

theorem storesWf_modEntry {c : Chip} {i : Nat} {f : StreamEntry → StreamEntry} (h : StoresWf c) : StoresWf (c.modEntry i f) := h

theorem storesWf_freeBytes {c : Chip} {n : Nat} (h : StoresWf c) : StoresWf (c.freeBytes n).2 := h

theorem storesWf_readVa {c : Chip} {n va len : Nat} (h : StoresWf c) : StoresWf (c.readVa n va len).1 := by
  obtain ⟨y, e⟩ := readVaAs_frame c n .active va len
  rw [Chip.readVa, e]
  exact h

theorem storesWf_synced {c : Chip} {d : Die} {t : Thread} (h : StoresWf c) : StoresWf (c.synced d t) :=
  storesWf_modOp (c := { c with syncs := c.syncs + 1 }) h

theorem storesWf_useLine {c : Chip} {r : ThreadRef} {l : Nat × Nat} (h : StoresWf c) : StoresWf (c.useLine r l) := storesWf_modDie h

/-! ### Traps and faults (R136, R156, R157) -/

theorem storesWf_sendAborts {c : Chip} {d : Die} {s : Stream} {g status : Nat} (h : StoresWf c) : StoresWf (c.sendAborts d s g status) := by
  refine storesWf_foldl (fun c p h => ?_) h
  split <;> exact h

/-- An op that is abandoned leaves the stores canonical. -/
theorem storesWf_scrambleOpt {c : Chip} {n : Nat} {d : Die} {pos : Nat} {o : Option Op} (h : StoresWf c) :
    StoresWf (match o with | some o => c.scramble n d pos o | none => c) := by
  cases o with
  | none => exact h
  | some o => exact storesWf_scramble h

theorem storesWf_stopStream {c : Chip} {d : Die} {q : Nat} {st : BitVec 4} {status : Nat} (h : StoresWf c) :
    StoresWf (c.stopStream d q st status) := by
  unfold Chip.stopStream
  split
  · exact h
  · rename_i s _
    have h1 := storesWf_foldl (l := s.liveGroups) (f := fun c g => c.sendAborts d s g status) (fun c g h => storesWf_sendAborts h) h
    have h2 := storesWf_foldl (l := s.units) (f := fun c kv => match kv.2.op with
      | some o => c.scramble s.ctx d kv.1 o
      | none => c) (fun c kv h => storesWf_scrambleOpt h) h1
    have h3 := storesWf_foldl (l := s.bucket) (f := fun c o => c.scramble s.ctx d 117 o) (fun c o h => storesWf_scramble h) h2
    refine storesWf_modSide (storesWf_congr (storesWf_foldl (fun c kv h => ?_)
      (storesWf_modDie (storesWf_modDie (storesWf_modDie (storesWf_modStream h3))))) rfl rfl rfl rfl rfl)
    split
    · exact storesWf_modPlaten h
    · exact h

theorem storesWf_abandonUnit {c : Chip} {d : Die} {q pos : Nat} (h : StoresWf c) : StoresWf (c.abandonUnit d q pos) := by
  have aborts {c : Chip} (g : Option Nat) (s : Stream) (h : StoresWf c) :
      StoresWf (match g with | some g => c.sendAborts d s g 0x0407 | none => c) := by
    cases g with
    | none => exact h
    | some g => exact storesWf_sendAborts h
  have flows {c : Chip} (h : StoresWf c) : StoresWf (if pos < 64 then c.modPlaten d pos (fun p => { p with flows := [] }) else c) := by
    split
    · exact storesWf_modPlaten h
    · exact h
  unfold Chip.abandonUnit
  split
  · exact h
  · rename_i s _
    have h1 := storesWf_modStream (d := d) (q := q) (f := fun s => { s with units := tput {} s.units pos {} })
      (flows (storesWf_scrambleOpt (n := s.ctx) (d := d) (pos := pos) (o := (s.unit pos).op)
        (aborts (if pos = 117 then s.liveGroup else none) s h)))
    dsimp only
    split
    · exact storesWf_modDie h1
    · split
      · exact storesWf_modDie h1
      · exact h1

theorem storesWf_stopFrom {c : Chip} {d : Die} {q pos : Nat} {st : BitVec 4} (h : StoresWf c) : StoresWf (c.stopFrom d q pos st) :=
  storesWf_modStream (storesWf_modStream (storesWf_abandonUnit h))

theorem storesWf_raiseTrap {c : Chip} {d : Die} {q slot cause code : Nat} {pc : W32} (h : StoresWf c) :
    StoresWf (c.raiseTrap d q slot cause code pc) := by
  unfold Chip.raiseTrap
  split
  · exact h
  · split
    · exact h
    · dsimp only
      split
      · exact storesWf_stopFrom (storesWf_modCtx (storesWf_modSide h))
      · exact storesWf_modStream (storesWf_stopStream (storesWf_modCtx (storesWf_modSide h)))

theorem storesWf_midFault {c : Chip} {d : Die} {q pos desc list : Nat} {f : AccFault} (h : StoresWf c) :
    StoresWf (c.midFault d q pos desc list f) := by
  unfold Chip.midFault
  split
  · exact h
  · split
    · exact h
    · exact storesWf_stopFrom (storesWf_scrambleRun (storesWf_modCtx (storesWf_modStream (storesWf_modSide h))))

/-! ### Threads (R159, R168, R171) -/

theorem storesWf_instrFault {c : Chip} {r : ThreadRef} {t : Thread} (h : StoresWf c) : StoresWf (c.instrFault r t) :=
  storesWf_raiseTrap (storesWf_modSide h)

theorem storesWf_memFault {c : Chip} {r : ThreadRef} {t : Thread} {f : AccFault} (h : StoresWf c) : StoresWf (c.memFault r t f) :=
  storesWf_midFault (storesWf_modSide h)

/-- An instruction that issues keeps the stores canonical where its own work does. -/
theorem storesWf_issue {c : Chip} {r : ThreadRef} {word : Nat} {f : Chip → Thread → Chip} (hf : ∀ c t, StoresWf c → StoresWf (f c t))
    (h : StoresWf c) : StoresWf (c.issue r word f) := by
  unfold Chip.issue
  split
  · exact h
  · split
    · exact h
    · split
      · exact storesWf_instrFault h
      · split
        · exact storesWf_modDie (storesWf_setThread h)
        · dsimp only
          split
          · exact storesWf_setThread h
          · split
            · exact hf _ _ (storesWf_useLine (storesWf_modDie h))
            · split
              · exact h
              · exact storesWf_instrFault h

theorem storesWf_placeRead {c : Chip} {x : Nat} {d : Die} {n : Nat} {p : Place} (h : StoresWf c) : StoresWf (c.placeRead x d n p).1 := by
  cases p with
  | va a => exact storesWf_readVa h
  | platen pt off => exact h
  | shared st off => exact h
  | entry i b => exact h

theorem storesWf_placeWrite {c : Chip} {x : Nat} {d : Die} {bs : List Byte} {p : Place} (h : StoresWf c) :
    StoresWf (c.placeWrite x d bs p).1 := by
  obtain ⟨_, _, hplaten, _, hshared⟩ := id h
  cases p with
  | va a => exact storesWf_writeVa h
  | platen pt off => exact storesWf_platenMem h (wf_mwrite hplaten)
  | shared st off => exact storesWf_sharedMem h (wf_mwrite hshared)
  | entry i b => exact storesWf_modEntry h

theorem storesWf_stored {c : Chip} {r : ThreadRef} {t : Thread} {y : Out} {bs : List Byte} (h : StoresWf c) :
    StoresWf (c.stored r t y bs).1 := by
  unfold Chip.stored
  dsimp only
  split
  · exact storesWf_freeBytes h
  · exact h

theorem storesWf_storeAt {c : Chip} {r : ThreadRef} {t t' : Thread} {p : Place} {bs : List Byte} (h : StoresWf c) :
    StoresWf (c.storeAt r t t' p bs) := by
  unfold Chip.storeAt
  dsimp only
  split
  · exact storesWf_setThread (storesWf_placeWrite h)
  · split
    · exact storesWf_setThread h
    · split
      · exact storesWf_memFault (storesWf_placeWrite (storesWf_stored h))
      · exact storesWf_setThread (storesWf_modOp (storesWf_placeWrite (storesWf_stored h)))

theorem storesWf_store {c : Chip} {r : ThreadRef} {t : Thread} {a n : Nat} {v : W64} (h : StoresWf c) : StoresWf (c.store r t a n v) := by
  unfold Chip.store
  split
  · exact storesWf_memFault h
  · exact storesWf_storeAt h

theorem storesWf_atomic {c : Chip} {r : ThreadRef} {t : Thread} {d : Reg} {a : Nat} {f : W64 → Option W64} (h : StoresWf c) :
    StoresWf (c.atomic r t d a f) := by
  unfold Chip.atomic
  split
  · exact storesWf_memFault h
  · dsimp only
    split
    · exact storesWf_memFault (storesWf_placeRead h)
    · split
      · exact storesWf_setThread (storesWf_synced (storesWf_placeRead h))
      · exact storesWf_storeAt (storesWf_synced (storesWf_placeRead h))

/-! ### Host memory (R338) -/

theorem storesWf_host {c : Chip} {m : Memory} (h : StoresWf c) (hm : m.wf = true) : StoresWf { c with host := m } := by
  obtain ⟨_, hrest⟩ := h
  exact ⟨hm, hrest⟩

theorem postKept_wf {f : Nat} {m : Memory} {r : Ring} (h : m.wf = true) : (postKept f m r).1.wf = true := by
  induction f generalizing m r with
  | zero => exact h
  | succ f ih =>
    unfold postKept
    split
    · exact h
    · split
      · exact h
      · exact ih (wf_mwrite h)

theorem storesWf_drainRing {c : Chip} {n r : Nat} (h : StoresWf c) : StoresWf (c.drainRing n r) := by
  have hhost := wf_mwrite (a := (c.ring n r).wb.toNat)
    (bs := leBytes 4 (postKept (c.ring n r).kept.length c.host (c.ring n r)).2.head.toNat ++
      leBytes 4 (postKept (c.ring n r).kept.length c.host (c.ring n r)).2.cplTail.toNat)
    (postKept_wf (f := (c.ring n r).kept.length) (r := c.ring n r) h.1)
  unfold Chip.drainRing
  dsimp only
  split
  · exact h
  · split <;> exact ⟨hhost, h.2⟩

theorem storesWf_done {c : Chip} {hd : Hdr} {status : W16} {detail value : W32} (h : StoresWf c) :
    StoresWf (c.done hd status detail value) := by
  unfold Chip.done
  split
  · exact h
  · exact storesWf_drainRing (storesWf_modCtx h)

/-- A packet command keeps the stores canonical where its own work does. -/
theorem storesWf_command {c : Chip} {hd : Hdr} {pf needCtx : Bool} {f : Chip → Chip} (hf : StoresWf (f c)) (h : StoresWf c) :
    StoresWf (c.command hd pf needCtx f) := by
  unfold Chip.command
  split
  · exact storesWf_done h
  · split
    · exact storesWf_done h
    · exact hf

theorem storesWf_doorbell {c : Chip} {fn ctx ring : Nat} {tail : W32} {stores : List (Nat × Byte)} (h : StoresWf c) :
    StoresWf (c.doorbell fn ctx ring tail stores) := by
  have h1 := storesWf_host h (wf_foldl_mput_by (l := stores) (f := (·.1)) (g := (·.2)) h.1)
  unfold Chip.doorbell
  dsimp only
  split
  · split <;> exact h1
  · exact h1

theorem storesWf_hostWrite {c : Chip} {n va : Nat} {bs : List Byte} (h : StoresWf c) : StoresWf (c.hostWrite n va bs) := by
  unfold Chip.hostWrite
  split
  · exact storesWf_writeVa h
  · split <;> exact h

theorem storesWf_bar4 {c : Chip} {fn off len : Nat} {data : Option (List Byte)} (h : StoresWf c) : StoresWf (c.bar4 fn off data len) := by
  unfold Chip.bar4
  split
  · exact h
  · dsimp only
    split
    · exact storesWf_hostWrite h
    · split
      · exact storesWf_congr (storesWf_readVa h) rfl rfl rfl rfl rfl
      · exact storesWf_congr (storesWf_readVa h) rfl rfl rfl rfl rfl

/-! ### The debug window and the loss of everything -/

theorem storesWf_ownedWrite {c : Chip} {o : Option Owner} {bs : List Byte} (h : StoresWf c) : StoresWf (c.ownedWrite o bs) := by
  cases o with
  | none => exact h
  | some o => exact storesWf_pokePiece h

theorem storesWf_mdataWrite {c : Chip} {d : Die} {data : W64} (h : StoresWf c) : StoresWf (c.mdataWrite d data) := by
  have sram {c : Chip} {q : Prop} [Decidable q] {c' : Chip} (h : StoresWf c) (h' : StoresWf c') : StoresWf (if q then c' else c) := by
    split
    · exact h'
    · exact h
  unfold Chip.mdataWrite
  dsimp only
  split
  · exact storesWf_modDie h
  · have h1 : StoresWf (c.modDie d (fun m => { m with dbg := { m.dbg with mdataWr := data } })) := storesWf_modDie h
    obtain ⟨_, _, hplaten, _, hshared⟩ := id h1
    split
    · exact storesWf_ownedWrite h1
    · exact storesWf_ownedWrite h1
    · exact sram h1 (storesWf_platenMem h1 (wf_mwrite hplaten))
    · exact sram h1 (storesWf_sharedMem h1 (wf_mwrite hshared))
    · exact storesWf_modEntry h1
    · exact h1

/-- What survives a loss of power: host memory, which is outside; every store of the module is empty. -/
theorem storesWf_afresh {c : Chip} (h : StoresWf c) : StoresWf c.afresh := by
  obtain ⟨hhost, _⟩ := h
  exact ⟨hhost, rfl, rfl, rfl, rfl⟩

/-- Settles O60: each command writes its bytes by stores that keep the canonical form, and traps and faults only free bytes. -/
theorem storesStayCanonical : Obligations.StoresStayCanonical := by
  unfold Obligations.StoresStayCanonical
  intro p c h keeps
  have keeps_of {i : Instr} {c' : Chip} (hrun : exec i ⟨p, c⟩ = .next ⟨p, c'⟩) (h' : StoresWf c') : keeps i := by
    intro s hs
    rw [hrun] at hs
    cases hs
    exact h'
  refine ⟨fun t a b imm => ⟨keeps_of rfl ?_, keeps_of rfl ?_, keeps_of rfl ?_⟩, fun t d a b => ⟨keeps_of rfl ?_, keeps_of rfl ?_⟩,
    fun fn ctx ring tail stores => keeps_of rfl (storesWf_doorbell h), fun fn off data len => keeps_of rfl (storesWf_bar4 h),
    fun n va => keeps_of rfl ?_, fun hd ha => ⟨keeps_of rfl ?_, keeps_of rfl ?_⟩, fun d w => keeps_of rfl (storesWf_mdataWrite h),
    fun q => keeps_of rfl ?_, keeps_of rfl ?_, keeps_of rfl ?_⟩
  · exact storesWf_issue (fun c t h => storesWf_store h) h
  · exact storesWf_issue (fun c t h => storesWf_store h) h
  · exact storesWf_issue (fun c t h => storesWf_store h) h
  · exact storesWf_issue (fun c t h => storesWf_atomic h) h
  · exact storesWf_issue (fun c t h => storesWf_atomic h) h
  · dsimp only
    split
    · exact storesWf_firstWrite h
    · exact h
  · exact storesWf_command (storesWf_done (storesWf_host h (wf_mwrite h.1))) h
  · exact storesWf_command (storesWf_done (storesWf_host h (wf_mwrite h.1))) h
  · dsimp only
    split
    · exact h
    · exact storesWf_zeroStores h
  · dsimp only
    split
    · exact h
    · exact storesWf_congr (storesWf_afresh h) rfl rfl rfl rfl rfl
  · dsimp only
    split
    · exact h
    · exact storesWf_afresh h

end Sys2Proof.Machine
end

section
/-!
PROOFS. Stacks: traffic windows (R98, R99), the migration of a page (R101) and the gating level (R372).
-/
namespace Sys2Proof.Machine

/-! ### Windows (R98, R99) -/

section
variable {k : StackSt} {st : Nat} {ch inter : List Nat} {ratio : Nat} {now : W64}

theorem window_balanced (h : (chanImbalance ch || stackImbalance st inter) = false) :
    let k' := k.window st ch inter ratio now
    k'.badRun = 0 ∧ k'.goodRun = k.goodRun + 1 ∧ (99 ≤ k.goodRun → k'.chanHot = false ∧ k'.stackHot = false) := by
  by_cases hrun : k.goodRun + 1 < 100
  · simp only [StackSt.window, h, Bool.false_eq_true, if_false, if_pos hrun, true_and]
    exact fun h => absurd hrun (by omega)
  · simp only [StackSt.window, h, Bool.false_eq_true, if_false, if_neg hrun, true_and]
    exact fun _ => trivial

theorem window_unbalanced (h : (chanImbalance ch || stackImbalance st inter) = true) :
    let k' := k.window st ch inter ratio now
    k'.badRun = k.badRun + 1 ∧ k'.goodRun = 0 ∧ (999 ≤ k.badRun → k'.chanHot = true ∨ k'.stackHot = true) := by
  by_cases hrun : k.badRun + 1 < 1000 ∨ k.chanHot = true ∨ k.stackHot = true
  · simp only [StackSt.window, h, if_true, if_pos hrun, true_and]
    exact fun hbad => hrun.resolve_left (by omega)
  · simp only [StackSt.window, h, if_true, if_neg hrun, true_and]
    exact fun _ => by simpa using h

end

/-! ### The switch of a migration (R101) -/

/-- A place that means the old copy means the new one. -/
def PageCopy.moved (old new k : PageCopy) : PageCopy := if k.phys = old.phys then new else k

/-- A mapping after the switch. -/
def Page.moved (old new : PageCopy) (p : Page) : Page :=
  { p with copyA := old.moved new p.copyA, copyB := p.copyB.map (old.moved new) }

theorem copy_moved (old new : PageCopy) (p : Page) (b : Bool) (h : (p.copy b).phys = old.phys) : (p.moved old new).copy b = new := by
  cases b with
  | false => exact if_pos h
  | true =>
    unfold Page.copy at h ⊢
    unfold Page.moved
    cases hb : p.copyB with
    | none => rw [hb] at h; exact if_pos h
    | some k => rw [hb] at h; exact if_pos h

/-- Every mapping of a context is redirected. -/
theorem redirect_pages {c : Chip} {old new : PageCopy} {n vp : Nat} (hw : Tab.wf ({} : Ctx) c.ctxs = true)
    (hp : Tab.wf none (c.ctx n).pages = true) :
    tget none ((c.redirect old new).ctx n).pages vp = (tget none (c.ctx n).pages vp).map (Page.moved old new) := by
  have hctx : (c.redirect old new).ctx n =
      { c.ctx n with pages := tmap none (fun _ g => g.map (Page.moved old new)) (c.ctx n).pages } :=
    tget_tmap (f := fun _ (x : Ctx) => { x with pages := tmap none (fun _ g => g.map (Page.moved old new)) x.pages }) (fun _ => rfl) hw
  rw [hctx]
  exact tget_tmap (f := fun _ (g : Option Page) => g.map (Page.moved old new)) (fun _ => rfl) hp

/-- A migration whose page still stands switches to its new place. -/
theorem migrationSwitch_of_page {c : Chip} {st : Nat} {m : Migration} {g : Page} (hm : (c.stk st).mig = some m)
    (hg : tget none (c.ctx m.ctx).pages m.page = some g) (hs : g.spilled = false) (hgr : g.granted = false)
    (hpl : (g.copy m.copyB).phys.place = m.fresh.place) :
    let old := g.copy m.copyB
    let new : PageCopy := { old with phys := m.fresh, salt := old.salt + 1 }
    let c1 := ((c.modStk st (fun k => { k with mig := none })).copyOver old new).redirect old new
    c.migrationSwitch st = (((c1.modDie .w (·.keep m.fresh old)).modDie .e (·.keep m.fresh old)).modStk st (fun k =>
      { k with old := [old.phys], done := satAdd k.done 1 })).landHeld m := by
  have hcond : ¬ (g.spilled = true ∨ g.granted = true ∨ (g.copy m.copyB).phys.place ≠ m.fresh.place) := by simp [hs, hgr, hpl]
  unfold Chip.migrationSwitch
  simp only [hm, ctx_modStk, hg, if_neg hcond] <;> rfl

theorem snoop_stks_wf {c : Chip} {u : Nat} (h : Tab.wf ({} : StackSt) c.stks = true) : Tab.wf ({} : StackSt) (c.snoop u).stks = true := by
  unfold Chip.snoop
  dsimp only
  split
  · exact h
  · exact wf_tmod (f := fun x => { x with presence := tput 0 x.presence u 0 }) h

theorem snoopCopy_stks_wf {c : Chip} {k : PageCopy} (h : Tab.wf ({} : StackSt) c.stks = true) :
    Tab.wf ({} : StackSt) (c.snoopCopy k).stks = true := by
  unfold Chip.snoopCopy
  generalize ((List.range 8).flatMap _).filter _ = l
  induction l generalizing c with
  | nil => exact h
  | cons u l ih => exact ih (snoop_stks_wf h)

/-- The old space of a migration that no list names. -/
theorem migrationFree_of_unused {c : Chip} {st : Nat} {old : Phys} (ho : (c.stk st).old = [old]) (hw : c.w.viewUses old = false)
    (he : c.e.viewUses old = false) :
    let k : PageCopy := { phys := old, salt := 0, hash := 0, written := false }
    c.migrationFree st =
      (({ c with dram := zeroCopy c.dram k, ecc := zeroEcc c.ecc k } : Chip).snoopCopy k).modStk st (fun k => { k with old := [] }) := by
  simp only [Chip.migrationFree, ho, List.any_cons, List.any_nil, hw, he, Bool.or_self, Bool.false_eq_true, if_false, List.foldl_cons,
    List.foldl_nil]

/-- A period's gating (R372): the level and the temperature of the stack, and at most a notice of the module. -/
theorem gatingPeriod_stks (c : Chip) (st : Nat) (t : Byte) :
    let g := (c.stk st).gate
    let g' := if 95 ≤ t.toNat then (if g = 7 then 7 else g + 1) else if t.toNat < 92 then (if g = 0 then 0 else g - 1) else g
    (c.gatingPeriod st t).stks = (c.modStk st (fun k => { k with gate := g', temp := t })).stks := by
  unfold Chip.gatingPeriod
  dsimp only
  generalize (if 95 ≤ t.toNat then _ else _ : BitVec 3) = g'
  split <;> rfl

/-- Settles O55: windows count and judge; a migration takes a place, switches every mapping to it and frees the old one; a period moves
the gating level. -/
theorem stackEvents : Obligations.StackEvents := by
  unfold Obligations.StackEvents
  intro p c st
  refine ⟨fun ch inter h => ?_, fun k ch inter ratio now => ?_, fun samples n vp g b hmay hhot hlive => ⟨fun f hf => ?_, fun hf => ?_⟩,
    fun m g hm hg hs hgr hpl => ⟨?_, fun hwf hpw => ?_⟩, fun hold => ?_, fun old ho hw he hwf => ?_, fun t hst hwf => ?_⟩
  · exact congrArg (fun k => Host.Outcome.next (State.mk p k)) (if_neg h)
  · refine ⟨fun h => ?_, fun h => ?_, fun h => ?_, fun h => ?_⟩
    · obtain ⟨hbad, hgood, _⟩ := window_unbalanced (k := k) (ratio := ratio) (now := now) h
      exact ⟨hbad, hgood⟩
    · obtain ⟨hbad, hgood, _⟩ := window_balanced (k := k) (ratio := ratio) (now := now) h
      exact ⟨hbad, hgood⟩
    · exact (window_unbalanced (k := k) (ratio := ratio) (now := now) h).2.2
    · exact (window_balanced (k := k) (ratio := ratio) (now := now) h).2.2
  · refine congrArg (fun k => Host.Outcome.next (State.mk p k)) ?_
    simp only [Chip.migrate, hmay, Bool.not_true, Bool.false_eq_true, if_false, hhot, hlive, hf]
  · refine congrArg (fun k => Host.Outcome.next (State.mk p k)) ?_
    simp only [Chip.migrate, hmay, Bool.not_true, Bool.false_eq_true, if_false, hhot, hlive, hf]
  · exact congrArg (fun k => Host.Outcome.next (State.mk p k)) (migrationSwitch_of_page hm hg hs hgr hpl)
  · refine ⟨g.moved (g.copy m.copyB) { g.copy m.copyB with phys := m.fresh, salt := (g.copy m.copyB).salt + 1 }, ?_,
      copy_moved _ _ _ _ rfl⟩
    have hr := redirect_pages (c := (c.modStk st (fun k => { k with mig := none })).copyOver (g.copy m.copyB)
      { g.copy m.copyB with phys := m.fresh, salt := (g.copy m.copyB).salt + 1 }) (old := g.copy m.copyB)
      (new := { g.copy m.copyB with phys := m.fresh, salt := (g.copy m.copyB).salt + 1 }) (n := m.ctx) (vp := m.page) hwf hpw
    exact hr.trans (congrArg _ hg)
  · refine congrArg (fun k => Host.Outcome.next (State.mk p k)) (if_pos ?_)
    obtain ⟨k, hk, huse⟩ := hold
    exact List.any_eq_true.2 ⟨k, hk, by simpa using huse⟩
  · refine ⟨_, congrArg (fun k => Host.Outcome.next (State.mk p k)) (migrationFree_of_unused ho hw he), ?_, ?_, ?_⟩
    · rw [stk_modStk_same _ (snoopCopy_stks_wf (by exact hwf))]
    · exact snoopCopy_ctxs _ _
    · exact snoopCopy_dram _ _
  · have hstks := gatingPeriod_stks c st t
    refine ⟨_, congrArg (fun k => Host.Outcome.next (State.mk p k)) (if_neg (by omega)), ?_, fun m hm => ?_⟩
    · unfold Chip.stk at *
      rw [hstks]
      exact (stk_modStk_same c hwf).trans rfl
    · unfold Chip.stk
      rw [hstks]
      exact stk_modStk_ne c _ hm

end Sys2Proof.Machine
end

section
/-!
PROOFS. Power: the frequency controller (R368), the end of a sprint (R371), the clip-share loop (R376) and the thermal trip (R373).
-/
namespace Sys2Proof.Machine

/-! ### The rule of a control period (R368) -/

/-- The rules in their order: they keep the target between 900 MHz and the cap, and only the fourth raises it, by 50 MHz. -/
theorem freqRule_bounds (watts ceiling hot : Nat) (above sprinting rise : Bool) {t : Nat} (ht : 900 ≤ t) :
    let r := freqRule watts ceiling hot above sprinting rise t
    900 ≤ r.2 ∧ r.2 ≤ max t (if sprinting then 2100 else 1800) ∧ (hot < 100 → above = true → r.2 = max 900 (t - 50)) ∧
      (t < r.2 → above = false ∧ watts + 30 ≤ ceiling ∧ hot ≤ 95 ∧ rise = true ∧ r.2 ≤ t + 50) := by
  unfold freqRule
  generalize (if sprinting = true then 2100 else 1800) = cap
  dsimp only
  by_cases h110 : 110 ≤ hot
  · rw [if_pos h110]
    exact ⟨le_refl 900, by simp; omega, fun h => by omega, fun h => by simp at h; omega⟩
  by_cases h100 : 100 ≤ hot
  · rw [if_neg h110, if_pos h100]
    exact ⟨by simp, by simp; omega, fun h => by omega, fun h => by simp at h; omega⟩
  by_cases habove : above = true
  · rw [if_neg h110, if_neg h100, if_pos habove]
    exact ⟨by simp, by simp; omega, fun _ _ => rfl, fun h => by simp at h; omega⟩
  rw [if_neg h110, if_neg h100, if_neg habove]
  by_cases hroom : watts + 30 ≤ ceiling ∧ hot ≤ 95 ∧ rise = true
  · obtain ⟨hw, hhot, hrise⟩ := hroom
    rw [if_pos ⟨hw, hhot, hrise⟩]
    exact ⟨by simp; omega, by simp; omega, fun _ h => absurd h habove, fun _ => ⟨by simpa using habove, hw, hhot, hrise, by simp⟩⟩
  · rw [if_neg hroom]
    exact ⟨ht, by simp, fun _ h => absurd h habove, fun h => absurd h (lt_irrefl t)⟩

theorem retarget_target (m : DieSt) {t : Nat} (ht : t < 2 ^ 16) : (m.retarget t).target.toNat = t := by
  unfold DieSt.retarget
  split
  · assumption
  · exact (BitVec.toNat_ofNat _ _).trans (Nat.mod_eq_of_lt ht)

/-! ### A control period -/

/-- The power is taken. -/
def Chip.metered (c : Chip) (watts : W16) (current : Bool) : Chip :=
  { c with pwr := { c.pwr with watts := watts, peak := if c.pwr.peak < watts then watts else c.pwr.peak, current := current
                               overCeil := current || decide (c.pwr.ceiling < watts.toNat) } }

/-- A period that lowered the target counts as a throttle crossing of its cause. -/
def Chip.throttled (c : Chip) (rule : Nat) : Chip :=
  match rule with
  | 1 => { c with pwr := c.pwr.crossing 3 c.now }
  | 2 => { c with pwr := c.pwr.crossing 2 c.now }
  | 3 => { c with pwr := c.pwr.crossing 1 c.now }
  | _ => c

/-- The target may rise: no emergency, or 100 ms of cool. -/
def DieSt.mayRise (m : DieSt) (hot : Byte) : Bool := !m.emergency || (decide (100 ≤ m.coolMs) && decide (hot.toNat < 95))

/-- The rule that the period takes. -/
def Chip.ruled (c : Chip) (d : Die) (watts : W16) (hot : Byte) (current : Bool) : Nat × Nat :=
  freqRule watts.toNat c.pwr.ceiling hot.toNat (current || decide (c.pwr.ceiling < watts.toNat)) c.pwr.sprinting ((c.die d).mayRise hot)
    (c.die d).target.toNat

/-- The die after the rule. -/
def DieSt.controlled (m : DieSt) (r : Nat × Nat) (hot : Byte) (rise : Bool) : DieSt :=
  { (m.retarget r.2) with
    emergency := decide (r.1 = 1) || (m.emergency && !rise)
    coolMs := if r.1 = 1 ∨ !decide (hot.toNat < 95) then 0 else m.coolMs + 1 }

/-- A period once the temperature is taken. -/
def Chip.regulated (c : Chip) (d : Die) (watts : W16) (hotspot : Byte) (current : Bool) : Chip :=
  let above := current || decide (c.pwr.ceiling < watts.toNat)
  let c := { c with pwr := { c.pwr with watts := watts, peak := if c.pwr.peak < watts then watts else c.pwr.peak, current := current, overCeil := above } }
  let m := c.die d
  let cooled := decide (hotspot.toNat < 95)
  let rise := !m.emergency || (decide (100 ≤ m.coolMs) && cooled)
  let r := freqRule watts.toNat c.pwr.ceiling hotspot.toNat above c.pwr.sprinting rise m.target.toNat
  let c := c.modDie d (fun m =>
    { (m.retarget r.2) with emergency := decide (r.1 = 1) || (m.emergency && !rise)
                            coolMs := if r.1 = 1 ∨ !cooled then 0 else m.coolMs + 1 })
  match r.1 with
  | 1 => { c with pwr := c.pwr.crossing 3 c.now }
  | 2 => { c with pwr := c.pwr.crossing 2 c.now }
  | 3 => { c with pwr := c.pwr.crossing 1 c.now }
  | _ => c

theorem metered_die (c : Chip) (watts : W16) (current : Bool) (d : Die) : (c.metered watts current).die d = c.die d := by
  cases d <;> rfl

theorem regulated_eq (c : Chip) (d : Die) (watts : W16) (hot : Byte) (current : Bool) :
    c.regulated d watts hot current =
      ((c.metered watts current).modDie d (fun m => m.controlled (c.ruled d watts hot current) hot ((c.die d).mayRise hot))).throttled
        (c.ruled d watts hot current).1 := by
  unfold Chip.regulated
  extract_lets above x c' m cooled rise r c2
  have hm : m = c.die d := metered_die c watts current d
  have hrise : rise = (c.die d).mayRise hot := by rw [← hm]; rfl
  have hr : r = c.ruled d watts hot current := by
    change freqRule _ _ _ _ _ rise m.target.toNat = _
    rw [hrise, hm]
    rfl
  rw [← hr, ← hrise]
  rfl

theorem die_setPwr (c : Chip) (x : Pwr) (d : Die) : ({ c with pwr := x } : Chip).die d = c.die d := by
  cases d <;> rfl

theorem throttled_frame (c : Chip) (rule : Nat) :
    ∃ x : Pwr, c.throttled rule = { c with pwr := x } ∧ x.watts = c.pwr.watts ∧ x.sprinting = c.pwr.sprinting := by
  unfold Chip.throttled
  split <;> exact ⟨_, rfl, rfl, rfl⟩

theorem endSprint_sprinting (c : Chip) : c.endSprint.pwr.sprinting = false := by
  unfold Chip.endSprint
  split
  · rfl
  · rename_i h
    simpa using h

theorem endSprint_die (c : Chip) (d : Die) : c.endSprint.die d = c.die d := by
  unfold Chip.endSprint
  split
  · cases d <;> rfl
  · rfl

theorem countBoost_target (m : DieSt) : m.countBoost.target = m.target := by
  unfold DieSt.countBoost
  dsimp only
  split
  · split <;> rfl
  · rfl

theorem ite_storeBoost_die (c : Chip) (d : Die) (p : Prop) [Decidable p] : (if p then c.storeBoost else c).die d = c.die d := by
  split
  · cases d <;> rfl
  · rfl

theorem ite_endSprint_die (c : Chip) (d : Die) (p : Prop) [Decidable p] : (if p then c.endSprint else c).die d = c.die d := by
  split
  · exact endSprint_die c d
  · rfl

theorem sprintOver_of_hot {c : Chip} {d : Die} (h : 100 ≤ (c.die d).hotspot.toNat) : c.sprintOver = true := by
  cases d
  · simp [Chip.sprintOver, show 100 ≤ c.w.hotspot.toNat from h]
  · simp [Chip.sprintOver, show 100 ≤ c.e.hotspot.toNat from h]

/-- A period takes the die's temperature and ends a sprint that is over; what then stands is regulated. -/
theorem frequencyControl_eq (c : Chip) (d : Die) (watts : W16) (hot : Byte) (current : Bool) :
    ∃ k : Chip, c.frequencyControl d watts hot current = k.regulated d watts hot current ∧
      k.die d = { (c.die d).countBoost with hotspot := hot } ∧ (100 ≤ hot.toNat → k.pwr.sprinting = false) := by
  let c0 := c.modDie d (fun m => { m.countBoost with hotspot := hot })
  let c1 := if c0.boostDue then c0.storeBoost else c0
  have hc1 : c1.die d = { (c.die d).countBoost with hotspot := hot } := (ite_storeBoost_die c0 d _).trans (die_modDie c d _)
  refine ⟨if c1.sprintOver then c1.endSprint else c1, rfl, (ite_endSprint_die c1 d _).trans hc1, fun h => ?_⟩
  rw [if_pos (sprintOver_of_hot (d := d) (by rw [hc1]; exact h))]
  exact endSprint_sprinting c1

/-- What a control period leaves of its die and of the power state. -/
theorem regulated_spec (c : Chip) (d : Die) (watts : W16) (hot : Byte) (current : Bool) :
    (c.regulated d watts hot current).die d = (c.die d).controlled (c.ruled d watts hot current) hot ((c.die d).mayRise hot) ∧
      (c.regulated d watts hot current).pwr.watts = watts ∧
      (c.regulated d watts hot current).pwr.sprinting = c.pwr.sprinting := by
  rw [regulated_eq]
  generalize c.ruled d watts hot current = r
  obtain ⟨x, hx, hwatts, hsprint⟩ := throttled_frame ((c.metered watts current).modDie d
    (fun m => m.controlled r hot ((c.die d).mayRise hot))) r.1
  rw [hx, die_setPwr, die_modDie, metered_die]
  rw [modDie_pwr] at hwatts hsprint
  exact ⟨rfl, hwatts, hsprint⟩

/-! ### The thermal trip (R373) -/

theorem mem_of_tget_ne {α : Type} {d : α} {t : Tab α} {n : Nat} (h : tget d t n ≠ d) : (n, tget d t n) ∈ t := by
  induction t with
  | nil => exact absurd rfl h
  | cons kv t ih =>
    obtain ⟨k, v⟩ := kv
    by_cases hk : k = n
    · subst hk; simp [tget]
    · simp only [tget, if_neg hk] at h ⊢
      exact List.mem_cons_of_mem _ (ih h)

theorem tripDue_of_hot {c : Chip} {d : Die} (h : 115 ≤ (c.die d).hotspot.toNat ∨ ∃ st, st < 8 ∧ 110 ≤ (c.stk st).temp.toNat) :
    c.tripDue = true := by
  unfold Chip.tripDue
  rcases h with h | ⟨st, _, h⟩
  · cases d
    · simp [show 115 ≤ c.w.hotspot.toNat from h]
    · simp [show 115 ≤ c.e.hotspot.toNat from h]
  · have hne : c.stk st ≠ {} := by
      intro he
      rw [he] at h
      exact absurd h (by decide)
    have : c.stks.any (fun kv => decide (110 ≤ kv.2.temp.toNat)) = true :=
      List.any_eq_true.2 ⟨_, mem_of_tget_ne hne, decide_eq_true h⟩
    simp [this]

/-- Settles O56: the controller's target comes from one rule, which the temperature decides first; the other events are one update
each. -/
theorem powerEvents : Obligations.PowerEvents := by
  unfold Obligations.PowerEvents
  intro p c d
  refine ⟨fun w hot lim => ?_, fun watts ceiling hot above sprinting rise t ht => freqRule_bounds watts ceiling hot above sprinting rise ht,
    fun h => ⟨congrArg (fun k => Host.Outcome.next (State.mk p k)) (if_pos h), endSprint_sprinting c⟩,
    fun h => congrArg (fun k => Host.Outcome.next (State.mk p k)) (if_neg (by simp [h])), fun pt hpt => ?_, fun n tag => ?_, fun hon hdue => ?_⟩
  · obtain ⟨k, hrun, hm, hcool⟩ := frequencyControl_eq c d w hot lim
    obtain ⟨hdie, hwatts, hsprint⟩ := regulated_spec k d w hot lim
    have htarget : (k.die d).target = (c.die d).target := by rw [hm]; exact countBoost_target _
    refine ⟨_, congrArg (fun k => Host.Outcome.next (State.mk p k)) hrun, hwatts, ?_, fun h => ⟨?_, ?_⟩, fun h1 h2 => ?_,
      fun h => hsprint.trans (hcool h)⟩
    · rw [hdie, DieSt.controlled, hm]
      unfold DieSt.retarget
      dsimp only
      split <;> rfl
    · rw [hdie]
      refine BitVec.eq_of_toNat_eq ?_
      have hr : (k.ruled d w hot lim).2 = 900 := by rw [Chip.ruled, freqRule]; simp [h]
      exact (retarget_target _ (by omega)).trans hr
    · rw [hdie]
      simp [DieSt.controlled, Chip.ruled, freqRule, h]
    · have hr : (k.ruled d w hot lim).2 = max 900 ((c.die d).target.toNat - 50) := by
        rw [Chip.ruled, freqRule, htarget]
        simp [h1, show ¬ 110 ≤ hot.toNat by omega]
      have hlt := (c.die d).target.isLt
      rw [hdie]
      exact (retarget_target _ (by rw [hr]; omega)).trans hr
  · have hnot : ¬ 64 ≤ pt := by omega
    refine ⟨?_, ?_, ?_, ?_⟩ <;> exact congrArg (fun k => Host.Outcome.next (State.mk p k)) (if_neg hnot)
  · intro k hadapt hmode hst hen hex
    refine congrArg (fun k => Host.Outcome.next (State.mk p k)) (if_neg ?_)
    have hk : ¬ ((!k.enable) = true ∨ k.execs < 1024) := by simp [hen, hex]
    simp only [hadapt, hmode, hst, Bool.not_true, Bool.false_eq_true, ne_eq, not_true, false_or]
    exact hk
  · refine ⟨_, congrArg (fun k => Host.Outcome.next (State.mk p k)) (if_neg ?_), rfl, rfl, rfl, rfl, rfl, rfl, rfl⟩
    simp [hon, tripDue_of_hot hdue]

end Sys2Proof.Machine
end

section
/-!
PROOFS. Registers of each access type (R7, R191): the loss sum of a Gutter, the flag counters of a context, the notice of a lost
reference.
-/
namespace Sys2Proof.Machine

/-- A value written to a whole register, with a function's rights. -/
def Chip.wordPut (c : Chip) (fn v : Nat) (r : Bar0) : Chip :=
  match r with
  | .ctx r => match c.shown fn with | some k => c.ctxRegWrite k v v r | none => c
  | .mod r => if fn = 0 then c.modRegWrite v v r else c

/-- Four written bytes from a register's start are the low half of the value, over what stands above them. -/
theorem bar0Put_of_word (c : Chip) (fn b old n : Nat) {r : Bar0} (hat : bar0At b = some r) (hval : (c.bar0Val fn b).2 = some (4, old))
    (hold : old < 2 ^ 32) :
    c.bar0Put fn b 0 (leBytes 4 n) = c.wordPut fn (n % 2 ^ 32) r := by
  have hle : leNat (leBytes 4 n) = n % 2 ^ 32 := leNat_leBytes 4 n
  have hv : old % 2 ^ (8 * 0) + leNat (leBytes 4 n) * 2 ^ (8 * 0) +
      old / 2 ^ (8 * (0 + (leBytes 4 n).length)) * 2 ^ (8 * (0 + (leBytes 4 n).length)) = n % 2 ^ 32 := by
    rw [hle, leBytes_length, Nat.div_eq_of_lt (by simpa using hold)]
    simp [Nat.mod_one]
  have hw : leNat (leBytes 4 n) * 2 ^ (8 * 0) = n % 2 ^ 32 := by rw [hle]; simp
  unfold Chip.bar0Put
  simp only [hat, hval]
  rw [hv, hw] <;> rfl

/-! ### The loss sum (R191) -/

/-- Where a die's loss sum stands. -/
def lossSumAt (d : Die) : Nat := 0x50040 + 0x100 * d.num

theorem bar0At_lossSum (d : Die) : bar0At (lossSumAt d) = some (.mod (.gutter d 0x40)) := by
  cases d <;> decide

theorem bar0Val_lossSum (c : Chip) (d : Die) : c.bar0Val 0 (lossSumAt d) = (c, some (16, (c.die d).gut.lossSum.toNat)) := by
  simp only [Chip.bar0Val, bar0At_lossSum, true_or, if_true, Chip.modRegVal, Gutter.reg]

theorem bar0Start_lossSum (c : Chip) (d : Die) : c.bar0Start 0 (lossSumAt d) = some (lossSumAt d) := by
  have hfour : lossSumAt d / 4 * 4 = lossSumAt d := by cases d <;> rfl
  simp only [Chip.bar0Start, hfour]
  rw [List.find?_cons_of_pos]
  simp [bar0Val_lossSum]

/-- The die once a read of the low half has latched the high half. -/
def Chip.latchLoss (c : Chip) (d : Die) : Chip :=
  c.modDie d (fun m => { m with gut := { m.gut with lossLatch := BitVec.ofNat 64 ((c.die d).gut.lossSum.toNat / 2 ^ 64) } })

theorem regRead_lossSum (c : Chip) (d : Die) :
    c.regRead 0 0 (lossSumAt d) 8 = (c.latchLoss d, leBytes 8 (c.die d).gut.lossSum.toNat) := by
  have hlatch : c.readLatch (lossSumAt d) 0 (c.die d).gut.lossSum.toNat = (c.latchLoss d, (c.die d).gut.lossSum.toNat) := by
    rw [Chip.readLatch, bar0At_lossSum]
    exact if_pos (by decide)
  have hclear (c : Chip) (lo hi : Nat) : c.bar0Clear 0 (lossSumAt d) lo hi = c := by
    simp only [Chip.bar0Clear, bar0At_lossSum, if_true, Chip.modRegClear, Gutter.clear]
    cases d <;> rfl
  rw [regRead_within (bar0Start_lossSum c d) (bar0Val_lossSum c d) (by decide) (by omega)]
  simp only [true_or, if_true, Nat.sub_self, hlatch, hclear]
  simp

/-! ### The flag counters of a context (R7) -/

theorem bar0At_flagOvf : bar0At 0x30008 = some (.ctx (.flag .w 8)) := by decide

theorem bar0At_flagSel : bar0At 0x30000 = some (.ctx (.flag .w 0)) := by decide

theorem bar0Val_flagOvf (c : Chip) : c.bar0Val 0 0x30008 =
    (c, r4 (tget {} (c.side c.ctxSel.toNat .w).flags (c.side c.ctxSel.toNat .w).flagSel.toNat : FlagCounts).ovf.toNat) := by
  simp only [Chip.bar0Val, bar0At_flagOvf, Chip.shown, if_true, Option.bind_some, Chip.ctxRegVal, CtxDie.flagReg]

theorem bar0Val_flagSel (c : Chip) : c.bar0Val 0 0x30000 = (c, r4 (c.side c.ctxSel.toNat .w).flagSel.toNat) := by
  simp only [Chip.bar0Val, bar0At_flagSel, Chip.shown, if_true, Option.bind_some, Chip.ctxRegVal, CtxDie.flagReg]

theorem bar0Start_flagOvf (c : Chip) : c.bar0Start 0 0x30008 = some 0x30008 := by
  simp [Chip.bar0Start, bar0Val_flagOvf, r4]

theorem bar0Start_flagSel (c : Chip) : c.bar0Start 0 0x30000 = some 0x30000 := by
  simp [Chip.bar0Start, bar0Val_flagSel, r4]

/-- A read of the OVF counter gives the count and leaves zero there. -/
theorem regRead_flagOvf (c : Chip) :
    c.regRead 0 0 0x30008 4 = (c.modSide c.ctxSel.toNat .w (fun k => { k with flags := tmod {} k.flags k.flagSel.toNat (fun e => { e with ovf := 0 }) }),
      leBytes 4 (tget {} (c.side c.ctxSel.toNat .w).flags (c.side c.ctxSel.toNat .w).flagSel.toNat : FlagCounts).ovf.toNat) := by
  have hlatch (v : Nat) : c.readLatch 0x30008 0 v = (c, v) := by rw [Chip.readLatch, bar0At_flagOvf]
  have hclear (lo hi : Nat) : c.bar0Clear 0 0x30008 lo hi =
      c.modSide c.ctxSel.toNat .w (fun k => { k with flags := tmod {} k.flags k.flagSel.toNat (fun e => { e with ovf := 0 }) }) := by
    simp only [Chip.bar0Clear, bar0At_flagOvf, Chip.shown, if_true, Chip.ctxRegClear, CtxDie.flagClear]
  rw [regRead_within (bar0Start_flagOvf c) (bar0Val_flagOvf c) (by decide) (by decide)]
  simp only [true_or, if_true, Nat.sub_self, hlatch, hclear, Nat.mul_zero, Nat.pow_zero, Nat.div_one]
  rw [leBytes_mod 4]

theorem regWrite_flagSel (c : Chip) (w : BitVec 128) : c.regWrite 0 0 0x30000 (leBytes 4 w.toNat) =
    c.modSide c.ctxSel.toNat .w (fun k => { k with flagSel := w.extractLsb' 0 12 }) := by
  have hsel : BitVec.ofNat 12 (w.toNat % 2 ^ 32) = w.extractLsb' 0 12 := by
    refine BitVec.eq_of_toNat_eq ?_
    rw [BitVec.toNat_ofNat, BitVec.extractLsb'_toNat, Nat.shiftRight_zero]
    omega
  have hval : (c.bar0Val 0 0x30000).2 = some (4, (c.side c.ctxSel.toNat .w).flagSel.toNat % 2 ^ 32) := by rw [bar0Val_flagSel]; rfl
  rw [regWrite_within (bar0Start_flagSel c) (bar0Val_flagSel c) (List.ne_nil_of_length_pos (by simp)) (by simp), Nat.sub_self,
    bar0Put_of_word c 0 0x30000 _ w.toNat bar0At_flagSel hval (Nat.mod_lt _ (by decide))]
  simp only [Chip.wordPut, Chip.shown, if_true, Chip.ctxRegWrite, CtxDie.flagWrite, hsel]

/-! ### The notice of a lost reference (R7) -/

theorem bar0At_ridgeStatus : bar0At 0x20040 = some (.mod (.ridge 0x40)) := by decide

theorem bar0Val_ridgeStatus (c : Chip) : ∃ v, v < 2 ^ 32 ∧ c.bar0Val 0 0x20040 = (c, some (4, v)) := by
  simp only [Chip.bar0Val, bar0At_ridgeStatus, true_or, if_true, Chip.modRegVal, Ridge.reg, r4]
  exact ⟨_, Nat.mod_lt _ (by decide), rfl⟩

theorem regWrite_ridgeStatus (c : Chip) (w : BitVec 128) :
    c.regWrite 0 0 0x20040 (leBytes 4 w.toNat) = { c with ridge := c.ridge.regWrite 0x40 (w.toNat % 2 ^ 32) } := by
  obtain ⟨v, hv, hval⟩ := bar0Val_ridgeStatus c
  have hstart : c.bar0Start 0 0x20040 = some 0x20040 := by simp [Chip.bar0Start, hval]
  rw [regWrite_within hstart hval (List.ne_nil_of_length_pos (by simp)) (by simp), Nat.sub_self,
    bar0Put_of_word c 0 0x20040 v w.toNat bar0At_ridgeStatus (by rw [hval]) hv]
  simp only [Chip.wordPut, if_true, Chip.modRegWrite]

theorem bit_two_of_low_half (n : Nat) : bit (n % 2 ^ 32) 2 = bit n 2 := by
  unfold bit
  rw [Nat.testBit_mod_two_pow]
  simp

/-- Settles O53: an access within one register reads its value, and clears, latches or writes it by its access type. -/
theorem registerAccess : Obligations.RegisterAccess := by
  unfold Obligations.RegisterAccess
  intro p c
  refine ⟨fun fn bar off size => rfl, fun d => ?_, ⟨?_, fun w => ?_⟩, fun w => ⟨fun h => ?_, fun h => ?_⟩⟩
  · refine congrArg (fun k => Host.Outcome.next (State.mk p k)) ?_
    rw [leBytes_mod 8]
    exact congrArg (fun r : Chip × List Byte => { r.1 with rdata := r.2 }) (regRead_lossSum c d)
  · exact congrArg (fun r : Chip × List Byte => Host.Outcome.next (State.mk p { r.1 with rdata := r.2 })) (regRead_flagOvf c)
  · exact congrArg (fun k => Host.Outcome.next (State.mk p k)) (regWrite_flagSel c w)
  · refine congrArg (fun k => Host.Outcome.next (State.mk p k)) ((regWrite_ridgeStatus c w).trans ?_)
    rw [Ridge.regWrite, if_pos ⟨rfl, by rw [bit_two_of_low_half, h]⟩]
  · refine congrArg (fun k => Host.Outcome.next (State.mk p k)) ((regWrite_ridgeStatus c w).trans ?_)
    rw [Ridge.regWrite, if_neg (by rw [bit_two_of_low_half, h]; simp)]

end Sys2Proof.Machine
end

section
/-!
PROOFS. The phases of bring-up (R381 to R395).
-/
namespace Sys2Proof.Machine

/-- A recorded trip is reported, and its record is cleared (R383). -/
theorem reportTrip_boot (c : Chip) :
    c.reportTrip.boot = if c.boot.norTrip = true then { c.boot with norTrip := false, prev := 3 } else c.boot := by
  unfold Chip.reportTrip
  by_cases h : c.boot.norTrip = true
  · simp [h]
  · simp [h]

/-- What the election leaves (R387). -/
def Chip.elected (c : Chip) : Chip :=
  let b := c.boot
  let prim : Die := if b.claims .e && !b.claims .w then .e else .w
  let fault := decide (b.claims .w = b.claims .e)
  ({ c with boot := { b with phase := 3, prim := prim, primFault := b.primFault || fault, attention := b.attention || fault
                             gov := BitVec.ofNat 2 (govNum (b.col prim)), governing := govOf (b.col prim) } } : Chip).colSettings

section
variable {c : Chip}

theorem exec_ident (p : List Instr) (sw se sb : Bool) (hrails : c.pwr.railsOn = true) (hphase : c.boot.phase = 1 ∨ c.boot.phase = 2) :
    ∃ c1 : Chip, exec (.ident sw se sb) ⟨p, c⟩ = .next ⟨p, c1⟩ ∧ c1.boot.phase = 2 ∧ c1.boot.strapW = sw ∧ c1.boot.strapE = se ∧
      c1.boot.strapBoot = sb ∧ c1.boot.colW = c.boot.colW ∧ c1.boot.governing = govOf c.boot.colW ∧
      (c.boot.norTrip = true → c1.boot.prev = 3 ∧ c1.boot.norTrip = false) := by
  have hgo : ¬ ((!c.pwr.railsOn) = true ∨ (c.boot.phase ≠ 1 ∧ c.boot.phase ≠ 2)) := by
    rw [hrails]
    rintro (h | ⟨h1, h2⟩)
    · exact absurd h (by decide)
    · exact hphase.elim h1 h2
  refine ⟨_, congrArg (fun k => Host.Outcome.next (State.mk p k)) (if_neg hgo), ?_⟩
  rw [reportTrip_boot]
  dsimp only
  by_cases h : c.boot.norTrip = true
  · rw [if_pos h]
    exact ⟨rfl, rfl, rfl, rfl, rfl, rfl, fun _ => ⟨rfl, rfl⟩⟩
  · rw [if_neg h]
    exact ⟨rfl, rfl, rfl, rfl, rfl, rfl, fun h' => absurd h' h⟩

theorem exec_baseConfigLoad_host (p : List Instr) (hphase : c.boot.phase = 3) (hhost : c.boot.fromHost = true) :
    exec .baseConfigLoad ⟨p, c⟩ = .next ⟨p, { c with boot := { c.boot with phase := 4 } }⟩ := by
  have h : ¬ c.boot.phase ≠ 3 := not_not.2 hphase
  exact congrArg (fun k => Host.Outcome.next (State.mk p k)) ((if_neg h).trans (if_pos hhost))

/-- With the configuration on the module, the copies of the SPI NOR device are tried in their order (R389). -/
theorem exec_baseConfigLoad_nor (p : List Instr) (hphase : c.boot.phase = 3) (hhost : c.boot.fromHost = false) :
    let c1 : Chip := { c with boot := { c.boot with phase := 4 } }
    (∀ k, configOf c.boot.norA = some k → exec .baseConfigLoad ⟨p, c⟩ = .next ⟨p, c1.applyConfig k 1⟩) ∧
    (∀ k, configOf c.boot.norA = none → configOf c.boot.norB = some k → exec .baseConfigLoad ⟨p, c⟩ = .next ⟨p, c1.applyConfig k 2⟩) ∧
    (configOf c.boot.norA = none → configOf c.boot.norB = none → exec .baseConfigLoad ⟨p, c⟩ = .next ⟨p, c1.enterHold 2⟩) := by
  have h : ¬ c.boot.phase ≠ 3 := not_not.2 hphase
  have h' : ¬ c.boot.fromHost = true := by rw [hhost]; decide
  refine ⟨fun k ha => ?_, fun k ha hb => ?_, fun ha hb => ?_⟩
  · exact congrArg (fun k => Host.Outcome.next (State.mk p k)) ((if_neg h).trans ((if_neg h').trans (by simp only [ha])))
  · exact congrArg (fun k => Host.Outcome.next (State.mk p k)) ((if_neg h).trans ((if_neg h').trans (by simp only [ha, hb])))
  · exact congrArg (fun k => Host.Outcome.next (State.mk p k)) ((if_neg h).trans ((if_neg h').trans (by simp only [ha, hb])))

theorem exec_bootldFetch (p : List Instr) {img : List Byte} {k : BaseConfig} (hphase : c.boot.phase = 4) (hhost : c.boot.fromHost = true)
    (hsrc : c.boot.src = 0) (himg : img ≠ []) (hk : configOf img = some k) :
    exec (.bootldFetch img) ⟨p, c⟩ =
      .next ⟨p, ({ c with boot := { c.boot with ldLen := BitVec.ofNat 23 img.length } } : Chip).applyConfig k 3⟩ := by
  have h : ¬ (c.boot.phase ≠ 4 ∨ img.isEmpty = true) := by simp [hphase, himg]
  have hfetch : ¬ (c.boot.phase ≠ 4 ∨ (!c.boot.fromHost) = true ∨ c.boot.src ≠ 0) := by
    rw [hphase, hhost, hsrc]
    decide
  exact congrArg (fun k => Host.Outcome.next (State.mk p k)) ((if_neg h).trans ((if_neg hfetch).trans (by simp only [hk])))

theorem exec_selftest (p : List Instr) (r : SelfTestResult) (hphase : c.boot.phase = 4) (hsrc : c.boot.src ≠ 0) :
    let c1 : Chip := { c with boot := { (c.boot.tested r c.boot.governing.fullTest) with phase := 5 } }
    exec (.selftest r) ⟨p, c⟩ =
      .next ⟨p, if r.criticalFail then c1.enterHold 4 else c1.applyOverlay c.boot.defOvl (tget [] c.boot.overlays c.boot.defOvl)⟩ := by
  have h : c.boot.phase = 4 ∧ c.boot.src ≠ 0 := ⟨hphase, hsrc⟩
  exact congrArg (fun k => Host.Outcome.next (State.mk p k)) (if_pos h)

end

/-- Settles O57: each event of bring-up acts in its phase. -/
theorem bringUp : Obligations.BringUp := by
  unfold Obligations.BringUp
  intro p c b hold
  refine ⟨fun sw se sb hrails hphase => exec_ident p sw se sb hrails hphase, fun hphase => ⟨?_, c.elected, ?_, rfl, rfl, fun h => ?_, rfl, rfl⟩,
    fun hrails h3 h7 => ?_, fun hphase => ⟨fun h => exec_baseConfigLoad_host p hphase h, fun h => exec_baseConfigLoad_nor p hphase h⟩,
    fun img k hphase hhost hsrc himg hk => exec_bootldFetch p hphase hhost hsrc himg hk, fun r hphase hsrc => exec_selftest p r hphase hsrc,
    fun hphase hdone => ?_, fun hphase => ?_, fun h5 h4 => ?_⟩
  · have h : ¬ c.boot.phase ≠ 2 := not_not.2 hphase
    exact congrArg (fun k => Host.Outcome.next (State.mk p k)) (if_neg h)
  · have h : ¬ c.boot.phase ≠ 2 := not_not.2 hphase
    exact congrArg (fun k => Host.Outcome.next (State.mk p k)) (if_neg h)
  · have hf : decide (c.boot.claims .w = c.boot.claims .e) = true := decide_eq_true h
    exact ⟨(congrArg (c.boot.primFault || ·) hf).trans (Bool.or_true _), (congrArg (c.boot.attention || ·) hf).trans (Bool.or_true _)⟩
  · have h : ¬ ((!c.pwr.railsOn) = true ∨ c.boot.phase.toNat < 3 ∨ c.boot.phase = 7) := by
      rw [hrails]
      rintro (h | h | h)
      · exact absurd h (by decide)
      · exact absurd h (Nat.not_lt.2 h3)
      · exact h7 h
    exact congrArg (fun k => Host.Outcome.next (State.mk p k)) (if_neg h)
  · exact congrArg (fun k => Host.Outcome.next (State.mk p k)) (if_pos ⟨hphase, hdone⟩)
  · exact congrArg (fun k => Host.Outcome.next (State.mk p k)) (if_neg fun h => hphase h.1)
  · have h : ¬ (5 < c.boot.phase.toNat ∨ (c.boot.phase = 4 ∧ c.boot.fromHost = true)) := by
      rintro (h | ⟨h, hhost⟩)
      · exact absurd h (Nat.not_lt.2 h5)
      · exact absurd ((h4 h).symm.trans hhost) (by decide)
    exact congrArg (fun k => Host.Outcome.next (State.mk p k)) (if_neg h)

end Sys2Proof.Machine
end

section
/-!
PROOFS. Loss of power, resets, the service button, quiesce and COLPROG (R379, R384 to R388, R405 to R415).
-/
namespace Sys2Proof.Machine

section
variable {c : Chip}

theorem exec_buttonShortPress (p : List Instr) (hin : c.pwr.inputOn = true) (h7 : c.boot.phase ≠ 7) :
    exec .buttonShortPress ⟨p, c⟩ = .next ⟨p,
      let b := { c.boot with shorts := satAdd c.boot.shorts 1, pressed := false }
      if c.led = .attention then { c with boot := { b with ack := true, attention := false } }
      else { c with boot := { b with locate := !b.locate, locateStart := c.now } }⟩ := by
  have h : ¬ ((!c.pwr.inputOn) = true ∨ c.boot.phase = 7) := by
    rw [hin]
    rintro (h | h)
    · exact absurd h (by decide)
    · exact h7 h
  exact congrArg (fun k => Host.Outcome.next (State.mk p k)) (if_neg h)

/-- The end of a quiesce, once every context is torn down. -/
def Chip.endQuiesce (c : Chip) : Chip := { c.storeBoost with boot := { c.storeBoost.boot with phase := 9 } }

theorem endQuiesce_eq (c : Chip) :
    c.endQuiesce = { c with boot := { c.boot with norBoostW := c.w.boost, norBoostE := c.e.boost, phase := 9 } } := rfl

/-- The grace period is over (R405). -/
theorem exec_quiesceEnd (p : List Instr) (hphase : c.boot.phase = 8)
    (hover : c.boot.quiesceStart.toNat + c.boot.governing.grace * 1000000000 ≤ c.now.toNat) :
    exec .quiesceEnd ⟨p, c⟩ = .next ⟨p, ((List.range 16).foldl (fun (k : Chip) q => k.settlePart q)
      (c.live.foldl (fun (k : Chip) n => k.teardown n { status := 0x0702 }) c)).endQuiesce⟩ := by
  have h : ¬ (c.boot.phase ≠ 8 ∨ c.now.toNat < c.boot.quiesceStart.toNat + c.boot.governing.grace * 1000000000) := by
    rintro (h | h)
    · exact h hphase
    · exact absurd hover (Nat.not_le.2 h)
  rw [exec, execQuiesceEnd, run_eq, if_neg h]
  dsimp only
  generalize List.foldl _ _ (List.range 16) = k
  rfl

/-- The port once COLPROG is shifted in. -/
def Chip.colprogPort (c : Chip) : Chip :=
  { c with port := { c.port with ir := if c.boot.governing.dbgOff then 0xFF else 0x11, driving := false } }

theorem exec_colprog (p : List Instr) {img : List Byte} (hopen : c.colprogOpen = true) (hn : max c.boot.colW.length c.boot.colE.length < 4)
    (himg : colImageOk (max c.boot.colW.length c.boot.colE.length) img = true) :
    let n := max c.boot.colW.length c.boot.colE.length
    exec (.colprog img) ⟨p, c⟩ =
      .next ⟨p, { c.colprogPort with boot := { c.boot with colW := c.boot.colW ++ [colOf n img], colE := c.boot.colE ++ [colOf n img] } }⟩ := by
  have h : ¬ ((!c.colprogPort.colprogOpen) = true ∨ 4 ≤ max c.boot.colW.length c.boot.colE.length ∨
      (!colImageOk (max c.boot.colW.length c.boot.colE.length) img) = true) := by
    rw [himg, show c.colprogPort.colprogOpen = true from hopen]
    rintro (h | h | h)
    · exact absurd h (by decide)
    · exact absurd h (Nat.not_le.2 hn)
    · exact absurd h (by decide)
  exact congrArg (fun k => Host.Outcome.next (State.mk p k)) (if_neg h)

theorem exec_colprog_refused (p : List Instr) {img : List Byte} (hno : c.colprogOpen = false ∨
    4 ≤ max c.boot.colW.length c.boot.colE.length ∨ colImageOk (max c.boot.colW.length c.boot.colE.length) img = false) :
    exec (.colprog img) ⟨p, c⟩ = .next ⟨p, c.colprogPort⟩ := by
  have h : (!c.colprogPort.colprogOpen) = true ∨ 4 ≤ max c.boot.colW.length c.boot.colE.length ∨
      (!colImageOk (max c.boot.colW.length c.boot.colE.length) img) = true := by
    rcases hno with h | h | h
    · exact .inl (by rw [show c.colprogPort.colprogOpen = false from h]; rfl)
    · exact .inr (.inl h)
    · exact .inr (.inr (by rw [h]; rfl))
  exact congrArg (fun k => Host.Outcome.next (State.mk p k)) (if_pos h)

end

/-- Settles O58: each reset is the state of a fresh module but for what outlives it; the other events are one update each. -/
theorem resetsAndButton : Obligations.ResetsAndButton := by
  unfold Obligations.ResetsAndButton
  intro p c b fresh
  have next {i : Instr} {c1 : Chip} {x : Chip} (hrun : exec i ⟨p, c⟩ = .next ⟨p, x⟩) (hx : x = c1) : exec i ⟨p, c⟩ = .next ⟨p, c1⟩ := by
    rw [hrun, hx]
  refine ⟨fun h => ?_, fun h => ?_, fun hin htrip => ?_, fun hin htrip => ?_, rfl, fun h6 h7 => ?_, fun hin h7 => ?_, fun hl ht => ?_,
    fun h => ?_, fun h hover => ?_, fun img => ⟨fun hopen hn himg => exec_colprog p hopen hn himg, fun hno => exec_colprog_refused p hno⟩⟩
  · have hoff : ¬ c.pwr.inputOn = true := by rw [h]; decide
    exact ⟨c.afresh, next rfl (if_neg hoff), rfl, rfl, rfl, rfl, rfl, rfl, rfl, rfl, rfl, rfl⟩
  · have hon : ¬ (!c.pwr.inputOn) = true := by rw [h]; decide
    exact ⟨_, next rfl (if_neg hon), rfl, rfl, rfl, rfl, rfl, rfl, rfl, rfl, rfl, rfl⟩
  · have hon : ¬ (!c.pwr.inputOn) = true := by rw [hin]; decide
    have hno : ¬ c.pwr.tripped = true := by rw [htrip]; decide
    exact ⟨_, next rfl (if_neg hon), rfl, rfl, rfl, rfl, rfl, rfl, rfl, if_neg hno, rfl, rfl⟩
  · have hon : ¬ (!c.pwr.inputOn) = true := by rw [hin]; decide
    exact ⟨_, next rfl (if_neg hon), rfl, rfl, rfl, rfl, rfl, rfl, rfl, if_pos htrip, rfl, rfl⟩
  · have hgo : ¬ (c.boot.phase.toNat < 6 ∨ c.boot.phase = 7) := by
      rintro (h | h)
      · exact absurd h6 (Nat.not_le.2 h)
      · exact h7 h
    exact ⟨_, next rfl (if_neg hgo), rfl, rfl, rfl, rfl⟩
  · have hrun := exec_buttonShortPress p hin h7
    by_cases hled : c.led = .attention
    · exact ⟨_, hrun.trans (congrArg (fun k => Host.Outcome.next (State.mk p k)) (if_pos hled)), rfl, rfl, fun _ => ⟨rfl, rfl, rfl⟩,
        fun h => absurd hled h⟩
    · exact ⟨_, hrun.trans (congrArg (fun k => Host.Outcome.next (State.mk p k)) (if_neg hled)), rfl, rfl, fun h => absurd h hled,
        fun _ => ⟨rfl, rfl⟩⟩
  · exact next rfl (if_pos ⟨hl, ht⟩)
  · exact next rfl (if_neg (not_not.2 h))
  · rw [← ColGen.grace] at hover
    exact (exec_quiesceEnd p h hover).trans (congrArg (fun k => Host.Outcome.next (State.mk p k)) (endQuiesce_eq _))

end Sys2Proof.Machine
end

section
/-!
PROOFS. The test access port (R396, R397), the debug registers (R398 to R402), the unlock exchange (R403) and the sideband (R419).
-/
namespace Sys2Proof.Machine

/-! ### The test access port (R396, R397) -/

section
variable {c : Chip}

theorem extest_port_open (hopen : c.extestOpen = true) (hoff : c.boot.governing.dbgOff = false) :
    (if c.extestOpen && !c.boot.governing.dbgOff then { c.port with ir := 0x00, driving := true } else c.port.load 0xFF) =
      { c.port with ir := 0, driving := true } :=
  if_pos (by rw [hopen, hoff]; decide)

theorem extest_port_shut (h : c.extestOpen = false ∨ c.boot.governing.dbgOff = true) :
    (if c.extestOpen && !c.boot.governing.dbgOff then { c.port with ir := 0x00, driving := true } else c.port.load 0xFF) = c.port.load 0xFF := by
  refine if_neg ?_
  rcases h with h | h
  · rw [h]; simp
  · rw [h]; simp

/-- The answer to an access through the port. -/
def Chip.drPut (c : Chip) (dr : BitVec 96) (data status : Nat) : Chip :=
  { c with port := { c.port with dr := drAfter dr data status }, rdata := leBytes 12 (drAfter dr data status).toNat }

/-- The port under DBGACC. -/
def Chip.dbgaccPort (c : Chip) : Chip := { c with port := c.port.load 0x10 }

/-- An access where the port is on: refused, a write, or a read. -/
theorem dbgacc_of_on (dr : BitVec 96) (hphase : 2 ≤ c.boot.phase.toNat) (hoff : c.boot.governing.dbgOff = false) :
    c.dbgacc dr =
      (let o := bits dr.toNat 86 64 * 8
       let data := bits dr.toNat 63 0
       if c.dbgaccPort.dbgaccRefused o then c.dbgaccPort.drPut dr data 2
       else if bit dr.toNat 87 then (c.dbgaccPort.regWrite 0 0 o (leBytes 8 data)).drPut dr data 0
       else (c.dbgaccPort.regRead 0 0 o 8).1.drPut dr (leNat (c.dbgaccPort.regRead 0 0 o 8).2) 0) := by
  have h : ¬ (c.boot.phase.toNat < 2 ∨ c.boot.governing.dbgOff = true) := by
    rw [hoff]
    rintro (h | h)
    · exact absurd hphase (Nat.not_le.2 h)
    · exact absurd h (by decide)
  rw [Chip.dbgacc, if_neg h]
  rfl

theorem dbgaccRefused_of_not_hold (h : c.boot.phase ≠ 7) (o : Nat) : c.dbgaccPort.dbgaccRefused o = false := by
  have h7 : decide (c.boot.phase = 7) = false := decide_eq_false h
  exact (congrArg (· && !onDie o) h7).trans (Bool.false_and _)

theorem dbgaccRefused_of_hold {o : Nat} (h : c.boot.phase = 7) (ho : onDie o = false) : c.dbgaccPort.dbgaccRefused o = true := by
  have h7 : decide (c.boot.phase = 7) = true := decide_eq_true h
  unfold Chip.dbgaccRefused
  rw [ho]
  exact (congrArg (· && !false) h7).trans rfl

end

section
variable {c : Chip}

theorem dbgacc_write (dr : BitVec 96) (hphase : 2 ≤ c.boot.phase.toNat) (h7 : c.boot.phase ≠ 7) (hoff : c.boot.governing.dbgOff = false)
    (hw : bit dr.toNat 87 = true) :
    c.dbgacc dr = (c.dbgaccPort.regWrite 0 0 (bits dr.toNat 86 64 * 8) (leBytes 8 (bits dr.toNat 63 0))).drPut dr (bits dr.toNat 63 0) 0 := by
  rw [dbgacc_of_on dr hphase hoff]
  dsimp only
  rw [dbgaccRefused_of_not_hold h7, if_neg (by decide), if_pos hw]

theorem dbgacc_read (dr : BitVec 96) (hphase : 2 ≤ c.boot.phase.toNat) (h7 : c.boot.phase ≠ 7) (hoff : c.boot.governing.dbgOff = false)
    (hr : bit dr.toNat 87 = false) :
    c.dbgacc dr = (c.dbgaccPort.regRead 0 0 (bits dr.toNat 86 64 * 8) 8).1.drPut dr
      (leNat (c.dbgaccPort.regRead 0 0 (bits dr.toNat 86 64 * 8) 8).2) 0 := by
  have hno : ¬ bit dr.toNat 87 = true := by rw [hr]; decide
  rw [dbgacc_of_on dr hphase hoff]
  dsimp only
  rw [dbgaccRefused_of_not_hold h7, if_neg (by decide), if_neg hno]

theorem dbgacc_refused (dr : BitVec 96) (h7 : c.boot.phase = 7) (hoff : c.boot.governing.dbgOff = false)
    (hdie : onDie (bits dr.toNat 86 64 * 8) = false) : c.dbgacc dr = c.dbgaccPort.drPut dr (bits dr.toNat 63 0) 2 := by
  rw [dbgacc_of_on dr (by rw [h7]; decide) hoff]
  dsimp only
  rw [dbgaccRefused_of_hold h7 hdie, if_pos rfl]

end

/-! ### Halt and resume (R398, R400) -/

section
variable {c : Chip} {d : Die}

theorem dbgHalt_first (hhalt : (c.die d).dbg.halt = false) (hcause : (c.die d).dbg.cause = 0) :
    c.dbgHalt d true = c.modDie d (fun m => { m with dbg := { m.dbg with halt := true, cause := 1, index := 0, hitTime := m.ridge } }) := by
  rw [Chip.dbgHalt, if_pos rfl, if_neg (by simp [hhalt])]
  refine modDie_congr ?_
  simp only [DieSt.debugHit, if_pos hcause, if_true] <;> rfl

theorem dbgHalt_later (hhalt : (c.die d).dbg.halt = false) (hcause : (c.die d).dbg.cause ≠ 0) :
    c.dbgHalt d true = c.modDie d (fun m => { m with dbg := { m.dbg with halt := true } }) := by
  rw [Chip.dbgHalt, if_pos rfl, if_neg (by simp [hhalt])]
  refine modDie_congr ?_
  simp only [DieSt.debugHit, if_neg hcause, if_true]

theorem dbgHalt_again (hhalt : (c.die d).dbg.halt = true) : c.dbgHalt d true = c := by
  rw [Chip.dbgHalt, if_pos rfl, if_pos hhalt]

theorem dbgResume_dbg (bp : BitVec 6) : ((c.dbgResume d bp).die d).dbg = { (c.die d).dbg with cresume := bp } := by
  rw [Chip.dbgResume, die_modDie]

/-- A thread after a write of DBG_CRESUME. -/
def Thread.resume (x : Thread) (bp : BitVec 6) : Thread := if x.wait = .breakpoint bp.toNat then { x with wait := .ready, pass := true } else x

theorem dbgResume_thread {t : ThreadRef} (bp : BitVec 6) (hw : Tab.wf (none : Option Thread) (c.die d).threads = true) (ht : t.die = d) :
    (c.dbgResume d bp).thread t = (c.thread t).map (·.resume bp) := by
  subst ht
  unfold Chip.thread Chip.dbgResume
  rw [die_modDie]
  exact tget_tmap (f := fun _ (x : Option Thread) => x.map (·.resume bp)) (fun _ => rfl) hw

/-- On-die memory and Stream Table entries read as zero while locked (R402). -/
theorem mdataRead_locked (hlock : c.port.unlocked = false)
    (hspace : (c.die d).dbg.space = 2 ∨ (c.die d).dbg.space = 3 ∨ (c.die d).dbg.space = 4 ∨ (c.die d).dbg.space = 5) :
    c.mdataRead d = (c, List.replicate 8 0) := by
  rcases hspace with h | h | h | h <;> simp only [Chip.mdataRead, h, hlock, Bool.false_eq_true, if_false]

theorem mdataWrite_locked (w : W64) (hlock : c.port.unlocked = false) :
    c.mdataWrite d w = c.modDie d (fun m => { m with dbg := { m.dbg with mrefused := true, mdataWr := w } }) := by
  rw [Chip.mdataWrite, if_pos (by simp [hlock])]

end

/-! ### The unlock exchange (R403) -/

section
variable {c : Chip}

theorem challenge_of_shut (h : c.unlockShut = true) : c.challenge.1 = { c with port := { c.port with result := 3 } } := by
  rw [Chip.challenge, if_pos h]

theorem challenge_of_open (h : c.unlockShut = false) :
    c.challenge.1.port.result = 1 ∧ c.challenge.1.port.chalTime = c.now ∧ c.challenge.1.port.challenge.length = 32 := by
  have hno : ¬ c.unlockShut = true := by rw [h]; decide
  rw [Chip.challenge, if_neg hno]
  exact ⟨rfl, rfl, by simp⟩

theorem respond_of_right {resp : List Byte} (hopen : c.unlockShut = false) (hlive : c.challengeLive = true)
    (h : resp = hmac (leBytes 32 c.boot.dbgKey.toNat) c.port.challenge) : (c.respond resp).1.port.unlocked = true := by
  unfold Chip.respond
  rw [hopen, hlive, if_neg (by decide), if_pos h]

theorem respond_of_wrong {resp : List Byte} (hopen : c.unlockShut = false) (hlive : c.challengeLive = true)
    (h : resp ≠ hmac (leBytes 32 c.boot.dbgKey.toNat) c.port.challenge) :
    (c.respond resp).1 = { c with port := { c.port with result := 3, challenge := [], fails := c.port.fails + 1 } } := by
  unfold Chip.respond
  rw [hopen, hlive, if_neg (by decide), if_neg h]

theorem respond_of_shut {resp : List Byte} (h : c.unlockShut = true ∨ c.challengeLive = false) :
    (c.respond resp).1.port.unlocked = c.port.unlocked := by
  have hshut : (c.unlockShut || !c.challengeLive) = true := by rcases h with h | h <;> simp [h]
  unfold Chip.respond
  rw [hshut, if_pos rfl]

theorem challengeLive_of_late (h : c.port.chalTime.toNat + 60000000000 ≤ c.now.toNat) : c.challengeLive = false := by
  unfold Chip.challengeLive
  rw [decide_eq_false (Nat.not_lt.2 h), Bool.and_false]

end

/-- Settles O59: each instruction of the port and each debug register by its own rule. -/
theorem debugAccess : Obligations.DebugAccess := by
  unfold Obligations.DebugAccess
  intro p c port g ir
  have next {i : Instr} {c1 : Chip} {x : Chip} (hrun : exec i ⟨p, c⟩ = .next ⟨p, x⟩) (hx : x = c1) : exec i ⟨p, c⟩ = .next ⟨p, c1⟩ := by
    rw [hrun, hx]
  refine ⟨fun tdi => rfl, rfl, fun pins pre => rfl, fun hopen hoff => ?_, fun h => ?_, fun dr => ?_,
    fun dr h7 hoff hdie => ?_, fun d => ⟨fun hh hc => next rfl (dbgHalt_first hh hc), fun hh hc => next rfl (dbgHalt_later hh hc),
      fun hh => next rfl (dbgHalt_again hh), rfl, fun n => ?_, fun bp => ⟨c.dbgResume d bp, rfl, dbgResume_dbg bp, fun t x hw ht hx => ?_⟩, rfl,
      fun hlock hspace => mdataRead_locked hlock hspace, fun w => ⟨fun hlock => next rfl (mdataWrite_locked w hlock), fun _ => rfl⟩⟩,
    ⟨rfl, fun h => challenge_of_shut h, fun h => challenge_of_open h⟩,
    ⟨rfl, fun hopen hlive => ⟨fun h => respond_of_right hopen hlive h, fun h => respond_of_wrong hopen hlive h⟩, fun h => respond_of_shut h⟩,
    fun hch hlate => ?_, fun hon => ⟨fun o => next rfl (if_pos hon), fun len => next rfl (if_pos hon)⟩⟩
  · exact congrArg (fun k => Host.Outcome.next (State.mk p { c with port := k })) (extest_port_open hopen hoff)
  · exact congrArg (fun k => Host.Outcome.next (State.mk p { c with port := k })) (extest_port_shut h)
  · intro o c1 put hphase h7 hoff
    refine ⟨fun hw => next rfl ?_, fun hr => next rfl ?_⟩
    · exact dbgacc_write dr hphase h7 hoff hw
    · exact dbgacc_read dr hphase h7 hoff hr
  · exact next rfl (dbgacc_refused dr h7 hoff hdie)
  · exact next rfl (modDie_congr rfl)
  · rw [dbgResume_thread bp hw ht, hx]
    rfl
  · have h : ¬ (c.port.challenge.isEmpty = true ∨ c.challengeLive = true) := by
      rw [challengeLive_of_late hlate]
      rintro (h | h)
      · exact hch (List.isEmpty_iff.1 h)
      · exact absurd h (by decide)
    exact next rfl (if_neg h)

end Sys2Proof.Machine
end

section
/-!
PROOFS. The control operations of a sheet (Table 5.8) and the widen branch (R76): what an issued sheet leaves, then each operation.
-/
namespace Sys2Proof.Machine

/-! ### An issued sheet (R121) -/

/-- A stream after its sheet at an offset has issued. -/
def Stream.issuedAt (s : Stream) (delay : Nat) (off : W32) : Stream :=
  { s with delay := max delay 1, begun := true, wait := .none, met := false, seen := false, skipBp := false, lastPc := off }

/-- The die in whose beat a sheet has issued. -/
def DieSt.sheetIssued (m : DieSt) (q : Nat) : DieSt := { m with issued := true, lastPart := q }

/-- What CTX_IMP_PC and the status show then. -/
def Imp.next (i : Imp) (pc : W32) : Imp := { i with pc := pc, waitKind := 0, state := 1 }

theorem ctxOf_of_stream {c : Chip} {d : Die} {q : Nat} {s : Stream} (hs : c.stream d q = some s) : c.ctxOf d q = s.ctx := by
  simp only [Chip.ctxOf, hs]

section
variable {c : Chip} {d : Die} {q : Nat} {s : Stream} (hs : c.stream d q = some s) (delay : Nat) (next : W32)
include hs

theorem imp_of_stream : c.imp d q = (c.side s.ctx d).imp := by rw [Chip.imp, ctxOf_of_stream hs]

theorem ctlBase_eq : c.ctlBase d q delay next =
    ((c.modDie d (·.sheetIssued q)).modStream d q (·.issuedAt delay (c.imp d q).pc)).modSide s.ctx d
      (fun k => { k with imp := k.imp.next next }) := by
  have hstream : (c.modDie d (·.sheetIssued q)).stream d q = some s := by
    rw [Chip.stream, die_modDie]
    exact hs
  have hctx := ctxOf_of_stream (stream_modStream _ d q (·.issuedAt delay (c.imp d q).pc) hstream)
  rw [Chip.ctlBase, Chip.modImp]
  exact congrArg (fun n => Chip.modSide _ n d _) hctx

theorem stream_ctlBase : (c.ctlBase d q delay next).stream d q = some (s.issuedAt delay (c.imp d q).pc) := by
  have hstream : (c.modDie d (·.sheetIssued q)).stream d q = some s := by
    rw [Chip.stream, die_modDie]
    exact hs
  rw [ctlBase_eq hs, Chip.modSide, stream_modCtx]
  exact stream_modStream _ d q _ hstream

/-- The context's run goes on; its status shows the sheet. -/
theorem ctx_ctlBase : (c.ctlBase d q delay next).ctx s.ctx = (c.ctx s.ctx).modSide d (fun k => { k with imp := k.imp.next next }) := by
  rw [ctlBase_eq hs, Chip.modSide]
  refine (ctx_modCtx_of_ne_default (f := fun x => x.modSide d (fun k => { k with imp := k.imp.next next })) _ fun h => ?_).trans ?_
  · have hst := congrArg (fun x : Ctx => (x.side d).imp.state) h
    cases d <;> exact absurd hst (by simp [Ctx.modSide, Ctx.side, Imp.next])
  · rw [Chip.modStream, ctx_modDie, ctx_modDie]

theorem run_ctlBase : ((c.ctlBase d q delay next).ctx s.ctx).run = (c.ctx s.ctx).run := by
  rw [ctx_ctlBase hs]
  cases d <;> rfl

theorem imp_ctlBase : (c.ctlBase d q delay next).imp d q = (c.imp d q).next next := by
  rw [imp_of_stream (stream_ctlBase hs delay next), imp_of_stream hs, Chip.side]
  refine (congrArg (fun x : Ctx => (x.side d).imp) (ctx_ctlBase hs delay next)).trans ?_
  cases d <;> rfl

theorem die_ctlBase : (c.ctlBase d q delay next).die d =
    { (c.die d).sheetIssued q with streams := tmod none (c.die d).streams q (·.map (·.issuedAt delay (c.imp d q).pc)) } := by
  rw [ctlBase_eq hs, Chip.modSide, die_modCtx, Chip.modStream, die_modDie, die_modDie] <;> rfl

theorem part_ctlBase : (c.ctlBase d q delay next).parts = c.parts := by
  rw [ctlBase_eq hs]
  cases d <;> rfl

theorem ridgeOf_ctlBase : (c.ctlBase d q delay next).ridgeOf d = c.ridgeOf d := by
  rw [Chip.ridgeOf, die_ctlBase hs]
  rfl

theorem pair_ctlBase (i : Nat) : (c.ctlBase d q delay next).pair q i = c.pair q i := by
  unfold Chip.pair Chip.part
  rw [part_ctlBase hs]

theorem semHas_ctlBase (pair : Nat) (half : Bool) (n : Nat) : (c.ctlBase d q delay next).semHas d pair half n = c.semHas d pair half n := by
  unfold Chip.semHas DieSt.sem
  rw [die_ctlBase hs]
  rfl

end

/-! ### A control slot issues -/

/-- What a WIDEN finds before its sheet issues (R134). -/
def Chip.takesNow (c : Chip) (d : Die) (q : Nat) (op : CtlOp) : Bool :=
  match op with
  | .widen tag _ => c.widenTakes d q tag
  | _ => false

section
variable {c : Chip} {k : Ctl} {s : Stream}

theorem mayIssue_of_streamIssues {d : Die} {q : Nat} (h : StreamIssues c d q s) : c.mayIssue d q s = true := by
  obtain ⟨_, hstop, hhalt, htrap, hwait, hdelay, hstart, hissued, hfrozen, hbp⟩ := h
  have hb : (s.begun || decide (s.start.toNat ≤ (c.die d).beatAt.toNat)) = true := by
    rcases hstart with h | h <;> simp [h]
  have hp : (s.skipBp || ((c.die d).sheetBp q (c.imp d q).pc).isNone) = true := by
    rcases hbp with h | h <;> simp [h]
  simp [Chip.mayIssue, Stream.live, hstop, hhalt, htrap, hwait, hdelay, hb, hissued, hfrozen, hp]

/-- An operation without fault acts after its sheet has issued. -/
theorem control_of_ok {op : CtlOp} (h : StreamIssues c k.die k.part s) (hok : c.ctlCheck k.die k.part op = none) :
    c.control k op = (c.ctlBase k.die k.part k.delay.toNat ((c.imp k.die k.part).pc + 3)).ctlRun k.die k.part op (c.imp k.die k.part).pc
      ((c.imp k.die k.part).pc + 3) (c.takesNow k.die k.part op) := by
  have hs : c.stream k.die k.part = some s := h.1
  simp only [Chip.control, hs, mayIssue_of_streamIssues h, Bool.not_true, Bool.false_eq_true, if_false, hok] <;> rfl

/-- A fault of an operation traps before its sheet issues. -/
theorem control_of_fault {op : CtlOp} {cause code : Nat} (h : StreamIssues c k.die k.part s)
    (hbad : c.ctlCheck k.die k.part op = some (cause, code)) :
    c.control k op = c.raiseTrap k.die k.part 126 cause code (c.imp k.die k.part).pc := by
  have hs : c.stream k.die k.part = some s := h.1
  simp only [Chip.control, hs, mayIssue_of_streamIssues h, Bool.not_true, Bool.false_eq_true, if_false, hbad]

end

/-! ### COMMIT (R122, R217) -/

/-- A die's COMMIT has issued in a run. -/
def Run.issued (r : Run) : Die → Bool
  | .w => r.issuedW
  | .e => r.issuedE

/-- A context's run, in which a die's COMMIT has issued. -/
def Chip.CommitStands (c : Chip) (n : Nat) (d : Die) : Prop := ∃ r, (c.ctx n).run = some r ∧ r.issued d = true

theorem commitStands_of_ctxs {c c' : Chip} {n : Nat} {d : Die} (h : c'.ctxs = c.ctxs) (hc : c.CommitStands n d) : c'.CommitStands n d := by
  unfold Chip.CommitStands Chip.ctx at *
  rwa [h]

theorem commitStands_modRun {c : Chip} {n : Nat} {d : Die} {f : Run → Run} {r : Run} (hrun : (c.ctx n).run = some r)
    (hf : (f r).issued d = true) : (c.modRun n f).CommitStands n d := by
  refine ⟨f r, ?_, hf⟩
  rw [Chip.modRun, ctx_modCtx_of_run _ (by simp [hrun])]
  simp [hrun]

/-- A die's COMMIT is recorded in a run. -/
def Run.recorded (r : Run) (d : Die) (time : W64) : Run :=
  match d with
  | .w => { r with commitW := true, timeW := time }
  | .e => { r with commitE := true, timeE := time }

/-- The recorded COMMIT, without its vote. -/
def Chip.commitRecorded (c : Chip) (d : Die) (q n : Nat) : Chip :=
  (c.modStream d q (fun s => { s with commitAfter := false, commitLeft := [] })).modRun n (fun r => r.recorded d (c.ridgeOf d))

/-- But for the vote it sends, a recorded COMMIT is noted in its run and on its stream. -/
theorem recordCommit_sends {c : Chip} {d : Die} {q : Nat} {s : Stream} (hs : c.stream d q = some s) :
    Sends (c.commitRecorded d q s.ctx) (c.recordCommit d q) := by
  have hfold (c : Chip) (l : List (BitVec 16)) (self : Nat) (data : List Byte) : Sends c
      (l.foldl (fun c p => if p.toNat % 2 ^ 11 = self then c else c.send msgVote (p.toNat % 2 ^ 11) data) c) := by
    refine sends_foldl (fun c p => ?_) l c
    split
    · exact Sends.refl c
    · exact sends_send c _ _ _
  have hite (c c' : Chip) (p : Prop) [Decidable p] (h : Sends c c') : Sends c (if p then c else c') := by
    split
    · exact Sends.refl c
    · exact h
  unfold Chip.recordCommit
  simp only [hs]
  cases d
  · exact hite _ _ _ (hfold _ _ _ _)
  · exact hite _ _ _ (hfold _ _ _ _)

theorem commitStands_recordCommit {c : Chip} {d : Die} {q : Nat} {s : Stream} (hs : c.stream d q = some s) (h : c.CommitStands s.ctx d) :
    (c.recordCommit d q).CommitStands s.ctx d := by
  obtain ⟨r, hrun, hissued⟩ := h
  obtain ⟨l, hl⟩ := recordCommit_sends hs
  refine commitStands_of_ctxs (congrArg Chip.ctxs hl) (commitStands_modRun (r := r) ?_ ?_)
  · rwa [Chip.modStream, ctx_modDie]
  · cases d <;> exact hissued

theorem commitStands_tryCommit {c : Chip} {d : Die} {q : Nat} {s : Stream} (hs : c.stream d q = some s) (h : c.CommitStands s.ctx d) :
    (c.tryCommit d q).CommitStands s.ctx d := by
  unfold Chip.tryCommit
  simp only [hs]
  split
  · exact commitStands_recordCommit hs h
  · exact h

/-- A die's COMMIT issues in a run. -/
def Run.issue (r : Run) (d : Die) : Run :=
  match d with
  | .w => { r with issuedW := true }
  | .e => { r with issuedE := true }

/-- A stream waits for the ops that were issued before its COMMIT. -/
def Stream.awaiting (s : Stream) (left : Tab Nat) : Stream := { s with commitAfter := true, commitLeft := left }

theorem ctlCommit_of_inStep {c : Chip} {d : Die} {q : Nat} {s : Stream} (hs : c.stream d q = some s) (hstep : (c.ctx s.ctx).inStep = true) :
    ∃ left, c.ctlCommit d q = ((c.modRun s.ctx (·.issue d)).modStream d q (·.awaiting left)).tryCommit d q := by
  unfold Chip.ctlCommit
  simp only [hs, hstep, Bool.not_true, Bool.false_eq_true, if_false]
  cases d <;> exact ⟨_, rfl⟩

/-- A die's COMMIT has issued: the run shows it, whether or not it is recorded at once. -/
theorem commitStands_ctlCommit {c : Chip} {d : Die} {q : Nat} {s : Stream} {r : Run} (hs : c.stream d q = some s)
    (hrun : (c.ctx s.ctx).run = some r) (hstep : (c.ctx s.ctx).inStep = true) : (c.ctlCommit d q).CommitStands s.ctx d := by
  obtain ⟨left, heq⟩ := ctlCommit_of_inStep hs hstep
  have h1 : ((c.modRun s.ctx (·.issue d)).modStream d q (·.awaiting left)).CommitStands s.ctx d := by
    refine commitStands_of_ctxs (modDie_ctxs _ _ _) (commitStands_modRun hrun ?_)
    cases d <;> rfl
  have hs1 : ((c.modRun s.ctx (·.issue d)).modStream d q (·.awaiting left)).stream d q = some (s.awaiting left) :=
    stream_modStream _ d q _ (by rw [Chip.modRun, stream_modCtx]; exact hs)
  rw [heq]
  exact commitStands_tryCommit (s := s.awaiting left) hs1 h1

theorem ctlCommit_outside {c : Chip} {d : Die} {q : Nat} {s : Stream} (hs : c.stream d q = some s) (hstep : (c.ctx s.ctx).inStep = false) :
    c.ctlCommit d q = c := by
  unfold Chip.ctlCommit
  simp only [hs, hstep, Bool.not_false, if_true]

/-! ### The obligations -/

section
variable {c : Chip} {k : Ctl} {s : Stream}

/-- What LOOP does after its sheet. -/
theorem ctlRun_loop {d : Die} {q : Nat} (hs : c.stream d q = some s) (i : BitVec 3) (t : BitVec 24) (off next : W32) (takes : Bool) :
    c.ctlRun d q (.loop i t) off next takes =
      if tget 0 s.cnt i.toNat = 0 then c
      else (c.modStream d q (fun s' => { s' with cnt := tput 0 s'.cnt i.toNat (tget 0 s.cnt i.toNat - 1) })).modImp d q
        (fun x => { x with pc := branchTo off t }) := by
  simp only [Chip.ctlRun, hs]

theorem ctlCheck_wait_ok {d : Die} {q : Nat} {i : BitVec 12} {half : Bool} {n : W16} {to' : BitVec 20} (hn : n ≠ 0)
    (hok : c.semOk q i.toNat = true) : c.ctlCheck d q (.wait i half n to') = none :=
  (if_neg hn).trans (if_pos hok)

theorem ctlCheck_signal_ok {d : Die} {q : Nat} {i : BitVec 12} {half x : Bool} {n : W16} (hn : n ≠ 0)
    (hok : c.semOk q i.toNat = true) : c.ctlCheck d q (.signal i half x n) = none :=
  (if_neg hn).trans (if_pos hok)

theorem ctlCheck_commit_ok {d : Die} {q : Nat} (h : c.commitIssued (c.ctxOf d q) d = false) : c.ctlCheck d q .commit = none :=
  if_neg (by rw [h]; decide)

theorem commitIssued_of_run {n : Nat} {d : Die} {r : Run} (hrun : (c.ctx n).run = some r) (h : r.issued d = false) :
    c.commitIssued n d = false := by
  unfold Chip.commitIssued
  rw [hrun]
  cases d <;> exact (congrArg (r.isStep && ·) h).trans (Bool.and_false _)

theorem inStep_of_run {n : Nat} {r : Run} (hrun : (c.ctx n).run = some r) (hstep : r.isStep = true) (hpast : r.pastCommit = false) :
    (c.ctx n).inStep = true := by
  simp [Ctx.inStep, hrun, hstep, hpast]

theorem inStep_ctlBase {d : Die} {q : Nat} (hs : c.stream d q = some s) (delay : Nat) (next : W32) :
    ((c.ctlBase d q delay next).ctx s.ctx).inStep = (c.ctx s.ctx).inStep := by
  unfold Ctx.inStep
  rw [run_ctlBase hs]

end

/-- Settles O22: an operation without fault acts on what its issued sheet leaves; one with a fault traps before. -/
theorem controlSlots : Obligations.ControlSlots := by
  unfold Obligations.ControlSlots
  refine ⟨fun p c k s h => ?_, fun p c k s h => ?_⟩
  · have hs : c.stream k.die k.part = some s := h.1
    have run {i : Instr} {op : CtlOp} {x : Chip} (hi : exec i ⟨p, c⟩ = .next ⟨p, c.control k op⟩) (hok : c.ctlCheck k.die k.part op = none)
        (hx : (c.ctlBase k.die k.part k.delay.toNat ((c.imp k.die k.part).pc + 3)).ctlRun k.die k.part op (c.imp k.die k.part).pc
          ((c.imp k.die k.part).pc + 3) (c.takesNow k.die k.part op) = x) : exec i ⟨p, c⟩ = .next ⟨p, x⟩ := by
      rw [hi, control_of_ok h hok, hx]
    intro d q off b
    have hb : b.stream d q = some (s.issuedAt k.delay.toNat off) := stream_ctlBase hs _ _
    refine ⟨fun _ _ => ⟨hb, imp_ctlBase hs _ _⟩, run rfl rfl rfl, fun i v => run rfl rfl rfl,
      fun i t => ⟨fun h0 => run rfl rfl ((ctlRun_loop hb i t _ _ _).trans (if_pos h0)),
        fun h0 => run rfl rfl ((ctlRun_loop hb i t _ _ _).trans (if_neg h0))⟩,
      fun t => run rfl rfl rfl, fun i half n to' hn hok => run rfl (ctlCheck_wait_ok hn hok) ?_, fun cls => run rfl rfl rfl,
      fun t => run rfl rfl rfl, fun i half x n hn hok => run rfl (ctlCheck_signal_ok hn hok) rfl, fun add v => run rfl rfl rfl,
      fun hstep hci => run rfl (ctlCheck_commit_ok hci) ?_, fun r hrun hstep hpast hiss => ⟨run rfl (ctlCheck_commit_ok ?_) rfl, fun _ => ?_⟩,
      run rfl rfl rfl, fun code => ?_⟩
    · rw [← ridgeOf_ctlBase hs k.delay.toNat (off + 3), ← pair_ctlBase hs k.delay.toNat (off + 3),
        ← semHas_ctlBase hs k.delay.toNat (off + 3)]
      rfl
    · exact ctlCommit_outside hb ((inStep_ctlBase hs _ _).trans hstep)
    · rw [ctxOf_of_stream hs]
      exact commitIssued_of_run hrun hiss
    · obtain ⟨r', hrun', hissued⟩ := commitStands_ctlCommit hb ((run_ctlBase hs _ _).trans hrun)
        ((inStep_ctlBase hs _ _).trans (inStep_of_run hrun hstep hpast))
      exact ⟨r', hrun', hissued⟩
    · exact congrArg (fun x => Host.Outcome.next (State.mk p x)) (control_of_fault h rfl)
  · have trap {i : Instr} {op : CtlOp} {cause : Nat} (hi : exec i ⟨p, c⟩ = .next ⟨p, c.control k op⟩)
        (hbad : c.ctlCheck k.die k.part op = some (cause, 0)) :
        exec i ⟨p, c⟩ = .next ⟨p, c.raiseTrap k.die k.part 126 cause 0 (c.imp k.die k.part).pc⟩ := by
      rw [hi, control_of_fault h hbad]
    refine ⟨fun i half x to' => ⟨trap rfl rfl, trap rfl rfl⟩, fun i half x n to' hn hok => ⟨trap rfl ?_, trap rfl ?_⟩, fun t => trap rfl rfl,
      fun t r hr hok => trap rfl ?_, fun hci => trap rfl ?_⟩
    · exact (if_neg hn).trans (if_neg (by rw [hok]; decide))
    · exact (if_neg hn).trans (if_neg (by rw [hok]; decide))
    · exact (if_neg hr).trans (if_neg (by rw [hok]; decide))
    · exact if_pos hci

end Sys2Proof.Machine
end

section
/-!
PROOFS. The widen branch (R76).
-/
namespace Sys2Proof.Machine

section
variable {c : Chip} {d : Die} {q : Nat} {s : Stream} {tag region : W16} {next : W32}

theorem widenTakes_eq (hs : c.stream d q = some s) (tag : W16) :
    c.widenTakes d q tag = (tget {} (c.side s.ctx d).widen (tag.toNat % 4096) : WidenEntry).takes := by
  rw [Chip.widenTakes, ctxOf_of_stream hs]

/-- The counts of a tag's entry change. -/
def Chip.widenPut (c : Chip) (n : Nat) (d : Die) (tag : W16) (f : WidenEntry → WidenEntry) : Chip :=
  c.modSide n d (fun x => { x with widen := tmod {} x.widen (tag.toNat % 4096) f })

theorem ctlWiden_taken (hs : c.stream d q = some s) :
    c.ctlWiden d q tag region next true = c.widenPut s.ctx d tag (fun k =>
      { k with widened := true, count := satAdd k.count 1, execs := k.execs + 1, taken := k.taken + 1 }) := by
  simp only [Chip.ctlWiden, hs, if_true, Chip.widenPut]

/-- The execution of a branch that is not taken. -/
def WidenEntry.passed (k : WidenEntry) : WidenEntry := { k with execs := k.execs + 1 }

theorem ctlWiden_skip {o : W32} (hs : c.stream d q = some s)
    (hskip : (c.widenPut s.ctx d tag (·.passed)).skipRegion s.ctx s.image region.toNat next = .ok o) :
    c.ctlWiden d q tag region next false = (c.widenPut s.ctx d tag (·.passed)).modImp d q (fun x => { x with pc := o }) := by
  have hskip' : (c.modSide s.ctx d (fun x => { x with widen := tmod {} x.widen (tag.toNat % 4096) (fun k : WidenEntry =>
      { k with execs := k.execs + 1 }) })).skipRegion s.ctx s.image region.toNat next = .ok o := hskip
  simp only [Chip.ctlWiden, hs, Bool.false_eq_true, if_false, hskip'] <;> rfl

theorem ctlWiden_leaves {o : W32} (hs : c.stream d q = some s)
    (hskip : (c.widenPut s.ctx d tag (·.passed)).skipRegion s.ctx s.image region.toNat next = .error o) :
    c.ctlWiden d q tag region next false = (c.widenPut s.ctx d tag (·.passed)).raiseTrap d q 127 0x0D 0 o := by
  have hskip' : (c.modSide s.ctx d (fun x => { x with widen := tmod {} x.widen (tag.toNat % 4096) (fun k : WidenEntry =>
      { k with execs := k.execs + 1 }) })).skipRegion s.ctx s.image region.toNat next = .error o := hskip
  simp only [Chip.ctlWiden, hs, Bool.false_eq_true, if_false, hskip'] <;> rfl

theorem takes_iff (w : WidenEntry) : w.takes = true ↔ w.enable = true ∧ w.thresh.toNat * w.decConv < w.decClip * 2 ^ 24 := by
  rw [WidenEntry.takes, Bool.and_eq_true, decide_eq_true_eq]

end

/-- Settles O23: the branch is decided by the counts before the sheet, and acts on what the issued sheet leaves. -/
theorem widenBranch : Obligations.WidenBranch := by
  unfold Obligations.WidenBranch
  intro p c k s tag region h hregion htag d q off b w put
  have hs : c.stream k.die k.part = some s := h.1
  have hb : b.stream d q = some (s.issuedAt k.delay.toNat off) := stream_ctlBase hs _ _
  have hok : c.ctlCheck k.die k.part (.widen tag region) = none := (if_neg hregion).trans (if_pos htag)
  have run {takes : Bool} {x : Chip} (ht : w.takes = takes) (hx : b.ctlWiden d q tag region (off + 3) takes = x) :
      exec (.widen k tag region) ⟨p, c⟩ = .next ⟨p, x⟩ := by
    have hnow : c.takesNow k.die k.part (.widen tag region) = takes := (widenTakes_eq hs tag).trans ht
    have hexec : exec (.widen k tag region) ⟨p, c⟩ = .next ⟨p, c.control k (.widen tag region)⟩ := rfl
    rw [hexec, control_of_ok h hok, hnow]
    exact congrArg (fun x => Host.Outcome.next (State.mk p x)) hx
  exact ⟨fun ht => run ht (ctlWiden_taken (s := s.issuedAt k.delay.toNat off) hb),
    fun ht o ho => run ht (ctlWiden_skip (s := s.issuedAt k.delay.toNat off) hb ho),
    fun ht o ho => run ht (ctlWiden_leaves (s := s.issuedAt k.delay.toNat off) hb ho), takes_iff w⟩

end Sys2Proof.Machine
end

section
/-!
PROOFS. Beat boundaries of a die, and the events of a stream (R123, R124, R131, R135, R136, R156, R157, R373, R398).
-/
namespace Sys2Proof.Machine

/-! ### Beat boundaries -/

section
variable {c : Chip} {d : Die}

/-- What the boundary ends: the beat in progress, where one is. -/
def Chip.beatEnded (c : Chip) (d : Die) : Chip := if (c.die d).dbg.frozen then c else c.closeBeat d

/-- The die stands still from this boundary on. -/
def Chip.standStill (c : Chip) (d : Die) : Chip :=
  c.modDie d (fun m => { m with dbg := { m.dbg with halted := true, frozen := true } })

theorem pressOn_iff (c : Chip) : c.pressOn = true ↔ c.pwr.railsOn = true ∧ c.boot.phase ≠ 9 := by
  rw [Chip.pressOn, Bool.and_eq_true, decide_eq_true_eq]

theorem beat_of_off (h : c.pressOn = false) : c.beat d = c := by
  simp only [Chip.beat, h, Bool.not_false, if_true]

theorem beat_of_running (hon : c.pressOn = true) (hhalted : (c.die d).dbg.halted = false) (hhalt : (c.die d).dbg.halt = false) :
    c.beat d = ((c.beatEnded d).runBeat d).showHalt d := by
  simp [Chip.beat, Chip.beatEnded, hon, hhalted, hhalt]

theorem beat_of_standing (hon : c.pressOn = true) (hsteps : (c.die d).dbg.stepsLeft = 0)
    (h : (c.die d).dbg.halt = true ∨ (c.die d).dbg.halted = true) : c.beat d = ((c.beatEnded d).standStill d).showHalt d := by
  simp [Chip.beat, Chip.beatEnded, Chip.standStill, hon, hsteps, h]

theorem beat_of_step (hon : c.pressOn = true) (hhalted : (c.die d).dbg.halted = true) (hsteps : (c.die d).dbg.stepsLeft ≠ 0) :
    c.beat d = (((c.beatEnded d).modDie d (fun m => { m with dbg := m.dbg.stepTaken })).runBeat d).showHalt d := by
  have hgo : decide ((c.die d).dbg.stepsLeft = 0) = false := decide_eq_false hsteps
  simp only [Chip.beat, Chip.beatEnded, hon, hhalted, hgo, Bool.not_true, Bool.and_false, Bool.false_eq_true, if_false, if_true]

theorem standStill_dbg (c : Chip) (d : Die) :
    ((c.standStill d).die d).dbg.halted = true ∧ ((c.standStill d).die d).dbg.frozen = true := by
  simp [Chip.standStill]

theorem clockStopped_of_frozen {u : UnitRef} (hfrozen : (c.die u.die).dbg.frozen = true) (hcls : slotClass u.pos ≠ .thatch)
    (hkill : (c.ctx (c.ctxOf u.die u.part)).killHeld = false) : c.clockStopped u = true := by
  simp [Chip.clockStopped, Chip.noBeat, hfrozen, hcls, hkill]

end

/-! ### The sheet buffer -/

/-- A block of the sheet section joins the buffer, of which the window keeps its part. -/
def Stream.fetched (s : Stream) (block lo len pc k : Nat) : Stream :=
  let s := { s with image := { s.image with kept := tfilter (fun k _ => decide (k / 256 ≠ block)) s.image.kept } }
  (if lo ≤ s.bufHi ∧ s.bufLo ≤ lo + 4096 ∧ s.bufLo ≠ s.bufHi then
    { s with bufLo := min s.bufLo lo, bufHi := max s.bufHi (lo + len) }
  else { s with bufLo := lo, bufHi := lo + len }).trim pc k

theorem trim_frame (s : Stream) (pc k : Nat) : s.trim pc k = { s with bufLo := (s.trim pc k).bufLo, bufHi := (s.trim pc k).bufHi } := by
  simp only [Stream.trim]
  split <;> rfl

theorem fetched_frame (s : Stream) (block lo len pc k : Nat) : s.fetched block lo len pc k =
    { s with image := (s.fetched block lo len pc k).image, bufLo := (s.fetched block lo len pc k).bufLo,
             bufHi := (s.fetched block lo len pc k).bufHi } := by
  simp only [Stream.fetched]
  rw [trim_frame]
  split <;> rfl

theorem trim_of_inside {s : Stream} {pc k : Nat} (hlo : pc - 131072 / k ≤ s.bufLo) (hhi : s.bufHi ≤ pc + 393216 / k)
    (hlt : s.bufLo < s.bufHi) : s.trim pc k = s := by
  simp only [Stream.trim, max_eq_left hlo, min_eq_left hhi, hlt, if_true]

theorem fetched_of_empty {s : Stream} {block lo len pc k : Nat} (hempty : s.bufLo = s.bufHi) (hlo : pc - 131072 / k ≤ lo)
    (hhi : lo + len ≤ pc + 393216 / k) (hlen : 0 < len) :
    (s.fetched block lo len pc k).bufLo = lo ∧ (s.fetched block lo len pc k).bufHi = lo + len := by
  simp only [Stream.fetched, ne_eq, hempty, not_true_eq_false, and_false, if_false]
  rw [trim_of_inside (by exact hlo) (by exact hhi) (by simpa using hlen)]
  exact ⟨rfl, rfl⟩

section
variable {c : Chip} {d : Die} {q b lo len k pc : Nat} {s : Stream}

/-- A block is in the window around the next sheet of the partition. -/
def Near (lo len k pc : Nat) : Prop := lo < pc + 393216 / k ∧ pc - 131072 / k < lo + len

theorem fetchBlock_eq (hs : c.stream d q = some s) (hrun : s.stopped = false) (hb : b * 4096 < s.image.sheetSize) (hlo : lo = b * 4096)
    (hlen : len = min 4096 (s.image.sheetSize - lo)) (hk : k = max 1 (c.die d).running) (hpc : pc = (c.imp d q).pc.toNat * 16) :
    c.fetchBlock d q b = if pc + 393216 / k ≤ lo ∨ lo + len ≤ pc - 131072 / k then c else
      match (c.readVa s.ctx (s.image.sheetVa.toNat + lo) len).2 with
      | .error f => c.midFault d q 127 0 0 f
      | .ok _ => (c.readVa s.ctx (s.image.sheetVa.toNat + lo) len).1.modStream d q (fun s => s.fetched b lo len pc k) := by
  subst hlen hk hpc
  subst hlo
  have hin : ¬ (s.stopped = true ∨ s.image.sheetSize ≤ b * 4096) := by simp [hrun]; omega
  simp only [Chip.fetchBlock, hs]
  exact (if_neg hin).trans rfl

theorem near_iff : ¬ Near lo len k pc ↔ pc + 393216 / k ≤ lo ∨ lo + len ≤ pc - 131072 / k := by
  simp only [Near]
  omega

end

/-! ### Traps that arrive -/

/-- A change of a stream is what it does to the stream that is there. -/
theorem modStream_congr {c : Chip} {d : Die} {q : Nat} {s : Stream} {f g : Stream → Stream} (hs : c.stream d q = some s) (h : f s = g s) :
    c.modStream d q f = c.modStream d q g := by
  rw [Chip.stream] at hs
  exact modDie_congr (by simp only [tmod, hs, Option.map_some, h])

theorem tryHalt_of_idle {c : Chip} {d : Die} {q : Nat} {s : Stream} (hs : c.stream d q = some s) (hhalted : s.halted = true)
    (hrun : s.stopped = false) (hidle : s.allIdle = true) :
    c.tryHalt d q = ((c.modStream d q (fun s => { s with stopped := true, units := [], wait := .none })).modImp d q
      (fun i => { i with state := 3, waitKind := 0 })).afterHalt s.ctx := by
  simp only [Chip.tryHalt, hs, hhalted, hrun, hidle]
  exact if_neg (by decide)

theorem waitTimeout_of_late {c : Chip} {d : Die} {q : Nat} {s : Stream} {i : BitVec 12} {half : Bool} {n : W16} {t : W64}
    (hs : c.stream d q = some s) (hwait : s.wait = .wait i half n (some t)) (hrun : s.stopped = false) (hlate : t < c.ridgeOf d)
    (hmet : s.met = false) : c.waitTimeout d q = c.raiseTrap d q 126 0x0F 0 s.lastPc := by
  have h : t < c.ridgeOf d ∧ (!(s.met && c.semHas d (c.pair q i.toNat) half n.toNat)) = true ∧ (!s.stopped) = true :=
    ⟨hlate, by rw [hmet, Bool.false_and, Bool.not_false], by rw [hrun, Bool.not_false]⟩
  simp only [Chip.waitTimeout, hs, hwait]
  exact if_pos h

/-- Settles O24: a boundary by the state of the die's clock, and each event of a stream by the state of the stream. -/
theorem beatsAndStreamEvents : Obligations.BeatsAndStreamEvents := by
  unfold Obligations.BeatsAndStreamEvents
  have next {p : List Instr} {i : Instr} {c c1 x : Chip} (hrun : exec i ⟨p, c⟩ = .next ⟨p, x⟩) (hx : x = c1) :
      exec i ⟨p, c⟩ = .next ⟨p, c1⟩ := hx ▸ hrun
  refine ⟨fun p c d => ⟨fun hon hhalted hhalt => next rfl (beat_of_running hon hhalted hhalt),
    fun hon hsteps h => ⟨next rfl (beat_of_standing hon hsteps h), (standStill_dbg (c.beatEnded d) d).1, ?_⟩,
    fun hon hhalted hsteps => next rfl (beat_of_step hon hhalted hsteps), fun hoff => next rfl (beat_of_off hoff), pressOn_iff c⟩,
    fun p c d q s hs => ⟨fun b hrun hb => ?_, fun hhalted hrun hidle => next rfl (tryHalt_of_idle hs hhalted hrun hidle),
      fun i half n t hwait hrun hlate hmet => next rfl (waitTimeout_of_late hs hwait hrun hlate hmet), fun t ht hrun => ?_,
      fun pos cause code => ⟨fun ho => ?_, fun o ho => ?_⟩⟩⟩
  case refine_1 =>
    rintro u rfl hcls hkill
    exact clockStopped_of_frozen (standStill_dbg (c.beatEnded u.die) u.die).2 hcls hkill
  case refine_2 =>
    intro lo len k pc near
    have hfetch := fetchBlock_eq hs hrun hb (lo := lo) (len := len) (k := k) (pc := pc) rfl rfl rfl rfl
    have inside (h : near) := hfetch.trans (if_neg (fun hfar => near_iff.2 hfar h))
    refine ⟨fun hnear c1 bs hread => ⟨fun x => x.fetched b lo len pc k, next rfl ((inside hnear).trans (by rw [hread])),
      fun x => fetched_frame x b lo len pc k, fun hempty hlo hhi => fetched_of_empty hempty hlo hhi ?_⟩,
      fun hnear c1 f hread => next rfl ((inside hnear).trans (by rw [hread])),
      fun hfar => next rfl (hfetch.trans (if_pos (near_iff.1 hfar)))⟩
    show 0 < min 4096 (s.image.sheetSize - b * 4096)
    omega
  case refine_3 =>
    refine next rfl (modStream_congr hs ?_)
    rw [ht, hrun] <;> rfl
  case refine_4 =>
    refine next (x := c.raiseTrap d q pos cause.toNat code.toNat
      (match c.op { die := d, part := q, pos := pos } with | some o => o.e.pc | none => (c.imp d q).pc)) rfl ?_
    rw [ho]
  case refine_5 =>
    refine next (x := c.raiseTrap d q pos cause.toNat code.toNat
      (match c.op { die := d, part := q, pos := pos } with | some o => o.e.pc | none => (c.imp d q).pc)) rfl ?_
    rw [ho]

end Sys2Proof.Machine
end

section
/-!
PROOFS. Completions of ops and their records (R83, R107, R120, R132, R133, R150, R398).
-/
namespace Sys2Proof.Machine

section
variable {c : Chip} {u : UnitRef} {o : Op}

theorem stream_of_op (ho : c.op u = some o) : ∃ s, c.stream u.die u.part = some s ∧ (s.unit u.pos).op = some o := by
  simpa [Chip.op, Option.bind_eq_some_iff] using ho

theorem quiet_of_no_trap (h : ∀ s, c.stream u.die u.part = some s → s.trapDue = false) : c.quiet u.die u.part = false := by
  rw [Chip.quiet]
  cases hs : c.stream u.die u.part with
  | none => rfl
  | some s => exact h s hs

/-- A change of a unit's op leaves the partition's context where it was. -/
theorem ctxOf_modOp (ho : c.op u = some o) (f : Op → Op) : (c.modOp u f).ctxOf u.die u.part = c.ctxOf u.die u.part := by
  obtain ⟨s, hs, -⟩ := stream_of_op ho
  rw [ctxOf_of_stream hs]
  exact ctxOf_of_stream (s := s.modUnit u.pos (fun x => { x with op := x.op.map f })) (stream_modStream _ _ _ _ hs)

/-! ### When an op completes -/

/-- Nothing keeps a unit's op, whose work is done, from completing but the platen's issue and the die's clock. -/
theorem completeOp_eq (ho : c.op u = some o) (hw : o.worked = true) (hc : o.completed = false) (hq : c.quiet u.die u.part = false) :
    c.completeOp u = if c.held u o || c.clockStopped u then c
      else if slotClass u.pos = .thatch then
        (c.modStk (stackOfTe u.die (u.pos - 64)) (fun k => { k with logits := k.logits.map (fun e =>
          if e.writer = some u.pos then { e with writer := none, readable := decide (e.len ≤ e.scores.length) } else e) })).modOp u
          (fun o => { o with completed := true })
      else c.recordOp u := by
  simp only [Chip.completeOp, ho, hw, hc, hq, Bool.not_true, Bool.false_or]

theorem held_iff : c.held u o = true ↔ u.pos < 64 ∧ o.e.opc = 1 ∧ (c.platen u.die u.pos).hold = true := by
  rw [Chip.held, Bool.and_eq_true, Bool.and_eq_true, decide_eq_true_eq, decide_eq_true_eq, and_assoc]

theorem clockStopped_of_ne (h : slotClass u.pos ≠ .thatch) : c.clockStopped u = c.noBeat u.die u.part := by
  rw [Chip.clockStopped, decide_eq_true h, Bool.true_and]

theorem clockStopped_of_thatch (h : slotClass u.pos = .thatch) : c.clockStopped u = false := by
  simp [Chip.clockStopped, h]

theorem not_held_of_thatch (h : slotClass u.pos = .thatch) : c.held u o = false := by
  have hpos : ¬ u.pos < 64 := by
    intro hlt
    rw [slotClass, if_pos hlt] at h
    cases h
  rw [Chip.held, decide_eq_false hpos, Bool.false_and, Bool.false_and]

/-- The rows of a stack's logits ring that an engine has filled are readable. -/
def Chip.rowsFilled (c : Chip) (u : UnitRef) : Chip :=
  c.modStk (stackOfTe u.die (u.pos - 64)) (fun k => { k with logits := k.logits.map (fun e =>
    if e.writer = some u.pos then { e with writer := none, readable := decide (e.len ≤ e.scores.length) } else e) })

theorem stk_modStk {c : Chip} {f : StackSt → StackSt} {n : Nat} (hw : Tab.wf ({} : StackSt) c.stks = true) (k : Nat) :
    (c.modStk n f).stk k = if k = n then f (c.stk n) else c.stk k := by
  rw [Chip.stk, Chip.modStk]
  by_cases h : k = n
  · rw [if_pos h, h]
    exact tget_tmod_same hw
  · rw [if_neg h]
    exact tget_tmod_ne h

theorem stk_rowsFilled (hw : Tab.wf ({} : StackSt) c.stks = true) (k : Nat) : (c.rowsFilled u).stk k =
    if k = stackOfTe u.die (u.pos - 64) then { c.stk k with logits := (c.stk k).logits.map (fun e =>
      if e.writer = some u.pos then { e with writer := none, readable := decide (e.len ≤ e.scores.length) } else e) } else c.stk k := by
  rw [Chip.rowsFilled, stk_modStk hw]
  by_cases h : k = stackOfTe u.die (u.pos - 64)
  · rw [if_pos h, if_pos h, h]
  · rw [if_neg h, if_neg h]

/-! ### What the record of a completion does -/

theorem linkAdds_of_unlinked (h : (o.descs.getD []).all (fun ws => !(descOf ws).lvalid) = true) (c : Chip) : c.linkAdds u o = c := by
  have hskip : ∀ x ∈ ((o.descs.getD []).map descOf).zipIdx, x.1.lvalid = false := by
    rintro ⟨g, i⟩ hx
    obtain ⟨ws, hws, rfl⟩ := List.mem_map.1 (List.fst_mem_of_mem_zipIdx hx)
    simpa using List.all_eq_true.1 h ws hws
  rw [Chip.linkAdds]
  generalize ((o.descs.getD []).map descOf).zipIdx = l at hskip ⊢
  induction l generalizing c with
  | nil => rfl
  | cons x l ih =>
    have hx : (if (x.1.lvalid && o.links.contains x.2) = true then
        c.signal u.die u.part x.1.lpair (!o.dests.contains x.2) x.1.lxdie x.1.lcount (c.opKnows u) else c) = c := by
      rw [hskip x List.mem_cons_self]
      exact if_neg Bool.false_ne_true
    rw [List.foldl_cons]
    exact (congrArg (fun c => List.foldl _ c l) hx).trans (ih c (fun y hy => hskip y (List.mem_cons_of_mem x hy)))

theorem recordOp_eq (ho : c.op u = some o) (hfin : o.fin = none) (hlinks : (o.descs.getD []).all (fun ws => !(descOf ws).lvalid) = true)
    (hmore : o.e.i < o.e.rep) :
    let n := c.ctxOf u.die u.part
    let c1 := (c.modOp u (fun o => { o with worked := true, completed := true, recorded := true })).keepWrites n u o
    let ids := c1.opKnows u
    let c2 := (c1.learn n (.unit u.die u.pos) ids).learn n (.cls u.die (slotClass u.pos).index) ids
    c.recordOp u = if slotSig o.e.slot.toNat then
        c2.signal u.die u.part (slotSem o.e.slot.toNat) (slotHalf o.e.slot.toNat) (slotXdie o.e.slot.toNat) 1 ids
      else c2 := by
  intro n c1 ids c2
  have hlast : ¬ o.e.rep ≤ o.e.i := Nat.not_le.2 hmore
  simp only [Chip.recordOp, ho, hfin, ctxOf_modOp ho, linkAdds_of_unlinked hlinks]
  exact if_neg hlast

end

/-- Settles O25: a completion by what its unit's class, platen and clock allow, and the record of one by its parts. -/
theorem opCompletions : Obligations.OpCompletions := by
  unfold Obligations.OpCompletions
  have next {p : List Instr} {i : Instr} {c c1 x : Chip} (hrun : exec i ⟨p, c⟩ = .next ⟨p, x⟩) (hx : x = c1) :
      exec i ⟨p, c⟩ = .next ⟨p, c1⟩ := hx ▸ hrun
  refine ⟨fun p c u o ho htrap => ?_, fun p c d x t hx => ?_⟩
  case refine_2 =>
    rw [exec, execCrossDieSignal, State.run]
    dsimp only
    rw [hx]
  have hq := quiet_of_no_trap htrap
  refine ⟨fun hopc hrec hbeat => ?_, fun hw hc => ?_, fun hcls hc hrec hbeat => ?_, recordOp_eq ho⟩
  case refine_1 =>
    rw [exec, execSlotNop, State.run]
    simp [ho, hopc, hrec, hq, hbeat]
  case refine_3 =>
    rw [exec, execThatchCompletionRecord, State.run]
    simp [ho, hcls, hc, hrec, hq, hbeat]
  case refine_2 =>
    have hcomplete := completeOp_eq ho hw hc hq
    refine ⟨fun hcls hfree hbeat => next rfl ?_, fun hcls hbeat => next rfl ?_, fun hpos hopc hhold => next rfl ?_,
      fun hcls => ⟨c.rowsFilled u, next rfl ?_, rfl, stk_rowsFilled⟩⟩
    · have hheld : c.held u o = false := Bool.eq_false_iff.2 (fun h => hfree (held_iff.1 h))
      simp [hcomplete, hheld, clockStopped_of_ne hcls, hbeat, hcls]
    · simp [hcomplete, clockStopped_of_ne hcls, hbeat]
    · simp [hcomplete, held_iff.2 ⟨hpos, hopc, hhold⟩]
    · simp [hcomplete, not_held_of_thatch hcls, clockStopped_of_thatch hcls, hcls, Chip.rowsFilled]

end Sys2Proof.Machine
end

section
/-!
PROOFS. Lists are fetched and the counts of linked descriptors taken (R138, R143, R144, R148, R150, R224).
-/
namespace Sys2Proof.Machine

/-! ### Lists -/

section
variable {c c1 : Chip} {u : UnitRef} {s : Stream} {e : Entry}

theorem fetchList_of_empty (hs : c.stream u.die u.part = some s) (h : bits (tget 0 s.image.dlists e.dlist : W64).toNat 57 48 = 0) :
    c.fetchList u e = (c, .trap 0x07) := by
  simp only [Chip.fetchList, hs]
  exact if_pos h

theorem fetchList_of_misaligned (hs : c.stream u.die u.part = some s) (h : bits (tget 0 s.image.dlists e.dlist : W64).toNat 57 48 ≠ 0)
    (h64 : bits (tget 0 s.image.dlists e.dlist : W64).toNat 47 0 % 64 ≠ 0) :
    c.fetchList u e = (c, .fault 0 (af (bits (tget 0 s.image.dlists e.dlist : W64).toNat 47 0))) := by
  simp only [Chip.fetchList, hs]
  exact (if_neg h).trans (if_pos h64)

/-- How a fetch ends for the entry, with `put` where its list goes. -/
def Chip.fetchEnds (c : Chip) (u : UnitRef) (e : Entry) (put : Chip → List (List W64) → List Nat → List Nat → List Out → Chip) : Chip :=
  match (c.fetchList u e).2 with
  | .trap cause => (c.fetchList u e).1.raiseTrap u.die u.part u.pos cause 0 e.pc
  | .fault d f => (c.fetchList u e).1.midFault u.die u.part u.pos d e.dlist f
  | .ok dl wides dests outs => (put (c.fetchList u e).1 dl wides dests outs).feed u

variable {put : Chip → List (List W64) → List Nat → List Nat → List Out → Chip}

theorem fetchEnds_ok {dl : List (List W64)} {ws ds : List Nat} {os : List Out} (h : c.fetchList u e = (c1, .ok dl ws ds os)) :
    c.fetchEnds u e put = (put c1 dl ws ds os).feed u := by
  simp only [Chip.fetchEnds, h]

theorem fetchEnds_trap {cause : Nat} (h : c.fetchList u e = (c1, .trap cause)) :
    c.fetchEnds u e put = c1.raiseTrap u.die u.part u.pos cause 0 e.pc := by
  simp only [Chip.fetchEnds, h]

theorem fetchEnds_fault {k : Nat} {f : AccFault} (h : c.fetchList u e = (c1, .fault k f)) :
    c.fetchEnds u e put = c1.midFault u.die u.part u.pos k e.dlist f := by
  simp only [Chip.fetchEnds, h]

theorem feed_of_no_platen (h : 64 ≤ u.pos) : c.feed u = c := by
  rw [Chip.feed, if_pos h]

/-- The list of the op in progress is held by the op. -/
def Chip.listOfOp (u : UnitRef) (n : Nat) (c : Chip) (dl : List (List W64)) (ws ds : List Nat) (os : List Out) : Chip :=
  c.modOp u (fun o => { o with descs := some dl, view := some { sel := (c.ctx n).train.active }, wides := ws, dests := ds, outs := os })

/-- The list of the entry at the head of the queue is held by the entry. -/
def Chip.listOfHead (u : UnitRef) (e : Entry) (t : List Entry) (c : Chip) (dl : List (List W64)) (ws ds : List Nat) (os : List Out) : Chip :=
  c.modStream u.die u.part (fun s => s.modUnit u.pos (fun k =>
    { k with queue := { e with descs := some dl, view := some { sel := (c.ctx s.ctx).train.active }, wides := ws, dests := ds, outs := os } :: t }))

theorem op_of_stream (hs : c.stream u.die u.part = some s) : c.op u = (s.unit u.pos).op := by
  rw [Chip.op, hs, Option.bind_some]

theorem listFetch_of_op {o : Op} (hs : c.stream u.die u.part = some s) (hrun : s.stopped = false) (ho : c.op u = some o)
    (hlist : o.e.noList u.pos = false) (hdescs : o.descs = none) : c.listFetch u = c.fetchEnds u o.e (Chip.listOfOp u s.ctx) := by
  have ho' : (s.unit u.pos).op = some o := (op_of_stream hs).symm.trans ho
  simp only [Chip.listFetch, hs, hrun, ho', hlist, hdescs, Option.isSome_none, Bool.or_false, Bool.false_eq_true, if_false] <;> rfl

theorem listFetch_of_head {t : List Entry} (hs : c.stream u.die u.part = some s) (hrun : s.stopped = false)
    (hqueue : (s.unit u.pos).queue = e :: t) (hlist : e.noList u.pos = false) (hdescs : e.descs = none)
    (hop : ∀ o, c.op u = some o → o.e.noList u.pos = true ∨ o.descs ≠ none) :
    c.listFetch u = c.fetchEnds u e (Chip.listOfHead u e t) := by
  have hhas (o : Op) (ho : (s.unit u.pos).op = some o) : (o.e.noList u.pos || o.descs.isSome) = true := by
    rw [Bool.or_eq_true, ← Option.ne_none_iff_isSome]
    exact hop o ((op_of_stream hs).trans ho)
  cases ho : (s.unit u.pos).op with
  | none =>
    simp only [Chip.listFetch, hs, hrun, ho, hqueue, hlist, hdescs, Option.isSome_none, Bool.or_false, Bool.false_eq_true, if_false] <;> rfl
  | some o =>
    simp only [Chip.listFetch, hs, hrun, ho, hhas o ho, hqueue, hlist, hdescs, Option.isSome_none, Bool.or_false, Bool.false_eq_true,
      if_false, if_true] <;> rfl

end

/-! ### What a link take leaves alone -/

/-- Two states with the same streams and the same semaphores. -/
def SameFlow (c c' : Chip) : Prop := ∀ d, (c'.die d).streams = (c.die d).streams ∧ (c'.die d).sems = (c.die d).sems

theorem SameFlow.refl (c : Chip) : SameFlow c c := fun _ => ⟨rfl, rfl⟩

theorem SameFlow.trans {a b c : Chip} (h : SameFlow a b) (h' : SameFlow b c) : SameFlow a c :=
  fun d => ⟨(h' d).1.trans (h d).1, (h' d).2.trans (h d).2⟩

theorem sameFlow_modDie (c : Chip) (d : Die) {f : DieSt → DieSt} (hf : ∀ m, (f m).streams = m.streams ∧ (f m).sems = m.sems) :
    SameFlow c (c.modDie d f) := by
  intro d'
  by_cases h : d' = d
  · subst h
    rw [die_modDie]
    exact hf _
  · rw [die_modDie_ne c _ h]
    exact ⟨rfl, rfl⟩

theorem sameFlow_turn (c : Chip) (d : Die) (pair : Nat) (empty contested : Bool) (last : Nat) :
    SameFlow c (c.turn d pair empty contested last) := by
  rw [Chip.turn]
  split
  · exact sameFlow_modDie c d (fun _ => ⟨rfl, rfl⟩)
  · exact .refl c

theorem sameFlow_hears (c : Chip) (h : Holder) (d : Die) (pair : Nat) (empty : Bool) : SameFlow c (c.hears h d pair empty) := by
  obtain ⟨x, hx⟩ := hears_frame c h d pair empty
  rw [hx]
  exact fun d => by cases d <;> exact ⟨rfl, rfl⟩

theorem sameFlow_feed (c : Chip) (u : UnitRef) : SameFlow c (c.feed u) := by
  simp only [Chip.feed]
  split
  · exact .refl c
  · split
    · exact .refl c
    · split
      · exact .refl c
      · exact sameFlow_modDie c u.die (fun _ => ⟨rfl, rfl⟩)


/-! ### The take -/

section
variable {c c1 : Chip} {u : UnitRef} {s : Stream} {i : Nat} {ws : List W64} {d : Die} {pr : Nat} {a : Ask}

theorem stream_of_sameFlow (h : SameFlow c c1) (d : Die) (q : Nat) : c1.stream d q = c.stream d q := by
  rw [Chip.stream, (h d).1, Chip.stream]

theorem semHas_of_sameFlow (h : SameFlow c c1) (d : Die) (pair : Nat) (half : Bool) (n : Nat) :
    c1.semHas d pair half n = c.semHas d pair half n := by
  rw [Chip.semHas, DieSt.sem, (h d).2, Chip.semHas, DieSt.sem]

/-- No more than the take asks for is on its way to the half. -/
def Chip.unasked (c : Chip) (d : Die) (a : Ask) : Chip := c.modDie d (fun m => { m with asks := m.asks.erase a })

/-- The half gives its count to a link, and the rotation goes past the unit. -/
def Chip.linkTaken (c : Chip) (d : Die) (a : Ask) : Chip :=
  ((((c.unasked d a).turn d a.pair a.empty ((c.unasked d a).contested d a.pair a.empty a.n) (unitRequester d a.u)).granted d (.link a)).semTake
    d a.pair a.empty a.n).feed a.u

/-- The take waits at the half. -/
def Chip.linkAsked (c : Chip) (d : Die) (a : Ask) : Chip := (c.unasked d a).modDie d (fun m => { m with asks := m.asks ++ [a] })

theorem sameFlow_unasked (c : Chip) (d : Die) (a : Ask) : SameFlow c (c.unasked d a) := sameFlow_modDie c d (fun _ => ⟨rfl, rfl⟩)

/-- The die of a descriptor's pair, and what a take of its count asks of that die. -/
def linkDie (u : UnitRef) (g : Desc) : Die := if g.lxdie then u.die.other else u.die

def Chip.linkAsk (c : Chip) (u : UnitRef) (i : Nat) (g : Desc) (dest ahead : Bool) : Ask :=
  { u := u, desc := i, pair := c.pair u.part g.lpair, empty := dest, n := g.lcount, ahead := ahead }

theorem linkTake_of_has {g : Desc} {dest ahead : Bool} (hfor : c.linkFor u i = some (g, dest, ahead))
    (hhas : c.semHas (linkDie u g) (c.pair u.part g.lpair) dest g.lcount = true) :
    c.linkTake u i = c.linkTaken (linkDie u g) (c.linkAsk u i g dest ahead) := by
  rw [← semHas_of_sameFlow (sameFlow_unasked c (linkDie u g) (c.linkAsk u i g dest ahead))] at hhas
  simp only [Chip.linkTake, hfor]
  exact if_pos hhas

theorem linkTake_of_short {g : Desc} {dest ahead : Bool} (hfor : c.linkFor u i = some (g, dest, ahead))
    (hshort : c.semHas (linkDie u g) (c.pair u.part g.lpair) dest g.lcount = false) :
    c.linkTake u i = if ahead then c.linkAsked (linkDie u g) (c.linkAsk u i g dest ahead)
      else (c.linkAsked (linkDie u g) (c.linkAsk u i g dest ahead)).opWaits u := by
  rw [← semHas_of_sameFlow (sameFlow_unasked c (linkDie u g) (c.linkAsk u i g dest ahead))] at hshort
  simp only [Chip.linkTake, hfor]
  exact if_neg (Bool.eq_false_iff.1 hshort)

theorem pendingLink_of_free {dl : List (List W64)} {links : List Nat} (hws : dl[i]? = some ws) (hl : (descOf ws).lvalid = true)
    (hfree : links.contains i = false) : pendingLink dl links i = some (descOf ws) := by
  rw [pendingLink, hws, Option.bind_some, hl, hfree]
  exact if_pos rfl

theorem linkFor_of_op {o : Op} (hs : c.stream u.die u.part = some s) (ho : (s.unit u.pos).op = some o) (hws : (o.descs.getD [])[i]? = some ws)
    (hl : (descOf ws).lvalid = true) (hfree : o.links.contains i = false) (hw : o.worked = false) :
    c.linkFor u i = some (descOf ws, o.dests.contains i, false) := by
  simp only [Chip.linkFor, hs, ho, hw, pendingLink_of_free hws hl hfree, Bool.false_eq_true, if_false, Option.map_some] <;> rfl

theorem linkFor_of_head {e : Entry} {t : List Entry} {dl : List (List W64)} (hs : c.stream u.die u.part = some s)
    (ho : (s.unit u.pos).op = none) (hqueue : (s.unit u.pos).queue = e :: t) (hdefer : e.deferred u.pos = true) (hdescs : e.descs = some dl)
    (hws : dl[i]? = some ws) (hlast : i + 1 = dl.length) (hl : (descOf ws).lvalid = true) (hfree : e.links.contains i = false) :
    c.linkFor u i = some (descOf ws, false, true) := by
  have h : e.deferred u.pos = true ∧ i + 1 = dl.length := ⟨hdefer, hlast⟩
  simp only [Chip.linkFor, hs, ho, hqueue, hdescs, Option.getD_some, pendingLink_of_free hws hl hfree, Option.map_some, if_pos h] <;> rfl

theorem clipReady_of_head {e : Entry} {t : List Entry} {dl : List (List W64)} (hcls : slotClass u.pos = .update)
    (hs : c.stream u.die u.part = some s) (hqueue : (s.unit u.pos).queue = e :: t) (hdefer : e.deferred u.pos = true)
    (hdescs : e.descs = some dl) (hlast : i + 1 = dl.length) : c.clipReady u = c.linkTake u i := by
  have hplace : c.clipPlace u = some i := by
    simp only [Chip.clipPlace, hs, Option.map_some, Option.getD_some, hqueue, hdefer, if_true, hdescs]
    exact congrArg some (by omega)
  rw [Chip.clipReady, hplace]
  exact if_neg (not_not_intro hcls)

/-! ### What a take changes -/

theorem unit_modUnit {s : Stream} {pos : Nat} {f : UnitQ → UnitQ} (h : f (s.unit pos) ≠ {}) : (s.modUnit pos f).unit pos = f (s.unit pos) :=
  tget_tmod_of_ne_default h

theorem op_modOp {o : Op} (ho : c.op u = some o) (f : Op → Op) : (c.modOp u f).op u = some (f o) := by
  obtain ⟨s, hs, hunit⟩ := stream_of_op ho
  have hne : ({ s.unit u.pos with op := (s.unit u.pos).op.map f } : UnitQ) ≠ {} := by
    intro h
    have hop := congrArg UnitQ.op h
    rw [hunit] at hop
    cases hop
  have hstream : (c.modOp u f).stream u.die u.part = some (s.modUnit u.pos (fun x => { x with op := x.op.map f })) :=
    stream_modStream _ _ _ _ hs
  rw [op_of_stream hstream, unit_modUnit hne, hunit, Option.map_some]

theorem sems_modStream (c : Chip) (d : Die) (q : Nat) (f : Stream → Stream) (d' : Die) :
    ((c.modStream d q f).die d').sems = (c.die d').sems := by
  by_cases h : d' = d
  · subst h
    rw [Chip.modStream, die_modDie]
  · rw [Chip.modStream, die_modDie_ne c _ h]

theorem stream_semTake (c : Chip) (d : Die) (pair : Nat) (half : Bool) (n : Nat) (d' : Die) (q : Nat) :
    (c.semTake d pair half n).stream d' q = c.stream d' q := by
  rw [Chip.semTake, Chip.stream, Chip.stream]
  by_cases h : d' = d
  · subst h
    rw [die_modDie]
    have hw (m : DieSt) : ((m.watch pair half true (c.die d').ridge)).streams = m.streams := by
      obtain ⟨g, hg⟩ := watch_frame m pair half true (c.die d').ridge
      rw [hg]
    exact congrArg (fun t => tget none t q) (hw _)
  · rw [die_modDie_ne c _ h]

/-- The op in progress has its link. -/
def Op.linkedAt (o : Op) (i : Nat) : Op := { o with links := o.links ++ [i], waiting := false }

/-- The entry at the head of a queue has its link, and comes after the ops that its signals came after. -/
def UnitQ.headLinked (k : UnitQ) (i : Nat) (ids : List Nat) : UnitQ :=
  { k with queue := match k.queue with
    | e :: t => { e with links := e.links ++ [i], knows := e.knows ++ ids } :: t
    | [] => [] }

theorem granted_link_of_op (c : Chip) (d : Die) (hahead : a.ahead = false) : ∃ c1, SameFlow c c1 ∧
    c.granted d (.link a) = c1.modOp a.u (·.linkedAt a.desc) :=
  ⟨(c.unasked d a).hears (.unit a.u.die a.u.pos) d a.pair a.empty, (sameFlow_unasked c d a).trans (sameFlow_hears _ _ d a.pair a.empty), by
    simp only [Chip.granted, hahead, Bool.false_eq_true, if_false] <;> rfl⟩

theorem granted_link_of_head (c : Chip) (d : Die) (hahead : a.ahead = true) : ∃ c1 ids, SameFlow c c1 ∧
    c.granted d (.link a) = c1.modStream a.u.die a.u.part (fun s => s.modUnit a.u.pos (·.headLinked a.desc ids)) :=
  ⟨c.unasked d a, match c.pairCtx a.pair with | some n => c.knownTo n (.half d a.pair a.empty) | none => [], sameFlow_unasked c d a, by
    simp only [Chip.granted, hahead, if_true] <;> rfl⟩

/-- A granted link takes nothing from a pair itself. -/
theorem granted_link_sems (c : Chip) (d : Die) (a : Ask) (d' : Die) : ((c.granted d (.link a)).die d').sems = (c.die d').sems := by
  cases hahead : a.ahead with
  | false =>
    obtain ⟨c1, hc1, h⟩ := granted_link_of_op c d hahead
    rw [h, Chip.modOp, sems_modStream, (hc1 d').2]
  | true =>
    obtain ⟨c1, ids, hc1, h⟩ := granted_link_of_head c d hahead
    rw [h, sems_modStream, (hc1 d').2]

/-- What stands before a link is granted: the ask is no longer there, the rotation has gone on. -/
def Chip.linkTurned (c : Chip) (d : Die) (a : Ask) : Chip :=
  (c.unasked d a).turn d a.pair a.empty ((c.unasked d a).contested d a.pair a.empty a.n) (unitRequester d a.u)

theorem sameFlow_linkTurned (c : Chip) (d : Die) (a : Ask) : SameFlow c (c.linkTurned d a) :=
  (sameFlow_unasked c d a).trans (sameFlow_turn _ d a.pair a.empty _ _)

theorem stream_linkTaken (c : Chip) (d : Die) (a : Ask) (d' : Die) (q : Nat) :
    (c.linkTaken d a).stream d' q = ((c.linkTurned d a).granted d (.link a)).stream d' q := by
  rw [Chip.linkTaken, stream_of_sameFlow (sameFlow_feed _ a.u), stream_semTake, Chip.linkTurned]

theorem op_linkTaken {o : Op} (hahead : a.ahead = false) (ho : c.op a.u = some o) (d : Die) :
    (c.linkTaken d a).op a.u = some (o.linkedAt a.desc) := by
  obtain ⟨c1, hc1, h⟩ := granted_link_of_op (c.linkTurned d a) d hahead
  have ho1 : c1.op a.u = some o := by
    rw [Chip.op, stream_of_sameFlow ((sameFlow_linkTurned c d a).trans hc1)]
    exact ho
  rw [Chip.op, stream_linkTaken, h]
  exact op_modOp ho1 _

theorem stream_linkTaken_of_head (hahead : a.ahead = true) (hs : c.stream a.u.die a.u.part = some s) (d : Die) :
    ∃ ids, (c.linkTaken d a).stream a.u.die a.u.part = some (s.modUnit a.u.pos (·.headLinked a.desc ids)) := by
  obtain ⟨c1, ids, hc1, h⟩ := granted_link_of_head (c.linkTurned d a) d hahead
  refine ⟨ids, ?_⟩
  rw [stream_linkTaken, h]
  refine stream_modStream _ _ _ _ ?_
  rw [stream_of_sameFlow ((sameFlow_linkTurned c d a).trans hc1), hs]

theorem sem_linkTaken (hwf : Tab.wf ({} : Sem) (c.die d).sems = true) (k : Nat) : ((c.linkTaken d a).die d).sem k =
    if k = a.pair then ((c.die d).sem a.pair).setHalf a.empty (((c.die d).sem a.pair).half a.empty - BitVec.ofNat 16 a.n)
    else (c.die d).sem k := by
  have hsems : (((c.linkTurned d a).granted d (.link a)).die d).sems = (c.die d).sems := by
    rw [granted_link_sems, (sameFlow_linkTurned c d a d).2]
  rw [DieSt.sem, Chip.linkTaken, (sameFlow_feed _ a.u d).2, semTake_sems]
  rw [Chip.linkTurned] at hsems
  rw [hsems, DieSt.sem, hsems, tget_tput hwf, DieSt.sem, DieSt.sem]

theorem unit_headLinked {e : Entry} {t : List Entry} (hqueue : (s.unit u.pos).queue = e :: t) (i : Nat) (ids : List Nat) :
    ((s.modUnit u.pos (·.headLinked i ids)).unit u.pos).queue = { e with links := e.links ++ [i], knows := e.knows ++ ids } :: t := by
  have hlinked : ((s.unit u.pos).headLinked i ids).queue = { e with links := e.links ++ [i], knows := e.knows ++ ids } :: t := by
    rw [UnitQ.headLinked, hqueue]
  rw [unit_modUnit, hlinked]
  intro h
  rw [h] at hlinked
  cases hlinked

theorem mayStart_of_linked {e : Entry} {dl : List (List W64)} (hdescs : e.descs = some dl) (hlast : i + 1 = dl.length)
    (hlinks : i ∈ e.links) (pos : Nat) : e.mayStart pos = true := by
  have hi : dl.length - 1 = i := by omega
  simp [Entry.mayStart, hdescs, hi, hlinks]

end

/-- Settles O27: a fetch by how it ends, a take by what the half holds. -/
theorem listsAndLinks : Obligations.ListsAndLinks := by
  unfold Obligations.ListsAndLinks
  have next {p : List Instr} {i : Instr} {c c1 x : Chip} (hrun : exec i ⟨p, c⟩ = .next ⟨p, x⟩) (hx : x = c1) :
      exec i ⟨p, c⟩ = .next ⟨p, c1⟩ := hx ▸ hrun
  refine ⟨fun p c u s hs hrun => ?_, fun p c u s i ws hs hl => ?_⟩
  · have fetches {e : Entry} {put : Chip → List (List W64) → List Nat → List Nat → List Out → Chip}
        (h : c.listFetch u = c.fetchEnds u e put) := And.intro
      (fun (c1 : Chip) (dl : List (List W64)) (ws ds : List Nat) (os : List Out) (hf : c.fetchList u e = (c1, .ok dl ws ds os)) =>
        And.intro (next (i := .listFetch u) (p := p) rfl (h.trans (fetchEnds_ok hf))) (feed_of_no_platen (c := put c1 dl ws ds os) (u := u))) <|
      And.intro (fun (c1 : Chip) (cause : Nat) (hf : c.fetchList u e = (c1, .trap cause)) =>
        next (i := .listFetch u) (p := p) rfl (h.trans (fetchEnds_trap hf))) <|
      And.intro (fun (c1 : Chip) (k : Nat) (f : AccFault) (hf : c.fetchList u e = (c1, .fault k f)) =>
        next (i := .listFetch u) (p := p) rfl (h.trans (fetchEnds_fault hf)))
      (And.intro (fun ht => next (i := .listFetch u) (p := p) rfl (h.trans (fetchEnds_trap (fetchList_of_empty hs ht))))
        (fun ht h64 => next (i := .listFetch u) (p := p) rfl (h.trans (fetchEnds_fault (fetchList_of_misaligned hs ht h64)))))
    exact ⟨fun o ho hlist hdescs => fetches (listFetch_of_op hs hrun ho hlist hdescs),
      fun e t hqueue hlist hdescs hop => fetches (listFetch_of_head hs hrun hqueue hlist hdescs hop)⟩
  · refine ⟨fun o ho hws hfree hw => ?_, fun e t dl hcls ho hqueue hdefer hdescs hws hlast hfree => ?_⟩
    · have hfor := linkFor_of_op hs ho hws hl hfree hw
      refine ⟨fun hhas => ⟨next rfl (linkTake_of_has hfor hhas), ⟨o.linkedAt i, ?_, rfl, rfl⟩, sem_linkTaken⟩,
        fun hshort => next rfl (linkTake_of_short hfor hshort)⟩
      exact op_linkTaken (a := c.linkAsk u i (descOf ws) (o.dests.contains i) false) rfl ((op_of_stream hs).trans ho) _
    · have hfor := linkFor_of_head hs ho hqueue hdefer hdescs hws hlast hl hfree
      have hclip := clipReady_of_head hcls hs hqueue hdefer hdescs hlast
      refine ⟨fun hhas => ⟨next rfl (hclip.trans (linkTake_of_has hfor hhas)), next rfl (linkTake_of_has hfor hhas), ?_⟩,
        fun hshort => next rfl (hclip.trans (linkTake_of_short hfor hshort))⟩
      obtain ⟨ids, hs'⟩ := stream_linkTaken_of_head (a := c.linkAsk u i (descOf ws) false true) rfl hs (linkDie u (descOf ws))
      exact ⟨_, hs', _, unit_headLinked hqueue i ids, rfl, mayStart_of_linked (e := { e with links := e.links ++ [i], knows := e.knows ++ ids })
        hdescs hlast (List.mem_append_right e.links (List.mem_singleton_self i)) u.pos⟩

end Sys2Proof.Machine
end

section
/-!
PROOFS. SELECT and a stack's selection unit (R104, R107, R176 to R182).
-/
namespace Sys2Proof.Machine

/-! ### SELECT -/

/-- The descriptor at a place of an op's list, in the form that is read. -/
def Op.viewAt (o : Op) (i : Nat) : Desc := (viewList (o.descs.getD []) o.wides).getD i default

/-- The scores that a SELECT reads: none where it merges records or has no row. -/
def ReadsScores (c : Chip) (u : UnitRef) (o : Op) (q : SelParams) (c' : Chip) (t : Option Tensor) : Prop :=
  ((q.src = true ∨ (o.viewAt 1).ext1 = 0) ∧ c' = c ∧ t = none) ∨
    (q.src = false ∧ (o.viewAt 1).ext1 ≠ 0 ∧ ∃ x, c.readTensor u (o.viewAt 1) = (c', .ok x) ∧ t = some x)

section
variable {c c1 c2 c3 : Chip} {u : UnitRef} {o : Op}

theorem select_of_rows (ho : OpReady c u o 1) (hcls : slotClass u.pos = .selection) (hb : c.blocked u o = false) {bs : List Byte}
    {t : Option Tensor} {f : Flags} {cyc : Nat}
    (hblock : (c.raceBytes u o.id o.outs (o.ins u.pos)).readSpace u 9 (o.viewAt 0).space (o.viewAt 0).addr 64 = (c1, .ok bs))
    (hscores : ReadsScores c1 u o (selParams (wordsOf bs)) c2 t)
    (hrows : c2.selRows u o (selParams (wordsOf bs)) (o.viewAt 1) (o.viewAt 2) t
      ((c.raceBytes u o.id o.outs (o.ins u.pos)).ctx ((c.raceBytes u o.id o.outs (o.ins u.pos)).ctxOf u.die u.part)).seed
      (List.range (o.viewAt 1).ext1) {} 0 = (c3, .ok (f, cyc))) :
    c.select u = (c3.raiseFlags u.die (raiseOrder u.pos) ((c.raceBytes u o.id o.outs (o.ins u.pos)).ctxOf u.die u.part)
      o.e.tag f 0 0).opDone u cyc := by
  have hmay : (decide (slotClass u.pos = .selection) && decide (o.e.opc = 1)) = true := by simp [hcls, ho.2.2.1]
  rw [Chip.select, work_of_ready ho hb hmay]
  simp only [Op.viewAt] at hblock hrows
  obtain ⟨hnone, rfl, rfl⟩ | ⟨hsrc, hext, x, hx, rfl⟩ := hscores
  · simp only [Op.viewAt] at hnone
    simp only [hblock, hnone, if_true, hrows]
  · simp only [Op.viewAt] at hx hext
    have hread : ¬ ((selParams (wordsOf bs)).src = true ∨ ((viewList (o.descs.getD []) o.wides).getD 1 default).ext1 = 0) := by
      rw [hsrc]
      exact fun h => h.elim Bool.false_ne_true hext
    simp only [hblock, hread, if_false, hx, hrows]

/-! ### A stack's selection unit -/

/-- The row of a ring entry has become a record, whose flags are raised, and the entry is free. -/
def Chip.rowSent (c : Chip) (stack unit : Nat) (e : LogitsEntry) : Chip :=
  (c.modStk stack (fun k => { k with logits := k.logits.erase e })).raiseFlags (if stack < 4 then .w else .e) (stackRaiseOrder stack unit)
    e.ctx e.tag.toNat e.record.2 0 0

variable {stack unit : Nat} {e : LogitsEntry}

theorem stackSelect_of_none (h : nextEntry unit (c.stk stack).logits = none) : c.stackSelect stack unit = c := by
  rw [Chip.stackSelect, h]

theorem stackSelect_of_route (h : nextEntry unit (c.stk stack).logits = some e) (hroute : e.route = true) :
    c.stackSelect stack unit = { c.rowSent stack unit e with
      sharedMem := mwrite c.sharedMem (sharedKey stack e.dest) (e.record.1.bytes e.record.1.entries.length (selParams e.params).k) } := by
  rw [Chip.stackSelect, h]
  exact if_pos hroute

/-- The Gutter of the destination die as the record's request for credit leaves it. -/
def Chip.creditAsked (c : Chip) (stack : Nat) (e : LogitsEntry) : Chip :=
  c.modDie (selParams e.params).dest (fun m => { m with gut := ((c.die (selParams e.params).dest).gut.ask stack e.record.1).2 })

theorem stackSelect_of_credit (h : nextEntry unit (c.stk stack).logits = some e) (hroute : e.route = false)
    (hcredit : ((c.die (selParams e.params).dest).gut.ask stack e.record.1).1 = true) :
    c.stackSelect stack unit = ((c.creditAsked stack e).rowSent stack unit e).modDie (selParams e.params).dest (fun m =>
      { m with gut := { m.gut with lanes := tmod [] m.gut.lanes stack (· ++ [e.record.1]) } }) := by
  rw [Chip.stackSelect, h]
  exact (if_neg (Bool.eq_false_iff.1 hroute)).trans (if_pos hcredit)

theorem stackSelect_of_no_credit (h : nextEntry unit (c.stk stack).logits = some e) (hroute : e.route = false)
    (hcredit : ((c.die (selParams e.params).dest).gut.ask stack e.record.1).1 = false) :
    c.stackSelect stack unit = c.creditAsked stack e := by
  rw [Chip.stackSelect, h]
  exact (if_neg (Bool.eq_false_iff.1 hroute)).trans (if_neg (Bool.eq_false_iff.1 hcredit))

end

/-- Settles O30: a SELECT by its reads, a stack's unit by the row it finds and the credit it gets. -/
theorem selectAndStackSelection : Obligations.SelectAndStackSelection := by
  unfold Obligations.SelectAndStackSelection
  intro p c
  have next {i : Instr} {c1 x : Chip} (hrun : exec i ⟨p, c⟩ = .next ⟨p, x⟩) (hx : x = c1) : exec i ⟨p, c⟩ = .next ⟨p, c1⟩ := hx ▸ hrun
  refine ⟨fun u o ho hcls hb => ?_,
    fun stack unit e h => ⟨fun hroute => next rfl (stackSelect_of_route h hroute),
      fun hroute hcredit => next rfl (stackSelect_of_credit h hroute hcredit),
      fun hroute hcredit => next rfl (stackSelect_of_no_credit h hroute hcredit)⟩,
    fun stack unit h => next rfl (stackSelect_of_none h)⟩
  intro ds gi cr c1 bs hblock q n c2 t hscores c3 f cyc hrows
  exact next rfl (select_of_rows ho hcls hb hblock hscores hrows)

end Sys2Proof.Machine
end

section
/-!
PROOFS. UPDATE: skips, waits, traps and runs (R202, R203, R207, R214 to R216, R296).
-/
namespace Sys2Proof.Machine

section
variable {c c1 : Chip} {u : UnitRef} {o : Op} {n : Nat} {ws : List W64} {ds : List Desc} {r : Run}

theorem update_of_block (ho : OpReady c u o 1) (hcls : slotClass u.pos = .update) (hb : c.blocked u o = false) {bs : List Byte}
    (hblock : (c.raceBytes u o.id o.outs (o.ins u.pos)).readSpace u 9 (o.viewAt 0).space (o.viewAt 0).addr 64 = (c1, .ok bs)) :
    c.update u = c1.underSel u (c.ctxOf u.die u.part) (fun k =>
      k.updateOp u o (c.ctxOf u.die u.part) (wordsOf bs) (viewList (o.descs.getD []) o.wides)) := by
  have hmay : decide (o.e.opc = 1) = true := decide_eq_true ho.2.2.1
  simp only [Op.viewAt] at hblock
  rw [Chip.update, if_neg (not_not_intro hcls), work_of_ready ho hb hmay]
  simp only [hblock]

theorem skips_iff (c : Chip) (n : Nat) (o : Op) :
    c.skips n o = true ↔ o.skip = true ∨ (o.waiting = true ∧ (c.ctx n).train.committable = false) := by
  simp [Chip.skips]

/-- The PSET that a parameter block names. -/
def psetOfBlock (ws : List W64) : Nat := bits (wordOf ws 0) 11 0

theorem updateOp_of_no_run (h : (c.ctx n).run = none) : c.updateOp u o n ws ds = c.updateSkip u o (psetOfBlock ws) {} := by
  rw [Chip.updateOp, h, psetOfBlock]

theorem updateOp_of_pinned (h : (c.ctx n).run = some r) (hskip : c.skips n o = false) (hpin : (c.ctx n).pinned (psetOfBlock ws) = true) :
    c.updateOp u o n ws ds = (c.opWaits u).modCtx n (fun x => { x with proof := { x.proof with held := true } }) := by
  have hheld : (!c.skips n o) = true ∧ (c.ctx n).pinned (psetOfBlock ws) = true := ⟨by rw [hskip, Bool.not_false], hpin⟩
  rw [Chip.updateOp, h]
  exact if_pos hheld

theorem not_held_of (h : c.skips n o = true ∨ (c.ctx n).pinned (psetOfBlock ws) = false) :
    ¬ ((!c.skips n o) = true ∧ (c.ctx n).pinned (psetOfBlock ws) = true) := by
  rintro ⟨hrun, hpin⟩
  obtain h | h := h
  · rw [h] at hrun
    cases hrun
  · rw [h] at hpin
    cases hpin

theorem updateOp_of_second (h : (c.ctx n).run = some r) (hfree : c.skips n o = true ∨ (c.ctx n).pinned (psetOfBlock ws) = false)
    (hstep : r.isStep = true) (hdone : psetOfBlock ws ∈ r.updated) : c.updateOp u o n ws ds = c.opTrap u 0x12 := by
  have hsecond : r.isStep = true ∧ r.updated.contains (psetOfBlock ws) = true := ⟨hstep, List.contains_iff_mem.2 hdone⟩
  rw [Chip.updateOp, h]
  exact (if_neg (not_held_of hfree)).trans (if_pos hsecond)

/-- The PSET counts as updated. -/
def Chip.psetUpdated (c : Chip) (n ps : Nat) : Chip := c.modRun n (fun k => { k with updated := ps :: k.updated })

theorem updateOp_of_first (h : (c.ctx n).run = some r) (hfree : c.skips n o = true ∨ (c.ctx n).pinned (psetOfBlock ws) = false)
    (hfirst : r.isStep = false ∨ psetOfBlock ws ∉ r.updated) : c.updateOp u o n ws ds =
      if c.skips n o then (c.psetUpdated n (psetOfBlock ws)).updateSkip u o (psetOfBlock ws) {}
      else (c.psetUpdated n (psetOfBlock ws)).updateRun u o r ws ds := by
  have hone : ¬ (r.isStep = true ∧ r.updated.contains (psetOfBlock ws) = true) := by
    rintro ⟨hstep, hdone⟩
    obtain h | h := hfirst
    · rw [h] at hstep
      cases hstep
    · exact h (List.contains_iff_mem.1 hdone)
  rw [Chip.updateOp, h]
  exact (if_neg (not_held_of hfree)).trans (if_neg hone)

end

/-- Settles O32: an UPDATE by the run it is in, the shipment that pins its PSET and what was updated before. -/
theorem updateOp : Obligations.UpdateOp := by
  unfold Obligations.UpdateOp
  refine ⟨fun p c c1 u o bs ho hcls hb => ?_, fun c u o n ws ds => ?_⟩
  · intro ds n hblock
    exact congrArg (fun k => Host.Outcome.next (State.mk p k)) (update_of_block ho hcls hb hblock)
  · intro ps t skip
    have hskips : c.skips n o = true ↔ skip := skips_iff c n o
    have hruns : c.skips n o = false ↔ ¬ skip := by rw [← hskips, Bool.not_eq_true]
    refine ⟨updateOp_of_no_run, fun r hr => ⟨fun hs hpin => updateOp_of_pinned hr (hruns.2 hs) hpin, fun hfree => ?_⟩, fun g => rfl⟩
    have hfree' : c.skips n o = true ∨ (c.ctx n).pinned (psetOfBlock ws) = false := hfree.imp_left hskips.2
    refine ⟨updateOp_of_second hr hfree', fun hfirst => ?_⟩
    have heq : t = _ := updateOp_of_first (u := u) (ds := ds) hr hfree' hfirst
    exact ⟨fun hs => heq.trans (if_pos (hskips.2 hs)), fun hs => heq.trans (if_neg (fun h => hs (hskips.1 h)))⟩

end Sys2Proof.Machine
end

section
/-!
PROOFS. The seven collectives, their time-out and their aborts (R230, R237, R240, R246, R251).
-/
namespace Sys2Proof.Machine

section
variable {c c1 c2 : Chip} {u : UnitRef} {o : Op} {s : Stream} {ws : List W64} {ds : List Desc} {opc : Nat}

/-! ### From the messages to the op -/

theorem colStep_of_ready (ho : OpReady c u o opc) (hpaused : o.paused = false) (hs : c.stream u.die u.part = some s)
    (hb : c.blocked u o = false) {bs : List Byte}
    (hblock : (c.raceBytes u o.id o.outs (o.ins u.pos)).readSpace u 9 (o.viewAt 0).space (o.viewAt 0).addr 64 = (c1, .ok bs)) :
    c.colStep u opc = if (opc = 1 ∨ opc = 2) ∧ c1.runMode s.ctx 2 = true then c1.hold u o (bits (wordOf (wordsOf bs) 0) 31 0)
      else (c1.colWork u o s (wordsOf bs) (viewList (o.descs.getD []) o.wides)).colSettle u := by
  have hmay : (decide (o.e.opc = opc) && !o.paused) = true := by simp [ho.2.2.1, hpaused]
  simp only [Op.viewAt] at hblock
  simp only [Chip.colStep, hs]
  rw [work_of_ready ho hb hmay]
  simp only [Chip.withBlock, hblock]

theorem collective_eq (hpos : u.pos = 117) (peers : List Peer) : c.collective u opc peers =
    ((peers.foldl (fun c p => c.arriveRemote u.die u.part p) c).colStep u opc).bucketStep u.die u.part := by
  rw [Chip.collective, if_neg (not_not_intro hpos)]

/-! ### The op with its parameter block read -/

/-- A collective is carried out. -/
def Chip.colRun (c : Chip) (opc : Nat) (u : UnitRef) (o : Op) (s : Stream) (g : Group) (self : Nat) (ws : List W64) (ds : List Desc)
    (peers : List Peer) : Chip :=
  match opc with
  | 1 => c.reduceRun u o s.ctx true g self ws ds peers
  | 2 => c.reduceRun u o s.ctx false g self ws ds peers
  | 3 => c.gatherRun u g ws ds peers
  | 4 => c.a2aRun u o g self ws ds peers
  | 5 => c.smergeRun u o g self ws ds peers
  | 6 => c.bcastRun u self ws ds peers
  | _ => c.normRun u o s.ctx g ds peers

/-- The group of an op, and this die's place in it. -/
def Stream.groupOf (s : Stream) (o : Op) : Group := tget {} s.image.groups o.group

def Chip.selfOf (c : Chip) (u : UnitRef) (o : Op) (s : Stream) : Nat := c.selfIndex u.die (s.groupOf o)

theorem colWork_of_fault {i : Nat} {f : AccFault} (h : c.sendOwn u o s.ctx (s.groupOf o) (c.selfOf u o s) ws ds = (c2, some (i, f))) :
    c.colWork u o s ws ds = c2.opFault u i f := by
  simp only [Stream.groupOf, Chip.selfOf] at h
  simp only [Chip.colWork, h]

/-- The first participant whose exchange differs. -/
def Chip.differing (c : Chip) (u : UnitRef) (o : Op) (g : Group) (self : Nat) (ws : List W64) : Option Peer :=
  ((c.colPeers u o).filter (fun p => decide (p.index ≠ self))).find? (c.mismatch g o.e.opc ws)

/-- The op once its data has gone out. -/
def Chip.colSent (c : Chip) (u : UnitRef) (o : Op) (s : Stream) (g : Group) (self : Nat) (ws : List W64) (ds : List Desc) : Chip :=
  match c.differing u o g self ws with
  | some q => c.colAbort u.die u.part o.group 3 0x0403 q.index
  | none => if !haveAll o.e.opc g.p self (bits (wordOf ws 1) 41 32) (c.colPeers u o) then c.opWaits u
    else c.colRun o.e.opc u o s g self ws ds (c.colPeers u o)

theorem colWork_of_sent (h : c.sendOwn u o s.ctx (s.groupOf o) (c.selfOf u o s) ws ds = (c2, none)) :
    c.colWork u o s ws ds = c2.colSent u o s (s.groupOf o) (c.selfOf u o s) ws ds := by
  simp only [Stream.groupOf, Chip.selfOf] at h
  simp only [Chip.colWork, h] <;> rfl

theorem colSent_of_differing {g : Group} {self : Nat} {q : Peer} (hq : c.differing u o g self ws = some q) :
    c.colSent u o s g self ws ds = c.colAbort u.die u.part o.group 3 0x0403 q.index := by
  rw [Chip.colSent, hq]

theorem colSent_of_agreed {g : Group} {self : Nat} (hq : c.differing u o g self ws = none) : c.colSent u o s g self ws ds =
    if haveAll o.e.opc g.p self (bits (wordOf ws 1) 41 32) (c.colPeers u o) = false then c.opWaits u
    else c.colRun o.e.opc u o s g self ws ds (c.colPeers u o) := by
  rw [Chip.colSent, hq]
  exact if_congr (by rw [Bool.not_eq_true']) rfl rfl

/-! ### Rounds, deadlines and aborts -/

theorem a2aResume_of_round (ho : c.op u = some o) (hpos : u.pos = 117) (hopc : o.e.opc = 4) (hround : o.round ≠ 0) (hw : o.worked = false) :
    c.a2aResume u = if (descOf ((o.descs.getD []).getD 3 [])).lvalid = true then c.linkTake u 3
      else c.modOp u (fun o => { o with waiting := false, paused := false }) := by
  have h : ¬ (u.pos ≠ 117 ∨ o.e.opc ≠ 4 ∨ o.round = 0 ∨ o.worked = true) := by simp [hpos, hopc, hround, hw]
  simp only [Chip.a2aResume, ho]
  exact if_neg h

/-- The op in progress is the first of the stream's collectives. -/
theorem collectives_of_op (ho : c.op u = some o) (hpos : u.pos = 117) (hs : c.stream u.die u.part = some s) (hopc : o.e.opc ≠ 0)
    (hdone : o.completed = false) : s.collectives = o :: s.bucket := by
  have hunit : (s.unit 117).op = some o := by
    rw [← hpos]
    exact (op_of_stream hs).symm.trans ho
  simp only [Stream.collectives, hunit]
  simp [hopc, hdone]

theorem colTimeout_of_late (hs : c.stream u.die u.part = some s) (hcol : s.collectives = o :: s.bucket)
    (hlate : o.deadline < (c.ridgeOf u.die).toNat) :
    c.colTimeout u.die u.part = c.freeWord.2.colAbort u.die u.part o.group 1 0x0401 c.freeWord.1.toNat := by
  have hfind : s.collectives.find? (fun o => decide (o.deadline < (c.ridgeOf u.die).toNat)) = some o := by
    rw [hcol, List.find?_cons_of_pos (by exact decide_eq_true hlate)]
  simp only [Chip.colTimeout, hs, hfind]

theorem liveGroup_of_collectives (hcol : s.collectives = o :: s.bucket) : s.liveGroup = some (colGroup o.e.slot.toNat) := by
  rw [Stream.liveGroup, Stream.liveGroups, hcol, List.map_cons, List.eraseDups_cons, List.head?_cons]

theorem colAbort_of_stream (hs : c.stream u.die u.part = some s) (g cause peer : Nat) (status : W16) :
    c.colAbort u.die u.part g cause status.toNat peer =
      (((c.modDie u.die (fun m => { m with ce := m.ce.abort cause g peer (c.ridgeOf u.die) })).fail s.ctx
        { status := status, fdie := decide (u.die = .e), first := 117, beatAt := (c.die u.die).beatAt }).stopStream u.die u.part 3
          status.toNat).tellOther u.die u.part := by
  simp only [Chip.colAbort, hs, die_modDie, BitVec.ofNat_toNat, BitVec.setWidth_eq]

end

/-- Settles O34: a collective by what has come for it, a time-out and an abort by the op in progress. -/
theorem collectives : Obligations.Collectives := by
  unfold Obligations.Collectives
  have next {p : List Instr} {i : Instr} {c c1 x : Chip} (hrun : exec i ⟨p, c⟩ = .next ⟨p, x⟩) (hx : x = c1) :
      exec i ⟨p, c⟩ = .next ⟨p, c1⟩ := hx ▸ hrun
  refine ⟨fun p c u o s peers opc hpos => ?_, fun c c2 u o s ws ds => ?_, fun p c u o s ho hpos hs => ?_⟩
  · intro ca cr ho hpaused hs hb ds c1 bs hblock ws runs
    have hstep := colStep_of_ready ho hpaused hs hb hblock
    have carries {i : Instr} (hi : exec i ⟨p, c⟩ = .next ⟨p, c.collective u opc peers⟩) : runs i := by
      refine ⟨fun hnow => next hi ?_, fun hred hmode => next hi ?_⟩
      · have hrun : ¬ ((opc = 1 ∨ opc = 2) ∧ c1.runMode s.ctx 2 = true) := by
          rintro ⟨hred, hmode⟩
          rw [hmode] at hnow
          exact hnow.elim (fun h => hred.elim h.1 h.2) (fun h => Bool.noConfusion h)
        exact (collective_eq hpos peers).trans (congrArg (fun k => k.bucketStep u.die u.part) (hstep.trans (if_neg hrun)))
      · exact (collective_eq hpos peers).trans (congrArg (fun k => k.bucketStep u.die u.part) (hstep.trans (if_pos ⟨hred, hmode⟩)))
    exact ⟨fun h => carries (h ▸ rfl), fun h => carries (h ▸ rfl), fun h => carries (h ▸ rfl), fun h => carries (h ▸ rfl),
      fun h => carries (h ▸ rfl), fun h => carries (h ▸ rfl), fun h => carries (h ▸ rfl)⟩
  · intro g self opc t peers others
    refine ⟨fun i f hsent => colWork_of_fault hsent, fun hsent => ⟨fun q hq => (colWork_of_sent hsent).trans (colSent_of_differing hq), fun hagree => ?_⟩⟩
    have hwork : t = _ := (colWork_of_sent hsent).trans (colSent_of_agreed hagree)
    refine ⟨fun hmissing => hwork.trans (if_pos hmissing), fun hall => ?_⟩
    have run {k : Nat} {x : Chip} (hk : opc = k) (hx : c2.colRun k u o s g self ws ds peers = x) : t = x := by
      rw [hwork, ← hx, ← hk]
      exact if_neg (by rw [Bool.not_eq_false]; exact hall)
    exact ⟨fun h => run h rfl, fun h => run h rfl, fun h => run h rfl, fun h => run h rfl, fun h => run h rfl, fun h => run h rfl,
      fun h => run h rfl⟩
  · refine ⟨fun hopc hround hw => ?_, fun hopc hdone hlate => ?_, rfl, fun hopc hdone peer status => ?_⟩
    · have hresume := a2aResume_of_round ho hpos hopc hround hw
      exact ⟨fun hl => next rfl (hresume.trans (if_pos hl)), fun hl => next rfl (hresume.trans (if_neg (Bool.eq_false_iff.1 hl)))⟩
    · exact next rfl (colTimeout_of_late hs (collectives_of_op ho hpos hs hopc hdone) hlate)
    · have hgroup := liveGroup_of_collectives (collectives_of_op ho hpos hs hopc hdone)
      rw [exec, execCollectiveAbortReceived, State.run]
      dsimp only
      rw [hs, Option.bind_some, hgroup]
      exact congrArg (fun k => Host.Outcome.next (State.mk p k)) (colAbort_of_stream hs _ 4 peer.toNat status)

end Sys2Proof.Machine
end

section
/-!
PROOFS. Serve steps, parks and unparks (R270, R271, R278, R279, R346).
-/
namespace Sys2Proof.Machine

/-! ### Writes to memory leave the serving tables alone -/

theorem serving_snoops (c : Chip) (l : List Nat) : (l.foldl (fun c u => c.snoop u) c).serving = c.serving := by
  obtain ⟨k, v, w, h⟩ := foldl_snoop_frame l c
  rw [h]

theorem serving_firstWrite (c : Chip) (n va : Nat) (b : Bool) : (c.firstWrite n va b).serving = c.serving := by
  unfold Chip.firstWrite
  split
  · rfl
  · simp only
    split
    · rfl
    · exact serving_snoops _ _

theorem serving_pokeCopy (c : Chip) (k : PageCopy) (po : Nat) (bs : List Byte) : (c.pokeCopy k po bs).serving = c.serving :=
  serving_snoops _ _

theorem serving_pokePiece (c : Chip) (n : Nat) (b : Bool) (va : Nat) (bs : List Byte) : (c.pokePiece n b va bs).serving = c.serving := by
  unfold Chip.pokePiece
  simp only
  split
  · exact serving_firstWrite c n va b
  · exact (serving_pokeCopy _ _ _ _).trans (serving_firstWrite c n va b)

theorem serving_pokeVa (c : Chip) (n : Nat) (w : Copy) (va : Nat) (bs : List Byte) : (c.pokeVa n w va bs).serving = c.serving := by
  unfold Chip.pokeVa
  generalize piecesOf va bs.length = l
  induction l generalizing c bs with
  | nil => rfl
  | cons x l ih => exact (ih _ _).trans (serving_pokePiece c n _ x.1 _)

theorem serving_spoil (c : Chip) (n va len : Nat) : (c.spoil n va len).serving = c.serving := by
  have one (c : Chip) (s : Option Stream) (p : Stream → Bool) (d : Die) (q : Nat) (f : Stream → Stream → Stream) :
      (match s with
        | none => c
        | some s => if !p s then c else { c.modStream d q (f s) with fresh := c.fresh + 1 }).serving = c.serving := by
    split
    · rfl
    · split
      · rfl
      · exact modDie_serving c d _
  unfold Chip.spoil
  exact (one _ _ _ .e _ _).trans (one c _ _ .w _ _)

theorem serving_writeVa (c : Chip) (n va : Nat) (bs : List Byte) : (c.writeVa n va bs).1.serving = c.serving := by
  unfold Chip.writeVa Chip.writeVaAs
  split
  · rfl
  · exact (serving_pokeVa _ _ _ _ _).trans (serving_spoil _ _ _ _)

theorem serving_putBlock (c : Chip) (e : StreamEntry) (index v : Nat) : (c.putBlock e index v).serving = c.serving :=
  serving_writeVa _ _ _ _

theorem serving_writeBlock (c : Chip) (m : ModelEntry) (a : BitVec 52) (bs : List Byte) : (c.writeBlock m a bs).serving = c.serving := by
  unfold Chip.writeBlock
  split
  · rfl
  · exact serving_pokeCopy _ _ _ _

theorem serving_foldl {α : Type} {f : Chip → α → Chip} (hf : ∀ c x, (f c x).serving = c.serving) (l : List α) (c : Chip) :
    (l.foldl f c).serving = c.serving := by
  induction l generalizing c with
  | nil => rfl
  | cons x l ih => exact (ih _).trans (hf c x)

/-! ### Parks and unparks -/

theorem entry_of_serving {c c' : Chip} (h : c'.serving = c.serving) (i : Nat) : c'.entry i = c.entry i := by
  rw [Chip.entry, h, Chip.entry]

/-- The move of a stream is over. -/
theorem entry_moved (c : Chip) (i : Nat) {f : StreamEntry → StreamEntry} (g : Serving → Serving) (hg : ∀ v, (g v).streams = v.streams)
    (hf : (f (c.entry i)).st ≠ .free) : (((c.modEntry i f).setMove i none).modServing g).entry i = f (c.entry i) := by
  have hne : f (c.entry i) ≠ {} := fun h => hf (congrArg StreamEntry.st h)
  have hmove : ((c.modEntry i f).setMove i none).serving.streams = (c.modEntry i f).serving.streams := by
    simp only [Chip.setMove, Chip.modServing]
    split <;> rfl
  rw [Chip.entry, Chip.modServing]
  show tget {} (g ((c.modEntry i f).setMove i none).serving).streams i = _
  rw [hg, hmove]
  exact tget_tmod_of_ne_default hne

theorem entry_parkEnd (c : Chip) (i : Nat) : ((c.parkEnd i).entry i).st = .parked ∧ ((c.parkEnd i).entry i).blocks = [] := by
  rw [Chip.parkEnd]
  dsimp only
  rw [entry_moved _ i (fun v => { v with parks := satAdd v.parks 1 }) (fun _ => rfl) (by simp)]
  exact ⟨rfl, rfl⟩

/-- The bytes of a stream's blocks are back in the pool's memory, and its table says where. -/
def Chip.blocksBack (c : Chip) (i : Nat) : Chip :=
  match c.modelSlot (c.entry i).model with
  | none => c
  | some k => ((c.entry i).blocks.zip (c.entry i).parked).foldl (fun (a : Chip) b =>
      (a.writeBlock (c.model k) b.1.2 (mread a.host ((a.ctx (c.entry i).ctx.toNat).parkHa.toNat + b.2.2.1) b.2.2.2)).putBlock (c.entry i) b.1.1
        (blockEntry false true b.1.2.toNat)) c

theorem serving_blocksBack (c : Chip) (i : Nat) : (c.blocksBack i).serving = c.serving := by
  rw [Chip.blocksBack]
  split
  · rfl
  · exact serving_foldl (fun a b => (serving_putBlock _ _ _ _).trans (serving_writeBlock _ _ _ _)) _ _

theorem unparkEnd_eq (c : Chip) (i : Nat) : c.unparkEnd i =
    (((c.blocksBack i).modEntry i (fun e => { e with st := e.back, unparking := false, parked := [] })).setMove i none).modServing
      (fun v => { v with unparks := satAdd v.unparks 1 }) := by
  rw [Chip.unparkEnd, Chip.blocksBack] <;> rfl

theorem entry_unparkEnd (c : Chip) (i : Nat) (hback : (c.entry i).back ≠ .free) : ((c.unparkEnd i).entry i).st = (c.entry i).back := by
  have hentry := entry_of_serving (serving_blocksBack c i) i
  rw [unparkEnd_eq, entry_moved _ i (fun v => { v with unparks := satAdd v.unparks 1 }) (fun _ => rfl) (by rw [hentry]; exact hback), hentry]

section
variable {c : Chip} {d : Die} {i n ns : Nat} {r : Run} {h : Hdr} {a : ServeP} {x : ExecCmd} {t : List ExecCmd} {p : List Instr}

theorem parkComplete_of_move (hmove : c.moveOn d = some i) :
    exec (.parkComplete d) ⟨p, c⟩ = .next ⟨p, if (c.entry i).unparking then c else c.parkEnd i⟩ := by
  rw [exec, execParkComplete, State.run]
  dsimp only
  rw [hmove]

theorem unparkComplete_of_move (hmove : c.moveOn d = some i) :
    exec (.unparkComplete d) ⟨p, c⟩ = .next ⟨p, if (c.entry i).unparking then c.unparkEnd i else c⟩ := by
  rw [exec, execUnparkComplete, State.run]
  dsimp only
  rw [hmove]

/-! ### The boundary between steps -/

/-- The boundary's work before the batches are formed. -/
def Chip.boundary (c : Chip) (n : Nat) : Chip :=
  ((((c.streamRequests n).absentModels n).autoUnpark n).streamsOf n).foldl (fun c i => c.monitorOne i)
    (((c.streamRequests n).absentModels n).autoUnpark n)

/-- The formed batches are written and the first serving image starts. -/
def Chip.batchesStart (c : Chip) (n : Nat) (bs : List (Nat × List BatchRow)) : Chip :=
  ((bs.foldl (fun (k : Chip) b => (k.writeBatch n (k.model b.1).hdr b.2 (c.ctx n).serveStep).classLists n b.1 b.2) c).modRun n
    (fun r => { r with serveOpen := true, serveQ := bs.map (·.1), batches := bs, step := BitVec.ofNat 48 (c.ctx n).serveStep })).startServe n

theorem serveLaunch_of_busy (h : c.betweenSteps n = false) : c.serveLaunch n = c := by
  rw [Chip.serveLaunch, h]
  exact if_pos rfl

theorem serveLaunch_eq (h : c.betweenSteps n = true) : c.serveLaunch n =
    if ((c.boundary n).formBatches n).2.isEmpty then ((c.boundary n).formBatches n).1.finish n
      { status := 0, value := BitVec.ofNat 32 ((((c.boundary n).formBatches n).1.ctx n).stepsServed) }
    else ((c.boundary n).formBatches n).1.batchesStart n ((c.boundary n).formBatches n).2 := by
  rw [Chip.serveLaunch, h]
  exact if_neg (by decide)

/-! ### The end of a step -/

/-- The rows of a step's batches have been worked off. -/
def Chip.rowsStopped (c : Chip) (n ns : Nat) (bs : List (Nat × List BatchRow)) : Chip :=
  bs.foldl (fun (k : Chip) b => (k.stopRows n b.1 b.2).modModel b.1 (fun m => { m with stepNs := stepNsAfter m.stepNs ns, last := c.now })) c

/-- The step counts. -/
def Chip.stepServed (c : Chip) (n : Nat) : Chip :=
  (c.modRun n (fun r => { r with serveOpen := false, serveSteps := r.serveSteps + 1, batches := [] })).modCtx n
    (fun x => { x with serveStep := x.serveStep + 1 })

theorem stopDetect_of_done (hr : (c.ctx n).run = some r) (hq : (c.ctx n).execQ = x :: t) (hcmd : x.cmd = .serve h a)
    (hopen : r.serveOpen = true) (hlast : r.serveQ = []) (hended : c.streamsEnded n = true) (hfin : r.finish = none) :
    c.stopDetect n ns = if a.count ≠ 0 ∧ a.count.toNat ≤ ((((c.rowsStopped n ns r.batches).stepServed n).ctx n).stepsServed) then
        ((c.rowsStopped n ns r.batches).stepServed n).finish n
          { status := 0, value := BitVec.ofNat 32 ((((c.rowsStopped n ns r.batches).stepServed n).ctx n).stepsServed) }
      else (c.rowsStopped n ns r.batches).stepServed n := by
  have hgo : ¬ ((!r.serveOpen) = true ∨ (!r.serveQ.isEmpty) = true ∨ (!c.streamsEnded n) = true ∨ r.finish.isSome = true) := by
    simp [hopen, hlast, hended, hfin]
  simp only [Chip.stopDetect, hr, hq, hcmd]
  exact if_neg hgo

end

/-- Settles O50: the boundary by the batches it forms, a step's end by the count of the command, a move by its direction. -/
theorem serveSteps : Obligations.ServeSteps := by
  unfold Obligations.ServeSteps
  intro p c n
  have next {i : Instr} {c1 x : Chip} (hrun : exec i ⟨p, c⟩ = .next ⟨p, x⟩) (hx : x = c1) : exec i ⟨p, c⟩ = .next ⟨p, c1⟩ := hx ▸ hrun
  refine ⟨fun hbetween => ?_, fun hbusy => next rfl (serveLaunch_of_busy hbusy),
    fun r h a x t ns hr hq hcmd hopen hlast hended hfin => ?_, fun d i hmove => ⟨fun hpark => ?_, fun hunpark => ?_⟩⟩
  · have hlaunch := serveLaunch_eq hbetween
    exact ⟨fun hnone => next rfl (hlaunch.trans (if_pos (List.isEmpty_iff.2 hnone))),
      fun hsome => next rfl (hlaunch.trans (if_neg (fun h => hsome (List.isEmpty_iff.1 h))))⟩
  · have hdone := stopDetect_of_done (ns := ns) hr hq hcmd hopen hlast hended hfin
    refine ⟨fun hcount hle => next rfl (hdone.trans (if_pos ⟨hcount, hle⟩)), fun hmore => next rfl (hdone.trans (if_neg ?_))⟩
    rintro ⟨hcount, hle⟩
    exact hmore.elim hcount (Nat.not_lt.2 hle)
  · exact ⟨(parkComplete_of_move hmove).trans (by rw [hpark] <;> rfl), (entry_parkEnd c i).1, (entry_parkEnd c i).2,
      (unparkComplete_of_move hmove).trans (by rw [hpark] <;> rfl)⟩
  · exact ⟨(unparkComplete_of_move hmove).trans (by rw [hunpark] <;> rfl), entry_unparkEnd c i,
      (parkComplete_of_move hmove).trans (by rw [hunpark] <;> rfl)⟩

end Sys2Proof.Machine
end

section
/-!
PROOFS. The bulk commands: model and imposition images, checkpoints, reprints (R283, R299, R300, R303, R361 to R363).
-/
namespace Sys2Proof.Machine

/-! ### How a bulk command ends -/

/-- The command ends the run that waited for its data, or posts its record. -/
def Ends (p : List Instr) (c : Chip) (h : Hdr) (i : Instr) (r : Chip × EndStatus) : Prop :=
  (r.1.isHead h = true → exec i ⟨p, c⟩ = .next ⟨p, r.1.finish h.ctx r.2⟩) ∧ (r.1.isHead h = false → exec i ⟨p, c⟩ = .next ⟨p, r.1.postEnd h r.2⟩)

theorem ends_of_bulk {p : List Instr} {c : Chip} {h : Hdr} {i : Instr} {r : Chip × EndStatus}
    (hi : exec i ⟨p, c⟩ = .next ⟨p, Chip.bulk h r⟩) : Ends p c h i r := by
  rw [Ends, hi, Chip.bulk]
  exact ⟨fun hhead => by rw [if_pos hhead], fun hhead => by rw [hhead] <;> rfl⟩

section
variable {c : Chip} {n : Nat}

theorem not_vaOk_of_lt {va : W64} (h : va.toNat < 2 ^ 48) : ¬ (!vaOk va) = true := by
  rw [vaOk, decide_eq_true h]
  exact Bool.false_ne_true

/-! ### MODEL_LOAD -/

section
variable {a : ModelLoadP} {img : List Byte} {i : Nat}

theorem modelLoadRun_of_reserved (h : a.model = 0xFFFF) : c.modelLoadRun n a img = (c, { status := 0x0102, detail := 32 }) :=
  if_pos h

theorem modelLoadRun_of_resident (h : a.model ≠ 0xFFFF) (hslot : c.modelSlot a.model = some i) :
    c.modelLoadRun n a img = (c, { status := 0x0105, detail := 32 }) := by
  have hin : (c.modelSlot a.model).isSome = true := by rw [hslot, Option.isSome_some]
  exact (if_neg h).trans (if_pos hin)

theorem modelLoadRun_of_bad {off : Nat} (h : a.model ≠ 0xFFFF) (hslot : c.modelSlot a.model = none)
    (hbad : c.modelCheck n img a.bytes.toNat = some off) :
    c.modelLoadRun n a img = (c, { status := 0x0104, detail := BitVec.ofNat 32 off }) := by
  have hout : ¬ (c.modelSlot a.model).isSome = true := by rw [hslot]; decide
  rw [Chip.modelLoadRun, if_neg h, if_neg hout, hbad]

theorem modelPlace_of_empty (hi : i < 16) (hfree : (c.model i).st = 0) (hlow : ∀ j, j < i → (c.model j).st ≠ 0) :
    c.modelPlace = some (i, c) := by
  have hfind : (List.range 16).find? (fun i => decide ((c.model i).st = 0)) = some i :=
    List.find?_range_eq_some.2 ⟨decide_eq_true hfree, List.mem_range.2 hi, fun j hj => by rw [decide_eq_false (hlow j hj)] <;> rfl⟩
  rw [Chip.modelPlace, hfind]

/-- No page of the sections that a load maps is mapped before it. -/
theorem unmapped_of_sections
    (h : ∀ s ∈ sectionsOf img, s.placed = true → s.isPaired = false → ∀ vp ∈ s.vps, tget none (c.ctx n).pages vp = none) :
    ((sectionsOf img).filter (fun s => s.placed && !s.isPaired)).find? (fun s => s.vps.any (fun vp => (tget none (c.ctx n).pages vp).isSome)) =
      none := by
  refine List.find?_eq_none.2 fun s hs => ?_
  obtain ⟨hin, hplaced⟩ := List.mem_filter.1 hs
  rw [Bool.and_eq_true, Bool.not_eq_true'] at hplaced
  rw [List.any_eq_true]
  rintro ⟨vp, hvp, hmapped⟩
  rw [h s hin hplaced.1 hplaced.2 vp hvp] at hmapped
  cases hmapped

variable {c1 : Chip}

theorem fitModel_of_place {f : Chip → Option Chip} (h : f c = some c1) (k : Nat) : Chip.fitModel f (k + 1) c = some c1 := by
  rw [Chip.fitModel, h]

/-- How a load ends that has placed its model: its serving image comes last. -/
def modelLoaded (c : Chip) (n i : Nat) (img : List Byte) (c1 : Chip) : Chip × EndStatus :=
  match c1.serveImage n i img with
  | none => (c1, { status := 0, value := BitVec.ofNat 32 i })
  | some (.error off) => (c, { status := 0x0104, detail := BitVec.ofNat 32 off })
  | some (.ok c2) => (c2, { status := 0, value := BitVec.ofNat 32 i })

theorem modelLoadRun_of_placed (h : a.model ≠ 0xFFFF) (hslot : c.modelSlot a.model = none)
    (hgood : c.modelCheck n img a.bytes.toNat = none) (hplace : c.modelPlace = some (i, c))
    (hfree : ((sectionsOf img).filter (fun s => s.placed && !s.isPaired)).find? (fun s =>
      s.vps.any (fun vp => (tget none (c.ctx n).pages vp).isSome)) = none)
    (hfit : Chip.placeModel n a img i c = some c1) : c.modelLoadRun n a img = modelLoaded c n i img c1 := by
  have hout : ¬ (c.modelSlot a.model).isSome = true := by rw [hslot]; decide
  rw [Chip.modelLoadRun, if_neg h, if_neg hout, hgood]
  simp only [hfree, hplace, fitModel_of_place hfit 15] <;> rfl

theorem modelLoaded_of_no_serving (h : servingImage img = none) :
    modelLoaded c n i img c1 = (c1, { status := 0, value := BitVec.ofNat 32 i }) := by
  have hnone : c1.serveImage n i img = none := by rw [Chip.serveImage, h]
  rw [modelLoaded, hnone]

theorem modelLoaded_of_serving {c2 : Chip} (h : c1.serveImage n i img = some (.ok c2)) :
    modelLoaded c n i img c1 = (c2, { status := 0, value := BitVec.ofNat 32 i }) := by
  rw [modelLoaded, h]

/-! ### The entry of a loaded model -/

/-- Entry `i` of the model cache holds the model that a load of the context brings. -/
def Holds (c : Chip) (n : Nat) (a : ModelLoadP) (i : Nat) : Prop :=
  (c.model i).model = a.model ∧ (c.model i).pin = a.pin ∧ (c.model i).owner = n ∧ (c.model i).st = 2

theorem holds_of_serving (h : Holds c n a i) (hs : c1.serving = c.serving) : Holds c1 n a i := by
  have hmodel : c1.model i = c.model i := by rw [Chip.model, hs, Chip.model]
  rw [Holds, hmodel]
  exact h

/-- What the entry of a model is set to. -/
theorem holds_of_set {f : ModelEntry → ModelEntry} (hf : (f (c.model i)).model = a.model ∧ (f (c.model i)).pin = a.pin ∧
    (f (c.model i)).owner = n ∧ (f (c.model i)).st = 2) : Holds (c.modModel i f) n a i := by
  have hmodel : (c.modModel i f).model i = f (c.model i) := by
    refine tget_tmod_of_ne_default (fun h => ?_)
    have hst := hf.2.2.2
    rw [show f (c.model i) = {} from h] at hst
    cases hst
  rw [Holds, hmodel]
  exact hf

/-- A change of the entry that keeps whose it is and its state. -/
theorem holds_modModel (h : Holds c n a i) {f : ModelEntry → ModelEntry}
    (hf : ∀ m, (f m).model = m.model ∧ (f m).pin = m.pin ∧ (f m).owner = m.owner ∧ (f m).st = m.st) : Holds (c.modModel i f) n a i := by
  obtain ⟨hmodel, hpin, howner, hst⟩ := hf (c.model i)
  obtain ⟨hmodel', hpin', howner', hst'⟩ := h
  exact holds_of_set ⟨hmodel.trans hmodel', hpin.trans hpin', howner.trans howner', hst.trans hst'⟩

theorem serving_newCopy {place hash : Nat} {salt : BitVec 4} {k : PageCopy} (h : c.newCopy place salt hash = some (k, c1)) :
    c1.serving = c.serving := by
  obtain ⟨p, -, hp⟩ := Option.map_eq_some_iff.1 h
  rw [← (Prod.mk.inj hp).2]

theorem holds_takePool {teacher : Bool} {k m : Nat} (h : Holds c n a i) (hpool : c.takePool i m teacher k = some c1) : Holds c1 n a i := by
  induction k generalizing c with
  | zero =>
    rw [Chip.takePool, Option.some.injEq] at hpool
    exact hpool ▸ h
  | succ k ih =>
    rw [Chip.takePool] at hpool
    split at hpool
    · cases hpool
    · next p c2 hcopy =>
      have h2 : Holds c2 n a i := holds_of_serving h (serving_newCopy hcopy)
      refine ih ?_ hpool
      exact holds_modModel (c := { c2 with dram := zeroCopy c2.dram p, ecc := zeroEcc c2.ecc p }) h2 (fun _ => ⟨rfl, rfl, rfl, rfl⟩)

theorem serving_writeVaAs (c : Chip) (n : Nat) (wr : Writer) (va : Nat) (bs : List Byte) : (c.writeVaAs n wr va bs).1.serving = c.serving := by
  unfold Chip.writeVaAs
  split
  · rfl
  · split
    · exact (serving_pokeVa _ _ _ _ _).trans (serving_spoil _ _ _ _)
    · exact serving_pokeVa _ _ _ _ _
    · exact (serving_pokeVa _ _ _ _ _).trans (serving_pokeVa _ _ _ _ _)

theorem serving_copySections (c : Chip) (n : Nat) (img : List Byte) (ss : List Section) : (c.copySections n img ss).serving = c.serving :=
  serving_foldl (fun _ _ => serving_writeVaAs _ _ _ _ _) _ _

theorem holds_placeModel (h : Chip.placeModel n a img i c = some c1) : Holds c1 n a i := by
  rw [Chip.placeModel] at h
  dsimp only at h
  split at h
  · cases h
  · split at h
    · cases h
    · next c2 hpool =>
      split at h
      · cases h
      · rw [Option.some.injEq] at h
        have hentry : Holds c2 n a i := holds_takePool (holds_of_set ⟨rfl, rfl, rfl, rfl⟩) hpool
        have hcopied (ss : List Section) : Holds (c2.copySections n img ss) n a i := holds_of_serving hentry (serving_copySections c2 n img ss)
        rw [← h]
        refine holds_of_serving ?_ (modCtx_serving _ _ _)
        exact holds_modModel (hcopied _) (fun _ => ⟨rfl, rfl, rfl, rfl⟩)

end

/-! ### IMP_LOAD -/

section
variable {a : ImpLoadP} {img : List Byte}

theorem impLoadRun_of_bad {off : Nat} (h : impCheck img a.bytes.toNat = some off) :
    c.impLoadRun n a img = (c, { status := 0x0104, detail := BitVec.ofNat 32 off }) := by
  rw [Chip.impLoadRun, h]

theorem impLoadRun_of_home (h : impCheck img a.bytes.toNat = none) (hva : imgNum img 24 8 ≠ a.va.toNat) :
    c.impLoadRun n a img = (c, { status := 0x0104, detail := BitVec.ofNat 32 24 }) := by
  rw [Chip.impLoadRun, h]
  exact if_pos hva

theorem impLoadRun_of_tables {off : Nat} (h : impCheck img a.bytes.toNat = none) (hva : imgNum img 24 8 = a.va.toNat)
    (htab : c.impTables n img = some off) : c.impLoadRun n a img = (c, { status := 0x0104, detail := BitVec.ofNat 32 off }) := by
  rw [Chip.impLoadRun, h]
  dsimp only
  rw [if_neg (not_not_intro hva), htab]

theorem impLoadRun_of_good (h : impCheck img a.bytes.toNat = none) (hva : imgNum img 24 8 = a.va.toNat) (htab : c.impTables n img = none) :
    c.impLoadRun n a img = if c.homed n (sectionsOf img) = false then (c, { status := 0x0111, detail := 1 })
      else ((c.copySections n img (sectionsOf img)).modCtx n
        (fun x => { x with handles := tput none x.handles a.handle.toNat (some (c.imageOf n img)) }), { status := 0 }) := by
  rw [Chip.impLoadRun, h]
  dsimp only
  rw [if_neg (not_not_intro hva), htab]
  exact if_congr (by rw [Bool.not_eq_true']) rfl rfl

end

/-! ### CHECKPOINT -/

theorem checkpointRun_of_room {ha avail : W64} (h : (c.checkpointImage n).length ≤ avail.toNat) : c.checkpointRun n ha avail =
    ({ c with host := mwrite c.host ha.toNat (c.checkpointImage n) }, { status := 0, value := BitVec.ofNat 32 (c.checkpointImage n).length }) :=
  if_neg (Nat.not_lt.2 h)

theorem checkpointRun_of_short {ha avail : W64} (h : avail.toNat < (c.checkpointImage n).length) :
    c.checkpointRun n ha avail = (c, { status := 0x0206 }) :=
  if_pos h

/-! ### CKPT_LOAD -/

section
variable {img : List Byte} {bytes : W64}

/-- A number in a checkpoint image. -/
def ckptNum (img : List Byte) (k m : Nat) : Nat := leNat ((img.drop k).take m)

/-- The image is one of a checkpoint, as its length and header say. -/
def CkptImage (bytes : W64) (img : List Byte) : Prop := img.length = bytes.toNat ∧ 16480 ≤ img.length ∧ ckptNum img 0 4 % 2 ^ 11 = 0x511

theorem ckptImage_iff : CkptImage bytes img ↔
    ¬ (img.length ≠ bytes.toNat ∨ img.length < 64 + 32 + 16384 ∨ ckptNum img 0 4 % 2 ^ 11 ≠ 1 + 16 + 256 + 1024) := by
  rw [CkptImage]
  omega

theorem ckptLoadRun_of_bad (h : ¬ CkptImage bytes img) : c.ckptLoadRun n bytes img = (c, { status := 0x0104 }) :=
  if_pos (not_not.1 (fun hgood => h (ckptImage_iff.2 hgood)))

/-- The configuration table of a checkpoint image, its first `m` entries. -/
def ckptTable (img : List Byte) (m : Nat) : Tab Ocfg :=
  (List.range m).foldl (fun t i => tput default t i (ocfgOf (img.drop (96 + 64 * i)))) []

theorem ckptTable_succ (img : List Byte) (m : Nat) : ckptTable img (m + 1) = tput default (ckptTable img m) m (ocfgOf (img.drop (96 + 64 * m))) := by
  rw [ckptTable, List.range_succ, List.foldl_append, List.foldl_cons, List.foldl_nil, ckptTable]

theorem wf_ckptTable (img : List Byte) (m : Nat) : Tab.wf (default : Ocfg) (ckptTable img m) = true := by
  induction m with
  | zero => rfl
  | succ m ih => exact ckptTable_succ img m ▸ wf_tput ih

theorem tget_ckptTable {m k : Nat} (h : k < m) : tget default (ckptTable img m) k = ocfgOf (img.drop (96 + 64 * k)) := by
  induction m with
  | zero => cases h
  | succ m ih =>
    rw [ckptTable_succ, tget_tput (wf_ckptTable img m)]
    split
    · next hk => rw [hk]
    · exact ih (by omega)

theorem mem_tput {α : Type} [DecidableEq α] {d : α} {t : Tab α} {n : Nat} {v : α} {kv : Nat × α} (h : kv ∈ tput d t n v) :
    kv ∈ t ∨ kv = (n, v) := by
  induction t with
  | nil =>
    rw [tput] at h
    split at h
    · cases h
    · exact .inr (List.mem_singleton.1 h)
  | cons x t ih =>
    rw [tput] at h
    split at h
    · split at h
      · exact .inl h
      · exact (List.mem_cons.1 h).symm.imp_right id
    · split at h
      · split at h
        · exact .inl (List.mem_cons_of_mem x h)
        · exact (List.mem_cons.1 h).symm.imp_left (List.mem_cons_of_mem x)
      · obtain rfl | h := List.mem_cons.1 h
        · exact .inl List.mem_cons_self
        · exact (ih h).imp_left (List.mem_cons_of_mem _)

/-- Every entry of the table is one of the image. -/
theorem mem_ckptTable {m : Nat} {kv : Nat × Ocfg} (h : kv ∈ ckptTable img m) : ∃ k, k < m ∧ kv.2 = ocfgOf (img.drop (96 + 64 * k)) := by
  induction m with
  | zero => cases h
  | succ m ih =>
    rw [ckptTable_succ] at h
    obtain h | rfl := mem_tput h
    · obtain ⟨k, hk, hkv⟩ := ih h
      exact ⟨k, by omega, hkv⟩
    · exact ⟨m, by omega, rfl⟩

theorem ckptTable_good (h : ∀ k, k < 256 → (ocfgOf (img.drop (96 + 64 * k))).valid = true → ocfgBad (ocfgOf (img.drop (96 + 64 * k))) = none) :
    ¬ (ckptTable img 256).any (fun kv => kv.2.valid && (ocfgBad kv.2).isSome) = true := by
  rw [List.any_eq_true]
  rintro ⟨kv, hkv, hbad⟩
  obtain ⟨k, hk, hkv⟩ := mem_ckptTable hkv
  rw [hkv, Bool.and_eq_true] at hbad
  rw [h k hk hbad.1] at hbad
  cases hbad.2

/-- The records of a checkpoint: PSET numbers, what their headers say, their arrays. -/
abbrev CkptRecords := List (Nat × PsetInfo × List (List Byte))

theorem ckpt_inside {x : Ctx} {rs : CkptRecords}
    (h : ∀ y ∈ rs, ∀ z ∈ y.2.1.addrs.zip y.2.1.sizes, z.1 ≠ 0 → x.pairedRange y.1 z.1 z.2 = none) :
    ¬ rs.any (fun r => (r.2.1.addrs.zip r.2.1.sizes).any (fun a => a.1 ≠ 0 && (x.pairedRange r.1 a.1 a.2).isSome)) = true := by
  rw [List.any_eq_true]
  rintro ⟨y, hy, hout⟩
  obtain ⟨z, hz, hbad⟩ := List.any_eq_true.1 hout
  rw [Bool.and_eq_true, decide_eq_true_eq] at hbad
  rw [h y hy z hz hbad.1] at hbad
  cases hbad.2

/-- The arrays of the records go to their places, in both pages of each pair. -/
def Chip.ckptArrays (c : Chip) (n : Nat) (rs : CkptRecords) : Chip :=
  rs.foldl (fun (c : Chip) r => (r.2.1.addrs.zip r.2.2).foldl (fun (c : Chip) a =>
    if a.1 = 0 then c else (c.writeVaAs n .load a.1 a.2).1) c) c

/-- The context as a checkpoint leaves it, with its configuration table. -/
def Ctx.restored (x : Ctx) (img : List Byte) (rs : CkptRecords) (table : Tab Ocfg) : Ctx :=
  { x with
    seed := BitVec.ofNat 128 (ckptNum img 64 16)
    ocfg := table
    halted := false
    psets := rs.foldl (fun t r => tput {} t r.1 r.2.1) x.psets
    train := { x.train with active := [], written := [], exp := BitVec.ofNat 6 (ckptNum img 24 4 % 64), clean := BitVec.ofNat 16 (ckptNum img 24 4 / 64),
                            interval := BitVec.ofNat 16 (ckptNum img 80 4), since := some 0, lastStep := BitVec.ofNat 48 (ckptNum img 8 8),
                            lastTime := BitVec.ofNat 64 (ckptNum img 16 8) } }

theorem restored_spec (x : Ctx) (img : List Byte) (rs : CkptRecords) (table : Tab Ocfg) :
    (x.restored img rs table).seed = BitVec.ofNat 128 (ckptNum img 64 16) ∧ (x.restored img rs table).train.active = [] ∧
    (x.restored img rs table).train.written = [] ∧ (x.restored img rs table).ocfg = table :=
  ⟨rfl, rfl, rfl, rfl⟩

theorem ckptLoadRun_of_good {rs : CkptRecords} (himg : CkptImage bytes img)
    (hrs : ckptRecords (c.ctx n).psetOf (ckptNum img 4 4) (img.drop 16480) = some rs)
    (htab : ∀ k, k < 256 → (ocfgOf (img.drop (96 + 64 * k))).valid = true → ocfgBad (ocfgOf (img.drop (96 + 64 * k))) = none)
    (hin : ∀ y ∈ rs, ∀ z ∈ y.2.1.addrs.zip y.2.1.sizes, z.1 ≠ 0 → (c.ctx n).pairedRange y.1 z.1 z.2 = none) :
    c.ckptLoadRun n bytes img = ((c.ckptArrays n rs).modCtx n (·.restored img rs (ckptTable img 256)), { status := 0 }) := by
  have hrs' : ckptRecords (c.ctx n).psetOf (leNat ((img.drop 4).take 4)) (img.drop (64 + 32 + 16384)) = some rs := hrs
  refine (if_neg (ckptImage_iff.1 himg)).trans ?_
  simp only [hrs']
  exact (if_neg (ckptTable_good htab)).trans (if_neg (ckpt_inside hin))

theorem wf_ckptArrays (rs : CkptRecords) (h : Tab.wf ({} : Ctx) c.ctxs = true) : Tab.wf ({} : Ctx) (c.ckptArrays n rs).ctxs = true := by
  have hrecord (c : Chip) (r : Nat × PsetInfo × List (List Byte)) : Scrambled c ((r.2.1.addrs.zip r.2.2).foldl (fun (c : Chip) a =>
      if a.1 = 0 then c else (c.writeVaAs n .load a.1 a.2).1) c) := by
    refine scrambled_foldl (fun c a => ?_) _ _
    split
    · exact .refl c
    · exact scrambled_writeVaAs c n .load a.1 a.2
  exact (scrambled_foldl hrecord rs c).2.1 h

end

/-! ### REPRINT -/

/-- The outcome of a reprint that replays nothing. -/
def Chip.reprintNone (c : Chip) (n : Nat) : Chip :=
  c.modCtx n (fun x => { x with proof := { x.proof with repFirst := 0, repMiss := 0, repResult := 3 } })

theorem reprintRun_of_unreadable {va : W64} (h : c.fetchVa n va.toNat 12288 = none) :
    c.reprintRun n va = (c, { status := 0x0111, detail := 1 }) := by
  rw [Chip.reprintRun, h]

theorem reprintRun_of_read {va : W64} {hd : List Byte} (h : c.fetchVa n va.toNat 12288 = some hd) :
    (c.reprintRun n va).2.status = 0 ∧ (leNat ((hd.drop 64).take 1) ≠ 2 → (c.reprintRun n va).1 = c.reprintNone n) := by
  rw [Chip.reprintRun, h]
  dsimp only
  split
  · exact ⟨rfl, fun _ => rfl⟩
  · next hdone => exact ⟨rfl, fun hne => absurd hne hdone⟩

end

/-- Settles O13: each command by the checks its image passes. -/
theorem bulkCommands : Obligations.BulkCommands := by
  unfold Obligations.BulkCommands
  intro p c h hfn hctx
  have ht : Taken c h false true := ⟨hfn.imp_right (fun hb => ⟨rfl, hb⟩), fun _ => hctx⟩
  have bulk {i : Instr} {r : Chip × EndStatus} {f : Chip → Chip} (hi : exec i ⟨p, c⟩ = State.run ⟨p, c⟩ (fun c => c.command h false true f))
      (hf : f c = Chip.bulk h r) : Ends p c h i r := by
    refine ends_of_bulk (hi.trans ((run_command ht p).trans ?_))
    rw [hf]
  refine ⟨fun a img hva => ?_, fun a img hva => ?_, fun ha avail => ?_, fun a img => ?_, fun va hva => ?_⟩
  case refine_1 =>
    have load {r : Chip × EndStatus} (hr : c.modelLoadRun h.ctx a img = r) : Ends p c h (.modelLoad h a img) r := by
      refine bulk rfl ((if_neg ?_).trans (by rw [hr]))
      rw [Bool.and_eq_true]
      rintro ⟨hpeer, hbad⟩
      exact not_vaOk_of_lt (hva hpeer) hbad
    refine ⟨fun hm => load (modelLoadRun_of_reserved hm), fun hm => ⟨fun i hslot => load (modelLoadRun_of_resident hm hslot),
      fun hslot => ⟨fun off hbad => load (modelLoadRun_of_bad hm hslot hbad), fun i c1 hgood hi hfree hlow hpages hfit => ?_⟩⟩⟩
    have hrun := modelLoadRun_of_placed hm hslot hgood (modelPlace_of_empty hi hfree hlow) (unmapped_of_sections hpages) hfit
    exact ⟨fun hnone => load (hrun.trans (modelLoaded_of_no_serving hnone)), fun c2 hserve => load (hrun.trans (modelLoaded_of_serving hserve)),
      fun _ => holds_placeModel hfit⟩
  case refine_2 =>
    have load {r : Chip × EndStatus} (hr : c.impLoadRun h.ctx a img = r) : Ends p c h (.impLoad h a img) r :=
      bulk rfl ((if_neg (not_vaOk_of_lt hva)).trans (by rw [hr]))
    exact ⟨fun off hbad => load (impLoadRun_of_bad hbad), fun hgood => ⟨fun hhome => load (impLoadRun_of_home hgood hhome),
      fun hhome => ⟨fun off hbad => load (impLoadRun_of_tables hgood hhome hbad),
        fun htab hout => load ((impLoadRun_of_good hgood hhome htab).trans (if_pos hout)),
        fun htab hin => load ((impLoadRun_of_good hgood hhome htab).trans (if_neg (by rw [hin]; decide)))⟩⟩⟩
  case refine_3 =>
    exact ⟨fun hroom => bulk rfl (congrArg (Chip.bulk h) (checkpointRun_of_room hroom)),
      fun hshort => bulk rfl (congrArg (Chip.bulk h) (checkpointRun_of_short hshort))⟩
  case refine_4 =>
    refine ⟨bulk rfl rfl, fun hbad => ckptLoadRun_of_bad ?_, fun rs hlen hmin hkind hrs htab hin => ?_⟩
    · rintro ⟨hlen, hmin, hkind⟩
      exact hbad.elim (fun h => h hlen) (fun h => h.elim (Nat.not_lt.2 hmin) (fun h => h hkind))
    · have hrun := ckptLoadRun_of_good (c := c) (n := h.ctx) ⟨hlen, hmin, hkind⟩ hrs htab hin
      rw [hrun]
      refine ⟨rfl, fun hwf => ?_⟩
      have hx := ctx_modCtx_same (c.ckptArrays h.ctx rs) (n := h.ctx) (f := (·.restored img rs (ckptTable img 256))) (wf_ckptArrays rs hwf)
      rw [hx]
      obtain ⟨hseed, hactive, hwritten, hocfg⟩ := restored_spec ((c.ckptArrays h.ctx rs).ctx h.ctx) img rs (ckptTable img 256)
      exact ⟨hseed, hactive, hwritten, fun k hk => by rw [hocfg]; exact tget_ckptTable hk⟩
  case refine_5 =>
    exact ⟨bulk rfl (if_neg (not_vaOk_of_lt hva)), reprintRun_of_unreadable, fun hd hread => reprintRun_of_read hread⟩

end Sys2Proof.Machine
end

section
/-!
PROOFS. The commands on the module: output rings, the domain, overlays, power, telemetry, the unlock (R232, R348, R353 to R355, R364, R371,
R391, R392, R403).
-/
namespace Sys2Proof.Machine

/-! ### ORING_SET -/

section
variable {c : Chip} {n r : Nat}

/-- An output ring as ORING_SET puts it in use. -/
def Oring.set' (g : Oring) (a : OringP) : Oring :=
  { set := true, kind := a.kind, log2 := a.log2, vector := a.vector, ha := a.ha, wb := a.wb, delayed := g.delayed }

/-- The output ring of a context is put in use. -/
def Chip.oringPut (c : Chip) (n : Nat) (a : OringP) : Chip :=
  c.modCtx n (fun x => { x with orings := tmod {} x.orings a.ring.toNat (·.set' a) })

theorem drainOring_of_empty (h : ((c.ctx n).oring r).delayed = []) : c.drainOring n r = c := by
  have hsame : (postDelayed ((c.ctx n).oring r).delayed.length c.host ((c.ctx n).oring r)).2.delayed.length = ((c.ctx n).oring r).delayed.length := by
    rw [h, List.length_nil, postDelayed, h, List.length_nil]
  exact if_pos hsame

theorem tryShipEnd_of_none (h : (c.ctx n).proof.ship = none) : c.tryShipEnd n = c := by
  rw [Chip.tryShipEnd, h]

theorem ctx_oringPut (a : OringP) (hw : Tab.wf ({} : Ctx) c.ctxs = true) : (c.oringPut n a).ctx n =
    { c.ctx n with orings := tmod {} (c.ctx n).orings a.ring.toNat (·.set' a) } :=
  ctx_modCtx_same c hw

theorem oring_oringPut (a : OringP) (hw : Tab.wf ({} : Ctx) c.ctxs = true) (hr : Tab.wf ({} : Oring) (c.ctx n).orings = true) :
    ((c.oringPut n a).ctx n).oring a.ring.toNat = ((c.ctx n).oring a.ring.toNat).set' a := by
  have ht : ((c.oringPut n a).ctx n).orings = tmod {} (c.ctx n).orings a.ring.toNat (·.set' a) := congrArg Ctx.orings (ctx_oringPut a hw)
  rw [Ctx.oring, ht, Ctx.oring, tget_tmod_same hr]

theorem oring_oringPut_ne (a : OringP) (hw : Tab.wf ({} : Ctx) c.ctxs = true) {k : Nat} (hk : k ≠ a.ring.toNat) :
    ((c.oringPut n a).ctx n).oring k = (c.ctx n).oring k := by
  have ht : ((c.oringPut n a).ctx n).orings = tmod {} (c.ctx n).orings a.ring.toNat (·.set' a) := congrArg Ctx.orings (ctx_oringPut a hw)
  rw [Ctx.oring, ht, Ctx.oring, tget_tmod_ne hk]

/-- With nothing kept back and no shipment the ring is put in use and no more. -/
theorem oringPut_settled (a : OringP) (hw : Tab.wf ({} : Ctx) c.ctxs = true) (hr : Tab.wf ({} : Oring) (c.ctx n).orings = true)
    (hempty : ((c.ctx n).oring a.ring.toNat).delayed = []) (hship : (c.ctx n).proof.ship = none) :
    ((c.oringPut n a).drainOring n a.ring.toNat).tryShipEnd n = c.oringPut n a := by
  have hdrained : (c.oringPut n a).drainOring n a.ring.toNat = c.oringPut n a :=
    drainOring_of_empty (by rw [oring_oringPut a hw hr]; exact hempty)
  rw [hdrained]
  exact tryShipEnd_of_none (by rw [ctx_oringPut a hw]; exact hship)

end

/-! ### DOMAIN_SET -/

section
variable {c c' : Chip}

theorem identity_of_settles (h : Settles c c') : c'.identity = c.identity := congrArg (·.2.2) h.1

theorem identity_settlePort (c : Chip) (p : Nat) : (c.settlePort p).identity = c.identity := by
  have hfall (st : BitVec 4) : (c.portFalls p st).identity = c.identity :=
    (identity_of_settles (settles_portFalls c p st)).trans (rfl : (c.modPort p (·.fallen st c.now)).identity = c.identity)
  have hfollow (c' : Chip) : c'.followRoutes.identity = c'.identity := identity_of_settles (settles_followRoutes c')
  simp only [Chip.settlePort]
  split
  · split
    · rfl
    · exact hfall _
  · exact hfollow _

theorem identity_foldl {α : Type} {f : Chip → α → Chip} (hf : ∀ c x, (f c x).identity = c.identity) (l : List α) (c : Chip) :
    (l.foldl f c).identity = c.identity := by
  induction l generalizing c with
  | nil => rfl
  | cons x l ih => exact (ih _).trans (hf c x)

/-- The module takes its place in the domain, and what follows for its ports and routes. -/
def Chip.domainTaken (c : Chip) (a : DomainP) : Chip :=
  ((List.range 8).foldl (fun (c : Chip) k => if 3 ≤ (c.pport k).st.toNat ∧ (c.pport k).st.toNat ≤ 5 then c.settlePort k else c)
    { c with
      domain := { moduleId := a.moduleId, dx := a.dx, dy := a.dy, dz := a.dz, epoch := a.epoch, set := true, routes := c.domain.routes }
      vote := { c.vote with joining := c.vote.joining || (c.domain.set && decide (c.domain.epoch < a.epoch)) } }).reroute

theorem identity_domainTaken (c : Chip) (a : DomainP) : (c.domainTaken a).identity =
    { moduleId := a.moduleId, dx := a.dx, dy := a.dy, dz := a.dz, epoch := a.epoch, set := true, routes := [] } := by
  have hports (c : Chip) (k : Nat) : (if 3 ≤ (c.pport k).st.toNat ∧ (c.pport k).st.toNat ≤ 5 then c.settlePort k else c).identity = c.identity := by
    split
    · exact identity_settlePort c k
    · rfl
  exact (identity_of_settles (settles_reroute _)).trans (identity_foldl hports _ _)

/-- The Ridge source as a domain configuration sets it. -/
def Chip.sourceTaken (c : Chip) (a : DomainP) : Chip :=
  { c with ridge := { (c.ridge.setSource (domainSource a)) with root := a.root, backup := a.backup } }

/-- The module's place in the Ridge tree under its source. -/
def Chip.treeTaken (c : Chip) (a : DomainP) : Chip :=
  if domainSource a = 1 then c.takeUpstream
  else { c with ridge := { c.ridge with upstream := 0xF, hops := 0, rootInUse := a.root } }

theorem setSource_src (r : Ridge) (src : BitVec 2) : (r.setSource src).src = src := by
  unfold Ridge.setSource
  split
  · rfl
  · split
    · rfl
    · split
      · next h => exact h.2
      · rfl

/-- What a choice of the upstream port leaves of the source and its roots. -/
theorem takeUpstream_roots (c : Chip) :
    c.takeUpstream.ridge.root = c.ridge.root ∧ c.takeUpstream.ridge.backup = c.ridge.backup ∧ c.takeUpstream.ridge.src = c.ridge.src := by
  unfold Chip.takeUpstream
  split
  · exact ⟨rfl, rfl, rfl⟩
  · dsimp only
    split
    · exact ⟨rfl, rfl, rfl⟩
    · exact ⟨rfl, rfl, rfl⟩

theorem treeTaken_roots (c : Chip) (a : DomainP) : (c.treeTaken a).ridge.root = c.ridge.root ∧
    (c.treeTaken a).ridge.backup = c.ridge.backup ∧ (c.treeTaken a).ridge.src = c.ridge.src := by
  rw [Chip.treeTaken]
  split
  · exact takeUpstream_roots c
  · exact ⟨rfl, rfl, rfl⟩

theorem identity_treeTaken (c : Chip) (a : DomainP) : (c.treeTaken a).identity = c.identity := by
  rw [Chip.treeTaken]
  split
  · exact identity_of_settles (settles_takeUpstream c)
  · rfl

theorem sourceTaken_ridge (c : Chip) (a : DomainP) : (c.sourceTaken a).ridge.root = a.root ∧ (c.sourceTaken a).ridge.backup = a.backup ∧
    (c.sourceTaken a).ridge.src = domainSource a :=
  ⟨rfl, rfl, setSource_src _ _⟩

theorem identity_sourceTaken (c : Chip) (a : DomainP) : (c.sourceTaken a).identity = c.identity := rfl

theorem setDomain_eq (c : Chip) (a : DomainP) : c.setDomain a = ((c.domainTaken a).sourceTaken a).treeTaken a := by
  unfold Chip.setDomain Chip.treeTaken Chip.sourceTaken Chip.domainTaken
  dsimp only

theorem setDomain_ridge (c : Chip) (a : DomainP) : (c.setDomain a).ridge.root = a.root ∧ (c.setDomain a).ridge.backup = a.backup ∧
    (c.setDomain a).ridge.src = domainSource a := by
  obtain ⟨hroot, hbackup, hsrc⟩ := treeTaken_roots ((c.domainTaken a).sourceTaken a) a
  obtain ⟨hroot', hbackup', hsrc'⟩ := sourceTaken_ridge (c.domainTaken a) a
  rw [setDomain_eq]
  exact ⟨hroot.trans hroot', hbackup.trans hbackup', hsrc.trans hsrc'⟩

/-- A module that is who `d` says differs from it in its routes alone. -/
theorem domain_of_identity {d : Domain} (h : c.identity = { d with routes := [] }) : c.domain = { d with routes := c.domain.routes } :=
  congrArg (fun d : Domain => { d with routes := c.domain.routes }) h

theorem setDomain_domain (c : Chip) (a : DomainP) : (c.setDomain a).domain =
    { moduleId := a.moduleId, dx := a.dx, dy := a.dy, dz := a.dz, epoch := a.epoch, set := true, routes := (c.setDomain a).domain.routes } := by
  have hid : (c.setDomain a).identity = (c.domainTaken a).identity := by
    rw [setDomain_eq, identity_treeTaken, identity_sourceTaken]
  exact domain_of_identity (d := { moduleId := a.moduleId, dx := a.dx, dy := a.dy, dz := a.dz, epoch := a.epoch, set := true, routes := [] })
    (hid.trans (identity_domainTaken c a))

end

/-! ### OVERLAY_APPLY -/

section
variable {c : Chip} {h : Hdr} {ovl : Nat} {ha : W64} {img : List Byte}

/-- The overlay that the command names: one of the base configuration, or its own. -/
def Chip.overlayOf (c : Chip) (ovl : Nat) (ha : W64) (img : List Byte) : List Byte := if ha = 0 then tget [] c.boot.overlays ovl else img

theorem overlayCmd_of_mode (hovl : ovl ≤ 5) : c.overlayCmd h ovl ha img =
    if overlayOk ovl (c.overlayOf ovl ha img) then c.requestOverlay (some h) ovl (c.overlayOf ovl ha img) else c.done h 0x0104 0 0 := by
  have hnone : ¬ ovl = 0x15 := by omega
  rw [Chip.overlayCmd, if_neg hnone, if_neg (Nat.not_lt.2 hovl), Chip.overlayOf]

theorem overlayCmd_of_reserved (hovl : 5 < ovl) (hnone : ovl ≠ 0x15) : c.overlayCmd h ovl ha img = c.done h 0x0102 32 0 := by
  rw [Chip.overlayCmd, if_neg hnone, if_pos hovl] <;> rfl

/-- The overlay waits. -/
def Chip.overlayWaits (c : Chip) (w : List (Option Hdr × Nat × List Byte)) : Chip := { c with boot := { c.boot with ovlWait := w } }

theorem requestOverlay_of_busy {bs : List Byte} (hwait : c.boot.ovlWait = []) (hbusy : c.busy = true) :
    c.requestOverlay (some h) ovl bs = c.overlayWaits [(some h, ovl, bs)] := by
  have hb : (c.overlayWaits [(some h, ovl, bs)]).busy = true := hbusy
  rw [Chip.requestOverlay, hwait, List.nil_append]
  exact if_pos hb

theorem requestOverlay_of_idle {bs : List Byte} (hwait : c.boot.ovlWait = []) (hbusy : c.busy = false) :
    c.requestOverlay (some h) ovl bs = (c.applyOverlay ovl bs).ok h 0 := by
  have hb : ¬ (c.overlayWaits [(some h, ovl, bs)]).busy = true := Bool.eq_false_iff.1 hbusy
  have hsame : c.overlayWaits [] = c := by rw [Chip.overlayWaits, ← hwait]
  rw [Chip.requestOverlay, hwait, List.nil_append]
  refine (if_neg hb).trans ?_
  exact congrArg (fun k : Chip => (k.applyOverlay ovl bs).ok h 0) hsame

theorem applyOverlay_mode {bs : List Byte} (hovl : ovl < 5) : (c.applyOverlay ovl bs).boot.mode = ovl := by
  have h5 : ¬ ovl = 5 := by omega
  have h15 : ¬ ovl = 0x15 := by omega
  rw [Chip.applyOverlay, Chip.overlayNumber, if_neg h5, if_neg h15]

theorem applyOverlay_five {bs : List Byte} : (c.applyOverlay 5 bs).boot.ovl5 = true := by
  rw [Chip.applyOverlay, Chip.overlayNumber, if_pos rfl]

/-! ### POWER_LIMIT -/

theorem endSprint_limit (c : Chip) : c.endSprint.pwr.limit = c.pwr.limit := by
  unfold Chip.endSprint
  split
  · rfl
  · rfl

/-! ### TELEMETRY_READ -/

section
variable {a : TelemetryP} {size : Nat}

theorem telemetryCmd_of_shut (hsize : telemetrySize a.block.toNat = some size) (hfn : h.fn ≠ 0) (hblock : 6 < a.block.toNat) :
    c.telemetryCmd h a = c.done h 0x0603 0 0 := by
  rw [Chip.telemetryCmd, hsize]
  exact if_pos ⟨hfn, hblock⟩

/-- The entries that the command names. -/
def telemetryIdx (a : TelemetryP) : List Nat := (List.range a.count.toNat).map (· + a.first.toNat)

/-- Their bytes. -/
def Chip.telemetryBytes (c : Chip) (n : Nat) (a : TelemetryP) : List Byte :=
  (telemetryIdx a).flatMap (fun i => c.telemetryEntry n a.block.toNat a.die i)

theorem telemetryCmd_of_inside (hsize : telemetrySize a.block.toNat = some size) (hfn : h.fn = 0 ∨ a.block.toNat ≤ 6)
    (hin : a.first.toNat + a.count.toNat ≤ size) : c.telemetryCmd h a =
      (if a.clear = true then (telemetryIdx a).foldl (fun (k : Chip) i => k.telemetryClear h.ctx a.block.toNat i)
          { c with host := mwrite c.host a.ha.toNat (c.telemetryBytes h.ctx a) }
        else { c with host := mwrite c.host a.ha.toNat (c.telemetryBytes h.ctx a) }).ok h (BitVec.ofNat 32 (c.telemetryBytes h.ctx a).length) := by
  have hopen : ¬ (h.fn ≠ 0 ∧ 6 < a.block.toNat) := by omega
  rw [Chip.telemetryCmd, hsize]
  exact (if_neg hopen).trans (if_neg (Nat.not_lt.2 hin))

end

/-! ### DEBUG_UNLOCK -/

theorem unlockShut_iff (c : Chip) : c.unlockShut = true ↔ c.boot.dbgKey = 0 ∨ c.port.fails = 3 := by
  rw [Chip.unlockShut, Bool.or_eq_true, decide_eq_true_eq, decide_eq_true_eq]

/-- Phase 0 of the unlock. -/
def Chip.unlockAsk (c : Chip) (h : Hdr) (ha : W64) : Chip :=
  if c.challenge.2 then ({ c.challenge.1 with host := mwrite c.challenge.1.host ha.toNat c.challenge.1.port.challenge }).ok h 0
  else c.challenge.1.done h 0x0604 0 0

/-- Phase 1 of the unlock. -/
def Chip.unlockAnswer (c : Chip) (h : Hdr) (resp : List Byte) : Chip := (c.respond resp).1.done h (if (c.respond resp).2 then 0 else 0x0604) 0 0

theorem unlockAsk_of_shut (hshut : c.unlockShut = true) :
    c.unlockAsk h ha = ({ c with port := { c.port with result := 3 } } : Chip).done h 0x0604 0 0 := by
  have hchal : c.challenge = ({ c with port := { c.port with result := 3 } }, false) := if_pos hshut
  rw [Chip.unlockAsk, hchal]
  exact if_neg Bool.false_ne_true

/-- The module with its challenge in host memory. -/
def Chip.challenged (c : Chip) (ha : W64) : Chip :=
  { c.challenge.1 with host := mwrite c.challenge.1.host ha.toNat c.challenge.1.port.challenge }

theorem challenge_kept (hopen : c.unlockShut = false) :
    c.challenge.2 = true ∧ c.challenge.1.host = c.host ∧ c.challenge.1.port.unlocked = c.port.unlocked := by
  have hno : ¬ c.unlockShut = true := Bool.eq_false_iff.1 hopen
  rw [Chip.challenge, if_neg hno]
  exact ⟨rfl, rfl, rfl⟩

theorem unlockAsk_of_open (hopen : c.unlockShut = false) : c.unlockAsk h ha = (c.challenged ha).ok h 0 := by
  rw [Chip.unlockAsk, (challenge_kept hopen).1]
  exact if_pos rfl

theorem mread_challenged (hopen : c.unlockShut = false) (hw : c.host.wf = true) :
    mread (c.challenged ha).host ha.toNat 32 = (c.challenged ha).port.challenge := by
  obtain ⟨-, -, hlen⟩ := challenge_of_open hopen
  obtain ⟨-, hhost, -⟩ := challenge_kept hopen
  have hread := mread_mwrite hw ha.toNat c.challenge.1.port.challenge
  rw [hlen, ← hhost] at hread
  exact hread

theorem unlockAnswer_of_shut {resp : List Byte} (hshut : c.unlockShut = true ∨ c.challengeLive = false) : c.unlockAnswer h resp =
    ({ c with port := { c.port with result := 3, challenge := [] } } : Chip).done h 0x0604 0 0 := by
  have hs : (c.unlockShut || !c.challengeLive) = true := by
    rw [Bool.or_eq_true, Bool.not_eq_true']
    exact hshut
  have hresp : c.respond resp = ({ c with port := { c.port with result := 3, challenge := [] } }, false) := if_pos hs
  rw [Chip.unlockAnswer, hresp]
  exact congrArg (fun st => Chip.done _ h st 0 0) (if_neg Bool.false_ne_true)

theorem not_shut (hopen : c.unlockShut = false) (hlive : c.challengeLive = true) : ¬ (c.unlockShut || !c.challengeLive) = true := by
  rw [hopen, hlive]
  decide

theorem unlockAnswer_of_right {resp : List Byte} (hopen : c.unlockShut = false) (hlive : c.challengeLive = true)
    (hresp : resp = hmac (leBytes 32 c.boot.dbgKey.toNat) c.port.challenge) : c.unlockAnswer h resp =
      ({ c with port := { c.port with result := 2, challenge := [], unlocked := true } } : Chip).done h 0 0 0 := by
  have hr : c.respond resp = ({ c with port := { c.port with result := 2, challenge := [], unlocked := true } }, true) :=
    (if_neg (not_shut hopen hlive)).trans (if_pos hresp)
  rw [Chip.unlockAnswer, hr]
  exact congrArg (fun st => Chip.done _ h st 0 0) (if_pos rfl)

theorem unlockAnswer_of_wrong {resp : List Byte} (hopen : c.unlockShut = false) (hlive : c.challengeLive = true)
    (hresp : resp ≠ hmac (leBytes 32 c.boot.dbgKey.toNat) c.port.challenge) : c.unlockAnswer h resp =
      ({ c with port := { c.port with result := 3, challenge := [], fails := c.port.fails + 1 } } : Chip).done h 0x0604 0 0 := by
  have hr : c.respond resp = ({ c with port := { c.port with result := 3, challenge := [], fails := c.port.fails + 1 } }, false) :=
    (if_neg (not_shut hopen hlive)).trans (if_neg hresp)
  rw [Chip.unlockAnswer, hr]
  exact congrArg (fun st => Chip.done _ h st 0 0) (if_neg Bool.false_ne_true)

end

/-- Settles O19: each command by its operands' checks and what it then changes. -/
theorem moduleCommands : Obligations.ModuleCommands := by
  unfold Obligations.ModuleCommands
  intro p c h
  have run {i : Instr} {pf : Bool} {f : Chip → Chip} {x : Chip} (ht : Taken c h pf true)
      (hi : exec i ⟨p, c⟩ = State.run ⟨p, c⟩ (fun c => c.command h pf true f)) (hf : f c = x) : exec i ⟨p, c⟩ = .next ⟨p, x⟩ := by
    rw [hi, run_command ht p, hf]
  refine ⟨fun a hfn hctx => ?_, fun a hfn hctx => ?_, fun ovl ha img hfn hctx => ?_, fun watts sprint hfn hctx => ?_,
    fun a size hfn hctx hsize => ?_, fun ha resp hfn hctx => ?_⟩
  case refine_1 =>
    have ht : Taken c h false true := ⟨hfn.imp_right (fun hb => ⟨rfl, hb⟩), fun _ => hctx⟩
    have hset : exec (.oringSet h a) ⟨p, c⟩ = .next ⟨p, (((c.oringPut h.ctx a).drainOring h.ctx a.ring.toNat).tryShipEnd h.ctx).ok h 0⟩ :=
      run ht rfl rfl
    refine ⟨hset, fun hw hr => ?_⟩
    have hg := oring_oringPut a hw hr
    intro g
    have hg' : g = ((c.ctx h.ctx).oring a.ring.toNat).set' a := hg
    rw [hg']
    exact ⟨rfl, rfl, rfl, rfl, rfl, rfl, rfl, rfl, fun k hk => oring_oringPut_ne a hw hk, fun hempty hship =>
      hset.trans (by rw [oringPut_settled a hw hr hempty hship] <;> rfl)⟩
  case refine_2 =>
    have ht : Taken c h true true := ⟨.inl hfn, fun _ => hctx⟩
    refine ⟨fun hsrc => run ht rfl (if_pos hsrc), fun hsrc hgood => ⟨run ht rfl ((if_neg hsrc).trans (by rw [hgood])), setDomain_domain c a,
      setDomain_ridge c a⟩⟩
  case refine_3 =>
    have ht : Taken c h true true := ⟨.inl hfn, fun _ => hctx⟩
    intro bs
    refine ⟨fun hovl hok hwait => ⟨fun hidle => ⟨?_, applyOverlay_mode, fun h5 => ?_⟩, fun hbusy => ?_⟩, fun hovl hbad => ?_, fun hovl hnone => ?_⟩
    · exact run ht rfl ((overlayCmd_of_mode hovl).trans ((if_pos hok).trans (requestOverlay_of_idle hwait hidle)))
    · rw [h5]
      exact applyOverlay_five
    · exact run ht rfl ((overlayCmd_of_mode hovl).trans ((if_pos hok).trans (requestOverlay_of_busy hwait hbusy)))
    · exact run ht rfl ((overlayCmd_of_mode hovl).trans (if_neg (Bool.eq_false_iff.1 hbad)))
    · exact run ht rfl (overlayCmd_of_reserved hovl (fun he => hnone (BitVec.eq_of_toNat_eq he)))
  case refine_4 =>
    have ht : Taken c h true true := ⟨.inl hfn, fun _ => hctx⟩
    refine ⟨fun hmin hmax => ⟨run ht rfl (if_neg (by omega)), endSprint_sprinting _, endSprint_limit _⟩, fun hout => run ht rfl (if_pos hout)⟩
  case refine_5 =>
    have ht : Taken c h false true := ⟨hfn.imp_right (fun hb => ⟨rfl, hb⟩), fun _ => hctx⟩
    refine ⟨fun hvf hblock => run ht rfl (telemetryCmd_of_shut hsize hvf hblock), fun hopen hin => ?_⟩
    have hcmd := telemetryCmd_of_inside (c := c) hsize hopen hin
    refine ⟨fun hkeep => run ht rfl (hcmd.trans ?_), fun hclear => run ht rfl (hcmd.trans ?_)⟩
    · rw [if_neg (Bool.eq_false_iff.1 hkeep)] <;> rfl
    · rw [if_pos hclear] <;> rfl
  case refine_6 =>
    have ht : Taken c h true true := ⟨.inl hfn, fun _ => hctx⟩
    intro shut refused good
    have ask {x : Chip} (hx : c.unlockAsk h ha = x) : exec (.debugUnlock h false ha resp) ⟨p, c⟩ = .next ⟨p, x⟩ := run ht rfl hx
    have answer {x : Chip} (hx : c.unlockAnswer h resp = x) : exec (.debugUnlock h true ha resp) ⟨p, c⟩ = .next ⟨p, x⟩ := run ht rfl hx
    have hopen (hno : ¬ shut) : c.unlockShut = false := Bool.eq_false_iff.2 (fun hs => hno ((unlockShut_iff c).1 hs))
    refine ⟨fun hs => ask (unlockAsk_of_shut ((unlockShut_iff c).2 hs)), fun hno => ⟨c.challenged ha, ask (unlockAsk_of_open (hopen hno)), ?_⟩,
      fun hs => answer (unlockAnswer_of_shut (hs.imp_left (unlockShut_iff c).2)),
      fun hno hlive hresp => answer (unlockAnswer_of_right (hopen hno) hlive hresp),
      fun hno hlive hresp => answer (unlockAnswer_of_wrong (hopen hno) hlive hresp)⟩
    obtain ⟨-, htime, hlen⟩ := challenge_of_open (hopen hno)
    obtain ⟨-, -, hunlocked⟩ := challenge_kept (hopen hno)
    exact ⟨hlen, htime, hunlocked, mread_challenged (hopen hno)⟩

end Sys2Proof.Machine
end
